-- ==== Sys2Proof/Word.lean ====
section
/-! DEFINITION. The word types of the JX4 model: 64-bit words, bytes, 128-byte lines and lane masks
(00 R11, R12; 09 R203, R204). -/
namespace Sys2Proof

/-- A 64-bit word: a register, an instruction word, an 8-byte element. -/
abbrev Word := BitVec 64
/-- One byte. -/
abbrev Byte := BitVec 8
/-- The 1,024 bits of a 128-byte line; byte k of the line is bits [8k+7:8k] (R12). -/
abbrev LineData := BitVec 1024
/-- One bit per lane; a role has at most 1,024 lanes (R204). -/
abbrev LaneMask := BitVec 1024
/-- The 128 bits of one accumulator slot (R166). -/
abbrev SlotBits := BitVec 128
/-- A 7-bit register field: bit 6 set names a scalar register, clear a vector register (R35). -/
abbrev RegName := BitVec 7

/-- The register field names a scalar register (R35). -/
def RegName.isScalar (r : RegName) : Bool := r.getLsbD 6
/-- The number of the register that a field names (R35). -/
def RegName.num (r : RegName) : Nat := (r.extractLsb' 0 6).toNat

end Sys2Proof
end

