-- ==== Sys2Proof/Syntax.lean ====
section
/-! DEFINITION. The abstract syntax: the operand types and formats of the instruction words (01 R33-R46), the
payloads of the device's events, and the one inductive `Instr` with one constructor for every row of
spec/opcode_table.json: three clause steps, the instruction words, and the steps of the device's agents. -/
namespace Sys2Proof

/-- The sixteen operand types of the TYPE field (R34). -/
inductive Ty where
  | i64 | n64 | i32 | n32 | i16 | n16 | i8 | n8 | f64 | f32 | bf16 | f16 | e4m3 | e5m2 | t2 | b1
deriving DecidableEq, Repr

/-- Format A (R38). -/
structure FmtA where
  ty : Ty
  mask : BitVec 3
  d : RegName
  a : RegName
  b : RegName
  c : RegName
  rm : BitVec 3
  ws : BitVec 3
  mod : BitVec 11
deriving DecidableEq, Repr

/-- Format I1 (R39): a 32-bit immediate. -/
structure FmtI1 where
  ty : Ty
  mask : BitVec 3
  d : RegName
  imm : BitVec 32
deriving DecidableEq, Repr

/-- Format I2 (R39): a source register and a 31-bit signed immediate. -/
structure FmtI2 where
  ty : Ty
  mask : BitVec 3
  d : RegName
  a : RegName
  imm : BitVec 31
deriving DecidableEq, Repr

/-- Format M (R40). -/
structure FmtM where
  ty : Ty
  mask : BitVec 3
  d : RegName
  base : BitVec 6
  off : BitVec 20
  view : BitVec 4
  acl : BitVec 2
  scope : BitVec 3
  ws : BitVec 3
deriving DecidableEq, Repr

/-- Format MA (R41). -/
structure FmtMA where
  ty : Ty
  mask : BitVec 3
  d : RegName
  a : RegName
  base : BitVec 6
  off : BitVec 13
  op : BitVec 4
  acl : BitVec 2
  scope : BitVec 3
  ws : BitVec 3
deriving DecidableEq, Repr

/-- Format B (R43). -/
structure FmtB where
  ty : Ty
  mask : BitVec 3
  s : RegName
  mc : BitVec 3
  cond : BitVec 3
  off : BitVec 32
deriving DecidableEq, Repr

/-- Format Q (R44). -/
structure FmtQ where
  ty : Ty
  mask : BitVec 3
  d : RegName
  a : RegName
  b : RegName
  c : RegName
  q : BitVec 4
  qmod : BitVec 10
  ws : BitVec 3
deriving DecidableEq, Repr

/-- Format X (R45); `xhi` is XMOD[4], bit 10 of the word. -/
structure FmtX where
  ty : Ty
  mask : BitVec 3
  d : RegName
  sc : BitVec 6
  sf : BitVec 6
  sp : BitVec 2
  reuse : BitVec 1
  ord : BitVec 1
  cnt : BitVec 1
  sn : BitVec 6
  xmod : BitVec 4
  xhi : BitVec 1
  ws : BitVec 3
deriving DecidableEq, Repr

/-- Format S (R46). -/
structure FmtS where
  ty : Ty
  mask : BitVec 3
  d : RegName
  a : RegName
  sreg : BitVec 16
  smod : BitVec 12
  ws : BitVec 3
deriving DecidableEq, Repr

/-- An agent of the die-scope protocol: dies 0-3, and 4 for the host (R131 OWN). -/
abbrev Agent := Fin 5
/-- A logical die. -/
abbrev Die := Fin 4

/-- MOESI states of an agent's line (R125). -/
inductive Moesi where
  | I | S | E | O | M
deriving DecidableEq, Repr

/-- The kind of a DATA message (R126). -/
inductive DataKind where
  | S | E | M
deriving DecidableEq, Repr

/-- How an access is classed (R141). -/
inductive AccClass where
  | ordinary | streaming | commutative
deriving DecidableEq, Repr

/-- The operation a store-like request performs on its element at the slice (R121, R149, R234, R235). -/
inductive ElemOp where
  | store                      -- write the data bytes
  | add | min | max | and | or | xor | swap | fadd
  | cas (expect : Word)        -- write the data when the element equals `expect`
  | load                       -- a read performed like an atomic (not used by stores)
deriving DecidableEq, Repr

/-- The tag of an L1 line (R89): VA[56:7], ASID, and the version tag: `none` for the current frame, `some v` for the
retained frame of version v. -/
structure L1Tag where
  va : Nat
  asid : Nat
  vmid : Nat
  ver : Option Nat
deriving DecidableEq, Repr

/-- What the walk found for a line and its fill records (R89, R110): the R, W and PRIV bits and the leaf's VER. -/
structure FillPerm where
  r : Bool
  w : Bool
  priv : Bool
  vers : Bool
  ver : Nat
deriving DecidableEq, Repr

/-- LDREQ (R119): one core's read of one line. `op` names the waiting load of that core (none for a prefetch),
`view` marks a line of a frame that a view resolved (R133), `acc` an accumulator line (R134). -/
structure LdReqMsg where
  core : Nat
  op : Option Nat
  line : Nat
  vmid : Nat
  tag : L1Tag
  perm : FillPerm
  p : Nat
  oldWts : Option Nat
  view : Bool
  acc : Bool
  l2only : Bool
deriving DecidableEq, Repr

/-- LDDATA and RENEW (R119). `error` marks a read that met an uncorrectable error (R75) or a refusal (R418). -/
structure LdReply where
  req : LdReqMsg
  data : LineData
  wts : Nat
  rts : Nat
  error : Option Nat
deriving DecidableEq, Repr

/-- STREQ (R119): one element of a store or atomic of a core. `off` is the byte in the line, `size` in bytes. -/
structure StReqMsg where
  core : Nat
  op : Nat
  lane : Nat
  line : Nat
  vmid : Nat
  tag : L1Tag
  off : Nat
  ty : Ty
  size : Nat
  data : Word
  elem : ElemOp
  cls : AccClass
  p : Nat
deriving DecidableEq, Repr

/-- STDONE (R119), with the old element that an atomic returns (R234), the line's wts before the store, and the line as the store
leaves it. -/
structure StReply where
  req : StReqMsg
  wts : Nat
  prev : Nat
  old : Word
  new : Word
  bytes : LineData
  error : Option Nat
deriving DecidableEq, Repr

/-- The two accumulator value formats (R272). -/
inductive AccVal where
  | af (bits : BitVec 96)
  | ai (bits : BitVec 96)
deriving DecidableEq, Repr

/-- The reduction operations a part may carry (R237, R318). -/
inductive RedOp where
  | add | min | max | fadd
deriving DecidableEq, Repr

/-- One slot part of a line update (R320): the value, absent when no live panel formed it (R329), and the flags of
its own forming (R462). -/
structure AccPart where
  slot : Fin 8
  val : Option AccVal
  nx : Bool
  ovf : Bool
  inv : Bool
deriving DecidableEq, Repr

/-- One line update on its way to the home slice (R318, R320). -/
structure LineUpdate where
  line : Nat
  vmid : Nat
  core : Nat
  rid : Nat
  parts : List AccPart
  op : RedOp
  ord : Bool
  flow : BitVec 12
  seq : BitVec 16
  p : Nat
  pc : Word
  va : Nat
deriving DecidableEq, Repr

/-- The accumulator accesses that are not reductions (R333). -/
inductive AccAccess where
  | clr | setSeq (seq : BitVec 16) | flush | read
deriving DecidableEq, Repr

/-- An ACCCLR, ACCSEQ, ACCFL or ACCRD request for the slots `slots` of one line (R333-R335). -/
structure AccReq where
  line : Nat
  vmid : Nat
  core : Nat
  rid : Nat
  op : Nat
  slots : List (Fin 8)
  lanes : List Nat
  acc : AccAccess
  p : Nat
  pc : Word
  va : Nat
deriving DecidableEq, Repr

/-- A scratchpad access (R144, R172): the gang and rank name the share, `off` the byte in it. -/
structure SpadReq where
  core : Nat
  op : Nat
  lane : Nat
  gang : Nat
  rank : Nat
  off : Nat
  ty : Ty
  size : Nat
  data : Word
  elem : ElemOp
  p : Nat
deriving DecidableEq, Repr

/-- The identity of an engine context: a shared copy context, a team's local context, a composer or an encoder. -/
inductive CtxId where
  | shared (die : Die) (ctx : Fin 256)
  | local (gang team : Nat)
  | composer (part : Fin 8)
  | encoder (part : Fin 8)
deriving DecidableEq, Repr

/-- The engine commands (R248). -/
inductive CmdKind where
  | copy | tcopy | halo | ared | put | get | publish | pin | vret | fcomp | encf | close
deriving DecidableEq, Repr

/-- A command as the issuing instruction captured it (R249): operands, modifiers, WVER, FMT.SAT, VMID and ASID. -/
structure Cmd where
  kind : CmdKind
  a : Word
  b : Word
  c : Word
  qmod : BitVec 10
  wver : Nat
  sat : Bool
  vmid : Nat
  asid : Nat
  rid : Nat
  gang : Nat
  rank : Nat
  core : Nat
deriving DecidableEq, Repr

/-- A transfer on a flow between endpoints (R188-R191): `src` is the sending die (kind 0), host (1) or pod device (2);
`ctx` and `n` name the command that sends it, and `addr` is the address that the command names. -/
structure FlowTransfer where
  die : Die
  flow : Nat
  seq : Nat
  vmid : Nat
  srcKind : Nat
  srcId : Nat
  pa : Nat
  size : Nat
  data : LineData
  ctx : CtxId
  n : Nat
  face : Nat := 0    -- the face of a HALO that it belongs to (R196)
  addr : Word
deriving DecidableEq, Repr

/-- What a pod request or a host request does. -/
inductive ReqKind where
  | read | write | atomicAdd | swap | cas (expect : Word) | other
deriving DecidableEq, Repr

/-- An incoming UALink request (R192, R194). -/
structure PodReq where
  kind : ReqKind
  exp : Fin 64
  off : Nat
  size : Nat
  data : LineData
  vmid : Nat
  src : Nat
  flow : Nat := 1    -- the flow that carries it, and its sequence number (R188)
  seq : Nat := 0
deriving DecidableEq, Repr

/-- A host request over the Bampel link (R199, R135). It travels on flow 0x000, in the order in which the host sends (R188). -/
structure HostReq where
  kind : ReqKind
  pa : Nat
  size : Nat
  data : LineData
  vmid : Nat
deriving DecidableEq, Repr

/-- What bring-up meets (R455): the last step that it completes, 8 for success, the failure code of the next one, and the key drawn
for VMID 0. -/
structure BootOutcome where
  step : Fin 9
  fail : BitVec 8
  key0 : BitVec 512
deriving DecidableEq, Repr

/-- One constructor for every row of spec/opcode_table.json. -/
inductive Instr where
  -- clause steps (01 R22, R30; 19 R404)
  | clauseFetch (rid : Nat) | clauseIssue (rid : Nat) | issueOpportunity (core : Nat)
  -- CLASS 1 (13 R286-R290)
  | add (o : FmtA) | sub (o : FmtA) | mul (o : FmtA) | mulhi (o : FmtA) | mad (o : FmtA) | div (o : FmtA)
  | rem (o : FmtA) | neg (o : FmtA) | abs (o : FmtA) | min (o : FmtA) | max (o : FmtA) | and (o : FmtA)
  | or (o : FmtA) | xor (o : FmtA) | not (o : FmtA) | andn (o : FmtA) | shl (o : FmtA) | shr (o : FmtA)
  | sar (o : FmtA) | rol (o : FmtA) | sel (o : FmtA) | mov (o : FmtA) | cmp (o : FmtA)
  -- CLASS 2 (13 R286, R288-R290)
  | addImm (o : FmtI2) | subImm (o : FmtI2) | mulImm (o : FmtI2) | minImm (o : FmtI2) | maxImm (o : FmtI2)
  | andImm (o : FmtI2) | orImm (o : FmtI2) | xorImm (o : FmtI2) | shlImm (o : FmtI2) | shrImm (o : FmtI2)
  | sarImm (o : FmtI2) | rolImm (o : FmtI2) | cmpImm (o : FmtI2) | movi (o : FmtI1) | movh (o : FmtI1)
  -- CLASS 3 (13 R291)
  | clz (o : FmtA) | ctz (o : FmtA) | popc (o : FmtA) | brev (o : FmtA) | bfx (o : FmtA) | bfi (o : FmtA)
  -- CLASS 4-6 (13 R293-R298)
  | fadd (o : FmtA) | fsub (o : FmtA) | fmul (o : FmtA) | fma (o : FmtA) | fms (o : FmtA) | fnma (o : FmtA)
  | fmin (o : FmtA) | fmax (o : FmtA) | fabs (o : FmtA) | fneg (o : FmtA) | fcpys (o : FmtA) | fcmp (o : FmtA)
  | fclass (o : FmtA) | fscale (o : FmtA) | fgetexp (o : FmtA) | frnd (o : FmtA) | fdiv (o : FmtA)
  | fsqrt (o : FmtA) | frcpe (o : FmtA) | frsqe (o : FmtA) | fexp2 (o : FmtA) | flog2 (o : FmtA)
  -- CLASS 8 (13 R299-R304)
  | cvt (o : FmtA) | cvts (o : FmtA) | pack (o : FmtA) | unpack (o : FmtA) | amaxrd (o : FmtA) | amaxclr (o : FmtA)
  -- CLASS 9 (13 R305-R309)
  | vbcast (o : FmtA) | vshfl (o : FmtA) | vshift (o : FmtA) | vrot (o : FmtA) | vred (o : FmtA) | vscan (o : FmtA)
  | vballot (o : FmtA) | vcount (o : FmtA) | vfirst (o : FmtA)
  -- CLASS 10 (18 R372)
  | mand (o : FmtA) | mor (o : FmtA) | mxor (o : FmtA) | mnot (o : FmtA) | mmove (o : FmtA) | mfroms (o : FmtA)
  | mtos (o : FmtA)
  -- CLASS 11 (18 R373-R382)
  | bra (o : FmtB) | bc (o : FmtB) | call (o : FmtB) | ret (o : FmtB) | jmpi (o : FmtB) | split (o : FmtB)
  | els (o : FmtB) | join (o : FmtB) | loop (o : FmtB) | brk (o : FmtB) | cont (o : FmtB) | exit (o : FmtB)
  -- CLASS 12 (18 R383)
  | setfmt (o : FmtA) | getfmt (o : FmtA) | nop (o : FmtA)
  -- CLASS 13-17 (10)
  | ld (o : FmtM) | st (o : FmtM) | ldsp (o : FmtM) | stsp (o : FmtM) | spset (o : FmtM) | pref (o : FmtM)
  | ldsc (o : FmtM) | stsc (o : FmtM) | ldcl (o : FmtM) | stcl (o : FmtM) | stmc (o : FmtMA)
  | gath (o : FmtMA) | scat (o : FmtMA) | fence (o : FmtM)
  | atom (o : FmtMA) | cas (o : FmtMA) | red (o : FmtMA) | cadd (o : FmtMA) | cwait (o : FmtMA) | cread (o : FmtMA)
  | tlwait (o : FmtQ) | close (o : FmtQ)
  -- CLASS 18 (11)
  | qbind (o : FmtQ) | copy (o : FmtQ) | tcopy (o : FmtQ) | halo (o : FmtQ) | ared (o : FmtQ) | put (o : FmtQ)
  | get (o : FmtQ) | publish (o : FmtQ) | pin (o : FmtQ) | vret (o : FmtQ) | viewset (o : FmtQ) | wverset (o : FmtQ)
  | fcomp (o : FmtQ) | encf (o : FmtQ)
  -- CLASS 19 (15)
  | mma (o : FmtX) | mmas (o : FmtX) | mmab (o : FmtX) | mscale (o : FmtX) | accclr (o : FmtX) | accrd (o : FmtX)
  | accfl (o : FmtX) | accseq (o : FmtX)
  -- CLASS 20 (17)
  | bset (o : FmtQ) | bq (o : FmtQ) | bres (o : FmtQ) | bproc (o : FmtQ) | bsave (o : FmtQ) | bresume (o : FmtQ)
  | babort (o : FmtQ)
  -- CLASS 21-23 (21)
  | launch (o : FmtQ) | enqr (o : FmtQ) | enqc (o : FmtQ) | yield (o : FmtQ)
  | trap (o : FmtS) | tret (o : FmtS) | sread (o : FmtS) | swrite (o : FmtS) | tack (o : FmtS)
  | tlbinv (o : FmtS) | lflush (o : FmtS) | linv (o : FmtS) | ctxsave (o : FmtS) | ctxload (o : FmtS)
  | logreplay (o : FmtS) | fqpop (o : FmtS) | halt (o : FmtS)
  -- coherence within a die (05 R119-R122)
  | ldreq (m : LdReqMsg) | lddata (m : LdReply) | renew (m : LdReply) | streq (m : StReqMsg) | stdone (m : StReply)
  -- coherence among dies and the host (05 R126-R132)
  | gets (home : Die) (line : Nat) (a : Agent) | getm (home : Die) (line : Nat) (a : Agent)
  | upgm (home : Die) (line : Nat) (a : Agent) | fwds (home : Die) (o : Agent) (line : Nat) (a : Agent)
  | fwdm (home : Die) (o : Agent) (line : Nat) (a : Agent)
  | data (a : Agent) (line : Nat) (kind : DataKind) (bytes : LineData) (wts : Nat) (hts : Nat) (fromOwner : Bool)
  | gnt (a : Agent) (line : Nat) (hts : Nat) (forwarded : Bool) | inv (home : Die) (a : Agent) (line : Nat)
  | invack (home : Die) (line : Nat) (a : Agent) (h : Nat) | binv (home : Die) (a : Agent) (line : Nat)
  | back (home : Die) (line : Nat) (a : Agent) (h : Nat)
  | mirw (home : Die) (line : Nat) (a : Agent) (bytes : LineData) (mask : BitVec 128) (wts : Nat)
  | mack (a : Agent) (line : Nat) (wts : Nat) | evc (home : Die) (line : Nat) (a : Agent) (h : Nat)
  | homeQueueStart (home : Die) (line : Nat) | victimBufferFree (home : Die) | l2FillResume (die : Die)
  -- accumulators and the matrix engine (14)
  | accLineUpdate (u : LineUpdate) | reductionResend (core : Nat) | matrixResultSend (core : Nat)
  | matrixBReadsDone (core : Nat)
  -- flows, pod and host (08)
  | flowTransferReceive (t : FlowTransfer) | flowResend (die : Die) | engineCommandAccept (ctx : CtxId)
  | engineCommandStart (ctx : CtxId) | engineCommandComplete (ctx : CtxId) (n : Nat)
  | engineCommandFail (ctx : CtxId) (n : Nat) (code : Nat) (addr : Nat)
  -- versions (04)
  | publishFire (die : Die) | snapshotCopyRequest (die : Die) | snapshotCopyResume (die : Die)
  | snapshotCopyComplete (die : Die) (dataError : Bool) | reclaimSweep (die : Die)
  -- migration (03)
  | migrationStart (die : Die) (tier : Fin 3) | migrationResume (die : Die) (tier : Fin 3)
  | migrationComplete (die : Die) (tier : Fin 3) (dataError : Bool) | frameReturnResume (die : Die) (tier : Fin 3)
  -- seams and die liveness (05 R137-R140)
  | seamWake (a b : Die) | seamWakeDone (a b : Die) | dieDeadDeclaration (die dead : Die)
  -- scheduling (19)
  | launchDepMet (queue : Nat) | gangAdmit | gangRetire (gang : Nat) | spawnPushAccept (qva : Nat) (vmid asid : Nat)
  | spawnBatchForm (qva : Nat) (vmid asid : Nat) | schedulerPreempt
  -- faults and the side log (20)
  | faultRingSpace (die : Die) | faultVerdictRetry (die : Die) (idx : Nat)
  | faultVerdictFinal (die : Die) (idx : Nat) | sidelogReplay (core : Nat) (entry : Nat) | sidelogSpace (core : Nat)
  | homeRefusal (m : StReqMsg) (cause : Nat) | pendingTrapTake (rid : Nat) | gangSaveComplete (gang : Nat)
  -- beam unit (16)
  | beamNodeVisit (core : Nat) (q : Nat) | beamSplitPush (core : Nat) (q : Nat)
  | beamRaysComplete (core : Nat) (q : Nat) | cwaitWake (rid : Nat)
  -- partitions, keys, bring-up, power (22)
  | seamRetrainComplete (a b : Die) | scratchpadAccess (r : SpadReq) | accumulatorAccess (r : AccReq)
  -- timers, and requests of the host (05, 08, 19)
  | heartbeatTimeout (die peer : Die) | ptsAge (core : Nat) | spawnBatchTimeout (qva : Nat) (vmid asid : Nat)
  | hostRequest (r : HostReq)
  -- requests and register writes that come from outside the part (02, 03, 05, 08, 19, 20, 22)
  | podRequest (r : PodReq) | ualinkPortDown (port : Fin 16)
  | ctxControlWrite (ctx : CtxId) (v : Word) | ctxErrClear (ctx : CtxId)
  | migrationEnableWrite (die : Die) (tier : Fin 3) (v : Word)
  | patrolScrub (die : Die) (tier : Bool) (frame : Nat) (corrected : Nat) (bad : Bool)
  | frameAttrWrite (die : Die) (off : Nat) (v : Word) | rclear (die : Die) (v : Word)
  | hashselWrite (die : Die) (v : Word) | ptsWrite (core : Nat) (v : Word)
  | seamRetrainTimeout (a b : Die) (passA passB : Bool)
  | doorbell (die : Die) (v : Word) | faultRingConsWrite (die : Die) (v : Word) | keyLoad (die : Die) (v : Word)
  | keyClear (die : Die) (v : Word) | partitionWrite (die : Die) (off : Nat) (v : Word) | attestRequest (v : Word)
  | errorCounterWrite (die : Die) (off : Nat) (v : Word) | registerWrite (die : Die) (off : Nat) (v : Word)
  | bringUp (o : BootOutcome) | thermalThrottle (up : Bool) | thermalShutdown | seamSleep (a b : Die)
  | heartbeat (die : Die) | seamWakeFail (a b : Die)
deriving DecidableEq, Repr

end Sys2Proof
end

