-- ==== Sys2Proof/Config.lean ====
section
/-! DEFINITION. What a product fixes and what the manual leaves open: the slice count and the cfg fields of the signed
blob (00 R9, 22 R454), and the free values. A free value is an opaque constant: no proof can see it. -/
namespace Sys2Proof.Config

/-- The enabled slice count of every die, 30, 31 or 32, as NSEL of HASHSEL (R9, R70); the blob loads it. (DESIGN CHOICE, log 4) -/
opaque nsel : Fin 3
/-- SLEEPIDLE of the configuration blob (R118). -/
opaque sleepIdle : BitVec 16
/-- PLIM of the configuration blob, in watts above 800 (R459: 800 to 2,400). -/
opaque plim : Fin 1601
/-- The device serial number (R454), 128 bytes at most: the two words of the attestation report. -/
opaque serial : BitVec 64

/-- What a controller reads when a line stored under one AES-256-XTS key is decrypted under another (R71, R73): the
plaintext stored, the key it was stored under, the reading key and the line's canonical number. -/
opaque garble : LineData → BitVec 512 → BitVec 512 → Nat → LineData
/-- What the host reads of a line the device encrypted in the encrypted host range (R72). -/
opaque cipher : LineData → BitVec 512 → Nat → LineData
/-- What the device reads of bytes the host wrote in the encrypted host range (R72). -/
opaque decipher : LineData → BitVec 512 → Nat → LineData

/-- What is coded: CODEC, W, H, QP and whether the frame is a key frame. -/
structure Picture where
  codec : Nat
  w : Nat
  h : Nat
  qp : Nat
  key : Bool
deriving DecidableEq, Repr

/-- A block of a plane (0 luma, 1 Cb, 2 Cr): the place of its first sample and its size, in samples of the plane, and whether its mode is
an intra mode. -/
structure BlockAt where
  plane : Nat
  x : Nat
  y : Nat
  n : Nat
  intra : Bool
deriving DecidableEq, Repr

/-- What the codec standards fix and the manual does not hold (R263, R264): a frame is its planes' samples, row by row, and a coded block is
given as the numbers of its place, size, mode and levels.

The prediction of a block under the `mode`-th intra mode of Table 6, from the samples that are reconstructed so far. -/
opaque intraPred : Picture → BlockAt → Nat → List (List Nat) → List Nat
/-- The prediction of a block at a whole-sample luma motion vector in a reference frame. -/
opaque interPred : Picture → BlockAt → Int → Int → List (List Nat) → List Nat
/-- The exact rational by which dequantisation multiplies the level at a row and column of a block, as numerator and denominator less 1. -/
opaque quantStep : Picture → BlockAt → Nat → Nat → Nat × Nat
/-- The samples that a decoder has for a block before the loop filters, from its prediction and its levels. -/
opaque decodeBlock : Picture → BlockAt → List Nat → List Int → List Nat
/-- The loop filters of Table 6, over the frame as the coded blocks leave it. -/
opaque loopFilter : Picture → List (List Int) → List (List Nat) → List (List Nat)
/-- The bytes that code the blocks as one temporal unit or access unit, for a session that has coded so many frames. -/
opaque bitstream : Picture → Nat → List (List Int) → List Byte
/-- The blocks that AV1 has where the frame's edge forces the 16 × 16 block at a place to be split, as places and sizes. -/
opaque edgeBlocks : Picture → Nat → Nat → List (Nat × Nat × Nat)
/-- A source sample of AV1 beyond the frame, which the manual does not give: plane, x, y. -/
opaque beyondFrame : Nat → Nat → Nat → Nat

/-- The SHA-256 that the boot ROM holds of the vendor's modulus (R453). -/
opaque romKeyHash : BitVec 256
/-- SHA-256 of the attestation certificate (R457). -/
opaque certHash : BitVec 256
/-- The RSASSA-PSS signature of the attestation report's first 384 bytes (R457). -/
opaque attestSign : List Byte → List Byte

/-- How another member of an all-reduce stands when the collective engine looks for it (R197): 0 it has not issued, 1 it has, and its
parameters agree, 2 it refuses. -/
opaque membersReady : Nat → Fin 3

/-- What a racing stack-area write leaves an entry read back as is a free value of the run (R209); likewise every
other value the manual leaves open. -/
opaque freeWord : Nat → Word

end Sys2Proof.Config
end

