-- ==== Sys2Proof/WellFormed.lean ====
section
/-! DEFINITION. Which instruction words are legal beyond their opcode: the checks of R34-R48 and of each entry's field
table, as one named reason for refusal, and `Instr.wf`. -/
namespace Sys2Proof

/-- Why a word is ILLEGAL (R48), in the order the checks are made. -/
inductive Illegal where
  | unlistedOpcode   -- the CLASS and FUNC pair is not in Table 14 (R47)
  | badType          -- TYPE not accepted by the entry (R34)
  | badRegister      -- a register of the wrong kind, or a mask field with bits [6:3] set (R35-R37)
  | badMask          -- MASK not 000 where it must be (R36)
  | badRounding      -- RM (R38)
  | badSlot          -- WS (R38, R47)
  | badClass         -- ACLASS, OP or SCOPE (R41, R42, R217)
  | badModifier      -- MOD, QMOD, XMOD or SMOD (R48)
  | reservedBit      -- a reserved bit of the format (R48)
  | unusedField      -- a field the entry does not use is not zero (R48)
  | notAWord         -- an event of the device, which no word encodes
deriving DecidableEq, Repr

/-- What an entry's field table says of one 7-bit register field. -/
inductive FieldKind where
  | unused | any | vs | v | s | m
deriving DecidableEq, Repr

/-- A register field satisfies what the field table says (R35-R37). -/
def FieldKind.ok (k : FieldKind) (r : RegName) : Bool :=
  match k with
  | .unused => r == 0
  | .any => true
  | .vs => true
  | .v => !r.isScalar
  | .s => r.isScalar
  | .m => r.toNat < 8

/-- The reason of the first check that fails. -/
def firstFail : List (Bool × Illegal) → Option Illegal
  | [] => none
  | (ok, why) :: rest => if ok then firstFail rest else some why

/-- TYPE codes 0x0-0x7 (R34). -/
def Ty.isInt : Ty → Bool
  | .i64 | .n64 | .i32 | .n32 | .i16 | .n16 | .i8 | .n8 => true
  | _ => false

/-- TYPE codes 0x8-0xB: f64, f32, bf16, f16 (R293). -/
def Ty.isFloat : Ty → Bool
  | .f64 | .f32 | .bf16 | .f16 => true
  | _ => false

/-- TYPE codes 0x8-0xD (R301). -/
def Ty.isAnyFloat : Ty → Bool
  | .f64 | .f32 | .bf16 | .f16 | .e4m3 | .e5m2 => true
  | _ => false

/-- TYPE codes 0x0-0xD, which the memory instructions take (R217). -/
def Ty.isMem : Ty → Bool
  | .t2 | .b1 => false
  | _ => true

/-- The width of a type in bits (R265, R269, R270). -/
def Ty.width : Ty → Nat
  | .i64 | .n64 | .f64 => 64
  | .i32 | .n32 | .f32 => 32
  | .i16 | .n16 | .bf16 | .f16 => 16
  | .i8 | .n8 | .e4m3 | .e5m2 => 8
  | .t2 => 2
  | .b1 => 1

/-- The element size in bytes of a memory type (R217); a packed t2 or b1 word counts 8 (R225). -/
def Ty.bytes : Ty → Nat
  | .i64 | .n64 | .f64 => 8
  | .i32 | .n32 | .f32 => 4
  | .i16 | .n16 | .bf16 | .f16 => 2
  | .i8 | .n8 | .e4m3 | .e5m2 => 1
  | .t2 | .b1 => 8

/-- What an entry in format A allows. `scalarRule`: R36 applies to the destination D. -/
structure RuleA where
  types : Ty → Bool
  d : FieldKind
  a : FieldKind
  b : FieldKind
  c : FieldKind
  rounds : Bool := false
  mod : BitVec 11 → Bool := fun m => m == 0
  scalarRule : Bool := true
  maskZero : Bool := false

/-- A used source that R36 requires to be scalar when the destination is scalar. -/
def scalarSource (k : FieldKind) (r : RegName) : Bool :=
  match k with
  | .vs | .v | .s => r.isScalar
  | _ => true

def checkA (o : FmtA) (u : RuleA) : Option Illegal :=
  firstFail
    [ (u.types o.ty, .badType),
      (u.d.ok o.d && u.a.ok o.a && u.b.ok o.b && u.c.ok o.c, .badRegister),
      (!(u.scalarRule && o.d.isScalar) || (scalarSource u.a o.a && scalarSource u.b o.b && scalarSource u.c o.c),
        .badRegister),
      (!((u.scalarRule && o.d.isScalar) || u.maskZero) || o.mask == 0, .badMask),
      (if u.rounds then o.rm.toNat ≤ 4 else o.rm == 0, .badRounding),
      (o.ws == 0, .badSlot),
      (u.mod o.mod, .badModifier) ]

/-- The wait slot rule of a row whose Slot column is "req" (R47). -/
def wsReq (ws : BitVec 3) : Bool := 1 ≤ ws.toNat && ws.toNat ≤ 6

/-- A CMP or FCMP: with MD (MOD[3]) the destination is a mask and the sources are of either kind (R289, R296). -/
def cmpRule (types : Ty → Bool) (md : Bool) (maxCond : Nat) : RuleA :=
  { types := types, d := if md then .m else .vs, a := .vs, b := .vs, c := .unused,
    mod := fun m => (m &&& 0x7F0#11) == 0 && (m &&& 7#11).toNat ≤ maxCond, scalarRule := !md }

/-- Reduction codes of VRED and VSCAN with their types (R305 Table 9). -/
def redCodeOk (ty : Ty) (code : Nat) : Bool :=
  (code ≤ 5 && ty.isInt) || (code == 7 && ty.isFloat) || ((code == 8 || code == 9) && ty.isFloat)

/-- The shape of every format A instruction (13 R286, R291, R293, R299-R305; 18 R371). -/
def ruleA : Instr → Option (FmtA × RuleA)
  | .add o | .sub o | .mul o =>
    some (o, { types := Ty.isInt, d := .vs, a := .vs, b := .vs, c := .unused, mod := fun m => (m &&& 0x7FE#11) == 0 })
  | .mad o =>
    some (o, { types := Ty.isInt, d := .vs, a := .vs, b := .vs, c := .vs, mod := fun m => (m &&& 0x7FE#11) == 0 })
  | .neg o | .abs o =>
    some (o, { types := Ty.isInt, d := .vs, a := .vs, b := .unused, c := .unused,
               mod := fun m => (m &&& 0x7FE#11) == 0 })
  | .mulhi o | .div o | .rem o | .min o | .max o | .and o | .or o | .xor o | .andn o | .shl o | .shr o | .sar o
  | .rol o => some (o, { types := Ty.isInt, d := .vs, a := .vs, b := .vs, c := .unused })
  | .not o | .mov o | .clz o | .ctz o | .popc o | .brev o =>
    some (o, { types := Ty.isInt, d := .vs, a := .vs, b := .unused, c := .unused })
  | .sel o =>
    some (o, if o.d.isScalar
      then { types := fun t => t == .i64, d := .s, a := .s, b := .s, c := .unused, mod := fun m => m.toNat ≤ 4 }
      else { types := fun t => t == .i64, d := .v, a := .vs, b := .vs, c := .m })
  | .cmp o => some (o, cmpRule Ty.isInt (o.mod.getLsbD 3) 5)
  | .bfx o | .bfi o =>
    some (o, { types := fun t => t.isInt && o.b.toNat < 64 && o.c.toNat < 64 && o.b.toNat + o.c.toNat + 1 ≤ t.width,
               d := .vs, a := .vs, b := .any, c := .any })
  | .fadd o | .fsub o | .fmul o | .fdiv o =>
    some (o, { types := Ty.isFloat, d := .vs, a := .vs, b := .vs, c := .unused, rounds := true })
  | .fma o | .fms o | .fnma o =>
    some (o, { types := Ty.isFloat, d := .vs, a := .vs, b := .vs, c := .vs, rounds := true })
  | .fmin o | .fmax o | .fcpys o => some (o, { types := Ty.isFloat, d := .vs, a := .vs, b := .vs, c := .unused })
  | .fabs o | .fneg o | .fgetexp o =>
    some (o, { types := Ty.isFloat, d := .vs, a := .vs, b := .unused, c := .unused })
  | .fcmp o => some (o, cmpRule Ty.isFloat (o.mod.getLsbD 3) 7)
  | .fclass o => some (o, { types := Ty.isAnyFloat, d := .vs, a := .vs, b := .unused, c := .unused })
  | .fscale o => some (o, { types := Ty.isFloat, d := .vs, a := .vs, b := .vs, c := .unused, rounds := true })
  | .frnd o | .fsqrt o | .frcpe o | .frsqe o | .fexp2 o | .flog2 o =>
    some (o, { types := Ty.isFloat, d := .vs, a := .vs, b := .unused, c := .unused, rounds := true })
  | .cvt o =>
    some (o, { types := fun _ => true, d := .vs, a := .vs, b := .unused, c := .unused, rounds := true,
               mod := fun m => m.toNat < 64 })
  | .cvts o =>
    some (o, { types := fun _ => true, d := .vs, a := .vs, b := .vs, c := .unused, rounds := true,
               mod := fun m => m.toNat < 32 && 8 ≤ m.toNat % 16 && m.toNat % 16 ≤ 13 })
  | .pack o =>
    some (o, { types := fun t => t.width < 64, d := .vs, a := .vs, b := .vs, c := .unused,
               mod := fun m => m.toNat * o.ty.width < 64 })
  | .unpack o =>
    some (o, { types := fun t => t.width < 64, d := .vs, a := .vs, b := .unused, c := .unused,
               mod := fun m => m.toNat * o.ty.width < 64 })
  | .amaxrd o => some (o, { types := fun t => t == .f64, d := .vs, a := .unused, b := .unused, c := .unused })
  | .amaxclr o =>
    some (o, { types := fun t => t == .i64, d := .unused, a := .unused, b := .unused, c := .unused, maskZero := true })
  | .vbcast o | .vshift o | .vrot o =>
    some (o, { types := fun t => t == .i64, d := .v, a := .v, b := .s, c := .unused, scalarRule := false })
  | .vshfl o =>
    some (o, { types := fun t => t == .i64, d := .v, a := .v, b := .v, c := .unused, scalarRule := false })
  | .vred o =>
    some (o, { types := fun t => redCodeOk t o.mod.toNat, d := .vs, a := .v, b := .unused, c := .unused,
               rounds := o.mod == 7, mod := fun m => m.toNat < 16, scalarRule := false })
  | .vscan o =>
    some (o, { types := fun t => redCodeOk t (o.mod &&& 0xF#11).toNat, d := .v, a := .v, b := .unused, c := .unused,
               rounds := (o.mod &&& 0xF#11) == 7, mod := fun m => m.toNat < 32, scalarRule := false })
  | .vballot o =>
    some (o, { types := Ty.isInt, d := .s, a := .v, b := .s, c := .unused, scalarRule := false })
  | .vcount o | .vfirst o =>
    some (o, { types := Ty.isInt, d := .s, a := if o.mod == 1 then .unused else .v, b := .unused, c := .unused,
               mod := fun m => m.toNat < 2, scalarRule := false })
  | .mand o | .mor o | .mxor o =>
    some (o, { types := fun t => t == .i64, d := .m, a := .m, b := .m, c := .unused, scalarRule := false,
               maskZero := true })
  | .mnot o | .mmove o =>
    some (o, { types := fun t => t == .i64, d := .m, a := .m, b := .unused, c := .unused, scalarRule := false,
               maskZero := true })
  | .mfroms o =>
    some (o, { types := fun t => t == .i64, d := .m, a := .s, b := .s, c := .unused, scalarRule := false,
               maskZero := true })
  | .mtos o =>
    some (o, { types := fun t => t == .i64, d := .s, a := .m, b := .s, c := .unused, scalarRule := false,
               maskZero := true })
  | .setfmt o =>
    some (o, { types := fun t => t == .i64, d := .unused, a := .s, b := .unused, c := .unused, maskZero := true })
  | .getfmt o =>
    some (o, { types := fun t => t == .i64, d := .s, a := .unused, b := .unused, c := .unused, maskZero := true })
  | .nop o =>
    some (o, { types := fun t => t == .i64, d := .unused, a := .unused, b := .unused, c := .unused, maskZero := true })
  | _ => none

/-- Format I2 (R286, R39): a shift or rotate amount lies in 0-63. -/
def checkI2 (o : FmtI2) (shift : Bool) : Option Illegal :=
  firstFail
    [ (o.ty.isInt, .badType),
      (!o.d.isScalar || o.a.isScalar, .badRegister),
      (!o.d.isScalar || o.mask == 0, .badMask),
      (!shift || o.imm.toNat < 64, .badModifier) ]

/-- Format I1 (R290). -/
def checkI1 (o : FmtI1) (types : Ty → Bool) : Option Illegal :=
  firstFail [ (types o.ty, .badType), (!o.d.isScalar || o.mask == 0, .badMask) ]

/-- What an entry in format M allows (R217). -/
structure RuleM where
  types : Ty → Bool
  d : RegName → Bool := fun _ => true
  base : BitVec 6 → Bool := fun _ => true
  offZero : Bool := false
  streaming : Bool := true
  view : Bool := false
  hasScope : Bool := false
  wait : Bool := false
  lanes : Bool := true

def checkM (o : FmtM) (u : RuleM) : Option Illegal :=
  firstFail
    [ (u.types o.ty, .badType),
      (u.d o.d && u.base o.base, .badRegister),
      (!(o.d.isScalar || !u.lanes) || o.mask == 0, .badMask),
      (!u.offZero || o.off == 0, .unusedField),
      (if u.streaming then o.acl.toNat ≤ 1 else o.acl == 0, .badClass),
      (o.view == 0 || (u.view && o.acl == 0), .badClass),
      (if u.hasScope then o.scope.toNat ≤ 6 else o.scope == 0, .badClass),
      (if u.wait then wsReq o.ws else o.ws == 0, .badSlot) ]

/-- The shape of every format M instruction (R217 Table 1). -/
def ruleM : Instr → Option (FmtM × RuleM)
  | .ld o => some (o, { types := Ty.isMem, view := true, wait := true })
  | .st o => some (o, { types := Ty.isMem })
  | .ldsp o =>
    some (o, { types := Ty.isMem, base := fun b => b.toNat < 4, offZero := true, view := true, wait := true })
  | .stsp o => some (o, { types := Ty.isMem, base := fun b => b.toNat < 4, offZero := true })
  | .spset o =>
    some (o, { types := fun t => t == .i64, d := fun r => r.isScalar, base := fun b => b.toNat < 4,
               streaming := false, lanes := false })
  | .pref o =>
    some (o, { types := fun t => t == .i64, d := fun r => r.toNat < 2, streaming := false, view := true,
               lanes := false })
  | .ldsc o | .ldcl o => some (o, { types := Ty.isMem, wait := true })
  | .stsc o | .stcl o => some (o, { types := Ty.isMem })
  | .fence o =>
    some (o, { types := fun t => t == .i64, d := fun r => r == 0, base := fun b => b == 0, offZero := true,
               streaming := false, hasScope := true, lanes := false })
  | _ => none

/-- The operations and types of ATOM (R233 Table 5). -/
def atomOk (op : Nat) (t : Ty) : Bool :=
  (op ≤ 5 && (t == .i32 || t == .n32 || t == .i64 || t == .n64)) ||
  (op == 6 && (t == .i32 || t == .n32 || t == .i64 || t == .n64 || t == .f32 || t == .f64)) ||
  (op == 7 && (t == .f32 || t == .f64))

/-- What an entry in format MA allows (R217). -/
structure RuleMA where
  types : Ty → Bool
  d : FieldKind
  a : FieldKind
  op : BitVec 4 → Bool := fun p => p == 0
  aclMax : Nat := 1
  hasScope : Bool := false
  wait : Bool := false
  lanes : Bool := true
  aFollowsD : Bool := false

def checkMA (o : FmtMA) (u : RuleMA) : Option Illegal :=
  firstFail
    [ (u.types o.ty, .badType),
      (u.d.ok o.d && u.a.ok o.a && (!(u.aFollowsD && o.d.isScalar) || o.a.isScalar), .badRegister),
      (!(o.d.isScalar || !u.lanes) || o.mask == 0, .badMask),
      (u.op o.op && o.acl.toNat ≤ u.aclMax, .badClass),
      (if u.hasScope then o.scope.toNat ≤ 6 else o.scope == 0, .badClass),
      (if u.wait then wsReq o.ws else o.ws == 0, .badSlot) ]

/-- The shape of every format MA instruction (R217 Table 1, R233, R237). -/
def ruleMA : Instr → Option (FmtMA × RuleMA)
  | .stmc o => some (o, { types := Ty.isMem, d := .vs, a := .s })
  | .gath o => some (o, { types := Ty.isMem, d := .v, a := .v, wait := true })
  | .scat o => some (o, { types := Ty.isMem, d := .v, a := .v })
  | .atom o =>
    some (o, { types := fun t => atomOk o.op.toNat t, d := .vs, a := .vs, op := fun p => p.toNat ≤ 7,
               aclMax := if o.op == 6 then 1 else 2, wait := true, aFollowsD := true })
  | .cas o =>
    some (o, { types := fun t => t == .i64 || t == .n64 || t == .i32 || t == .n32 || t == .f64 || t == .f32,
               d := .vs, a := .vs, wait := true, aFollowsD := true })
  | .red o =>
    some (o, { types := fun t => t.isMem && ((o.op == 0 && t.isInt) || o.op == 1 || o.op == 2 ||
                 (o.op == 7 && t.isAnyFloat)),
               d := .vs, a := .s, op := fun p => p == 0 || p == 1 || p == 2 || p == 7, aclMax := 0 })
  | .cadd o =>
    some (o, { types := fun t => t == .i64, d := .unused, a := .s, aclMax := 0, hasScope := true, lanes := false })
  | .cwait o =>
    some (o, { types := fun t => t == .i64, d := .s, a := .s, aclMax := 0, hasScope := true, wait := true,
               lanes := false })
  | .cread o =>
    some (o, { types := fun t => t == .i64, d := .s, a := .unused, aclMax := 0, hasScope := true, wait := true,
               lanes := false })
  | _ => none

/-- Format B (R371 Table 1). -/
def checkB (o : FmtB) (k : FieldKind) (mc cond off : Bool) : Option Illegal :=
  firstFail
    [ (o.ty == .i64, .badType), (o.mask == 0, .badMask), (k.ok o.s, .badRegister),
      (mc || o.mc == 0, .unusedField), (cond || o.cond == 0, .unusedField), (off || o.off == 0, .unusedField) ]

def checkControl : Instr → Option (Option Illegal)
  | .bra o => some (checkB o .unused false false true)
  | .bc o => some (if o.cond == 0 then some .badModifier else checkB o .unused true true true)
  | .call o => some (if o.s == 0 then checkB o .unused false false true else checkB o .s false false false)
  | .ret o | .join o | .loop o | .exit o => some (checkB o .unused false false false)
  | .jmpi o => some (checkB o .s false false false)
  | .split o => some (checkB o .unused true false true)
  | .els o => some (checkB o .unused false false true)
  | .brk o | .cont o => some (checkB o .unused true false true)
  | _ => none

/-- What an entry in format Q allows (R217, R248, R360, R429). -/
structure RuleQ where
  d : FieldKind := .unused
  a : FieldKind := .unused
  b : FieldKind := .unused
  c : FieldKind := .unused
  q : Bool := false
  qmod : BitVec 10 → Bool := fun m => m == 0
  wait : Bool := false

def checkQ (o : FmtQ) (u : RuleQ) : Option Illegal :=
  firstFail
    [ (o.ty == .i64, .badType), (o.mask == 0, .badMask),
      (u.d.ok o.d && u.a.ok o.a && u.b.ok o.b && u.c.ok o.c, .badRegister),
      (u.q || o.q == 0, .unusedField),
      (u.qmod o.qmod, .badModifier),
      (if u.wait then wsReq o.ws else o.ws == 0, .badSlot) ]

/-- The shape of every format Q instruction (R217, R248, R360, R429). -/
def ruleQ : Instr → Option (FmtQ × RuleQ)
  | .tlwait o => some (o, { d := .s, a := .s, q := true, wait := true })
  | .close o => some (o, { d := .s, q := true, wait := true })
  | .qbind o => some (o, { a := .s, q := true })
  | .copy o =>
    some (o, { d := .s, a := .s, b := .s, c := .s, q := true, qmod := fun m => m.toNat < 4, wait := true })
  | .tcopy o | .halo o | .ared o | .put o | .get o | .fcomp o | .encf o =>
    some (o, { d := .s, a := .s, q := true, wait := true })
  | .publish o => some (o, { d := .s, a := .s, b := .s, c := .s, q := true, wait := true })
  | .pin o => some (o, { d := .s, a := .s, q := true, qmod := fun m => m.toNat < 3, wait := true })
  | .vret o => some (o, { d := .s, a := .s, q := true, qmod := fun m => m.toNat < 2, wait := true })
  | .viewset o => some (o, { a := .s, qmod := fun m => m.toNat < 16 })
  | .wverset o => some (o, { a := .s })
  | .bset o | .babort o => some (o, { a := .s })
  | .bq o => some (o, { d := .s, a := .s, qmod := fun m => m.toNat < 2, wait := true })
  | .bres o => some (o, { d := .s, a := .s, qmod := fun m => m.toNat < 3, wait := true })
  | .bproc o => some (o, { a := .s, b := .s, qmod := fun m => m.toNat < 2 })
  | .bsave o => some (o, { d := .s, a := .s, b := .s, wait := true })
  | .bresume o => some (o, { d := .s, a := .s, wait := true })
  | .launch o => some (o, { d := .s, a := .s, b := .s, wait := true })
  | .enqr o => some (o, { a := .s, b := .s, c := .s })
  | .enqc o => some (o, { a := .s, b := .v })
  | .yield o => some (o, {})
  | _ => none

/-- What an entry in format X allows (R325 Table 1). -/
structure RuleX where
  types : Ty → Bool
  d : FieldKind := .unused
  sc : Bool := true
  sf : Bool := false
  matrix : Bool := false
  xmod : BitVec 4 → Bool := fun m => m == 0
  xhi : Bool := false
  wait : Bool := false

def checkX (o : FmtX) (u : RuleX) : Option Illegal :=
  firstFail
    [ (u.types o.ty, .badType),
      (u.d.ok o.d, .badRegister),
      (u.matrix || (u.wait && !o.d.isScalar) || o.mask == 0, .badMask),
      ((u.sc || o.sc == 0) && (u.sf || o.sf == 0), .unusedField),
      (u.matrix || (o.sp == 0 && o.reuse == 0 && o.ord == 0 && o.cnt == 0 && o.sn == 0), .unusedField),
      (!(u.matrix && o.cnt == 0) || o.sn == 0, .unusedField),
      (u.xmod o.xmod && (u.xhi || o.xhi == 0), .badModifier),
      (if u.wait then wsReq o.ws else o.ws == 0, .badSlot) ]

/-- The shape of every format X instruction (R325 Table 1). -/
def ruleX : Instr → Option (FmtX × RuleX)
  | .mma o => some (o, { types := fun t => t == .i8 || t == .n8 || t.isAnyFloat, d := .v, sf := true, matrix := true })
  | .mmas o =>
    some (o, { types := fun t => t == .i8 || t == .n8 || t == .bf16 || t == .f16 || t == .e4m3 || t == .e5m2,
               d := .v, sf := true, matrix := true })
  | .mmab o =>
    some (o, { types := fun t => t == .b1, d := .v, sf := true, matrix := true, xmod := fun m => m.toNat < 2 })
  | .mscale o =>
    some (o, { types := fun t => t == .i64, sc := o.xmod != 3, xmod := fun m => m.toNat < 4 })
  | .accclr o | .accfl o => some (o, { types := fun t => t == .i64, xmod := fun m => m.toNat < 2 })
  | .accseq o => some (o, { types := fun t => t == .i64, sf := true, xmod := fun m => m.toNat < 2 })
  | .accrd o =>
    some (o, { types := fun t => !(o.xmod.getLsbD 3) || t == .n64, d := .vs,
               xmod := fun m => if m.getLsbD 3 then m == 8 else m.toNat ≤ 4,
               xhi := !o.d.isScalar, wait := true })
  | _ => none

/-- The special registers of R210 Table 5. -/
def sregListed (n : Nat) : Bool :=
  (1 ≤ n && n ≤ 7) || (0x10 ≤ n && n ≤ 0x17) || (0x21 ≤ n && n ≤ 0x2F) || (0x30 ≤ n && n ≤ 0x35) ||
  (0x40 ≤ n && n ≤ 0x42)

/-- What an entry in format S allows (R429 Table 1). -/
structure RuleS where
  d : FieldKind := .unused
  a : FieldKind := .unused
  sreg : BitVec 16 → Bool := fun n => n == 0
  smod : BitVec 12 → Bool := fun m => m == 0
  wait : Bool := false

def checkS (o : FmtS) (u : RuleS) : Option Illegal :=
  firstFail
    [ (o.ty == .i64, .badType), (o.mask == 0, .badMask),
      (u.d.ok o.d && u.a.ok o.a, .badRegister),
      (u.sreg o.sreg, .unusedField),
      (u.smod o.smod, .badModifier),
      (if u.wait then wsReq o.ws else o.ws == 0, .badSlot) ]

/-- The shape of every format S instruction (R429 Table 1, R210). -/
def ruleS : Instr → Option (FmtS × RuleS)
  | .trap o =>
    some (o, { a := if o.smod.getLsbD 7 then .s else .unused, smod := fun m => m.toNat < 256 })
  | .tret o | .tack o => some (o, {})
  | .sread o =>
    some (o, { d := if o.sreg == 1 then .v else .vs, sreg := fun n => sregListed n.toNat })
  | .swrite o => some (o, { a := .s, sreg := fun n => sregListed n.toNat })
  | .tlbinv o =>
    some (o, { d := if o.smod == 0 then .s else .unused, a := if o.smod == 3 then .unused else .s,
               smod := fun m => m.toNat < 4 })
  | .lflush o => some (o, { d := .s, a := .s, smod := fun m => m.toNat < 2 })
  | .linv o => some (o, { d := .s, a := .s })
  | .ctxsave o | .ctxload o => some (o, { d := .s, a := .s, wait := true })
  | .logreplay o => some (o, { a := .s, smod := fun m => m.toNat < 2 })
  | .fqpop o => some (o, { d := .s, smod := fun m => m.toNat < 2, wait := true })
  | .halt o => some (o, { smod := fun m => m.toNat < 2 })
  | _ => none

/-- The immediate instructions of CLASS 2 (R286, R290). -/
def checkImm : Instr → Option (Option Illegal)
  | .addImm o | .subImm o | .mulImm o | .minImm o | .maxImm o | .andImm o | .orImm o | .xorImm o | .cmpImm o =>
    some (checkI2 o false)
  | .shlImm o | .shrImm o | .sarImm o | .rolImm o => some (checkI2 o true)
  | .movi o => some (checkI1 o fun t => t == .i64 || t == .n64)
  | .movh o => some (checkI1 o fun t => t == .i64)
  | _ => none

/-- Why an instruction is ILLEGAL whatever role issues it; none for a legal word (R48). The check of R37 against the
role's vector register budget needs the role and is made where the clause is decoded. -/
def Instr.illegal? (i : Instr) : Option Illegal :=
  match ruleA i with
  | some (o, u) => checkA o u
  | none =>
  match checkImm i with
  | some r => r
  | none =>
  match ruleM i with
  | some (o, u) => checkM o u
  | none =>
  match ruleMA i with
  | some (o, u) => checkMA o u
  | none =>
  match checkControl i with
  | some r => r
  | none =>
  match ruleQ i with
  | some (o, u) => checkQ o u
  | none =>
  match ruleX i with
  | some (o, u) => checkX o u
  | none =>
  match ruleS i with
  | some (o, u) => checkS o u
  | none => some .notAWord

/-- A legal instruction word (R48). -/
def Instr.wf (i : Instr) : Bool := i.illegal? == none

/-- The vector registers that a legal word names in its register fields, for the budget check of R37; ENQC names the
registers from B on only at issue (R431). -/
def Instr.vregFields (i : Instr) : List RegName :=
  let v (k : FieldKind) (r : RegName) : List RegName :=
    match k with
    | .vs | .v => if r.isScalar then [] else [r]
    | _ => []
  match ruleA i with
  | some (o, u) => v u.d o.d ++ v u.a o.a ++ v u.b o.b ++ v u.c o.c
  | none =>
  match i with
  | .addImm o | .subImm o | .mulImm o | .minImm o | .maxImm o | .andImm o | .orImm o | .xorImm o | .cmpImm o
  | .shlImm o | .shrImm o | .sarImm o | .rolImm o => v .vs o.d ++ v .vs o.a
  | .movi o | .movh o => v .vs o.d
  | .ld o | .st o | .ldsp o | .stsp o | .ldsc o | .stsc o | .ldcl o | .stcl o => v .vs o.d
  | .stmc o | .gath o | .scat o | .atom o | .cas o | .red o => v .vs o.d ++ v .vs o.a
  | .mma o | .mmas o | .mmab o | .accrd o => v .vs o.d
  | .sread o => v .vs o.d
  | .enqc o => v .v o.b
  | _ => []

/-- No word names a vector register at or above the role's budget (R37). -/
def Instr.inBudget (i : Instr) (budget : Nat) : Bool := i.vregFields.all fun r => r.num < budget

/-- The control transfers of R25, which stand only last in their clause. -/
def Instr.isTransfer : Instr → Bool
  | .bra _ | .bc _ | .call _ | .ret _ | .jmpi _ | .split _ | .els _ | .join _ | .loop _ | .brk _ | .cont _
  | .exit _ | .trap _ | .tret _ | .yield _ | .halt _ => true
  | _ => false

end Sys2Proof
end

