-- ==== Sys2Proof/Decode.lean ====
section
/-! DEFINITION. The decoder of instruction words and clause headers (01 R19-R48), total on any bits and refusing by name,
and after it the encoder of a well-formed instruction. -/
namespace Sys2Proof

/-- Bits [lo + n - 1 : lo] of a word. -/
def field (w : Word) (lo n : Nat) : BitVec n := w.extractLsb' lo n

/-- The clause header (R20 Table 1). -/
structure Header where
  hint : BitVec 2
  yield : Bool
  tack : Bool
  wait : BitVec 6
  count : BitVec 4
deriving DecidableEq, Repr

/-- A header, or none where R24 makes the word ILLEGAL as a header. -/
def decodeHeader (w : Word) : Option Header :=
  if field w 52 12 == 0xC1A#12 && field w 14 38 == 0#38 then
    some { hint := field w 12 2, yield := w.getLsbD 11, tack := w.getLsbD 10, wait := field w 4 6, count := field w 0 4 }
  else none

/-- The header's word (R20). -/
def encodeHeader (h : Header) : Word :=
  0xC1A#12 ++ 0#38 ++ h.hint ++ BitVec.ofBool h.yield ++ BitVec.ofBool h.tack ++ h.wait ++ h.count

/-- TYPE codes (R34 Table 3). -/
def Ty.ofCode (c : BitVec 4) : Ty :=
  match c.toNat with
  | 0 => .i64 | 1 => .n64 | 2 => .i32 | 3 => .n32 | 4 => .i16 | 5 => .n16 | 6 => .i8 | 7 => .n8
  | 8 => .f64 | 9 => .f32 | 10 => .bf16 | 11 => .f16 | 12 => .e4m3 | 13 => .e5m2 | 14 => .t2 | _ => .b1

def Ty.code : Ty → BitVec 4
  | .i64 => 0 | .n64 => 1 | .i32 => 2 | .n32 => 3 | .i16 => 4 | .n16 => 5 | .i8 => 6 | .n8 => 7
  | .f64 => 8 | .f32 => 9 | .bf16 => 10 | .f16 => 11 | .e4m3 => 12 | .e5m2 => 13 | .t2 => 14 | .b1 => 15

/-- TYPE, bits [51:48] (R33). -/
def tyOf (w : Word) : Ty := Ty.ofCode (field w 48 4)
/-- MASK, bits [47:45] (R33). -/
def maskOf (w : Word) : BitVec 3 := field w 45 3

def decA (w : Word) : FmtA :=
  { ty := tyOf w, mask := maskOf w, d := field w 38 7, a := field w 31 7, b := field w 24 7, c := field w 17 7,
    rm := field w 14 3, ws := field w 11 3, mod := field w 0 11 }
def decI1 (w : Word) : FmtI1 := { ty := tyOf w, mask := maskOf w, d := field w 38 7, imm := field w 0 32 }
def decI2 (w : Word) : FmtI2 :=
  { ty := tyOf w, mask := maskOf w, d := field w 38 7, a := field w 31 7, imm := field w 0 31 }
def decM (w : Word) : FmtM :=
  { ty := tyOf w, mask := maskOf w, d := field w 38 7, base := field w 32 6, off := field w 12 20, view := field w 8 4,
    acl := field w 6 2, scope := field w 3 3, ws := field w 0 3 }
def decMA (w : Word) : FmtMA :=
  { ty := tyOf w, mask := maskOf w, d := field w 38 7, a := field w 31 7, base := field w 25 6, off := field w 12 13,
    op := field w 8 4, acl := field w 6 2, scope := field w 3 3, ws := field w 0 3 }
def decB (w : Word) : FmtB :=
  { ty := tyOf w, mask := maskOf w, s := field w 38 7, mc := field w 35 3, cond := field w 32 3, off := field w 0 32 }
def decQ (w : Word) : FmtQ :=
  { ty := tyOf w, mask := maskOf w, d := field w 38 7, a := field w 31 7, b := field w 24 7, c := field w 17 7,
    q := field w 13 4, qmod := field w 3 10, ws := field w 0 3 }
def decX (w : Word) : FmtX :=
  { ty := tyOf w, mask := maskOf w, d := field w 38 7, sc := field w 32 6, sf := field w 26 6, sp := field w 24 2,
    reuse := field w 23 1, ord := field w 22 1, cnt := field w 21 1, sn := field w 15 6, xmod := field w 11 4,
    xhi := field w 10 1, ws := field w 0 3 }
def decS (w : Word) : FmtS :=
  { ty := tyOf w, mask := maskOf w, d := field w 38 7, a := field w 31 7, sreg := field w 15 16, smod := field w 3 12,
    ws := field w 0 3 }

/-- CLASS 1 (R47). -/
def class1 (f : Nat) (o : FmtA) : Option Instr :=
  match f with
  | 0x00 => some (.add o) | 0x01 => some (.sub o) | 0x02 => some (.mul o) | 0x03 => some (.mulhi o)
  | 0x04 => some (.mad o) | 0x05 => some (.div o) | 0x06 => some (.rem o) | 0x07 => some (.neg o)
  | 0x08 => some (.abs o) | 0x09 => some (.min o) | 0x0A => some (.max o) | 0x0B => some (.and o)
  | 0x0C => some (.or o) | 0x0D => some (.xor o) | 0x0E => some (.not o) | 0x0F => some (.andn o)
  | 0x10 => some (.shl o) | 0x11 => some (.shr o) | 0x12 => some (.sar o) | 0x13 => some (.rol o)
  | 0x14 => some (.sel o) | 0x15 => some (.mov o) | 0x16 => some (.cmp o)
  | _ => none

/-- CLASS 2 (R47): format I2, and I1 for MOVI and MOVH. -/
def class2 (f : Nat) (o : FmtI2) (i : FmtI1) : Option Instr :=
  match f with
  | 0x00 => some (.addImm o) | 0x01 => some (.subImm o) | 0x02 => some (.mulImm o) | 0x09 => some (.minImm o)
  | 0x0A => some (.maxImm o) | 0x0B => some (.andImm o) | 0x0C => some (.orImm o) | 0x0D => some (.xorImm o)
  | 0x10 => some (.shlImm o) | 0x11 => some (.shrImm o) | 0x12 => some (.sarImm o) | 0x13 => some (.rolImm o)
  | 0x16 => some (.cmpImm o) | 0x20 => some (.movi i) | 0x21 => some (.movh i)
  | _ => none

/-- The other format A classes (R47). -/
def classA (k f : Nat) (o : FmtA) : Option Instr :=
  match k, f with
  | 3, 0x00 => some (.clz o) | 3, 0x01 => some (.ctz o) | 3, 0x02 => some (.popc o) | 3, 0x03 => some (.brev o)
  | 3, 0x04 => some (.bfx o) | 3, 0x05 => some (.bfi o)
  | 4, 0x00 => some (.fadd o) | 4, 0x01 => some (.fsub o) | 4, 0x02 => some (.fmul o) | 4, 0x03 => some (.fma o)
  | 4, 0x04 => some (.fms o) | 4, 0x05 => some (.fnma o) | 4, 0x06 => some (.fmin o) | 4, 0x07 => some (.fmax o)
  | 5, 0x00 => some (.fabs o) | 5, 0x01 => some (.fneg o) | 5, 0x02 => some (.fcpys o) | 5, 0x03 => some (.fcmp o)
  | 5, 0x04 => some (.fclass o) | 5, 0x05 => some (.fscale o) | 5, 0x06 => some (.fgetexp o) | 5, 0x07 => some (.frnd o)
  | 6, 0x00 => some (.fdiv o) | 6, 0x01 => some (.fsqrt o) | 6, 0x02 => some (.frcpe o) | 6, 0x03 => some (.frsqe o)
  | 6, 0x04 => some (.fexp2 o) | 6, 0x05 => some (.flog2 o)
  | 8, 0x00 => some (.cvt o) | 8, 0x01 => some (.cvts o) | 8, 0x02 => some (.pack o) | 8, 0x03 => some (.unpack o)
  | 8, 0x04 => some (.amaxrd o) | 8, 0x05 => some (.amaxclr o)
  | 9, 0x00 => some (.vbcast o) | 9, 0x01 => some (.vshfl o) | 9, 0x02 => some (.vshift o) | 9, 0x03 => some (.vrot o)
  | 9, 0x04 => some (.vred o) | 9, 0x05 => some (.vscan o) | 9, 0x06 => some (.vballot o) | 9, 0x07 => some (.vcount o)
  | 9, 0x08 => some (.vfirst o)
  | 10, 0x00 => some (.mand o) | 10, 0x01 => some (.mor o) | 10, 0x02 => some (.mxor o) | 10, 0x03 => some (.mnot o)
  | 10, 0x04 => some (.mmove o) | 10, 0x05 => some (.mfroms o) | 10, 0x06 => some (.mtos o)
  | 12, 0x00 => some (.setfmt o) | 12, 0x01 => some (.getfmt o) | 12, 0x02 => some (.nop o)
  | _, _ => none

/-- CLASS 11, format B (R47). -/
def class11 (f : Nat) (o : FmtB) : Option Instr :=
  match f with
  | 0x00 => some (.bra o) | 0x01 => some (.bc o) | 0x02 => some (.call o) | 0x03 => some (.ret o)
  | 0x04 => some (.jmpi o) | 0x05 => some (.split o) | 0x06 => some (.els o) | 0x07 => some (.join o)
  | 0x08 => some (.loop o) | 0x09 => some (.brk o) | 0x0A => some (.cont o) | 0x0B => some (.exit o)
  | _ => none

/-- The format M instructions of CLASS 13, 14 and 16 (R47). -/
def classM (k f : Nat) (o : FmtM) : Option Instr :=
  match k, f with
  | 13, 0x00 => some (.ld o) | 13, 0x01 => some (.st o) | 13, 0x02 => some (.ldsp o) | 13, 0x03 => some (.stsp o)
  | 13, 0x04 => some (.spset o) | 13, 0x05 => some (.pref o)
  | 14, 0x00 => some (.ldsc o) | 14, 0x01 => some (.stsc o) | 14, 0x02 => some (.ldcl o) | 14, 0x03 => some (.stcl o)
  | 16, 0x00 => some (.fence o)
  | _, _ => none

/-- The format MA instructions of CLASS 14, 15 and 17 (R47). -/
def classMA (k f : Nat) (o : FmtMA) : Option Instr :=
  match k, f with
  | 14, 0x04 => some (.stmc o) | 15, 0x00 => some (.gath o) | 15, 0x01 => some (.scat o)
  | 17, 0x00 => some (.atom o) | 17, 0x01 => some (.cas o) | 17, 0x02 => some (.red o)
  | 17, 0x10 => some (.cadd o) | 17, 0x11 => some (.cwait o) | 17, 0x12 => some (.cread o)
  | _, _ => none

/-- The format Q instructions of CLASS 17, 18, 20 and 21 (R47). -/
def classQ (k f : Nat) (o : FmtQ) : Option Instr :=
  match k, f with
  | 17, 0x13 => some (.tlwait o) | 17, 0x14 => some (.close o)
  | 18, 0x00 => some (.qbind o) | 18, 0x01 => some (.copy o) | 18, 0x02 => some (.tcopy o) | 18, 0x03 => some (.halo o)
  | 18, 0x04 => some (.ared o) | 18, 0x05 => some (.put o) | 18, 0x06 => some (.get o) | 18, 0x10 => some (.publish o)
  | 18, 0x11 => some (.pin o) | 18, 0x12 => some (.vret o) | 18, 0x13 => some (.viewset o)
  | 18, 0x14 => some (.wverset o) | 18, 0x20 => some (.fcomp o) | 18, 0x21 => some (.encf o)
  | 20, 0x00 => some (.bset o) | 20, 0x01 => some (.bq o) | 20, 0x02 => some (.bres o) | 20, 0x03 => some (.bproc o)
  | 20, 0x04 => some (.bsave o) | 20, 0x05 => some (.bresume o) | 20, 0x06 => some (.babort o)
  | 21, 0x00 => some (.launch o) | 21, 0x01 => some (.enqr o) | 21, 0x02 => some (.enqc o) | 21, 0x03 => some (.yield o)
  | _, _ => none

/-- CLASS 19, format X (R47). -/
def class19 (f : Nat) (o : FmtX) : Option Instr :=
  match f with
  | 0x00 => some (.mma o) | 0x01 => some (.mmas o) | 0x02 => some (.mmab o) | 0x03 => some (.mscale o)
  | 0x08 => some (.accclr o) | 0x09 => some (.accrd o) | 0x0A => some (.accfl o) | 0x0B => some (.accseq o)
  | _ => none

/-- CLASS 22 and 23, format S (R47). -/
def classS (k f : Nat) (o : FmtS) : Option Instr :=
  match k, f with
  | 22, 0x00 => some (.trap o) | 22, 0x01 => some (.tret o) | 22, 0x02 => some (.sread o) | 22, 0x03 => some (.swrite o)
  | 22, 0x04 => some (.tack o)
  | 23, 0x00 => some (.tlbinv o) | 23, 0x01 => some (.lflush o) | 23, 0x02 => some (.linv o) | 23, 0x03 => some (.ctxsave o)
  | 23, 0x04 => some (.ctxload o) | 23, 0x05 => some (.logreplay o) | 23, 0x06 => some (.fqpop o)
  | 23, 0x07 => some (.halt o)
  | _, _ => none

/-- The reserved bits that lie outside every named field: [37:32] of I1 and [9:3] of X (R39, R45). -/
def reservedClear (k f : Nat) (w : Word) : Bool :=
  if k = 2 && (f = 0x20 || f = 0x21) then field w 32 6 == 0#6
  else if k = 19 then field w 3 7 == 0#7
  else true

/-- The row of Table 14 for a CLASS and FUNC, with the operands its format reads from the word (R47). -/
def opcodeRow (k f : Nat) (w : Word) : Option Instr :=
  match k with
  | 1 => class1 f (decA w)
  | 2 => class2 f (decI2 w) (decI1 w)
  | 3 | 4 | 5 | 6 | 8 | 9 | 10 | 12 => classA k f (decA w)
  | 11 => class11 f (decB w)
  | 13 | 16 => classM k f (decM w)
  | 14 => match classM k f (decM w) with
    | some i => some i
    | none => classMA k f (decMA w)
  | 15 => classMA k f (decMA w)
  | 17 => match classMA k f (decMA w) with
    | some i => some i
    | none => classQ k f (decQ w)
  | 18 | 20 | 21 => classQ k f (decQ w)
  | 19 => class19 f (decX w)
  | 22 | 23 => classS k f (decS w)
  | _ => none

/-- CLASS of a word (R33). -/
def classOf (w : Word) : Nat := (field w 59 5).toNat
/-- FUNC of a word (R33). -/
def funcOf (w : Word) : Nat := (field w 52 7).toNat

/-- The decoder: the instruction of a word, or the named reason why it is ILLEGAL (R23, R48). -/
def decodeWord (w : Word) : Except Illegal Instr :=
  match opcodeRow (classOf w) (funcOf w) w with
  | none => .error .unlistedOpcode
  | some i =>
    if !reservedClear (classOf w) (funcOf w) w then .error .reservedBit
    else match i.illegal? with
      | some why => .error why
      | none => .ok i

/-- The little-endian word of the first eight bytes, with the bytes that follow (R12). -/
def takeWord : List Byte → Option (Word × List Byte)
  | b0 :: b1 :: b2 :: b3 :: b4 :: b5 :: b6 :: b7 :: rest => some (b7 ++ b6 ++ b5 ++ b4 ++ b3 ++ b2 ++ b1 ++ b0, rest)
  | _ => none

/-- The eight bytes of a word as they stand in memory (R12). -/
def wordBytes (w : Word) : List Byte :=
  [field w 0 8, field w 8 8, field w 16 8, field w 24 8, field w 32 8, field w 40 8, field w 48 8, field w 56 8]

/-- Decoding the bytes of one instruction word, as they stand in memory. -/
def decodeBytes (bs : List Byte) : Option (Except Illegal Instr × List Byte) :=
  match takeWord bs with
  | none => none
  | some (w, rest) => some (decodeWord w, rest)

/-- The decoder on a row of the opcode table, whose bits the table numbers from the least significant bit of the word. -/
def decodeTableWord (nbits w : Nat) : Option Instr :=
  match decodeBytes (wordBytes (BitVec.ofNat 64 (w % 2 ^ nbits))) with
  | some (.ok i, _) => some i
  | _ => none

/-! ### The encoder -/

def encHead (k : BitVec 5) (f : BitVec 7) (ty : Ty) (mask : BitVec 3) : BitVec 19 := k ++ f ++ ty.code ++ mask
def encA (k : BitVec 5) (f : BitVec 7) (o : FmtA) : Word :=
  encHead k f o.ty o.mask ++ o.d ++ o.a ++ o.b ++ o.c ++ o.rm ++ o.ws ++ o.mod
def encI1 (k : BitVec 5) (f : BitVec 7) (o : FmtI1) : Word := encHead k f o.ty o.mask ++ o.d ++ 0#6 ++ o.imm
def encI2 (k : BitVec 5) (f : BitVec 7) (o : FmtI2) : Word := encHead k f o.ty o.mask ++ o.d ++ o.a ++ o.imm
def encM (k : BitVec 5) (f : BitVec 7) (o : FmtM) : Word :=
  encHead k f o.ty o.mask ++ o.d ++ o.base ++ o.off ++ o.view ++ o.acl ++ o.scope ++ o.ws
def encMA (k : BitVec 5) (f : BitVec 7) (o : FmtMA) : Word :=
  encHead k f o.ty o.mask ++ o.d ++ o.a ++ o.base ++ o.off ++ o.op ++ o.acl ++ o.scope ++ o.ws
def encB (k : BitVec 5) (f : BitVec 7) (o : FmtB) : Word :=
  encHead k f o.ty o.mask ++ o.s ++ o.mc ++ o.cond ++ o.off
def encQ (k : BitVec 5) (f : BitVec 7) (o : FmtQ) : Word :=
  encHead k f o.ty o.mask ++ o.d ++ o.a ++ o.b ++ o.c ++ o.q ++ o.qmod ++ o.ws
def encX (k : BitVec 5) (f : BitVec 7) (o : FmtX) : Word :=
  encHead k f o.ty o.mask ++ o.d ++ o.sc ++ o.sf ++ o.sp ++ o.reuse ++ o.ord ++ o.cnt ++ o.sn ++ o.xmod ++ o.xhi ++
    0#7 ++ o.ws
def encS (k : BitVec 5) (f : BitVec 7) (o : FmtS) : Word :=
  encHead k f o.ty o.mask ++ o.d ++ o.a ++ o.sreg ++ o.smod ++ o.ws

/-- The words of an instruction (R33-R47); an event of the device has none. -/
def encode : Instr → Option Word
  | .add o => some (encA 1 0x00 o)
  | .sub o => some (encA 1 0x01 o)
  | .mul o => some (encA 1 0x02 o)
  | .mulhi o => some (encA 1 0x03 o)
  | .mad o => some (encA 1 0x04 o)
  | .div o => some (encA 1 0x05 o)
  | .rem o => some (encA 1 0x06 o)
  | .neg o => some (encA 1 0x07 o)
  | .abs o => some (encA 1 0x08 o)
  | .min o => some (encA 1 0x09 o)
  | .max o => some (encA 1 0x0A o)
  | .and o => some (encA 1 0x0B o)
  | .or o => some (encA 1 0x0C o)
  | .xor o => some (encA 1 0x0D o)
  | .not o => some (encA 1 0x0E o)
  | .andn o => some (encA 1 0x0F o)
  | .shl o => some (encA 1 0x10 o)
  | .shr o => some (encA 1 0x11 o)
  | .sar o => some (encA 1 0x12 o)
  | .rol o => some (encA 1 0x13 o)
  | .sel o => some (encA 1 0x14 o)
  | .mov o => some (encA 1 0x15 o)
  | .cmp o => some (encA 1 0x16 o)
  | .addImm o => some (encI2 2 0x00 o)
  | .subImm o => some (encI2 2 0x01 o)
  | .mulImm o => some (encI2 2 0x02 o)
  | .minImm o => some (encI2 2 0x09 o)
  | .maxImm o => some (encI2 2 0x0A o)
  | .andImm o => some (encI2 2 0x0B o)
  | .orImm o => some (encI2 2 0x0C o)
  | .xorImm o => some (encI2 2 0x0D o)
  | .shlImm o => some (encI2 2 0x10 o)
  | .shrImm o => some (encI2 2 0x11 o)
  | .sarImm o => some (encI2 2 0x12 o)
  | .rolImm o => some (encI2 2 0x13 o)
  | .cmpImm o => some (encI2 2 0x16 o)
  | .movi o => some (encI1 2 0x20 o)
  | .movh o => some (encI1 2 0x21 o)
  | .clz o => some (encA 3 0x00 o)
  | .ctz o => some (encA 3 0x01 o)
  | .popc o => some (encA 3 0x02 o)
  | .brev o => some (encA 3 0x03 o)
  | .bfx o => some (encA 3 0x04 o)
  | .bfi o => some (encA 3 0x05 o)
  | .fadd o => some (encA 4 0x00 o)
  | .fsub o => some (encA 4 0x01 o)
  | .fmul o => some (encA 4 0x02 o)
  | .fma o => some (encA 4 0x03 o)
  | .fms o => some (encA 4 0x04 o)
  | .fnma o => some (encA 4 0x05 o)
  | .fmin o => some (encA 4 0x06 o)
  | .fmax o => some (encA 4 0x07 o)
  | .fabs o => some (encA 5 0x00 o)
  | .fneg o => some (encA 5 0x01 o)
  | .fcpys o => some (encA 5 0x02 o)
  | .fcmp o => some (encA 5 0x03 o)
  | .fclass o => some (encA 5 0x04 o)
  | .fscale o => some (encA 5 0x05 o)
  | .fgetexp o => some (encA 5 0x06 o)
  | .frnd o => some (encA 5 0x07 o)
  | .fdiv o => some (encA 6 0x00 o)
  | .fsqrt o => some (encA 6 0x01 o)
  | .frcpe o => some (encA 6 0x02 o)
  | .frsqe o => some (encA 6 0x03 o)
  | .fexp2 o => some (encA 6 0x04 o)
  | .flog2 o => some (encA 6 0x05 o)
  | .cvt o => some (encA 8 0x00 o)
  | .cvts o => some (encA 8 0x01 o)
  | .pack o => some (encA 8 0x02 o)
  | .unpack o => some (encA 8 0x03 o)
  | .amaxrd o => some (encA 8 0x04 o)
  | .amaxclr o => some (encA 8 0x05 o)
  | .vbcast o => some (encA 9 0x00 o)
  | .vshfl o => some (encA 9 0x01 o)
  | .vshift o => some (encA 9 0x02 o)
  | .vrot o => some (encA 9 0x03 o)
  | .vred o => some (encA 9 0x04 o)
  | .vscan o => some (encA 9 0x05 o)
  | .vballot o => some (encA 9 0x06 o)
  | .vcount o => some (encA 9 0x07 o)
  | .vfirst o => some (encA 9 0x08 o)
  | .mand o => some (encA 10 0x00 o)
  | .mor o => some (encA 10 0x01 o)
  | .mxor o => some (encA 10 0x02 o)
  | .mnot o => some (encA 10 0x03 o)
  | .mmove o => some (encA 10 0x04 o)
  | .mfroms o => some (encA 10 0x05 o)
  | .mtos o => some (encA 10 0x06 o)
  | .setfmt o => some (encA 12 0x00 o)
  | .getfmt o => some (encA 12 0x01 o)
  | .nop o => some (encA 12 0x02 o)
  | .bra o => some (encB 11 0x00 o)
  | .bc o => some (encB 11 0x01 o)
  | .call o => some (encB 11 0x02 o)
  | .ret o => some (encB 11 0x03 o)
  | .jmpi o => some (encB 11 0x04 o)
  | .split o => some (encB 11 0x05 o)
  | .els o => some (encB 11 0x06 o)
  | .join o => some (encB 11 0x07 o)
  | .loop o => some (encB 11 0x08 o)
  | .brk o => some (encB 11 0x09 o)
  | .cont o => some (encB 11 0x0A o)
  | .exit o => some (encB 11 0x0B o)
  | .ld o => some (encM 13 0x00 o)
  | .st o => some (encM 13 0x01 o)
  | .ldsp o => some (encM 13 0x02 o)
  | .stsp o => some (encM 13 0x03 o)
  | .spset o => some (encM 13 0x04 o)
  | .pref o => some (encM 13 0x05 o)
  | .ldsc o => some (encM 14 0x00 o)
  | .stsc o => some (encM 14 0x01 o)
  | .ldcl o => some (encM 14 0x02 o)
  | .stcl o => some (encM 14 0x03 o)
  | .fence o => some (encM 16 0x00 o)
  | .stmc o => some (encMA 14 0x04 o)
  | .gath o => some (encMA 15 0x00 o)
  | .scat o => some (encMA 15 0x01 o)
  | .atom o => some (encMA 17 0x00 o)
  | .cas o => some (encMA 17 0x01 o)
  | .red o => some (encMA 17 0x02 o)
  | .cadd o => some (encMA 17 0x10 o)
  | .cwait o => some (encMA 17 0x11 o)
  | .cread o => some (encMA 17 0x12 o)
  | .tlwait o => some (encQ 17 0x13 o)
  | .close o => some (encQ 17 0x14 o)
  | .qbind o => some (encQ 18 0x00 o)
  | .copy o => some (encQ 18 0x01 o)
  | .tcopy o => some (encQ 18 0x02 o)
  | .halo o => some (encQ 18 0x03 o)
  | .ared o => some (encQ 18 0x04 o)
  | .put o => some (encQ 18 0x05 o)
  | .get o => some (encQ 18 0x06 o)
  | .publish o => some (encQ 18 0x10 o)
  | .pin o => some (encQ 18 0x11 o)
  | .vret o => some (encQ 18 0x12 o)
  | .viewset o => some (encQ 18 0x13 o)
  | .wverset o => some (encQ 18 0x14 o)
  | .fcomp o => some (encQ 18 0x20 o)
  | .encf o => some (encQ 18 0x21 o)
  | .bset o => some (encQ 20 0x00 o)
  | .bq o => some (encQ 20 0x01 o)
  | .bres o => some (encQ 20 0x02 o)
  | .bproc o => some (encQ 20 0x03 o)
  | .bsave o => some (encQ 20 0x04 o)
  | .bresume o => some (encQ 20 0x05 o)
  | .babort o => some (encQ 20 0x06 o)
  | .launch o => some (encQ 21 0x00 o)
  | .enqr o => some (encQ 21 0x01 o)
  | .enqc o => some (encQ 21 0x02 o)
  | .yield o => some (encQ 21 0x03 o)
  | .mma o => some (encX 19 0x00 o)
  | .mmas o => some (encX 19 0x01 o)
  | .mmab o => some (encX 19 0x02 o)
  | .mscale o => some (encX 19 0x03 o)
  | .accclr o => some (encX 19 0x08 o)
  | .accrd o => some (encX 19 0x09 o)
  | .accfl o => some (encX 19 0x0A o)
  | .accseq o => some (encX 19 0x0B o)
  | .trap o => some (encS 22 0x00 o)
  | .tret o => some (encS 22 0x01 o)
  | .sread o => some (encS 22 0x02 o)
  | .swrite o => some (encS 22 0x03 o)
  | .tack o => some (encS 22 0x04 o)
  | .tlbinv o => some (encS 23 0x00 o)
  | .lflush o => some (encS 23 0x01 o)
  | .linv o => some (encS 23 0x02 o)
  | .ctxsave o => some (encS 23 0x03 o)
  | .ctxload o => some (encS 23 0x04 o)
  | .logreplay o => some (encS 23 0x05 o)
  | .fqpop o => some (encS 23 0x06 o)
  | .halt o => some (encS 23 0x07 o)
  | _ => none

end Sys2Proof
end

