-- ==== Sys2Proof/Machine/Sparse.lean ====
section
/-! DEFINITION. Sparse tables in one canonical form: a list of (key, value) pairs with keys strictly rising and no value
equal to the default that an unlisted key reads as. Memory, register files and register windows are such tables. -/
namespace Sys2Proof.Machine

/-- A table from natural keys to values of which only the entries that differ from a default are listed. -/
abbrev Sparse (α : Type) := List (Nat × α)

/-- The value at key `k`; `d` where the key is not listed. -/
def Sparse.get {α : Type} (d : α) : Sparse α → Nat → α
  | [], _ => d
  | (k, v) :: rest, q => if k = q then v else if q < k then d else Sparse.get d rest q

/-- Remove every entry at key `k`. -/
def Sparse.del {α : Type} : Sparse α → Nat → Sparse α
  | [], _ => []
  | (k, v) :: rest, q => if k = q then Sparse.del rest q else (k, v) :: Sparse.del rest q

/-- List key `k` with `v`, in order. -/
def Sparse.put {α : Type} : Sparse α → Nat → α → Sparse α
  | [], q, x => [(q, x)]
  | (k, v) :: rest, q, x =>
    if k = q then (q, x) :: rest else if q < k then (q, x) :: (k, v) :: rest else (k, v) :: Sparse.put rest q x

/-- Key `k` reads as the default again: its entry goes (in a table out of order, where what follows could be read in its place, the
entry stays and holds the default). -/
def Sparse.erase {α : Type} (d : α) : Sparse α → Nat → Sparse α
  | [], _ => []
  | (k, v) :: rest, q =>
    if k = q then (match rest with
      | [] => []
      | (j, _) :: _ => if k < j then rest else (k, d) :: rest)
    else if q < k then (k, v) :: rest else (k, v) :: Sparse.erase d rest q

/-- Write `x` at key `k`, keeping the canonical form: writing the default removes the entry. -/
def Sparse.set {α : Type} [DecidableEq α] (d : α) (t : Sparse α) (k : Nat) (x : α) : Sparse α :=
  if x = d then Sparse.erase d t k else Sparse.put t k x

/-- The first entry at key `k`, for tables whose keys are themselves the data. -/
def Sparse.find {α : Type} (t : Sparse α) (k : Nat) : Option α :=
  match t with
  | [] => none
  | (j, v) :: rest => if j = k then some v else Sparse.find rest k

/-- Every key is above `lo`, keys rise strictly and no value is the default. -/
def Sparse.above {α : Type} [DecidableEq α] (d : α) : Nat → Sparse α → Bool
  | _, [] => true
  | lo, (k, v) :: rest => decide (lo ≤ k) && decide (v ≠ d) && Sparse.above d (k + 1) rest

/-- The canonical form. -/
def Sparse.wf {α : Type} [DecidableEq α] (d : α) (t : Sparse α) : Bool := Sparse.above d 0 t

end Sys2Proof.Machine
end

