-- ==== Sys2Proof/Machine/State.lean ====
section
/-! DEFINITION. The state of the whole package as plain data: roles, cores, dies, slices, directories, engines, gangs,
queues, memory, and the steps that are due; what can stop the model; and the state after reset. -/
namespace Sys2Proof.Machine

/-- Why the machine stops with a fault. -/
inductive Fault where
  /-- An instruction word is executed while no role is issuing. Raised by every instruction word's meaning when
  `State.cur` names no live role. Safe: the hardware issues an instruction only from a role (R27). -/
  | noRole
deriving DecidableEq, Repr

/-- Why an instruction has no meaning in the model. -/
inductive Refusal where
  /-- The instruction has no meaning yet. Raised by exec's own arm. Safe: nothing is claimed of it. -/
  | notModelled (mnemonic : String)
deriving DecidableEq, Repr

/-! ### Roles (09 R201) -/

/-- The kinds of a reconvergence-stack entry (R208). -/
inductive EntryKind where
  | split | els | loop | call
deriving DecidableEq, Repr

/-- A reconvergence-stack entry (R207). -/
structure StackEntry where
  kind : EntryKind
  pc : Word
  mask : LaneMask
  fmt : Word
deriving DecidableEq, Repr

/-- A stream slot that holds a record (R225, R226). -/
structure Stream where
  base : Nat
  pfd : Nat
  ndim : Nat
  dir : Bool
  ty : Ty
  counts : List Nat
  strides : List Int
  pos : Nat
deriving DecidableEq, Repr

/-- What a queue register is bound to (R246). -/
inductive QTarget where
  | shared (die : Die) (ctx : Fin 256) | localCtx | composer | encoder
deriving DecidableEq, Repr

/-- The clause a role has fetched: header address, header, raw words, index of the next word to issue, and whether the
header has issued (R22, R27). -/
structure Clause where
  addr : Word
  header : Header
  words : List Word
  idx : Nat
  issued : Bool
deriving DecidableEq, Repr

/-- A register that a tack region tracks (R422). -/
inductive TrackReg where
  | s (n : Nat) | v (n : Nat) | m (n : Nat) | cc
deriving DecidableEq, Repr

/-- An open tack region: its checkpoint (R424), its inputs and the registers it has written (R422). -/
structure Tack where
  pc : Word
  clause : Option Clause
  positions : Sparse Nat
  latch : Option (RegName × List Word)
  bound : List (RegName × Nat)
  inputs : List TrackReg
  written : List TrackReg
deriving DecidableEq, Repr

/-- Why a role is held (R215). `ready` means it is not. -/
inductive Hold where
  | ready
  | walk                                   -- the walk met MIG (R97, R111)
  | service (die : Die) (idx : Nat)        -- a KIND 0 record awaits its verdict (R412)
  | ring                                   -- the fault ring has no place for the record (R410)
  | window                                 -- the side-log window must close (R157)
  | logSpace                               -- the side log has no entry or data space (R414)
  | drain                                  -- earlier accesses must be performed (R148, R152, R334, R335)
  | overlap                                -- a load overlaps a queued or logged store (R157)
  | counter (addr : Nat)                   -- CWAIT or TLWAIT whose target is not met (R240)
  | context                                -- the context has 64 commands outstanding (R249)
  | parked (q vmid asid : Nat)             -- a push to a full spawn queue (R399)
  | beam                                   -- BQ, BRESUME without room (R363)
  | event (num : Nat)                      -- BRES without an event (R364)
  | matrix                                 -- four uncommitted matrix instructions (R313), or 32 refused updates (R321)
  | commit                                 -- an accumulation instruction has ended the region and is not committed (R324)
  | slotFull                               -- the wait slot counts 32 (R31)
  | saving                                 -- stopped for a save (R425)
  | fqpop                                  -- FQPOP.wait on an empty ring (R441)
  | place                                  -- CTXLOAD waits for cores, CTXSAVE for the save (R439, R440)
  | access                                 -- the instruction's own access is on its way (R29)
deriving DecidableEq, Repr

/-- A pending trap (R473): a final report of a side-log entry (R416), or an engine-side cause (R420). -/
structure PendTrap where
  cause : Nat
  addr : Word
  pc : Word
  final : Bool
  wr : Bool
deriving DecidableEq, Repr

/-- The latest event of a beam query, as BRES reports it (R364). -/
inductive BeamEvent where
  | running
  | complete (status cause : Nat) (addr : Word) (nchild nrays : Nat)
  | proc (ray prim : Nat)
deriving DecidableEq, Repr

/-- A role (R201 Table 2, R210, R406). -/
structure Role where
  gang : Nat := 0          -- GANGID
  grid : Nat := 0          -- GRIDID
  team : Nat := 0          -- TEAMID
  ix : Nat := 0            -- ROLEID
  rank : Nat := 0          -- GANGRANK
  core : Nat := 0          -- the core that holds the role: 192 × die + 48 × cluster + number
  slot : Nat := 0          -- role slot of the core (R404)
  prio : Nat := 0
  vmid : Nat := 0
  asid : Nat := 0
  nlanes : Nat := 1
  budget : Nat := 8
  pc : Word := 0
  topped : Bool := false             -- execution has fallen through past the last address: the next header is at 2^64 (R26)
  clause : Option Clause := none
  sregs : Sparse Word := []
  vregs : Sparse Word := []          -- key 1,024 × register + lane
  masks : Sparse LaneMask := []      -- bits at or above NLANES are 0; the summary is computed (R204)
  waits : Sparse Nat := []           -- outstanding count of w1-w6
  bound : List (RegName × Nat) := [] -- bindings (R32)
  streams : Sparse Stream := []      -- idle slots are not listed
  queues : Sparse QTarget := []      -- unbound registers are not listed
  views : Sparse Nat := []           -- vw1-vw15
  wver : Nat := 0
  fmt : Word := 1
  fpstat : Word := 0
  amax : Word := 0
  cc : Word := 0
  stack : List StackEntry := []      -- the held entries, top first
  spilled : Sparse Word := []        -- the model's own: the words that the role has put into its stack area, by place (R209)
  rsbase : Word := 0
  limit : Nat := 0
  depth : Nat := 0
  sf : Nat := 0
  latch : Option (RegName × List Word) := none
  scale : Sparse Byte := []          -- unlisted bytes are 0x7F (R319)
  beamLimit : Nat := 16
  beamGen : Sparse Nat := []
  beamHeld : Sparse BeamEvent := []  -- held handle numbers with their latest event
  tvec : Word := 0
  tcause : Word := 0
  taddr : Word := 0
  tpc : Word := 0
  handler : Bool := false
  pend : List PendTrap := []
  tack : Option Tack := none
  tackNext : Bool := false           -- TACK opens a region at the next instruction (R435)
  tackLast : Bool := false           -- the instruction at the index is the last of the open region (R421)
  hold : Hold := .ready
  count : Nat := 0                   -- issue count (R404)
  yielded : Bool := false            -- ranks as if its next header had YIELD (R432)
  resume : Bool := false             -- TRET resumes at pc, which may stand within a clause (R434)
  halting : Bool := false            -- HALT ends it at its next boundary (R444)
  ended : Bool := false
deriving DecidableEq, Repr

/-! ### Cores -/

/-- Where an element of an access lies: in a line of memory, reached under an L1 tag and a leaf's permissions; in a
scratchpad share of the gang; or in a device register window (R61, R172). -/
inductive Target where
  | mem (line off : Nat) (tag : L1Tag) (perm : FillPerm) (view acc : Bool)
  | spad (rank off : Nat)
  | window (pa : Nat)
deriving DecidableEq, Repr

/-- An element of an outstanding operation, with the data it writes and the operation it performs. -/
structure OpElem where
  lane : Nat
  va : Nat
  target : Target
  data : Word := 0
  elem : ElemOp := .load
deriving DecidableEq, Repr

/-- What an outstanding operation of a core is. -/
inductive OpKind where
  | load | store | atomic | accRead | accWrite
deriving DecidableEq, Repr

/-- Whether an operation goes on. Where a home has refused it, the record of it awaits its verdict, or it waits for a page that is being
moved, or it is to walk again (R412, R418). -/
inductive OpStop where
  | go | record (die idx : Nat) | moving | walk
deriving DecidableEq, Repr

/-- An outstanding operation: its elements on their way in ascending lane order, and the values that have come back
(R220). Its `sent` elements have a message in flight. -/
structure Op where
  rid : Nat
  pc : Word
  kind : OpKind
  ty : Ty
  dst : Option RegName := none
  ws : Nat := 0
  cls : AccClass := .ordinary
  waiting : List OpElem := []
  sent : Nat := 0
  p : Nat := 0                -- pts at issue (R145)
  got : List (Nat × Word) := []
  asid : Nat := 0             -- ASID, WVER and handler mode at issue
  wver : Nat := 0
  handler : Bool := false
  undo : Option (Nat × Nat) := none   -- an LDSP's slot, and its position before (R227)
  view : Option Nat := none   -- the value of a load's view
  stop : OpStop := .go
  mode : BitVec 4 := 0        -- ACCRD's XMOD
  fmt : Word := 0             -- ACCRD's FMT at issue
deriving DecidableEq, Repr

/-- A line of the L1 (R89, R117, R177). -/
structure L1Line where
  tag : L1Tag
  line : Nat
  perm : FillPerm
  data : LineData
  wts : Nat
  rts : Nat
  pf : Bool
deriving DecidableEq, Repr

/-- How a side-log entry stands (R413): logged with its cause and the die and index of its fault record; queued behind a logged
entry; or lost, queued behind a store whose fault has become final (R158). -/
inductive LogState where
  | logged (cause : Nat) (record : Option (Nat × Nat))
  | queued
  | lost
deriving DecidableEq, Repr

/-- What a side-log entry replays: store or reduction elements, line updates of a matrix instruction, or an accumulator
write. -/
inductive LogBody where
  | elems (ty : Ty) (cls : AccClass) (xs : List (Nat × Nat × Word))   -- lane, address, data
  | reds (op : RedOp) (flow : Word) (ty : Ty) (xs : List (Nat × Nat × Word))
  | updates (va : Nat) (us : List LineUpdate)
  | accWrite (va : Nat) (line : Bool) (acc : AccAccess)
deriving DecidableEq, Repr

/-- A side-log entry (R413). -/
structure LogEntry where
  id : Nat
  rid : Nat
  pc : Word
  addr : Nat
  state : LogState
  body : LogBody
  wver : Nat
  asid : Nat := 0             -- ASID at issue
  after : Nat := 0            -- the core's operations below this number come before the entry in program order
  handler : Bool := false     -- the role was in handler mode when the instruction issued
deriving DecidableEq, Repr

/-- A matrix instruction that has issued and is not committed (R313, R326). -/
structure MatJob where
  rid : Nat
  pc : Word
  inRegion : Bool
  readsDone : Bool
  counter : Option Nat       -- the counter whose add is still to be made (R315)
  counted : Bool := false    -- the add has been made
  va : Nat
  line : Nat                 -- the first line of C, as the walk at issue found it
  vmid : Nat
  asid : Nat
  ty : Ty
  bt : Ty
  binary : Bool
  binAnd : Bool
  sparse : Bool
  bscale : Bool
  w : Nat
  k : Nat
  a : List Word
  active : LaneMask
  scale : Sparse Byte
  bAddrs : List (Option Nat)
  panels : List Nat          -- MMAS: the live panels, ascending (R316)
  bWords : List Word
  flow : Word
  logEntry : Option Nat
deriving DecidableEq, Repr

/-- Where a gang came from. -/
inductive Origin where
  | queue (q : Nat) | spawn (qva vmid asid first count depth : Nat)
deriving DecidableEq, Repr

/-- A node on a query's way from the root: its index, its 16 words as the query read them, and the next child to test. -/
structure Frame where
  node : Nat
  words : List Word
  next : Nat
deriving DecidableEq, Repr

/-- What a query does next: it reads the nodes of its path; it goes on from its place; it pushes its children; it waits for the
answer about a procedural leaf; or it writes result records of the given status, for rays that end now. -/
inductive QPhase where
  | path | walking | push | proc (prim : Nat) | records (status : Nat) (rays : List Nat)
deriving DecidableEq, Repr

/-- The best hit of a single ray (R349). -/
structure BestHit where
  t : BitVec 32
  prim : Nat
  u : BitVec 32
  v : BitVec 32
  leaf : Nat
deriving DecidableEq, Repr

/-- A beam query in flight (16 R338-R358). -/
structure Query where
  rid : Nat
  handle : Nat
  gang : Nat
  vmid : Nat
  asid : Nat
  wver : Nat
  who : Origin                  -- the gang of the role that started it, as a push counts it (R469)
  part : Nat
  qaddr : Nat := 0
  sva : Nat := 0                -- the structure descriptor's address
  qrec : List Word := []        -- the 16 words of the query record
  sdesc : List Word := []       -- the 8 words of the structure descriptor
  samples : Sparse Word := []   -- the cone samples of the enclosed rays
  known : Bool := false         -- the enclosed rays are known
  view : Option Nat := none     -- captured view value; none for the current frame
  ckind : Nat := 0
  region : Nat := 0
  depth : Nat := 0
  quota : Nat := 256
  visits : Nat := 0             -- lineage visits of the rays that are being traced
  path : List Nat := []         -- levels of a restarted query's path that are still to be read
  nextk : Nat := 0
  counted : Bool := true        -- reading the path counts as visits
  stack : List Frame := []      -- nodes from the current one up to the root
  serial : Bool := false        -- a split made in place (R348)
  curRay : Nat := 0
  splitAt : List Frame := []    -- the place of the split, and its visits
  splitVisits : Nat := 0
  leafRead : Bool := false      -- the query disagreed at a leaf that it has read
  written : List Nat := []      -- rays whose records have been written
  toAdd : Nat := 0              -- of these, rays that DONEC does not count yet
  best : Option BestHit := none
  phase : QPhase := .path
  pend : Option Nat := none     -- a resumed query's primitive that awaits an answer
  children : List (List Word) := []
  nchild : Nat := 0             -- fray records pushed
  maxStatus : Nat := 0
  cause : Nat := 0
  faddr : Word := 0
  ending : Bool := false        -- an error or an abort has ended the query
  aborted : Bool := false
  saveTo : Option (Nat × RegName × Nat) := none   -- BSAVE in progress: address, destination register, wait slot
deriving DecidableEq, Repr

/-- What a core does next (R403, R404). -/
inductive Phase where
  | choose
  | fetch (rid : Nat)
  | header (rid : Nat)
  | run (rid : Nat)
deriving DecidableEq, Repr

/-- A cached resolution of a view (R107). -/
structure Resolution where
  va : Nat
  vmid : Nat
  asid : Nat
  view : Nat
  frame : Nat
  ver : Nat
deriving DecidableEq, Repr

/-- A clause that a core has fetched and keeps until LINV drops it (R28, R438): its header and words. -/
structure KeptClause where
  vmid : Nat
  asid : Nat
  addr : Word
  words : List Word
deriving DecidableEq, Repr

/-- A core. -/
structure Core where
  pts : Nat := 0
  hitSince : Bool := false          -- an L1-hit load has issued since pts last changed (R122)
  aged : Bool := false              -- 1,024 cycles have passed without one (R122)
  l1 : List L1Line := []            -- most recently used first
  slots : Sparse Nat := []          -- role slot to role
  last : Option Nat := none         -- the role that issued the last clause
  phase : Phase := .choose
  ops : Sparse Op := []
  nextOp : Nat := 0
  prefetches : Nat := 0
  jobs : List MatJob := []          -- in issue order
  refused : List LineUpdate := []   -- refused line updates of the sender (R321)
  log : List LogEntry := []         -- the side log, in log order
  queries : Sparse Query := []
  nextQuery : Nat := 0
  waitBeam : List Nat := []         -- roles whose BQ or BRESUME holds, in issue order
  resolutions : List Resolution := []
  fetched : List KeptClause := []   -- the latest fetch of each clause
  picks : List (Nat × Word × Bool) := []   -- per role, a transfer's target and whether the fetch there takes the kept bytes (R26, R28)
  badL1 : List Nat := []            -- lines whose L1 copy holds an uncorrectable error (R178)
  weakL1 : List Nat := []           -- lines whose L1 copy holds a correctable error (R178)
deriving DecidableEq, Repr

/-! ### Dies -/

/-- The kinds of slice line (R163). -/
inductive LineKind where
  | copy      -- a home line or a remote copy, with the agent's MOESI state
  | mirror    -- the home slice's mirror of a remote owner's line
  | view      -- an untracked view copy
  | acc       -- an accumulator line
deriving DecidableEq, Repr

/-- A line of a die's L2 (R161, R163), or of the host's cache. -/
structure SliceLine where
  line : Nat
  kind : LineKind
  vmid : Nat
  st : Moesi
  wts : Nat
  rts : Nat
  dirty : Bool
  data : LineData
deriving DecidableEq, Repr

/-- A directory entry (R131). -/
structure DirEntry where
  line : Nat
  st : Moesi
  shr : BitVec 5
  own : Agent
  hts : Nat
deriving DecidableEq, Repr

/-- The requests a home serves. -/
inductive ReqMsg where
  | gets | getm | upgm
deriving DecidableEq, Repr

/-- A transaction in progress at a home (R127). -/
structure HomeTx where
  line : Nat
  req : ReqMsg
  a : Agent
  acks : List Agent          -- agents whose INVACK is still to arrive
  forwarded : Bool
  upgrade : Bool
  granted : Bool := false    -- the home has answered; the requester still waits for the owner's data
deriving DecidableEq, Repr

/-- A victim entry whose holders have not all answered BINV (R132). -/
structure Victim where
  entry : DirEntry
  waiting : List Agent
deriving DecidableEq, Repr

/-- A write request of an agent in flight: what has arrived (R128). -/
structure AgentTx where
  line : Nat
  vmid : Nat
  write : Bool
  data : Option (LineData × Nat)    -- the bytes and their wts
  hts : Nat                         -- largest HTS received
  gnt : Bool
  needGnt : Bool
deriving DecidableEq, Repr

/-- A write at an owner that waits for MACK (R121, R128, R136); the reply of a core's store that follows it. -/
structure MirWait where
  line : Nat
  wts : Nat
  reply : Option StReply := none
deriving DecidableEq, Repr

/-- What remains of one refused or held line update in a slice's reorder buffer (R321). -/
structure Held where
  update : LineUpdate
deriving DecidableEq, Repr

/-- A frame that waits to be returned to a free ring: the die and tier of the ring, PA[51:16] of the frame, and the die whose snapshot
engine returns it; none for a migration engine (R472). -/
structure Return where
  die : Nat
  tier : Nat
  frame : Nat
  snap : Option Nat := none
deriving DecidableEq, Repr

/-- How far a copy-on-write request has come (R111): it waits for BUSY; it reclaims slots; it waits for a free frame; the page is
being copied to a frame; BUSY is to be cleared. -/
inductive CowStage where
  | request | reclaim | frame | copying (dest : Nat) | finish
deriving DecidableEq, Repr

/-- A copy-on-write request or copy (R111). -/
structure CowJob where
  leafAddr : Nat
  vmid : Nat
  va : Nat
  chainAddr : Nat
  w : Nat
  oldFrame : Nat
  stage : CowStage := .request
  owes : Option Return := none      -- a return that its later steps wait for
deriving DecidableEq, Repr

/-- A pending publication (R114, R256). -/
structure Pub where
  ctx : CtxId
  n : Nat
  addr : Nat
  vmid : Nat
  asid : Nat
  target : Nat
  region : Nat
  version : Nat
deriving DecidableEq, Repr

/-- How far a migration has come (R97): it takes a destination; the frame is being copied to it; the counter at DONE is to be
incremented; nothing more is to be done. -/
inductive MigStage where
  | take | copying (dest : Nat) | count | drop
deriving DecidableEq, Repr

/-- A migration in progress (R97): PA[51:16] of the victim, and what its reverse-map entry names. -/
structure MigJob where
  victim : Nat
  leafAddr : Nat
  va : Nat
  asid : Nat
  vmid : Nat
  stage : MigStage := .take
  owes : Option Return := none
deriving DecidableEq, Repr

/-- A frame attribute byte's fields (R65). -/
structure Attr where
  acc : Bool := false
  vers : Bool := false
  inter : Bool := false    -- ALIAS: 1 names the interleaved window
  retired : Bool := false
deriving DecidableEq, Repr

/-- Cached leaf translation of a translation unit (R89, R90). -/
structure TlbEntry where
  vmid : Nat
  asid : Nat
  va : Nat                    -- page number at the leaf's size: VA div 2^shift
  shift : Nat
  w0 : Word
  w1 : Word
  leafAddr : Nat
deriving DecidableEq, Repr

/-- A die. Register-window registers with plain fields stand in `regs`, by offset. -/
structure DieState where
  hashsel : Word := 0                  -- HASHSEL (R70)
  regs : Sparse Word := []
  attrs : Sparse Attr := []            -- HBM frame f at key f, capacity-tier frame f at key 2^24 + f
  access : Sparse Byte := []           -- access-bit bytes, by window offset (R95)
  fills : Nat := 0                     -- L2 fills from homed HBM frames (R95)
  fillsCap : Nat := 0
  keys : Sparse (BitVec 512) := []     -- loaded key slots (R71)
  staged : BitVec 512 := 0             -- key staging area (R450)
  lines : List SliceLine := []         -- the L2, most recently used first
  badL2 : List Nat := []               -- lines whose L2 copy holds an uncorrectable error (R178)
  weakL2 : List Nat := []              -- lines whose L2 copy holds a correctable error (R178)
  t0 : Sparse DirEntry := []
  t1 : Sparse DirEntry := []
  mts : Sparse Nat := []               -- per home slice
  victims : List Victim := []
  homeTx : List HomeTx := []
  homeQ : List (ReqMsg × Nat × Agent) := []     -- requests queued behind a line, in arrival order
  insertQ : List (ReqMsg × Nat × Agent) := []   -- requests waiting for a victim buffer
  agentTx : List AgentTx := []
  waitLd : List LdReqMsg := []         -- loads waiting for the line
  waitSt : List StReqMsg := []         -- stores and atomics waiting for the line
  mirWait : List MirWait := []
  fillWait : List Instr := []          -- DATA and LDREQ whose fill found no eligible way (R164)
  reorder : List Held := []            -- the slices' reorder buffers (R321)
  portRefused : List LineUpdate := []  -- updates from other dies that a slice has refused, kept at the die's seam port (R321)
  tlb : List TlbEntry := []
  cow : List CowJob := []              -- requests and copies, in arrival order
  pubs : List Pub := []
  chfull : Bool := false
  copies : Nat := 0
  sweep : Nat × Nat := (0, 0)          -- the background sweep's place: VMID and chain record (R113)
  sweepOwes : Option Return := none
  mig : Sparse MigJob := []            -- by tier
  migOn : BitVec 3 := 0                -- engines that demote until their ring holds HIGH frames (R93)
  returns : List Return := []          -- frames waiting to be returned to a ring of the die (R472)
  flows : Sparse (Word × Word) := []
  flowHeld : List FlowTransfer := []
  flowRefused : List FlowTransfer := []
  podHeld : List PodReq := []          -- pod requests in the flow reorder buffer (R191)
  lastCtx : Sparse Nat := []           -- the context served last, by engine: 0 copy engines, 1 collective engine (R181)
  snapPts : Nat := 0                   -- the pts of the die's snapshot engine (R117)
  dead : BitVec 4 := 0                 -- DEAD (R139)
deriving DecidableEq, Repr

/-! ### Engines, gangs, queues -/

/-- How far a command has come; `held` at a page that is being moved, or for an entry or a member. -/
inductive CmdState where
  | accepted | held | running | done | failed
deriving DecidableEq, Repr

/-- A SIG add that follows the writes of its face (R186, R196): address, value, whether the address is a pod address, and the flow. -/
structure SigAdd where
  face : Nat
  addr : Word
  inc : Word
  pod : Bool
  flow : Nat
deriving DecidableEq, Repr

/-- A command of a context that COMPLETED does not cover yet: its number and how far it has come. -/
structure CmdEntry where
  n : Nat
  cmd : Cmd
  st : CmdState
  sigs : List SigAdd := []           -- the SIG adds that are still to be made
  record : List (List Word) := []    -- the records and descriptors that the engine read whole when it started (R185)
  moved : List Nat := []             -- the faces of a HALO that have moved (R196)
  met : List Nat := []               -- the members of an ARED whose parameters have been exchanged, by rank (R197)
deriving DecidableEq, Repr

/-- An engine context (R180, R184, R451). -/
structure Ctx where
  asid : Nat := 0
  vmid : Nat := 0
  prio : Nat := 0
  skip : Bool := false
  en : Bool := false
  tladdr : Nat := 0                  -- VA[56:0]
  accepted : Nat := 0
  completed : Nat := 0
  failn : Nat := 0
  err : Bool := false
  code : Nat := 0
  failaddr : Word := 0
  cmds : List CmdEntry := []
  tlRetry : Option Nat := none       -- a timeline write that failed (R474)
  due : List (Nat × Word) := []      -- words that are still to be written at offsets of the timeline's address (R252)
  dueBy : Option Cmd := none         -- the command under whose identity they are written
  dueSignal : Bool := false          -- the host is to be signalled once they are written
  pts : Nat := 0
deriving DecidableEq, Repr

/-- A command that an instruction has issued and a context has still to accept (R249). -/
structure IssuedCmd where
  rid : Nat
  ctx : CtxId
  cmd : Cmd
  pc : Word := 0                     -- the PC of its instruction
  dst : RegName
  ws : Nat
  after : Nat                        -- operations of the core below this number come first (R143 item 7)
deriving DecidableEq, Repr

/-- How a gang stands; a retired one only keeps its scratchpad, until local commands are done with it (R393). -/
inductive GangState where
  | resident | saving | saved | loading | retired
deriving DecidableEq, Repr

/-- A CTXSAVE or CTXLOAD in progress: the issuing role, the save area and its size, the destination and the wait slot. -/
structure SaveReq where
  rid : Nat
  area : Nat
  size : Nat
  dst : RegName
  ws : Nat
deriving DecidableEq, Repr

/-- A gang (R200, R389-R393). -/
structure Gang where
  grid : Nat := 0
  g : Nat := 0
  vmid : Nat := 0
  asid : Nat := 0
  prio : Nat := 0
  part : Nat := 0
  cores : List Nat := []             -- by rank
  nteams : Nat := 1
  sp : Nat := 0                      -- scratchpad share in bytes
  done : Nat := 0
  origin : Origin := .queue 0
  state : GangState := .resident
  shares : Sparse (Sparse Byte) := []   -- scratchpad bytes, by rank
  spts : Sparse Nat := []               -- by rank
  tlbase : Nat := 0
  saveArea : Option SaveReq := none
  ctxSaved : Bool := false           -- saved by CTXSAVE: only CTXLOAD restores it (R439)
  savedFor : Option (Nat × Nat × Nat × Nat) := none   -- the batch whose place it made free (R401): qva, VMID, ASID, first record
  savedPts : Nat := 0
  savedLog : List (Nat × LogEntry) := []        -- rank and entry
  savedOps : List (Nat × Nat × Op) := []        -- rank, number and operation: loads that a home has refused (R412)
  savedRefused : List (Nat × LineUpdate) := []
  savedCmds : List IssuedCmd := []              -- commands issued and not accepted when the gang was saved (R250)
  savedQueries : List (Nat × Query) := []
  verdicts : List (Die × Nat × Bool) := []      -- verdicts given while not resident (R427)
  noDone : Bool := false
deriving DecidableEq, Repr

/-- The packet at a queue's head as the scheduler has read it: its words, its descriptor's words, and how far it has come
(R391, R392, R397). -/
structure Head where
  cons : Nat
  packet : List Word
  desc : List Word
  next : Nat := 0                    -- gangs already admitted
  deps : Bool := false               -- its dependences are met
  waits : Bool := false              -- a co-operative grid that waits for room
  pts : Nat := 0                     -- the time that its gangs start from
deriving DecidableEq, Repr

/-- A host work queue's scheduler state beside its entry in memory (R392, R397, R430): the LAUNCH mark, the head, and the cores
that are reserved for a co-operative head. -/
structure QueueState where
  mark : Bool := false
  head : Option Head := none
  reserved : List Nat := []
deriving DecidableEq, Repr

/-- A push waiting for room (R399). -/
structure Push where
  rid : Nat                          -- the pushing role, or the role that started the beam query
  query : Option (Nat × Nat)         -- the core and query of a beam push
  records : List (List Word)
  depth : Nat
  part : Nat
  stamp : Nat := 0                   -- pushes that parked before it
deriving DecidableEq, Repr

/-- A batch of a spawn queue: first record, count, depth and the gang that takes it, once admitted. -/
structure Batch where
  first : Nat
  count : Nat
  depth : Nat
  gang : Option Nat
  retired : Bool
deriving DecidableEq, Repr

/-- What the scheduler keeps of a spawn queue beside its descriptor in memory (R399, R400). -/
structure Spawn where
  qva : Nat
  vmid : Nat
  asid : Nat
  rank : Nat
  parked : List Push := []
  origins : Sparse (Nat × Nat) := []   -- record index: the depth and the partition of its push
  batches : List Batch := []         -- batches admitted and not passed by HEAD, in order
  ready : Option (Batch × List Word) := none   -- a batch formed and not admitted, with its launch descriptor
  timeout : Bool := false
deriving DecidableEq, Repr

/-- A seam between two dies (R137-R139). -/
structure Seam where
  lstate : Fin 5 := 0
  wakefail : BitVec 16 := 0
  retrain : BitVec 16 := 0
  held : List Instr := []
deriving DecidableEq, Repr

/-- What the device signals to the host. -/
inductive Signal where
  | faultRing (die : Nat) | chfull (die : Nat) | retwait (die tier : Nat) | lowf (die : Nat) | queueErr (q : Nat)
  | spawnErr (qva : Nat) | gangAborted (gang : Nat) | localCtx (gang team : Nat) | dieDead (die : Nat)
  | ready | overheat | hostRead (data : LineData) | hostError | podRead (data : LineData) | podError | podAgain
deriving DecidableEq, Repr

/-- The choice of the step that comes next: a due event by its place, a core's issue logic, an agent of the device that has
something to do, or the default rule. -/
inductive Choice where
  | event (n : Nat) | core (c : Nat) | poll (n : Nat) | default
deriving DecidableEq, Repr

/-- The state of the package. `pending` holds the steps that are due: messages in flight, completions, timers that have
run out, and requests from outside; `sched` holds the choices of the order in which they come. -/
structure State where
  mem : List Host.Cell := []           -- physical memory, by canonical physical address
  memKey : Sparse (BitVec 512) := []   -- the key each line of memory was last written under, by line number
  bad : List Nat := []                 -- 32-byte blocks that fail ECC, by block number
  weak : List Nat := []                -- 32-byte blocks with an error that ECC corrects (R74), by block number
  migLost : List Nat := []             -- leaf entries that a failed copy or migration has left with MIG = 1 (R97)
  badRegs : List (Nat × RegName) := []           -- register entries with an uncorrectable error (R178), by role
  badSpad : List (Nat × Nat × Nat) := []         -- scratchpad 8-byte units likewise: gang, rank, unit
  weakRegs : List (Nat × RegName) := []          -- register entries and scratchpad units with an error that ECC corrects (R178)
  weakSpad : List (Nat × Nat × Nat) := []
  roles : Sparse Role := []
  cores : Sparse Core := []
  dies : Sparse DieState := []
  hostLines : List SliceLine := []     -- the host's cached lines
  hostVmid : Nat := 0                  -- the VMID of the host's latest request
  ctxs : List (CtxId × Ctx) := []
  issued : List IssuedCmd := []        -- commands waiting for acceptance, in issue order
  gangs : Sparse Gang := []
  queues : Sparse QueueState := []
  spawns : List Spawn := []
  rr : Nat := 0                        -- round-robin place of the launch scheduler (R396)
  saveOrder : List Nat := []           -- saved gangs, in the order of their saves
  parks : Nat := 0                     -- pushes parked so far
  nextGang : Nat := 1
  nextRole : Nat := 0
  seams : Sparse Seam := []            -- key 4 × lower die + higher die
  hearts : Sparse Nat := []            -- heartbeats missed, key 4 × die + peer
  portsDown : BitVec 16 := 0           -- UALink ports
  podMem : List Host.Cell := []        -- what the pod peers' exported memory holds, by pod address
  podRefused : List Nat := []          -- pod blocks that peers refuse
  fwImage : List Byte := []            -- the firmware image in the board's flash, header first (R453)
  blobImage : List Byte := []          -- the configuration blob there
  romHash : BitVec 256 := 0            -- what the boot ROM holds: the SHA-256 of the vendor's modulus (R453)
  boot : BitVec 17 := 0                -- BOOTSTAT (R455)
  mhz : Nat := 1800
  stopped : Bool := false
  attest : Bool := false               -- report done (R457)
  signals : List Signal := []          -- signals to the host, oldest first
  globalTime : Nat := 0                -- logical clock of the scheduler and the fault-ring writers
  cur : Nat := 0                       -- the role whose instruction is executing
  coreTurn : Nat := 0                  -- the core whose issue logic is next by default
  turn : Nat := 0                      -- default choices made so far
  pending : List Instr := []
  sched : List Choice := []
  freeCtr : Nat := 0                   -- the model's own: numbers the free values drawn so far
deriving DecidableEq, Repr

/-! ### Reset -/

/-- PLIM as the blob gives it (R459). -/
def resetPlim : Word := BitVec.ofNat 64 (800 + (Config.plim).val)

/-- The register windows' reset values that are not 0, at rising offsets: PLIM cfg (R459), coherence control SLEEPIDLE cfg and
LEASE 32 (R118), HVMASK 0x0001 (R199), and the partition registers with QCNT 0xFF, and V 1 and VMID 1 for partition 0 (R447). (DEDUCED, log 3) -/
def resetRegs : Sparse Word :=
  [(0x200, resetPlim), (0x4000, (Config.sleepIdle).zeroExtend 64 <<< 32 ||| 32#64), (0x4100, 1#64),
    (0x6200, 0x8800_00FF_0000_0000#64)] ++
  [0x6208, 0x6210, 0x6218, 0x6220, 0x6228, 0x6230, 0x6238].map fun o => (o, 0x0000_00FF_0000_0000#64)

/-- HASHSEL as the blob loads it: NEN the enabled slices, NSEL the code that selects them all (R70). -/
def resetHashsel : Word := BitVec.ofNat 64 ((32 - Config.nsel.val) * 4 + Config.nsel.val)

/-- A die right after reset. -/
def DieState.reset : DieState := { hashsel := resetHashsel, regs := resetRegs }

/-- The package right after reset: every field at the value its map's Reset column gives, memory with nothing listed, no
gang, no queue served, BOOTSTAT 0 (R455). Bring-up and every program come from outside, as due events. -/
def State.reset : State :=
  { dies := [(0, DieState.reset), (1, DieState.reset), (2, DieState.reset), (3, DieState.reset)], romHash := Config.romKeyHash }

end Sys2Proof.Machine
end

