-- ==== Sys2Proof/Machine/Ops.lean ====
section
/-! DEFINITION. The named operations over the state that every meaning shares: reading and writing roles and their
registers, masks and wait slots; moving to the next word; entering a handler and returning from one; physical bytes. -/
namespace Sys2Proof.Machine

/-- The answer of every operation that completes. -/
abbrev Out := Host.Outcome State Fault Refusal

/-! ### Tables of the state -/

def State.role? (s : State) (rid : Nat) : Option Role := s.roles.find rid
def State.setRole (s : State) (rid : Nat) (r : Role) : State := { s with roles := s.roles.put rid r }
def State.delRole (s : State) (rid : Nat) : State := { s with roles := s.roles.del rid }
/-- The role `rid` changed by `f`, where it exists. -/
def State.updRole (s : State) (rid : Nat) (f : Role → Role) : State :=
  match s.role? rid with
  | none => s
  | some r => s.setRole rid (f r)

def State.core (s : State) (c : Nat) : Core := s.cores.get {} c
def State.setCore (s : State) (c : Nat) (k : Core) : State := { s with cores := s.cores.put c k }
def State.updCore (s : State) (c : Nat) (f : Core → Core) : State := s.setCore c (f (s.core c))

/-- The core's pts rises to `t`; a change of it starts the count of R122 again. -/
def State.raisePts (s : State) (core t : Nat) : State :=
  s.updCore core fun k => if k.pts < t then { k with pts := t, hitSince := false, aged := false } else k

def State.die (s : State) (d : Nat) : DieState := s.dies.get {} d
def State.setDie (s : State) (d : Nat) (x : DieState) : State := { s with dies := s.dies.put d x }
def State.updDie (s : State) (d : Nat) (f : DieState → DieState) : State := s.setDie d (f (s.die d))

def State.gang? (s : State) (g : Nat) : Option Gang := s.gangs.find g
def State.setGang (s : State) (g : Nat) (x : Gang) : State := { s with gangs := s.gangs.put g x }
def State.updGang (s : State) (g : Nat) (f : Gang → Gang) : State :=
  match s.gang? g with
  | none => s
  | some x => s.setGang g (f x)

/-- The die of a core: 192 cores a die (R9). -/
def dieOf (core : Nat) : Nat := core / 192
/-- The cluster of a core, 0 to 15 over the package (R9). -/
def clusterOf (core : Nat) : Nat := core / 48

/-- The logical clock of the fault-ring writers, the scheduler, the migration engines and the other agents for which R117 names none of
their own; it follows what they read and write. (DESIGN CHOICE, log 25) -/
def State.clock (s : State) : Nat := s.globalTime
def State.tick (s : State) (t : Nat) : State := { s with globalTime := max s.globalTime t }

/-- The pts of a die's snapshot engine rises (R117). -/
def State.tickSnap (s : State) (d t : Nat) : State := s.updDie d fun x => { x with snapPts := max x.snapPts t }

/-- The clock of the snapshot engine of die `n`, or the one that the other agents share. -/
def State.clockOf (s : State) : Option Nat → Nat
  | some n => (s.die n).snapPts
  | none => s.clock
def State.tickOf (s : State) : Option Nat → Nat → State
  | some n, t => s.tickSnap n t
  | none, t => s.tick t

/-- Add a step that is due. -/
def State.send (s : State) (i : Instr) : State := { s with pending := s.pending ++ [i] }
def State.sendAll (s : State) (l : List Instr) : State := { s with pending := s.pending ++ l }
def State.signal (s : State) (x : Signal) : State := { s with signals := s.signals ++ [x] }

/-- A free value (see Config.freeWord), and the state that has drawn it. (DESIGN CHOICE, log 5) (DESIGN CHOICE, log 12) -/
def State.fresh (s : State) : Word × State := (Config.freeWord s.freeCtr, { s with freeCtr := s.freeCtr + 1 })

/-! ### A word of the current role -/

/-- A meaning of an instruction word: `f` on the issuing role. (DEDUCED, log 8) -/
def onRole (s : State) (f : Nat → Role → State) : Out :=
  match s.role? s.cur with
  | none => .fault .noRole
  | some r => .next (f s.cur r)

/-- A meaning that changes the issuing role alone. -/
def wordStep (s : State) (f : Role → Role) : Out := onRole s fun rid r => s.setRole rid (f r)

/-! ### Registers (R201, R203) -/

def Role.sreg (r : Role) (n : Nat) : Word := Sparse.get 0 r.sregs n
def Role.setSreg (r : Role) (n : Nat) (x : Word) : Role := { r with sregs := Sparse.set 0 r.sregs n x }
/-- Lane `l` of vector register `n`. -/
def Role.vreg (r : Role) (n l : Nat) : Word := Sparse.get 0 r.vregs (1024 * n + l)
def Role.setVreg (r : Role) (n l : Nat) (x : Word) : Role := { r with vregs := Sparse.set 0 r.vregs (1024 * n + l) x }

/-- What a register field reads in lane `l`: a scalar register is the same in every lane (R36). -/
def Role.read (r : Role) (f : RegName) (l : Nat) : Word := if f.isScalar then r.sreg f.num else r.vreg f.num l

/-- Write `f l` to lane `l` of vector register `n`, for each lane of `ls`. -/
def Role.setLanes (r : Role) (n : Nat) (ls : List Nat) (f : Nat → Word) : Role :=
  ls.foldl (fun q l => q.setVreg n l (f l)) r

/-! ### Masks (R204, R205) -/

/-- The mask of the lanes below `n`. -/
def lowLanes (n : Nat) : LaneMask := BitVec.ofNat 1024 (2 ^ n - 1)
def Role.mask (r : Role) (n : Nat) : LaneMask := Sparse.get 0 r.masks n
/-- A write of a mask register; bits at or above NLANES are ignored (R204). -/
def Role.setMask (r : Role) (n : Nat) (m : LaneMask) : Role :=
  { r with masks := Sparse.set 0 r.masks n (m &&& lowLanes r.nlanes) }
/-- The summary of a mask: bit g is the OR of word g (R204). -/
def maskSummary (m : LaneMask) : BitVec 32 :=
  (List.range 32).foldl (fun a g => if m.extractLsb' (32 * g) 32 == 0#32 then a else a ||| (1#32 <<< g)) 0
/-- The effective mask of an instruction (R205). -/
def Role.effective (r : Role) (m : BitVec 3) : LaneMask := r.mask 0 &&& r.mask m.toNat &&& lowLanes r.nlanes
/-- The lanes of a mask below `n`, ascending. -/
def lanesOf (m : LaneMask) (n : Nat) : List Nat := (List.range n).filter fun l => m.getLsbD l
/-- ActiveLanes() (R205). -/
def Role.active (r : Role) (m : BitVec 3) : List Nat := lanesOf (r.effective m) r.nlanes
/-- A mask from the lanes of a list. -/
def maskOfLanes (ls : List Nat) : LaneMask := ls.foldl (fun m l => m ||| (1#1024 <<< l)) 0

/-! ### Program counter and clause (R26, R27) -/

/-- The header after a clause, H + 8 × (COUNT + 2) (R26). -/
def Clause.nextHeader (c : Clause) : Word := c.addr + BitVec.ofNat 64 (8 * (c.header.count.toNat + 2))
/-- The header after a clause would be at 2^64 (R77). -/
def Clause.tops (c : Clause) : Bool := decide (2 ^ 64 ≤ c.addr.toNat + 8 * (c.header.count.toNat + 2))
/-- The address of the word at the index: the header stands at `addr` (R19). -/
def Clause.wordAddr (c : Clause) : Word := c.addr + BitVec.ofNat 64 (8 * (c.idx + 1))

/-- The address of the instruction that is issuing; the header's where no clause is held. -/
def Role.ipc (r : Role) : Word :=
  match r.clause with
  | none => r.pc
  | some c => c.wordAddr

/-- The header after the current clause. (DEDUCED, log 163) -/
def Role.next (r : Role) : Word :=
  match r.clause with
  | none => r.pc
  | some c => c.nextHeader

/-- The current header, from which branch offsets count (R43). -/
def Role.header (r : Role) : Word :=
  match r.clause with
  | none => r.pc
  | some c => c.addr

/-- The instruction is complete: a tack region whose last instruction it is ends (R421). -/
def Role.settle (r : Role) : Role :=
  { r with hold := .ready, tack := if r.tackLast then none else r.tack, tackLast := false }

/-- Past the word at the index: the next word of the clause, or the next header after its last (R26). -/
def Role.advance (r : Role) : Role :=
  match r.clause with
  | none => r.settle
  | some c =>
    if c.idx + 1 < c.words.length then { r.settle with clause := some { c with idx := c.idx + 1 } }
    else { r.settle with pc := c.nextHeader, topped := c.tops, clause := none }

/-- A control transfer to `t`. -/
def Role.goto (r : Role) (t : Word) : Role := { r.settle with pc := t, topped := false, clause := none }

/-- Hold the role at the instruction (R215): it is issued again later. -/
def Role.holdAt (r : Role) (h : Hold) : Role := { r with hold := h }

/-! ### Wait slots (R30-R32) -/

def Role.waitCount (r : Role) (w : Nat) : Nat := Sparse.get 0 r.waits w
/-- A variable-latency instruction issues on slot `w`, and its destinations are bound to it. -/
def Role.bindSlot (r : Role) (w : Nat) (ds : List RegName) : Role :=
  { r with waits := Sparse.set 0 r.waits w (r.waitCount w + 1), bound := r.bound ++ ds.map fun d => (d, w) }
/-- The effect of an instruction of slot `w` is complete. -/
def Role.slotDone (r : Role) (w : Nat) : Role := { r with waits := Sparse.set 0 r.waits w (r.waitCount w - 1) }
/-- A header with the slots of `wait` issues: their bindings end (R32). -/
def Role.unbind (r : Role) (wait : BitVec 6) : Role :=
  { r with bound := r.bound.filter fun p => !(wait.getLsbD (p.2 - 1)) }
def Role.isBound (r : Role) (d : RegName) : Bool := r.bound.any fun p => p.1 == d

/-! ### Entering a handler and returning from it (R406, R408, R434) -/

/-- TCAUSE of a trap (R406 Table 2). -/
def tcauseOf (cause : Nat) (logged final rec : Bool) (die ridx : Nat) : Word :=
  BitVec.ofNat 64 (cause % 256 + (if logged then 2 ^ 8 else 0) + (if final then 2 ^ 9 else 0) + (if rec then 2 ^ 10 else 0)
    + (ridx % 2 ^ 16) * 2 ^ 32 + (die % 4) * 2 ^ 48)

/-- Taking an exception (R406): TCAUSE, TADDR and TPC are written, the role enters handler mode, the program counter
becomes TVEC. The clause ends at the instruction (R27) and an open tack region ends (R421). Every register, mask, stack
entry and slot keeps its value. -/
def Role.enterHandler (r : Role) (tcause taddr tpc : Word) : Role :=
  { r with tcause := tcause, taddr := taddr, tpc := tpc, handler := true, pc := r.tvec, topped := false, clause := none, hold := .ready,
           tack := none, tackNext := false, tackLast := false, resume := false }

/-- Returning from an exception (R408, R434): the role leaves handler mode and resumes at TPC, which may be an instruction within
a clause. -/
def Role.leaveHandler (r : Role) : Role :=
  { r.settle with handler := false, pc := r.tpc, topped := false, clause := none, resume := true }

/-- A privileged handler: handler mode under VMID 0 (R409). -/
def Role.privileged (r : Role) : Bool := r.handler && r.vmid == 0

/-- A canonical address: bits [63:57] are copies of bit 56 (R77). -/
def canonical (a : Word) : Bool := (a.extractLsb' 0 57).signExtend 64 == a

/-! ### Physical bytes and lines -/

/-- One byte of the physical address space. (DESIGN CHOICE, log 1) -/
def State.byte (s : State) (pa : Nat) : Byte := Sparse.get 0 s.mem pa
def State.setByte (s : State) (pa : Nat) (x : Byte) : State := { s with mem := Sparse.set 0 s.mem pa x }

/-- Memory is in its canonical form: addresses strictly rising, no byte equal to what an unlisted address reads as. -/
abbrev Memory.wf (m : List Host.Cell) : Prop := Sparse.wf (0 : Byte) m = true

/-- The `n` bytes of memory at `pa` as one number, byte 0 lowest (R12). -/
def readBytes (m : List Host.Cell) (pa : Nat) : Nat → Nat
  | 0 => 0
  | n + 1 => (Sparse.get (0 : Byte) m pa).toNat + 256 * readBytes m (pa + 1) n

/-- Write the low `n` bytes of `x` at `pa`. -/
def writeBytes (m : List Host.Cell) (pa : Nat) (x : Nat) : Nat → List Host.Cell
  | 0 => m
  | n + 1 => writeBytes (Sparse.set (0 : Byte) m pa (BitVec.ofNat 8 x)) (pa + 1) (x / 256) n

/-- `n` bytes of a line from byte `off`, as a number. -/
def lineField (d : LineData) (off n : Nat) : Nat := d.toNat / 2 ^ (8 * off) % 2 ^ (8 * n)
/-- A line with `n` bytes from byte `off` replaced by the low bytes of `x`. -/
def setLineField (d : LineData) (off n x : Nat) : LineData :=
  let m := (BitVec.ofNat 1024 (2 ^ (8 * n) - 1)) <<< (8 * off)
  (d &&& ~~~m) ||| ((BitVec.ofNat 1024 (x % 2 ^ (8 * n))) <<< (8 * off))
/-- A line with the bytes that `mask` names taken from `x`. -/
def mergeLine (d x : LineData) (mask : BitVec 128) : LineData :=
  (List.range 128).foldl (fun a k => if mask.getLsbD k then setLineField a k 1 (lineField x k 1) else a) d

/-- The first index of a list at which `p` holds. -/
def indexWhere {α : Type} (p : α → Bool) : List α → Option Nat
  | [] => none
  | x :: rest => if p x then some 0 else (indexWhere p rest).map (· + 1)

/-- The list without its element at index `n`. -/
def dropAt {α : Type} (l : List α) (n : Nat) : List α := l.take n ++ l.drop (n + 1)

end Sys2Proof.Machine
end

