-- ==== Sys2Proof/Machine/Numeric.lean ====
section
/-! DEFINITION. Number formats and exact arithmetic (12 R265-R282): the float formats, their values, RoundTo, the exact
operations, the estimates and the conversions, over natural numbers and integers. -/
namespace Sys2Proof

/-- A float format (R265 Table 1): exponent and fraction widths. e4m3 departs from the IEEE encoding (R266). -/
inductive Fmt where
  | f64 | f32 | bf16 | f16 | e4m3 | e5m2 | af96
deriving DecidableEq, Repr

/-- Fraction bits. -/
def Fmt.fbits : Fmt → Nat
  | .f64 => 52 | .f32 => 23 | .bf16 => 7 | .f16 => 10 | .e4m3 => 3 | .e5m2 => 2 | .af96 => 80
/-- Exponent bits. -/
def Fmt.ebits : Fmt → Nat
  | .f64 => 11 | .f32 => 8 | .bf16 => 8 | .f16 => 5 | .e4m3 => 4 | .e5m2 => 5 | .af96 => 15
def Fmt.bias : Fmt → Nat
  | .f64 => 1023 | .f32 => 127 | .bf16 => 127 | .f16 => 15 | .e4m3 => 7 | .e5m2 => 15 | .af96 => 16383
/-- The precision p, with the implicit leading bit. -/
def Fmt.prec (f : Fmt) : Nat := f.fbits + 1
/-- Exponent of the largest finite value. -/
def Fmt.emax (f : Fmt) : Int := if f = .e4m3 then 8 else f.bias
/-- Exponent of the smallest normal value. -/
def Fmt.emin (f : Fmt) : Int := 1 - (f.bias : Int)
/-- Significand of the largest finite value, as an integer of p bits. -/
def Fmt.maxMant (f : Fmt) : Nat := if f = .e4m3 then 14 else 2 ^ f.prec - 1
def Fmt.signBit (f : Fmt) : Nat := 2 ^ (f.ebits + f.fbits)
/-- The bits of +infinity: all exponent bits. e4m3 has none (R266). -/
def Fmt.infBits (f : Fmt) : Nat := (2 ^ f.ebits - 1) * 2 ^ f.fbits
/-- The canonical NaN (R268 Table 2). -/
def Fmt.nanBits (f : Fmt) : Nat :=
  if f = .e4m3 then 0x7F else f.infBits + 2 ^ (f.fbits - 1)
/-- The bits of the largest finite value. -/
def Fmt.maxBits (f : Fmt) : Nat := if f = .e4m3 then 0x7E else f.infBits - 1

/-- The float format of a type. -/
def Ty.fmt? : Ty → Option Fmt
  | .f64 => some .f64 | .f32 => some .f32 | .bf16 => some .bf16 | .f16 => some .f16
  | .e4m3 => some .e4m3 | .e5m2 => some .e5m2 | _ => none

/-- A value of a float format: a NaN, an infinity, or (-1)^neg × m × 2^e. -/
inductive FVal where
  | nan (signalling : Bool)
  | inf (neg : Bool)
  | fin (neg : Bool) (m : Nat) (e : Int)
deriving DecidableEq, Repr

/-- FPSTAT's flags as bits [4:0]: INV, DZ, OF, UF, NX (R213). -/
abbrev Flags := BitVec 5
def flNX : Flags := 1
def flUF : Flags := 2
def flOF : Flags := 4
def flDZ : Flags := 8
def flINV : Flags := 16

/-- The value that bits encode (R266). -/
def Fmt.decode (f : Fmt) (bits : Nat) : FVal :=
  let neg := bits / f.signBit % 2 == 1
  let e := bits / 2 ^ f.fbits % 2 ^ f.ebits
  let m := bits % 2 ^ f.fbits
  if f = .e4m3 && e == 15 && m == 7 then .nan false
  else if !(f = .e4m3) && e == 2 ^ f.ebits - 1 then
    if m = 0 then .inf neg else .nan (m < 2 ^ (f.fbits - 1))
  else if e = 0 then .fin neg m (1 - (f.bias : Int) - f.fbits)
  else .fin neg (2 ^ f.fbits + m) ((e : Int) - f.bias - f.fbits)

/-- The rounding modes (R212). -/
inductive RMode where
  | rne | rtz | rup | rdn
deriving DecidableEq, Repr

def RMode.ofCode (c : Nat) : RMode :=
  match c with
  | 2 => .rtz | 3 => .rup | 4 => .rdn | _ => .rne

def signed (f : Fmt) (neg : Bool) (bits : Nat) : Nat := if neg then f.signBit + bits else bits
/-- A zero with a sign. -/
def Fmt.zero (f : Fmt) (neg : Bool) : Nat := signed f neg 0
/-- An infinity, which in e4m3 is the canonical NaN (R273). -/
def Fmt.infinity (f : Fmt) (neg : Bool) : Nat := if f = .e4m3 then 0x7F else signed f neg f.infBits

/-- Round a significand: `m` with `sh` low bits to drop, and `sticky` for bits below those; the answer and whether it
is inexact. -/
def roundMant (neg : Bool) (m sh : Nat) (sticky : Bool) (mode : RMode) : Nat × Bool :=
  let n := m / 2 ^ sh
  let r := m % 2 ^ sh
  let inexact := r != 0 || sticky
  let up := match mode with
    | .rne => decide (2 * r > 2 ^ sh) || (decide (2 * r = 2 ^ sh) && (sticky || n % 2 == 1))
    | .rtz => false
    | .rup => !neg && inexact
    | .rdn => neg && inexact
  (if up then n + 1 else n, inexact)

/-- The result of an overflow (R273 Table 3). -/
def Fmt.overflow (f : Fmt) (neg : Bool) (mode : RMode) : Nat :=
  let toInf := match mode with
    | .rne => true
    | .rtz => false
    | .rup => !neg
    | .rdn => neg
  -- e4m3: an infinite result is the canonical NaN
  if toInf then f.infinity neg else signed f neg f.maxBits

/-- RoundTo (R273): the bits and the flags for the exact magnitude m × 2^e, or, with `sticky`, a value strictly between
m × 2^e and (m + 1) × 2^e, with a sign. A caller with `sticky` gives m more bits than the precision. -/
def roundTo (f : Fmt) (mode : RMode) (neg : Bool) (m : Nat) (e : Int) (sticky : Bool) : Nat × Flags :=
  if m = 0 && !sticky then (f.zero neg, 0)
  else
    let qmin : Int := f.emin - f.fbits
    let top : Int := if m = 0 then qmin - 2 else (Nat.log2 m : Int) + e
    let q : Int := max (top - f.fbits) qmin
    let (n, inexact) :=
      if m = 0 then roundMant neg 0 1 sticky mode
      else if q ≤ e then (m * 2 ^ (e - q).toNat, sticky)
      else
        let sh := (q - e).toNat
        let keep := Nat.log2 m + 2
        -- a shift past every bit of m leaves a value below a quarter unit
        if keep < sh then roundMant neg 0 1 true mode else roundMant neg m sh sticky mode
    let tiny := decide (top < f.emin)
    let fl : Flags := (if inexact then flNX else 0) ||| (if inexact && tiny then flUF else 0)
    if n = 0 then (f.zero neg, fl)
    else
      let l : Int := (Nat.log2 n : Int) + q
      let mant := if n = 2 ^ f.prec then 2 ^ f.fbits else n
      if l > f.emax || (l == f.emax && mant > f.maxMant) then (f.overflow neg mode, flOF ||| flNX)
      else if n < 2 ^ f.fbits then (signed f neg n, fl)
      else (signed f neg ((l + f.bias).toNat * 2 ^ f.fbits + (mant - 2 ^ f.fbits)), fl)

/-- RoundTo of a signed integer significand; an exact zero takes the sign `zneg` (R274). -/
def roundInt (f : Fmt) (mode : RMode) (zneg : Bool) (m : Int) (e : Int) : Nat × Flags :=
  if m = 0 then (f.zero zneg, 0) else roundTo f mode (m < 0) m.natAbs e false

/-- The signed significand of a finite value. -/
def sgn (neg : Bool) (m : Nat) : Int := if neg then -(m : Int) else m

/-- Canonical NaN with INV where some operand signals (R268). -/
def nanOf (f : Fmt) (invalid : Bool) : Nat × Flags := (f.nanBits, if invalid then flINV else 0)

def FVal.isNan : FVal → Bool
  | .nan _ => true
  | _ => false
def FVal.isSnan : FVal → Bool
  | .nan s => s
  | _ => false
def FVal.neg : FVal → FVal
  | .nan s => .nan s
  | .inf n => .inf (!n)
  | .fin n m e => .fin (!n) m e
def FVal.sign : FVal → Bool
  | .nan _ => false
  | .inf n => n
  | .fin n _ _ => n

/-- The exact sum of two finite values: significand and exponent. -/
def exactSum (m1 : Int) (e1 : Int) (m2 : Int) (e2 : Int) : Int × Int :=
  let e := min e1 e2
  (m1 * 2 ^ (e1 - e).toNat + m2 * 2 ^ (e2 - e).toNat, e)

/-- The sum of two values under R274, R275. -/
def fAdd (f : Fmt) (mode : RMode) (x y : FVal) : Nat × Flags :=
  match x, y with
  | .nan s, .nan t => nanOf f (s || t)
  | .nan s, _ => nanOf f s
  | _, .nan t => nanOf f t
  | .inf n, .inf k => if n = k then (f.infinity n, 0) else nanOf f true
  | .inf n, _ => (f.infinity n, 0)
  | _, .inf k => (f.infinity k, 0)
  | .fin n1 m1 e1, .fin n2 m2 e2 =>
    if m1 = 0 && m2 = 0 then (f.zero (if n1 = n2 then n1 else mode == .rdn), 0)
    else
      let (m, e) := exactSum (sgn n1 m1) e1 (sgn n2 m2) e2
      roundInt f mode (mode == .rdn) m e

/-- The exact product of two values; none where it is 0 × ∞ (R268). -/
def FVal.mul : FVal → FVal → Option FVal
  | .nan s, .nan t => some (.nan (s || t))
  | .nan s, _ => some (.nan s)
  | _, .nan t => some (.nan t)
  | .inf n, .inf k => some (.inf (n != k))
  | .inf n, .fin k m _ => if m = 0 then none else some (.inf (n != k))
  | .fin n m _, .inf k => if m = 0 then none else some (.inf (n != k))
  | .fin n1 m1 e1, .fin n2 m2 e2 => some (.fin (n1 != n2) (m1 * m2) (e1 + e2))

/-- RoundTo of a value of any format, special values under R268 and R273. -/
def roundVal (f : Fmt) (mode : RMode) (x : FVal) : Nat × Flags :=
  match x with
  | .nan s => nanOf f s
  | .inf n => (f.infinity n, 0)
  | .fin n m e => roundTo f mode n m e false

def fMul (f : Fmt) (mode : RMode) (x y : FVal) : Nat × Flags :=
  match x.mul y with
  | none => nanOf f true
  | some v => roundVal f mode v

/-- a × b + c with one rounding (R275). -/
def fMulAdd (f : Fmt) (mode : RMode) (a b c : FVal) : Nat × Flags :=
  match a.mul b with
  | none => nanOf f true
  | some v => fAdd f mode v c

/-- a / b under R275. -/
def fDiv (f : Fmt) (mode : RMode) (x y : FVal) : Nat × Flags :=
  match x, y with
  | .nan s, .nan t => nanOf f (s || t)
  | .nan s, _ => nanOf f s
  | _, .nan t => nanOf f t
  | .inf _, .inf _ => nanOf f true
  | .inf n, .fin k _ _ => (f.infinity (n != k), 0)
  | .fin n _ _, .inf k => (f.zero (n != k), 0)
  | .fin n m1 e1, .fin k m2 e2 =>
    if m2 = 0 then (if m1 = 0 then nanOf f true else (f.infinity (n != k), flDZ))
    else if m1 = 0 then (f.zero (n != k), 0)
    else
      let sh := f.prec + 3 + Nat.log2 m2 - Nat.log2 m1
      let num := m1 * 2 ^ sh
      roundTo f mode (n != k) (num / m2) (e1 - e2 - sh) (num % m2 != 0)

/-- The integer square root, bit by bit. -/
def isqrtGo (n : Nat) : Nat → Nat → Nat
  | 0, r => r
  | k + 1, r => if (r + 2 ^ k) * (r + 2 ^ k) ≤ n then isqrtGo n k (r + 2 ^ k) else isqrtGo n k r
def isqrt (n : Nat) : Nat := isqrtGo n (Nat.log2 n / 2 + 1) 0

/-- The value m × 2^e written with an even exponent. -/
def evenExp (m : Nat) (e : Int) : Nat × Int := if e % 2 = 0 then (m, e) else (2 * m, e - 1)

/-- √a under R275. -/
def fSqrt (f : Fmt) (mode : RMode) (x : FVal) : Nat × Flags :=
  match x with
  | .nan s => nanOf f s
  | .inf n => if n then nanOf f true else (f.infinity false, 0)
  | .fin n m e =>
    if m = 0 then (f.zero n, 0)
    else if n then nanOf f true
    else
      let (m, e) := evenExp m e
      let k := f.prec + 2
      let y := m * 2 ^ (2 * k)
      let t := isqrt y
      roundTo f mode false t (e / 2 - k) (t * t != y)

/-! ### Order -/

/-- How two values that are not NaNs compare; −0 equals +0. -/
def fCompare (x y : FVal) : Ordering :=
  match x, y with
  | .inf n, .inf k => if n = k then .eq else if n then .lt else .gt
  | .inf n, _ => if n then .lt else .gt
  | _, .inf k => if k then .gt else .lt
  | .fin n1 m1 e1, .fin n2 m2 e2 =>
    let d := (exactSum (sgn n1 m1) e1 (-(sgn n2 m2)) e2).1
    if d < 0 then .lt else if d = 0 then .eq else .gt
  | _, _ => .eq

/-- −0 is ordered below +0 (R294). -/
def fLess (x y : FVal) : Bool :=
  match fCompare x y with
  | .lt => true
  | .gt => false
  | .eq => x.sign && !y.sign

/-- FMIN and FMAX (R294), on bit patterns. -/
def fMinMax (f : Fmt) (big : Bool) (a b : Nat) : Nat × Flags :=
  let x := f.decode a
  let y := f.decode b
  let fl : Flags := if x.isSnan || y.isSnan then flINV else 0
  if x.isNan && y.isNan then (f.nanBits, fl)
  else if x.isNan then (b, fl)
  else if y.isNan then (a, fl)
  else if big then (if fLess x y then b else a, fl) else (if fLess y x then b else a, fl)

/-! ### Estimates (R278, R279) -/

/-- A magnitude rounded with rne to `q` significant bits, with an unbounded exponent. `m` is not 0. -/
def roundSig (q m : Nat) (e : Int) (sticky : Bool) : Nat × Int × Bool :=
  let l := Nat.log2 m + 1
  if l ≤ q then (m, e, sticky)
  else
    let (n, ix) := roundMant false m (l - q) sticky .rne
    if n = 2 ^ q then (2 ^ (q - 1), e + ((l - q + 1 : Nat) : Int), ix) else (n, e + ((l - q : Nat) : Int), ix)

/-- Both steps of R278 on a magnitude m × 2^e (with `sticky`, strictly between it and the next). -/
def estimate (f : Fmt) (q : Nat) (neg : Bool) (m : Nat) (e : Int) (sticky : Bool) : Nat × Flags :=
  let (n, e', ix) := roundSig q m e sticky
  let (bits, fl) := roundTo f .rne neg n e' false
  let off := ix || (fl &&& flNX) != 0
  let tiny := decide ((Nat.log2 m : Int) + e < f.emin)
  (bits, (fl &&& flOF) ||| (if off then flNX else 0) ||| (if off && tiny then flUF else 0))

/-- FRCPE: 1 / x. -/
def fRcpe (f : Fmt) (x : FVal) : Nat × Flags :=
  match x with
  | .nan s => nanOf f s
  | .inf n => (f.zero n, 0)
  | .fin n m e =>
    if m = 0 then (f.infinity n, flDZ)
    else
      let k := 20 + Nat.log2 m
      estimate f (min 12 f.prec) n (2 ^ k / m) (-e - k) (2 ^ k % m != 0)

/-- FRSQE: 1 / √x. -/
def fRsqe (f : Fmt) (x : FVal) : Nat × Flags :=
  match x with
  | .nan s => nanOf f s
  | .inf n => if n then nanOf f true else (f.zero false, 0)
  | .fin n m e =>
    if m = 0 then (f.infinity n, flDZ)
    else if n then nanOf f true
    else
      let (m, e) := evenExp m e
      let k := 20 + Nat.log2 m
      let y := 2 ^ (2 * k) / m
      let t := isqrt y
      estimate f (min 12 f.prec) false t (-(e / 2) - k) (t * t != y || 2 ^ (2 * k) % m != 0)

/-- Ceiling division. -/
def cdiv (a b : Nat) : Nat := (a + b - 1) / b

/-- An interval that holds 2^(g / 2^w) × 2^w, for g below 2^w, from the binary digits of g: `root` is an interval that
holds 2^(2^-i) × 2^w. -/
def exp2Go (w g : Nat) : Nat → Nat → Nat × Nat → Nat × Nat → Nat × Nat
  | 0, _, _, acc => acc
  | n + 1, i, root, acc =>
    let next := (isqrt (root.1 * 2 ^ w), isqrt (root.2 * 2 ^ w) + 1)
    let acc := if g / 2 ^ (w - i) % 2 = 1
      then (acc.1 * next.1 / 2 ^ w, cdiv (acc.2 * next.2) (2 ^ w)) else acc
    exp2Go w g n (i + 1) next acc
/-- The interval of 2^(g / 2^w), scaled by 2^w. -/
def exp2Fix (w g : Nat) : Nat × Nat := exp2Go w g w 1 (2 ^ (w + 1), 2 ^ (w + 1)) (2 ^ w, 2 ^ w)

/-- 2^(num / 2^den) rounded to `q` bits, for a fraction that is not 0: widen the working precision until both ends of the
interval round alike. -/
def exp2Round (q num den : Nat) : Nat → Nat → Nat × Int
  | 0, _ => (1, 0)
  | fuel + 1, w =>
    let glo := if den ≤ w then num * 2 ^ (w - den) else num / 2 ^ (den - w)
    let lo := (exp2Fix w glo).1
    let hi := if den ≤ w then (exp2Fix w glo).2 else if glo + 1 = 2 ^ w then 2 ^ (w + 1) else (exp2Fix w (glo + 1)).2
    let a := roundSig q lo (-(w : Int)) true
    let b := roundSig q hi (-(w : Int)) true
    if a.1 = b.1 && a.2.1 = b.2.1 then (a.1, a.2.1) else exp2Round q num den fuel (2 * w)

/-- FEXP2: 2^x. -/
def fExp2 (f : Fmt) (x : FVal) : Nat × Flags :=
  match x with
  | .nan s => nanOf f s
  | .inf n => if n then (f.zero false, 0) else (f.infinity false, 0)
  | .fin n m e =>
    if m = 0 then roundTo f .rne false 1 0 false
    else if (Nat.log2 m : Int) + e ≥ 20 then
      -- far outside every exponent range, and an integer or not alike
      roundTo f .rne false 1 (if n then -(2 ^ 20) else 2 ^ 20) false
    else
      let v := sgn n m
      if e ≥ 0 then roundTo f .rne false 1 (v * 2 ^ e.toNat) false
      else
        let den := (-e).toNat
        let i := v / (2 ^ den : Int)
        let fr := (v % (2 ^ den : Int)).toNat
        if fr = 0 then roundTo f .rne false 1 i false
        else
          let q := min 24 f.prec
          let (y, ye) := exp2Round q fr den 9 64
          let (bits, fl) := roundTo f .rne false y (ye + i) false
          (bits, (fl &&& flOF) ||| flNX ||| (if i < f.emin then flUF else 0))

/-- Digits of log2 of y / 2^w, for y in [2^w, 2^(w+1)), by repeated squaring; `up` rounds the squares up. -/
def log2Go (w : Nat) (up : Bool) : Nat → Nat → Nat → Nat
  | 0, _, acc => acc
  | n + 1, y, acc =>
    let z := if up then cdiv (y * y) (2 ^ w) else y * y / 2 ^ w
    if z ≥ 2 ^ (w + 1) then log2Go w up n (if up then cdiv z 2 else z / 2) (2 * acc + 1) else log2Go w up n z (2 * acc)

/-- log2 of m × 2^e, rounded to `q` bits with its sign, for m not a power of two. -/
def log2Round (q m : Nat) (e : Int) : Nat → Nat → Bool × Nat × Int
  | 0, _ => (false, 1, 0)
  | fuel + 1, n =>
    let l := Nat.log2 m
    let w := 2 * n + 16 + l
    let y := m * 2 ^ (w - l)
    let base : Int := ((l : Int) + e) * 2 ^ n
    let lo : Int := base + (log2Go w false n y 0 : Nat)
    let hi : Int := base + (log2Go w true n y 0 : Nat) + 1
    if lo > 0 || hi < 0 then
      let neg := decide (hi < 0)
      let a := roundSig q (min lo.natAbs hi.natAbs) (-(n : Int)) true
      let b := roundSig q (max lo.natAbs hi.natAbs) (-(n : Int)) true
      -- the ends round alike, and the rounding does not rest on too few bits
      if a.1 = b.1 && a.2.1 = b.2.1 && Nat.log2 (min lo.natAbs hi.natAbs) > q + 2 then (neg, a.1, a.2.1)
      else log2Round q m e fuel (2 * n)
    else log2Round q m e fuel (2 * n)

/-- FLOG2: log2 x. -/
def fLog2 (f : Fmt) (x : FVal) : Nat × Flags :=
  match x with
  | .nan s => nanOf f s
  | .inf n => if n then nanOf f true else (f.infinity false, 0)
  | .fin n m e =>
    if m = 0 then (f.infinity true, flDZ)
    else if n then nanOf f true
    else if m = 2 ^ Nat.log2 m then
      -- an integer k has at most q bits in every format but for exponents beyond bf16's precision
      let k := (Nat.log2 m : Int) + e
      if k = 0 then (f.zero false, 0) else estimate f (min 24 f.prec) (k < 0) k.natAbs 0 false
    else
      let (neg, y, ye) := log2Round (min 24 f.prec) m e 9 64
      let (bits, fl) := roundTo f .rne neg y ye false
      (bits, fl ||| flNX)

/-! ### Classes and exponents (R297, R298) -/

/-- The bit number of FCLASS (R297). -/
def fClass (f : Fmt) (bits : Nat) : Nat :=
  match f.decode bits with
  | .inf n => if n then 0 else 7
  | .nan s => if s then 8 else 9
  | .fin n m e =>
    if m = 0 then (if n then 3 else 4)
    else if (Nat.log2 m : Int) + e < f.emin then (if n then 2 else 5)
    else (if n then 1 else 6)

/-- FSCALE (R298). The exponent is bounded where every format has already overflowed or vanished. -/
def fScale (f : Fmt) (mode : RMode) (a : Nat) (b : Int) : Nat × Flags :=
  match f.decode a with
  | .nan s => nanOf f s
  | .inf _ => (a, 0)
  | .fin n m e => if m = 0 then (a, 0) else roundTo f mode n m (e + max (-(2 ^ 20)) (min (2 ^ 20) b)) false

/-- FGETEXP (R298). -/
def fGetExp (f : Fmt) (a : Nat) : Nat × Flags :=
  match f.decode a with
  | .nan s => nanOf f s
  | .inf _ => (f.infinity false, 0)
  | .fin _ m e =>
    if m = 0 then (f.infinity true, flDZ) else (roundInt f .rne false ((Nat.log2 m : Int) + e) 0).1 |> fun x => (x, 0)

/-- A finite magnitude rounded to an integer: the integer and whether it differs. -/
def roundToInt (mode : RMode) (neg : Bool) (m : Nat) (e : Int) : Nat × Bool :=
  if e ≥ 0 then (m * 2 ^ e.toNat, false)
  else
    let sh := (-e).toNat
    if m = 0 then (0, false)
    else if Nat.log2 m + 2 < sh then roundMant neg 0 1 true mode
    else roundMant neg m sh false mode

/-- FRND (R298). -/
def fRnd (f : Fmt) (mode : RMode) (a : Nat) : Nat × Flags :=
  match f.decode a with
  | .nan s => nanOf f s
  | .inf _ => (a, 0)
  | .fin n m e =>
    let (k, ix) := roundToInt mode n m e
    if ix then ((roundTo f .rtz n k 0 false).1, flNX) else (a, 0)

/-! ### Conversions (R277) -/

/-- A source value: a float value or an integer. -/
inductive NVal where
  | flt (v : FVal)
  | int (i : Int)
deriving DecidableEq, Repr

/-- The integer of a w-bit pattern read as two's complement. -/
def toSigned (w p : Nat) : Int := if 2 * (p % 2 ^ w) < 2 ^ w then (p % 2 ^ w : Nat) else (p % 2 ^ w : Nat) - (2 ^ w : Nat)

/-- The type is read as two's complement (R269). -/
def Ty.isSigned : Ty → Bool
  | .i64 | .i32 | .i16 | .i8 => true
  | _ => false

/-- The w-bit pattern of an element read in an integer type. -/
def Ty.toInt (t : Ty) (p : Nat) : Int := if t.isSigned then toSigned t.width p else (p % 2 ^ t.width : Nat)

/-- Bounds of an integer type (R269). -/
def Ty.lo (t : Ty) : Int := if t.isSigned then -(2 ^ (t.width - 1)) else 0
def Ty.hi (t : Ty) : Int := if t.isSigned then 2 ^ (t.width - 1) - 1 else 2 ^ t.width - 1

/-- The pattern of an integer at width w. -/
def patternOf (w : Nat) (i : Int) : Nat := (i % (2 ^ w : Nat)).toNat

/-- The value of an element and the INV of a t2 code 10 (R270). -/
def readElem (t : Ty) (p : Nat) : NVal × Flags :=
  match t with
  | .t2 => match p % 4 with
    | 0 => (.int 0, 0)
    | 1 => (.int 1, 0)
    | 3 => (.int (-1), 0)
    | _ => (.int 0, flINV)
  | .b1 => (.int (p % 2 : Nat), 0)
  | _ => match t.fmt? with
    | some f => (.flt (f.decode (p % 2 ^ t.width)), 0)
    | none => (.int (t.toInt p), 0)

/-- Whether FMT.SAT bears on a float destination (R277). -/
def Fmt.satFmt (f : Fmt) : Bool := f = .e4m3 || f = .e5m2

/-- Conversion into a float format (R277). -/
def cvtToFloat (f : Fmt) (mode : RMode) (sat : Bool) (x : NVal) : Nat × Flags :=
  match x with
  | .flt (.nan s) => nanOf f s
  | .flt (.inf n) => (if sat && f.satFmt then signed f n f.maxBits else f.infinity n, 0)
  | .flt (.fin n m e) =>
    let (b, fl) := roundTo f mode n m e false
    if sat && f.satFmt && (fl &&& flOF) != 0 then (signed f n f.maxBits, fl) else (b, fl)
  | .int i =>
    let (b, fl) := roundInt f mode false i 0
    if sat && f.satFmt && (fl &&& flOF) != 0 then (signed f (i < 0) f.maxBits, fl) else (b, fl)

/-- Conversion into an integer range [lo, hi] of width w (R277); the answer is a pattern. -/
def cvtToInt (w : Nat) (lo hi : Int) (mode : RMode) (sat : Bool) (x : NVal) : Nat × Flags :=
  match x with
  | .flt (.nan _) => (0, flINV)
  | .flt (.inf n) => (if sat then patternOf w (if n then lo else hi) else 0, flINV)
  | .flt (.fin n m e) =>
    let (k, ix) := roundToInt mode n m e
    let v := sgn n k
    let nx : Flags := if ix then flNX else 0
    if lo ≤ v ∧ v ≤ hi then (patternOf w v, nx)
    else (if sat then patternOf w (if v < lo then lo else hi) else patternOf w v, nx ||| flINV)
  | .int i =>
    if lo ≤ i ∧ i ≤ hi then (patternOf w i, 0)
    else if sat then (patternOf w (if i < lo then lo else hi), flINV) else (patternOf w i, 0)

/-- The t2 code of an integer clamped to −1 to +1. -/
def t2Code (i : Int) : Nat := if i < 0 then 3 else if i = 0 then 0 else 1

/-- Conversion of a value into any storage format (R277 Table 5). -/
def convert (t : Ty) (mode : RMode) (sat : Bool) (x : NVal) : Nat × Flags :=
  match t with
  | .t2 => match x with
    | .int i => (t2Code i, 0)
    | .flt (.nan _) => (0, flINV)
    | .flt (.inf n) => (if n then 3 else 1, 0)
    | .flt (.fin n m e) =>
      let (k, ix) := roundToInt mode n m e
      (t2Code (sgn n k), if ix then flNX else 0)
  | .b1 => match x with
    | .int i => (if i > 0 then 1 else 0, 0)
    | .flt (.nan _) => (0, flINV)
    | .flt (.inf n) => (if n then 0 else 1, 0)
    | .flt (.fin n m _) => (if !n && m != 0 then 1 else 0, 0)
  | _ => match t.fmt? with
    | some f => cvtToFloat f mode sat x
    | none => cvtToInt t.width t.lo t.hi mode sat x

/-- |x| rounded up to f64, as AMAX folds it (R302); none for a NaN. -/
def magnitude (x : NVal) : Option Nat :=
  match x with
  | .flt (.nan _) => none
  | .flt (.inf _) => some (Fmt.infinity .f64 false)
  | .flt (.fin _ m e) => some (roundTo .f64 .rup false m e false).1
  | .int i => some (roundTo .f64 .rup false i.natAbs 0 false).1

/-- The fold of one element into AMAX (R302). Non-negative f64 bits order as their values do, as integers, and lie above a
word whose sign bit is set. -/
def foldAmax (amax : Word) (x : NVal) : Word :=
  if (Fmt.decode .f64 amax.toNat).isNan then amax
  else match magnitude x with
    | none => BitVec.ofNat 64 (Fmt.nanBits .f64)
    | some m => if amax.toInt < m then BitVec.ofNat 64 m else amax

end Sys2Proof
end

