-- ==== Sys2Proof/Machine/Operands.lean ====
section
/-! DEFINITION. The operand forms: elements of registers (09 R203, 13 R283), packed words (12 R271), immediates (01 R39),
branch conditions (01 R43), and how a result is written in the scalar and in the vector form (01 R36). -/
namespace Sys2Proof.Machine

/-- A pattern as a register value: zero above the element (R203). -/
def pat (p : Nat) : Word := BitVec.ofNat 64 p

/-- The element of a register in lane `l`: bits [w-1:0] (R203). -/
def Role.elem (r : Role) (t : Ty) (f : RegName) (l : Nat) : Nat := (r.read f l).toNat % 2 ^ t.width

/-- Element `i` of a packed word of width `w` (R271). -/
def packedElem (w : Nat) (x : Word) (i : Nat) : Nat := x.toNat / 2 ^ (w * i) % 2 ^ w

/-- A packed word from the patterns of its elements, element 0 lowest (R271). -/
def packWord (w : Nat) : List Nat → Nat
  | [] => 0
  | p :: rest => p % 2 ^ w + 2 ^ w * packWord w rest

/-- A word with element `i` of width `w` replaced (R303). -/
def insertElem (w : Nat) (x : Word) (i p : Nat) : Word :=
  let m : Word := (BitVec.ofNat 64 (2 ^ w - 1)) <<< (w * i)
  (x &&& ~~~m) ||| ((BitVec.ofNat 64 (p % 2 ^ w)) <<< (w * i))

/-- IMM31 sign-extended to 64 bits (R39). -/
def imm31 (i : BitVec 31) : Word := i.signExtend 64

/-- The rounding mode of an instruction: its RM field, or FMT.RM (R38, R212). -/
def Role.mode (r : Role) (rm : BitVec 3) : RMode :=
  if rm = 0 then RMode.ofCode (r.fmt.extractLsb' 0 3).toNat else RMode.ofCode rm.toNat

/-- FMT.SAT (R212). -/
def Role.sat (r : Role) : Bool := r.fmt.getLsbD 3

/-- Flags of an instruction join FPSTAT (R213). -/
def Role.raiseFlags (r : Role) (fl : Flags) : Role := { r with fpstat := r.fpstat ||| fl.zeroExtend 64 }

/-- A result and its flags, written in the form that D selects (R36, R283): once for a scalar destination, else in every
active lane, every source read before any lane is written. -/
def Role.write (r : Role) (d : RegName) (mask : BitVec 3) (f : Nat → Word × Flags) : Role :=
  if d.isScalar then (r.setSreg d.num (f 0).1).raiseFlags (f 0).2
  else
    let ls := r.active mask
    (r.setLanes d.num ls fun l => (f l).1).raiseFlags (ls.foldl (fun a l => a ||| (f l).2) 0)

/-- A truth value per lane written to a mask register: bits of lanes that are not active keep their values (R289). -/
def Role.writeMask (r : Role) (d : Nat) (mask : BitVec 3) (t : Nat → Bool) : Role :=
  let ls := r.active mask
  r.setMask d ((r.mask d &&& ~~~(maskOfLanes ls)) ||| maskOfLanes (ls.filter t))

/-- Bits [4:0] of CC: E V C N Z (R211). -/
def ccBit (cc : Word) (i : Nat) : Bool := cc.getLsbD i

/-- The conditions on CC of codes 0 to 4 (R43). -/
def ccHolds (cc : Word) (code : Nat) : Bool :=
  match code with
  | 0 => true
  | 1 => ccBit cc 0
  | 2 => !ccBit cc 0
  | 3 => ccBit cc 1 != ccBit cc 3
  | _ => ccBit cc 1 == ccBit cc 3

/-- A branch condition (R43), over CC or over the active lanes and MC. -/
def Role.cond (r : Role) (code : BitVec 3) (mc : BitVec 3) : Bool :=
  let a := r.effective 0
  let m := r.mask mc.toNat
  match code.toNat with
  | 5 => a &&& m != 0
  | 6 => a &&& m == 0
  | 7 => a &&& ~~~m == 0
  | n => ccHolds r.cc n

/-- The target of a branch, H + 8 × OFF32, exactly (R43). -/
def Role.target (r : Role) (off : BitVec 32) : Int := r.header.toNat + 8 * off.toInt

end Sys2Proof.Machine
end

