-- ==== Sys2Proof/Machine/Physical.lean ====
section
/-! DEFINITION. The physical map (02 R56-R76): regions, aliases, home dies, slices and sets (07 R161), frame attributes,
the encryption of lines by owner, and what stored bits that fail ECC do. -/
namespace Sys2Proof.Machine

/-- The ranges of the physical map (R56 Table 1). -/
inductive Region where
  | hbm | cap | window | host | reserved
deriving DecidableEq, Repr

def capBase : Nat := 2 ^ 40
def windowBase : Nat := 2 ^ 41
def hostBase : Nat := 2 ^ 51

/-- The range of a 52-bit physical address. -/
def regionOf (pa : Nat) : Region :=
  if pa < capBase then .hbm
  else if pa < 2 ^ 41 then .cap
  else if pa < windowBase + 2 ^ 32 then .window
  else if hostBase ≤ pa && pa < 2 ^ 52 then .host
  else .reserved

/-- The interleaved window of HBM (R58). -/
def interleaved (pa : Nat) : Bool := 2 ^ 39 ≤ pa && pa < capBase

/-- The linear offset that an interleaved offset names (R58). -/
def deinterleave (i : Nat) : Nat :=
  let g := i / 2 ^ 12
  let st := (g % 8) ^^^ (g / 8 % 8)
  st * 2 ^ 36 + g / 8 * 2 ^ 12 + i % 2 ^ 12

/-- The canonical address of a byte (R59). -/
def canonPA (pa : Nat) : Nat := if interleaved pa then deinterleave (pa - 2 ^ 39) else pa

/-- The canonical line number of an address. -/
def lineOf (pa : Nat) : Nat := canonPA pa / 128
/-- The canonical address of a line's first byte. -/
def lineAddr (line : Nat) : Nat := line * 128

/-- A die has been declared dead by some other die (R139). -/
def State.isDead (s : State) (d : Nat) : Bool := (List.range 4).any fun x => x != d && (s.die x).dead.getLsbD d

/-- The first live die from `d` upward, modulo 4 (R140). -/
def State.liveFrom (s : State) (d : Nat) : Nat :=
  match ((List.range 4).map fun k => (d + k) % 4).find? fun x => !s.isDead x with
  | some x => x
  | none => d

/-- The home die of a line; for a host line the proxy die (R60, R140). (DEDUCED, log 21) -/
def State.homeOf (s : State) (line : Nat) : Nat :=
  let pa := lineAddr line
  match regionOf pa with
  | .hbm => pa / 2 ^ 37 % 4
  | .cap => pa / 2 ^ 16 % 4
  | _ => s.liveFrom (pa / 2 ^ 16 % 4)

/-- A line whose home die is dead (R140). -/
def State.homeLost (s : State) (line : Nat) : Bool :=
  match regionOf (lineAddr line) with
  | .hbm | .cap => s.isDead (s.homeOf line)
  | _ => false

def isHostLine (line : Nat) : Bool := regionOf (lineAddr line) == .host

/-! ### Slices (R69, R70) and sets (R161) -/

/-- N of a die, from NSEL of HASHSEL (R70). -/
def DieState.slices (x : DieState) : Nat := 32 - (x.hashsel.extractLsb' 0 2).toNat

def sliceOf (n line : Nat) : Nat :=
  let fold := (line % 2 ^ 15) ^^^ (line / 2 ^ 15 % 2 ^ 15) ^^^ (line / 2 ^ 30 % 2 ^ 15)
  fold * n / 2 ^ 15

def setOf (line : Nat) : Nat :=
  let fold := (line % 2 ^ 12) ^^^ (line / 2 ^ 12 % 2 ^ 12) ^^^ (line / 2 ^ 24 % 2 ^ 12) ^^^ (line / 2 ^ 36 % 2 ^ 9)
  fold * 3 / 8

/-! ### Frame attributes (R65, R67) -/

/-- The die and index of a frame's attribute byte: HBM frames from 0, capacity-tier frames from 2^24; host memory has
none (R66). -/
def frameIndex (pa : Nat) : Option (Nat × Nat) :=
  let c := canonPA pa
  match regionOf c with
  | .hbm => some (c / 2 ^ 37 % 4, c % 2 ^ 37 / 2 ^ 16)
  | .cap => some ((c - capBase) / 2 ^ 16 % 4, 2 ^ 24 + (c - capBase) / 2 ^ 18)
  | _ => none

def State.attrOf (s : State) (pa : Nat) : Attr :=
  match frameIndex pa with
  | some (d, f) => (s.die d).attrs.get {} f
  | none => {}

/-! ### Encryption per owner (R71-R73) -/

/-- The key of a VMID on the die that encrypts a line (R71). -/
def State.keyFor (s : State) (line vmid : Nat) : Option (BitVec 512) := (s.die (s.homeOf line)).keys.find vmid

/-- A host line of the encrypted host range (R72). (DESIGN CHOICE, log 14) -/
def State.encrypted (s : State) (line : Nat) : Bool :=
  match regionOf (lineAddr line) with
  | .hbm | .cap => true
  | .host =>
    let x := s.die (s.homeOf line)
    let lo := (Sparse.get 0 x.regs 0x4108).toNat / 2 ^ 16 % 2 ^ 36 * 2 ^ 16
    let hi := (Sparse.get 0 x.regs 0x4110).toNat / 2 ^ 16 % 2 ^ 36 * 2 ^ 16
    decide (lo ≤ lineAddr line) && decide (lineAddr line < hi)
  | _ => false

/-- An access to the line under the VMID lacks a key (R71). -/
def State.keyMissing (s : State) (line vmid : Nat) : Bool := s.encrypted line && (s.keyFor line vmid).isNone

/-- The stored bytes of a line. (DESIGN CHOICE, log 2) -/
def State.rawLine (s : State) (line : Nat) : LineData := BitVec.ofNat 1024 (readBytes s.mem (lineAddr line) 128)

/-- What the host reads of a host line: ciphertext of what the device encrypted (R72). -/
def State.hostFetch (s : State) (line : Nat) : LineData :=
  match s.memKey.find line with
  | some k => Config.cipher (s.rawLine line) k line
  | none => s.rawLine line

/-- What a device access under a VMID reads of a stored line. A line that nothing has encrypted reads as its stored bytes
in HBM and the capacity tier, and is deciphered in the encrypted host range; a host line that was written encrypted and no longer lies
in the range reads as ciphertext (R72). -/
def State.fetchLine (s : State) (line vmid : Nat) : LineData :=
  if !s.encrypted line then s.hostFetch line
  else
    let key := (s.keyFor line vmid).getD 0
    match s.memKey.find line with
    | some k => if k = key then s.rawLine line else Config.garble (s.rawLine line) k key line
    | none => if isHostLine line then Config.decipher (s.rawLine line) key line else s.rawLine line

/-- Write a line to memory under a VMID's key. (DEDUCED, log 15) -/
def State.storeLine (s : State) (line vmid : Nat) (d : LineData) : State :=
  { s with
    mem := writeBytes s.mem (lineAddr line) d.toNat 128,
    memKey := if s.encrypted line then s.memKey.put line ((s.keyFor line vmid).getD 0) else s.memKey.del line }

/-- The host's own bytes, stored as they are (R72). -/
def State.hostStore (s : State) (line : Nat) (d : LineData) : State :=
  { s with mem := writeBytes s.mem (lineAddr line) d.toNat 128, memKey := s.memKey.del line }

/-- A 32-byte block of the stored line fails ECC (R74). -/
def State.lineBad (s : State) (line : Nat) : Bool := s.bad.any fun b => b / 4 == line

/-- A read of the line from memory finds an uncorrectable error, or its frame is retired (R75, R76). -/
def State.readFails (s : State) (line : Nat) : Bool := s.lineBad line || (s.attrOf (lineAddr line)).retired

/-- A die's register at a window offset (R61). -/
def State.reg (s : State) (d off : Nat) : Word := Sparse.get 0 (s.die d).regs off
def State.setReg (s : State) (d off : Nat) (x : Word) : State :=
  s.updDie d fun y => { y with regs := Sparse.set 0 y.regs off x }
/-- Bits [lo + n − 1:lo] of a register as a number. -/
def State.regField (s : State) (d off lo n : Nat) : Nat := (s.reg d off).toNat / 2 ^ lo % 2 ^ n
/-- A register with a field replaced. -/
def withField (x : Word) (lo n v : Nat) : Word :=
  let m : Word := (BitVec.ofNat 64 (2 ^ n - 1)) <<< lo
  (x &&& ~~~m) ||| ((BitVec.ofNat 64 (v % 2 ^ n)) <<< lo)
def State.setRegField (s : State) (d off lo n v : Nat) : State := s.setReg d off (withField (s.reg d off) lo n v)

/-- An error counter of a die counts `n` more (R456). -/
def State.countErrors (s : State) (d off n : Nat) : State := s.setReg d off (s.reg d off + BitVec.ofNat 64 n)
def State.countError (s : State) (d off : Nat) : State := s.countErrors d off 1

/-- A line is read from memory: the errors that ECC corrects in it are counted at the home die; they stay until the scrubber
writes corrected data back (R74). (DESIGN CHOICE, log 141) -/
def State.countWeak (s : State) (line : Nat) : State :=
  match (s.weak.filter fun b => b / 4 == line).length with
  | 0 => s
  | n => s.countErrors (s.homeOf line) 0x6300 n

/-- The device sets RETIRED of a frame, and MEMUE counts it (R75, R456). -/
def State.retireFrame (s : State) (pa : Nat) : State :=
  match frameIndex pa with
  | some (d, f) =>
    (s.updDie d fun x => { x with attrs := Sparse.set {} x.attrs f { x.attrs.get {} f with retired := true } }).countError
      d 0x6308
  | none => s

/-- A line is read from memory: true where the read fails, of a frame that is RETIRED by then; else corrected errors are counted
(R74-R76). -/
def State.memCheck (s : State) (line : Nat) : State × Bool :=
  if s.lineBad line then (s.retireFrame (lineAddr line), true)
  else if s.readFails line then (s, true)
  else (s.countWeak line, false)

/-- A return of a frame is still to be made (R472). -/
def State.owed (s : State) (o : Option Return) : Bool := match o with
  | some x => (s.die x.die).returns.contains x
  | none => false

/-- LEASE of a die (R118). -/
def State.lease (s : State) (d : Nat) : Nat := s.regField d 0x4000 0 8

/-- Set a frame's access bit (R95). -/
def State.touchFrame (s : State) (pa : Nat) : State :=
  match frameIndex pa with
  | some (d, f) =>
    let off := if f < 2 ^ 24 then 0x80_0000 + f / 8 else 0xC0_0000 + (f - 2 ^ 24) / 8
    s.updDie d fun x => { x with access := Sparse.set 0 x.access off (Sparse.get 0 x.access off ||| (1#8 <<< (f % 8))) }
  | none => s

/-- A line enters an L2 from its home: every 16th fill from the HBM frames that a die homes, and every 16th from its capacity-tier
frames, sets the frame's access bit (R95). (DEDUCED, log 159) -/
def State.noteFill (s : State) (line : Nat) : State :=
  match frameIndex (lineAddr line) with
  | none => s
  | some (d, f) =>
    let hbm := decide (f < 2 ^ 24)
    let n := ((if hbm then (s.die d).fills else (s.die d).fillsCap) + 1) % 16
    let s1 := s.updDie d fun x => if hbm then { x with fills := n } else { x with fillsCap := n }
    if n = 0 then s1.touchFrame (lineAddr line) else s1

/-- The home counts a refused access (R418). -/
def State.countDeny (s : State) (d vmid : Nat) : State :=
  (s.setRegField d 0x6018 32 32 (s.regField d 0x6018 32 32 + 1)).setRegField d 0x6018 0 4 vmid

end Sys2Proof.Machine
end

