-- ==== Sys2Proof/Machine/Coherence.lean ====
section
/-! DEFINITION. Coherence among the dies and with the host (05 R117-R140), the L2 slices (07 R161-R167) and what a slice
does for a load, a store or an atomic: the directory, its transactions, invalidations, mirrors, evictions, and the
accesses that an agent of the device makes whole. -/
namespace Sys2Proof.Machine

def agent (n : Nat) : Agent := Fin.ofNat 5 n
def dieId (n : Nat) : Die := Fin.ofNat 4 n

/-! ### Messages and seams -/

def seamKey (a b : Nat) : Nat := 4 * min a b + max a b

/-- The die-scope messages and the wakes that carry them. -/
def dieScope : Instr → Bool
  | .gets .. | .getm .. | .upgm .. | .fwds .. | .fwdm .. | .data .. | .gnt .. | .inv .. | .invack .. | .binv .. | .back ..
  | .mirw .. | .mack .. | .evc .. | .homeQueueStart .. | .victimBufferFree .. | .l2FillResume .. | .seamWake ..
  | .seamWakeDone .. | .seamRetrainComplete .. => true
  | _ => false

/-- Send a message from agent `x` to agent `y`. A message due on a sleeping seam wakes it and is held; so is one due
while the seam wakes or retrains (R137). A down seam has a dead end: a message of the protocol is lost, and a request learns where it
would have arrived that its home is lost (R140). (DEDUCED, log 175) -/
def State.sendMsg (s : State) (x y : Nat) (i : Instr) : State :=
  if x = y || 4 ≤ x || 4 ≤ y then s.send i
  else
    let m := s.seams.get {} (seamKey x y)
    let held := { s with seams := s.seams.put (seamKey x y) { m with held := m.held ++ [i] } }
    match m.lstate.val with
    | 0 => s.send i
    | 1 => held.send (.seamWake (dieId (min x y)) (dieId (max x y)))
    | 4 => if dieScope i then s else s.send i
    | _ => held

/-- Send line updates from die `x`, each to the home of its line (R134, R137). -/
def State.sendUpdates (s : State) (x : Nat) (us : List LineUpdate) : State :=
  us.foldl (fun s u => s.sendMsg x (s.homeOf u.line) (.accLineUpdate u)) s

/-! ### Lines of a die -/

def DieState.find? (x : DieState) (line : Nat) (k : LineKind) : Option SliceLine :=
  x.lines.find? fun l => l.line == line && l.kind == k
/-- The line that the die holds as an agent (R125). -/
def DieState.copy? (x : DieState) (line : Nat) : Option SliceLine := x.find? line .copy
/-- Replace or add a line, as the most recently used (R164). -/
def DieState.putLine (x : DieState) (l : SliceLine) : DieState :=
  { x with lines := l :: x.lines.filter fun k => !(k.line == l.line && k.kind == l.kind) }
def DieState.dropKind (x : DieState) (line : Nat) (k : LineKind) : DieState :=
  { x with lines := x.lines.filter fun l => !(l.line == line && l.kind == k) }

/-- The line that an agent holds; agent 4 is the host. -/
def State.held? (s : State) (a line : Nat) : Option SliceLine :=
  if a = 4 then s.hostLines.find? fun l => l.line == line else (s.die a).copy? line
def State.putHeld (s : State) (a : Nat) (l : SliceLine) : State :=
  if a = 4 then { s with hostLines := l :: s.hostLines.filter fun k => k.line != l.line }
  else s.updDie a fun x => x.putLine l

def readable : Moesi → Bool
  | .I => false
  | _ => true
def writable : Moesi → Bool
  | .E | .M => true
  | _ => false

/-! ### The directory (R131, R132) -/

def bitRev19 (n : Nat) : Nat := ((List.range 19).filter fun i => n / 2 ^ i % 2 = 1).foldl (fun a i => a + 2 ^ (18 - i)) 0
def hash0 (line : Nat) : Nat := (line % 2 ^ 19) ^^^ (line / 2 ^ 19 % 2 ^ 19) ^^^ (line / 2 ^ 38 % 2 ^ 7)
def hash1 (line : Nat) : Nat := bitRev19 (line % 2 ^ 19) ^^^ (line / 2 ^ 19 % 2 ^ 19) ^^^ (line / 2 ^ 38 % 2 ^ 7)

def DieState.entry? (x : DieState) (line : Nat) : Option DirEntry :=
  match x.t0.find (hash0 line) with
  | some e => if e.line = line then some e else
    match x.t1.find (hash1 line) with
    | some e => if e.line = line then some e else none
    | none => none
  | none => match x.t1.find (hash1 line) with
    | some e => if e.line = line then some e else none
    | none => none

/-- Change the entry of a line, where it stands. -/
def DieState.updEntry (x : DieState) (line : Nat) (f : DirEntry → DirEntry) : DieState :=
  match x.t0.find (hash0 line) with
  | some e =>
    if e.line = line then { x with t0 := x.t0.put (hash0 line) (f e) }
    else match x.t1.find (hash1 line) with
      | some e => if e.line = line then { x with t1 := x.t1.put (hash1 line) (f e) } else x
      | none => x
  | none => match x.t1.find (hash1 line) with
    | some e => if e.line = line then { x with t1 := x.t1.put (hash1 line) (f e) } else x
    | none => x

/-- MTS of the home slice of a line (R132). -/
def DieState.mtsOf (x : DieState) (line : Nat) : Nat := x.mts.get 0 (sliceOf x.slices line)
def DieState.raiseMts (x : DieState) (line h : Nat) : DieState :=
  let k := sliceOf x.slices line
  { x with mts := Sparse.set 0 x.mts k (max h (x.mts.get 0 k)) }

/-- Free the entry of a line: MTS := max(MTS, HTS) (R132). -/
def DieState.freeEntry (x : DieState) (line : Nat) : DieState :=
  match x.entry? line with
  | none => x
  | some e =>
    let y := x.raiseMts line e.hts
    match y.t0.find (hash0 line) with
    | some k => if k.line = line then { y with t0 := y.t0.del (hash0 line) } else { y with t1 := y.t1.del (hash1 line) }
    | none => { y with t1 := y.t1.del (hash1 line) }

/-- Place an entry by relocation; `n` relocations are left. The answer's entry is one still without a slot. -/
def cuckoo : Nat → Bool → DirEntry → DieState → DieState × Option DirEntry
  | n, one, e, x =>
    let slot := if one then hash1 e.line else hash0 e.line
    let occ := (if one then x.t1 else x.t0).find slot
    let x' := if one then { x with t1 := x.t1.put slot e } else { x with t0 := x.t0.put slot e }
    match occ with
    | none => (x', none)
    | some o =>
      match n with
      | 0 => (x', some o)
      | k + 1 => cuckoo k (!one) o x'

/-- Insert a new entry (R132): the die with it, and the victim where one arises. -/
def DieState.insert (x : DieState) (e : DirEntry) : DieState × Option DirEntry :=
  match cuckoo 16 false e x with
  | (y, none) => (y, none)
  | (y, some o) =>
    if o.line = e.line then
      -- the new entry is the one without a slot: it takes T0's slot, and what stands there becomes the victim
      ({ y with t0 := y.t0.put (hash0 e.line) e }, y.t0.find (hash0 e.line))
    else (y, some o)

/-- A transaction on the line is in progress at the home, or its entry is in a victim buffer (R127, R132). -/
def DieState.busy (x : DieState) (line : Nat) : Bool :=
  (x.homeTx.any fun t => t.line == line) || x.victims.any fun v => v.entry.line == line

/-! ### Data at the home, eviction and fills -/

/-- The line that holds the home's data in its L2: its own copy, or the mirror, or an accumulator line. -/
def DieState.homeLine? (x : DieState) (line : Nat) : Option SliceLine :=
  match x.copy? line with
  | some l => some l
  | none => match x.find? line .mirror with
    | some l => some l
    | none => x.find? line .acc

/-- The current bytes of a line, as its home holds them (R128), read from memory under `vmid` where no slice has them. -/
def State.homeData (s : State) (line vmid : Nat) : LineData :=
  match (s.die (s.homeOf line)).homeLine? line with
  | some l => l.data
  | none => s.fetchLine line vmid

/-- A line leaves the slices of its home: dirty data goes to memory, unless it fails ECC (R164, R178). -/
def State.writeBack (s : State) (d : Nat) (l : SliceLine) : State :=
  if !l.dirty then s
  else if (s.die d).badL2.contains l.line then s.retireFrame (lineAddr l.line)
  else s.storeLine l.line l.vmid l.data

/-- The line's bits in the L2 are gone, and the errors in them too. -/
def DieState.forget (x : DieState) (line : Nat) : DieState :=
  { x with badL2 := x.badL2.filter (· != line), weakL2 := x.weakL2.filter (· != line) }

/-- Evict a line of die `d` (R164). -/
def State.evict (s : State) (d : Nat) (l : SliceLine) : State :=
  let h := s.homeOf l.line
  let top := max l.wts l.rts
  let home := l.kind == .acc || l.kind == .mirror || (l.kind == .copy && h == d)
  let gone := (if home then s.writeBack d l else s).updDie d fun x => (x.dropKind l.line l.kind).forget l.line
  match l.kind with
  | .view => gone
  | .acc => gone.updDie d fun x => x.raiseMts l.line top
  | .mirror => gone.updDie h fun x => if (x.entry? l.line).isSome then x else x.raiseMts l.line top
  | .copy => gone.sendMsg d h (.evc (dieId h) l.line (agent d) top)

/-- A way is eligible unless a transaction on its line is in progress (R164). -/
def State.eligible (s : State) (d : Nat) (l : SliceLine) : Bool :=
  !((s.die (s.homeOf l.line)).busy l.line) && !((s.die d).agentTx.any fun t => t.line == l.line)

/-- The last element of a list that satisfies `p`: the least recently used. -/
def lastWhere {α : Type} (p : α → Bool) (l : List α) : Option α := l.reverse.find? p

/-- Put a line into die `d`'s L2, evicting the least recently used eligible way where the set is full; none where no way
is eligible (R164, R165). (DEDUCED, log 31) -/
def State.fill (s : State) (d : Nat) (l : SliceLine) : Option State :=
  let x := s.die d
  if (x.find? l.line l.kind).isSome then some (s.updDie d fun y => y.putLine l)
  else
    let n := x.slices
    let same := x.lines.filter fun k => sliceOf n k.line == sliceOf n l.line && setOf k.line == setOf l.line
    let accs := same.filter fun k => k.kind == .acc
    let from_ := if l.kind == .acc && 8 ≤ accs.length then some accs else if 16 ≤ same.length then some same else none
    match from_ with
    | none => some ((s.updDie d fun y => y.putLine l).noteFill l.line)
    | some ways => match lastWhere (fun k => s.eligible d k) ways with
      | some v => some (((s.evict d v).updDie d fun y => y.putLine l).noteFill l.line)
      | none => none

/-- Drop a line from every cache of the package, writing dirty data back under its own VMID (R73, R437); `l1` also drops
it from every L1. -/
def State.dropLine (s : State) (line : Nat) (l1 : Bool) : State :=
  let h := s.homeOf line
  let top := (List.range 4).foldl (fun a d =>
    (s.die d).lines.foldl (fun a l => if l.line == line && l.kind != .view then max a (max l.wts l.rts) else a) a) 0
  let s1 := match (s.die h).homeLine? line with
    | some l => s.writeBack h l
    | none => s
  let s2 := (List.range 4).foldl (fun s d => s.updDie d fun x =>
    { x with lines := x.lines.filter fun l => l.line != line }.forget line) s1
  let s3 := { s2.updDie h (fun x => (x.freeEntry line).raiseMts line top) with
    hostLines := s2.hostLines.filter fun l => l.line != line }
  if l1 then { s3 with cores := s3.cores.map fun p => (p.1, { p.2 with l1 := p.2.l1.filter fun k => k.line != line }) } else s3

/-- The VMID under which some slice holds the line (R73). -/
def State.lineVmid? (s : State) (line : Nat) : Option Nat :=
  (List.range 4).findSome? fun d => ((s.die d).lines.find? fun l => l.line == line).map (·.vmid)

/-- Nothing of the package is in progress on the line. -/
def State.quiet (s : State) (line : Nat) : Bool :=
  !((s.die (s.homeOf line)).busy line) && (List.range 4).all fun d =>
    !((s.die d).agentTx.any fun t => t.line == line) && !((s.die d).mirWait.any fun t => t.line == line)

/-- R73: before an access under `vmid`, a line held under another VMID leaves every cache. (DEDUCED, log 131) -/
def State.claim (s : State) (line vmid : Nat) : State :=
  match s.lineVmid? line with
  | some v => if v ≠ vmid && s.encrypted line && s.quiet line then s.dropLine line true else s
  | none => s

/-- Nothing of the line may be read under the VMID yet: it is held under another one and not at rest (R73). -/
def State.mustWait (s : State) (line vmid : Nat) : Bool :=
  (match s.lineVmid? line with
    | some v => v != vmid && s.encrypted line
    | none => false) && !s.quiet line

/-! ### Errors in stored bits (R74-R76, R178) -/

/-- An error that die `d`'s L2 holds in a line, met by an access: one that ECC corrects is counted; otherwise a clean line is dropped,
to be had again from its home or its frame, and dirty home data, a mirror or an accumulator line retires its frame and the access
fails (R178). -/
def State.l2Error (s : State) (d line : Nat) : State × Bool :=
  let x := s.die d
  let held := x.lines.filter fun l => l.line == line
  if held.isEmpty then (s, false)
  else if x.badL2.contains line then
    if held.any fun l => l.dirty || l.kind == .mirror || l.kind == .acc then (s.retireFrame (lineAddr line), true)
    else (held.foldl (fun s l => s.evict d l) s, false)
  else if x.weakL2.contains line then
    ((s.updDie d fun x => { x with weakL2 := x.weakL2.filter (· != line) }).countError d 0x6310, false)
  else (s, false)

/-- The home reads the line's current bytes: in its own L2, or from memory. True where the read fails. -/
def State.homeCheck (s : State) (line : Nat) : State × Bool :=
  let h := s.homeOf line
  let (s1, bad) := s.l2Error h line
  if bad || ((s1.die h).homeLine? line).isSome then (s1, bad) else s1.memCheck line

/-- Die `d` reads the line's bytes: its own copy's, or else the home's. True where the read fails. -/
def State.readCheck (s : State) (d line : Nat) : State × Bool :=
  let (s1, bad) := s.l2Error d line
  if bad || ((s1.die d).copy? line).isSome then (s1, bad) else s1.homeCheck line

/-- A read of the line at die `d` would fail. -/
def State.readBad (s : State) (d line : Nat) : Bool := (s.readCheck d line).2

/-- The reply to a read that meets an error or a refusal: no line is installed (R75). -/
def loadError (m : LdReqMsg) (cause : Nat) : Instr :=
  .lddata { req := m, data := 0, wts := 0, rts := 0, error := some cause }

/-- The reply to a store that meets an error. -/
def storeError (m : StReqMsg) (cause : Nat) : Instr :=
  .stdone { req := m, wts := 0, prev := 0, old := 0, new := 0, bytes := 0, error := some cause }

/-! ### The home's transactions (R127) -/

/-- The VMID of an agent's request for a line. -/
def State.reqVmid (s : State) (a line : Nat) : Nat :=
  if a = 4 then s.hostVmid
  else match (s.die a).agentTx.find? fun t => t.line == line with
    | some t => t.vmid
    | none => 0

def sharersOf (b : BitVec 5) : List Nat := (List.range 5).filter fun i => b.getLsbD i
def bit5 (a : Nat) : BitVec 5 := 1#5 <<< a

/-- Fills that found no eligible way are tried again (R164). -/
def State.wakeFills (s : State) : State :=
  s.sendAll (((List.range 4).filter fun d => !(s.die d).fillWait.isEmpty).map fun d => .l2FillResume (dieId d))

/-- A transaction of a line, or a victim, has ended at home `h`: the next request of the line starts, and so does an insertion that
waited for a victim buffer or for its victim's transaction, and fills are tried again (R127, R132, R164). -/
def State.wake (s : State) (h line : Nat) : State :=
  let x := s.die h
  (s.sendAll ((if x.homeQ.any fun q => q.2.1 == line then [.homeQueueStart (dieId h) line] else []) ++
    (if x.insertQ.isEmpty then [] else [.victimBufferFree (dieId h)]))).wakeFills

/-- Agent `a` leaves an entry (R127 Table 5, EVC). -/
def leaveEntry (a : Nat) (e : DirEntry) : DirEntry :=
  let shr := e.shr &&& ~~~(bit5 a)
  match e.st with
  | .E | .M => if e.own.val = a then { e with st := .I, shr := 0 } else e
  | .O => { e with st := if e.own.val = a then .S else .O, shr := shr }
  | .S => { e with st := if shr == 0 then .I else .S, shr := shr }
  | .I => e

/-- Agent `a` has written a line that it was granted clean (R125, R128). -/
def ownerWrote (a : Nat) (e : DirEntry) : DirEntry :=
  if e.st == .E && e.own.val == a then { e with st := .M } else e

/-- The home cannot supply the line's data: the accesses of the requesting die that wait for it fail, and the agent leaves the
entry (R75). -/
def State.refuseData (s : State) (h line a : Nat) : State :=
  let s1 := s.updDie h fun x => x.updEntry line (leaveEntry a)
  let s2 := match (s1.die h).entry? line with
    | some e => if e.st == .I && !((s1.die h).busy line) then s1.updDie h fun x => x.freeEntry line else s1
    | none => s1
  if a = 4 then s2
  else
    let x := s2.die a
    (s2.setDie a { x with agentTx := x.agentTx.filter fun t => t.line != line, waitLd := x.waitLd.filter fun m => m.line != line,
                          waitSt := x.waitSt.filter fun m => m.line != line }).sendAll
      (((x.waitLd.filter fun m => m.line == line).map fun m => loadError m 0x0C) ++
        (x.waitSt.filter fun m => m.line == line).map fun m => storeError m 0x0C)

/-- DATA from the home: wts := HTS, and HTS when the kind is M (R127). The line that the home reads becomes its most recently used. -/
def State.homeReply (s : State) (h line a : Nat) (k : DataKind) : State :=
  match (s.die h).entry? line with
  | none => s
  | some e =>
    let (s1, bad) := s.homeCheck line
    if bad then s1.refuseData h line a
    else
      let d := s1.homeData line (s1.reqVmid a line)
      let s2 := match (s1.die h).homeLine? line with
        | some l => s1.updDie h fun x => x.putLine l
        | none => s1
      s2.sendMsg h a (.data (agent a) line k d e.hts (if k == .M then e.hts else 0) false)

/-- The line's write permission goes to A; a grant to the host advances HTS (R127, R135). The transaction of a forwarded request
lasts until A holds the owner's data. -/
def State.grant (s : State) (h line a : Nat) (forwarded upgrade : Bool) : State :=
  let s1 := s.updDie h fun x =>
    let tx := if forwarded then x.homeTx.map fun t => if t.line == line then { t with acks := [], granted := true } else t
      else x.homeTx.filter fun t => t.line != line
    { x with homeTx := tx }.updEntry line fun e =>
      { e with st := .M, own := agent a, shr := 0, hts := if a = 4 then e.hts + 1 else e.hts }
  let s2 := if forwarded || upgrade then
      match (s1.die h).entry? line with
      | some e => s1.sendMsg h a (.gnt (agent a) line e.hts forwarded)
      | none => s1
    else s1.homeReply h line a .M
  if forwarded then s2 else s2.wake h line

/-- Agent `a` holds the data of its forwarded request, and the permission where it asked for one: the home's transaction ends
(R127). -/
def State.txDone (s : State) (a line : Nat) : State :=
  let h := s.homeOf line
  match (s.die h).homeTx.find? fun t => t.line == line with
  | some t =>
    if t.a.val = a && t.forwarded && (t.req == .gets || t.granted) then
      (s.updDie h fun x => { x with homeTx := x.homeTx.filter fun t => t.line != line }).wake h line
    else s
  | none => s

/-- A write request: invalidations and the forward go out, and the grant follows the last acknowledgement. -/
def State.startWrite (s : State) (h : Nat) (e : DirEntry) (req : ReqMsg) (a : Nat) : State :=
  let others := (sharersOf e.shr).filter fun i => i != a
  let own := e.own.val
  let upgrade := req == .upgm && ((e.st == .S && e.shr.getLsbD a) || (e.st == .O && own == a))
  let inv := match e.st with
    | .S | .O => others.filter fun i => !(e.st == .O && i == own)
    | _ => []
  let fwd := (e.st == .E || e.st == .M || e.st == .O) && own != a
  let acks := (if fwd then [own] else []) ++ inv
  if acks.isEmpty then s.grant h e.line a false upgrade
  else
    let s1 := s.updDie h fun x =>
      { x with homeTx := x.homeTx ++ [{ line := e.line, req := req, a := agent a, acks := acks.map agent, forwarded := fwd,
                                        upgrade := upgrade }] }
    let s2 := if fwd then s1.sendMsg h own (.fwdm (dieId h) (agent own) e.line (agent a)) else s1
    inv.foldl (fun s i => s.sendMsg h i (.inv (dieId h) (agent i) e.line)) s2

/-- A read goes to the line's owner: a transaction until the reader holds the owner's data (R127). (DEDUCED, log 22) -/
def State.forwardRead (s : State) (h : Nat) (e : DirEntry) (a : Nat) : State :=
  (s.updDie h fun x => { x with homeTx := x.homeTx ++ [{ line := e.line, req := .gets, a := agent a, acks := [e.own], forwarded := true,
                                                         upgrade := false }] }).sendMsg
    h e.own.val (.fwds (dieId h) e.own e.line (agent a))

/-- A read request (R127 Table 5). -/
def State.startRead (s : State) (h : Nat) (e : DirEntry) (a : Nat) : State :=
  match e.st with
  | .I => (s.updDie h fun x => x.updEntry e.line fun e => { e with st := .E, own := agent a, shr := 0 }).homeReply h e.line a .E
  | .S => (s.updDie h fun x => x.updEntry e.line fun e => { e with shr := e.shr ||| bit5 a }).homeReply h e.line a .S
  | .E | .M => if e.own.val = a then s.homeReply h e.line a .E else s.forwardRead h e a
  | .O => if e.own.val = a then s.homeReply h e.line a .S else s.forwardRead h e a

def State.startReq (s : State) (h : Nat) (e : DirEntry) (req : ReqMsg) (a : Nat) : State :=
  if req == .gets then s.startRead h e a else s.startWrite h e req a

/-- Holders that a forced invalidation must reach (R132). -/
def holdersOf (e : DirEntry) : List Nat :=
  let o := if e.st == .E || e.st == .M || e.st == .O then [e.own.val] else []
  (o ++ sharersOf e.shr).eraseDups

/-- A victim's entry is freed when no holder is left to answer (R132). -/
def State.addVictim (s : State) (h : Nat) (v : DirEntry) : State :=
  let hs := holdersOf v
  let s1 := s.updDie h fun x =>
    if hs.isEmpty then x.raiseMts v.line v.hts else { x with victims := x.victims ++ [{ entry := v, waiting := hs.map agent }] }
  hs.foldl (fun s i => s.sendMsg h i (.binv (dieId h) (agent i) v.line)) s1

/-- A request reaches the home (R127): it queues behind a transaction or a victim of its line, gets a new entry with
HTS := MTS where it has none, or waits for a victim buffer. -/
def State.homeRequest (s : State) (h : Nat) (req : ReqMsg) (line a : Nat) : State :=
  let x := s.die h
  if x.busy line then s.setDie h { x with homeQ := x.homeQ ++ [(req, line, agent a)] }
  else match x.entry? line with
    | some e => s.startReq h e req a
    | none =>
      let e : DirEntry := { line := line, st := .I, shr := 0, own := agent a, hts := x.mtsOf line }
      match x.insert e with
      | (y, none) => (s.setDie h y).startReq h e req a
      | (y, some v) =>
        if 8 ≤ x.victims.length || x.homeTx.any fun t => t.line == v.line then
          s.setDie h { x with insertQ := x.insertQ ++ [(req, line, agent a)] }
        else ((s.setDie h y).addVictim h v).startReq h e req a

/-- An INVACK raises HTS; the last one lets the grant go (R127). -/
def State.homeInvack (s : State) (h line a hh : Nat) : State :=
  let s1 := s.updDie h fun x => x.updEntry line fun e => { e with hts := max e.hts hh }
  match (s1.die h).homeTx.find? fun t => t.line == line with
  | none => s1
  | some t =>
    let left := t.acks.filter fun i => i.val != a
    if t.req == .gets || t.granted then s1
    else if left.isEmpty then s1.grant h line t.a.val t.forwarded t.upgrade
    else s1.updDie h fun x =>
      { x with homeTx := x.homeTx.map fun k => if k.line == line then { k with acks := left } else k }

/-- A BACK: the victim is freed after the last, and what waited for it or for its buffer starts (R132). -/
def State.homeBack (s : State) (h line a hh : Nat) : State :=
  match (s.die h).victims.find? fun v => v.entry.line == line with
  | none => s
  | some v =>
    let v1 := { v with entry := { v.entry with hts := max v.entry.hts hh }, waiting := v.waiting.filter fun i => i.val != a }
    if !v1.waiting.isEmpty then
      s.updDie h fun x => { x with victims := x.victims.map fun k => if k.entry.line == line then v1 else k }
    else
      (s.updDie h fun x =>
        ({ x with victims := x.victims.filter fun k => k.entry.line != line }).raiseMts line v1.entry.hts).wake h line

/-- An eviction notice (R127): the agent leaves the entry, and an entry in I is freed at once. (DESIGN CHOICE, log 157) -/
def State.homeEvc (s : State) (h line a hh : Nat) : State :=
  match (s.die h).entry? line with
  | none => s.updDie h fun x => x.raiseMts line hh
  | some e =>
    let e1 := leaveEntry a { e with hts := max e.hts hh }
    let s1 := s.updDie h fun x => x.updEntry line fun _ => e1
    if e1.st == .I && !((s1.die h).busy line) then s1.updDie h fun x => x.freeEntry line else s1

/-- Bytes that an owner has written reach the line's home (R128). A store of the host to a device-homed line stands at HTS + 1, and the
host's copy with it (R135). The home of a host line is the host: its memory takes the bytes (R136). None where the mirror finds no
eligible way. (DEDUCED, log 160) -/
def State.homeMirror (s : State) (h line a : Nat) (bytes : LineData) (mask : BitVec 128) (wts : Nat) : Option State :=
  let hts := match (s.die h).entry? line with
    | some e => e.hts
    | none => (s.die h).mtsOf line
  let t := if a = 4 then hts + 1 else wts
  let s1 := s.updDie h fun x => x.updEntry line fun e => ownerWrote a { e with hts := max e.hts t }
  let s2 : State := if a = 4 then
      { s1 with hostLines := s1.hostLines.map fun l => if l.line == line then { l with wts := t, rts := max l.rts t } else l }
    else s1
  let vmid := match s.held? a line with
    | some l => l.vmid
    | none => s.reqVmid a line
  let merge := fun (s : State) (l : SliceLine) (dirty : Bool) => s.updDie h fun x =>
    x.putLine { l with data := mergeLine l.data bytes mask, dirty := dirty, wts := max l.wts t, rts := max l.rts t }
  if isHostLine line then
    let s3 := s2.storeLine line vmid (mergeLine (s2.fetchLine line vmid) bytes mask)
    match (s3.die h).homeLine? line with
    | some l => some (merge s3 l false)
    | none => some s3
  else match (s2.die h).homeLine? line with
    | some l => some (merge s2 l true)
    | none =>
      let (s3, bad) := s2.memCheck line
      if bad then some s3
      else s3.fill h { line := line, kind := .mirror, vmid := vmid, st := .I, wts := t, rts := t, dirty := true,
                       data := mergeLine (s3.fetchLine line vmid) bytes mask }

/-! ### Requests of an agent (R123) -/

/-- The die asks the home for the line, unless a request of its own is in flight (R123). -/
def State.request (s : State) (d line vmid : Nat) (write : Bool) : State :=
  if (s.die d).agentTx.any fun t => t.line == line then s
  else
    let h := s.homeOf line
    let tx : AgentTx := { line := line, vmid := vmid, write := write, data := none, hts := 0, gnt := false, needGnt := false }
    let held := match (s.die d).copy? line with
      | some l => readable l.st
      | none => false
    let msg : Instr :=
      if !write then .gets (dieId h) line (agent d)
      else if held then .upgm (dieId h) line (agent d) else .getm (dieId h) line (agent d)
    (s.updDie d fun x => { x with agentTx := x.agentTx ++ [tx] }).sendMsg d h msg

/-- The die asks for a line that some of its accesses still wait for. -/
def State.askFor (s : State) (d line : Nat) : State :=
  match (s.die d).waitSt.find? fun m => m.line == line with
  | some m => s.request d line m.vmid true
  | none => match (s.die d).waitLd.find? fun m => m.line == line with
    | some m => s.request d line m.vmid false
    | none => s

/-! ### An agent answers the home (R129) -/

/-- The agent gives up the line: at the home die its data stays as the home's line (R128). -/
def State.giveUp (s : State) (a line : Nat) : State :=
  if a = 4 then { s with hostLines := s.hostLines.filter fun l => l.line != line }
  else match (s.die a).copy? line with
    | none => s
    | some l => s.updDie a fun x =>
        let y := x.dropKind line .copy
        if s.homeOf line = a then y.putLine { l with kind := .mirror, st := .I } else y

/-- H: the largest rts that the agent holds for the line; the host has no clock (R126, R135). -/
def State.horizon (s : State) (a line : Nat) : Nat :=
  if a = 4 then 0
  else match s.held? a line with
    | some l => max l.wts l.rts
    | none => 0

/-- A home's answer to agent `a` about a line. -/
def isAnswer (a line : Nat) : Instr → Bool
  | .data b l _ _ _ _ _ => b.val == a && l == line
  | .gnt b l _ _ => b.val == a && l == line
  | _ => false

/-- The home takes the line back before an earlier answer has found a way at the agent: that answer is dropped and the request is
made again, so that it completes with the data current after the agent's own answer (R129). (DEDUCED, log 181) -/
def State.takeBack (s : State) (a line : Nat) : State :=
  if a = 4 || !(s.pending.any (isAnswer a line) || (s.die a).fillWait.any (isAnswer a line)) then s
  else
    let tx := (s.die a).agentTx.find? fun t => t.line == line
    let s1 := ({ s with pending := s.pending.filter fun i => !(isAnswer a line i) } : State).updDie a fun x =>
      { x with fillWait := x.fillWait.filter fun i => !(isAnswer a line i), agentTx := x.agentTx.filter fun t => t.line != line }
    match tx with
    | some t => s1.request a line t.vmid t.write
    | none => s1

/-- INV: the agent goes to I and answers INVACK (R126). (DEDUCED, log 29) -/
def State.agentInv (s : State) (h a line : Nat) : State :=
  ((s.giveUp a line).sendMsg a h (.invack (dieId h) line (agent a) (s.horizon a line))).takeBack a line

def State.agentBinv (s : State) (h a line : Nat) : State :=
  ((s.giveUp a line).sendMsg a h (.back (dieId h) line (agent a) (s.horizon a line))).takeBack a line

/-- The entry after a forwarded read: an owner that had written the line stays its owner in O, and a clean one is a sharer
(R127 Table 5). -/
def sharedBy (wrote : Bool) (o a : Nat) (e : DirEntry) : DirEntry :=
  if wrote then { e with st := .O, shr := e.shr ||| bit5 a } else { e with st := .S, shr := e.shr ||| bit5 o ||| bit5 a }

/-- The home serves a read itself whose owner no longer holds the line, and the transaction ends. -/
def State.serveRead (s : State) (h o line a : Nat) : State :=
  ((s.updDie h fun x => { x with homeTx := x.homeTx.filter fun t => t.line != line }.updEntry line fun e =>
    { e with st := .S, shr := (e.shr &&& ~~~(bit5 o)) ||| bit5 a }).homeReply h line a .S).wake h line

/-- What the owner's own copy of a line does to an access: the host's caches have their own protection. -/
def State.ownerCheck (s : State) (o line : Nat) : State × Bool := if o = 4 then (s, false) else s.l2Error o line

/-- FWDS: E to S, M to O, and DATA kind S; an owner that no longer holds the line leaves the data to the home. (DEDUCED, log 23) -/
def State.agentFwds (s : State) (h o line a : Nat) : State :=
  let (s0, bad) := s.ownerCheck o line
  if bad then (((s0.updDie h fun x => { x with homeTx := x.homeTx.filter fun t => t.line != line }).refuseData h line a).wake h line).takeBack o line
  else match s0.held? o line with
  | some l =>
    let st := match l.st with
      | .E => .S
      | .M => .O
      | k => k
    let s1 := (s0.putHeld o { l with st := st }).updDie h fun x => x.updEntry line (sharedBy (st == .O) o a)
    (s1.sendMsg o a (.data (agent a) line .S l.data l.wts 0 true)).takeBack o line
  | none => (s0.serveRead h o line a).takeBack o line

/-- FWDM: DATA kind M with the owner's own H to A, then I and INVACK (R127, R460). -/
def State.agentFwdm (s : State) (h o line a : Nat) : State :=
  let hh := s.horizon o line
  let (s0, bad) := s.ownerCheck o line
  let s1 := if bad then s0.refuseData h line a
    else match s0.held? o line with
    | some l => s0.sendMsg o a (.data (agent a) line .M l.data l.wts hh true)
    | none =>
      let (s1, bad) := s0.homeCheck line
      if bad then s1.refuseData h line a
      else s1.sendMsg h a (.data (agent a) line .M (s1.homeData line (s1.reqVmid a line))
        (match (s1.die h).entry? line with
          | some e => e.hts
          | none => 0) 0 true)
  ((s1.giveUp o line).sendMsg o h (.invack (dieId h) line (agent o) hh)).takeBack o line

/-! ### What a slice does for its cores (R120, R121) -/

/-- The operation of a store-like request on an element (R233-R235). -/
def elemNew (t : Ty) (w : Nat) (op : ElemOp) (old x : Nat) : Nat :=
  match op with
  | .store | .swap => x % 2 ^ w
  | .add => (old + x) % 2 ^ w
  | .min => if t.toInt x < t.toInt old then x % 2 ^ w else old
  | .max => if t.toInt old < t.toInt x then x % 2 ^ w else old
  | .and => old &&& (x % 2 ^ w)
  | .or => old ||| (x % 2 ^ w)
  | .xor => old ^^^ (x % 2 ^ w)
  | .fadd =>
    let f := t.fmt?.getD .f64
    (fAdd f .rne (f.decode old) (f.decode (x % 2 ^ w))).1
  | .cas e => if old = e.toNat % 2 ^ w then x % 2 ^ w else old
  | .load => old

/-- The byte mask of `n` bytes from `off`. -/
def byteMask (off n : Nat) : BitVec 128 := (BitVec.ofNat 128 (2 ^ n - 1)) <<< off

/-- A read at the slice: rts := max(rts, wts + LEASE, P + LEASE) (R120). -/
def leased (lease p : Nat) (l : SliceLine) : SliceLine := { l with rts := max l.rts (max (l.wts + lease) (p + lease)) }

/-- Answer a waiting load from a line that the die may read. -/
def State.answerLoad (s : State) (d : Nat) (l : SliceLine) (m : LdReqMsg) : State :=
  let l1 := leased (s.lease d) m.p l
  let s1 := s.updDie d fun x => x.putLine l1
  let r : LdReply := { req := m, data := l1.data, wts := l1.wts, rts := l1.rts, error := none }
  s1.send (if m.oldWts = some l1.wts then .renew r else .lddata r)

/-- `n` bytes at offset `off` of a line that die `d` holds in M or E are written at the time `wts` (R121). At the home the directory
learns that the line is written. From another die the bytes go to the home, and a host line's to the host: there the write waits for
the acknowledgement, and `reply` follows it (R128, R136). -/
def State.writeAt (s : State) (d : Nat) (l : SliceLine) (off n new wts : Nat) (reply : Option StReply) : State :=
  let home := s.homeOf l.line
  let host := isHostLine l.line
  let data := setLineField l.data off n new
  let s1 := s.updDie d fun x =>
    x.putLine { l with data := data, wts := wts, rts := wts, st := .M, dirty := decide (home = d) && !host }
  let waits := s1.updDie d fun x => { x with mirWait := x.mirWait ++ [{ line := l.line, wts := wts, reply := reply }] }
  if home ≠ d then waits.sendMsg d home (.mirw (dieId home) l.line (agent d) data (byteMask off n) wts)
  else if host then
    ((waits.updDie d fun x => x.updEntry l.line (ownerWrote d)).storeLine l.line l.vmid data).send (.mack (agent d) l.line wts)
  else (s1.updDie d fun x => x.updEntry l.line (ownerWrote d)).sendAll (reply.toList.map .stdone)

/-- A store or atomic performed at a slice that holds the line in M or E (R121). (DESIGN CHOICE, log 149) -/
def State.performStore (s : State) (d : Nat) (l : SliceLine) (m : StReqMsg) : State :=
  let wts := max m.p (l.rts + 1)
  let old := lineField l.data m.off m.size
  let new := elemNew m.ty (8 * m.size) m.elem old m.data.toNat
  s.writeAt d l m.off m.size new wts
    (some { req := m, wts := wts, prev := l.wts, old := BitVec.ofNat 64 old, new := BitVec.ofNat 64 new,
            bytes := setLineField l.data m.off m.size new, error := none })

/-- The loads and stores of a die that wait for a line go on with what the die now holds (R120, R121). -/
def State.serveWaiters (s : State) (d line : Nat) : State :=
  match (s.die d).copy? line with
  | none => s.askFor d line
  | some l =>
    let ld := (s.die d).waitLd.filter fun m => m.line == line
    let s1 := s.updDie d fun x => { x with waitLd := x.waitLd.filter fun m => m.line != line }
    let s2 := ld.foldl (fun s m => match (s.die d).copy? line with
      | some l => s.answerLoad d l m
      | none => s) s1
    let st := (s2.die d).waitSt.filter fun m => m.line == line
    if st.isEmpty then s2
    else if writable l.st then
      let s3 := s2.updDie d fun x => { x with waitSt := x.waitSt.filter fun m => m.line != line }
      st.foldl (fun s m => match (s.die d).copy? line with
        | some l => s.performStore d l m
        | none => s) s3
    else s2.request d line l.vmid true

/-- Only prefetches of the die wait for the line. -/
def DieState.onlyPrefetch (x : DieState) (line : Nat) : Bool :=
  (x.waitLd.any fun m => m.line == line) && (x.waitLd.all fun m => m.line != line || m.op.isNone) &&
    !(x.waitSt.any fun m => m.line == line)

/-- A prefetch's fill has found no eligible way: the prefetch is dropped, and the die tells the home that it does not hold the line
(R176). -/
def State.dropFill (s : State) (d line top : Nat) : State :=
  let h := s.homeOf line
  let x := s.die d
  (s.setDie d { x with waitLd := x.waitLd.filter fun m => m.line != line }).sendAll
    ((x.waitLd.filter fun m => m.line == line).map fun m => loadError m 0x0C) |>.sendMsg d h (.evc (dieId h) line (agent d) top)

/-- The die's request is complete: the line is installed with rts above every HTS received (R128). -/
def State.completeTx (s : State) (d : Nat) (t : AgentTx) (st : Moesi) (msg : Instr) : State :=
  let close := fun (s : State) => s.updDie d fun x => { x with agentTx := x.agentTx.filter fun k => k.line != t.line }
  let done := fun (s : State) => ((s.serveWaiters d t.line).txDone d t.line).wakeFills
  match t.data with
  | none =>
    -- an upgrade: the line is held, and it now may be written
    match (s.die d).copy? t.line with
    | some l => done ((close s).updDie d fun x => x.putLine { l with st := st, rts := max l.rts t.hts })
    | none => done (close s)
  | some (bytes, wts) =>
    let dirty := match (s.die d).find? t.line .mirror with
      | some m => m.dirty
      | none => false
    let l : SliceLine := { line := t.line, kind := .copy, vmid := t.vmid, st := st, wts := wts, rts := max wts t.hts,
                           dirty := dirty, data := bytes }
    let s0 := s.updDie d fun x => x.dropKind t.line .mirror
    match s0.fill d l with
    | some s1 => done (close s1)
    | none =>
      if (s.die d).onlyPrefetch t.line then ((close s).dropFill d t.line (max wts t.hts)).txDone d t.line |>.wakeFills
      else s.updDie d fun x => { x with fillWait := x.fillWait ++ [msg] }

def moesiOf : DataKind → Moesi
  | .S => .S
  | .E => .E
  | .M => .M

/-- DATA reaches an agent (R128). The host installs at once, and a forwarded grant is its own only with the home's GNT. -/
def State.agentData (s : State) (a line : Nat) (k : DataKind) (bytes : LineData) (wts hts : Nat) (fromOwner : Bool) : State :=
  if a = 4 then
    let granted := (s.die (s.homeOf line)).homeTx.any fun t => t.line == line && t.granted
    let waits := k == .M && fromOwner && (!granted || s.pending.any (isAnswer 4 line))
    let s1 := s.putHeld 4 { line := line, kind := .copy, vmid := s.hostVmid, st := if waits then .S else moesiOf k, wts := wts,
                            rts := max wts hts, dirty := false, data := bytes }
    if fromOwner && !waits then s1.txDone 4 line else s1
  else match (s.die a).agentTx.find? fun t => t.line == line with
    | none => s.txDone a line
    | some t =>
      let msg : Instr := .data (agent a) line k bytes wts hts fromOwner
      let t1 := { t with data := some (bytes, wts), hts := max t.hts hts, needGnt := k == .M && fromOwner }
      if k == .M && fromOwner && !t.gnt then
        s.updDie a fun x => { x with agentTx := x.agentTx.map fun q => if q.line == line then t1 else q }
      else s.completeTx a t1 (moesiOf k) msg

/-- GNT reaches an agent (R128). -/
def State.agentGnt (s : State) (a line hts : Nat) (forwarded : Bool) : State :=
  if a = 4 then
    -- the owner's DATA may still be on its way
    if forwarded && s.pending.any (isAnswer 4 line) then s
    else ({ s with hostLines := s.hostLines.map fun l => if l.line == line then { l with st := .M, rts := max l.rts hts } else l } : State).txDone
      4 line
  else match (s.die a).agentTx.find? fun t => t.line == line with
    | none => s.txDone a line
    | some t =>
      let t1 := { t with gnt := true, hts := max t.hts hts }
      if forwarded && t.data.isNone then
        s.updDie a fun x => { x with agentTx := x.agentTx.map fun q => if q.line == line then t1 else q }
      else s.completeTx a t1 .M (.gnt (agent a) line hts forwarded)

/-- MACK: the write that waits for it is performed (R121). -/
def State.agentMack (s : State) (a line wts : Nat) : State :=
  if a = 4 then s
  else match indexWhere (fun w : MirWait => w.line == line && w.wts == wts) (s.die a).mirWait with
    | none => s
    | some i =>
      let reply := ((s.die a).mirWait[i]?).bind (·.reply)
      (s.updDie a fun x => { x with mirWait := dropAt x.mirWait i }).sendAll (reply.toList.map .stdone)

/-- A queued request of the line starts (R127). -/
def State.homeStart (s : State) (h line : Nat) : State :=
  let x := s.die h
  if x.busy line then s
  else match indexWhere (fun q : ReqMsg × Nat × Agent => q.2.1 == line) x.homeQ with
    | none => s
    | some i => match x.homeQ[i]? with
      | none => s
      | some (req, _, a) =>
        let s1 := (s.setDie h { x with homeQ := dropAt x.homeQ i }).homeRequest h req line a.val
        -- a request that the home answers itself leaves no transaction behind it, so the next one may start too
        if (s1.die h).homeQ.any (fun q => q.2.1 == line) && !((s1.die h).busy line) then
          s1.send (.homeQueueStart (dieId h) line) else s1

/-- A request that waited for a victim buffer starts (R132). -/
def State.insertStart (s : State) (h : Nat) : State :=
  match (s.die h).insertQ with
  | [] => s
  | (req, line, a) :: rest =>
    let s1 := (s.updDie h fun x => { x with insertQ := rest }).homeRequest h req line a.val
    let left := (s1.die h).insertQ.length
    if 0 < left && left ≤ rest.length then s1.send (.victimBufferFree (dieId h)) else s1

/-- A MIRW of agent `a` for the line that stands before one of time `wts`. -/
def mirwBefore (line a wts : Nat) : Instr → Bool
  | .mirw _ l b _ _ w => l == line && b.val == a && decide (w < wts)
  | _ => false

/-- MIRW at the home, answered with MACK; without an eligible way, or behind one that waits for a way, the message waits (R126, R128,
R164). (DEDUCED, log 176) -/
def State.homeMirw (s : State) (h line a : Nat) (bytes : LineData) (mask : BitVec 128) (wts : Nat) : State :=
  let later := s.updDie h fun x => { x with fillWait := x.fillWait ++ [.mirw (dieId h) line (agent a) bytes mask wts] }
  if (s.die h).fillWait.any (mirwBefore line a wts) || s.pending.any (mirwBefore line a wts) then later
  else match s.homeMirror h line a bytes mask wts with
  | some s1 =>
    let s2 := s1.sendMsg h a (.mack (agent a) line wts)
    if (s2.die h).fillWait.isEmpty then s2 else s2.wakeFills
  | none => later

/-- The seam's held messages go out in order once its wake, or its retraining, is complete (R137). -/
def State.seamUp (s : State) (a b from_ : Nat) : State :=
  let m := s.seams.get {} (seamKey a b)
  if m.lstate.val ≠ from_ then s else { s with seams := s.seams.put (seamKey a b) { m with lstate := 0, held := [] }, pending := s.pending ++ m.held }

/-- A sleeping seam starts to wake (R137). -/
def State.seamWaking (s : State) (a b : Nat) : State :=
  let m := s.seams.get {} (seamKey a b)
  if m.lstate = 1 then
    { s with seams := s.seams.put (seamKey a b) { m with lstate := 2 } }.send (.seamWakeDone (dieId (min a b)) (dieId (max a b)))
  else s

/-- The effect of a die-scope message. -/
def State.runMsg (s : State) (i : Instr) : State :=
  match i with
  | .gets h l a => s.homeRequest h.val .gets l a.val
  | .getm h l a => s.homeRequest h.val .getm l a.val
  | .upgm h l a => s.homeRequest h.val .upgm l a.val
  | .fwds h o l a => s.agentFwds h.val o.val l a.val
  | .fwdm h o l a => s.agentFwdm h.val o.val l a.val
  | .data a l k b w t f => s.agentData a.val l k b w t f
  | .gnt a l t f => s.agentGnt a.val l t f
  | .inv h a l => s.agentInv h.val a.val l
  | .invack h l a t => s.homeInvack h.val l a.val t
  | .binv h a l => s.agentBinv h.val a.val l
  | .back h l a t => s.homeBack h.val l a.val t
  | .mirw h l a b m w => s.homeMirw h.val l a.val b m w
  | .mack a l w => s.agentMack a.val l w
  | .evc h l a t => s.homeEvc h.val l a.val t
  | .homeQueueStart h l => s.homeStart h.val l
  | .victimBufferFree h => s.insertStart h.val
  | .l2FillResume d =>
    let x := s.die d.val
    { s.setDie d.val { x with fillWait := [] } with pending := s.pending ++ x.fillWait }
  | .seamWake a b => s.seamWaking a.val b.val
  | .seamWakeDone a b => s.seamUp a.val b.val 2
  | .seamRetrainComplete a b => s.seamUp a.val b.val 3
  | _ => s

/-! ### Requests of cores at a slice (R119-R121) -/

/-- What an access to a line at a slice finds: the line, with the state that holds it; a read that fails (R75); or nothing yet, since the
line is not at rest under another VMID or no way is eligible (R73, R164). -/
inductive Opened where
  | line (l : SliceLine) (s : State) | failed (s : State) | rest | noWay (s : State)

/-- Put a line that die `d` does not hold into its L2, with the bytes its home holds. -/
def State.openFill (s : State) (d line : Nat) (k : LineKind) (vmid t : Nat) : Opened :=
  let (s1, bad) := s.homeCheck line
  if bad then .failed s1
  else
    let l : SliceLine := { line := line, kind := k, vmid := vmid, st := .I, wts := t, rts := t, dirty := false,
                           data := s1.homeData line vmid }
    match s1.fill d l with
    | some s2 => .line l s2
    | none => .noWay s1

/-- An accumulator line at its home slice, filled from memory where it is not held (R73, R134, R167). (DESIGN CHOICE, log 66) -/
def State.accOpen (s : State) (line vmid : Nat) : Opened :=
  if s.mustWait line vmid then .rest
  else
    let h := s.homeOf line
    let (s1, bad) := (s.claim line vmid).l2Error h line
    if bad then .failed s1
    else match (s1.die h).find? line .acc with
      | some l => .line l s1
      | none => s1.openFill h line .acc vmid ((s1.die h).mtsOf line)

/-- A read of an accumulator line at the time P, placed at its home slice (R134, R150). -/
def State.readAcc (s : State) (line vmid p : Nat) : Opened :=
  match s.accOpen line vmid with
  | .line l s1 =>
    let l1 := { l with rts := max l.rts p }
    .line l1 (s1.updDie (s1.homeOf line) fun x => x.putLine l1)
  | o => o

/-- A line of a resolved frame at die `d`: an untracked copy (R108, R133). (DEDUCED, log 18) -/
def State.viewOpen (s : State) (d line vmid : Nat) : Opened :=
  if s.mustWait line vmid then .rest
  else
    let (s1, bad) := (s.claim line vmid).l2Error d line
    if bad then .failed s1
    else match (s1.die d).find? line .view with
      | some l => .line l (s1.updDie d fun x => x.putLine l)
      | none => s1.openFill d line .view vmid 0

/-- LDREQ at the slice of the core's die (R120); a line of a resolved frame is an untracked copy (R133); an accumulator
line is read at its home slice and installed nowhere (R134). A key that has gone since the walk refuses the access (R71), and a
prefetch that would have to wait for a way is dropped (R176). -/
def State.sliceLoad (s : State) (m : LdReqMsg) : State :=
  let d := dieOf m.core
  if s.homeLost m.line then s.send (loadError m 0x0B)
  else if s.keyMissing m.line m.vmid then (if m.op.isNone then s else s.countDeny (s.homeOf m.line) m.vmid).send (loadError m 0x06)
  else if m.acc || m.view then
    match (if m.acc then s.readAcc m.line m.vmid m.p else s.viewOpen d m.line m.vmid) with
    | .line l s1 =>
      let reply : LdReply := { req := m, data := l.data, wts := l.wts, rts := l.rts, error := none }
      if m.acc then s1.sendMsg (s1.homeOf m.line) d (.lddata reply) else s1.send (.lddata reply)
    | .failed s1 => s1.send (loadError m 0x0C)
    | .rest => s.send (.ldreq m)
    | .noWay s1 => if m.op.isNone then s1.send (loadError m 0x0C) else s1.updDie d fun x => { x with fillWait := x.fillWait ++ [.ldreq m] }
  else if s.mustWait m.line m.vmid then s.send (.ldreq m)
  else
    let (s1, bad) := (s.claim m.line m.vmid).readCheck d m.line
    let wait := (s1.updDie d fun x => { x with waitLd := x.waitLd ++ [m] }).request d m.line m.vmid false
    if bad then s1.send (loadError m 0x0C)
    else match (s1.die d).copy? m.line with
      | some l => if readable l.st then s1.answerLoad d l m else wait
      | none => wait

/-- STREQ at the slice of the core's die (R121). The home may still refuse the access (R418). -/
def State.sliceStore (s : State) (m : StReqMsg) : State :=
  let d := dieOf m.core
  if s.homeLost m.line then s.send (.homeRefusal m 0x0B)
  else if s.keyMissing m.line m.vmid then (s.countDeny (s.homeOf m.line) m.vmid).send (.homeRefusal m 0x06)
  else if s.mustWait m.line m.vmid then s.send (.streq m)
  else
    let (s1, bad) := (s.claim m.line m.vmid).readCheck d m.line
    let wait := (s1.updDie d fun x => { x with waitSt := x.waitSt ++ [m] }).request d m.line m.vmid true
    if bad then s1.send (storeError m 0x0C)
    else match (s1.die d).copy? m.line with
      | some l => if writable l.st then s1.performStore d l m else wait
      | none => wait

/-! ### Accesses that an agent of the device makes whole

The walks, the counters, the engines, the scheduler and the fault-ring writers read and write coherently: the die obtains
the line under the protocol above, running the messages that stand before it, and then acts at its slice. -/

/-- The die may read, or write, the line under the VMID. -/
def State.hasPerm (s : State) (d line vmid : Nat) (write : Bool) : Bool :=
  match (s.die d).copy? line with
  | some l => l.vmid == vmid && (if write then writable l.st else readable l.st)
  | none => false

/-- The die-scope message that is due first takes effect. -/
def State.runFirst? (s : State) : Option State :=
  match indexWhere dieScope s.pending with
  | none => none
  | some i => (s.pending[i]?).map fun m => ({ s with pending := dropAt s.pending i } : State).runMsg m

/-- Run the protocol until the die has the permission. (DESIGN CHOICE, log 24) -/
def State.obtain (s : State) (d line vmid : Nat) (write : Bool) : Nat → Option State
  | 0 => none
  | fuel + 1 =>
    if s.hasPerm d line vmid write then some s
    else
      let other := match s.lineVmid? line with
        | some v => v != vmid && s.encrypted line
        | none => false
      -- a line busy under another VMID first comes to rest (R73)
      let s1 := if other && !s.quiet line then s else (s.claim line vmid).request d line vmid write
      match s1.runFirst? with
      | none => none
      | some s2 => State.obtain s2 d line vmid write fuel

/-- Run the protocol until a write that waits for its acknowledgement has it (R128, R136). -/
def State.settle (s : State) (d line wts : Nat) : Nat → State
  | 0 => s
  | fuel + 1 =>
    if (s.die d).mirWait.any fun w => w.line == line && w.wts == wts then
      match s.runFirst? with
      | none => s
      | some s1 => State.settle s1 d line wts fuel
    else s

def obtainFuel : Nat := 4096

/-- Read `n` bytes that lie in one line, at die `d` under a VMID and at logical time `p`: the value, its wts, and the state
in which the line's lease covers the read. A line of an accumulator frame is read at its home slice (R134). Where the read fails
(`readBad`), the state holds what the error has done. -/
def State.readIn (s : State) (d pa n vmid p : Nat) : Nat × Nat × State :=
  let line := lineOf pa
  let off := canonPA pa % 128
  let stale := fun (s : State) => (lineField (s.homeData line vmid) off n, 0, s)
  if (s.attrOf pa).acc then match s.readAcc line vmid p with
    | .line l s1 => (lineField l.data off n, l.wts, s1)
    | .failed s1 | .noWay s1 => stale s1
    | .rest => stale s
  else
    let (s0, bad) := s.readCheck d line
    if bad then stale s0
    else match s0.obtain d line vmid false obtainFuel with
      | some s1 => match (s1.die d).copy? line with
        | some l =>
          let l1 := leased (s1.lease d) p l
          (lineField l1.data off n, l1.wts, s1.updDie d fun x => x.putLine l1)
        | none => stale s1
      | none => stale s0

/-- Read `n` bytes of a retained frame's line at die `d`: an untracked copy, which takes no place in the order (R108, R133). -/
def State.viewIn (s : State) (d pa n vmid : Nat) : Nat × State :=
  let line := lineOf pa
  let field := fun (x : LineData) => lineField x (canonPA pa % 128) n
  match s.viewOpen d line vmid with
  | .line l s1 => (field l.data, s1)
  | .failed s1 | .noWay s1 => (field (s1.homeData line vmid), s1)
  | .rest => (field (s.homeData line vmid), s)

/-- A read-modify-write of `n` bytes in one line, whole: the old value, the wts, and the state after (R121, R128). Where the line's
bytes cannot be read (`readBad`), nothing is written. -/
def State.rmwIn (s : State) (d pa n vmid p : Nat) (f : Nat → Nat) : Nat × Nat × State :=
  let line := lineOf pa
  let off := canonPA pa % 128
  let (s0, bad) := s.readCheck d line
  if bad then (0, 0, s0)
  else match s0.obtain d line vmid true obtainFuel with
    | some s1 => match (s1.die d).copy? line with
      | some l =>
        let wts := max p (l.rts + 1)
        let old := lineField l.data off n
        (old, wts, (s1.writeAt d l off n (f old) wts none).settle d line wts obtainFuel)
      | none => (0, 0, s1)
    | none =>
      -- no permission could be had: the line leaves every L2 and memory is written
      let s1 := s0.dropLine line false
      let x := s1.fetchLine line vmid
      let h := s1.homeOf line
      let t := (s1.die h).mtsOf line + 1
      let old := lineField x off n
      (old, t, (s1.storeLine line vmid (setLineField x off n (f old))).updDie h fun y => y.raiseMts line t)

/-- Read `n` 8-byte words from an 8-byte-aligned address; the answer also holds the largest wts. -/
def State.readWords (s : State) (d pa vmid p : Nat) : Nat → List Word × Nat × State
  | 0 => ([], 0, s)
  | n + 1 =>
    let (x, w, s1) := s.readIn d pa 8 vmid p
    let (rest, w', s2) := State.readWords s1 d (pa + 8) vmid p n
    (BitVec.ofNat 64 x :: rest, max w w', s2)

/-- Write 8-byte words from an 8-byte-aligned address, each after the one before it in the global order. -/
def State.writeWords (s : State) (d pa vmid : Nat) : List Word → State
  | [] => s
  | x :: rest =>
    let (_, t, s1) := s.rmwIn d pa 8 vmid s.clock fun _ => x.toNat
    State.writeWords (s1.tick t) d (pa + 8) vmid rest

/-! ### The messages of the table -/

def execGets (home : Die) (line : Nat) (a : Agent) (s : State) : Out := .next (s.runMsg (.gets home line a))
def execGetm (home : Die) (line : Nat) (a : Agent) (s : State) : Out := .next (s.runMsg (.getm home line a))
def execUpgm (home : Die) (line : Nat) (a : Agent) (s : State) : Out := .next (s.runMsg (.upgm home line a))
def execFwds (home : Die) (o : Agent) (line : Nat) (a : Agent) (s : State) : Out := .next (s.runMsg (.fwds home o line a))
def execFwdm (home : Die) (o : Agent) (line : Nat) (a : Agent) (s : State) : Out := .next (s.runMsg (.fwdm home o line a))
def execData (a : Agent) (line : Nat) (kind : DataKind) (bytes : LineData) (wts hts : Nat) (fromOwner : Bool)
    (s : State) : Out := .next (s.runMsg (.data a line kind bytes wts hts fromOwner))
def execGnt (a : Agent) (line hts : Nat) (forwarded : Bool) (s : State) : Out := .next (s.runMsg (.gnt a line hts forwarded))
def execInv (home : Die) (a : Agent) (line : Nat) (s : State) : Out := .next (s.runMsg (.inv home a line))
def execInvack (home : Die) (line : Nat) (a : Agent) (h : Nat) (s : State) : Out := .next (s.runMsg (.invack home line a h))
def execBinv (home : Die) (a : Agent) (line : Nat) (s : State) : Out := .next (s.runMsg (.binv home a line))
def execBack (home : Die) (line : Nat) (a : Agent) (h : Nat) (s : State) : Out := .next (s.runMsg (.back home line a h))
def execMirw (home : Die) (line : Nat) (a : Agent) (bytes : LineData) (mask : BitVec 128) (wts : Nat) (s : State) : Out :=
  .next (s.runMsg (.mirw home line a bytes mask wts))
def execMack (a : Agent) (line wts : Nat) (s : State) : Out := .next (s.runMsg (.mack a line wts))
def execEvc (home : Die) (line : Nat) (a : Agent) (h : Nat) (s : State) : Out := .next (s.runMsg (.evc home line a h))
def execHomeQueueStart (home : Die) (line : Nat) (s : State) : Out := .next (s.runMsg (.homeQueueStart home line))
def execVictimBufferFree (home : Die) (s : State) : Out := .next (s.runMsg (.victimBufferFree home))
def execL2FillResume (die : Die) (s : State) : Out := .next (s.runMsg (.l2FillResume die))
def execLdreq (m : LdReqMsg) (s : State) : Out := .next (s.sliceLoad m)
def execStreq (m : StReqMsg) (s : State) : Out := .next (s.sliceStore m)

end Sys2Proof.Machine
end

