-- ==== Sys2Proof/Machine/Translate.lean ====
section
/-! DEFINITION. Translation (03 R77-R98) and versions at the walk (04 R99-R110): canonical addresses, the on-chip window,
the five levels, the checks in the order of R87, Resolve and StoreVersion. -/
namespace Sys2Proof.Machine

/-! ### Causes (R405) -/

def cILLEGAL : Nat := 0x01
def cPRIV : Nat := 0x02
def cALIGN : Nat := 0x03
def cNONCANON : Nat := 0x04
def cNOTPRESENT : Nat := 0x05
def cPERM : Nat := 0x06
def cPEER : Nat := 0x07
def cFETCH : Nat := 0x08
def cVERS_RECLAIMED : Nat := 0x09
def cVERS_UNPUBLISHED : Nat := 0x0A
def cHOME_LOST : Nat := 0x0B
def cDATA_ERROR : Nat := 0x0C
def cCOUNTER_OVF : Nat := 0x0D
def cQUEUE : Nat := 0x0E
def cLOGFULL : Nat := 0x0F
def cCOW : Nat := 0x20
def cMIG : Nat := 0x21

/-! ### Effective addresses (R77, R78) -/

/-- Each byte of an access of n bytes at the exact address `ea` lies in one canonical half (R77). -/
def canonRange (ea : Int) (n : Nat) : Bool :=
  let last := ea + n - 1
  (decide (0 ≤ ea) && decide (last < 2 ^ 56)) ||
  (decide (0xFF00_0000_0000_0000 ≤ ea) && decide (last < 2 ^ 64))

def onChipLo : Nat := 0xFFFF_FD00_0000_0000
def onChipLocal : Nat := 0xFFFF_FE00_0000_0000
/-- The on-chip window (R78). -/
def onChip (va : Nat) : Bool := 0xFFFF_FD00_0000_0000 ≤ va && va < 0xFFFF_FF00_0000_0000

/-- An address as 64 bits. -/
def addr64 (ea : Int) : Word := BitVec.ofInt 64 ea

/-! ### Access kinds and what a walk answers -/

/-- The kinds of access that a walk checks (R86). `stack` is a spill or fill (R209). -/
inductive Acc where
  | load | store | atomic | counter | reduction | accWrite | accRead | fetch | prefetch | engRead | engWrite | stack (write : Bool)
deriving DecidableEq, Repr

def Acc.writes : Acc → Bool
  | .store | .atomic | .counter | .reduction | .accWrite | .engWrite => true
  | .stack w => w
  | _ => false

/-- Who walks: the die, the VMID and ASID, handler mode and its privilege, the write version, and the view with its value
(none for the current frame). A role's walk has its core, whose pts places the reads of a resolution (R159). -/
structure Walker where
  die : Nat
  vmid : Nat
  asid : Nat
  handler : Bool
  wver : Nat
  view : Option Nat
  engine : Bool := false
  core : Option Nat := none
deriving DecidableEq, Repr

/-- A leaf as the walk found it. -/
structure Leaf where
  w0 : Word
  w1 : Word
  shift : Nat
  addr : Nat
deriving DecidableEq, Repr

/-- What a walk that passes gives the access. `retained` is the version of a frame that a view resolved to (R106). -/
structure Reach where
  pa : Nat
  leaf : Leaf
  perm : FillPerm
  retained : Option Nat
  acc : Bool
deriving DecidableEq, Repr

inductive WalkRes where
  | ok (r : Reach)
  | fault (cause : Nat)
  | mig (leaf : Leaf)                      -- the page is being migrated or copied (R84)
  | cow (leaf : Leaf) (pa : Nat)           -- the store needs a copy (R109)
deriving DecidableEq, Repr

def wbit (w : Word) (i : Nat) : Bool := w.getLsbD i
/-- Bits [lo + n − 1:lo] of a word as a number. -/
def wfield (w : Word) (lo n : Nat) : Nat := w.toNat / 2 ^ lo % 2 ^ n

def Leaf.frame (l : Leaf) : Nat := wfield l.w0 16 36
def Leaf.ver (l : Leaf) : Nat := wfield l.w1 0 32
def Leaf.chain (l : Leaf) : Nat := wfield l.w1 32 32
def Leaf.vers (l : Leaf) : Bool := wbit l.w0 9
def Leaf.accPage (l : Leaf) : Bool := wbit l.w0 8

/-- Why the bytes at an address cannot be read at die `d`: their home is lost (R140), or the read fails (R75, R76). (DEDUCED, log 17) -/
def State.readStop? (s : State) (d pa : Nat) : Option Nat :=
  if s.homeLost (lineOf pa) then some cHOME_LOST else if s.readBad d (lineOf pa) then some cDATA_ERROR else none

/-- One 16-byte read of a table, under VMID 0's key, at the time P: the words and their wts, or the cause (R85, R103). -/
def State.readPair (s : State) (d pa p : Nat) : Except Nat (Word × Word × Nat) × State :=
  let (x, t, s1) := s.readIn d pa 16 0 p
  match s.readStop? d pa with
  | some c => (.error c, s1)
  | none => (.ok (BitVec.ofNat 64 x, BitVec.ofNat 64 (x / 2 ^ 64), t), s1)

/-- What a leaf entry of level k makes of the walk (R84 Table 4). -/
def leafOutcome (k : Nat) (w0 w1 : Word) : Option Nat :=
  let frame := wfield w0 16 36
  if k < 2 then some cNOTPRESENT
  else if wbit w0 10 then some cPEER
  else if wfield w0 52 4 != 0 || wfield w0 12 4 != 0 || wfield w0 2 2 != 0 then some cNOTPRESENT
  else if (k == 2 && frame % 2 ^ 14 != 0) || (k == 3 && frame % 2 ^ 5 != 0) then some cNOTPRESENT
  else if k < 4 && (wbit w0 8 || wbit w0 9) then some cNOTPRESENT
  else if (wbit w0 8 && wbit w0 9) || (wbit w0 8 && wbit w0 6) then some cNOTPRESENT
  else if !(wbit w0 9) && w1 != 0 then some cNOTPRESENT
  else if regionOf (frame * 2 ^ 16) == .reserved then some cNOTPRESENT
  else none

/-- The shift and the index width of a level (R81). -/
def levelShift : Nat → Nat
  | 0 => 48 | 1 => 39 | 2 => 30 | 3 => 21 | _ => 16
def levelBits (k : Nat) : Nat := if k = 4 then 5 else 9

/-- An entry stays with the die's translation units, which hold 16,384 of them (R89, R90). -/
def State.keepEntry (s : State) (d : Nat) (t : TlbEntry) : State :=
  s.updDie d fun x => if x.tlb.contains t then x else { x with tlb := t :: x.tlb.take 16383 }

/-- The table entry of a level as a walk uses it: the one in the table, or a kept one that the table no longer holds, by a free value
(R90). -/
def State.useEntry (s : State) (d vmid asid va k : Nat) (w : Word × Word) : (Word × Word) × State :=
  let sh := levelShift k
  match (s.die d).tlb.find? fun t => t.vmid == vmid && t.asid == asid && t.shift == sh && t.va == va % 2 ^ 57 / 2 ^ sh && !(t.w0.getLsbD 1) with
  | none => (w, s)
  | some t =>
    if (t.w0, t.w1) == w then (w, s)
    else
      let (v, s1) := s.fresh
      if v.getLsbD 0 then ((t.w0, t.w1), s1) else (w, s1.updDie d fun x => { x with tlb := x.tlb.filter fun u => u != t })

/-- The walk from level k (R81-R84) at the time P; `n` levels are left. With it comes the leaf's wts. -/
def State.walkFrom (s : State) (d vmid asid va p table : Nat) : Nat → Nat → (WalkRes ⊕ (Leaf × Nat)) × State
  | 0, _ => (.inl (.fault cNOTPRESENT), s)
  | n + 1, k =>
    let ea := table + 16 * (va / 2 ^ levelShift k % 2 ^ levelBits k)
    match s.readPair d ea p with
    | (.error c, s0) => (.inl (.fault c), s0)
    | (.ok (x0, x1, t), s0) =>
      let ((w0, w1), s1) := s0.useEntry d vmid asid va k (x0, x1)
      let leaf : Leaf := { w0 := w0, w1 := w1, shift := levelShift k, addr := ea }
      if !(wbit w0 0) then
        if wbit w0 1 && k == 4 && wbit w0 11 then
          (.inl (if s1.migLost.contains ea then .fault cDATA_ERROR else .mig leaf), s1)
        else (.inl (.fault cNOTPRESENT), s1)
      else if wbit w0 1 then
        match leafOutcome k w0 w1 with
        | some c => (.inl (.fault c), s1)
        | none => (.inr (leaf, t), s1)
      else if k = 4 then (.inl (.fault cNOTPRESENT), s1)
      else
        let next := wfield w0 9 43 * 2 ^ 9
        if wfield w0 2 7 != 0 || wfield w0 52 4 != 0 || w1 != 0 || (k < 3 && next % 2 ^ 13 != 0) then
          (.inl (.fault cNOTPRESENT), s1)
        else
          let kept : TlbEntry := { vmid := vmid, asid := asid, va := va % 2 ^ 57 / 2 ^ levelShift k, shift := levelShift k, w0 := w0,
                                   w1 := w1, leafAddr := ea }
          State.walkFrom (s1.keepEntry d kept) d vmid asid va p next n (k + 1)

/-- The newest bytes of memory at a physical address, read under a VMID without taking a place in the order. -/
def State.peek (s : State) (pa n vmid : Nat) : Nat :=
  let line := lineOf pa
  let off := canonPA pa % 128
  if s.encrypted line && (match s.lineVmid? line with
      | some v => v != vmid
      | none => false) then lineField ((s.dropLine line true).fetchLine line vmid) off n
  else match (List.range 4).findSome? fun d => match (s.die d).copy? line with
    | some l => if writable l.st then some l.data else none
    | none => none with
  | some d => lineField d off n
  | none =>
    -- a line that no cache holds, stored under no key: its bytes as they stand in memory
    if ((s.die (s.homeOf line)).homeLine? line).isNone && (s.memKey.find line).isNone && !(isHostLine line) then
      readBytes s.mem (canonPA pa) n
    else lineField (s.homeData line vmid) off n

/-- The leaf that a walk from level k would find now; nothing is read on the way (R90). -/
def State.leafNow (s : State) (va vmid table : Nat) : Nat → Nat → Option Leaf
  | 0, _ => none
  | n + 1, k =>
    let ea := table + 16 * (va / 2 ^ levelShift k % 2 ^ levelBits k)
    let x := s.peek ea 16 vmid
    let leaf : Leaf := { w0 := BitVec.ofNat 64 x, w1 := BitVec.ofNat 64 (x / 2 ^ 64), shift := levelShift k, addr := ea }
    if !(wbit leaf.w0 0) then none
    else if wbit leaf.w0 1 then some leaf
    else if k = 4 then none
    else State.leafNow s va vmid (wfield leaf.w0 9 43 * 2 ^ 9) n (k + 1)

/-- The tables still lead to the leaf that an entry keeps. -/
def State.keptLeaf (s : State) (d va : Nat) (t : TlbEntry) : Bool :=
  let root := s.reg d (0x1000 + 8 * t.vmid)
  let x := s.peek (wfield root 20 32 * 2 ^ 20 + 16 * t.asid) 16 0
  wbit root 0 && x % 2 == 1 && (match s.leafNow va 0 (wfield (BitVec.ofNat 64 x) 13 39 * 2 ^ 13) 5 0 with
    | some l => l.w0 == t.w0 && l.w1 == t.w1 && l.shift == t.shift && l.addr == t.leafAddr
    | none => false)

/-- The root, the ASID table and the levels (R79-R84), read at the time P: the leaf with its wts. The leaf stays with the die's
translation units (R90), and the access bit of the frame that the address leads to is set (R95). -/
def State.leafWalk (s : State) (d vmid asid va p : Nat) : (WalkRes ⊕ (Leaf × Nat)) × State :=
  let root := s.reg d (0x1000 + 8 * vmid)
  if !(wbit root 0) then (.inl (.fault cNOTPRESENT), s)
  else match s.readPair d (wfield root 20 32 * 2 ^ 20 + 16 * asid) p with
    | (.error c, s1) => (.inl (.fault c), s1)
    | (.ok (w0, w1, _), s1) =>
      if !(wbit w0 0) || wfield w0 1 12 != 0 || wfield w0 52 12 != 0 || w1 != 0 then (.inl (.fault cNOTPRESENT), s1)
      else match s1.walkFrom d vmid asid va p (wfield w0 13 39 * 2 ^ 13) 5 0 with
        | (.inl r, s2) => (.inl r, s2)
        | (.inr (l, t), s2) =>
          let kept : TlbEntry := { vmid := vmid, asid := asid, va := va % 2 ^ 57 / 2 ^ l.shift, shift := l.shift, w0 := l.w0,
                                   w1 := l.w1, leafAddr := l.addr }
          (.inr (l, t), (s2.keepEntry d kept).touchFrame (l.frame * 2 ^ 16 + va % 2 ^ l.shift))

/-- The leaf of an address with the wts of its read: one that the die's translation units keep, or a walk's. Where software has changed
the tables since an entry was read, whether the old entry is used or the tables are read anew is a free value, until an invalidation
(R90). (DESIGN CHOICE, log 16) -/
def State.leafOf (s : State) (d vmid asid va p : Nat) : (WalkRes ⊕ (Leaf × Nat)) × State :=
  match (s.die d).tlb.find? fun t => t.vmid == vmid && t.asid == asid && t.w0.getLsbD 1 && t.va == va % 2 ^ 57 / 2 ^ t.shift with
  | some t =>
    let old : Leaf := { w0 := t.w0, w1 := t.w1, shift := t.shift, addr := t.leafAddr }
    if s.keptLeaf d va t then (.inr (old, 0), s)
    else
      let (v, s1) := s.fresh
      if v.getLsbD 0 then (.inr (old, 0), s1)
      else (s1.updDie d fun x => { x with tlb := x.tlb.filter fun u => u != t }).leafWalk d vmid asid va p
  | none => s.leafWalk d vmid asid va p

/-! ### Chain records and regions (R99-R103) -/

/-- A slot of a chain record. -/
structure ChainSlot where
  v : Bool
  frame : Nat
  ver : Nat
deriving DecidableEq, Repr

/-- A chain record and its region's descriptor as one walk reads them. -/
structure Chain where
  addr : Nat
  busy : Bool
  region : Nat
  leafAddr : Nat
  slots : List ChainSlot
  raddr : Nat
  pubv : Nat
  floor : Nat
  hen : Bool
  hold : Nat
deriving DecidableEq, Repr

/-- The effective floor of the region (R102). -/
def Chain.eff (c : Chain) : Nat :=
  let m := min c.floor c.pubv
  if c.hen then min m c.hold else m

/-- Where the record of a chain index stands, under the VMID's version tables (R99, R100). (DESIGN CHOICE, log 156) -/
def State.chainAddr? (s : State) (d vmid chain : Nat) : Option Nat :=
  let r0 := s.reg d (0x3000 + 16 * vmid)
  let r1 := s.reg d (0x3008 + 16 * vmid)
  if !(wbit r0 0) || chain ≥ 2 ^ (wfield r1 0 6) then none else some (wfield r1 12 40 * 2 ^ 12 + 64 * chain)

/-- A read that follows others whose answer may be an error. -/
def State.thenPair (s : State) (d pa p : Nat) (k : Word → Word → State → Nat → Except Nat Chain × Nat × State) : Except Nat Chain × Nat × State :=
  match s.readPair d pa p with
  | (.error c, s1) => (.error c, 0, s1)
  | (.ok (x, y, t), s1) => k x y s1 t

/-- The chain record at an address and its region descriptor, read at the time P, with the largest wts; NOTPRESENT where a reserved bit
is set, or the cause that a read meets (R103). -/
def State.readChainAt (s : State) (d vmid pa p : Nat) : Except Nat Chain × Nat × State :=
  s.thenPair d pa p fun a0 a1 s1 t1 => s1.thenPair d (pa + 16) p fun b0 b1 s2 t2 => s2.thenPair d (pa + 32) p fun c0 c1 s3 t3 =>
  s3.thenPair d (pa + 48) p fun d0 d1 s4 t4 =>
    let ra := wfield (s4.reg d (0x3000 + 16 * vmid)) 20 32 * 2 ^ 20 + 16 * wfield a0 0 16
    s4.thenPair d ra p fun g0 g1 s5 t5 =>
      let slotBad := fun (x y : Word) => wfield x 52 12 != 0 || wfield x 1 15 != 0 || wfield y 32 32 != 0
      let mk := fun (x y : Word) => ({ v := wbit x 0, frame := wfield x 16 36, ver := wfield y 0 32 } : ChainSlot)
      let t := max (max (max t1 t2) (max t3 t4)) t5
      if wfield a0 17 47 != 0 || wfield a1 52 12 != 0 || wfield a1 0 4 != 0 || slotBad b0 b1 || slotBad c0 c1 || slotBad d0 d1
          || wfield g1 33 31 != 0 then (.error cNOTPRESENT, t, s5)
      else (.ok { addr := pa, busy := wbit a0 16, region := wfield a0 0 16, leafAddr := wfield a1 4 48 * 16,
                  slots := [mk b0 b1, mk c0 c1, mk d0 d1], raddr := ra, pubv := wfield g0 0 32, floor := wfield g0 32 32,
                  hen := wbit g1 32, hold := wfield g1 0 32 }, t, s5)

/-- The chain record as the snapshot engine of die `d` reads it, at its own pts (R117); none where it cannot be used. -/
def State.readChain (s : State) (d vmid pa : Nat) : Option Chain × State :=
  match s.readChainAt d vmid pa (s.die d).snapPts with
  | (.ok c, t, s1) => (some c, s1.tickSnap d t)
  | (.error _, _, s1) => (none, s1)

/-- Resolve (R106): the frame and version that a view value names, or the cause. -/
def resolve (l : Leaf) (c : Chain) (v : Nat) : Except Nat (Nat × Nat) :=
  if c.pubv < v then .error cVERS_UNPUBLISHED
  else if l.ver ≤ v then .ok (l.frame, l.ver)
  else
    let best := c.slots.foldl (fun b k =>
      if k.v && k.ver ≤ v && (match b with
          | none => true
          | some q => decide (q.2 < k.ver)) then some (k.frame, k.ver) else b) none
    match best with
    | none => .error cVERS_RECLAIMED
    | some b => .ok b

/-- StoreVersion (R109): some true writes the current frame, some false needs a copy, none raises PERM. -/
def storeVersion (l : Leaf) (c : Chain) (w : Nat) : Option Bool :=
  if w < l.ver || w ≤ c.pubv then none else some (w == l.ver)

/-! ### The checks (R86, R87) -/

/-- R86 Table 6, with the rules for spills (R209) and accumulator writes (R334, R335): the cause of a leaf that the access
may not use. -/
def permCheck (l : Leaf) (a : Acc) (handler engine : Bool) : Option Nat :=
  let r := wbit l.w0 4
  let w := wbit l.w0 5
  if wbit l.w0 7 && !handler && !engine then some cPERM
  else
    let ok := match a with
      | .load | .prefetch | .engRead => r
      | .store | .engWrite => w && !l.accPage
      | .atomic => r && w && !l.accPage
      | .counter => r && w && !l.accPage && !l.vers
      | .reduction | .accWrite => w && l.accPage
      | .accRead => r && l.accPage
      | .fetch => true
      | .stack wr => !l.accPage && !l.vers && (if wr then w else r)
    if !ok then some cPERM
    else if a == .fetch && !(wbit l.w0 6) then some cFETCH
    else none

/-- R67 Table 5 but for RETIRED: the frame's attribute byte against the entry. -/
def attrCheck (l : Leaf) (pa : Nat) (at_ : Attr) (writes : Bool) : Bool :=
  if l.accPage || l.vers then
    (!l.accPage || at_.acc) && (!l.vers || at_.vers) && (at_.inter == interleaved pa || regionOf pa == .cap)
  else !(writes && (at_.acc || at_.vers))

/-- The physical address that a leaf gives (R84). -/
def Leaf.phys (l : Leaf) (va : Nat) : Nat := l.frame * 2 ^ 16 + va % 2 ^ l.shift

/-- PERM under R67 and R71; a refusal at another die's home is counted there (R418). (DEDUCED, log 19) -/
def State.homeChecks (s : State) (d vmid : Nat) (l : Leaf) (pa : Nat) (writes : Bool) : Bool × State :=
  let line := lineOf pa
  if regionOf pa == .window then (true, s)
  else
    let ok := attrCheck l pa (s.attrOf pa) writes && !(s.keyMissing line vmid)
    (ok, if ok || s.homeOf line = d then s else s.countDeny (s.homeOf line) vmid)

/-- The frame that a view resolved to, checked as the leaf's own frame is: it exists, its home is alive, the key is loaded, and it is not
RETIRED (R56, R71, R87, R140). -/
def State.retainedCause (s : State) (d vmid pa : Nat) : Option Nat × State :=
  let line := lineOf pa
  if regionOf pa == .reserved then (some cNOTPRESENT, s)
  else if s.homeLost line then (some cHOME_LOST, s)
  else if s.keyMissing line vmid then (some cPERM, if s.homeOf line = d then s else s.countDeny (s.homeOf line) vmid)
  else if (s.attrOf pa).retired then (some cDATA_ERROR, s)
  else (none, s)

/-- The time at which a walker's resolution reads (R159). -/
def State.walkTime (s : State) (w : Walker) : Nat := match w.core, w.view with
  | some c, some _ => (s.core c).pts
  | _, _ => 0

/-- A resolution's reads have returned: the role's core stands at or above their wts (R108, R159). -/
def State.placeWalk (s : State) (w : Walker) (t : Nat) : State := match w.core, w.view with
  | some c, some _ => s.raisePts c t
  | _, _ => s

/-- The whole walk of an access at a canonical address that is not in the on-chip window (R87). A line of an accumulator frame is an
accumulator line through either alias (R163, R167). (DESIGN CHOICE, log 20) (DESIGN CHOICE, log 152) (DESIGN CHOICE, log 153) -/
def State.walk (s : State) (w : Walker) (a : Acc) (va : Nat) : WalkRes × State :=
  let p := s.walkTime w
  match s.leafOf w.die w.vmid w.asid va p with
  | (.inl r, s1) => (r, s1)
  | (.inr (l, tl), s1) =>
    -- the version tables belong to the walk (R99, R100, R103)
    let needChain := l.vers && (a.writes || w.view.isSome)
    let chain : Except Nat (Option Chain) × State :=
      if !l.vers then (.ok none, s1)
      else match s1.chainAddr? w.die w.vmid l.chain with
        | none => (.error cNOTPRESENT, s1)
        | some ca =>
          if needChain then match s1.readChainAt w.die w.vmid ca p with
            | (.ok c, t, s2) => (.ok (some c), s2.placeWalk w (max tl t))
            | (.error e, t, s2) => (.error e, s2.placeWalk w (max tl t))
          else (.ok none, s1)
    match chain with
    | (.error e, s2) => (.fault e, s2)
    | (.ok ch, s2) =>
      match permCheck l a w.handler w.engine with
      | some c => (.fault c, s2)
      | none =>
        let pa := l.phys va
        if s2.homeLost (lineOf pa) then (.fault cHOME_LOST, s2)
        else
          let (ok, s3) := s2.homeChecks w.die w.vmid l pa a.writes
          if !ok then (.fault cPERM, s3)
          else
            let perm : FillPerm := { r := wbit l.w0 4, w := wbit l.w0 5, priv := wbit l.w0 7, vers := l.vers, ver := l.ver }
            let here : WalkRes := .ok { pa := pa, leaf := l, perm := perm, retained := none, acc := l.accPage || (s3.attrOf pa).acc }
            match ch, w.view with
            | some c, some v =>
              match resolve l c v with
              | .error e => (.fault e, s3)
              | .ok (frame, ver) =>
                let pa' := frame * 2 ^ 16 + va % 2 ^ 16
                match s3.retainedCause w.die w.vmid pa' with
                | (some e, s4) => (.fault e, s4)
                | (none, s4) => (.ok { pa := pa', leaf := l, perm := perm, retained := some ver, acc := false }, s4)
            | _, _ =>
              if (s3.attrOf pa).retired then (.fault cDATA_ERROR, s3)
              else match ch with
                | some c =>
                  if !a.writes then (here, s3)
                  else match storeVersion l c w.wver with
                    | none => (.fault cPERM, s3)
                    | some true => (here, s3)
                    | some false => (.cow l pa, s3)
                | none => (here, s3)

/-- The walker of a role's own accesses. -/
def Role.walker (r : Role) (view : Option Nat) : Walker :=
  { die := dieOf r.core, vmid := r.vmid, asid := r.asid, handler := r.handler, wver := r.wver, view := view, core := some r.core }

end Sys2Proof.Machine
end

