-- ==== Sys2Proof/Machine/Trap.lean ====
section
/-! DEFINITION. Faults (20 R405-R428, R467, R473): the fault ring and its records, how each cause is handled, pending traps,
the side log's bookkeeping, and how roles and gangs end. -/
namespace Sys2Proof.Machine

/-! ### Where a core and a role stand -/

def coreNumber (core : Nat) : Nat := core % 48
def clusterNumber (core : Nat) : Nat := core / 48 % 4

/-- The roles of a gang, and those that have not ended. -/
def State.rolesOf (s : State) (g : Nat) : List (Nat × Role) := s.roles.filter fun p => p.2.gang == g

/-! ### The fault ring (R410, R411, R442) -/

/-- What a record holds beside its place (R411 Table 4). -/
structure FaultRec where
  addr : Word
  pc : Word
  rpc : Word := 0
  entry : Nat := 0
  kind : Nat
  wr : Bool := false
  dmask : Option LaneMask := none
  cause : Nat
deriving DecidableEq, Repr

def ringBase (s : State) (d : Nat) : Nat := s.regField d 0x6000 12 40 * 2 ^ 12
def ringSizeLog (s : State) (d : Nat) : Nat := s.regField d 0x6000 0 5
def ringProd (s : State) (d : Nat) : Nat := s.regField d 0x6008 32 32
def ringCons (s : State) (d : Nat) : Nat := s.regField d 0x6008 0 32
/-- The address of a record of a die's ring. -/
def recordAddr (s : State) (d idx : Nat) : Nat := ringBase s d + 256 * idx

/-- The record a ring slot holds: its word at 0x20 and its STATE word. -/
def State.recordState (s : State) (d idx : Nat) : Word × Word :=
  let pa := recordAddr s d idx + 0x20
  let x := lineField (s.homeData (lineOf pa) 0) (canonPA pa % 128) 16
  (BitVec.ofNat 64 x, BitVec.ofNat 64 (x / 2 ^ 64))

/-- A record of KIND 0 or 1 that no verdict has resolved keeps its slot (R442). -/
def State.slotKept (s : State) (d idx : Nat) : Bool :=
  let (w, st) := s.recordState d idx
  wbit st 0 && !(wbit st 1) && wfield w 10 2 < 2

/-- The ring has a place for a record (R410). -/
def State.ringRoom (s : State) (d : Nat) : Bool :=
  let n := ringSizeLog s d
  4 ≤ n && n ≤ 16 && (ringProd s d + 2 ^ 32 - ringCons s d) % 2 ^ 32 < 2 ^ n && !s.slotKept d (ringProd s d % 2 ^ n)

/-- Write a record to the ring of the die that holds the role's core, STATE last (R411): the record's die and index. -/
def State.writeRecord (s : State) (r : Role) (f : FaultRec) : Option (Nat × Nat × State) :=
  let d := dieOf r.core
  if !s.ringRoom d then none
  else
    let idx := ringProd s d % 2 ^ ringSizeLog s d
    let pa := recordAddr s d idx
    let w20 : Nat := f.cause % 256 + (if f.dmask.isSome then 2 ^ 8 else 0) + (if f.wr then 2 ^ 9 else 0) + f.kind * 2 ^ 10
      + r.vmid % 16 * 2 ^ 12 + r.asid % 2 ^ 16 * 2 ^ 16 + d * 2 ^ 32 + clusterNumber r.core * 2 ^ 34
      + coreNumber r.core * 2 ^ 36 + r.slot % 8 * 2 ^ 42 + f.entry % 64 * 2 ^ 45
    let mask := f.dmask.getD 0
    let dm := (List.range 16).map fun i => mask.extractLsb' (64 * i) 64
    let s1 := s.writeWords d pa 0
      [f.addr, f.pc, f.rpc, BitVec.ofNat 64 (r.grid % 2 ^ 32 * 2 ^ 32 + r.gang % 2 ^ 32), BitVec.ofNat 64 w20]
    let s2 := s1.writeWords d (pa + 0x30) 0 ([0, 0] ++ dm ++ [0, 0, 0, 0, 0, 0, 0, 0])
    let s3 := s2.writeWords d (pa + 0x28) 0 [1]
    let empty := ringProd s d == ringCons s d
    let s4 := s3.setRegField d 0x6008 32 32 (ringProd s d + 1)
    some (d, idx, if empty then s4.signal (.faultRing d) else s4)

/-- A verdict marks its record (R443). -/
def State.markDone (s : State) (d idx : Nat) : State := s.writeWords d (recordAddr s d idx + 0x28) 0 [3]

/-! ### The side log's bookkeeping (R413, R414, R417) -/

/-- The entries of a role, in log order. -/
def Core.entriesOf (k : Core) (rid : Nat) : List LogEntry := k.log.filter fun e => e.rid == rid
/-- A store of the role has been lost and the role has still to stop: its later stores never become visible (R158, R416). -/
def Role.doomed (r : Role) : Bool := !r.handler && r.pend.any (·.final)
/-- The side-log window of a role is open while it has an entry (R157), and until the trap for a lost store is taken (R158). -/
def State.windowOpen (s : State) (rid : Nat) (r : Role) : Bool := !((s.core r.core).entriesOf rid).isEmpty || r.doomed
/-- The entries of a role that were queued behind a lost store go (R158). (DEDUCED, log 35) -/
def State.dropLost (s : State) (rid : Nat) (r : Role) : State :=
  if (s.core r.core).log.any fun e => e.rid == rid && e.state == .lost then
    s.updCore r.core fun k => { k with log := k.log.filter fun e => !(e.rid == rid && e.state == .lost) }
  else s

/-- The 256-byte units of data that an entry takes (R413). -/
def LogBody.units : LogBody → Nat
  | .elems ty _ xs => (ty.bytes * xs.length + 255) / 256
  | .reds _ _ _ xs => (12 * xs.length + 255) / 256
  | .updates _ _ => 8
  | .accWrite _ _ _ => 0

def Core.logUnits (k : Core) : Nat := k.log.foldl (fun a e => a + e.body.units) 0
/-- The log has room for an entry of a body (R414). -/
def Core.logRoom (k : Core) (b : LogBody) : Bool := k.log.length < 64 && k.logUnits + b.units ≤ 128
/-- The lowest free entry index. -/
def Core.freeEntry (k : Core) : Nat := ((List.range 64).find? fun i => !(k.log.any fun e => e.id == i)).getD 0

/-- LOGSTAT (R413 Table 5). -/
def Core.logstat (k : Core) : Word :=
  let svc := (k.log.filter fun e => match e.state with
    | .logged _ (some _) => true
    | _ => false).length
  BitVec.ofNat 64 (k.log.length + svc * 2 ^ 8 + (128 - k.logUnits) * 2 ^ 16)

/-! ### Ends of roles and gangs (R382, R393, R428, R444) -/

/-- Records of pending traps that a role ends without taking (R473). -/
def State.dropPending (s : State) (r : Role) : State :=
  r.pend.foldl (fun s p => match s.writeRecord r { addr := p.addr, pc := p.pc, rpc := r.ipc, kind := 2, wr := p.wr, cause := p.cause } with
    | some (_, _, s1) => s1
    | none => s) s

/-- A role ends: its stack, bindings and outstanding load results are gone (R382). The gang retires when its last role has
ended (R393). (DESIGN CHOICE, log 30) -/
def State.endRole (s : State) (rid : Nat) : State :=
  match s.role? rid with
  | none => s
  | some r =>
    if r.ended then s
    else
      let s1 := (s.dropPending r).setRole rid
        { r with ended := true, stack := [], depth := 0, bound := [], waits := [], clause := none, pend := [], tack := none,
                 hold := .ready }
      if (s1.rolesOf r.gang).all fun p => p.2.ended then s1.send (.gangRetire r.gang) else s1

/-- Matrix instructions whose entry is discarded lose their updates (R323): no entry has the index that stands in its place. -/
def loseEntries (jobs : List MatJob) (gone : List Nat) : List MatJob :=
  jobs.map fun j => match j.logEntry with
    | some i => if gone.contains i then { j with logEntry := some (2 ^ 32) } else j
    | none => j

/-- Discard the side-log entries of a role. -/
def State.discardLog (s : State) (rid : Nat) (core : Nat) : State :=
  s.updCore core fun k =>
    { k with log := k.log.filter fun e => e.rid != rid, jobs := loseEntries k.jobs ((k.entriesOf rid).map (·.id)) }

/-- Every role of a list ends, its side-log entries discarded (R428, R444). -/
def State.endRoles (s : State) (l : List (Nat × Role)) : State :=
  l.foldl (fun s p => (s.discardLog p.1 p.2.core).endRole p.1) s

/-- The gang of a role is aborted (R428): a record of KIND 3, a signal to the host, every role ended, no DONE add. With no
place in the fault ring the role holds (R410). -/
def State.abortGang (s : State) (rid : Nat) (cause : Nat) (addr pc : Word) : State :=
  match s.role? rid with
  | none => s
  | some r =>
    match s.writeRecord r { addr := addr, pc := pc, rpc := r.ipc, kind := 3, cause := cause } with
    | none => s.setRole rid (r.holdAt .ring)
    | some (_, _, s1) =>
      ((s1.updGang r.gang fun g => { g with noDone := true }).endRoles (s1.rolesOf r.gang)).signal (.gangAborted r.gang)

/-- The abort of the gang of a role that has gone on would have to wait for a place in the fault ring (R410). -/
def State.abortWaits (s : State) (rid : Nat) : Bool := match s.role? rid with
  | some r => !r.ended && !(s.ringRoom (dieOf r.core))
  | none => false

/-! ### Traps (R406-R408) -/

/-- The role takes a trap: it enters its handler; in handler mode, a double fault, or with TVEC 0 its gang is aborted
(R407, R408). (DEDUCED, log 50) -/
def State.trapWith (s : State) (rid cause : Nat) (logged final rec : Bool) (die ridx : Nat) (addr pc : Word) : State :=
  match s.role? rid with
  | none => s
  | some r =>
    if r.handler || r.tvec == 0 then s.abortGang rid cause addr pc
    else (s.dropLost rid r).setRole rid (r.enterHandler (tcauseOf cause logged final rec die ridx) addr pc)

/-- A precise trap of the instruction that is issuing. -/
def State.trap (s : State) (rid cause : Nat) (addr : Word) : State :=
  match s.role? rid with
  | none => s
  | some r => s.trapWith rid cause false false false 0 0 addr r.ipc

/-! ### Causes met at the walk (R405, R412) -/

/-- How a cause met at the walk by a load or fetch is handled (R405 Table 1). -/
inductive Handling where
  | trap | service | abort
deriving DecidableEq, Repr

def loadHandling (cause : Nat) : Handling :=
  if cause == cDATA_ERROR then .abort
  else if cause == cNOTPRESENT || cause == cPERM || cause == cPEER || cause == cFETCH then .service
  else .trap

/-- A load, atomic, counter operation or fetch fails at its walk (R412): a record of KIND 0 and a hold, a trap, or an
abort. Nothing has been written. `pc` is the instruction's address. -/
def State.loadFault (s : State) (rid cause : Nat) (addr pc : Word) (wr : Bool) : State :=
  match s.role? rid with
  | none => s
  | some r =>
    match loadHandling cause with
    | .trap => s.trapWith rid cause false false false 0 0 addr pc
    | .abort => s.abortGang rid cause addr pc
    | .service => match s.writeRecord r { addr := addr, pc := pc, kind := 0, wr := wr, cause := cause } with
      | none => s.setRole rid (r.holdAt .ring)
      | some (d, idx, s1) => s1.setRole rid (r.holdAt (.service (dieId d) idx))

/-- The result of a walk that a load-like access may not pass: hold at a migrating page, or the fault (R97, R412). -/
def State.loadStop (s : State) (rid : Nat) (res : WalkRes) (addr pc : Word) (wr : Bool) : State :=
  match res with
  | .mig _ => s.updRole rid fun r => r.holdAt .walk
  | .fault c => s.loadFault rid c addr pc wr
  | _ => s.updRole rid fun r => r.holdAt .walk

/-! ### Pending traps (R416, R420, R473) -/

def State.addPending (s : State) (rid : Nat) (p : PendTrap) : State := s.updRole rid fun r => { r with pend := r.pend ++ [p] }

/-- Remove an operation of a core. -/
def Core.dropOp (k : Core) (n : Nat) : Core := { k with ops := k.ops.del n }

/-- A load or atomic ends without a result: its slot counts one less, its binding ends, and a stream stands where it stood before the
instruction (R227). -/
def State.dropLoad (s : State) (core n : Nat) (o : Op) : State :=
  (s.updCore core fun k => k.dropOp n).updRole o.rid fun r =>
    { (if o.ws = 0 then r else r.slotDone o.ws) with
      bound := match o.dst with
        | some d => r.bound.filter fun p => !(p.1 == d && p.2 == o.ws)
        | none => r.bound
      streams := match o.undo with
        | some (k, pos) => match r.streams.find k with
          | some x => r.streams.put k { x with pos := pos }
          | none => r.streams
        | none => r.streams }

/-- A load or atomic of the role that a home has refused and that has still to walk again: the role is held at it (R412, R418). -/
def State.stoppedOp (s : State) (rid : Nat) (r : Role) : Option (Nat × Op) :=
  (s.core r.core).ops.find? fun p => p.2.rid == rid && p.2.stop != .go

/-- The role stands at a clause boundary or a hold point. -/
def Role.atBoundary (r : Role) : Bool := r.clause.isNone || r.hold != .ready ||
  (match r.clause with
    | some c => !c.issued
    | none => true)

/-- The role takes its first pending trap, by steps 2 to 4 of R416: a record of KIND 2 whose RPC names the header or held
instruction at which it stopped, then the trap with LOGGED = 1. A held instruction is abandoned. (DEDUCED, log 101) (DEDUCED, log 180) -/
def State.takePending (s : State) (rid : Nat) : State :=
  match s.role? rid with
  | none => s
  | some r =>
    match r.pend with
    | [] => s
    | p :: rest =>
      let held := s.stoppedOp rid r
      if r.ended || r.handler || !(r.atBoundary || held.isSome) then s
      else
        let rpc := match held with
          | some (_, o) => o.pc
          | none => match r.clause with
            | some c => if c.issued then c.wordAddr else c.addr
            | none => r.pc
        match s.writeRecord r { addr := p.addr, pc := p.pc, rpc := rpc, kind := 2, wr := p.wr, cause := p.cause } with
        | none => s
        | some (d, idx, s1) =>
          let s2 := match held with
            | some (n, o) => s1.dropLoad r.core n o
            | none => s1
          (s2.updRole rid fun q => { q with pend := rest }).trapWith rid p.cause true p.final true d idx p.addr p.pc

/-- PENDING_TRAP_TAKE (R473). -/
def execPendingTrapTake (rid : Nat) (s : State) : Out := .next (s.takePending rid)


end Sys2Proof.Machine
end

