-- ==== Sys2Proof/Machine/Access.lean ====
section
/-! DEFINITION. The accesses of a role: the checks made at issue (10 R219), the on-chip window (07 R172, R173) and its clock
(06 R144), the scopes (06 R142), what a role still has outstanding, and the reads and writes that a role makes whole before its
next instruction. -/
namespace Sys2Proof.Machine

/-! ### The on-chip window (R144, R172) -/

/-- SP of a gang, and C. -/
def State.gangSp (s : State) (g : Nat) : Nat := match s.gang? g with
  | some x => x.sp
  | none => 0
def State.gangCores (s : State) (g : Nat) : Nat := match s.gang? g with
  | some x => x.cores.length
  | none => 0

/-- The rank and offset that a window address names for a gang, when it reaches a byte range of that share (R172). -/
def State.spadAt (s : State) (g rank va size : Nat) : Option (Nat × Nat) :=
  let rk := if onChipLocal ≤ va then rank else va / 2 ^ 20 % 2 ^ 20
  let off := if onChipLocal ≤ va then va % 2 ^ 40 else va % 2 ^ 20
  if s.gangCores g ≤ rk || s.gangSp g < off + size then none else some (rk, off)

/-- The bytes of a share. -/
def State.spadGet (s : State) (g rank off n : Nat) : Nat := match s.gang? g with
  | some x => readBytes (x.shares.get [] rank) off n
  | none => 0
def State.spadPut (s : State) (g rank off n x : Nat) : State :=
  s.updGang g fun y => { y with shares := Sparse.set [] y.shares rank (writeBytes (y.shares.get [] rank) off x n) }
/-- An access meets what its 8-byte unit of the share holds: an error that ECC corrects is counted, and true is an uncorrectable one
(R178). -/
def State.spadCheck (s : State) (g rank off : Nat) : State × Bool :=
  let u := (g, rank, off / 8)
  if s.badSpad.contains u then (s, true)
  else if s.weakSpad.contains u then
    let core := match s.gang? g with
      | some x => x.cores.getD rank 0
      | none => 0
    (({ s with weakSpad := s.weakSpad.filter (· != u) } : State).countError (dieOf core) 0x6310, false)
  else (s, false)

/-- An access to a share at the requester's time P: the time it stands at, and the state with spts there (R144). -/
def State.spadTime (s : State) (g rank p : Nat) (write : Bool) : Nat × State :=
  let sp := match s.gang? g with
    | some x => x.spts.get 0 rank
    | none => 0
  let t := if write then max p (sp + 1) else max p sp
  (t, s.updGang g fun x => { x with spts := Sparse.set 0 x.spts rank t })

/-! ### Checks at issue (R219) -/

/-- The cause that one element raises at issue: NONCANON, ALIGN, then the window checks. -/
def State.issueCause (s : State) (r : Role) (a : Acc) (ea : Int) (z align : Nat) : Option Nat :=
  if !canonRange ea z then some cNONCANON
  else
    let va := ea.toNat
    if va % align ≠ 0 then some cALIGN
    else if onChip va then
      if a == .reduction || a == .accWrite || a == .accRead then some cPERM
      else if a == .fetch then some cFETCH
      else if (s.spadAt r.gang r.rank va z).isNone then some cNOTPRESENT
      else none
    else none

/-- Where an element's address leads. -/
inductive Spot where
  | spad (rank off : Nat) | mem (reach : Reach) | window (pa : Nat)
deriving DecidableEq, Repr

/-- The place of a spot's first byte: its canonical address, or one of its own for a share or a window. -/
def Spot.place : Spot → Nat
  | .spad rank off => 2 ^ 60 + 2 ^ 20 * rank + off
  | .mem m => canonPA m.pa
  | .window pa => 2 ^ 61 + pa

/-- A store of `n` bytes by the role itself at a place: what the role has put into its stack area changes with it (R209). -/
def Role.overwrite (r : Role) (place n x : Nat) : Role :=
  let a := place / 8 * 8
  match r.spilled.find a with
  | some w => { r with spilled := r.spilled.put a (BitVec.ofNat 64 (setLineField (w.zeroExtend 1024) (place % 8) n x).toNat) }
  | none => r

/-- Why an access does not go on: a cause of issue, or the answer of the walk. -/
inductive Stop where
  | issue (cause : Nat) | walk (res : WalkRes)
deriving DecidableEq, Repr

/-- The walk of an element that passed the checks of issue. The register window takes no access but the ordinary 8-byte
ones that `plain` marks, from a privileged handler (R61). -/
def State.spot (s : State) (r : Role) (a : Acc) (view : Option Nat) (plain : Bool) (va z : Nat) : Except WalkRes Spot × State :=
  if onChip va then match s.spadAt r.gang r.rank va z with
    | some (rk, off) => (.ok (.spad rk off), s)
    | none => (.error (.fault cNOTPRESENT), s)
  else match s.walk (r.walker view) a va with
    | (.ok x, s1) =>
      if regionOf x.pa == .window then
        if plain && r.privileged then (.ok (.window x.pa), s1) else (.error (.fault cPERM), s1)
      else (.ok (.mem x), s1)
    | (res, s1) => (.error res, s1)

/-! ### What a role has outstanding -/

/-- Storage that a scope covers, for an element of a role (R142). -/
def State.covers (s : State) (r : Role) (scope : Nat) (t : Target) : Bool :=
  match t with
  | .spad rank _ => if scope = 1 then rank == r.rank else true
  | .mem line _ _ _ _ _ =>
    if scope < 3 then false
    else if scope = 3 then !(isHostLine line) && s.homeOf line == dieOf r.core
    else if scope = 4 then !(isHostLine line)
    else true
  | .window _ => true

/-- Scope code 000 means .pkg (R217). -/
def scopeOf (c : BitVec 3) : Nat := if c = 0 then 4 else c.toNat

/-- The operations of a role on its core. -/
def Core.opsOf (k : Core) (rid : Nat) : List (Nat × Op) := k.ops.filter fun p => p.2.rid == rid

/-- An element of the role's operations that `p` names is not yet performed. -/
def State.opsDue (s : State) (rid : Nat) (r : Role) (p : Op → OpElem → Bool) : Bool :=
  ((s.core r.core).opsOf rid).any fun q => q.2.waiting.any fun e => p q.2 e

/-- The role has any operation outstanding. -/
def State.busyOps (s : State) (rid : Nat) (r : Role) : Bool := !((s.core r.core).opsOf rid).isEmpty

/-- The messages on their way: due, held for a seam, or waiting for a way. -/
def State.afoot (s : State) : List Instr :=
  s.pending ++ s.seams.flatMap (·.2.held) ++ s.dies.flatMap (·.2.fillWait)

/-- The loads and prefetches whose line is asked for, or is on its way to its core. -/
def State.loadsOut (s : State) : List LdReqMsg :=
  (s.afoot.filterMap fun i => match i with
    | .ldreq m => some m
    | .lddata m | .renew m => some m.req
    | _ => none) ++ s.dies.flatMap fun d => d.2.waitLd

/-- A line update of the role that is on its way, refused or held (R150, R321), or a replayed accumulator write of it on its way
(R334): `p` says whether its line and slots count. -/
def State.reductionDue (s : State) (rid : Nat) (r : Role) (p : Nat → List (Fin 8) → Bool) : Bool :=
  let due := fun (u : LineUpdate) => u.rid == rid && p u.line (u.parts.map (·.slot))
  (s.afoot.any fun i => match i with
    | .accLineUpdate u => due u
    | .accumulatorAccess m => m.rid == rid && m.acc != .read && p m.line m.slots
    | _ => false) ||
  ((s.core r.core).refused.any due) || (s.dies.any fun d => (d.2.portRefused.any due) || d.2.reorder.any fun h => due h.update)

/-- A matrix instruction of the role whose lines `p` names is not committed (R326). -/
def State.jobsDue (s : State) (rid : Nat) (r : Role) (p : Nat → Bool) : Bool :=
  (s.core r.core).jobs.any fun j => j.rid == rid && p j.line

/-- The storage class of a line under a scope, for reductions. -/
def State.coversLine (s : State) (r : Role) (scope line : Nat) : Bool :=
  s.covers r scope (.mem line 0 ⟨0, 0, 0, none⟩ ⟨false, false, false, false, 0⟩ false true)

/-- The die on which a context's engines stand: for a local context, that of the issuing core (R179, R451). -/
def ctxDie (id : CtxId) (c : Cmd) : Nat :=
  match id with
  | .shared d _ => d.val
  | .local _ _ => dieOf c.core
  | .composer p => p.val / 2
  | .encoder p => p.val / 2

/-- Who walks for a command. (DEDUCED, log 75) -/
def cmdWalker (id : CtxId) (c : Cmd) (view : Option Nat) : Walker :=
  { die := ctxDie id c, vmid := c.vmid, asid := c.asid, handler := false, wver := c.wver, view := view, engine := true }

/-- The word at a virtual address of a command as it stands; 0 where a walk does not reach one. -/
def State.cmdPeek (s : State) (id : CtxId) (c : Cmd) (va : Nat) : Nat :=
  match (s.walk (cmdWalker id c none) .engRead va).1 with
  | .ok m => s.peek m.pa 8 c.vmid
  | _ => 0

/-- A command targets a peer (R142 .pod): PUT, GET and ARED do, and a HALO of which a face has DPEER set (R196). A HALO that an engine
has started is judged by what it has read. -/
def State.toPeer (s : State) (id : CtxId) (q : CmdEntry) : Bool :=
  match q.cmd.kind with
  | .put | .get | .ared => true
  | .halo =>
    let c := q.cmd
    let faces := match q.record[1]? with
      | some (l : List Word) => l.map fun (w : Word) => w.toNat
      | none => (List.range (min 26 (s.cmdPeek id c c.a.toNat))).map fun i => s.cmdPeek id c (c.a.toNat + 8 + 8 * i)
    (faces.zip (List.range faces.length)).any fun p => wbit (match q.record[2 + p.2]? with
      | some ws => ws.getD 2 0
      | none => BitVec.ofNat 64 (s.cmdPeek id c (p.1 + 16))) 32
  | _ => false

/-- An earlier command of the role that targets a peer has not completed. -/
def State.peerDue (s : State) (rid : Nat) : Bool :=
  s.ctxs.any fun c => c.2.cmds.any fun q => q.cmd.rid == rid && q.st != .done && s.toPeer c.1 q

/-- A command of the role has still to be accepted. -/
def State.issuedDue (s : State) (rid : Nat) : Bool := s.issued.any fun q => q.rid == rid

/-- An access of the role to storage that a scope covers has still to take its place. -/
def State.accessDue (s : State) (rid : Nat) (r : Role) (scope : Nat) : Bool :=
  s.opsDue rid r fun _ e => s.covers r scope e.target

/-- A release of a scope may take its place (R143 item 5, R152). (DEDUCED, log 34) (DEDUCED, log 142) -/
def State.releaseReady (s : State) (rid : Nat) (r : Role) (scope : Nat) : Bool :=
  !(s.windowOpen rid r) && !(s.accessDue rid r scope) && !(s.reductionDue rid r fun _ _ => true) && !(s.jobsDue rid r fun _ => true) &&
  !(s.issuedDue rid) && !(scope == 6 && s.peerDue rid)

/-- A fence of a scope may complete (R148). -/
def State.fenceReady (s : State) (rid : Nat) (r : Role) (scope : Nat) : Bool :=
  !(s.windowOpen rid r) && !(s.accessDue rid r scope) && !(s.reductionDue rid r fun l _ => s.coversLine r scope l) &&
  !(s.jobsDue rid r fun l => s.coversLine r scope l) && !(scope == 6 && (s.peerDue rid || s.issuedDue rid))

/-! ### Reads and writes that a role makes whole -/

/-- Drop a line from one core's L1: an L1 line is never dirty, so dropping it loses nothing (R169). -/
def Core.dropL1 (k : Core) (line : Nat) : Core := { k with l1 := k.l1.filter fun x => x.line != line }

/-- A read of `n` bytes at a spot, placed at the role's time (R120, R144): the value, or DATA_ERROR. -/
def State.spotRead (s : State) (r : Role) (x : Spot) (n : Nat) : Except Nat Nat × State :=
  let p := (s.core r.core).pts
  match x with
  | .window _ => (.error cPERM, s)
  | .spad rank off =>
    let (s0, bad) := s.spadCheck r.gang rank off
    if bad then (.error cDATA_ERROR, s0)
    else
      let (t, s1) := s0.spadTime r.gang rank p false
      (.ok (s1.spadGet r.gang rank off n), s1.raisePts r.core t)
  | .mem m =>
    let bad := s.readBad (dieOf r.core) (lineOf m.pa)
    if m.retained.isSome then
      let (v, s1) := s.viewIn (dieOf r.core) m.pa n r.vmid
      (if bad then .error cDATA_ERROR else .ok v, s1)
    else
      let (v, w, s1) := s.readIn (dieOf r.core) m.pa n r.vmid p
      if bad then (.error cDATA_ERROR, s1) else (.ok v, s1.raisePts r.core w)

/-- The core's own L1 copy of a line takes the line as a write of its own has left it, with the time of the write for both its
timestamps (R121); a copy of a later write stays. -/
def Core.ownWrite (k : Core) (line : Nat) (data : LineData) (wts : Nat) : Core :=
  { k with l1 := k.l1.map fun y =>
      if y.line == line && y.tag.ver.isNone && y.wts ≤ wts then { y with data := data, wts := wts, rts := wts } else y }

/-- A read-modify-write of `n` bytes at a spot (R121, R144): the old value and the time, or DATA_ERROR. -/
def State.spotRmw (s : State) (r : Role) (x : Spot) (n : Nat) (f : Nat → Nat) : Except Nat (Nat × Nat) × State :=
  let p := (s.core r.core).pts
  match x with
  | .window _ => (.error cPERM, s)
  | .spad rank off =>
    let (s0, bad) := s.spadCheck r.gang rank off
    if bad then (.error cDATA_ERROR, s0)
    else
      let (t, s1) := s0.spadTime r.gang rank p true
      let old := s1.spadGet r.gang rank off n
      (.ok (old, t), (s1.spadPut r.gang rank off n (f old)).raisePts r.core t)
  | .mem m =>
    let line := lineOf m.pa
    let (old, w, s1) := s.rmwIn (dieOf r.core) m.pa n r.vmid p f
    if s.readBad (dieOf r.core) line then (.error cDATA_ERROR, s1)
    else
      let own := fun (k : Core) => match (s1.die (dieOf r.core)).copy? line with
        | some l => k.ownWrite line l.data w
        | none => k.dropL1 line
      (.ok (old, w), (s1.updCore r.core own).raisePts r.core w)

/-- The value at a spot as the slice or scratchpad holds it, read without taking a place in the order (R240). -/
def State.spotPeek (s : State) (r : Role) (x : Spot) (n : Nat) : Nat :=
  match x with
  | .window _ => 0
  | .spad rank off => s.spadGet r.gang rank off n
  | .mem m => s.peek m.pa n r.vmid

/-- The spots of elements of `n` bytes whose checks of issue have passed, in order: the first that fails at its walk, with its
address. -/
def State.walkSpots (s : State) (r : Role) (a : Acc) (n : Nat) : List Int → Except (Stop × Word) (List Spot) × State
  | [] => (.ok [], s)
  | ea :: rest => match s.spot r a none false ea.toNat n with
    | (.error w, s1) => (.error (.walk w, addr64 ea), s1)
    | (.ok x, s1) => match State.walkSpots s1 r a n rest with
      | (.ok xs, s2) => (.ok (x :: xs), s2)
      | (.error e, s2) => (.error e, s2)

/-- The spots of elements of `n` bytes, in order. Every element passes its checks of issue before any is walked (R219, R220). -/
def State.spots (s : State) (r : Role) (a : Acc) (n align : Nat) (eas : List Int) : Except (Stop × Word) (List Spot) × State :=
  match eas.findSome? fun ea => (s.issueCause r a ea n align).map fun c => (c, addr64 ea) with
  | some (c, e) => (.error (.issue c, e), s)
  | none => s.walkSpots r a n eas

/-- Read each spot in order; an error is the cause and the index of the spot that fails. -/
def State.readSpots (s : State) (r : Role) (n : Nat) : List Spot → Except (Nat × Nat) (List Nat) × State
  | [] => (.ok [], s)
  | x :: rest => match s.spotRead r x n with
    | (.error c, s1) => (.error (c, 0), s1)
    | (.ok v, s1) => match State.readSpots s1 r n rest with
      | (.ok vs, s2) => (.ok (v :: vs), s2)
      | (.error (c, i), s2) => (.error (c, i + 1), s2)

/-- Write each spot in order; an error is the cause and the index of the spot that fails. -/
def State.writeSpots (s : State) (r : Role) (n : Nat) : List (Spot × Nat) → Except (Nat × Nat) Unit × State
  | [] => (.ok (), s)
  | (x, v) :: rest => match s.spotRmw r x n fun _ => v with
    | (.error c, s1) => (.error (c, 0), s1)
    | (.ok _, s1) => match State.writeSpots s1 r n rest with
      | (.ok u, s2) => (.ok u, s2)
      | (.error (c, i), s2) => (.error (c, i + 1), s2)

/-- The 8-byte words of a record at `va`, `k` of them, read as ordinary loads of the role; every word passes its checks
before any is read. -/
def State.loadRecord (s : State) (r : Role) (a : Acc) (va : Int) (k align : Nat) :
    Except (Stop × Word) (List Word) × State :=
  match s.issueCause r a va (8 * k) align with
  | some c => (.error (.issue c, addr64 va), s)
  | none => match s.spots r a 8 8 ((List.range k).map fun (i : Nat) => va + 8 * (i : Int)) with
    | (.error e, s1) => (.error e, s1)
    | (.ok xs, s1) => match s1.readSpots r 8 xs with
      | (.ok vs, s2) => (.ok (vs.map fun v => BitVec.ofNat 64 v), s2)
      | (.error (c, i), s2) => (.error (.walk (.fault c), addr64 (va + 8 * (i : Int))), s2)

/-- What a stop does to a role's instruction that is handled as a load (R220, R412). -/
def State.stopRole (s : State) (rid : Nat) (e : Stop × Word) (wr : Bool) : State :=
  match s.role? rid with
  | none => s
  | some r => match e.1 with
    | .issue c => s.trap rid c e.2
    | .walk w => s.loadStop rid w e.2 r.ipc wr

/-- Hold the issuing role at its instruction. -/
def State.holdRole (s : State) (rid : Nat) (h : Hold) : State := s.updRole rid fun r => r.holdAt h

end Sys2Proof.Machine
end

