-- ==== Sys2Proof/Machine/Signing.lean ====
section
/-! DEFINITION. The signed images of the board flash (22 R453): SHA-256 (FIPS 180-4), RSASSA-PSS verification with MGF1 (RFC 8017), and the
boot ROM's check of a header. -/
namespace Sys2Proof.Machine

/-! ### SHA-256 -/

/-- The 32-bit word of a constant that stands `i` words from its end. -/
def wordAt (x i : Nat) : BitVec 32 := BitVec.ofNat 32 (x / 2 ^ (32 * i))

/-- The first 32 bits of the fractions of the cube roots of the first 64 primes, the first the most significant. -/
def roundWords : Nat :=
  0x428A2F98_71374491_B5C0FBCF_E9B5DBA5_3956C25B_59F111F1_923F82A4_AB1C5ED5_D807AA98_12835B01_243185BE_550C7DC3_72BE5D74_80DEB1FE_9BDC06A7_C19BF174_E49B69C1_EFBE4786_0FC19DC6_240CA1CC_2DE92C6F_4A7484AA_5CB0A9DC_76F988DA_983E5152_A831C66D_B00327C8_BF597FC7_C6E00BF3_D5A79147_06CA6351_14292967_27B70A85_2E1B2138_4D2C6DFC_53380D13_650A7354_766A0ABB_81C2C92E_92722C85_A2BFE8A1_A81A664B_C24B8B70_C76C51A3_D192E819_D6990624_F40E3585_106AA070_19A4C116_1E376C08_2748774C_34B0BCB5_391C0CB3_4ED8AA4A_5B9CCA4F_682E6FF3_748F82EE_78A5636F_84C87814_8CC70208_90BEFFFA_A4506CEB_BEF9A3F7_C67178F2

/-- The first 32 bits of the fractions of the square roots of the first 8 primes, likewise. -/
def startWords : Nat := 0x6A09E667_BB67AE85_3C6EF372_A54FF53A_510E527F_9B05688C_1F83D9AB_5BE0CD19

/-- The digest so far, as its eight words. -/
structure Digest where
  a : BitVec 32
  b : BitVec 32
  c : BitVec 32
  d : BitVec 32
  e : BitVec 32
  f : BitVec 32
  g : BitVec 32
  h : BitVec 32
deriving DecidableEq, Repr

def Digest.words (x : Digest) : List (BitVec 32) := [x.a, x.b, x.c, x.d, x.e, x.f, x.g, x.h]

def Digest.ofWords (l : List (BitVec 32)) : Digest :=
  let w := fun i => l.getD i 0
  ⟨w 0, w 1, w 2, w 3, w 4, w 5, w 6, w 7⟩

/-- The message schedule from its latest word back, with `n` words still to come. -/
def schedule : Nat → List (BitVec 32) → List (BitVec 32)
  | 0, l => l.reverse
  | n + 1, l =>
    let x := l.getD 1 0
    let y := l.getD 14 0
    let s1 := x.rotateRight 17 ^^^ x.rotateRight 19 ^^^ (x >>> 10)
    let s0 := y.rotateRight 7 ^^^ y.rotateRight 18 ^^^ (y >>> 3)
    schedule n ((s1 + l.getD 6 0 + s0 + l.getD 15 0) :: l)

/-- One of the 64 rounds. -/
def Digest.round (x : Digest) (kw : BitVec 32) : Digest :=
  let big1 := x.e.rotateRight 6 ^^^ x.e.rotateRight 11 ^^^ x.e.rotateRight 25
  let choose := (x.e &&& x.f) ^^^ (~~~x.e &&& x.g)
  let t1 := x.h + big1 + choose + kw
  let big0 := x.a.rotateRight 2 ^^^ x.a.rotateRight 13 ^^^ x.a.rotateRight 22
  let maj := (x.a &&& x.b) ^^^ (x.a &&& x.c) ^^^ (x.b &&& x.c)
  { a := t1 + (big0 + maj), b := x.a, c := x.b, d := x.c, e := x.d + t1, f := x.e, g := x.f, h := x.g }

/-- A number from bytes, the first the most significant. -/
def ofBytesBE (l : List Byte) : Nat := l.foldl (fun a b => 256 * a + b.toNat) 0
/-- The low `n` bytes of a number, the most significant first. -/
def toBytesBE (n x : Nat) : List Byte := ((List.range n).map fun i => (BitVec.ofNat 8 (x / 2 ^ (8 * i)) : Byte)).reverse

/-- The digest after a block of 64 bytes. -/
def Digest.absorb (x : Digest) (block : List Byte) : Digest :=
  let w := (List.range 16).map fun i => BitVec.ofNat 32 (ofBytesBE ((block.drop (4 * i)).take 4))
  let y := (schedule 48 w.reverse).zipIdx.foldl (fun y p => y.round (p.1 + wordAt roundWords (63 - p.2))) x
  Digest.ofWords ((x.words.zip y.words).map fun p => p.1 + p.2)

/-- The digest after `n` blocks. -/
def Digest.blocks : Nat → List Byte → Digest → Digest
  | 0, _, x => x
  | n + 1, l, x => Digest.blocks n (l.drop 64) (x.absorb (l.take 64))

/-- SHA-256 of a message: 32 bytes. -/
def sha256 (m : List Byte) : List Byte :=
  let zeros := (119 - m.length % 64) % 64
  let padded := m ++ 0x80#8 :: List.replicate zeros 0 ++ toBytesBE 8 (8 * m.length)
  ((Digest.blocks (padded.length / 64) padded (Digest.ofWords ((List.range 8).map fun i => wordAt startWords (7 - i)))).words).flatMap fun w => toBytesBE 4 w.toNat

/-! ### RSASSA-PSS -/

/-- MGF1 with SHA-256: `n` bytes from a seed. -/
def mgf1 (seed : List Byte) (n : Nat) : List Byte :=
  ((List.range ((n + 31) / 32)).flatMap fun i => sha256 (seed ++ toBytesBE 4 i)).take n

/-- x to the power 65,537 = 2^16 + 1, modulo n. -/
def pow65537 (x n : Nat) : Nat := (List.range 16).foldl (fun y _ => y * y % n) (x % n) * x % n

/-- The 384 bytes `em` encode the message with a 32-byte salt, under a modulus of 3,072 bits. -/
def pssEncodes (m em : List Byte) : Bool :=
  let masked := em.take 351
  let h := (em.drop 351).take 32
  let db := ((masked.zip (mgf1 h 351)).map fun p => p.1 ^^^ p.2).zipIdx.map fun p => if p.2 = 0 then p.1 &&& 0x7F#8 else p.1
  em.getLast? == some 0xBC#8 && (em.headD 0).toNat < 128 && db.take 319 == List.replicate 318 0 ++ [1#8] &&
    sha256 (List.replicate 8 0 ++ sha256 m ++ db.drop 319) == h

/-- The signature of the message verifies under the modulus, with the public exponent 65,537. -/
def pssVerifies (modulus sig : Nat) (m : List Byte) : Bool :=
  decide (sig < modulus) && pssEncodes m (toBytesBE 384 (pow65537 sig modulus))

/-! ### Headers and bodies (R453) -/

def headerBytes : Nat := 0x400
def magicFirmware : Nat := 0x4A58_4657
def magicBlob : Nat := 0x4A58_4342

/-- A number from bytes, the first the least significant (R12). -/
def ofBytesLE (l : List Byte) : Nat := l.foldr (fun b a => b.toNat + 256 * a) 0

/-- Bytes of an image. -/
def imageBytes (img : List Byte) (off n : Nat) : List Byte := (img.drop off).take n
/-- A field of an image's header. -/
def imageField (img : List Byte) (off n : Nat) : Nat := ofBytesLE (imageBytes img off n)

/-- The length of the body, as the header says, and the body behind the header. -/
def bodyLength (img : List Byte) : Nat := imageField img 0x010 8
def imageBody (img : List Byte) : List Byte := imageBytes img headerBytes (bodyLength img)

/-- The boot ROM accepts an image: its magic and its exponent are right, the SHA-256 of its modulus is the ROM's, its signature over bytes
0x000 to 0x1FF verifies, its body is there and hashes to the header's value, and the rest of the header is zero. (DEDUCED, log 178) -/
def imageAccepted (rom : BitVec 256) (magic : Nat) (img : List Byte) : Bool :=
  imageField img 0x000 8 == magic && decide (headerBytes + bodyLength img ≤ img.length) && imageField img 0x1C0 64 == 65537 &&
    imageField img 0x038 8 == 0 && imageField img 0x380 128 == 0 &&
    sha256 (imageBytes img 0x040 384) == toBytesBE 32 rom.toNat &&
    pssVerifies (imageField img 0x040 384) (imageField img 0x200 384) (imageBytes img 0x000 0x200) &&
    sha256 (imageBody img) == imageBytes img 0x018 32

/-- Bring-up's step 2: the ROM accepts the firmware image and the blob (R453, R455). -/
def State.imagesAccepted (s : State) : Bool := imageAccepted s.romHash magicFirmware s.fwImage && imageAccepted s.romHash magicBlob s.blobImage

end Sys2Proof.Machine
end

