-- ==== Sys2Proof/Machine/Registers.lean ====
section
/-! DEFINITION. The device register windows (02 R61): what a word reads, what a write does, and the events that write one
register: frame attributes and RCLEAR, HASHSEL, PTS, partitions and keys, counters, contexts, doorbells, the fault ring,
migration engines and attestation. -/
namespace Sys2Proof.Machine

/-! ### Engine contexts -/

def State.ctx? (s : State) (c : CtxId) : Option Ctx := (s.ctxs.find? fun p => p.1 == c).map (·.2)
def State.ctx (s : State) (c : CtxId) : Ctx := (s.ctx? c).getD {}
def State.setCtx (s : State) (c : CtxId) (x : Ctx) : State :=
  match s.ctx? c with
  | none => { s with ctxs := s.ctxs ++ [(c, x)] }
  | some _ => { s with ctxs := s.ctxs.map fun p => if p.1 == c then (c, x) else p }

/-- The context's own pts rises (R117). -/
def State.tickCtx (s : State) (c : CtxId) (t : Nat) : State :=
  let x := s.ctx c
  s.setCtx c { x with pts := max x.pts t }

/-- The context whose registers stand at a window offset, and the offset in them (R180, R451). -/
def ctxAt (d off : Nat) : Option (CtxId × Nat) :=
  if 0x8000 ≤ off && off < 0xC000 then some (.shared (dieId d) (Fin.ofNat 256 ((off - 0x8000) / 0x40)), off % 0x40)
  else if 0xC000 ≤ off && off < 0xC100 then
    let p : Fin 8 := Fin.ofNat 8 (2 * d + (off - 0xC000) / 0x80)
    some (if (off - 0xC000) / 0x40 % 2 = 0 then .composer p else .encoder p, off % 0x40)
  else none

/-- A word of a context's registers (R180 Table 1). -/
def Ctx.word (c : Ctx) (off : Nat) : Word :=
  match off with
  | 0x00 => BitVec.ofNat 64 (c.asid * 2 ^ 32 + c.vmid * 2 ^ 28 + c.prio * 2 ^ 26 + (if c.en then 1 else 0))
  | 0x08 => BitVec.ofNat 64 c.tladdr
  | 0x10 => BitVec.ofNat 64 c.accepted
  | 0x18 => BitVec.ofNat 64 c.completed
  | 0x20 => BitVec.ofNat 64 c.failn
  | 0x28 => BitVec.ofNat 64 ((if c.err then 2 ^ 8 else 0) + c.code)
  | 0x30 => c.failaddr
  | _ => 0

/-- A write of the word at +0x00: ASID and VMID only while nothing is outstanding, and the skip arm always (R180, R182). -/
def Ctx.control (c : Ctx) (v : Word) : Ctx :=
  let c1 := { c with prio := wfield v 26 2, en := wbit v 0, skip := wbit v 1 }
  if c.accepted = c.completed then { c1 with asid := wfield v 32 16, vmid := wfield v 28 4 } else c1

/-- A transfer that is on its way writes nothing any more; it keeps its place in its flow. (DEDUCED, log 168) -/
def voidIf (p : FlowTransfer → Bool) (t : FlowTransfer) : FlowTransfer := if p t then { t with size := 0 } else t

/-- The transfers on their way that `p` names write nothing any more. -/
def State.voidTransfers (s : State) (p : FlowTransfer → Bool) : State :=
  let msg := fun (i : Instr) => match i with
    | .flowTransferReceive t => .flowTransferReceive (voidIf p t)
    | j => j
  let die := fun (x : DieState) =>
    { x with flowHeld := x.flowHeld.map (voidIf p), flowRefused := x.flowRefused.map (voidIf p) }
  { s with pending := s.pending.map msg, seams := s.seams.map fun q => (q.1, { q.2 with held := q.2.held.map msg }),
           dies := s.dies.map fun q => (q.1, die q.2) }

/-- The context resumes after a failure (R182, R474): a failed timeline write is retried, and no command that it would record runs
again; else the first failed command restarts, or counts as completed when `skip`. Every other failed command restarts. A transfer
that a failed command has left on its way writes nothing any more. (DEDUCED, log 169) -/
def State.ctxResume (s : State) (id : CtxId) (skip : Bool) : State :=
  let c := s.ctx id
  if !c.err then s
  else
    let failed := c.cmds.filter fun q => q.st == .failed
    let cmds := c.cmds.map fun q =>
      if q.st == .failed then
        { q with st := if skip && c.tlRetry.isNone && q.n == c.failn then .done else .accepted, sigs := [], moved := [] }
      else q
    let s1 := (s.voidTransfers fun t => t.ctx == id && failed.any fun q => q.n == t.n).setCtx id
      { c with err := false, skip := false, cmds := cmds }
    (s1.send (.engineCommandComplete id (c.tlRetry.getD c.failn))).send (.engineCommandStart id)

def State.writeCtx (s : State) (id : CtxId) (off : Nat) (v : Word) : State :=
  let c := s.ctx id
  match off with
  | 0x00 => (s.setCtx id (c.control v)).send (.engineCommandStart id)
  | 0x08 => if c.accepted = c.completed then s.setCtx id { c with tladdr := wfield v 0 57 } else s
  | 0x28 => if wbit v 8 then s.ctxResume id c.skip else s
  | _ => s

def execCtxControlWrite (ctx : CtxId) (v : Word) (s : State) : Out := .next (s.writeCtx ctx 0x00 v)
def execCtxErrClear (ctx : CtxId) (s : State) : Out := .next (s.writeCtx ctx 0x28 0x100#64)

/-! ### Frame attributes (R65, R66) -/

/-- A frame attribute byte. -/
def Attr.byte (a : Attr) : Nat :=
  (if a.acc then 128 else 0) + (if a.vers then 64 else 0) + (if a.inter then 32 else 0) + (if a.retired then 16 else 0)

/-- The key in `attrs` of the frame whose byte stands at a window offset. -/
def attrKey (off : Nat) : Option Nat :=
  if 0x0100_0000 ≤ off && off < 0x0120_0000 then some (off - 0x0100_0000)
  else if 0x0400_0000 ≤ off && off < 0x0440_0000 then some (2 ^ 24 + (off - 0x0400_0000))
  else none

/-- Write one byte: RETIRED and the reserved bits stand, and a byte that breaks R66 is left unchanged. -/
def DieState.writeAttr (x : DieState) (key : Nat) (b : Nat) : DieState :=
  let old := x.attrs.get {} key
  let new : Attr := { old with acc := b / 128 % 2 = 1, vers := b / 64 % 2 = 1, inter := b / 32 % 2 = 1 }
  if 2 ^ 24 ≤ key && (new.acc || new.inter) then x
  else { x with attrs := Sparse.set {} x.attrs key new }

def State.writeAttrs (s : State) (d off : Nat) (v : Word) : State :=
  (List.range 8).foldl (fun s i => match attrKey (off + i) with
    | some k => s.updDie d fun x => x.writeAttr k (wfield v (8 * i) 8)
    | none => s) s

/-- RCLEAR (R65). -/
def State.rclear (s : State) (d : Nat) (v : Word) : State :=
  let f := wfield v 0 23
  if wfield v 23 40 ≠ 0 then s
  else if wbit v 63 then
    if 2 ^ 22 ≤ f then s
    else s.updDie d fun x => { x with attrs := Sparse.set {} x.attrs (2 ^ 24 + f) { x.attrs.get {} (2 ^ 24 + f) with retired := false } }
  else if 2 ^ 21 ≤ f then s
  else s.updDie d fun x => { x with attrs := Sparse.set {} x.attrs f { x.attrs.get {} f with retired := false } }

def execFrameAttrWrite (die : Die) (off : Nat) (v : Word) (s : State) : Out := .next (s.writeAttrs die.val off v)
def execRclear (die : Die) (v : Word) (s : State) : Out := .next (s.rclear die.val v)

/-! ### HASHSEL (R70) and PTS (R117) -/

def State.writeHashsel (s : State) (d : Nat) (v : Word) : State :=
  let x := s.die d
  let nsel := wfield v 0 2
  let nen := wfield x.hashsel 2 6
  if !x.lines.isEmpty || nsel = 3 || nen < 32 - nsel then s
  else s.setDie d { x with hashsel := withField x.hashsel 0 2 nsel }

def execHashselWrite (die : Die) (v : Word) (s : State) : Out := .next (s.writeHashsel die.val v)
def execPtsWrite (core : Nat) (v : Word) (s : State) : Out := .next (s.raisePts core v.toNat)

/-! ### Partitions (R446-R449) -/

def State.partitions (s : State) : Nat := 2 ^ (s.regField 0 0x6240 0 2)
/-- The clusters of a partition (R446). -/
def State.clustersOf (s : State) (p : Nat) : List Nat :=
  let n := 16 / s.partitions
  (List.range n).map fun i => p * n + i
def State.partitionOfCluster (s : State) (c : Nat) : Nat := c / (16 / s.partitions)
def State.partVmid (s : State) (p : Nat) : Nat := s.regField 0 (0x6200 + 8 * p) 59 4
def State.partValid (s : State) (p : Nat) : Bool := wbit (s.reg 0 (0x6200 + 8 * p)) 63
def State.partQbase (s : State) (p : Nat) : Nat := 256 * s.regField 0 (0x6200 + 8 * p) 40 8
def State.partQend (s : State) (p : Nat) : Nat := s.partQbase p + 256 * (s.regField 0 (0x6200 + 8 * p) 32 8 + 1)

/-- No gang is resident or saved and waiting on the partitions, and every context of their VMIDs is idle (R449). -/
def State.partsIdle (s : State) (ps : List Nat) : Bool :=
  (s.gangs.all fun g => !(ps.contains g.2.part) || g.2.state == .retired ||
    (g.2.state == .saved && g.2.ctxSaved)) &&
  s.ctxs.all fun c => !(ps.any fun p => s.partVmid p == c.2.vmid) || c.2.accepted == c.2.completed

def State.writePartition (s : State) (d off : Nat) (v : Word) : State :=
  let keep : Word := if off = 0x6240 then 3 else 0xF800_FFFF_0000_0000#64
  let new := v &&& keep
  if s.reg d off = new then s
  else
    let ps := if off = 0x6240 then List.range s.partitions else [(off - 0x6200) / 8]
    let live := ps.filter fun p => p < s.partitions
    if s.partsIdle live then s.setReg d off new else s.countError d 0x6328

def execPartitionWrite (die : Die) (off : Nat) (v : Word) (s : State) : Out :=
  .next (if off = 0x6240 || (0x6200 ≤ off && off < 0x6240 && off % 8 = 0) then s.writePartition die.val off v else s)

/-! ### Keys (R450) -/

/-- Write back and drop every line that any L2 tags with the VMID. -/
def State.dropVmid (s : State) (vmid : Nat) : State :=
  let lines := ((List.range 4).flatMap fun d => (s.die d).lines.filterMap fun l =>
    if l.vmid == vmid then some l.line else none).eraseDups
  lines.foldl (fun s l => s.dropLine l true) s

/-- A write of the key command register: the lines of the VMID go, and its key is loaded or cleared (R450). (DEDUCED, log 130) -/
def State.keyCommand (s : State) (d : Nat) (v : Word) : State :=
  if v &&& ~~~(0x10F#64) ≠ 0 then s
  else
    let vmid := wfield v 0 4
    (s.dropVmid vmid).updDie d fun x =>
      { x with keys := if wbit v 8 then x.keys.put vmid x.staged else x.keys.del vmid, staged := 0 }

def execKeyLoad (die : Die) (v : Word) (s : State) : Out := .next (s.keyCommand die.val v)
def execKeyClear (die : Die) (v : Word) (s : State) : Out := .next (s.keyCommand die.val v)

/-! ### Counters (R456) -/

def State.clearCounter (s : State) (d off : Nat) : State :=
  if 0x6300 ≤ off && off < 0x6330 && off % 8 = 0 then s.setReg d off 0 else s

def execErrorCounterWrite (die : Die) (off : Nat) (_v : Word) (s : State) : Out := .next (s.clearCounter die.val off)

/-! ### Queues (R386, R387, R430) -/

def State.queueAddr (s : State) (q : Nat) : Nat := s.regField 0 0x5000 21 31 * 2 ^ 21 + 32 * q
/-- The four words of a queue's entry. -/
def State.queueEntry (s : State) (q : Nat) : List Word × State :=
  let (ws, _, s1) := s.readWords 0 (s.queueAddr q) 0 s.clock 4
  (ws, s1)
def State.writeQueueWord (s : State) (q k : Nat) (v : Word) : State := s.writeWords 0 (s.queueAddr q + 8 * k) 0 [v]

/-- ERR of a queue is set with a code, and the host is signalled. -/
def State.queueError (s : State) (q code : Nat) : State :=
  let (ws, s1) := s.queueEntry q
  (s1.writeQueueWord q 3 ((ws.getD 3 0 &&& 0x8000_0000_0000_0000#64) ||| 0x4000_0000_0000_0000#64 ||| BitVec.ofNat 64 code)).signal
    (.queueErr q)

def State.queueState (s : State) (q : Nat) : QueueState := s.queues.get {} q
def State.setQueueState (s : State) (q : Nat) (x : QueueState) : State := { s with queues := s.queues.put q x }

/-- The doorbell (R386, R430). -/
def State.doorbell (s : State) (v : Word) : State :=
  let q := wfield v 32 16
  let (ws, s1) := s.queueEntry q
  let w0 := ws.getD 0 0
  let qs := s1.queueState q
  if !(wbit w0 63) then s1.setQueueState q { qs with mark := false }
  else if qs.mark then s1.queueError q 1
  else
    let w1 := ws.getD 1 0
    if 2 ^ (wfield w0 52 5) < (wfield v 0 32 + 2 ^ 32 - wfield w1 0 32) % 2 ^ 32 then s1.queueError q 1
    else (s1.writeQueueWord q 1 (withField w1 32 32 (wfield v 0 32))).setQueueState q qs

def execDoorbell (_die : Die) (v : Word) (s : State) : Out := .next (s.doorbell v)

/-! ### The fault ring's registers (R410) -/

def State.writeCons (s : State) (d : Nat) (v : Word) : State :=
  (s.setRegField d 0x6008 0 32 (wfield v 0 32)).send (.faultRingSpace (dieId d))

def execFaultRingConsWrite (die : Die) (v : Word) (s : State) : Out := .next (s.writeCons die.val v)

/-- A verdict written to 0x6010, or given by LOGREPLAY (R410, R443). -/
def State.giveVerdict (s : State) (d : Nat) (final : Bool) (idx : Nat) : State :=
  s.send (if final then .faultVerdictFinal (dieId d) idx else .faultVerdictRetry (dieId d) idx)

/-! ### Migration engines (R94) -/

/-- A write of the word at +0x00: EN, ignored as 1 while HIGH ≤ LOW; NOVICT and BADRING are cleared by 1. -/
def State.writeMigration (s : State) (d t : Nat) (v : Word) : State :=
  let off := 0x2000 + 0x100 * t
  let hl := s.reg d (off + 8)
  let x := s.reg d off
  let x1 := if wbit v 4 then withField x 4 1 0 else x
  let x2 := if wbit v 2 then withField x1 2 1 0 else x1
  let x3 := if wbit v 0 && wfield hl 32 32 ≤ wfield hl 0 32 then x2 else withField x2 0 1 (wfield v 0 1)
  let s1 := s.setReg d off x3
  if wbit x3 0 && t < 2 then s1.send (.migrationStart (dieId d) (Fin.ofNat 3 t)) else s1

def execMigrationEnableWrite (die : Die) (tier : Fin 3) (v : Word) (s : State) : Out :=
  .next (s.writeMigration die.val tier.val v)

/-! ### Attestation (R457) -/

/-- The report over a nonce: its first 384 bytes, then the signature over them. -/
def State.reportBytes (s : State) (nonce : List Byte) : List Byte :=
  let le := fun (n x : Nat) => (List.range n).map fun i => (BitVec.ofNat 8 (x / 2 ^ (8 * i)) : Byte)
  let parts := le 8 (s.reg 0 0x6240).toNat ++ (List.range 8).flatMap fun p => le 8 (s.reg 0 (0x6200 + 8 * p)).toNat
  let keyMask := (List.range 16).foldl (fun a v => if ((s.die 0).keys.find v).isSome then a + 2 ^ v else a) 0
  let body := nonce ++ sha256 (imageBody s.fwImage) ++ sha256 (imageBody s.blobImage) ++ parts ++ le 8 keyMask ++
    le 8 Config.serial.toNat
  let b1 := body ++ List.replicate (0x100 - body.length) 0
  let b2 := b1 ++ le 32 Config.certHash.toNat
  let b3 := b2 ++ List.replicate (0x180 - b2.length) 0
  let sig := Config.attestSign b3
  b3 ++ (List.range 384).map fun i => sig.getD i 0

/-- The device reads the nonce at A, writes the report at A + 0x100 and sets the done bit. An A that is not 4 KiB-aligned
names no report. (DEDUCED, log 129) -/
def State.attestation (s : State) (v : Word) : State :=
  let a := v.toNat
  if a % 4096 ≠ 0 || 2 ^ 52 ≤ a || regionOf a == .reserved || regionOf a == .window then s
  else
    let (ws, _, s1) := s.readWords 0 a 0 s.clock 4
    let nonce := ws.flatMap fun w => (List.range 8).map fun i => w.extractLsb' (8 * i) 8
    let rep := s1.reportBytes nonce
    let words := (List.range 96).map fun i => BitVec.ofNat 64
      ((List.range 8).foldl (fun x k => x + (rep.getD (8 * i + k) 0).toNat * 2 ^ (8 * k)) 0)
    { s1.writeWords 0 (a + 0x100) 0 words with attest := true }

def execAttestRequest (v : Word) (s : State) : Out := .next (s.attestation v)

/-! ### Reading a word -/

/-- The capability list of die 0 (R458). (DEDUCED, log 128) -/
def State.capability (s : State) (off : Nat) : Word :=
  let entry := fun (id next : Nat) => BitVec.ofNat 64 (id + 2 ^ 16 + next * 2 ^ 32)
  match off with
  | 0x00 => entry 1 0x10
  | 0x08 => 8
  | 0x10 => entry 2 0x20
  | 0x18 => 0xF
  | 0x20 => entry 3 0x30
  | 0x28 => BitVec.ofNat 64 (s.die 0).slices
  | 0x30 => entry 4 0x40
  | 0x38 => 16
  | 0x40 => entry 5 0x48
  | 0x48 => entry 6 0
  | _ => 0

/-- The seam status that die `d` reads for peer `p` (R139). -/
def State.seamWord (s : State) (d p : Nat) : Word :=
  if d = p then 0
  else
    let m := s.seams.get {} (seamKey d p)
    BitVec.ofNat 64 (m.wakefail.toNat * 2 ^ 48 + m.retrain.toNat * 2 ^ 32 + m.lstate.val)

/-- The ring of a tier holds a valid number of entries, and how many frames stand in it (R94). -/
def State.ringOk (s : State) (d t : Nat) : Bool :=
  let n := s.regField d (0x2000 + 0x100 * t + 0x10) 0 5
  6 ≤ n && n ≤ 24
def State.freeCount (s : State) (d t : Nat) : Nat :=
  (s.regField d (0x2000 + 0x100 * t + 0x18) 32 32 + 2 ^ 32 - s.regField d (0x2000 + 0x100 * t + 0x18) 0 32) % 2 ^ 32
/-- The tier 2 ring holds fewer than LOW frames. -/
def State.lowf (s : State) (d : Nat) : Bool := decide (s.freeCount d 2 < s.regField d 0x2208 0 32)

/-- The word at +0x00 of a migration engine: RETWAIT, LOWF and STALL as they stand. -/
def State.migrationWord (s : State) (d t : Nat) : Word :=
  let x := s.die d
  let w := s.reg d (0x2000 + 0x100 * t) &&& 0x15#64
  let stall : Bool := match x.mig.find t with
    | some j => j.stage == .take && (s.freeCount d (t + 1) == 0 || !(s.ringOk d (t + 1)))
    | none => false
  w ||| (if x.returns.any fun r => r.tier == t then 0x20#64 else 0) ||| (if t = 2 && s.lowf d then 8#64 else 0) |||
    (if stall then 2#64 else 0)

/-- The 8-byte word at an aligned offset of die `d`'s window; a word at which no register stands reads as zero (R61). -/
def State.readReg (s : State) (d off : Nat) : Word :=
  let x := s.die d
  match ctxAt d off with
  | some (id, o) => (s.ctx id).word o
  | none =>
    if off = 0x100 then s.boot.zeroExtend 64
    else if off = 0x188 then (if d = 0 && s.attest then 1 else 0)
    else if 0x400 ≤ off && off < 0x450 then (if d = 0 then s.capability (off - 0x400) else 0)
    else if off = 0x3200 then
      BitVec.ofNat 64 (x.copies % 2 ^ 32 * 2 ^ 32 + (if x.chfull then 4 else 0) + (if x.cow.any fun j => j.stage == .frame then 2 else 0)
        + (if s.owed x.sweepOwes || x.cow.any fun j => j.stage != .request then 1 else 0))
    else if 0x2000 ≤ off && off < 0x2300 && off % 0x100 = 0 then s.migrationWord d ((off - 0x2000) / 0x100)
    else if off = 0x4008 then x.dead.zeroExtend 64
    else if 0x4010 ≤ off && off < 0x4030 then s.seamWord d ((off - 0x4010) / 8)
    else if 0x10000 ≤ off && off < 0x20000 then
      let f := (off - 0x10000) / 16
      if f < 16 then 0
      else
        let e := x.flows.get (0, 0) f
        if off % 16 = 0 then e.1 else e.2
    else if (0x80_0000 ≤ off && off < 0x84_0000) || (0xC0_0000 ≤ off && off < 0xC8_0000) then
      BitVec.ofNat 64 ((List.range 8).foldl (fun a i => a + (x.access.get 0 (off + i)).toNat * 2 ^ (8 * i)) 0)
    else match attrKey off with
      | some k => BitVec.ofNat 64 ((List.range 8).foldl (fun a i => a + (x.attrs.get {} (k + i)).byte * 2 ^ (8 * i)) 0)
      | none => s.reg d off

/-! ### Writing a word -/

/-- The writable bits of a register that is plain storage. (DEDUCED, log 126) -/
def regMask (off : Nat) : Word :=
  if off = 0x200 then 0xFFF#64
  else if 0x1000 ≤ off && off < 0x1080 then 0x000F_FFFF_FFF0_0001#64
  else if 0x2000 ≤ off && off < 0x2300 then
    match off % 0x100 with
    | 0x08 | 0x18 => 0xFFFF_FFFF_FFFF_FFFF#64
    | 0x10 => 0x000F_FFFF_FFFF_F01F#64
    | 0x20 => 0x000F_FFFF_FFFF_FFF0#64
    | 0x28 => 0x01FF_FFFF_FFFF_FFFF#64
    | 0x30 => 0xFFFF_FFFF#64
    | _ => 0
  else if 0x3000 ≤ off && off < 0x3100 then
    if off % 16 = 0 then 0x000F_FFFF_FFF0_0001#64 else 0x000F_FFFF_FFFF_F03F#64
  else if off = 0x4100 then 0xFFFF#64
  else if off = 0x4108 || off = 0x4110 then 0x000F_FFFF_FFFF_0000#64
  else if off = 0x5000 then 0x000F_FFFF_FFE0_0001#64
  else if off = 0x6000 then 0x000F_FFFF_FFFF_F01F#64
  else if 0x7000 ≤ off && off < 0x7400 then
    if off % 16 = 0 then 0xFF0F_FFFF_FFFF_0000#64 else 0xFF_FFFF#64
  else if 0x20000 ≤ off && off < 0x22000 then 0x8000_0000_0000_FFFF#64
  else 0

/-- The writable bits of the two words of a flow table entry (R189). -/
def flowMask : Word × Word := (0xFFFF_C000_FFFF_FFFF#64, 0x83FF_C000_FFFF_FFFF#64)

/-- A write of the 8-byte word at an aligned offset of die `d`'s window. -/
def State.writeReg (s : State) (d off : Nat) (v : Word) : State :=
  match ctxAt d off with
  | some (id, o) => s.writeCtx id o v
  | none =>
    if off = 0x180 then (if d = 0 then s.attestation v else s)
    else if 0x2000 ≤ off && off < 0x2300 && off % 0x100 = 0 then s.writeMigration d ((off - 0x2000) / 0x100) v
    else if off = 0x3200 then (if wbit v 2 then s.updDie d fun x => { x with chfull := false } else s)
    else if off = 0x4000 then
      let x := withField (s.reg d off) 32 16 (wfield v 32 16)
      s.setReg d off (if wfield v 0 8 = 0 then x else withField x 0 8 (wfield v 0 8))
    else if off = 0x4120 then s.rclear d v
    else if off = 0x5008 then s.doorbell v
    else if off = 0x6008 then s.writeCons d v
    else if off = 0x6010 then s.giveVerdict d (wbit v 63) (wfield v 0 16)
    else if 0x6100 ≤ off && off < 0x6180 then
      s.setReg d off ((v.extractLsb' 0 57).signExtend 64 &&& 0xFFFF_FFFF_FFFF_FFF8#64)
    else if 0x6200 ≤ off && off ≤ 0x6240 then s.writePartition d off v
    else if 0x6300 ≤ off && off < 0x6330 then s.clearCounter d off
    else if 0x6800 ≤ off && off < 0x6840 then
      s.updDie d fun x =>
        let k := 8 * (off - 0x6800)
        let gap := ~~~((BitVec.ofNat 512 (2 ^ 64 - 1)) <<< k)
        { x with staged := (x.staged &&& gap) ||| ((v.zeroExtend 512) <<< k) }
    else if off = 0x6840 then s.keyCommand d v
    else if 0x10000 ≤ off && off < 0x20000 then
      let f := (off - 0x10000) / 16
      if f < 16 then s
      else s.updDie d fun x =>
        let e := x.flows.get (0, 0) f
        let y := if off % 16 = 0 then (v &&& flowMask.1, e.2) else (e.1, v &&& flowMask.2)
        { x with flows := Sparse.set (0, 0) x.flows f y }
    else if (0x80_0000 ≤ off && off < 0x84_0000) || (0xC0_0000 ≤ off && off < 0xC8_0000) then
      s.updDie d fun x =>
        let t := (List.range 8).foldl (fun t i => Sparse.set 0 t (off + i) (v.extractLsb' (8 * i) 8)) x.access
        { x with access := t }
    else if (attrKey off).isSome then s.writeAttrs d off v
    else
      let m := regMask off
      if m = 0 then s
      else
        let s1 := s.setReg d off ((s.reg d off &&& ~~~m) ||| (v &&& m))
        if off = 0x6000 then s1.send (.faultRingSpace (dieId d)) else s1

/-- A write of a window register that comes from outside; an address that is not 8-byte aligned names no register. -/
def execRegisterWrite (die : Die) (off : Nat) (v : Word) (s : State) : Out :=
  .next (if off % 8 = 0 && off < 2 ^ 30 then s.writeReg die.val off v else s)

/-- The window word at a physical address, for the role that executes with a privileged handler's right. -/
def windowDie (pa : Nat) : Nat := (pa - windowBase) / 2 ^ 30
def windowOff (pa : Nat) : Nat := (pa - windowBase) % 2 ^ 30

end Sys2Proof.Machine
end

