-- ==== Sys2Proof/Machine/SideLog.lean ====
section
/-! DEFINITION. The side log (20 R413-R418, 06 R157, R158): making an entry, replaying one, the verdicts of system software, the
refusals of a home, copy-on-write requests, and what goes on when the ring or the log has room again. -/
namespace Sys2Proof.Machine

/-! ### Copy-on-write requests (R111) -/

/-- Ask the snapshot engine of the die that homes the current frame for a copy; one request serves every store of one w. (DEDUCED, log 39) -/
def State.requestCopy (s : State) (vmid va w : Nat) (l : Leaf) (d : Nat) : State :=
  let home := s.homeOf (lineOf (l.frame * 2 ^ 16))
  if (s.die home).cow.any fun j => j.leafAddr == l.addr && j.w == w then s
  else
    let job : CowJob := { leafAddr := l.addr, vmid := vmid, va := va, chainAddr := (s.chainAddr? d vmid l.chain).getD 0, w := w,
                          oldFrame := l.frame }
    (s.updDie home fun x => { x with cow := x.cow ++ [job] }).send (.snapshotCopyRequest (dieId home))

/-! ### Entries -/

/-- How a store, reduction or accumulator write that fails at its walk goes on (R405 Table 1). -/
inductive LogHandling where
  | service | wait | final | abort
deriving DecidableEq, Repr

def logHandling (cause : Nat) : LogHandling :=
  if cause = cCOW ∨ cause = cMIG then .wait
  else if cause = cHOME_LOST then .final
  else if cause = cDATA_ERROR then .abort
  else .service

/-- The cause that a walk's answer gives a store. -/
def walkCause : WalkRes → Nat
  | .ok _ => 0
  | .fault c => c
  | .mig _ => cMIG
  | .cow _ _ => cCOW

/-- Add an entry to a core's log, before the role's entries of later instructions (R157). -/
def State.addEntry (s : State) (core : Nat) (e : LogEntry) : State :=
  s.updCore core fun k =>
    let before := k.log.takeWhile fun q => !(q.rid == e.rid && e.after < q.after)
    { k with log := before ++ e :: k.log.drop before.length }

/-- The entry of an instruction that a role issues now: it comes after all the operations of its core. -/
def State.entryNow (s : State) (rid : Nat) (r : Role) (pc : Word) (addr : Nat) (body : LogBody) : LogEntry :=
  { id := 0, rid := rid, pc := pc, addr := addr, state := .queued, body := body, wver := r.wver, asid := r.asid,
    after := (s.core r.core).nextOp, handler := r.handler }

/-- The entry of what is left of operation `n`. -/
def Op.entry (o : Op) (n : Nat) : LogEntry :=
  { id := 0, rid := o.rid, pc := o.pc, addr := (o.waiting.head?.map (·.va)).getD 0, state := .queued,
    body := .elems o.ty o.cls (o.waiting.map fun e => (e.lane, e.va, e.data)), wver := o.wver, asid := o.asid, after := n,
    handler := o.handler }

/-- Discard every entry of a role from entry `id` on (R158). -/
def State.discardFrom (s : State) (core rid id : Nat) : State :=
  s.updCore core fun k =>
    let before := (k.log.takeWhile fun e => !(e.id == id))
    let gone := ((k.log.drop before.length).filter fun e => e.rid == rid).map (·.id)
    { k with log := before ++ (k.log.drop before.length).filter fun e => e.rid != rid, jobs := loseEntries k.jobs gone }

/-- The final report of an entry (R416): it and the role's later entries are discarded, and a trap is pending. -/
def State.finalReport (s : State) (core : Nat) (e : LogEntry) (cause : Nat) : State :=
  let s1 := (s.discardFrom core e.rid e.id).addPending e.rid
    { cause := cause, addr := BitVec.ofNat 64 e.addr, pc := e.pc, final := true, wr := true }
  (s1.send (.pendingTrapTake e.rid)).send (.sidelogSpace core)

/-- Log the pending part of an instruction that failed at its walk, or that its home has refused (R221, R323, R334, R414, R418). The
role holds while the log or the ring has no room. -/
def State.logFault (s : State) (r : Role) (cause : Nat) (q : LogEntry) : State :=
  let k := s.core r.core
  if !(k.logRoom q.body) then s.setRole q.rid (r.holdAt .logSpace)
  else
    let e := { q with id := k.freeEntry, state := .logged cause none }
    let addr := BitVec.ofNat 64 e.addr
    match logHandling cause with
    | .wait => s.addEntry r.core e
    | .final => (s.addEntry r.core e).finalReport r.core e cause
    | .abort => s.abortGang e.rid cause addr e.pc
    | .service => match s.writeRecord { r with asid := e.asid } { addr := addr, pc := e.pc, entry := e.id, kind := 1, wr := true, cause := cause } with
      | none => s.setRole e.rid (r.holdAt .ring)
      | some (d, idx, s1) => s1.addEntry r.core { e with state := .logged cause (some (d, idx)) }

/-- Log a store of a role inside its window, as a queued entry (R157, R417); behind a lost store it is lost (R158). -/
def State.logQueued (s : State) (r : Role) (q : LogEntry) : State :=
  s.addEntry r.core { q with id := (s.core r.core).freeEntry, state := if r.doomed then .lost else .queued }

/-- The bytes from `va` overlap an element of a logged or queued store or accumulator write of the role. -/
def State.overlapsLog (s : State) (rid : Nat) (r : Role) (va n : Nat) : Bool :=
  ((s.core r.core).entriesOf rid).any fun e => match e.body with
    | .elems ty _ xs => xs.any fun x => decide (x.2.1 < va + n) && decide (va < x.2.1 + ty.bytes)
    | .accWrite a line _ => decide (a < va + n) && decide (va < a + (if line then 128 else 2048))
    | _ => false

/-- The role's side log holds an accumulator write to the bytes, which no later reduction of the role to its lines may pass (R334). -/
def State.loggedClear (s : State) (rid : Nat) (r : Role) (va n : Nat) : Bool :=
  ((s.core r.core).entriesOf rid).any fun e => match e.body with
    | .accWrite a line _ => decide (a < va + n) && decide (va < a + (if line then 128 else 2048))
    | _ => false

/-! ### Reductions as line updates (R237, R320) -/

/-- The exact accumulator value of an element (R272). -/
def accValOf (t : Ty) (p : Nat) : AccVal :=
  match t.fmt? with
  | some f => .af (BitVec.ofNat 96 (roundVal .af96 .rne (f.decode p)).1)
  | none => .ai (BitVec.ofInt 96 (t.toInt p))

/-- Add an element's part to the update of its line, when it is the last one listed; else start an update. -/
def addPart (us : List LineUpdate) (u : LineUpdate) : List LineUpdate :=
  match us.getLast? with
  | some l => if l.line = u.line && (l.parts.all fun p => u.parts.all fun q => p.slot != q.slot)
      then us.dropLast ++ [{ l with parts := l.parts ++ u.parts }] else us ++ [u]
  | none => us ++ [u]

/-- The eight slots of a line (R166). -/
def allSlots : List (Fin 8) := [0, 1, 2, 3, 4, 5, 6, 7]

/-- The flow word's fields (R236). -/
def flowOrd (w : Word) : Bool := wbit w 63
def flowId (w : Word) : BitVec 12 := w.extractLsb' 16 12
def flowSeq (w : Word) : BitVec 16 := w.extractLsb' 0 16

/-- The update of one element that has reached the physical address of its slot. -/
def elemUpdate (core rid vmid p : Nat) (pc : Word) (op : RedOp) (flow : Word) (t : Ty) (pa va x : Nat) : LineUpdate :=
  { line := lineOf pa, vmid := vmid, core := core, rid := rid,
    parts := [{ slot := Fin.ofNat 8 (canonPA pa / 16 % 8), val := some (accValOf t x), nx := false, ovf := false, inv := false }],
    op := op, ord := flowOrd flow, flow := flowId flow, seq := flowSeq flow, p := p, pc := pc, va := va }

/-! ### Replay (R415) -/

/-- Perform store elements in order: what is left from the first that fails, with its cause; none where all are performed. -/
def State.storeElems (s : State) (r : Role) (ty : Ty) (cls : AccClass) :
    List (Nat × Nat × Word) → Option (WalkRes × List (Nat × Nat × Word)) × State
  | [] => (none, s)
  | x :: rest =>
    let va := x.2.1
    match s.spot r .store none (ty.bytes = 8 && cls == .ordinary) va ty.bytes with
    | (.error w, s1) => (some (w, x :: rest), s1)
    | (.ok (.window pa), s1) =>
      State.storeElems (s1.writeReg (windowDie pa) (windowOff pa) x.2.2) r ty cls rest
    | (.ok sp, s1) => match s1.spotRmw r sp ty.bytes fun _ => x.2.2.toNat with
      | (.ok _, s2) => State.storeElems s2 r ty cls rest
      | (.error c, s2) => (some (.fault c, x :: rest), s2)

/-- The places that store elements reach, with the element: what the role has put into its stack area changes with its own stores
(R209). -/
def State.ownStores (s : State) (rid : Nat) (r : Role) (ty : Ty) (xs : List (Nat × Nat × Word)) : State :=
  if r.spilled.isEmpty then s
  else s.updRole rid fun q => xs.foldl (fun q x => match (s.spot r .store none false x.2.1 ty.bytes).1 with
    | .ok sp => q.overwrite sp.place ty.bytes x.2.2.toNat
    | .error _ => q) q

/-- Send the reductions of elements in order, one update a line; what is left from the first that fails. -/
def State.redElems (s : State) (r : Role) (rid : Nat) (pc : Word) (op : RedOp) (flow : Word) (ty : Ty) :
    List LineUpdate → List (Nat × Nat × Word) → Option (WalkRes × List (Nat × Nat × Word)) × List LineUpdate × State
  | us, [] => (none, us, s)
  | us, x :: rest =>
    match s.spot r .reduction none false x.2.1 16 with
    | (.error w, s1) => (some (w, x :: rest), us, s1)
    | (.ok (.mem m), s1) =>
      let u := elemUpdate r.core rid r.vmid (s1.core r.core).pts pc op flow ty m.pa x.2.1 (x.2.2.toNat % 2 ^ ty.width)
      State.redElems s1 r rid pc op flow ty (addPart us u) rest
    | (.ok _, s1) => (some (.fault cPERM, x :: rest), us, s1)

/-- What a replay that fails again does to its entry: it keeps the rest, and a service cause writes a new record. -/
def State.replayFault (s : State) (core : Nat) (r : Role) (e : LogEntry) (w : WalkRes) (addr : Nat) (body : LogBody) : State :=
  let cause := walkCause w
  let s0 := match w with
    | .cow l _ => s.requestCopy r.vmid addr e.wver l (dieOf core)
    | _ => s
  let put := fun (s : State) (st : LogState) => s.updCore core fun k =>
    { k with log := k.log.map fun q => if q.id == e.id && q.rid == e.rid then { q with state := st, body := body, addr := addr } else q }
  match logHandling cause with
  | .wait => put s0 (.logged cause none)
  | .final => (put s0 (.logged cause none)).finalReport core { e with addr := addr } cause
  | .abort => s0.abortGang e.rid cause (BitVec.ofNat 64 addr) e.pc
  | .service => match s0.writeRecord r { addr := BitVec.ofNat 64 addr, pc := e.pc, entry := e.id, kind := 1, wr := true, cause := cause } with
    | none => put s0 (.logged cause none)
    | some (d, idx, s1) => put s1 (.logged cause (some (d, idx)))

/-- An entry has been performed: it is freed, the role's next entry may replay, and a store may take its place. -/
def State.entryDone (s : State) (core rid id : Nat) : State :=
  let s1 := s.updCore core fun k => { k with log := k.log.filter fun e => !(e.id == id && e.rid == rid) }
  let s2 := match (s1.core core).entriesOf rid with
    | e :: _ => match e.state with
      | .queued | .logged _ none => s1.send (.sidelogReplay core e.id)
      | _ => s1
    | [] => s1
  s2.send (.sidelogSpace core)

/-- An entry that a verdict must release (R415). -/
def LogState.awaits : LogState → Bool
  | .logged _ (some _) => true
  | .logged _ none | .queued | .lost => false

/-- Operations of the role that come before an entry in program order and keep their order against a store (R157). -/
def State.replayHeld (s : State) (core : Nat) (e : LogEntry) : Bool :=
  ((s.core core).opsOf e.rid).any fun p => p.1 < e.after && (p.2.kind == .store || p.2.kind == .atomic ||
    (p.2.kind == .load && (p.2.cls != .streaming || p.2.waiting.any fun y => match e.body with
      | .elems ty _ xs => xs.any fun x => decide (x.2.1 < y.va + p.2.ty.bytes) && decide (y.va < x.2.1 + ty.bytes)
      | _ => false)))

/-- Replay entry `id` of a core when it is the first of its role and the role's accesses before it have been performed. (DEDUCED, log 38) -/
def State.replay (s : State) (core id : Nat) : State :=
  match (s.core core).log.find? fun e => e.id == id with
  | none => s
  | some e =>
    let r0 := (s.role? e.rid).getD {}
    let r := { r0 with wver := e.wver, asid := e.asid, handler := e.handler }
    if e.state == .lost || e.state.awaits then s
    else if (((s.core core).entriesOf e.rid).head?.map (·.id)) ≠ some id then
      s.updCore core fun k => { k with log := k.log.map fun q => if q.id == id then { q with state := .queued } else q }
    else if s.replayHeld core e then s.send (.sidelogReplay core id)
    else match e.body with
      | .elems ty cls xs => match s.storeElems r ty cls xs with
        | (none, s1) => (s1.ownStores e.rid r ty xs).entryDone core e.rid id
        | (some (w, left), s1) =>
          (s1.ownStores e.rid r ty (xs.take (xs.length - left.length))).replayFault core r e w ((left.head?.map (·.2.1)).getD 0)
            (.elems ty cls left)
      | .reds op flow ty xs => match s.redElems r e.rid e.pc op flow ty [] xs with
        | (none, us, s1) => (s1.sendUpdates (dieOf core) us).entryDone core e.rid id
        | (some (w, left), us, s1) =>
          (s1.sendUpdates (dieOf core) us).replayFault core r e w ((left.head?.map (·.2.1)).getD 0) (.reds op flow ty left)
      | .updates va us => if (s.core core).jobs.any fun j => j.logEntry == some id then s.send (.sidelogReplay core id)
        else match s.spot r .reduction none false va 16 with
        | (.ok (.mem m), s1) =>
          let first := (us.head?.map (·.line)).getD 0
          (s1.sendUpdates (dieOf core) (us.map fun u =>
            { u with line := lineOf m.pa + (u.line - first), p := (s1.core core).pts })).entryDone core e.rid id
        | (.ok _, s1) => s1.replayFault core r e (.fault cPERM) va e.body
        | (.error w, s1) => s1.replayFault core r e w va e.body
      | .accWrite va line acc => match s.spot r .accWrite none false va 16 with
        | (.ok (.mem m), s1) =>
          ((List.range (if line then 1 else 16)).foldl (fun s i => s.sendMsg (dieOf core) (s.homeOf (lineOf m.pa + i)) (.accumulatorAccess
            { line := lineOf m.pa + i, vmid := r.vmid, core := core, rid := e.rid, op := 2 ^ 32, slots := allSlots, lanes := [],
              acc := acc, p := (s1.core core).pts, pc := e.pc, va := va + 128 * i })) s1).entryDone core e.rid id
        | (.ok _, s1) => s1.replayFault core r e (.fault cPERM) va e.body
        | (.error w, s1) => s1.replayFault core r e w va e.body

def execSidelogReplay (core entry : Nat) (s : State) : Out := .next (s.replay core entry)

/-- SIDELOG_SPACE: the roles of the core that wait for room issue again (R414). -/
def execSidelogSpace (core : Nat) (s : State) : Out :=
  .next { s with roles := s.roles.map fun p =>
    if p.2.hold == .logSpace && p.2.core == core then (p.1, { p.2 with hold := .ready }) else p }

/-- Replay the entries of the package that wait for copies and migrations (R415). A copy or migration has made its writes up to the
time `t`: what the entry's role releases after the replay covers them, so its core's pts stands at `t` or above (R466). (DEDUCED, log 174) -/
def State.replayWaiting (s : State) (t : Nat) : State :=
  s.cores.foldl (fun s p => p.2.log.foldl (fun s e => match e.state with
    | .logged c none => if c = cCOW ∨ c = cMIG then (s.raisePts p.1 t).send (.sidelogReplay p.1 e.id) else s
    | _ => s) s) s

/-- The roles and operations held at a walk walk again. -/
def State.wakeWalks (s : State) : State :=
  { s with
    roles := s.roles.map fun p => if p.2.hold == .walk then (p.1, { p.2 with hold := .ready }) else p
    cores := s.cores.map fun c => (c.1, { c.2 with ops := c.2.ops.map fun p =>
      if p.2.stop == .moving then (p.1, { p.2 with stop := .walk }) else p }) }

/-- FAULT_RING_SPACE (R410, R442): the accesses and roles of the die that wait for a place are tried again. -/
def execFaultRingSpace (die : Die) (s : State) : Out :=
  let s1 : State := { s with roles := s.roles.map fun p =>
    if p.2.hold == .ring && dieOf p.2.core == die.val then (p.1, { p.2 with hold := .ready }) else p }
  .next (s1.cores.foldl (fun s p => if dieOf p.1 = die.val then p.2.log.foldl (fun s e => match e.state with
    | .logged c none => if c = cCOW ∨ c = cMIG then s else s.send (.sidelogReplay p.1 e.id)
    | _ => s) s else s) s1)

/-! ### Verdicts (R412, R415, R416, R443) -/

/-- The words of a record. -/
def State.recordWords (s : State) (d idx : Nat) : List Word × State :=
  let (ws, _, s1) := s.readWords d (recordAddr s d idx) 0 s.clock 6
  (ws, s1)

/-- The verdict on a record of KIND 0: the held access walks again, or the role traps. -/
def State.verdictHeld (s : State) (d idx : Nat) (ws : List Word) (final : Bool) : State :=
  let trap := fun (s : State) (rid : Nat) => s.trapWith rid (wfield (ws.getD 4 0) 0 8) false true true d idx (ws.getD 0 0) (ws.getD 1 0)
  match s.roles.find? fun p => p.2.hold == .service (dieId d) idx with
  | some (rid, r) =>
    let s1 := s.setRole rid { r with hold := .ready }
    if final then trap s1 rid else s1
  | none => match s.cores.findSome? fun c => (c.2.ops.find? fun p => p.2.stop == .record d idx).map fun p => (c.1, p) with
    | none => s
    | some (core, n, o) =>
      if final then trap (s.dropLoad core n o) o.rid
      else s.updCore core fun k => { k with ops := k.ops.put n { o with stop := .walk } }

/-- The verdict on a record of KIND 1: the entry replays, or it is final. -/
def State.verdictLogged (s : State) (d idx : Nat) (final : Bool) : State :=
  let hit := s.cores.findSome? fun p =>
    (p.2.log.find? fun e => match e.state with
      | .logged _ (some i) => i == (d, idx)
      | _ => false).map fun e => (p.1, e)
  match hit with
  | none => s
  | some (core, e) =>
    let cause := match e.state with
      | .logged c _ => c
      | .queued | .lost => 0
    if final then s.finalReport core e cause
    else (s.updCore core fun k => { k with log := k.log.map fun q =>
        if q.id == e.id && q.rid == e.rid then { q with state := .logged cause none } else q }).send (.sidelogReplay core e.id)

/-- A verdict on record `idx` of die `d`'s ring; for a gang that is not resident it is kept until the restore (R427). -/
def State.verdict (s : State) (d idx : Nat) (final : Bool) : State :=
  let (ws, s0) := s.recordWords d idx
  let w20 := ws.getD 4 0
  let st := ws.getD 5 0
  let kind := wfield w20 10 2
  if !(wbit st 0) || wbit st 1 || 2 ≤ kind then s0
  else
    let s1 := (s0.markDone d idx).send (.faultRingSpace (dieId d))
    let g := wfield (ws.getD 3 0) 0 32
    match s1.gang? g with
    | some x =>
      if x.state == .saved || x.state == .loading then s1.setGang g { x with verdicts := x.verdicts ++ [(dieId d, idx, final)] }
      else if kind = 0 then s1.verdictHeld d idx ws final else s1.verdictLogged d idx final
    | none => s1

def execFaultVerdictRetry (die : Die) (idx : Nat) (s : State) : Out := .next (s.verdict die.val idx false)
def execFaultVerdictFinal (die : Die) (idx : Nat) (s : State) : Out := .next (s.verdict die.val idx true)

/-! ### Refusals of a home (R418) -/

/-- A load or atomic fails after issue, at its line's home or at a later walk: a service cause writes a record of KIND 0 and holds the
role; another traps at the instruction, or aborts the gang (R405, R412, R418). With no place in the ring it is tried again (R410). (DEDUCED, log 36) -/
def State.failOp (s : State) (core n : Nat) (o : Op) (cause : Nat) (addr : Word) : State :=
  match s.role? o.rid with
  | none => s.dropLoad core n o
  | some r =>
    if r.ended then s.dropLoad core n o
    else match loadHandling cause with
      | .abort =>
        if s.abortWaits o.rid then s.updCore core fun k => { k with ops := k.ops.put n { o with sent := 0, stop := .walk } }
        else (s.dropLoad core n o).abortGang o.rid cause addr o.pc
      | .trap => (s.dropLoad core n o).trapWith o.rid cause false false false 0 0 addr o.pc
      | .service =>
        let put := fun (s : State) (x : OpStop) => s.updCore core fun k => { k with ops := k.ops.put n { o with sent := 0, stop := x } }
        match s.writeRecord { r with asid := o.asid } { addr := addr, pc := o.pc, kind := 0, wr := o.kind == .atomic, cause := cause } with
        | none => put s .walk
        | some (d, idx, s1) => put s1 (.record d idx)

/-- HOME_REFUSAL: a store's refused part enters the side log, and the role's later stores that have not left queue behind it (R157,
R158, R418). -/
def State.refuse (s : State) (m : StReqMsg) (cause : Nat) : State :=
  match (s.core m.core).ops.find m.op with
  | none => s
  | some o =>
    let gone := s.updCore m.core fun k => k.dropOp m.op
    match s.role? o.rid with
    | none => gone
    | some r =>
      let q := o.entry m.op
      if o.kind == .atomic then s.failOp m.core m.op o cause (BitVec.ofNat 64 q.addr)
      else if r.ended then gone
      else if !((gone.core m.core).logRoom q.body) then s.send (.homeRefusal m cause)
      else
        let s2 := gone.logFault r cause q
        if (s2.role? o.rid).any (fun x => x.hold == .ring && r.hold != .ring) then s.send (.homeRefusal m cause)
        else
          let later := ((s2.core m.core).opsOf o.rid).filter fun p => m.op < p.1 && p.2.kind == .store && p.2.sent = 0
          later.foldl (fun s p => match s.role? o.rid with
            | none => s
            | some q => (s.updCore m.core fun k => k.dropOp p.1).logQueued q (p.2.entry p.1)) s2

def execHomeRefusal (m : StReqMsg) (cause : Nat) (s : State) : Out := .next (s.refuse m cause)

end Sys2Proof.Machine
end

