-- ==== Sys2Proof/Machine/LoadStore.lean ====
section
/-! DEFINITION. Loads, stores and synchronisation (10 R217-R244): how an instruction's elements become an operation of its core,
how a core performs its operations in program order (06 R143-R146, 05 R120-R122), and the meanings of CLASS 13 to 17. -/
namespace Sys2Proof.Machine

/-! ### The L1 (R89, R120, R168, R169) -/

/-- The L1's ways: 24 less one for each 16 KiB of the shares that resident gangs hold on the core (R168). -/
def State.l1Ways (s : State) (core : Nat) : Nat :=
  24 - (s.gangs.foldl (fun a g => if g.2.state != .saved && g.2.state != .loading && g.2.cores.contains core then a + g.2.sp else a) 0) / 16384

/-- The most recently used lines of each set that `ways` ways hold, of lines listed most recently used first (R169). -/
def trimSets (ways : Nat) : List L1Line → List L1Line
  | [] => []
  | x :: rest =>
    let kept := trimSets ways rest
    let mates := kept.filter fun y => y.tag.va % 128 == x.tag.va % 128
    if ways = 0 then []
    else if mates.length < ways then x :: kept
    else match mates.getLast? with
      | some v => x :: kept.filter fun y => y.tag != v.tag
      | none => x :: kept

/-- A core drops the L1 lines of ways that a gang's share has taken (R170). -/
def State.trimL1 (s : State) (core : Nat) : State :=
  let ways := s.l1Ways core
  s.updCore core fun k => { k with l1 := trimSets ways k.l1 }

/-- Put a line into the L1 as the most recently used, evicting the least recently used of its set (R169). -/
def State.installL1 (s : State) (core : Nat) (x : L1Line) : State :=
  let ways := s.l1Ways core
  s.updCore core fun k => { k with l1 := trimSets ways (x :: k.l1.filter fun y => y.tag != x.tag) }

def Core.l1? (k : Core) (t : L1Tag) : Option L1Line := k.l1.find? fun y => y.tag == t
def Core.updL1 (k : Core) (t : L1Tag) (f : L1Line → L1Line) : Core :=
  { k with l1 := k.l1.map fun y => if y.tag == t then f y else y }

def L1Line.isView (x : L1Line) : Bool := x.tag.ver.isSome

/-- The tag of an address of a role (R89). (DEDUCED, log 28) -/
def Role.tag (r : Role) (va : Nat) (ver : Option Nat) : L1Tag :=
  { va := va % 2 ^ 57 / 128, asid := r.asid, vmid := r.vmid, ver := ver }

/-- The L1 line that an access may use without a walk: the R, W and PRIV bits and, for a store to a versioned page, the
recorded VER allow it (R89, R110). -/
def State.l1Usable (s : State) (r : Role) (va : Nat) (view : Option Nat) (write : Bool) : Option L1Line :=
  let k := s.core r.core
  let ok := fun (x : L1Line) => (x.perm.r || write) && (!write || (x.perm.w && (!x.perm.vers || x.perm.ver == r.wver))) &&
    (!x.perm.priv || r.handler)
  match view with
  | none => match k.l1? (r.tag va none) with
    | some x => if ok x then some x else none
    | none => none
  | some v =>
    match k.resolutions.find? fun q => q.va == va / 2 ^ 16 && q.vmid == r.vmid && q.asid == r.asid && q.view == v with
    | some q => match k.l1? (r.tag va (some q.ver)) with
      | some x => if ok x then some x else none
      | none => none
    | none => match k.l1? (r.tag va none) with
      | some x => if ok x && !x.perm.vers then some x else none
      | none => none

/-! ### From elements to targets -/

/-- An element of an instruction at issue. -/
structure ElemReq where
  lane : Nat
  ea : Int
  data : Word := 0
  elem : ElemOp := .load
deriving DecidableEq, Repr

/-- The first element that fails a check of issue, with its cause (R219). -/
def State.firstIssue (s : State) (r : Role) (a : Acc) (z align : Nat) (es : List ElemReq) : Option (Nat × Word) :=
  es.findSome? fun e => (s.issueCause r a e.ea z align).map fun c => (c, addr64 e.ea)

/-- The spot of one element by a walk (R87); a core keeps what a view resolved to (R107). -/
def State.walkElem (s : State) (r : Role) (a : Acc) (view : Option Nat) (plain : Bool) (va z : Nat) : Except WalkRes Spot × State :=
  match s.spot r a view plain va z, view with
  | (.ok (.mem m), s1), some v =>
    let keep := fun (ver : Nat) => s1.updCore r.core fun k =>
      let q : Resolution := { va := va / 2 ^ 16, vmid := r.vmid, asid := r.asid, view := v, frame := m.pa / 2 ^ 16, ver := ver }
      let rest := k.resolutions.filter fun x => !(x.va == q.va && x.vmid == q.vmid && x.asid == q.asid && x.view == q.view)
      { k with resolutions := q :: rest }
    (.ok (.mem m), match m.retained with
      | some ver => keep ver
      | none => s1)
  | x, _ => x

/-- The target of an element at `va` whose spot is found; `m` is the reach of its page. -/
def Role.memTarget (r : Role) (va : Nat) (m : Reach) : Target :=
  let pa := m.pa / 2 ^ 16 * 2 ^ 16 + va % 2 ^ 16
  .mem (lineOf pa) (canonPA pa % 128) (r.tag va m.retained) m.perm m.retained.isSome m.acc

/-- The targets of elements in order up to the first that fails at its walk: those before it, and the failure with what is left. The
elements of one page are walked once (R223): `pages` holds the pages that have been. An element takes its line of the L1 where every
element of its page finds one there (`viaL1`). -/
def State.targetsFrom (s : State) (r : Role) (a : Acc) (view : Option Nat) (plain : Bool) (z : Nat) (viaL1 : Nat → Option L1Line) :
    List (Nat × Reach) → List ElemReq → List OpElem × Option (WalkRes × List ElemReq) × State
  | _, [] => ([], none, s)
  | pages, e :: rest =>
    let va := e.ea.toNat
    let elem := fun (t : Target) => ({ lane := e.lane, va := va, target := t, data := e.data, elem := e.elem } : OpElem)
    let go := fun (s : State) (pages : List (Nat × Reach)) (t : Target) =>
      let (xs, f, s2) := State.targetsFrom s r a view plain z viaL1 pages rest
      (elem t :: xs, f, s2)
    match viaL1 va with
    | some x => go s pages (.mem x.line (va % 128) x.tag x.perm x.isView false)
    | none => match pages.find? fun p => p.1 == va / 2 ^ 16 with
      | some p => go s pages (r.memTarget va p.2)
      | none => match s.walkElem r a view plain va z with
        | (.error w, s1) => ([], some (w, e :: rest), s1)
        | (.ok (.spad rank off), s1) => go s1 pages (.spad rank off)
        | (.ok (.window pa), s1) => go s1 pages (.window pa)
        | (.ok (.mem m), s1) => go s1 ((va / 2 ^ 16, m) :: pages) (r.memTarget va m)

/-- The targets of an instruction's elements; `l1` says that it may use lines of the L1 (R89). -/
def State.targetsOf (s : State) (r : Role) (a : Acc) (view : Option Nat) (plain l1 : Bool) (z : Nat) (es : List ElemReq) :
    List OpElem × Option (WalkRes × List ElemReq) × State :=
  let line := fun (va : Nat) => if l1 && !(onChip va) then s.l1Usable r va view a.writes else none
  let missing := (es.filter fun e => (line e.ea.toNat).isNone).map fun e => e.ea.toNat / 2 ^ 16
  s.targetsFrom r a view plain z (fun va => if missing.contains (va / 2 ^ 16) then none else line va) [] es

/-! ### Performing operations in program order (R120, R121, R143) -/

/-- Streaming operations keep no place among the others (R141). -/
def Op.inOrder (o : Op) : Bool := o.cls != .streaming && o.kind != .accRead && o.kind != .accWrite

/-- Elements of two operations touch common bytes. -/
def overlapOps (a b : Op) : Bool :=
  a.waiting.any fun x => b.waiting.any fun y =>
    decide (x.va < y.va + b.ty.bytes) && decide (y.va < x.va + a.ty.bytes)

/-- An operation that writes memory for a store or an atomic. -/
def Op.stores (o : Op) : Bool := o.kind == .store || o.kind == .atomic

/-- The earlier operation `p` comes before `o` (R143): both are ordinary, or they touch common bytes; and of two that store, the first
must not be lost once the second is visible, unless both are streaming (R145, R158). (DEDUCED, log 161) -/
def Op.leads (p o : Op) : Bool :=
  !(p.cls == .commutative && o.cls == .commutative) &&
  ((p.inOrder && o.inOrder) || overlapOps p o || (p.stores && o.stores && !(p.cls == .streaming && o.cls == .streaming)))

/-- Operation `n` may start: no earlier one of its role has to come first, and a store, an atomic or an overlapping load waits for
earlier entries of the side log (R143, R157). (DESIGN CHOICE, log 32) -/
def State.mayStart (s : State) (core n : Nat) (o : Op) : Bool :=
  let k := s.core core
  let entries := (k.entriesOf o.rid).filter fun e => e.after ≤ n
  !((k.opsOf o.rid).any fun p => p.1 < n && p.2.leads o) &&
  !(o.stores && !entries.isEmpty) &&
  !(o.kind == .load && entries.any fun e => match e.body with
    | .elems ty _ xs => xs.any fun x => o.waiting.any fun y =>
        decide (x.2.1 < y.va + o.ty.bytes) && decide (y.va < x.2.1 + ty.bytes)
    | _ => false)

/-- A complete load or atomic writes its destination, and its slot counts one less (R222, R234). -/
def State.finishOp (s : State) (core n : Nat) (o : Op) : State :=
  let s1 := s.updCore core fun k => k.dropOp n
  s1.updRole o.rid fun r =>
    let r1 := match o.dst with
      | none => r
      | some d => if d.isScalar then (match o.got.head? with
          | some g => r.setSreg d.num g.2
          | none => r)
        else o.got.foldl (fun q g => q.setVreg d.num g.1 g.2) r
    if o.ws = 0 then r1 else r1.slotDone o.ws

/-- A core meets its L1 copy of a line: an error that ECC corrects is counted, and true is an uncorrectable one (R178). -/
def State.l1Check (s : State) (core line : Nat) : State × Bool :=
  let k := s.core core
  if k.badL1.contains line then (s, true)
  else if k.weakL1.contains line then
    ((s.updCore core fun k => { k with weakL1 := k.weakL1.filter (· != line) }).countError (dieOf core) 0x6310, false)
  else (s, false)

/-- The L1 line of a tag becomes the most recently used, changed by `f` (R169). -/
def Core.useL1 (k : Core) (t : L1Tag) (f : L1Line → L1Line) : Core :=
  { k with l1 := ((k.l1? t).toList.map f) ++ k.l1.filter fun y => y.tag != t }

/-- The load of `o`'s head element from the L1 line of a tag, when the line is current enough: the value. The first load that meets a
prefetched line brings pts to the line's wts before the check is made (R177). -/
def State.l1Load (s : State) (core : Nat) (o : Op) (tag : L1Tag) (off : Nat) : Option Word × State :=
  match (s.core core).l1? tag with
  | none => (none, s)
  | some x =>
    let (s0, bad) := s.l1Check core x.line
    if bad then (none, s0)
    else
      let s1 := ((if x.pf then s0.raisePts core x.wts else s0).updCore core fun k => k.updL1 tag fun y => { y with pf := false })
      let k := s1.core core
      let sf := ((s.role? o.rid).map (·.sf)).getD 0
      let hit := x.isView || (if o.cls == .streaming then decide (sf ≤ x.rts) && decide (k.pts ≤ x.rts + s.lease (dieOf core))
        else decide (k.pts ≤ x.rts))
      if !hit then (none, s1)
      else
        let k1 := if k.aged then { k with pts := k.pts + 1, aged := false, hitSince := false } else { k with hitSince := true }
        (some (BitVec.ofNat 64 (lineField x.data (off % 128) o.ty.bytes)), s1.setCore core (k1.useL1 tag id))

/-- The head element of an operation is performed, with the value it returns. -/
def Op.take (o : Op) (v : Word) : Op :=
  match o.waiting with
  | [] => o
  | e :: rest => { o with waiting := rest, sent := 0, got := if o.dst.isSome then o.got ++ [(e.lane, v)] else o.got }

/-- Perform what can be performed of an operation, element by element: register-window words at once, loads that the L1 serves,
and a request for the first element that needs one. -/
def State.pumpOp (s : State) (core n : Nat) : Nat → Op → State
  | 0, o => s.updCore core fun k => { k with ops := k.ops.put n o }
  | fuel + 1, o =>
    match o.waiting with
    | [] => s.finishOp core n o
    | e :: _ =>
      let keep := fun (s : State) (o : Op) => s.updCore core fun k => { k with ops := k.ops.put n o }
      let write := o.kind != .load
      match e.target with
      | .window pa =>
        if write then State.pumpOp (s.writeReg (windowDie pa) (windowOff pa) e.data) core n fuel (o.take 0)
        else State.pumpOp s core n fuel (o.take (s.readReg (windowDie pa) (windowOff pa)))
      | .spad rank off =>
        let g := ((s.role? o.rid).map (·.gang)).getD 0
        (keep s { o with sent := 1 }).send (.scratchpadAccess
          { core := core, op := n, lane := e.lane, gang := g, rank := rank, off := off, ty := o.ty, size := o.ty.bytes,
            data := e.data, elem := e.elem, p := if o.cls == .streaming && write then o.p else (s.core core).pts })
      | .mem line off tag perm view acc =>
        if write then
          (keep s { o with sent := 1 }).send (.streq
            { core := core, op := n, lane := e.lane, line := line, vmid := tag.vmid, tag := tag, off := off, ty := o.ty,
              size := o.ty.bytes, data := e.data, elem := e.elem, cls := o.cls,
              p := if o.cls == .streaming then o.p else (s.core core).pts })
        else match (if acc then (none, s) else s.l1Load core o tag off) with
          | (some v, s1) => State.pumpOp s1 core n fuel (o.take v)
          | (none, s0) =>
            let bad := (s0.core core).badL1.contains line
            let old := if bad then none else ((s0.core core).l1? tag).map (·.wts)
            let s1 := if bad then s0.updCore core fun k => { (k.dropL1 line) with badL1 := k.badL1.filter (· != line) } else s0
            (keep s1 { o with sent := 1 }).send (.ldreq
              { core := core, op := some n, line := line, vmid := tag.vmid, tag := tag, perm := perm, p := (s0.core core).pts,
                oldWts := if view then none else old, view := view, acc := acc, l2only := false })

/-- The next line that a slot access of the core sends its request for: all of a write's lines at once, a read's one by one (R333). -/
def accRequest (core n : Nat) (o : Op) (vmid : Nat) (acc : AccAccess) (es : List OpElem) (p : Nat) : Option (Nat × Instr) :=
  match es with
  | [] => none
  | e :: _ => match e.target with
    | .mem line _ _ _ _ _ =>
      let mine := es.filter fun x => match x.target with
        | .mem k _ _ _ _ _ => k == line
        | _ => false
      let slot := fun (x : OpElem) => match x.target with
        | .mem _ off _ _ _ _ => Fin.ofNat 8 (off / 16)
        | _ => 0
      some (line, .accumulatorAccess
        { line := line, vmid := vmid, core := core, rid := o.rid, op := n, slots := if acc == .read then mine.map slot else allSlots,
          lanes := if acc == .read then mine.map (·.lane) else [], acc := acc, p := p, pc := o.pc, va := e.va })
    | _ => none

/-- Ask for the next line of a slot read, at its home (R134). -/
def State.askSlots (s : State) (core n : Nat) (o : Op) (vmid : Nat) : State :=
  match accRequest core n o vmid .read o.waiting (s.core core).pts with
  | some (line, i) => s.sendMsg (dieOf core) (s.homeOf line) i
  | none => s

/-- The slots of a read in one page, from the reach of `va`. -/
def slotElems (r : Role) (m : Reach) (va : Nat) (ls : List (Nat × Nat)) : List OpElem :=
  ls.map fun l =>
    let pa := canonPA (m.pa / 2 ^ 16 * 2 ^ 16 + l.2 % 2 ^ 16)
    { lane := l.1, va := l.2, target := .mem (pa / 128) (pa % 128) (r.tag va none) m.perm false true }

/-- A slot read that its home has refused walks again (R412). -/
def State.rewalkSlots (s : State) (core n : Nat) (o : Op) (r : Role) : State :=
  let va := (o.waiting.head?.map (·.va)).getD 0
  let put := fun (s : State) (o : Op) => s.updCore core fun k => { k with ops := k.ops.put n o }
  match s.spot r .accRead none false va 16 with
  | (.ok (.mem m), s1) =>
    let o1 := { o with waiting := slotElems r m va (o.waiting.map fun e => (e.lane, e.va)), stop := .go }
    (put s1 o1).askSlots core n o1 r.vmid
  | (.ok _, s1) => s1.failOp core n o cPERM (BitVec.ofNat 64 va)
  | (.error (.fault c), s1) => s1.failOp core n o c (BitVec.ofNat 64 va)
  | (.error _, s1) => put s1 { o with stop := .moving }

/-- An operation that a home has refused walks again (R412): it goes on, or it meets another cause. -/
def State.rewalk (s : State) (core n : Nat) (o : Op) : State :=
  match s.role? o.rid with
  | none => s
  | some r0 =>
    let r := { r0 with asid := o.asid, wver := o.wver, handler := o.handler }
    let es := o.waiting.map fun e => ({ lane := e.lane, ea := e.va, data := e.data, elem := e.elem } : ElemReq)
    let put := fun (s : State) (o : Op) => s.updCore core fun k => { k with ops := k.ops.put n o }
    if o.kind == .accRead then s.rewalkSlots core n o r
    else match s.targetsOf r (if o.kind == .atomic then .atomic else .load) o.view (o.ty.bytes = 8 && o.cls == .ordinary) false o.ty.bytes es with
    | (xs, none, s1) => put s1 { o with waiting := xs, sent := 0, stop := .go }
    | (_, some (w, left), s1) =>
      let va := ((left.head?.map fun (e : ElemReq) => e.ea).getD 0).toNat
      match w with
      | .fault c => s1.failOp core n o c (BitVec.ofNat 64 va)
      | .cow l _ => put (s1.requestCopy r.vmid va r.wver l (dieOf core)) { o with stop := .moving }
      | _ => put s1 { o with stop := .moving }

/-- Every operation of the core that may start goes on, in issue order. -/
def State.pump (s : State) (core : Nat) : State :=
  (s.core core).ops.foldl (fun s p => match (s.core core).ops.find p.1 with
    | some o => if o.stop == .walk then s.rewalk core p.1 o else if o.stop == .go && o.sent = 0 && o.kind != .accRead && o.kind != .accWrite && s.mayStart core p.1 o then
        s.pumpOp core p.1 (o.waiting.length + 1) o else s
    | none => s) s

/-- A new operation of the issuing role; `pos` of the role has been brought past the instruction. -/
def State.startOp (s : State) (rid : Nat) (r : Role) (o : Op) : State :=
  let n := (s.core r.core).nextOp
  let s1 := s.updCore r.core fun k => 
    { k with ops := k.ops.put n { o with rid := rid, pc := r.ipc, p := k.pts, asid := r.asid, wver := r.wver, handler := r.handler },
             nextOp := n + 1 }
  let r1 := match o.dst with
    | some d => if o.ws = 0 then r else r.bindSlot o.ws [d]
    | none => r
  (s1.setRole rid r1.advance).pump r.core

/-! ### Replies (R119-R121) -/

/-- The reply leaves its mark on the core's L1. LDDATA installs the line where its lease still covers pts; RENEW extends the lease of the
copy that it answers for, which becomes the most recently used (R120, R169). An accumulator line, and a line wanted in the L2 alone, are
not installed (R134, R176). (DEDUCED, log 162) -/
def State.fillL1 (s : State) (m : LdReply) (renew : Bool) : State :=
  let q := m.req
  if q.acc || q.l2only then s
  else if renew then s.updCore q.core fun k => match k.l1? q.tag with
    | some y => if some y.wts = q.oldWts then k.useL1 q.tag fun y => { y with rts := max y.rts m.rts } else k
    | none => k
  else if q.view || (s.core q.core).pts ≤ m.rts then
    s.installL1 q.core { tag := q.tag, line := q.line, perm := q.perm, data := m.data, wts := m.wts, rts := m.rts, pf := q.op.isNone }
  else s

/-- LDDATA and RENEW: pts rises, the L1 takes what the reply brings, and the waiting load is performed where the lease covers it; else
it asks again (R120). -/
def State.takeLine (s : State) (m : LdReply) (renew : Bool) : State :=
  let q := m.req
  let s0 := if q.op.isNone then s.updCore q.core fun k => { k with prefetches := k.prefetches - 1 } else s
  match q.op with
  | none => if m.error.isSome then s0 else s0.fillL1 m renew
  | some n => match m.error with
    | some c => match (s0.core q.core).ops.find n with
      | some o => (s0.failOp q.core n o c (BitVec.ofNat 64 ((o.waiting.head?.map (·.va)).getD 0))).pump q.core
      | none => s0
    | none =>
      let s1 := (if q.view then s0 else s0.raisePts q.core m.wts).fillL1 m renew
      match (s1.core q.core).ops.find n with
      | none => s1
      | some o =>
        let data : Option LineData := if renew then (match (s1.core q.core).l1? q.tag with
            | some y => if some y.wts = q.oldWts then some y.data else none
            | none => none) else some m.data
        let served : Op := match data, o.waiting with
          | some x, e :: _ => match e.target with
            | .mem _ off _ _ _ _ =>
              if q.acc || q.view || (s1.core q.core).pts ≤ m.rts then o.take (BitVec.ofNat 64 (lineField x off o.ty.bytes))
              else { o with sent := 0 }
            | _ => { o with sent := 0 }
          | _, _ => { o with sent := 0 }
        (s1.updCore q.core fun k => { k with ops := k.ops.put n served }).pump q.core

/-- LDDATA and RENEW reach the core (R120). (DEDUCED, log 27) -/
def execLddata (m : LdReply) (s : State) : Out := .next (s.takeLine m false)
def execRenew (m : LdReply) (s : State) : Out := .next (s.takeLine m true)

/-- STDONE: pts rises, the core's own copy takes the line as the store has left it, and the operation goes on (R121, R234). What the
role has put into its stack area changes with its own store (R209). (DEDUCED, log 26) -/
def State.takeStdone (s : State) (m : StReply) : State :=
  let q := m.req
  match (s.core q.core).ops.find q.op with
  | none => s
  | some o =>
    match m.error with
    | some c => (s.failOp q.core q.op o c (BitVec.ofNat 64 ((o.waiting.head?.map (·.va)).getD 0))).pump q.core
    | none =>
      let s1 := (s.raisePts q.core m.wts).updCore q.core fun k =>
        { (k.ownWrite q.line m.bytes m.wts) with ops := k.ops.put q.op (o.take m.old) }
      (s1.updRole o.rid fun r => r.overwrite (128 * q.line + q.off) q.size m.new.toNat).pump q.core

def execStdone (m : StReply) (s : State) : Out := .next (s.takeStdone m)

/-- SCRATCHPAD_ACCESS (R144, R172, R178). -/
def State.spadAccess (s : State) (m : SpadReq) : State :=
  match (s.core m.core).ops.find m.op with
  | none => s
  | some o =>
    let (s0, bad) := s.spadCheck m.gang m.rank m.off
    if bad then (s0.failOp m.core m.op o cDATA_ERROR (BitVec.ofNat 64 ((o.waiting.head?.map (·.va)).getD 0))).pump m.core
    else
      let write := m.elem != .load
      let (t, s1) := s0.spadTime m.gang m.rank m.p write
      let old := s1.spadGet m.gang m.rank m.off m.size
      let new := elemNew m.ty (8 * m.size) m.elem old m.data.toNat
      let s2 := if write then (s1.spadPut m.gang m.rank m.off m.size new).updRole o.rid fun r =>
          if (s1.role? o.rid).any (·.gang == m.gang) then r.overwrite (Spot.place (.spad m.rank m.off)) m.size new else r
        else s1
      ((s2.raisePts m.core t).updCore m.core fun k => { k with ops := k.ops.put m.op (o.take (BitVec.ofNat 64 old)) }).pump m.core

def execScratchpadAccess (r : SpadReq) (s : State) : Out := .next (s.spadAccess r)

/-- PTS_AGE: 1,024 cycles have passed since the core's pts last changed (R122). -/
def execPtsAge (core : Nat) (s : State) : Out :=
  .next (s.updCore core fun k =>
    if k.hitSince then { k with pts := k.pts + 1, hitSince := false, aged := false } else { k with aged := true })

/-! ### Issue of loads -/

def accClassOf (acl : BitVec 2) : AccClass := if acl = 1 then .streaming else if acl = 2 then .commutative else .ordinary

/-- The lanes of a form: lane 0 of a scalar form, else the active lanes (R222). -/
def Role.formLanes (r : Role) (d : RegName) (mask : BitVec 3) : List Nat := if d.isScalar then [0] else r.active mask

/-- The view that a VIEW field names: none for vw0 (R104). -/
def Role.viewOf (r : Role) (v : BitVec 4) : Option Nat := if v = 0 then none else some (Sparse.get 0 r.views v.toNat)

/-- Issue a load of elements under a view and a class. With no active lane it changes nothing (R206). `fix` is applied to the role when
the operation starts, `undo` is the slot and position of an LDSP, and `got` are destination lanes that take a value without an access
(R227). -/
def State.issueLoad (s : State) (rid : Nat) (r : Role) (ty : Ty) (cls : AccClass) (view : Option Nat) (d : RegName) (ws : Nat)
    (es : List ElemReq) (got : List (Nat × Word)) (undo : Option (Nat × Nat)) (fix : Role → Role) : State :=
  let z := ty.bytes
  match s.firstIssue r .load z z es with
  | some (c, a) => s.trap rid c a
  | none =>
    if es.isEmpty && got.isEmpty then s.setRole rid r.advance
    else if es.any fun e => s.overlapsLog rid r e.ea.toNat z then s.setRole rid (r.holdAt .overlap)
    else if view.isSome && s.opsDue rid r (fun o _ => o.inOrder) then s.setRole rid (r.holdAt .drain)
    else match s.targetsOf r .load view (z = 8 && cls == .ordinary) true z es with
      | (_, some (w, left), s1) => s1.loadStop rid w (addr64 ((left.head?.map (·.ea)).getD 0)) r.ipc false
      | (xs, none, s1) =>
        s1.startOp rid (fix r) { rid := rid, pc := 0, kind := .load, ty := ty, dst := some d, ws := ws, cls := cls, waiting := xs, got := got,
                                  undo := undo, view := view }

/-! ### Issue of stores -/

/-- A role that did not hold holds now, or has ended: the instruction did not go on. -/
def State.stopped? (s : State) (rid : Nat) : Bool :=
  match s.role? rid with
  | some r => r.ended || r.hold == .logSpace || r.hold == .ring
  | none => true

/-- Issue a store of elements whose checks of issue have passed (R157, R221). The role advances unless it must hold. -/
def State.issueStore (s : State) (rid : Nat) (r : Role) (ty : Ty) (cls : AccClass) (es : List ElemReq) (fix : Role → Role) : State :=
  let z := ty.bytes
  let raw := fun (l : List ElemReq) => l.map fun e => (e.lane, e.ea.toNat, e.data)
  match es with
  | [] => s.setRole rid (fix r).advance
  | e0 :: _ =>
    if s.windowOpen rid r then
      let body := LogBody.elems ty cls (raw es)
      if 16 ≤ ((s.core r.core).entriesOf rid).length then s.trap rid cLOGFULL (addr64 e0.ea)
      else if !((s.core r.core).logRoom body) then s.setRole rid (r.holdAt .logSpace)
      else (s.logQueued r (s.entryNow rid r r.ipc e0.ea.toNat body)).updRole rid fun q => (fix q).advance
    else match s.targetsOf r .store none (z = 8 && cls == .ordinary) true z es with
      | (xs, none, s1) =>
        s1.startOp rid (fix r) { rid := rid, pc := 0, kind := .store, ty := ty, cls := cls, waiting := xs }
      | (xs, some (w, left), s1) =>
        let addr := (left.head?.map (·.ea.toNat)).getD 0
        let s2 := match w with
          | .cow l _ => s1.requestCopy r.vmid addr r.wver l (dieOf r.core)
          | _ => s1
        let n := (s2.core r.core).nextOp
        let s3 := s2.logFault r (walkCause w) { s2.entryNow rid r r.ipc addr (.elems ty cls (raw left)) with after := n + (if xs.isEmpty then 0 else 1) }
        if s3.stopped? rid then s3
        else match s3.role? rid with
          | some q => if xs.isEmpty then s3.setRole rid (fix q).advance
            else s3.startOp rid (fix q) { rid := rid, pc := 0, kind := .store, ty := ty, cls := cls, waiting := xs }
          | none => s3

/-! ### LD, ST and the window forms (R222-R224) -/

def offM (o : FmtM) : Int := o.off.toInt
def offMA (o : FmtMA) : Int := o.off.toInt
/-- s[BASE] + offset, exactly. -/
def Role.based (r : Role) (base : BitVec 6) (off : Int) : Int := ((r.sreg base.toNat).toNat : Int) + off

/-- Elements of consecutive addresses. -/
def elemsFrom (r : Role) (ls : List Nat) (e : Int) (step : Nat) (d : RegName) (op : ElemOp) : List ElemReq :=
  ls.map fun l => { lane := l, ea := e + (step * l : Nat), data := r.read d l, elem := op }

def loadM (o : FmtM) (ea : Role → Except Word Int) (s : State) : Out :=
  onRole s fun rid r => match ea r with
    | .error a => s.trap rid cNOTPRESENT a
    | .ok e => s.issueLoad rid r o.ty (accClassOf o.acl) (r.viewOf o.view) o.d o.ws.toNat
        (elemsFrom r (r.formLanes o.d o.mask) e o.ty.bytes o.d .load) [] none id

def storeM (o : FmtM) (ea : Role → Except Word Int) (s : State) : Out :=
  onRole s fun rid r => match ea r with
    | .error a => s.trap rid cNOTPRESENT a
    | .ok e =>
      let es := elemsFrom r (r.formLanes o.d o.mask) e o.ty.bytes o.d .store
      match s.firstIssue r .store o.ty.bytes o.ty.bytes es with
      | some (c, a) => s.trap rid c a
      | none => s.issueStore rid r o.ty (accClassOf o.acl) es id

def plainEA (o : FmtM) (r : Role) : Except Word Int := .ok (r.based o.base (offM o))
/-- The address of a window form (R224). -/
def windowEA (o : FmtM) (lo : Nat) (r : Role) : Except Word Int :=
  let x := r.based o.base (offM o)
  if x < 0 ∨ (2 ^ 40 : Int) ≤ x then .error (addr64 x) else .ok ((lo : Int) + x)

def execLd (o : FmtM) (s : State) : Out := loadM o (plainEA o) s
def execSt (o : FmtM) (s : State) : Out := storeM o (plainEA o) s
def execLdsc (o : FmtM) (s : State) : Out := loadM o (windowEA o onChipLocal) s
def execStsc (o : FmtM) (s : State) : Out := storeM o (windowEA o onChipLocal) s
def execLdcl (o : FmtM) (s : State) : Out := loadM o (windowEA o onChipLo) s
def execStcl (o : FmtM) (s : State) : Out := storeM o (windowEA o onChipLo) s

/-! ### Stream slots (R225-R229) -/

/-- T, the stream's length (R225). -/
def Stream.len (x : Stream) : Nat := (x.counts.take x.ndim).foldl (· * ·) 1

/-- The sum of tuple indices times strides, dimension 0 fastest. -/
def strideSum : Nat → List (Nat × Int) → Int
  | _, [] => 0
  | i, (c, st) :: rest => ((i % c : Nat) : Int) * st + strideSum (i / c) rest

/-- Address(i) (R225). -/
def Stream.addr (x : Stream) (i : Nat) : Int := (x.base : Int) + strideSum i ((x.counts.zip x.strides).take x.ndim)

def tyOfCode (c : Nat) : Ty :=
  ([.i64, .n64, .i32, .n32, .i16, .n16, .i8, .n8, .f64, .f32, .bf16, .f16, .e4m3, .e5m2, .t2, .b1] : List Ty).getD c .i64

/-- The slot that a stream pattern record describes; none where a reserved bit is set. (DEDUCED, log 40) -/
def streamOf (ws : List Word) : Option Stream :=
  let w := ws.getD 1 0
  if wfield w 32 32 ≠ 0 || wfield w 18 6 ≠ 0 || wfield w 9 7 ≠ 0 || wfield w 4 4 ≠ 0 then none
  else some {
    base := (ws.getD 0 0).toNat, pfd := wfield w 24 8, ndim := wfield w 16 2 + 1, dir := wbit w 8, ty := tyOfCode (wfield w 0 4),
    counts := [wfield (ws.getD 2 0) 0 32, wfield (ws.getD 2 0) 32 32, wfield (ws.getD 3 0) 0 32, wfield (ws.getD 3 0) 32 32],
    strides := (List.range 4).map fun k => (ws.getD (4 + k) 0).toInt, pos := 0 }

/-- The slot field of LDSP, STSP and SPSET stands in BASE[1:0] (R217). -/
def slotM (o : FmtM) : Nat := o.base.toNat % 4

def execSpset (o : FmtM) (s : State) : Out :=
  onRole s fun rid r =>
    let ea := ((r.sreg o.d.num).toNat : Int) + (offM o)
    match s.issueCause r .load ea 64 64 with
    | some c => s.trap rid c (addr64 ea)
    | none =>
      if s.overlapsLog rid r ea.toNat 64 then s.setRole rid (r.holdAt .overlap)
      else if s.busyOps rid r then s.setRole rid (r.holdAt .drain)
      else match s.loadRecord r .load ea 8 64 with
        | (.error e, s1) => s1.stopRole rid e false
        | (.ok ws, s1) => match streamOf ws with
          | none => s1.trap rid cILLEGAL (addr64 ea)
          | some x => s1.setRole rid { r with streams := r.streams.put (slotM o) x }.advance

/-- Elements that a slot gives to lanes in order from its position; lanes past the end are listed apart (R227). -/
def streamElems (x : Stream) (r : Role) (d : RegName) (op : ElemOp) : Nat → List Nat → List ElemReq × List Nat × Nat
  | pos, [] => ([], [], pos)
  | pos, l :: rest =>
    if pos < x.len then
      let (es, past, p) := streamElems x r d op (pos + 1) rest
      ({ lane := l, ea := x.addr pos, data := r.read d l, elem := op } :: es, past, p)
    else
      let (es, past, p) := streamElems x r d op pos rest
      (es, l :: past, p)

/-! ### Prefetch (R176, R230) -/

/-- Ask for the line of an address toward the core, unless R176 drops the request, which then has no effect. A line that the L1 holds
under its lease is not asked for; one whose lease has expired is, with its wts (R120). -/
def State.prefetch (s : State) (r : Role) (ea : Int) (view : Option Nat) (l2only : Bool) : State :=
  if !canonRange ea 1 || onChip ea.toNat || 64 ≤ (s.core r.core).prefetches then s
  else
    let va := ea.toNat
    match s.walk { r.walker view with core := none } .prefetch va with
    | (.ok m, s1) =>
      if m.acc || regionOf m.pa == .window then s
      else
        let tag := r.tag va m.retained
        let k := s1.core r.core
        let held := if l2only then none else k.l1? tag
        if held.any fun x => x.isView || k.pts ≤ x.rts then s1
        else (s1.updCore r.core fun k => { k with prefetches := k.prefetches + 1 }).send (.ldreq
          { core := r.core, op := none, line := lineOf m.pa, vmid := r.vmid, tag := tag, perm := m.perm, p := k.pts,
            oldWts := if m.retained.isSome then none else held.map (·.wts), view := m.retained.isSome, acc := false, l2only := l2only })
    | (_, _) => s

def execPref (o : FmtM) (s : State) : Out :=
  onRole s fun rid r =>
    (s.prefetch r (r.based o.base (offM o)) (r.viewOf o.view) (o.d = 1)).updRole rid fun q => q.advance

/-- The first distinct lines of the elements from `pos` on, at most `n` (R228). -/
def Stream.ahead (x : Stream) (n : Nat) : List Int :=
  ((List.range (128 * n)).foldl (fun (acc : List Int) i =>
    if acc.length < n && x.pos + i < x.len then
      let a := x.addr (x.pos + i)
      if acc.any fun b => b / 128 == a / 128 then acc else acc ++ [a]
    else acc) [])

/-- The prefetches after an LDSP that has brought its slot to `pos` (R228). (DESIGN CHOICE, log 41) -/
def State.streamAhead (s : State) (rid slot pos : Nat) (view : Option Nat) : State :=
  match s.role? rid with
  | none => s
  | some r => match r.streams.find slot with
    | none => s
    | some x => if x.pfd = 0 || x.pos ≠ pos then s else (x.ahead x.pfd).foldl (fun s a => s.prefetch r a view false) s

/-- LDSP and STSP find a slot of their type and direction (R227). -/
def slotFits (x : Stream) (ty : Ty) (dir : Bool) : Bool := x.ty == ty && x.ty != .t2 && x.ty != .b1 && x.dir == dir

/-- What LDSP and STSP share: an idle slot names no element; else the checks of issue are made on every element, and the slot's own check
comes after them, with the address of the first (R219, R227). With no active lane nothing changes (R206). `f` takes the slot's record,
the elements, the lanes past the end, and the position after. (DEDUCED, log 165) -/
def streamWord (o : FmtM) (acc : Acc) (op : ElemOp) (f : State → Nat → Role → Stream → List ElemReq → List Nat → Nat → State)
    (s : State) : Out :=
  onRole s fun rid r =>
    let ls := r.formLanes o.d o.mask
    if ls.isEmpty then s.setRole rid r.advance
    else match r.streams.find (slotM o) with
      | none => s.trap rid cILLEGAL 0
      | some x =>
        let (es, past, pos) := streamElems x r o.d op x.pos ls
        match s.firstIssue r acc o.ty.bytes o.ty.bytes es with
        | some (c, a) => s.trap rid c a
        | none =>
          if slotFits x o.ty (acc == .store) then f s rid r x es past pos
          else s.trap rid cILLEGAL (addr64 ((es.head?.map (·.ea)).getD 0))

/-- The role with the position of a slot changed. -/
def Role.atPos (r : Role) (k : Nat) (x : Stream) (pos : Nat) : Role := { r with streams := r.streams.put k { x with pos := pos } }

def execLdsp (o : FmtM) (s : State) : Out :=
  streamWord o .load .load (fun s rid r x es past pos =>
    (s.issueLoad rid r o.ty (accClassOf o.acl) (r.viewOf o.view) o.d o.ws.toNat es (past.map fun l => (l, 0)) (some (slotM o, x.pos))
      fun q => q.atPos (slotM o) x pos).streamAhead rid (slotM o) pos (r.viewOf o.view)) s

def execStsp (o : FmtM) (s : State) : Out :=
  streamWord o .store .store (fun s rid r x es _ pos =>
    s.issueStore rid r o.ty (accClassOf o.acl) es fun q => q.atPos (slotM o) x pos) s

/-! ### GATH and SCAT (R231) -/

def gatherElems (o : FmtMA) (r : Role) (op : ElemOp) : List ElemReq :=
  (r.active o.mask).map fun l =>
    { lane := l, ea := r.based o.base (offMA o) + (r.vreg o.a.num l).toInt, data := r.vreg o.d.num l, elem := op }

def execGath (o : FmtMA) (s : State) : Out :=
  onRole s fun rid r => s.issueLoad rid r o.ty (accClassOf o.acl) none o.d o.ws.toNat (gatherElems o r .load) [] none id

/-- The trap of a SCAT or STMC with denied destinations: a record of KIND 2 with DMASK, then the trap with REC (R221, R419). (DEDUCED, log 37) (DEDUCED, log 145) -/
def State.deniedTrap (s : State) (rid : Nat) (pc : Word) (cause : Nat) (addr : Word) (mask : LaneMask) : State :=
  match s.role? rid with
  | none => s
  | some r => match s.writeRecord r { addr := addr, pc := pc, rpc := pc, kind := 2, wr := true, dmask := some mask, cause := cause } with
    | none => s
    | some (d, idx, s1) => s1.trapWith rid cause false false true d idx addr pc

/-- Write the destinations that pass, then raise the cause of the lowest that does not (R221). -/
def State.storeSome (s : State) (rid : Nat) (r : Role) (ty : Ty) (cls : AccClass) (es : List ElemReq)
    (denied : Option (Nat × Word × LaneMask)) : State :=
  match denied with
  | none => s.issueStore rid r ty cls es id
  | some (c, a, m) =>
    if !(s.ringRoom (dieOf r.core)) then s.setRole rid (r.holdAt .ring)
    else
      let s1 := s.issueStore rid r ty cls es id
      if s1.stopped? rid || (s1.role? rid).any (fun q => q.handler && !r.handler) then s1
      else s1.deniedTrap rid r.ipc c a m

def execScat (o : FmtMA) (s : State) : Out :=
  onRole s fun rid r =>
    let z := o.ty.bytes
    let es := gatherElems o r .store
    let bad := es.filter fun e => (s.issueCause r .store e.ea z z).isSome
    let good := es.filter fun e => (s.issueCause r .store e.ea z z).isNone
    s.storeSome rid r o.ty (accClassOf o.acl) good ((s.firstIssue r .store z z bad).map fun p =>
      (p.1, p.2, maskOfLanes (bad.map (·.lane))))

/-! ### STMC (R232) -/

/-- The destination address of a rank and lane. -/
def multicastAddr (rank : Nat) (off : Int) : Int := (onChipLo : Int) + ((2 ^ 20 * rank : Nat) : Int) + off

/-- What denies a rank: its number, or an element that fails in every share; the cause and the element's address (R232). -/
def State.deniedRank (s : State) (r : Role) (z : Nat) (off : Int) (ls : List Nat) (rank : Nat) : Option (Nat × Word) :=
  match ls with
  | [] => none
  | l0 :: _ =>
    let bad := ls.findSome? fun l =>
      let o : Int := off + (z * l : Nat)
      let a := multicastAddr rank o
      if !canonRange a z then some (cNONCANON, addr64 a)
      else if a.toNat % z ≠ 0 then some (cALIGN, addr64 a)
      else if off < 0 ∨ (2 ^ 20 : Int) ≤ off ∨ (s.gangSp r.gang : Int) < o + z then some (cNOTPRESENT, addr64 a)
      else none
    match bad with
    | some b => some b
    | none => if s.gangCores r.gang ≤ rank then some (cNOTPRESENT, addr64 (multicastAddr rank (off + (z * l0 : Nat)))) else none

def execStmc (o : FmtMA) (s : State) : Out :=
  onRole s fun rid r =>
    let z := o.ty.bytes
    let off := r.based o.base (offMA o)
    let ls := r.formLanes o.d o.mask
    let ranks := (List.range 48).filter fun k => (r.sreg o.a.num).getLsbD k
    let denied := ranks.filter fun k => (s.deniedRank r z off ls k).isSome
    let good := ranks.filter fun k => (s.deniedRank r z off ls k).isNone
    let es := good.flatMap fun k => ls.map fun l =>
      ({ lane := l, ea := multicastAddr k (off + (z * l : Nat)), data := r.read o.d l, elem := .store } : ElemReq)
    s.storeSome rid r o.ty (accClassOf o.acl) es ((denied.findSome? fun k => s.deniedRank r z off ls k).map fun p =>
      (p.1, p.2, maskOfLanes denied))

/-! ### ATOM and CAS (R233-R235) -/

/-- Issue an atomic: it waits for the window, and faults as a load (R220, R234). With no active lane it changes nothing (R206). -/
def atomMA (o : FmtMA) (op : Role → Nat → ElemOp) (s : State) : Out :=
  onRole s fun rid r =>
    let z := o.ty.bytes
    let es : List ElemReq := (r.formLanes o.d o.mask).map fun l =>
      { lane := l, ea := r.based o.base (offMA o) + (z * l : Nat), data := r.read o.a l, elem := op r l }
    if es.isEmpty then s.setRole rid r.advance
    else if s.windowOpen rid r then s.setRole rid (r.holdAt .window)
    else
      match s.firstIssue r .atomic z z es with
      | some (c, a) => s.trap rid c a
      | none => match s.targetsOf r .atomic none false false z es with
        | (_, some (w, left), s1) =>
          let a := addr64 ((left.head?.map (·.ea)).getD 0)
          let s2 := match w with
            | .cow l _ => s1.requestCopy r.vmid a.toNat r.wver l (dieOf r.core)
            | _ => s1
          s2.loadStop rid w a r.ipc true
        | (xs, none, s1) =>
          s1.startOp rid r { rid := rid, pc := 0, kind := .atomic, ty := o.ty, dst := some o.d, ws := o.ws.toNat, cls := accClassOf o.acl, waiting := xs }

def atomOp (code : BitVec 4) : ElemOp :=
  match code.toNat with
  | 0 => .add
  | 1 => .min
  | 2 => .max
  | 3 => .and
  | 4 => .or
  | 5 => .xor
  | 6 => .swap
  | _ => .fadd

def execAtom (o : FmtMA) (s : State) : Out := atomMA o (fun _ _ => atomOp o.op) s
def execCas (o : FmtMA) (s : State) : Out := atomMA o (fun r l => .cas (r.read o.d l)) s

/-! ### RED (R236, R237) -/

def redOpOf (code : BitVec 4) : RedOp := match code.toNat with
  | 1 => .min
  | 2 => .max
  | 7 => .fadd
  | _ => .add

def execRed (o : FmtMA) (s : State) : Out :=
  onRole s fun rid r =>
    let flow := r.sreg o.a.num
    let es : List ElemReq := (r.formLanes o.d o.mask).map fun l =>
      { lane := l, ea := r.based o.base (offMA o) + (16 * l : Nat), data := r.read o.d l }
    match s.firstIssue r .reduction 16 16 es with
    | some (c, a) => s.trap rid c a
    | none =>
      if !es.isEmpty && 32 ≤ (s.core r.core).refused.length then s.setRole rid (r.holdAt .matrix)
      else if es.any fun e => s.loggedClear rid r e.ea.toNat 16 then s.setRole rid (r.holdAt .window)
      else
        let raw := es.map fun e => (e.lane, e.ea.toNat, e.data)
        match s.redElems r rid r.ipc (redOpOf o.op) flow o.ty [] raw with
        | (none, us, s1) => (s1.sendUpdates (dieOf r.core) us).setRole rid r.advance
        | (some (w, left), us, s1) =>
          let s2 := s1.logFault r (walkCause w)
            (s1.entryNow rid r r.ipc ((left.head?.map (·.2.1)).getD 0) (.reds (redOpOf o.op) flow o.ty left))
          if s2.stopped? rid then s2 else (s2.sendUpdates (dieOf r.core) us).updRole rid fun q => q.advance

/-! ### Counters (R238-R241) -/

/-- The counter that a word names: it waits for the window and passes its checks; `wr` says that the access writes. -/
def State.counterSpot (s : State) (rid : Nat) (r : Role) (ea : Int) (wr : Bool) : Except State (Spot × State) :=
  if s.windowOpen rid r then .error (s.setRole rid (r.holdAt .window))
  else match s.issueCause r .counter ea 8 8 with
    | some c => .error (s.trap rid c (addr64 ea))
    | none =>
      if s.opsDue rid r (fun o e => decide (e.va < ea.toNat + 8) && decide (ea.toNat < e.va + o.ty.bytes)) then
        .error (s.setRole rid (r.holdAt .drain))
      else match s.spot r .counter none false ea.toNat 8 with
        | (.error w, s1) => .error (s1.loadStop rid w (addr64 ea) r.ipc wr)
        | (.ok x, s1) => .ok (x, s1)

def execCadd (o : FmtMA) (s : State) : Out :=
  control' s fun rid r => do
    let ea := r.based o.base (offMA o)
    if !(s.releaseReady rid r (scopeOf o.scope)) then
      .error (s.setRole rid (r.holdAt (if s.windowOpen rid r then .window else .drain)))
    else
      let (x, s1) ← s.counterSpot rid r ea true
      let inc := (r.sreg o.a.num).toNat
      if 2 ^ 64 ≤ s1.spotPeek r x 8 + inc then .error (s1.trap rid cCOUNTER_OVF (addr64 ea))
      else match s1.spotRmw r x 8 (· + inc) with
        | (.ok (v, _), s2) => .ok (s2.setRole rid (r.overwrite x.place 8 (v + inc)).advance)
        | (.error c, s2) => .error (s2.loadFault rid c (addr64 ea) r.ipc true)
where
  control' (s : State) (f : Nat → Role → Except State State) : Out := onRole s fun rid r => match f rid r with
    | .ok s1 => s1
    | .error s1 => s1

/-- The acquire that completes a counter read (R153): s[D] takes the value, pts has risen, and sf := pts. -/
def State.acquire (s : State) (rid : Nat) (r : Role) (d : RegName) (ws : Nat) (v : Nat) : State :=
  let q := ((r.setSreg d.num (BitVec.ofNat 64 v)).bindSlot ws [d]).slotDone ws
  s.setRole rid { q with sf := (s.core r.core).pts }.advance

/-- The met read of a wait: the counter is read once as an atomic, and acquired (R153). -/
def State.readCounter (s : State) (rid : Nat) (r : Role) (x : Spot) (ea : Int) (d : RegName) (ws : Nat) : State :=
  match s.spotRmw r x 8 id with
  | (.ok (v, _), s1) => s1.acquire rid r d ws v
  | (.error c, s1) => s1.loadFault rid c (addr64 ea) r.ipc true

/-- CWAIT on a counter at `ea`: held until its value is at or above the target (R240). -/
def State.waitCounter (s : State) (rid : Nat) (r : Role) (ea : Int) (target : Nat) (d : RegName) (ws : Nat) : State :=
  match s.counterSpot rid r ea true with
  | .error s1 => s1
  | .ok (x, s1) =>
    if s1.spotPeek r x 8 < target then s1.setRole rid (r.holdAt (.counter ea.toNat)) else s1.readCounter rid r x ea d ws

def execCwait (o : FmtMA) (s : State) : Out :=
  onRole s fun rid r => s.waitCounter rid r (r.based o.base (offMA o)) (r.sreg o.a.num).toNat o.d o.ws.toNat

def execCread (o : FmtMA) (s : State) : Out :=
  onRole s fun rid r =>
    let ea := r.based o.base (offMA o)
    match s.counterSpot rid r ea false with
    | .error s1 => s1
    | .ok (x, s1) => match s1.spotRead r x 8 with
      | (.ok v, s2) => s2.acquire rid r o.d o.ws.toNat v
      | (.error c, s2) => s2.loadFault rid c (addr64 ea) r.ipc false

/-- The VA of a team's timeline on its local copy context (R390). -/
def State.teamTimeline (s : State) (gang team : Nat) : Int := match s.gang? gang with
  | some g => (g.tlbase : Int) + 32 * ((g.g * g.nteams + team : Nat) : Int)
  | none => 0

/-- The context that a queue register's target names for a role. -/
def State.ctxIdOf (s : State) (r : Role) (t : QTarget) : CtxId :=
  let part := Fin.ofNat 8 (s.partitionOfCluster (clusterOf r.core))
  match t with
  | .shared d c => .shared d c
  | .localCtx => .local r.gang r.team
  | .composer => .composer part
  | .encoder => .encoder part

/-- A 57-bit virtual address as the canonical 64-bit one. -/
def sext57 (a : Nat) : Nat := ((BitVec.ofNat 57 a).signExtend 64).toNat

def execTlwait (o : FmtQ) (s : State) : Out :=
  onRole s fun rid r => match r.queues.find o.q.toNat with
    | some (.shared d c) =>
      s.waitCounter rid r ((sext57 (s.ctx (.shared d c)).tladdr : Nat) : Int) (r.sreg o.a.num).toNat o.d o.ws.toNat
    | some .localCtx => s.waitCounter rid r (s.teamTimeline r.gang r.team) (r.sreg o.a.num).toNat o.d o.ws.toNat
    | _ => s.trap rid cQUEUE 0

/-- CWAIT_WAKE: the counter that a held role waits for has changed, and its instruction is issued again (R240). -/
def execCwaitWake (rid : Nat) (s : State) : Out :=
  .next (s.updRole rid fun r => match r.hold with
    | .counter _ => { r with hold := .ready }
    | _ => r)

/-! ### FENCE (R148, R243) -/

def execFence (o : FmtM) (s : State) : Out :=
  onRole s fun rid r =>
    if s.windowOpen rid r then s.setRole rid (r.holdAt .window)
    else if s.fenceReady rid r (scopeOf o.scope) then s.setRole rid { r with sf := (s.core r.core).pts }.advance
    else s.setRole rid (r.holdAt .drain)

end Sys2Proof.Machine
end

