-- ==== Sys2Proof/Machine/Accumulator.lean ====
section
/-! DEFINITION. Accumulator lines (07 R166, R167; 12 R281, R282; 14 R320-R322; 15 R333-R335): the slots of a line, applying line
updates with their sequences, the reorder buffer, and the words that clear, sequence, flush and read slots. -/
namespace Sys2Proof.Machine

/-! ### Slots (R166) -/

/-- A slot's fields; `rsv` are the reserved bits [119:116]. -/
structure Slot where
  tag : Nat
  rsv : Nat
  nx : Bool
  ovf : Bool
  inv : Bool
  sat : Bool
  nseq : Nat
  val : Nat
deriving DecidableEq, Repr

def Slot.ofNat (b : Nat) : Slot :=
  { tag := b / 2 ^ 120 % 256, rsv := b / 2 ^ 116 % 16, nx := b / 2 ^ 115 % 2 = 1, ovf := b / 2 ^ 114 % 2 = 1,
    inv := b / 2 ^ 113 % 2 = 1, sat := b / 2 ^ 112 % 2 = 1, nseq := b / 2 ^ 96 % 2 ^ 16, val := b % 2 ^ 96 }

def Slot.toNat (x : Slot) : Nat :=
  let bit := fun (b : Bool) (k : Nat) => if b then 2 ^ k else 0
  x.tag % 256 * 2 ^ 120 + x.rsv % 16 * 2 ^ 116 + bit x.nx 115 + bit x.ovf 114 + bit x.inv 113 + bit x.sat 112
    + x.nseq % 2 ^ 16 * 2 ^ 96 + x.val % 2 ^ 96

def slotOf (d : LineData) (j : Nat) : Slot := Slot.ofNat (lineField d (16 * j) 16)
def setSlot (d : LineData) (j : Nat) (x : Slot) : LineData := setLineField d (16 * j) 16 x.toNat

/-! ### Applying a part (R281, R320) -/

/-- The tag of a value's kind. -/
def accTag : AccVal → Nat
  | .af _ => 1
  | .ai _ => 2
def accBits : AccVal → Nat
  | .af b => b.toNat
  | .ai b => b.toNat
def accNan : AccVal → Bool
  | .af b => (Fmt.decode .af96 b.toNat).isNan
  | .ai _ => false

/-- An exact sum saturated to ai96 (R272). -/
def satAi96 (i : Int) : Int × Bool :=
  if i < -(2 ^ 95) then (-(2 ^ 95), true) else if (2 ^ 95 - 1 : Int) < i then (2 ^ 95 - 1, true) else (i, false)

/-- R281 Table 7 on a slot whose tag matches. -/
def Slot.combine (s : Slot) (x : AccVal) (op : RedOp) : Slot :=
  match x with
  | .af b =>
    let p := Fmt.decode .af96 s.val
    let q := Fmt.decode .af96 b.toNat
    let big := op == .max
    if op == .min || op == .max then
      if p.isNan || q.isNan then { s with val := Fmt.nanBits .af96, inv := true }
      else { s with val := (fMinMax .af96 big s.val b.toNat).1 }
    else
      let (v, fl) := fAdd .af96 .rne p q
      { s with val := v, nx := s.nx || (fl &&& flNX) != 0, ovf := s.ovf || (fl &&& flOF) != 0,
               inv := s.inv || (Fmt.decode .af96 v).isNan }
  | .ai b =>
    let p := toSigned 96 s.val
    let q := toSigned 96 b.toNat
    match op with
    | .min => { s with val := patternOf 96 (min p q) }
    | .max => { s with val := patternOf 96 (max p q) }
    | _ =>
      let (v, sat) := satAi96 (p + q)
      { s with val := patternOf 96 v, sat := s.sat || sat }

/-- Apply (R320); the flags of the part's own forming count only where its value is taken (R462). -/
def Slot.apply (s : Slot) (q : AccPart) (op : RedOp) : Slot :=
  match q.val with
  | none => s
  | some x =>
    let s1 := { s with inv := s.inv || accNan x }
    let own := fun (t : Slot) => { t with nx := t.nx || q.nx, ovf := t.ovf || q.ovf, inv := t.inv || q.inv }
    if s1.tag = 0 then own { s1 with tag := accTag x, val := accBits x }
    else if s1.tag ≠ accTag x then { s1 with inv := true }
    else own (s1.combine x op)

/-- What becomes of a part (R320). -/
inductive Verdict where
  | applied (s : Slot) | early | stale (s : Slot)
deriving DecidableEq, Repr

/-- AccApply on one slot, before what the reorder buffer holds for it. -/
def Slot.accApply (s : Slot) (q : AccPart) (op : RedOp) (ord : Bool) (seq : Nat) : Verdict :=
  if !ord then .applied (s.apply q op)
  else
    let d := (seq + 2 ^ 16 - s.nseq) % 2 ^ 16
    if d = 0 then .applied { s.apply q op with nseq := (s.nseq + 1) % 2 ^ 16 }
    else if d < 2 ^ 15 then .early
    else .stale { s with inv := true }

/-! ### The reorder buffer (R321, R322) -/

/-- Remove the part of slot `j` from entry `u`; the entry is freed with its last part. -/
def dropPart (l : List Held) (u : LineUpdate) (j : Fin 8) : List Held :=
  match l with
  | [] => []
  | h :: rest =>
    if h.update = u then
      let left := u.parts.filter fun p => p.slot != j
      if left.isEmpty then rest else { update := { u with parts := left } } :: rest
    else h :: dropPart rest u j

/-- The held part that slot `j` of the line expects next. -/
def dueHeld (l : List Held) (line : Nat) (j : Fin 8) (nseq : Nat) : Option (LineUpdate × AccPart) :=
  l.findSome? fun h =>
    if h.update.line == line && h.update.ord && h.update.seq.toNat == nseq then
      (h.update.parts.find? fun p => p.slot == j).map fun p => (h.update, p)
    else none

/-- Apply the held parts of a slot while the next expected one is there; each takes its own logical time, with its own P, after the
line's time `t` (R121, R150). -/
def drainSlot (line : Nat) (j : Fin 8) : Nat → Slot → List Held → Nat → Slot × List Held × Nat
  | 0, x, l, t => (x, l, t)
  | n + 1, x, l, t =>
    match dueHeld l line j x.nseq with
    | none => (x, l, t)
    | some (u, p) => drainSlot line j n { x.apply p u.op with nseq := (x.nseq + 1) % 2 ^ 16 } (dropPart l u j) (max u.p (t + 1))

/-- One update of a line: its parts in turn, from the line's time `t` on. The answer is the line's bytes and time, the buffer, the
parts that are early, and how many are stale. -/
def applyParts (u : LineUpdate) : List AccPart → LineData → Nat → List Held → LineData × Nat × List Held × List AccPart × Nat
  | [], d, t, l => (d, t, l, [], 0)
  | q :: rest, d, t, l =>
    let j := q.slot
    match (slotOf d j.val).accApply q u.op u.ord u.seq.toNat with
    | .applied x =>
      let (y, l1, t1) := if u.ord then drainSlot u.line j (l.length + 1) x l t else (x, l, t)
      applyParts u rest (setSlot d j.val y) t1 l1
    | .early =>
      let (d1, t1, l1, early, stale) := applyParts u rest d t l
      (d1, t1, l1, q :: early, stale)
    | .stale x =>
      let (d1, t1, l1, early, stale) := applyParts u rest (setSlot d j.val x) t l
      (d1, t1, l1, early, stale + 1)

/-- Entries of the slice that holds a line. -/
def DieState.heldIn (x : DieState) (line : Nat) : Nat :=
  (x.reorder.filter fun h => sliceOf x.slices h.update.line == sliceOf x.slices line).length

/-- Reductions dropped as stale or discarded count in ACCDROP (R320, R322, R456). -/
def State.countDrops (s : State) (d n : Nat) : State := s.setReg d 0x6320 (s.reg d 0x6320 + BitVec.ofNat 64 n)

/-- A core's sender, or a seam port on its behalf, keeps a refused update (R321). -/
def State.keepsRefused (s : State) (core : Nat) : Bool :=
  !(s.core core).refused.isEmpty || s.dies.any fun d => d.2.portRefused.any fun u => u.core == core

/-- An entry has become free: the senders with refused updates may send them again (R321). -/
def State.freeNotice (s : State) (before after : Nat) : State :=
  if before ≤ after then s
  else s.sendAll (((s.cores.map (·.1)).filter s.keepsRefused).map .reductionResend)

/-- A reduction or accumulator write that cannot be performed at the home any more (R75, R140, R178). (DEDUCED, log 63) -/
def State.accLost (s : State) (rid cause : Nat) (va : Nat) (pc : Word) : State :=
  if cause = cHOME_LOST then
    (s.addPending rid { cause := cause, addr := BitVec.ofNat 64 va, pc := pc, final := true, wr := true }).send (.pendingTrapTake rid)
  else match s.role? rid with
    | some r => if r.ended then s else s.abortGang rid cause (BitVec.ofNat 64 va) pc
    | none => s

/-- The home refuses a reduction or an accumulator write whose key has gone: it enters its role's side log (R71, R418). With no room
there, or in the fault ring, it is tried again. (DEDUCED, log 167) -/
def State.accRefused (s : State) (rid : Nat) (va : Nat) (pc : Word) (body : LogBody) (again : Instr) : State :=
  match s.role? rid with
  | none => s
  | some r =>
    let s1 := s.logFault r cPERM { s.entryNow rid r pc va body with handler := false }
    if r.ended then s
    else if ((s1.core r.core).log.length ≤ (s.core r.core).log.length) && (s1.role? rid).any (fun q => !q.ended) then s.send again
    else s1

/-- A line at its home slice ready for an adder or normal port access (R73, R134): or its home is lost, or the VMID's key is gone
(R71, R140). -/
def State.reachAcc (s : State) (line vmid : Nat) : Except Nat Opened × State :=
  if s.homeLost line then (.error cHOME_LOST, s)
  else if s.keyMissing line vmid then (.error cPERM, s.countDeny (s.homeOf line) vmid)
  else (.ok (s.accOpen line vmid), s)

/-- A request that has to wait at the home stays before the role's later ones to the line (R334). -/
def State.waitAcc (s : State) (i : Instr) (mine : Instr → Bool) : State :=
  { s with pending := s.pending.filter (fun x => !(mine x)) ++ i :: s.pending.filter mine }

/-- The role and line of an accumulator request (R333). -/
def accWay : Instr → Option (Nat × Nat)
  | .accumulatorAccess m => some (m.rid, m.line)
  | .accLineUpdate u => some (u.rid, u.line)
  | _ => none

/-- The sender keeps what the slice has refused of an update (R321): the seam port of another die, or the issuing core, which holds up
to 32; with all in use the update stays on its way. (DEDUCED, log 62) -/
def State.keepRefused (s : State) (h : Nat) (u : LineUpdate) : State :=
  if h ≠ dieOf u.core then s.updDie h fun x => { x with portRefused := x.portRefused ++ [u] }
  else if (s.core u.core).refused.length < 32 then s.updCore u.core fun k => { k with refused := k.refused ++ [u] }
  else s.send (.accLineUpdate u)

/-- The update reaches the line: its parts that are due are applied at one time, and the rest is held or refused (R320, R321). -/
def State.updateLine (s : State) (u : LineUpdate) (l : SliceLine) : State :=
  let h := s.homeOf u.line
  let x := s.die h
  let (d, t, buf, early, stale) := applyParts u u.parts l.data (max u.p (l.rts + 1)) x.reorder
  let rest := { u with parts := early }
  let room := (({ x with reorder := buf } : DieState).heldIn u.line) < 256
  let buf1 := if early.isEmpty || !room then buf else buf ++ [{ update := rest }]
  let l1 := if early.length = u.parts.length then l else { l with data := d, wts := t, rts := t, dirty := true }
  let s2 := s.updDie h fun y => ({ y with reorder := buf1 }).putLine l1
  let s3 := if early.isEmpty || room then s2 else s2.keepRefused h rest
  (s3.countDrops h stale).freeNotice x.reorder.length buf.length

/-- ACC_LINE_UPDATE (R150, R320, R321). -/
def State.applyUpdate (s : State) (u : LineUpdate) : State :=
  let again := fun (s : State) => s.waitAcc (.accLineUpdate u) fun i => accWay i == some (u.rid, u.line)
  match s.reachAcc u.line u.vmid with
  | (.error c, s1) =>
    if c = cPERM then s1.accRefused u.rid u.va u.pc (.updates u.va [u]) (.accLineUpdate u) else s1.accLost u.rid c u.va u.pc
  | (.ok (.failed s1), _) => if s.abortWaits u.rid then again s1 else s1.accLost u.rid cDATA_ERROR u.va u.pc
  | (.ok .rest, s1) | (.ok (.noWay s1), _) => again s1
  | (.ok (.line l s1), _) => s1.updateLine u l

def execAccLineUpdate (u : LineUpdate) (s : State) : Out := .next (s.applyUpdate u)

/-- REDUCTION_RESEND (R321): the core sends every refused update again, and so do the seam ports that keep updates of it. -/
def execReductionResend (core : Nat) (s : State) : Out :=
  let us := (s.core core).refused
  let port := s.dies.flatMap fun d => d.2.portRefused.filter fun u => u.core == core
  let s1 : State := { s with dies := s.dies.map fun d => (d.1, { d.2 with portRefused := d.2.portRefused.filter fun u => u.core != core }) }
  .next (((s1.updCore core fun k => { k with refused := [] }).sendUpdates (dieOf core) us).sendAll (port.map .accLineUpdate))

/-! ### Accesses that are not reductions (R334, R335) -/

/-- Parts held for slots of a line are discarded (R322). -/
def DieState.discardHeld (x : DieState) (line : Nat) (slots : List (Fin 8)) : DieState × Nat :=
  let gone := x.reorder.foldl (fun n h =>
    if h.update.line == line then n + (h.update.parts.filter fun p => slots.contains p.slot).length else n) 0
  let left := x.reorder.filterMap fun h =>
    if h.update.line == line then
      let ps := h.update.parts.filter fun p => !(slots.contains p.slot)
      if ps.isEmpty then none else some { update := { h.update with parts := ps } }
    else some h
  ({ x with reorder := left }, gone)

/-- The destination of ACCRD for a slot's bits (R335): the value and its flags. -/
def accRead (ty : Ty) (mode : RMode) (st sat : Bool) (bits : Nat) : Word × Flags :=
  let x := Slot.ofNat bits
  if st then (BitVec.ofNat 64 (bits / 2 ^ 96), 0)
  else if x.tag = 0 then (0, 0)
  else if x.tag = 1 then
    let (p, fl) := convert ty mode sat (.flt (Fmt.decode .af96 x.val))
    (pat p, fl)
  else if x.tag = 2 then
    let (p, fl) := convert ty mode sat (.int (toSigned 96 x.val))
    (pat p, fl)
  else match ty.fmt? with
    | some f => (pat f.nanBits, flINV)
    | none => (0, flINV)

/-- A request of a core's slot access has been answered: its elements of the line are done, and the next line is asked for. -/
def State.accAnswer (s : State) (m : AccReq) (wts : Nat) (got : List (Nat × Word)) (fl : Flags) : State :=
  let s1 := s.raisePts m.core wts
  match (s1.core m.core).ops.find m.op with
  | none => s1
  | some o =>
    let left := o.waiting.filter fun e => match e.target with
      | .mem k _ _ _ _ _ => k != m.line
      | _ => false
    let o1 := { o with waiting := left, got := o.got ++ got }
    let s2 := s1.updRole m.rid fun r => r.raiseFlags fl
    if left.isEmpty then (s2.finishOp m.core m.op o1).pump m.core
    else
      let s3 := s2.updCore m.core fun k => { k with ops := k.ops.put m.op o1 }
      if o.kind == .accRead then s3.askSlots m.core m.op o1 m.vmid else s3

/-- The line of an operation's accumulator write is done with, without effect. -/
def State.dropAccLine (s : State) (m : AccReq) : State := s.accAnswer m 0 [] 0

/-- A line of an ACCRD at its home slice, placed there at its time (R150, R335). -/
def State.readSlots (s : State) (m : AccReq) (l : SliceLine) : State :=
  let o := (s.core m.core).ops.find m.op
  let (ty, mode, fmt) := match o with
    | some o => (o.ty, o.mode, o.fmt)
    | none => (.i64, 0, 0)
  let rm := if mode.toNat % 8 = 0 then RMode.ofCode (fmt.extractLsb' 0 3).toNat else RMode.ofCode (mode.toNat % 8)
  let vals := (m.slots.zip m.lanes).map fun p =>
    (p.2, accRead ty rm (mode.getLsbD 3) (fmt.getLsbD 3) (lineField l.data (16 * p.1.val) 16))
  (s.updDie (s.homeOf m.line) fun x => x.putLine { l with rts := max l.rts m.p }).accAnswer m l.wts (vals.map fun v => (v.1, v.2.1))
    (vals.foldl (fun a v => a ||| v.2.2) 0)

/-- A line of an ACCCLR or ACCSEQ at its home slice (R334). -/
def State.clearSlots (s : State) (m : AccReq) (l : SliceLine) : State :=
  let h := s.homeOf m.line
  let t := max m.p (l.rts + 1)
  let data := m.slots.foldl (fun d j => match m.acc with
    | .setSeq q => setSlot d j.val { slotOf d j.val with nseq := q.toNat }
    | _ => setLineField d (16 * j.val) 16 0) l.data
  let (x, gone) := (s.die h).discardHeld m.line m.slots
  let s1 := s.setDie h (x.putLine { l with data := data, wts := t, rts := t, dirty := true })
  ((s1.countDrops h gone).freeNotice (s.die h).reorder.length x.reorder.length).accAnswer m t [] 0

/-- ACCUMULATOR_ACCESS: one line of an ACCCLR, ACCSEQ, ACCFL or ACCRD, in one step at its home slice (R333). -/
def State.accAccess (s : State) (m : AccReq) : State :=
  let op := (s.core m.core).ops.find m.op
  let again := fun (s : State) => s.waitAcc (.accumulatorAccess m) fun i => accWay i == some (m.rid, m.line)
  let lost := fun (s : State) (c : Nat) => match op with
    | some o =>
      if m.acc == .read then (s.failOp m.core m.op o c (BitVec.ofNat 64 m.va)).pump m.core
      else ((s.updCore m.core fun k => k.dropOp m.op).accLost m.rid c m.va m.pc).pump m.core
    | none => s.accLost m.rid c m.va m.pc
  if m.acc == .flush then
    let h := s.homeOf m.line
    let s1 := match (s.die h).find? m.line .acc with
      | some l => s.evict h l
      | none => s
    s1.accAnswer m 0 [] 0
  else match s.reachAcc m.line m.vmid with
    | (.error c, s1) =>
      if c = cPERM && m.acc != .read then
        (s1.accRefused m.rid m.va m.pc (.accWrite m.va true m.acc) (.accumulatorAccess m)).dropAccLine m
      else lost s1 c
    | (.ok (.failed s1), _) => if s.abortWaits m.rid then again s1 else lost s1 cDATA_ERROR
    | (.ok .rest, s1) | (.ok (.noWay s1), _) => again s1
    | (.ok (.line l s1), _) => if m.acc == .read then s1.readSlots m l else s1.clearSlots m l

def execAccumulatorAccess (r : AccReq) (s : State) : Out := .next (s.accAccess r)

/-! ### ACCCLR, ACCSEQ, ACCFL and ACCRD at issue -/

/-- A reduction of the role to a line that `p` names has not reached the home slice (R334). -/
def State.reductionOut (s : State) (rid : Nat) (r : Role) (p : Nat → Bool) : Bool :=
  let due := fun (u : LineUpdate) => u.rid == rid && p u.line
  (s.afoot.any fun i => match i with
    | .accLineUpdate u => due u
    | _ => false) || ((s.core r.core).refused.any due) || s.dies.any fun d => d.2.portRefused.any due

/-- A matrix instruction of the role whose block lies at the address is not committed. -/
def State.jobAt (s : State) (rid : Nat) (r : Role) (va n : Nat) : Bool :=
  (s.core r.core).jobs.any fun j => j.rid == rid && decide (j.va < va + n) && decide (va < j.va + 2048)

/-- The role's side log holds a reduction to the bytes (R335). -/
def State.loggedRed (s : State) (rid : Nat) (r : Role) (va n : Nat) : Bool :=
  ((s.core r.core).entriesOf rid).any fun e => match e.body with
    | .reds _ _ _ xs => xs.any fun x => decide (x.2.1 < va + n) && decide (va < x.2.1 + 16)
    | .updates a _ => decide (a < va + n) && decide (va < a + 2048)
    | _ => false

/-- The 8-byte units of `n` lines at `va` as elements of an operation. -/
def accElems (r : Role) (m : Reach) (va n : Nat) : List OpElem :=
  (List.range (16 * n)).map fun i =>
    { lane := i, va := va + 8 * i, data := 0,
      target := .mem (lineOf m.pa + i / 16) (8 * i % 128) (r.tag (va + 8 * i) none) m.perm false true }

/-- ACCCLR, ACCSEQ and ACCFL (R334). -/
def accWrite (o : FmtX) (acc : Role → AccAccess) (s : State) : Out :=
  onRole s fun rid r =>
    let ea := ((r.sreg o.sc.toNat).toNat : Int)
    let line := o.xmod.getLsbD 0
    let n := if line then 1 else 16
    match s.issueCause r .accWrite ea (128 * n) (128 * n) with
    | some c => s.trap rid c (addr64 ea)
    | none =>
      if s.windowOpen rid r then s.setRole rid (r.holdAt .window)
      else if s.opsDue rid r (fun p e => decide (e.va < ea.toNat + 128 * n) && decide (ea.toNat < e.va + p.ty.bytes)) ||
          s.jobAt rid r ea.toNat (128 * n) then s.setRole rid (r.holdAt .drain)
      else match s.spot r .accWrite none false ea.toNat 16 with
        | (.error w, s1) =>
          let s2 := match w with
            | .cow l _ => s1.requestCopy r.vmid ea.toNat r.wver l (dieOf r.core)
            | _ => s1
          let s3 := s2.logFault r (walkCause w) (s2.entryNow rid r r.ipc ea.toNat (.accWrite ea.toNat line (acc r)))
          if s3.stopped? rid then s3 else s3.updRole rid fun q => q.advance
        | (.ok (.mem m), s1) =>
          let first := lineOf m.pa
          if s1.reductionOut rid r fun l => decide (first ≤ l) && decide (l < first + n) then s1.setRole rid (r.holdAt .drain)
          else
            let k := s1.core r.core
            let op : Op := { rid := rid, pc := r.ipc, kind := .accWrite, ty := .i64, waiting := accElems r m ea.toNat n, p := k.pts,
                             asid := r.asid, wver := r.wver, handler := r.handler }
            let s2 := (s1.setCore r.core { k with ops := k.ops.put k.nextOp op, nextOp := k.nextOp + 1 }).setRole rid r.advance
            (List.range n).foldl (fun s i => s.sendMsg (dieOf r.core) (s.homeOf (first + i)) (.accumulatorAccess
              { line := first + i, vmid := r.vmid, core := r.core, rid := rid, op := k.nextOp, slots := allSlots, lanes := [],
                acc := acc r, p := k.pts, pc := r.ipc, va := ea.toNat + 128 * i })) s2
        | (.ok _, s1) => s1.trap rid cPERM (addr64 ea)

def execAccclr (o : FmtX) (s : State) : Out := accWrite o (fun _ => .clr) s
def execAccseq (o : FmtX) (s : State) : Out := accWrite o (fun r => .setSeq ((r.sreg o.sf.toNat).extractLsb' 0 16)) s
def execAccfl (o : FmtX) (s : State) : Out := accWrite o (fun _ => .flush) s

/-- ACCRD (R335). With no lane to read it changes nothing (R206). (DEDUCED, log 65) -/
def execAccrd (o : FmtX) (s : State) : Out :=
  onRole s fun rid r =>
    let ea := ((r.sreg o.sc.toNat).toNat : Int)
    let line := o.xhi == 1
    let n := if o.d.isScalar then 16 else if line then 128 else 2048
    let lanes := if o.d.isScalar then [0] else (r.active o.mask).filter fun l => l < (if line then 8 else 128)
    let sent := ((r.bindSlot o.ws.toNat [o.d]))
    match s.issueCause r .accRead ea n n with
    | some c => s.trap rid c (addr64 ea)
    | none =>
      let va := ea.toNat
      let first := va + 16 * lanes.headD 0
      if lanes.isEmpty then s.setRole rid r.advance
      else if s.overlapsLog rid r va n || s.loggedRed rid r va n then s.setRole rid (r.holdAt .overlap)
      else if s.opsDue rid r (fun p e => p.kind == .accWrite && decide (e.va < va + n) && decide (va < e.va + 8)) ||
          s.jobAt rid r va n then s.setRole rid (r.holdAt .drain)
      else match s.spot r .accRead none false first 16 with
        | (.error w, s1) => s1.loadStop rid w (BitVec.ofNat 64 first) r.ipc false
        | (.ok (.mem m), s1) =>
          let es := slotElems r m va (lanes.map fun l => (l, va + 16 * l))
          let touched := fun (k : Nat) (js : List (Fin 8)) => es.any fun e => match e.target with
            | .mem x off _ _ _ _ => x == k && js.contains (Fin.ofNat 8 (off / 16))
            | _ => false
          if s1.reductionDue rid r touched then s1.setRole rid (r.holdAt .drain)
          else
            let k := s1.core r.core
            let op : Op := { rid := rid, pc := r.ipc, kind := .accRead, ty := o.ty, dst := some o.d, ws := o.ws.toNat, waiting := es,
                             p := k.pts, mode := o.xmod, fmt := r.fmt, asid := r.asid, wver := r.wver, handler := r.handler }
            let s2 := (s1.setCore r.core { k with ops := k.ops.put k.nextOp op, nextOp := k.nextOp + 1 }).setRole rid sent.advance
            s2.askSlots r.core k.nextOp op r.vmid
        | (.ok _, s1) => s1.trap rid cPERM (addr64 ea)

end Sys2Proof.Machine
end

