-- ==== Sys2Proof/Machine/Flags.lean ====
section
/-! DEFINITION. The condition register: what scalar integer instructions (13 R292), FCMP (13 R296) and the reductions
(13 R307) write to CC. -/
namespace Sys2Proof.Machine

/-- CC with new Z, N, C and V; E keeps its value and the reserved bits stay 0 (R211, R292). -/
def ccOf (old : Word) (z n c v : Bool) : Word :=
  (old &&& 0x10#64) ||| (BitVec.ofBool v ++ BitVec.ofBool c ++ BitVec.ofBool n ++ BitVec.ofBool z).zeroExtend 64

/-- CC with a new E alone (R307). -/
def ccWithE (old : Word) (e : Bool) : Word := (old &&& 0xF#64) ||| (if e then 0x10#64 else 0#64)

/-- The four flags that a scalar integer instruction writes. -/
structure CC4 where
  z : Bool
  n : Bool
  c : Bool
  v : Bool
deriving DecidableEq, Repr

/-- The exact result lies outside the signed range of w bits. -/
def signedOverflow (w : Nat) (r : Int) : Bool := decide (r < -(2 ^ (w - 1)) ∨ 2 ^ (w - 1) ≤ r)
/-- The exact result lies outside the range of the type. -/
def outside (t : Ty) (r : Int) : Bool := decide (r < t.lo ∨ t.hi < r)
/-- The stored pattern of a result (R287): modulo 2^w, or clamped with .sat. -/
def storeInt (t : Ty) (sat : Bool) (r : Int) : Nat :=
  patternOf t.width (if sat then max t.lo (min t.hi r) else r)

/-- Z and N from a stored pattern, with C and V given. -/
def ccPattern (w p : Nat) (c v : Bool) : CC4 := ⟨p % 2 ^ w == 0, p / 2 ^ (w - 1) % 2 == 1, c, v⟩

/-- ADD (R292 Table 4); ua and ub are the patterns. -/
def ccAdd (t : Ty) (sat : Bool) (ua ub p : Nat) : CC4 :=
  let w := t.width
  ccPattern w p (decide (2 ^ w ≤ ua + ub))
    (signedOverflow w (toSigned w ua + toSigned w ub) || (sat && outside t (t.toInt ua + t.toInt ub)))

/-- SUB, CMP, and NEG as SUB of 0 − a (R292). -/
def ccSub (t : Ty) (sat : Bool) (ua ub : Nat) : CC4 :=
  let w := t.width
  ccPattern w (patternOf w ((ua : Int) - ub)) (decide (ub ≤ ua))
    (signedOverflow w (toSigned w ua - toSigned w ub) || (sat && outside t (t.toInt ua - t.toInt ub)))

/-- The relation that FCMP writes to CC (R296). -/
def ccFcmp (x y : FVal) : CC4 :=
  if x.isNan || y.isNan then ⟨false, true, false, true⟩
  else match fCompare x y with
    | .eq => ⟨true, false, false, false⟩
    | .lt => ⟨false, true, false, false⟩
    | .gt => ⟨false, false, true, false⟩

/-- A scalar instruction writes CC; a vector form never does (R292). -/
def Role.writeCC (r : Role) (d : RegName) (f : CC4) : Role :=
  if d.isScalar then { r with cc := ccOf r.cc f.z f.n f.c f.v } else r

end Sys2Proof.Machine
end

