-- ==== Sys2Proof/Machine/Arith.lean ====
section
/-! DEFINITION. The integer instructions of CLASS 1 to 3 (13 R283-R292): the result and the CC of each from the patterns of
its elements, and one meaning per instruction over the two shared forms. -/
namespace Sys2Proof.Machine

/-- What an integer instruction makes of its element patterns: the stored pattern, and the CC of its scalar form where it
writes one. -/
abbrev IntOp := Nat → Nat → Nat → Nat × Option CC4

/-- The register form (R283). -/
def intA (o : FmtA) (f : IntOp) (s : State) : Out :=
  wordStep s fun r =>
    let g := fun l => f (r.elem o.ty o.a l) (r.elem o.ty o.b l) (r.elem o.ty o.c l)
    let q := r.write o.d o.mask fun l => (pat (g l).1, 0)
    (match (g 0).2 with
      | some cc => q.writeCC o.d cc
      | none => q).advance

/-- The immediate form: b is the sign-extended immediate modulo 2^w (R286). -/
def intI (o : FmtI2) (f : IntOp) (s : State) : Out :=
  wordStep s fun r =>
    let b := (imm31 o.imm).toNat % 2 ^ o.ty.width
    let g := fun l => f (r.elem o.ty o.a l) b 0
    let q := r.write o.d o.mask fun l => (pat (g l).1, 0)
    (match (g 0).2 with
      | some cc => q.writeCC o.d cc
      | none => q).advance

/-- .sat is MOD[0] (R286). -/
def FmtASat (o : FmtA) : Bool := o.mod.getLsbD 0

def opAdd (t : Ty) (sat : Bool) : IntOp := fun a b _ =>
  let p := storeInt t sat (t.toInt a + t.toInt b)
  (p, some (ccAdd t sat a b p))
def opSub (t : Ty) (sat : Bool) : IntOp := fun a b _ =>
  (storeInt t sat (t.toInt a - t.toInt b), some (ccSub t sat a b))
def opMad (t : Ty) (sat : Bool) : IntOp := fun a b c =>
  let x := t.toInt a * t.toInt b + t.toInt c
  let p := storeInt t sat x
  (p, some (ccPattern t.width p false (outside t x)))
def opMul (t : Ty) (sat : Bool) : IntOp := fun a b _ => opMad t sat a b 0
/-- The floor of the full product over 2^w (R287). -/
def opMulhi (t : Ty) : IntOp := fun a b _ =>
  let p := patternOf t.width (t.toInt a * t.toInt b / (2 ^ t.width : Nat))
  (p, some (ccPattern t.width p false false))
/-- The quotient truncated toward zero, and the corners of R287. -/
def quotient (t : Ty) (a b : Nat) : Nat :=
  if b = 0 then 2 ^ t.width - 1 else patternOf t.width (Int.tdiv (t.toInt a) (t.toInt b))
def remainder (t : Ty) (a b : Nat) : Nat :=
  if b = 0 then a else patternOf t.width (t.toInt a - t.toInt b * Int.tdiv (t.toInt a) (t.toInt b))
/-- V of DIV and REM: b = 0, or an i type with the most negative value over −1 (R292). -/
def divV (t : Ty) (a b : Nat) : Bool :=
  b == 0 || (t.isSigned && decide (t.toInt a = t.lo) && decide (t.toInt b = -1))
def opDiv (t : Ty) : IntOp := fun a b _ =>
  let p := quotient t a b
  (p, some (ccPattern t.width p false (divV t a b)))
def opRem (t : Ty) : IntOp := fun a b _ =>
  let p := remainder t a b
  (p, some (ccPattern t.width p false (divV t a b)))
def opNeg (t : Ty) (sat : Bool) : IntOp := fun a _ _ => (storeInt t sat (-(t.toInt a)), some (ccSub t sat 0 a))
/-- ABS: V is set only where .sat clamped (R292). -/
def opAbs (t : Ty) (sat : Bool) : IntOp := fun a _ _ =>
  let x : Int := (t.toInt a).natAbs
  let p := storeInt t sat x
  (p, some (ccPattern t.width p false (sat && outside t x)))
/-- The other instructions write Z and N of the stored pattern, with C and V 0 (R292). -/
def plain (t : Ty) (p : Nat) : Nat × Option CC4 := (p, some (ccPattern t.width p false false))
def opMin (t : Ty) : IntOp := fun a b _ => plain t (if t.toInt b < t.toInt a then b else a)
def opMax (t : Ty) : IntOp := fun a b _ => plain t (if t.toInt a < t.toInt b then b else a)
def opAnd (t : Ty) : IntOp := fun a b _ => plain t (a &&& b)
def opOr (t : Ty) : IntOp := fun a b _ => plain t (a ||| b)
def opXor (t : Ty) : IntOp := fun a b _ => plain t (a ^^^ b)
def opNot (t : Ty) : IntOp := fun a _ _ => plain t (2 ^ t.width - 1 - a)
def opAndn (t : Ty) : IntOp := fun a b _ => plain t (a &&& (2 ^ t.width - 1 - b))
/-- Shifts and rotates by bits [7:0] of b (R288). -/
def opShl (t : Ty) : IntOp := fun a b _ => plain t (a * 2 ^ (b % 256) % 2 ^ t.width)
def opShr (t : Ty) : IntOp := fun a b _ => plain t (a / 2 ^ (b % 256))
def opSar (t : Ty) : IntOp := fun a b _ => plain t (patternOf t.width (toSigned t.width a / (2 ^ (b % 256) : Nat)))
def opRol (t : Ty) : IntOp := fun a b _ =>
  let n := b % 256 % t.width
  plain t (a * 2 ^ n % 2 ^ t.width + a / 2 ^ (t.width - n))
/-- MOV leaves CC (R290, R292). -/
def opMov : IntOp := fun a _ _ => (a, none)

/-- The conditions of CMP (R289). -/
def cmpHolds (code : Nat) (a b : Int) : Bool :=
  match code with
  | 0 => decide (a = b)
  | 1 => decide (a ≠ b)
  | 2 => decide (a < b)
  | 3 => decide (a ≤ b)
  | 4 => decide (b < a)
  | _ => decide (b ≤ a)
def opCmp (t : Ty) (code : Nat) : IntOp := fun a b _ =>
  (if cmpHolds code (t.toInt a) (t.toInt b) then 1 else 0, some (ccSub t false a b))
/-- The three-way comparison of the immediate form (R289). -/
def opCmp3 (t : Ty) : IntOp := fun a b _ =>
  (if t.toInt a < t.toInt b then 2 ^ t.width - 1 else if a = b then 0 else 1, some (ccSub t false a b))

/-! Bit instructions (R291). -/
def clzOf (w p : Nat) : Nat := if p = 0 then w else w - 1 - Nat.log2 p
def ctzGo (p : Nat) : Nat → Nat → Nat
  | 0, i => i
  | k + 1, i => if p / 2 ^ i % 2 = 1 then i else ctzGo p k (i + 1)
def ctzOf (w p : Nat) : Nat := ctzGo p w 0
def popcOf (w p : Nat) : Nat := ((List.range w).filter fun i => p / 2 ^ i % 2 = 1).length
def brevOf (w p : Nat) : Nat :=
  ((List.range w).filter fun i => p / 2 ^ i % 2 = 1).foldl (fun a i => a + 2 ^ (w - 1 - i)) 0
def opClz (t : Ty) : IntOp := fun a _ _ => plain t (clzOf t.width a)
def opCtz (t : Ty) : IntOp := fun a _ _ => plain t (ctzOf t.width a)
def opPopc (t : Ty) : IntOp := fun a _ _ => plain t (popcOf t.width a)
def opBrev (t : Ty) : IntOp := fun a _ _ => plain t (brevOf t.width a)
/-- Bits [pos + len − 1:pos] of a, extended by the type. -/
def opBfx (t : Ty) (pos len : Nat) : IntOp := fun a _ _ =>
  let x := a / 2 ^ pos % 2 ^ len
  plain t (if t.isSigned then patternOf t.width (toSigned len x) else x)
/-- `d` with bits [pos + len − 1:pos] replaced by the low bits of a. -/
def insertBits (d a pos len : Nat) : Nat :=
  d % 2 ^ pos + a % 2 ^ len * 2 ^ pos + d / 2 ^ (pos + len) * 2 ^ (pos + len)

/-! ### CLASS 1 (R286-R290) -/

def execAdd (o : FmtA) (s : State) : Out := intA o (opAdd o.ty (FmtASat o)) s
def execSub (o : FmtA) (s : State) : Out := intA o (opSub o.ty (FmtASat o)) s
def execMul (o : FmtA) (s : State) : Out := intA o (opMul o.ty (FmtASat o)) s
def execMulhi (o : FmtA) (s : State) : Out := intA o (opMulhi o.ty) s
def execMad (o : FmtA) (s : State) : Out := intA o (opMad o.ty (FmtASat o)) s
def execDiv (o : FmtA) (s : State) : Out := intA o (opDiv o.ty) s
def execRem (o : FmtA) (s : State) : Out := intA o (opRem o.ty) s
def execNeg (o : FmtA) (s : State) : Out := intA o (opNeg o.ty (FmtASat o)) s
def execAbs (o : FmtA) (s : State) : Out := intA o (opAbs o.ty (FmtASat o)) s
def execMin (o : FmtA) (s : State) : Out := intA o (opMin o.ty) s
def execMax (o : FmtA) (s : State) : Out := intA o (opMax o.ty) s
def execAnd (o : FmtA) (s : State) : Out := intA o (opAnd o.ty) s
def execOr (o : FmtA) (s : State) : Out := intA o (opOr o.ty) s
def execXor (o : FmtA) (s : State) : Out := intA o (opXor o.ty) s
def execNot (o : FmtA) (s : State) : Out := intA o (opNot o.ty) s
def execAndn (o : FmtA) (s : State) : Out := intA o (opAndn o.ty) s
def execShl (o : FmtA) (s : State) : Out := intA o (opShl o.ty) s
def execShr (o : FmtA) (s : State) : Out := intA o (opShr o.ty) s
def execSar (o : FmtA) (s : State) : Out := intA o (opSar o.ty) s
def execRol (o : FmtA) (s : State) : Out := intA o (opRol o.ty) s
def execMov (o : FmtA) (s : State) : Out := intA o (opMov) s

/-- SEL moves all 64 bits: by the mask C in the vector form, by a condition on CC in the scalar form (R289). -/
def execSel (o : FmtA) (s : State) : Out :=
  wordStep s fun r =>
    (r.write o.d o.mask fun l =>
      let takeA := if o.d.isScalar then ccHolds r.cc o.mod.toNat else (r.mask o.c.toNat).getLsbD l
      (if takeA then r.read o.a l else r.read o.b l, 0)).advance

/-- CMP: with MD (MOD[3]) into a mask register, always in the vector form; else 1 or 0 (R289). -/
def execCmp (o : FmtA) (s : State) : Out :=
  if o.mod.getLsbD 3 then
    wordStep s fun r =>
      (r.writeMask o.d.toNat o.mask fun l =>
        cmpHolds (o.mod.toNat % 8) (o.ty.toInt (r.elem o.ty o.a l)) (o.ty.toInt (r.elem o.ty o.b l))).advance
  else intA o (opCmp o.ty (o.mod.toNat % 8)) s

/-! ### CLASS 2 (R286, R288-R290) -/

def execAddImm (o : FmtI2) (s : State) : Out := intI o (opAdd o.ty false) s
def execSubImm (o : FmtI2) (s : State) : Out := intI o (opSub o.ty false) s
def execMulImm (o : FmtI2) (s : State) : Out := intI o (opMul o.ty false) s
def execMinImm (o : FmtI2) (s : State) : Out := intI o (opMin o.ty) s
def execMaxImm (o : FmtI2) (s : State) : Out := intI o (opMax o.ty) s
def execAndImm (o : FmtI2) (s : State) : Out := intI o (opAnd o.ty) s
def execOrImm (o : FmtI2) (s : State) : Out := intI o (opOr o.ty) s
def execXorImm (o : FmtI2) (s : State) : Out := intI o (opXor o.ty) s
def execShlImm (o : FmtI2) (s : State) : Out := intI o (opShl o.ty) s
def execShrImm (o : FmtI2) (s : State) : Out := intI o (opShr o.ty) s
def execSarImm (o : FmtI2) (s : State) : Out := intI o (opSar o.ty) s
def execRolImm (o : FmtI2) (s : State) : Out := intI o (opRol o.ty) s
def execCmpImm (o : FmtI2) (s : State) : Out := intI o (opCmp3 o.ty) s

/-- MOVI: sign-extended with TYPE 0x0, zero-extended with TYPE 0x1 (R290). -/
def execMovi (o : FmtI1) (s : State) : Out :=
  wordStep s fun r =>
    (r.write o.d o.mask fun _ => (if o.ty == .n64 then o.imm.zeroExtend 64 else o.imm.signExtend 64, 0)).advance

/-- MOVH: bits [63:32], keeping bits [31:0] (R290). -/
def execMovh (o : FmtI1) (s : State) : Out :=
  wordStep s fun r => (r.write o.d o.mask fun l => (o.imm ++ (r.read o.d l).extractLsb' 0 32, 0)).advance

/-! ### CLASS 3 (R291) -/

def execClz (o : FmtA) (s : State) : Out := intA o (opClz o.ty) s
def execCtz (o : FmtA) (s : State) : Out := intA o (opCtz o.ty) s
def execPopc (o : FmtA) (s : State) : Out := intA o (opPopc o.ty) s
def execBrev (o : FmtA) (s : State) : Out := intA o (opBrev o.ty) s
def execBfx (o : FmtA) (s : State) : Out := intA o (opBfx o.ty o.b.toNat (o.c.toNat + 1)) s
/-- BFI also reads D's element (R291). -/
def execBfi (o : FmtA) (s : State) : Out :=
  wordStep s fun r =>
    let g := fun l => insertBits (r.elem o.ty o.d l) (r.elem o.ty o.a l) o.b.toNat (o.c.toNat + 1)
    ((r.write o.d o.mask fun l => (pat (g l), 0)).writeCC o.d (ccPattern o.ty.width (g 0) false false)).advance

end Sys2Proof.Machine
end

