-- ==== Sys2Proof/Machine/Geometry.lean ====
section
/-! DEFINITION. The exact tests of the beam unit (16 R339, R341-R346, R349): dyadic numbers, slab bounds, triangles, best hits. -/
namespace Sys2Proof.Machine

/-! ### Exact numbers -/

/-- The number m × 2^e. -/
structure Dy where
  m : Int
  e : Int
deriving DecidableEq, Repr

def Dy.zero : Dy := ⟨0, 0⟩
def Dy.add (x y : Dy) : Dy :=
  let (m, e) := exactSum x.m x.e y.m y.e
  ⟨m, e⟩
def Dy.neg (x : Dy) : Dy := ⟨-x.m, x.e⟩
def Dy.sub (x y : Dy) : Dy := x.add y.neg
def Dy.mul (x y : Dy) : Dy := ⟨x.m * y.m, x.e + y.e⟩
def Dy.ofNat (n : Nat) : Dy := ⟨(n : Int), 0⟩
def Dy.le (x y : Dy) : Bool := decide ((x.sub y).m ≤ 0)
def Dy.lt (x y : Dy) : Bool := decide ((x.sub y).m < 0)

/-- A real, or an infinity. -/
inductive Ext where
  | ninf | fin (x : Dy) | pinf
deriving DecidableEq, Repr

def Ext.le : Ext → Ext → Bool
  | .ninf, _ => true
  | _, .pinf => true
  | .fin x, .fin y => x.le y
  | _, _ => false
def Ext.lt (x y : Ext) : Bool := !(y.le x)
def Ext.max (x y : Ext) : Ext := if x.le y then y else x
def Ext.min (x y : Ext) : Ext := if x.le y then x else y

/-- The value of f32 bits; none for a NaN. -/
def f32Ext (bits : Nat) : Option Ext :=
  match Fmt.decode .f32 bits with
  | .nan _ => none
  | .inf n => some (if n then .ninf else .pinf)
  | .fin n m e => some (.fin ⟨sgn n m, e⟩)
/-- The value of f32 bits; none where it is not finite. -/
def f32Fin (bits : Nat) : Option Dy :=
  match Fmt.decode .f32 bits with
  | .fin n m e => some ⟨sgn n m, e⟩
  | _ => none

/-- RoundTo(f32) of a real (R273), as bits. -/
def Dy.toF32 (x : Dy) (mode : RMode) : Nat := if x.m = 0 then 0 else (roundTo .f32 mode (x.m < 0) x.m.natAbs x.e false).1
/-- RoundTo(f32) of the quotient of two reals, the second not 0, as bits. -/
def ratioF32 (n d : Dy) (mode : RMode) : Nat :=
  if n.m = 0 then 0 else (fDiv .f32 mode (.fin (n.m < 0) n.m.natAbs n.e) (.fin (d.m < 0) d.m.natAbs d.e)).1
def bitsExt (bits : Nat) : Ext := (f32Ext bits).getD .pinf

/-- The next f32 above a value (R349). -/
def nextUp (bits : Nat) : Nat :=
  let m := bits % 2 ^ 31
  if 2 ^ 31 ≤ bits then (if m = 0 then 1 else 2 ^ 31 + (m - 1)) else if m = 0x7F80_0000 then m else m + 1

/-! ### Vectors -/

structure Vec where
  x : Dy
  y : Dy
  z : Dy
deriving DecidableEq, Repr

def Vec.sub (a b : Vec) : Vec := ⟨a.x.sub b.x, a.y.sub b.y, a.z.sub b.z⟩
def Vec.add (a b : Vec) : Vec := ⟨a.x.add b.x, a.y.add b.y, a.z.add b.z⟩
def Vec.dot (a b : Vec) : Dy := ((a.x.mul b.x).add (a.y.mul b.y)).add (a.z.mul b.z)
def Vec.cross (a b : Vec) : Vec :=
  ⟨(a.y.mul b.z).sub (a.z.mul b.y), (a.z.mul b.x).sub (a.x.mul b.z), (a.x.mul b.y).sub (a.y.mul b.x)⟩
def Vec.axes (a : Vec) : List Dy := [a.x, a.y, a.z]
def Vec.isZero (a : Vec) : Bool := a.x.m == 0 && a.y.m == 0 && a.z.m == 0

/-- 32-bit item `i` of a record of 8-byte words. -/
def half (ws : List Word) (i : Nat) : Nat := wfield32 (ws.getD (i / 2) 0) (i % 2)
where
  wfield32 (w : Word) (h : Nat) : Nat := w.toNat / 2 ^ (32 * h) % 2 ^ 32
/-- Byte `i` of a record. -/
def byteAt (ws : List Word) (i : Nat) : Nat := (ws.getD (i / 8) 0).toNat / 2 ^ (8 * (i % 8)) % 256

/-- Three f32 components from item `i` on; none where one is not finite. -/
def vecAt (ws : List Word) (i : Nat) : Option Vec :=
  match f32Fin (half ws i), f32Fin (half ws (i + 1)), f32Fin (half ws (i + 2)) with
  | some x, some y, some z => some ⟨x, y, z⟩
  | _, _, _ => none

/-- A direction D + a × DU + b × DV, each component rounded to f32 (R339). -/
def direction (d du dv : Vec) (a b : Dy) : Vec :=
  let c := fun (x y z : Dy) => (f32Fin (((x.add (a.mul y)).add (b.mul z)).toF32 .rne)).getD Dy.zero
  ⟨c d.x du.x dv.x, c d.y du.y dv.y, c d.z du.z dv.z⟩

/-- A component of a direction overflows f32 (R343: it is not finite). -/
def directionFinite (d du dv : Vec) (a b : Dy) : Bool :=
  let c := fun (x y z : Dy) => (f32Fin (((x.add (a.mul y)).add (b.mul z)).toF32 .rne)).isSome
  c d.x du.x dv.x && c d.y du.y dv.y && c d.z du.z dv.z

/-- The least, and the greatest, components of directions. -/
def dirLow (l : List Vec) : Vec := fold l fun a b => if a.le b then a else b
where
  fold (l : List Vec) (f : Dy → Dy → Dy) : Vec := match l with
    | [] => ⟨Dy.zero, Dy.zero, Dy.zero⟩
    | v :: rest => rest.foldl (fun a b => ⟨f a.x b.x, f a.y b.y, f a.z b.z⟩) v
def dirHigh (l : List Vec) : Vec := dirLow.fold l fun a b => if a.le b then b else a

/-! ### Boxes (R344) -/

/-- The four bounds of one axis (R344 Table 5): Lin, Uin, Lout, Uout. -/
def slab (o lo hi dlo dhi : Dy) : Ext × Ext × Ext × Ext :=
  let z := Dy.zero
  let low := fun (x : Dy) => (bitsExt (ratioF32 (x.sub o) dlo .rdn)).min (bitsExt (ratioF32 (x.sub o) dhi .rdn))
  let high := fun (x : Dy) => (bitsExt (ratioF32 (x.sub o) dlo .rup)).max (bitsExt (ratioF32 (x.sub o) dhi .rup))
  if z.lt dlo then (low lo, high lo, low hi, high hi)
  else if dhi.lt z then (low hi, high hi, low lo, high lo)
  else if dlo.m == 0 && dhi.m == 0 then
    if lo.le o && o.le hi then (.ninf, .ninf, .pinf, .pinf) else (.pinf, .pinf, .ninf, .ninf)
  else (.ninf, .pinf, .ninf, .pinf)

inductive BoxOut where
  | miss | hit | mixed
deriving DecidableEq, Repr

/-- The outcome of a box, given as its low and high corners, for directions in a direction box. -/
def boxTest (o lo hi dlo dhi : Vec) (tmin bound : Ext) : BoxOut :=
  let x := slab o.x lo.x hi.x dlo.x dhi.x
  let y := slab o.y lo.y hi.y dlo.y dhi.y
  let z := slab o.z lo.z hi.z dlo.z dhi.z
  let lin := tmin.max (x.1.max (y.1.max z.1))
  let uin := tmin.max (x.2.1.max (y.2.1.max z.2.1))
  let lout := bound.min (x.2.2.1.min (y.2.2.1.min z.2.2.1))
  let uout := bound.min (x.2.2.2.min (y.2.2.2.min z.2.2.2))
  if uout.lt lin then .miss else if uin.le lout then .hit else .mixed

/-! ### Triangles (R345, R346) -/

/-- A triangle as the tests use it: its primitive, n0, n1, n2 and a0 · N. -/
structure Tri where
  prim : Nat
  n0 : Vec
  n1 : Vec
  n2 : Vec
  num : Dy
deriving DecidableEq, Repr

def Tri.of (o v0 v1 v2 : Vec) (prim : Nat) : Tri :=
  let a0 := v0.sub o
  let a1 := v1.sub o
  let a2 := v2.sub o
  let n0 := a1.cross a2
  let n1 := a2.cross a0
  let n2 := a0.cross a1
  { prim := prim, n0 := n0, n1 := n1, n2 := n2, num := a0.dot ((n0.add n1).add n2) }

/-- A triangle from the six words of its block entry; none where R343 makes it MALFORMED. -/
def triOf (o : Vec) (ws : List Word) : Option Tri :=
  match vecAt ws 0, vecAt ws 3, vecAt ws 6 with
  | some v0, some v1, some v2 => if ws.getD 5 0 = 0 then some (Tri.of o v0 v1 v2 (half ws 9)) else none
  | _, _, _ => none

/-- A hit of one ray of direction d, within TMIN and TMAX: T, U and V. -/
def Tri.hit (t : Tri) (d : Vec) (tmin tmax : Ext) : Option (Nat × Nat × Nat) :=
  let e0 := d.dot t.n0
  let e1 := d.dot t.n1
  let e2 := d.dot t.n2
  let g := (e0.add e1).add e2
  let z := Dy.zero
  let all := fun (p : Dy → Bool) => p e0 && p e1 && p e2
  if g.m = 0 || !(all (fun x => z.le x) || all (fun x => x.le z)) then none
  else
    -- tmin ≤ num / g ≤ tmax, compared without division
    let atLeast := fun (b : Ext) => match b with
      | .ninf => true
      | .pinf => false
      | .fin x => if z.lt g then (x.mul g).le t.num else t.num.le (x.mul g)
    let atMost := fun (b : Ext) => match b with
      | .ninf => false
      | .pinf => true
      | .fin x => if z.lt g then t.num.le (x.mul g) else (x.mul g).le t.num
    if atLeast tmin && atMost tmax then some (ratioF32 t.num g .rne, ratioF32 e1 g .rne, ratioF32 e2 g .rne) else none

/-- The least, or the greatest, of d · n over a direction box. -/
def extreme (n lo hi : Vec) (big : Bool) : Dy :=
  let c := fun (x l h : Dy) =>
    let p := x.mul l
    let q := x.mul h
    if p.le q == big then q else p
  ((c n.x lo.x hi.x).add (c n.y lo.y hi.y)).add (c n.z lo.z hi.z)

/-- A query of more than one ray misses the triangle (R346). -/
def Tri.allMiss (t : Tri) (lo hi : Vec) : Bool :=
  let ns := [t.n0, t.n1, t.n2]
  let z : Ext := .fin Dy.zero
  let mins := ns.map fun n => bitsExt ((extreme n lo hi false).toF32 .rdn)
  let maxs := ns.map fun n => bitsExt ((extreme n lo hi true).toF32 .rup)
  (maxs.any (·.lt z) && mins.any z.lt) || (maxs.all (·.le z) && mins.all z.le)

/-! ### Best hits (R349) -/

/-- The smaller pair (T, PRIM) is kept. -/
def keepBest (b : Option BestHit) (h : BestHit) : Option BestHit :=
  match b with
  | none => some h
  | some x =>
    let tx := bitsExt x.t.toNat
    let th := bitsExt h.t.toNat
    if th.lt tx || (th.le tx && decide (h.prim < x.prim)) then some h else some x

/-- The bound B of a ray. -/
def boundOf (tmax : Ext) (b : Option BestHit) : Ext :=
  match b with
  | none => tmax
  | some h => tmax.min (bitsExt (nextUp h.t.toNat))

end Sys2Proof.Machine
end

