-- ==== Sys2Proof/Machine/Control.lean ====
section
/-! DEFINITION. The control instructions (18 R371-R384): mask instructions, branches of the whole role, paths and
reconvergence with spills and fills of the stack (09 R207-R209), EXIT, and the modes. -/
namespace Sys2Proof.Machine

/-! ### CLASS 10: masks (R372) -/

/-- Write a mask from the masks of A and B, for every lane below NLANES. -/
def maskOp (o : FmtA) (f : LaneMask → LaneMask → LaneMask) (s : State) : Out :=
  wordStep s fun r => (r.setMask (o.d.num % 8) (f (r.mask (o.a.num % 8)) (r.mask (o.b.num % 8)))).advance

def execMand (o : FmtA) (s : State) : Out := maskOp o (fun a b => a &&& b) s
def execMor (o : FmtA) (s : State) : Out := maskOp o (fun a b => a ||| b) s
def execMxor (o : FmtA) (s : State) : Out := maskOp o (fun a b => a ^^^ b) s
def execMnot (o : FmtA) (s : State) : Out := maskOp o (fun a _ => ~~~a) s
def execMmove (o : FmtA) (s : State) : Out := maskOp o (fun a _ => a) s

/-- A mask with lanes 64k to 64k + 63 taken from a word (R372). -/
def maskWindow (m : LaneMask) (k : Nat) (x : Word) : LaneMask :=
  if 16 ≤ k then m
  else (m &&& ~~~(lowLanes 64 <<< (64 * k))) ||| ((x.zeroExtend 1024) <<< (64 * k))

def execMfroms (o : FmtA) (s : State) : Out :=
  wordStep s fun r =>
    (r.setMask (o.d.num % 8) (maskWindow (r.mask (o.d.num % 8)) (r.sreg o.b.num).toNat (r.sreg o.a.num))).advance

def execMtos (o : FmtA) (s : State) : Out :=
  wordStep s fun r =>
    let k := (r.sreg o.b.num).toNat
    let x : Word := if 16 ≤ k then 0 else (r.mask (o.a.num % 8)).extractLsb' (64 * k) 64
    (r.setSreg o.d.num x).advance

/-! ### Targets of transfers (R26, R373) -/

/-- The word at an address: the one of a kept clause, where there is one there. -/
def KeptClause.wordAt (f : Option KeptClause) (va : Nat) (w : Word) : Word :=
  match f with
  | some k => if k.addr.toNat ≤ va && va % 8 = 0 then k.words.getD ((va - k.addr.toNat) / 8) w else w
  | none => w

/-- The kept clause that an address of a role lies in. -/
def State.keptClause (s : State) (r : Role) (pc : Word) : Option KeptClause :=
  (s.core r.core).fetched.find? fun f => f.vmid == r.vmid && f.asid == r.asid && f.addr.toNat ≤ pc.toNat &&
    pc.toNat < f.addr.toNat + 8 * f.words.length

/-- The word at a target is a valid header, or the fetch of the target clause will say why it cannot be read (R22, R26). Where the core
keeps another word there than the newest, which of the two the fetch takes is drawn here, and the fetch abides by it (R28). -/
def State.targetHeader (s : State) (rid : Nat) (r : Role) (t : Word) : Bool × State :=
  if onChip t.toNat then (true, s)
  else match s.walk (r.walker none) .fetch t.toNat with
    | (.ok m, s1) =>
      let bad := s1.readBad (dieOf r.core) (lineOf m.pa)
      if regionOf m.pa == .window then (true, s1)
      else
        let (x, _, s2) := s1.readIn (dieOf r.core) m.pa 8 r.vmid 0
        let w := BitVec.ofNat 64 x
        let old := KeptClause.wordAt (s2.keptClause r t) t.toNat w
        if bad then (true, s2)
        else if old = w then ((decodeHeader w).isSome, s2)
        else
          let (v, s3) := s2.fresh
          ((decodeHeader (if v.getLsbD 0 then old else w)).isSome,
            s3.updCore r.core fun k => { k with picks := (rid, t, v.getLsbD 0) :: k.picks.filter fun p => p.1 != rid })
    | (_, s1) => (true, s1)

/-- The checks of a taken transfer to the exact address `ea`; an error is the state with the trap taken. (DEDUCED, log 45) -/
def State.checkTarget (s : State) (rid : Nat) (r : Role) (ea : Int) : Except State State :=
  let t := addr64 ea
  if !canonRange ea 1 then .error (s.trap rid cNONCANON t)
  else if t.toNat % 8 ≠ 0 then .error (s.trap rid cALIGN t)
  else match s.targetHeader rid r t with
    | (true, s1) => .ok s1
    | (false, s1) => .error (s1.trap rid cILLEGAL t)

/-- A taken transfer: `q` is the role with the instruction's other effects. -/
def State.transfer (s : State) (rid : Nat) (r q : Role) (ea : Int) : State :=
  match s.checkTarget rid r ea with
  | .ok s1 => s1.setRole rid (q.goto (addr64 ea))
  | .error s1 => s1

/-! ### The reconvergence stack (R207-R209) -/

def EntryKind.code : EntryKind → Nat
  | .split => 1
  | .els => 2
  | .loop => 3
  | .call => 4

def entryKindOf : Nat → Option EntryKind
  | 1 => some .split
  | 2 => some .els
  | 3 => some .loop
  | 4 => some .call
  | _ => none

/-- The twenty words of a spilled entry (R208 Table 4). -/
def StackEntry.words (e : StackEntry) : List Word :=
  [BitVec.ofNat 64 (e.kind.code * 2 ^ 60 + e.pc.toNat % 2 ^ 57), e.fmt, (maskSummary e.mask).zeroExtend 64, 0] ++
    (List.range 16).map fun k => e.mask.extractLsb' (64 * k) 64

/-- A mask from its sixteen 64-bit words. -/
def maskOfWords (ws : List Word) : LaneMask :=
  BitVec.ofNat 1024 (ws.foldr (fun w a => w.toNat + 2 ^ 64 * a) 0)

/-- A filled entry; none where its KIND is reserved or a reserved field is not zero (R209). (DEDUCED, log 47) -/
def entryOfWords (nlanes : Nat) (ws : List Word) : Option StackEntry :=
  match ws with
  | w0 :: w1 :: w2 :: w3 :: rest =>
    let m := maskOfWords rest
    match entryKindOf (wfield w0 60 4) with
    | none => none
    | some k =>
      if wfield w0 57 3 ≠ 0 || wfield w1 10 54 ≠ 0 || wfield w2 32 32 ≠ 0 || w3 ≠ 0 || m.toNat / 2 ^ (32 * ((nlanes + 31) / 32)) ≠ 0
          || wfield w1 0 3 = 0 || 4 < wfield w1 0 3 then none
      else some { kind := k, pc := (w0.extractLsb' 0 57).signExtend 64, mask := m &&& lowLanes nlanes, fmt := w1 &&& 0x3FF#64 }
  | _ => none

/-- The address of entry `i` in the stack area. -/
def Role.stackAddr (r : Role) (i : Nat) : Int := (r.rsbase.toNat : Int) + 160 * (i : Int)

/-- A spill or fill that fails raises its cause precisely (R209); a PEER page raises PERM there. (DEDUCED, log 46) -/
def State.stackStop (s : State) (rid : Nat) (e : Stop × Word) : State :=
  match e.1 with
  | .issue c => s.trap rid c e.2
  | .walk (.fault c) =>
    if c = cDATA_ERROR then match s.role? rid with
      | some r => s.abortGang rid c e.2 r.ipc
      | none => s
    else s.trap rid (if c = cPEER then cPERM else c) e.2
  | .walk _ => s.holdRole rid .walk

/-- An instruction that needs a spill or fill waits for the side-log window (R209), and for the role's earlier accesses
(R143). -/
def State.stackReady (s : State) (rid : Nat) (r : Role) : Except State Unit :=
  if s.windowOpen rid r then .error (s.holdRole rid .window)
  else if s.busyOps rid r then .error (s.holdRole rid .drain)
  else .ok ()

/-- The role remembers the words that it has put into its stack area, each by its place. -/
def Role.spilling (r : Role) (ws : List (Spot × Word)) : Role :=
  { r with spilled := ws.foldl (fun m p => m.put p.1.place p.2) r.spilled }

/-- Write words to the stack area, each at its address; every word passes its checks before any is written. The answer is the role
with the words remembered. -/
def State.stackWrite (s : State) (rid : Nat) (r : Role) (ws : List (Int × Word)) : Except State (Role × State) :=
  if ws.isEmpty then .ok (r, s)
  else do
    s.stackReady rid r
    match s.spots r (.stack true) 8 8 (ws.map (·.1)) with
    | (.error e, s1) => .error (s1.stackStop rid e)
    | (.ok xs, s1) => match s1.writeSpots r 8 (xs.zip (ws.map (·.2.toNat))) with
      | (.ok _, s2) => .ok (r.spilling (xs.zip (ws.map (·.2))), s2)
      | (.error (c, i), s2) => .error (s2.stackStop rid (.walk (.fault c), addr64 ((ws.getD i (0, 0)).1)))

/-- The words of stack entries, each with its address. -/
def Role.spillWords (r : Role) (es : List (Nat × StackEntry)) : List (Int × Word) :=
  es.flatMap fun p => (List.range 20).map fun (k : Nat) => (r.stackAddr p.1 + 8 * (k : Int), p.2.words.getD k 0)

/-- Words of the stack area as they read back: one that another agent has changed reads as the old or the new word, and which is a
free value (R209). (DESIGN CHOICE, log 48) -/
def Role.readBack (r : Role) (ws : List (Spot × Word)) (pick : Word) : List Word :=
  ws.mapIdx fun k p => match r.spilled.find p.1.place with
    | some old => if pick.getLsbD k then old else p.2
    | none => p.2

/-- Some word of those read is not the one that the role has put there. -/
def Role.areaChanged (r : Role) (ws : List (Spot × Word)) : Bool :=
  ws.any fun p => match r.spilled.find p.1.place with
    | some old => old != p.2
    | none => false

/-- Read `n` words of entry `i` from the stack area, as 8-byte elements. -/
def State.stackWords (s : State) (rid : Nat) (r : Role) (i n : Nat) : Except State (List Word × State) := do
  s.stackReady rid r
  let addrs := (List.range n).map fun (k : Nat) => r.stackAddr i + 8 * (k : Int)
  match s.spots r (.stack false) 8 8 addrs with
  | (.error e, s1) => .error (s1.stackStop rid e)
  | (.ok xs, s1) => match s1.readSpots r 8 xs with
    | (.ok vs, s2) =>
      let ws := xs.zip (vs.map fun v => BitVec.ofNat 64 v)
      if r.areaChanged ws then
        let (pick, s3) := s2.fresh
        .ok (r.readBack ws pick, s3)
      else .ok (ws.map (·.2), s2)
    | (.error (c, k), s2) => .error (s2.stackStop rid (.walk (.fault c), addr64 (r.stackAddr i + 8 * (k : Int))))

/-- The number of the lowest held entry. -/
def Role.lowest (r : Role) : Nat := r.depth - r.stack.length

/-- Hold the `n` topmost entries, reading from memory those that are not held (R208). -/
def State.fillTop (s : State) (rid : Nat) (r : Role) : Nat → Except State (Role × State)
  | 0 => .ok (r, s)
  | n + 1 =>
    if n + 1 ≤ r.stack.length ∨ r.depth ≤ r.stack.length then .ok (r, s)
    else do
      let (r1, s1) ← State.fillTop s rid r n
      if n + 1 ≤ r1.stack.length ∨ r1.lowest = 0 then return (r1, s1)
      let (ws, s2) ← s1.stackWords rid r (r1.lowest - 1) 20
      match entryOfWords r.nlanes ws with
      | none => .error (s2.trap rid cILLEGAL 0)
      | some e => .ok ({ r1 with stack := r1.stack ++ [e] }, s2)

/-- The program counter that an entry holds: VA[56:0], bits [63:57] copies of bit 56 (R208). -/
def entryPC (a : Word) : Word := (a.extractLsb' 0 57).signExtend 64

/-- Push entries, the last of the list on top (R208, R209). -/
def State.pushEntries (s : State) (rid : Nat) (r : Role) (es : List StackEntry) : Except State (Role × State) :=
  if r.limit < r.depth + es.length then .error (s.trap rid cPERM (addr64 (r.stackAddr r.depth)))
  else
    let out := r.stack.length + es.length - 32
    let low := (List.range out).zip (r.stack.reverse.take out) |>.map fun p => (r.lowest + p.1, p.2)
    match s.stackWrite rid r (r.spillWords low) with
    | .error s1 => .error s1
    | .ok (r1, s1) =>
      .ok ({ r1 with stack := (es.reverse.map fun e => { e with pc := entryPC e.pc }) ++ r.stack.take (r.stack.length - out), depth := r.depth + es.length }, s1)

/-- The role without its top entry. -/
def Role.pop (r : Role) : Role := { r with stack := r.stack.drop 1, depth := r.depth - 1 }
/-- The role with its top entry replaced. -/
def Role.setTop (r : Role) (e : StackEntry) : Role := { r with stack := e :: r.stack.drop 1 }

/-- A control word: an error is the state in which the instruction has trapped or holds. -/
def control (s : State) (f : Nat → Role → Except State State) : Out :=
  onRole s fun rid r => match f rid r with
    | .ok s1 => s1
    | .error s1 => s1

/-- ILLEGAL of ELSE, JOIN, RET and BRK, with TADDR 0 (R381). -/
def State.badStack (s : State) (rid : Nat) : Except State State := .error (s.trap rid cILLEGAL 0)

/-! ### CLASS 11 -/

def execBra (o : FmtB) (s : State) : Out := onRole s fun rid r => s.transfer rid r r (r.target o.off)

def execBc (o : FmtB) (s : State) : Out :=
  onRole s fun rid r =>
    if r.cond o.cond o.mc then s.transfer rid r r (r.target o.off) else s.setRole rid r.advance

def execCall (o : FmtB) (s : State) : Out :=
  control s fun rid r => do
    let t : Int := if o.s = 0 then r.target o.off else (r.sreg o.s.num).toNat
    let s1 ← s.checkTarget rid r t
    let (q, s2) ← s1.pushEntries rid r [{ kind := .call, pc := r.next, mask := r.mask 0, fmt := r.fmt }]
    return s2.setRole rid (q.goto (addr64 t))

def execRet (_o : FmtB) (s : State) : Out :=
  control s fun rid r => do
    let (r1, s1) ← s.fillTop rid r 1
    match r1.stack with
    | e :: _ =>
      if e.kind ≠ .call then s1.badStack rid
      else
        let s2 ← s1.checkTarget rid r e.pc.toNat
        return s2.setRole rid (({ (r1.setMask 0 e.mask) with fmt := e.fmt }.pop).goto e.pc)
    | [] => s1.badStack rid

def execJmpi (o : FmtB) (s : State) : Out := onRole s fun rid r => s.transfer rid r r (r.sreg o.s.num).toNat

/-- (DEDUCED, log 164) -/
def execSplit (o : FmtB) (s : State) : Out :=
  control s fun rid r => do
    let a := r.effective 0
    let t := a &&& r.mask o.mc.toNat
    let f := a &&& ~~~(r.mask o.mc.toNat)
    let target := r.target o.off
    if !canonRange target 1 then .error (s.trap rid cNONCANON (addr64 target))
    else if t = 0 then
      let s1 ← s.checkTarget rid r target
      let (q, s2) ← s1.pushEntries rid r [{ kind := .els, pc := 0, mask := 0, fmt := r.fmt }]
      return s2.setRole rid ((q.setMask 0 f).goto (addr64 target))
    else
      let (q, s1) ← s.pushEntries rid r [{ kind := .split, pc := addr64 target, mask := f, fmt := r.fmt }]
      return s1.setRole rid (q.setMask 0 t).advance

def execEls (o : FmtB) (s : State) : Out :=
  control s fun rid r => do
    let (r1, s1) ← s.fillTop rid r 1
    match r1.stack with
    | e :: _ =>
      let target := r.target o.off
      if e.kind ≠ .split then s1.badStack rid
      else if e.mask = 0 then
        let s2 ← s1.checkTarget rid r target
        return s2.setRole rid ((r1.setTop { kind := .els, pc := addr64 target, mask := 0, fmt := e.fmt }).goto (addr64 target))
      else
        let s2 ← if canonRange target 1 then s1.checkTarget rid r e.pc.toNat else .error (s1.trap rid cNONCANON (addr64 target))
        let q := r1.setTop { kind := .els, pc := addr64 target, mask := r.mask 0, fmt := e.fmt }
        return s2.setRole rid ({ (q.setMask 0 e.mask) with fmt := e.fmt }.goto e.pc)
    | [] => s1.badStack rid

def execLoop (_o : FmtB) (s : State) : Out :=
  control s fun rid r => do
    let e : StackEntry := { kind := .loop, pc := r.next, mask := r.mask 0, fmt := r.fmt }
    let (q, s1) ← s.pushEntries rid r [e, e]
    return s1.setRole rid q.advance

def execJoin (_o : FmtB) (s : State) : Out :=
  control s fun rid r => do
    let (r1, s1) ← s.fillTop rid r 1
    match r1.stack with
    | [] => s1.badStack rid
    | e :: _ => match e.kind with
      | .els => return s1.setRole rid ({ (r1.setMask 0 (r1.mask 0 ||| e.mask)) with fmt := e.fmt }.pop.advance)
      | .loop =>
        if e.mask ≠ 0 then
          let s2 ← s1.checkTarget rid r e.pc.toNat
          return s2.setRole rid ({ (r1.setMask 0 e.mask) with fmt := e.fmt }.goto e.pc)
        else
          let (r2, s2) ← s1.fillTop rid r1 2
          match r2.stack with
          | _ :: x :: _ =>
            if x.kind ≠ .loop then s2.badStack rid
            else return s2.setRole rid ({ (r2.setMask 0 x.mask) with fmt := x.fmt }.pop.pop.advance)
          | _ => s2.badStack rid
      | _ => s1.badStack rid

/-- The topmost LOOP among held entries: its place; `none` for a CALL first; the number of held entries where neither
stands. -/
def findLoop : List StackEntry → Option (Nat ⊕ Unit)
  | [] => some (.inr ())
  | e :: rest => match e.kind with
    | .loop => some (.inl 0)
    | .call => none
    | _ => match findLoop rest with
      | some (.inl i) => some (.inl (i + 1))
      | x => x

/-- Search the stack area from entry `n − 1` down, reading bytes 0-7 of each (R380). -/
def State.findSpilled (s : State) (rid : Nat) (r : Role) : Nat → Except State (Nat × State)
  | 0 => .error (s.trap rid cILLEGAL 0)
  | n + 1 => do
    let (ws, s1) ← s.stackWords rid r n 1
    let w := ws.headD 0
    match entryKindOf (wfield w 60 4) with
    | some .loop => if wfield w 57 3 = 0 then .ok (n, s1) else .error (s1.trap rid cILLEGAL 0)
    | some .call | none => .error (s1.trap rid cILLEGAL 0)
    | some _ => if wfield w 57 3 = 0 then State.findSpilled s1 rid r n else .error (s1.trap rid cILLEGAL 0)

/-- BRK's change of the iteration entry: the mask loses the lanes of `b`, where the entry stands (R379, R380). -/
def State.breakEntry (s : State) (rid : Nat) (r : Role) (b : LaneMask) : Except State (Role × State) :=
  match findLoop r.stack with
  | none => .error (s.trap rid cILLEGAL 0)
  | some (.inl i) => .ok ({ r with stack := r.stack.modify i fun e => { e with mask := e.mask &&& ~~~b } }, s)
  | some (.inr _) => do
    let (i, s1) ← s.findSpilled rid r r.lowest
    let (ws, s2) ← s1.stackWords rid r i 20
    match entryOfWords r.nlanes ws with
    | none => .error (s2.trap rid cILLEGAL 0)
    | some e =>
      let words := ({ e with mask := e.mask &&& ~~~b } : StackEntry).words
      let idx := 2 :: (List.range 16).map (· + 4)
      s2.stackWrite rid r (idx.map fun (k : Nat) => (r.stackAddr i + 8 * (k : Int), words.getD k 0))

/-- What follows BRK and CONT: m0 loses the lanes, and an empty path may skip ahead. -/
def State.leaveLanes (s : State) (rid : Nat) (r : Role) (b : LaneMask) (o : FmtB)
    (entry : State → Except State (Role × State)) : Except State State := do
  let m := r.mask 0 &&& ~~~b
  if m = 0 && o.off ≠ 0 then
    let s1 ← s.checkTarget rid r (r.target o.off)
    let (q, s2) ← entry s1
    return s2.setRole rid ((q.setMask 0 m).goto (addr64 (r.target o.off)))
  else
    let (q, s1) ← entry s
    return s1.setRole rid (q.setMask 0 m).advance

def execBrk (o : FmtB) (s : State) : Out :=
  control s fun rid r =>
    let b := r.effective 0 &&& r.mask o.mc.toNat
    s.leaveLanes rid r b o fun s1 => s1.breakEntry rid r b

def execCont (o : FmtB) (s : State) : Out :=
  control s fun rid r =>
    let b := r.effective 0 &&& r.mask o.mc.toNat
    s.leaveLanes rid r b o fun s1 => .ok (r, s1)

/-- EXIT ends the role once its side-log window has closed (R382). -/
def execExit (_o : FmtB) (s : State) : Out :=
  onRole s fun rid r => if s.windowOpen rid r then s.setRole rid (r.holdAt .window) else s.endRole rid

/-! ### CLASS 12 (R383, R212) -/

/-- A value that FMT may hold: RM is 001 to 100. -/
def fmtOk (x : Word) : Bool := 1 ≤ wfield x 0 3 && wfield x 0 3 ≤ 4

def execSetfmt (o : FmtA) (s : State) : Out :=
  onRole s fun rid r =>
    let x := r.sreg o.a.num
    if fmtOk x then s.setRole rid { r with fmt := x &&& 0x3FF#64 }.advance else s.trap rid cILLEGAL 0

def execGetfmt (o : FmtA) (s : State) : Out := wordStep s fun r => (r.setSreg o.d.num r.fmt).advance
def execNop (_o : FmtA) (s : State) : Out := wordStep s fun r => r.advance

end Sys2Proof.Machine
end

