-- ==== Sys2Proof/Machine/Matrix.lean ====
section
/-! DEFINITION. The matrix engine (12 R276, R280; 14 R311-R319, R323, R324; 15 R325-R332): issue checks and captures of MMA, MMAS
and MMAB, the reads of B with their counter add, the forming of the 128 results and their line updates, and MSCALE. -/
namespace Sys2Proof.Machine

/-! ### Products and sums (R276, R280) -/

/-- The value of a number as a float value. (DEDUCED, log 64) -/
def asFloat : NVal → FVal
  | .flt v => v
  | .int i => .fin (decide (i < 0)) i.natAbs 0

/-- An exact product under its block scales, none for an operand that no scale bears on; 0xFF is the NaN scale. -/
def scaledProduct (a b : NVal) (ka kb : Option Nat) : FVal :=
  if ka = some 255 ∨ kb = some 255 then .nan true
  else match (asFloat a).mul (asFloat b) with
    | none => .nan true
    | some (.fin n m e) =>
      let sh := fun (k : Option Nat) => match k with
        | some x => (x : Int) - 127
        | none => 0
      .fin n m (e + sh ka + sh kb)
    | some v => v

/-- The exact sum of a group of products, rounded once to af96 with rne (R280): the bits with NX, OF and INV. -/
def groupSum (ts : List FVal) : Nat × Flags :=
  let up := ts.any fun t => t == .inf false
  let down := ts.any fun t => t == .inf true
  if ts.any FVal.isNan || (up && down) then (Fmt.nanBits .af96, flINV)
  else if up || down then (Fmt.infinity .af96 down, 0)
  else
    let (m, e) := ts.foldl (fun (acc : Int × Int) t => match t with
      | .fin n k x => exactSum acc.1 acc.2 (sgn n k) x
      | _ => acc) (0, 0)
    roundInt .af96 .rne (ts.all fun t => t.sign) m e

/-- The group sums added in ascending order, each addition rounded to af96 (R280 step 3). -/
def addGroups : List (Nat × Flags) → Option (Nat × Flags)
  | [] => none
  | g :: rest => some (rest.foldl (fun acc h =>
      let (v, fl) := fAdd .af96 .rne (Fmt.decode .af96 acc.1) (Fmt.decode .af96 h.1)
      (v, acc.2 ||| h.2 ||| fl ||| (if (Fmt.decode .af96 v).isNan then flINV else 0))) g)

/-- Elements in groups of eight. -/
def groupsOf8 {α : Type} : Nat → List α → List (List α)
  | 0, _ => []
  | n + 1, l => if l.isEmpty then [] else l.take 8 :: groupsOf8 n (l.drop 8)

/-! ### What an instruction captured -/

/-- The product of one element of A and one of B: whether A's lane is active, both elements, and k. -/
structure Pair where
  on : Bool
  a : NVal
  b : NVal
  inv : Bool
  k : Nat
deriving DecidableEq, Repr

/-- A type that R276 scales. -/
def isScaled : Ty → Bool
  | .e4m3 | .e5m2 | .i8 | .n8 => true
  | _ => false

/-- The accumulation is in af96 (R276, R312). -/
def MatJob.isFloat (j : MatJob) : Bool := j.ty.fmt?.isSome || j.bt.fmt?.isSome || j.bscale

/-- Elements of A's type in a word (R311). -/
def elemsPerWord (t : Ty) : Nat := 64 / t.width

/-- Lane of element k of row i, and the element (R311). -/
def MatJob.aElem (j : MatJob) (i k : Nat) : Bool × NVal × Flags :=
  let e := elemsPerWord j.ty
  let lane := i * j.w + k / e
  let (v, fl) := readElem j.ty (packedElem j.ty.width (j.a.getD lane 0) (k % e))
  (j.active.getLsbD lane, v, fl)

/-- Elements of one slot element of B along K (R314). -/
def blockK (t : Ty) : Nat := match t with
  | .t2 => 32
  | .b1 => 64
  | _ => 1

/-- B[k][c] of a dense instruction. -/
def MatJob.bDense (j : MatJob) (k c : Nat) : NVal × Flags :=
  let eb := blockK j.bt
  let w := j.bWords.getD (k / eb * 16 + c) 0
  readElem j.bt (packedElem j.bt.width w (k % eb))

/-- The kept values of row r in panel number n of the live ones, column c (R316); a row without one holds a zero. -/
def MatJob.bSparse (j : MatJob) (n r c : Nat) : List (NVal × Flags) :=
  let live := j.panels.length
  let idx := (j.bWords.getD (2 * n + c / 8) 0).toNat / 2 ^ (8 * (c % 8)) % 256
  let h := r / 4
  let kept := [0, 1].filter fun m => idx / 2 ^ (4 * h + 2 * m) % 4 = r % 4
  if kept.isEmpty then [readElem j.bt 0]
  else kept.map fun m => readElem j.bt ((j.bWords.getD (2 * live + 64 * n + (2 * h + m) * 16 + c) 0).toNat % 2 ^ j.bt.width)

def mkPair (x : Bool × NVal × Flags) (b : NVal × Flags) (k : Nat) : Pair :=
  { on := x.1, a := x.2.1, b := b.1, inv := (b.2 &&& flINV) != 0 || (x.2.2 &&& flINV) != 0, k := k }

/-- The groups of output element (i, c), in ascending k (R280, R316). -/
def MatJob.pairs (j : MatJob) (i c : Nat) : List (List Pair) :=
  if j.sparse then (List.range j.panels.length).map fun n =>
    let p := j.panels.getD n 0
    (List.range 8).flatMap fun r =>
      let k := 8 * p + r
      (j.bSparse n r c).map fun b => mkPair (j.aElem i k) b k
  else groupsOf8 j.k ((List.range j.k).map fun k => mkPair (j.aElem i k) (j.bDense k c) k)

/-- The scales of a product (R319). -/
def MatJob.scales (j : MatJob) (i c k : Nat) : Option Nat × Option Nat :=
  let at_ := fun (n : Nat) => (Sparse.get 0x7F#8 j.scale n).toNat
  (if j.bscale && isScaled j.ty then some (at_ (32 * i + k / 32)) else none,
   if j.bscale && isScaled j.bt then some (at_ (256 + 32 * c + k / 32)) else none)

/-- The integer of a number; a float has none. -/
def asInt : NVal → Int
  | .int i => i
  | .flt _ => 0

/-- Output element (i, c) of MMA or MMAS as a slot part, with slot c mod 8. A product whose A element lies in a lane that is
not active is an exact +0 (R311). -/
def MatJob.element (j : MatJob) (i c : Nat) : AccPart :=
  let gs := j.pairs i c
  let slot := Fin.ofNat 8 c
  let bad := gs.any fun g => g.any fun p => p.on && p.inv
  if j.isFloat then
    let sums := gs.map fun g => groupSum (g.map fun p =>
      if p.on then scaledProduct p.a p.b (j.scales i c p.k).1 (j.scales i c p.k).2 else .fin false 0 0)
    match addGroups sums with
    | none => { slot := slot, val := none, nx := false, ovf := false, inv := false }
    | some (v, fl) => { slot := slot, val := some (.af (BitVec.ofNat 96 v)), nx := (fl &&& flNX) != 0, ovf := (fl &&& flOF) != 0,
                        inv := bad || (fl &&& flINV) != 0 }
  else if gs.isEmpty then { slot := slot, val := none, nx := false, ovf := false, inv := false }
  else
    let sum := gs.foldl (fun x g => g.foldl (fun y p => if p.on then y + asInt p.a * asInt p.b else y) x) (0 : Int)
    { slot := slot, val := some (.ai (BitVec.ofInt 96 (satAi96 sum).1)), nx := false, ovf := false, inv := bad }

/-- The population count of a word. -/
def popWord (x : Word) : Nat := ((List.range 64).filter fun i => x.getLsbD i).length

/-- Output element (i, c) of MMAB (R317). -/
def MatJob.bitElement (j : MatJob) (i c : Nat) : AccPart :=
  let sum := (List.range j.w).foldl (fun x n =>
    let a := j.a.getD (i * j.w + n) 0
    let b := j.bWords.getD (n * 16 + c) 0
    if j.active.getLsbD (i * j.w + n) then x + popWord (if j.binAnd then a &&& b else a ^^^ b) else x) 0
  { slot := Fin.ofNat 8 c, val := some (.ai (BitVec.ofNat 96 sum)), nx := false, ovf := false, inv := false }

/-- The 16 line updates of an instruction, in ascending address order, from the line `first` on (R318, R328). -/
def MatJob.updates (j : MatJob) (core first : Nat) (p : Nat) : List LineUpdate :=
  (List.range 16).map fun q =>
    { line := first + q, vmid := j.vmid, core := core, rid := j.rid,
      parts := (List.range 8).map fun m =>
        if j.binary then j.bitElement (q / 2) (8 * (q % 2) + m) else j.element (q / 2) (8 * (q % 2) + m),
      op := if j.isFloat then .fadd else .add, ord := flowOrd j.flow, flow := flowId j.flow, seq := flowSeq j.flow, p := p,
      pc := j.pc, va := j.va + 128 * q }

/-! ### Issue (R313, R314, R316, R326, R327) -/

/-- The operand pairs of R312 Table 2, with the limits of R327 step 2. -/
def pairOk (kind : Nat) (a b : Ty) : Bool :=
  let wide := fun (t : Ty) => t == .bf16 || t == .f16
  let byteF := fun (t : Ty) => t == .e4m3 || t == .e5m2
  let byteI := fun (t : Ty) => t == .i8 || t == .n8
  if kind = 2 then a == .b1 && b == .b1
  else (a == .f64 && b == .f64) || (a == .f32 && b == .f32) || (wide a && wide b) || (byteF a && byteF b) ||
    (byteI a && (byteI b || (kind == 0 && b == .t2)))

/-- A slot element address of B or of metadata must lie in the local window and in the issuing core's share (R314, R327). -/
def State.tileCause (s : State) (r : Role) (ea : Int) (z : Nat) : Option Nat :=
  if !canonRange ea z then some cNONCANON
  else
    let va := ea.toNat
    if va % z ≠ 0 then some cALIGN
    else if va < onChipLocal || 0xFFFF_FF00_0000_0000 ≤ va then some cPERM
    else if (s.spadAt r.gang r.rank va z).isNone then some cNOTPRESENT
    else none

/-- `n` elements of a slot from position `pos`: their addresses, none at or beyond T. -/
def Stream.elems (x : Stream) (pos n : Nat) : List (Option Int) :=
  (List.range n).map fun i => if pos + i < x.len then some (x.addr (pos + i)) else none

/-- The first element that fails, with its cause. -/
def State.tileFail (s : State) (r : Role) (z : Nat) (es : List (Option Int)) : Option (Nat × Word) :=
  es.findSome? fun e => match e with
    | some a => (s.tileCause r a z).map fun c => (c, addr64 a)
    | none => none

/-- The bytes of an element in the role's own share. -/
def State.tileRead (s : State) (r : Role) (z : Nat) (e : Option Int) : Word := match e with
  | some a => match s.spadAt r.gang r.rank a.toNat z with
    | some (rk, off) => BitVec.ofNat 64 (s.spadGet r.gang rk off z)
    | none => 0
  | none => 0

/-- The elements are read (R178): an error that ECC corrects is counted, and the address of one that meets an uncorrectable error is the
answer. -/
def State.tileCheck (s : State) (r : Role) : List (Option Int) → Option Word × State
  | [] => (none, s)
  | e :: rest =>
    match e.bind fun a => (s.spadAt r.gang r.rank a.toNat 1).map fun p => (addr64 a, p.1, p.2) with
    | none => State.tileCheck s r rest
    | some (a, rk, off) =>
      let (s1, bad) := s.spadCheck r.gang rk off
      if bad then (some a, s1) else State.tileCheck s1 r rest

/-- Earlier accesses of the role to the elements have to be performed first (R143). -/
def State.tileBusy (s : State) (rid : Nat) (r : Role) (z : Nat) (es : List (Option Int)) : Bool :=
  es.any fun e => match e with
    | some a => s.overlapsLog rid r a.toNat z ||
        s.opsDue rid r fun o x => o.kind != .load && decide (x.va < a.toNat + z) && decide (a.toNat < x.va + o.ty.bytes)
    | none => false

/-- A slot with its position moved on, stopping at T (R314). -/
def Stream.moved (x : Stream) (n : Nat) : Stream := { x with pos := if x.pos + n ≤ x.len then x.pos + n else max x.pos x.len }

def State.tileFail' (s : State) (r : Role) (l : List (Nat × List (Option Int))) : Option (Nat × Word) :=
  l.findSome? fun p => s.tileFail r p.1 p.2

/-- The elements that an instruction takes: of metadata, then of values, with the live panels; or what stops it (R327 step 7). -/
structure Tile where
  metaElems : List (Option Int)
  vals : List (Option Int)
  panels : List Nat
  metaMoved : Nat
  valsMoved : Nat
deriving DecidableEq, Repr

/-- Issue MMA (kind 0), MMAS (1) or MMAB (2). -/
def State.matIssue (s : State) (rid : Nat) (r : Role) (o : FmtX) (kind : Nat) : Except State State := do
  let bt := if wbit r.fmt 8 then tyOfCode (wfield r.fmt 4 4) else o.ty
  let w := r.nlanes / 8
  let k := w * elemsPerWord o.ty
  let sp := o.sp.toNat
  let c := r.sreg o.sc.toNat
  let illegal : Except State State := .error (s.trap rid cILLEGAL 0)
  if r.nlanes % 8 ≠ 0 then illegal
  else if !(pairOk kind o.ty bt) then illegal
  else if kind = 1 && k % 8 ≠ 0 then illegal
  else match r.streams.find sp, r.streams.find ((sp + 1) % 4) with
  | none, _ => illegal
  | some x, m =>
    let mOk := match m with
      | some y => !y.dir && y.ty == .n64
      | none => false
    if x.dir || x.ty != bt || (kind = 1 && !mOk) then illegal
    else if !(canonical c) then .error (s.trap rid cNONCANON c)
    else if c.toNat % 2048 ≠ 0 then .error (s.trap rid cALIGN c)
    else
      let z := bt.bytes
      let panels := k / 8
      let words := (panels + 63) / 64
      let y := m.getD x
      let bitmap := if kind = 1 then y.elems y.pos words else []
      let fail := fun (e : Option (Nat × Word)) => (match e with
        | some (cause, a) => (.error (s.trap rid cause a) : Except State Unit)
        | none => .ok ())
      fail (s.tileFail r 8 bitmap)
      if s.tileBusy rid r 8 bitmap then .error (s.setRole rid (r.holdAt .drain))
      else
        let (damaged, s) := s.tileCheck r bitmap
        if let some a := damaged then .error (s.abortGang rid cDATA_ERROR a r.ipc)
        let bits := bitmap.map (s.tileRead r 8)
        let live := if kind = 1 then (List.range panels).filter fun p => (bits.getD (p / 64) 0).getLsbD (p % 64) else []
        let idx := if kind = 1 then y.elems (y.pos + words) (2 * live.length) else []
        let n := if kind = 1 then 64 * live.length else (k + blockK bt - 1) / blockK bt * 16
        let vals := x.elems x.pos n
        fail (s.tileFail r 8 idx)
        fail (s.tileFail r z vals)
        if s.tileBusy rid r 8 idx || s.tileBusy rid r z vals then .error (s.setRole rid (r.holdAt .drain))
        else
          let sn := ((r.sreg o.sn.toNat).toNat : Int)
          let s1 ← (if o.cnt = 1 then match s.issueCause r .counter sn 8 8 with
              | some cause => (.error (s.trap rid cause (addr64 sn)) : Except State State)
              | none => match s.spot r .counter none false sn.toNat 8 with
                | (.error wr, s1) => .error (s1.loadStop rid wr (addr64 sn) r.ipc true)
                | (.ok _, s1) => .ok s1
            else .ok s)
          let kc := s1.core r.core
          if s1.loggedClear rid r c.toNat 2048 then .error (s1.setRole rid (r.holdAt .window))
          else if 4 ≤ kc.jobs.length || 32 ≤ kc.refused.length then .error (s1.setRole rid (r.holdAt .matrix))
          else
            let a := match r.latch with
              | some (d, ws) => if d = o.d then ws else (List.range r.nlanes).map (r.vreg o.d.num)
              | none => (List.range r.nlanes).map (r.vreg o.d.num)
            let flow := (r.sreg o.sf.toNat &&& 0x7FFF_FFFF_FFFF_FFFF#64) ||| (if o.ord = 1 then 0x8000_0000_0000_0000#64 else 0)
            let bscale := wbit r.fmt 9 && kind != 2
            let job : MatJob :=
              { rid := rid, pc := r.ipc, inRegion := r.tack.isSome, readsDone := false, counter := if o.cnt = 1 then some sn.toNat else none,
                va := c.toNat, line := 0, vmid := r.vmid, asid := r.asid, ty := o.ty, bt := bt, binary := kind == 2, binAnd := o.xmod.getLsbD 0,
                sparse := kind == 1, bscale := bscale, w := w, k := k, a := a, active := r.effective o.mask,
                scale := if bscale then r.scale else [],
                bAddrs := (idx ++ vals).map fun e => e.map Int.toNat, panels := live, bWords := [], flow := flow, logEntry := none }
            let streams := r.streams.put sp (x.moved n)
            let streams := if kind = 1 then streams.put ((sp + 1) % 4) (y.moved (words + 2 * live.length)) else streams
            let latch := if o.reuse = 1 then some (o.d, a) else none
            let r1 : Role := { r with streams := streams, latch := latch, tackLast := false }
            let adv := fun (q : Role) => if q.tack.isSome then q.advance.holdAt .commit else q.advance
            let start := fun (s : State) (line : Nat) (e : Option Nat) =>
              (s.updCore r.core fun k => { k with jobs := k.jobs ++ [{ job with line := line, logEntry := e }] }).send (.matrixBReadsDone r.core)
            match s1.spot r .reduction none false c.toNat 16 with
            | (.ok (.mem m), s2) => return (start s2 (lineOf m.pa) none).setRole rid (adv r1)
            | (res, s2) =>
              let wr := match res with
                | .error e => e
                | .ok _ => .fault cPERM
              let s3 := match wr with
                | .cow l _ => s2.requestCopy r.vmid c.toNat r.wver l (dieOf r.core)
                | _ => s2
              let id := (s3.core r.core).freeEntry
              let s4 := s3.logFault r (walkCause wr) (s3.entryNow rid r r.ipc c.toNat (.updates c.toNat []))
              if s4.stopped? rid then .error s4
              else
                -- the cause may be final at once: then the updates are lost
                let kept := (s4.core r.core).log.any fun e => e.id == id && e.rid == rid
                return (start s4 0 (some (if kept then id else 2 ^ 32))).updRole rid fun q =>
                  adv { q with streams := streams, latch := latch, tackLast := false }

def matWord (o : FmtX) (kind : Nat) (s : State) : Out := control s fun rid r => s.matIssue rid r o kind

def execMma (o : FmtX) (s : State) : Out := matWord o 0 s
def execMmas (o : FmtX) (s : State) : Out := matWord o 1 s
def execMmab (o : FmtX) (s : State) : Out := matWord o 2 s

/-! ### The engine's steps -/

/-- The role that waits for the end of its region goes on (R324). -/
def State.regionDone (s : State) (j : MatJob) : State :=
  if j.inRegion then s.updRole j.rid fun r =>
    { r with tack := none, hold := if r.hold == .commit then .ready else r.hold }
  else s

/-- The counter add of R315: with it the instruction's region is over (R324). An add that would pass 2^64 − 1, or a walk that fails now,
is an engine-side cause (R420); while the counter's page is being moved the add waits (R97), and the answer is none. (DEDUCED, log 61) -/
def State.matCount (s : State) (j : MatJob) (a : Nat) : Option (State × Bool) :=
  match s.role? j.rid with
  | none => some (s, false)
  | some r =>
    let late := fun (s : State) (c : Nat) =>
      some ((s.addPending j.rid { cause := c, addr := BitVec.ofNat 64 a, pc := j.pc, final := false, wr := true }).send (.pendingTrapTake j.rid),
        false)
    match s.spot { r with asid := j.asid } .counter none false a 8 with
    | (.error (.fault c), s1) => late s1 c
    | (.error _, _) => none
    | (.ok x, s1) =>
      if 2 ^ 64 ≤ s1.spotPeek r x 8 + 1 then late s1 cCOUNTER_OVF
      else match s1.spotRmw r x 8 (· + 1) with
        | (.ok _, s2) => some (s2, true)
        | (.error c, s2) => late s2 c

/-- Job `i` of a core changed by `f`. -/
def Core.updJob (k : Core) (i : Nat) (f : MatJob → MatJob) : Core := { k with jobs := k.jobs.modify i f }

/-- Job `i` of a core reads B (R315); an uncorrectable error in the share ends the gang (R178). -/
def State.readTile (s : State) (core i : Nat) (j : MatJob) : State :=
  let r := (s.role? j.rid).getD {}
  let z := fun (n : Nat) => if j.sparse && n < 2 * j.panels.length then 8 else j.bt.bytes
  match s.tileCheck r (j.bAddrs.map fun a => a.map fun (x : Nat) => (x : Int)) with
  | (some a, s1) =>
    if s.abortWaits j.rid then s.send (.matrixBReadsDone core)
    else (s1.updCore core fun k => { k with jobs := k.jobs.filter fun q => q.rid != j.rid }).abortGang j.rid cDATA_ERROR a j.pc
  | (none, s1) =>
    let spots := j.bAddrs.map fun a => a.bind fun va => s1.spadAt r.gang r.rank va 1
    let words := (List.range j.bAddrs.length).map fun n => match spots.getD n none with
      | some (rk, off) => BitVec.ofNat 64 (s1.spadGet r.gang rk off (z n))
      | none => 0
    let s2 := spots.foldl (fun (acc : State) x => match x with
      | some (rk, _) =>
        let (t, s1) := acc.spadTime r.gang rk (acc.core core).pts false
        s1.raisePts core t
      | none => acc) s1
    s2.updCore core fun k => k.updJob i fun q => { q with readsDone := true, bWords := words }

/-- The counter of job `i` is added to, once its B reads are done. -/
def State.countTile (s : State) (core i : Nat) (j : MatJob) (a : Nat) : State :=
  match s.matCount j a with
  | none => s.send (.matrixBReadsDone core)
  | some (s1, made) =>
    let s2 := s1.updCore core fun k => k.updJob i fun q => { q with counter := none, counted := made }
    if made then s2.regionDone j else s2

/-- MATRIX_B_READS_DONE (R315): the oldest instruction of the core that has not read B reads it; the counter adds of those that have
read it are made. (DESIGN CHOICE, log 60) -/
def State.matReads (s : State) (core : Nat) : State :=
  let s1 := match (s.core core).jobs.zipIdx.find? fun p => !p.1.readsDone with
    | none => s
    | some (j, i) => s.readTile core i j
  let s2 := match (s1.core core).jobs.zipIdx.find? fun p => p.1.readsDone && p.1.counter.isSome with
    | none => s1
    | some (j, i) => match j.counter with
      | some a => s1.countTile core i j a
      | none => s1
  s2.send (.matrixResultSend core)

def execMatrixBReadsDone (core : Nat) (s : State) : Out := .next (s.matReads core)

/-- A job whose results may leave: it has read B and its counter is added to. -/
def MatJob.formed (j : MatJob) : Bool := j.readsDone && j.counter.isNone

/-- MATRIX_RESULT_SEND (R318): the oldest instruction of the core, its counter added to, sends its line updates and is committed; with a
logged block address its entry takes them (R323). -/
def State.matSend (s : State) (core : Nat) : State :=
  match (s.core core).jobs with
  | [] => s
  | j :: rest =>
    if !j.formed then s
    else
      let s0 := (s.updCore core fun k => { k with jobs := rest }).regionDone j
      let s1 := if rest.head?.any MatJob.formed then s0.send (.matrixResultSend core) else s0
      match j.logEntry with
      | some id => s1.updCore core fun k => { k with log := k.log.map fun e =>
          if e.id == id && e.rid == j.rid then { e with body := .updates j.va (j.updates core 0 0) } else e }
      | none => s1.sendUpdates (dieOf core) (j.updates core j.line (s1.core core).pts)

def execMatrixResultSend (core : Nat) (s : State) : Out := .next (s.matSend core)

/-! ### MSCALE (R332) -/

def execMscale (o : FmtX) (s : State) : Out :=
  onRole s fun rid r =>
    let m := o.xmod.toNat % 4
    if m = 3 then s.setRole rid { r with scale := [] }.advance
    else
      let ea := ((r.sreg o.sc.toNat).toNat : Int)
      let n := if m = 0 then 96 else if m = 1 then 32 else 64
      let at_ := if m = 2 then 256 else 0
      match s.issueCause r .load ea 8 64 with
      | some c => s.trap rid c (addr64 ea)
      | none =>
        if s.overlapsLog rid r ea.toNat (8 * n) then s.setRole rid (r.holdAt .overlap)
        else if s.busyOps rid r then s.setRole rid (r.holdAt .drain)
        else match s.spots r .load 8 8 ((List.range n).map fun (i : Nat) => ea + 8 * (i : Int)) with
          | (.error e, s1) => s1.stopRole rid e false
          | (.ok xs, s1) => match s1.readSpots r 8 xs with
            | (.error (c, i), s2) => s2.stopRole rid (.walk (.fault c), addr64 (ea + 8 * (i : Int))) false
            | (.ok vs, s2) =>
              let bytes := vs.flatMap fun v => (List.range 8).map fun i => BitVec.ofNat 8 (v / 2 ^ (8 * i))
              let scale := ((List.range (8 * n)).zip bytes).foldl (fun t p => Sparse.set 0x7F#8 t (at_ + p.1) p.2) r.scale
              s2.setRole rid { r with scale := scale }.advance

end Sys2Proof.Machine
end

