-- ==== Sys2Proof/Machine/Issue.lean ====
section
/-! DEFINITION. Issue (01 R22-R32, 09 R215, 19 R403, R404, 20 R421-R424): fetching and decoding a clause, issuing its header,
the choice among a core's roles, and what precedes every instruction word: bound registers, tack regions, wait slots. -/
namespace Sys2Proof.Machine

/-! ### Fetch and decode (R22, R23) -/

/-- The words of a part of a clause, read at the slice, or those of a kept clause. -/
def State.fetchWords (s : State) (r : Role) (f : Option KeptClause) (va n : Nat) : Except WalkRes (List Word) × State :=
  match s.spot r .fetch none false va 8 with
  | (.error w, s1) => (.error w, s1)
  | (.ok (.mem m), s1) =>
    let bad := (List.range n).any fun i => s1.readBad (dieOf r.core) (lineOf (m.pa + 8 * i))
    let (ws, _, s2) := s1.readWords (dieOf r.core) m.pa r.vmid 0 n
    if bad then (.error (.fault cDATA_ERROR), s2) else (.ok (ws.mapIdx fun i w => KeptClause.wordAt f (va + 8 * i) w), s2)
  | (.ok _, s1) => (.error (.fault cPERM), s1)

/-- The checks of R22 on a part of a clause that starts at `ea`, then its words. -/
def State.fetchPart (s : State) (r : Role) (f : Option KeptClause) (ea : Int) (n : Nat) : Except Stop (List Word) × State :=
  match s.issueCause r .fetch ea (8 * n) 8 with
  | some c => (.error (if c = cFETCH then .walk (.fault c) else .issue c), s)
  | none => match s.fetchWords r f ea.toNat n with
    | (.ok ws, s1) => (.ok ws, s1)
    | (.error w, s1) => (.error (.walk w), s1)

/-- The index of the first word that makes the clause ILLEGAL (R23): a bad word, a vector register beyond the budget, or a
control transfer that is not last. -/
def badWord (budget : Nat) : Nat → List Word → Option Nat
  | _, [] => none
  | i, w :: rest =>
    let ok := match decodeWord w with
      | .ok x => x.inBudget budget && (!x.isTransfer || rest.isEmpty)
      | .error _ => false
    if ok then badWord budget (i + 1) rest else some i

/-- A clause is fetched whole and decoded (R22, R23). (DEDUCED, log 150) -/
def State.fetchClause (s : State) (f : Option KeptClause) (rid : Nat) : State :=
  match s.role? rid with
  | none => s
  | some r =>
    let live := match s.gang? r.gang with
      | some g => g.state == .resident
      | none => false
    if r.ended || r.clause.isSome || r.hold != .ready || !live then s
    else
      let h : Int := if r.topped then 2 ^ 64 else r.pc.toNat
      let stop := fun (s : State) (e : Stop) (a : Word) => match e with
        | .issue c => s.trapWith rid c false false false 0 0 a r.pc
        | .walk w => s.loadStop rid w a r.pc false
      match s.fetchPart r f h 1 with
      | (.error e, s1) => stop s1 e r.pc
      | (.ok hw, s1) => match decodeHeader (hw.headD 0) with
        | none => s1.trapWith rid cILLEGAL false false false 0 0 r.pc r.pc
        | some hd =>
          let n := hd.count.toNat + 1
          let room := (2 ^ 16 - r.pc.toNat % 2 ^ 16) / 8 - 1
          let n1 := min n room
          let first := if n1 = 0 then (.ok [], s1) else s1.fetchPart r f (h + 8) n1
          match first with
          | (.error e, s2) => stop s2 e r.pc
          | (.ok w1, s2) =>
            let second := if n1 = n then (.ok [], s2) else s2.fetchPart r f (h + 8 + 8 * n1) (n - n1)
            match second with
            | (.error e, s3) => stop s3 e (addr64 (h + 8 + 8 * n1))
            | (.ok w2, s3) =>
              let ws := w1 ++ w2
              match badWord r.budget 0 ws with
              | some i => s3.trapWith rid cILLEGAL false false false 0 0 r.pc (r.pc + BitVec.ofNat 64 (8 * (i + 1)))
              | none => s3.updRole rid fun q =>
                  { q with clause := some { addr := r.pc, header := hd, words := ws, idx := 0, issued := false } }

/-- The words before an address, nearest first, up to the first whose bits [63:52] are those of a header: its distance in words
and the word (R434). -/
def State.readBack (s : State) (r : Role) (f : Option KeptClause) : Nat → Nat → Except (Stop × Word) (Option (Nat × Word)) × State
  | _, 0 => (.ok none, s)
  | k, n + 1 =>
    let ea : Int := (r.pc.toNat : Int) - 8 * (k : Int)
    match s.fetchPart r f ea 1 with
    | (.error e, s1) => (.error (e, addr64 ea), s1)
    | (.ok ws, s1) =>
      if wfield (ws.headD 0) 52 12 = 0xC1A then (.ok (some (k, ws.headD 0)), s1) else State.readBack s1 r f (k + 1) n

/-- The fetch after TRET (R434): at a clause header the clause runs normally; within a clause issue starts at TPC. -/
def State.resumeClause (s : State) (f : Option KeptClause) (rid : Nat) (r : Role) : State :=
  let tpc := r.pc
  let illegal := fun (s : State) => s.trapWith rid cILLEGAL false false false 0 0 tpc tpc
  let stop := fun (s : State) (e : Stop) (a : Word) => match e with
    | .issue c => s.trapWith rid c false false false 0 0 a tpc
    | .walk w => s.loadStop rid w a tpc false
  if tpc.toNat % 8 ≠ 0 then s.trapWith rid cALIGN false false false 0 0 tpc tpc
  else match s.fetchPart r f (tpc.toNat : Int) 1 with
    | (.error e, s1) => stop s1 e tpc
    | (.ok w0, s1) =>
      if wfield (w0.headD 0) 52 12 = 0xC1A then
        (s1.updRole rid fun q => { q with resume := false }).fetchClause f rid
      else match s1.readBack r f 1 16 with
        | (.error e, s2) => stop s2 e.1 e.2
        | (.ok none, s2) => illegal s2
        | (.ok (some (k, hw)), s2) => match decodeHeader hw with
          | none => illegal s2
          | some hd =>
            let h : Int := (tpc.toNat : Int) - 8 * (k : Int)
            if hd.count.toNat < k - 1 then illegal s2
            else match s2.fetchPart r f (h + 8) (hd.count.toNat + 1) with
              | (.error e, s3) => stop s3 e (addr64 h)
              | (.ok ws, s3) => match badWord r.budget 0 ws with
                | some _ => illegal s3
                | none => s3.updRole rid fun q =>
                    { q with pc := addr64 h, resume := false,
                             clause := some { addr := addr64 h, header := hd, words := ws, idx := k - 1, issued := false } }

/-- A role fetches from the newest bytes, or from a kept clause. -/
def State.fetchFrom (s : State) (f : Option KeptClause) (rid : Nat) (r : Role) : State :=
  if r.resume && !r.ended && r.clause.isNone && r.hold == .ready && (match s.gang? r.gang with
      | some g => g.state == .resident
      | none => false) then s.resumeClause f rid r else s.fetchClause f rid

/-- The core keeps the clause that a role has fetched. -/
def State.keepClause (s : State) (rid : Nat) : State := match s.role? rid with
  | some q => match q.clause with
    | some c =>
      let f : KeptClause := { vmid := q.vmid, asid := q.asid, addr := c.addr, words := encodeHeader c.header :: c.words }
      s.updCore q.core fun k => { k with picks := k.picks.filter (·.1 != rid), fetched := f :: k.fetched.filter fun x => !(x.vmid == f.vmid && x.asid == f.asid && x.addr == f.addr) }
    | none => s
  | none => s

/-- What a fetch has made of the role's clause. -/
def State.clauseOf (s : State) (rid : Nat) : Option Clause := (s.role? rid).bind fun q => q.clause

/-- A fetch reads the newest bytes. Where the core keeps the clause as it was before a store, which of the two it is, whole, is a
free value, until LINV (R28); a fetch at the target of a transfer abides by what the transfer's check has found (R26). (DEDUCED, log 44) -/
def State.fetchAny (s : State) (rid : Nat) (r : Role) : State :=
  let new := s.fetchFrom none rid r
  match s.keptClause r r.pc with
  | none => new
  | some f => match (s.core r.core).picks.find? fun p => p.1 == rid && p.2.1 == r.pc with
    | some p => s.fetchFrom (if p.2.2 then some f else none) rid r
    | none =>
      if (s.fetchFrom (some f) rid r).clauseOf rid = new.clauseOf rid then new
      else
        let (v, s1) := s.fresh
        s1.fetchFrom (if v.getLsbD 0 then some f else none) rid r

def execClauseFetch (rid : Nat) (s : State) : Out :=
  .next (match s.role? rid with
    | some r => if r.clause.isSome then s else (s.fetchAny rid r).keepClause rid
    | none => s)

/-! ### Tack regions (R421, R422, R424) -/

/-- Open a region: the checkpoint of R424; the latched register is an input. -/
def Role.openTack (r : Role) (pc : Word) (c : Option Clause) : Role :=
  let latched : List TrackReg := match r.latch with
    | some (d, _) => [.v d.num]
    | none => []
  { r with
    tack := some { pc := pc, clause := c, positions := r.streams.map fun p => (p.1, p.2.pos), latch := r.latch, bound := r.bound,
                   inputs := latched, written := [] },
    tackNext := false }

/-- The header of a role's clause issues: the bindings of its slots end (R32), and a region may open. (DEDUCED, log 143) -/
def State.issueHeader (s : State) (rid : Nat) : State :=
  match s.role? rid with
  | none => s
  | some r => match r.clause with
    | none => s
    | some c =>
      let ready := (List.range 6).all fun i => !(c.header.wait.getLsbD i) || r.waitCount (i + 1) = 0
      if c.issued || r.ended || r.hold != .ready || !ready || (s.core r.core).phase != .header rid then s
      else
        let r1 := r.unbind c.header.wait
        let r2 := if c.header.tack then r1.openTack c.addr (some c) else r1
        (s.setRole rid { r2 with clause := some { c with issued := true }, yielded := false }).updCore r.core fun k =>
          { k with phase := .run rid }

def execClauseIssue (rid : Nat) (s : State) : Out := .next (s.issueHeader rid)

/-- Registers that an instruction reads and writes. -/
structure Use where
  reads : List TrackReg
  writes : List TrackReg
deriving DecidableEq, Repr

def trackOf (f : RegName) : TrackReg := if f.isScalar then .s f.num else .v f.num

/-- The register of a field under its kind. -/
def fieldRegs (k : FieldKind) (f : RegName) : List TrackReg :=
  match k with
  | .vs | .v | .s => [trackOf f]
  | .m => [.m f.toNat]
  | .unused | .any => []

/-- The masks that bear on a vector form (R205). -/
def maskRegs (m : BitVec 3) : List TrackReg := [.m 0, .m m.toNat]

/-- Registers of an instruction word (R32, R422); the CC that a scalar integer form writes and a scalar SEL or BC reads among
them. -/
def usesOf (i : Instr) : Use :=
  match ruleA i with
  | some (o, u) =>
    let cc : List TrackReg := match i with
      | .mov _ | .sel _ => []
      | _ => if o.d.isScalar && u.d == .vs then [.cc] else []
    let also : List TrackReg := match i with
      | .bfi _ | .pack _ => fieldRegs u.d o.d
      | .mfroms _ => fieldRegs u.d o.d
      | .sel _ => if o.d.isScalar then [.cc] else []
      | _ => []
    { reads := fieldRegs u.a o.a ++ fieldRegs u.b o.b ++ fieldRegs u.c o.c ++ also ++ (if u.maskZero then [] else maskRegs o.mask),
      writes := fieldRegs u.d o.d ++ cc }
  | none =>
  match ruleM i with
  | some (o, u) =>
    let base : List TrackReg := match i with
      | .ldsp _ | .stsp _ | .spset _ | .fence _ => []
      | _ => [.s o.base.toNat]
    let d : List TrackReg := match i with
      | .pref _ | .fence _ => []
      | _ => [trackOf o.d]
    let lanes := if u.lanes then maskRegs o.mask else []
    if u.wait then { reads := base ++ lanes, writes := d } else { reads := base ++ d ++ lanes, writes := [] }
  | none =>
  match ruleMA i with
  | some (o, u) =>
    let d := fieldRegs u.d o.d
    let lanes := if u.lanes then maskRegs o.mask else []
    let base : List TrackReg := [.s o.base.toNat]
    let a := fieldRegs u.a o.a
    match i with
    | .cas _ => { reads := d ++ a ++ base ++ lanes, writes := d }
    | _ => if u.wait then { reads := a ++ base ++ lanes, writes := d } else { reads := d ++ a ++ base ++ lanes, writes := [] }
  | none =>
  match ruleQ i with
  | some (o, u) => { reads := fieldRegs u.a o.a ++ fieldRegs u.b o.b ++ fieldRegs u.c o.c, writes := fieldRegs u.d o.d }
  | none =>
  match ruleX i with
  | some (o, u) =>
    let sc : List TrackReg := if u.sc then [.s o.sc.toNat] else []
    let sf : List TrackReg := if u.sf then [.s o.sf.toNat] else []
    let sn : List TrackReg := if u.matrix && o.cnt == 1 then [.s o.sn.toNat] else []
    if u.wait then { reads := sc ++ maskRegs o.mask, writes := fieldRegs u.d o.d }
    else { reads := fieldRegs u.d o.d ++ sc ++ sf ++ sn ++ (if u.matrix then maskRegs o.mask else []), writes := [] }
  | none =>
  match ruleS i with
  | some (o, u) =>
    match i with
    | .tlbinv _ | .lflush _ | .linv _ => { reads := fieldRegs u.d o.d ++ fieldRegs u.a o.a, writes := [] }
    | .sread _ => { reads := if o.sreg = 0x13 then [.cc] else [], writes := fieldRegs u.d o.d }
    | _ => { reads := fieldRegs u.a o.a, writes := fieldRegs u.d o.d }
  | none =>
  match i with
  | .movi o => { reads := maskRegs o.mask, writes := [trackOf o.d] }
  | .movh o => { reads := trackOf o.d :: maskRegs o.mask, writes := [trackOf o.d] }
  | .addImm o | .subImm o | .mulImm o | .minImm o | .maxImm o | .andImm o | .orImm o | .xorImm o | .shlImm o | .shrImm o
  | .sarImm o | .rolImm o | .cmpImm o =>
    { reads := trackOf o.a :: maskRegs o.mask, writes := trackOf o.d :: (if o.d.isScalar then [.cc] else []) }
  | .bc o => { reads := [.cc, .m 0, .m o.mc.toNat], writes := [] }
  | .call o | .jmpi o => { reads := if o.s = 0 then [] else [trackOf o.s], writes := [] }
  | _ => { reads := [], writes := [] }

/-- The registers that an instruction uses as the role stands: the MMA family does not read a register D that the latch holds (R313),
and the registers of ENQC's record are known once it has read the descriptor (R431). -/
def Role.usesOf (r : Role) (i : Instr) : Use :=
  match i with
  | .enqc o => { reads := [trackOf o.a, .m 0], writes := [] }
  | .mma o | .mmas o | .mmab o =>
    -- register D is not read where the latch holds it (R313)
    match r.latch with
    | some (d, _) =>
      let u := Machine.usesOf i
      if d = o.d then { u with reads := u.reads.filter fun t => t != trackOf o.d } else u
    | none => Machine.usesOf i
  | _ => Machine.usesOf i

/-- The last instruction of a region (R421). -/
def endsAfter : Instr → Bool
  | .atom _ | .cas _ | .red _ | .cadd _ | .cwait _ | .cread _ | .tlwait _ | .close _ | .copy _ | .tcopy _ | .halo _ | .ared _
  | .put _ | .get _ | .publish _ | .pin _ | .vret _ | .fcomp _ | .encf _ | .mma _ | .mmas _ | .mmab _ | .accclr _ | .accfl _
  | .accseq _ | .bq _ | .bproc _ | .bsave _ | .bresume _ | .babort _ | .launch _ | .enqr _ | .enqc _ => true
  | _ => false

/-- An instruction before which a region ends (R421). -/
def endsBefore : Instr → Bool
  | .call _ | .ret _ | .jmpi _ | .split _ | .els _ | .join _ | .loop _ | .brk _ | .cont _ | .exit _ | .setfmt _ | .swrite _
  | .viewset _ | .wverset _ => true
  | _ => false

/-- What an instruction does to the open region before it issues (R421, R422). (DEDUCED, log 54) -/
def Role.trackTack (r : Role) (i : Instr) : Role :=
  let r0 := if r.tackNext then r.openTack r.ipc r.clause else r
  match r0.tack with
  | none => { r0 with tackLast := false }
  | some t =>
    let u := r0.usesOf i
    let inputs := t.inputs ++ u.reads.filter fun x => !(t.written.contains x) && !(t.inputs.contains x)
    if endsBefore i || u.writes.any fun x => inputs.contains x then { r0 with tack := none, tackLast := false }
    else
      let written := t.written ++ u.writes.filter fun x => !(t.written.contains x)
      { r0 with tack := some { t with inputs := inputs, written := written }, tackLast := endsAfter i }

/-! ### Before a word is executed -/

/-- The wait slot that a word names; 0 for none (R30). -/
def slotOfInstr (i : Instr) : Nat :=
  match ruleM i with
  | some (o, _) => o.ws.toNat
  | none =>
  match ruleMA i with
  | some (o, _) => o.ws.toNat
  | none =>
  match ruleQ i with
  | some (o, _) => o.ws.toNat
  | none =>
  match ruleX i with
  | some (o, _) => o.ws.toNat
  | none =>
  match ruleS i with
  | some (o, _) => o.ws.toNat
  | none => 0

/-- A register that a load or another instruction of a wait slot still has to write (R32). -/
def Role.boundIn (r : Role) (l : List TrackReg) : Bool := r.bound.any fun p => l.contains (trackOf p.1)

/-- What comes before an instruction word's own meaning: `inr` goes on to the meaning. -/
inductive Ready where
  | run (s : State) | done (s : State)

/-- A register entry of a role that `l` names and that `bad` lists. -/
def Role.entryIn (rid : Nat) (l : List TrackReg) (bad : List (Nat × RegName)) : Bool :=
  bad.any fun b => b.1 == rid && l.contains (trackOf b.2)

/-- The register entries that an instruction reads: an error that ECC corrects is counted, once for each entry (R178). -/
def State.readEntries (s : State) (rid : Nat) (r : Role) (l : List TrackReg) : State :=
  let met := s.weakRegs.filter fun b => b.1 == rid && l.contains (trackOf b.2)
  ({ s with weakRegs := s.weakRegs.filter fun b => !(met.contains b) } : State).countErrors (dieOf r.core) 0x6310 met.length

/-- A vector form of a wait slot that has no active lane: it changes nothing (R206), and so no slot holds it. (DEDUCED, log 144) -/
def Role.idle (r : Role) (i : Instr) : Bool :=
  match i with
  | .ld o | .ldsp o | .ldsc o | .ldcl o => !o.d.isScalar && (r.active o.mask).isEmpty
  | .gath o => (r.active o.mask).isEmpty
  | .atom o | .cas o => !o.d.isScalar && (r.active o.mask).isEmpty
  | .accrd o => (r.active o.mask).isEmpty
  | _ => false

/-- An instruction that reads or writes a bound register is ILLEGAL (R32); a register entry with an uncorrectable error that
it reads ends the gang (R178); a full slot holds it (R31); the region tracks it (R422). (DESIGN CHOICE, log 151) -/
def State.prepare (s : State) (rid : Nat) (r : Role) (i : Instr) : Ready :=
  let u := r.usesOf i
  if r.boundIn (u.reads ++ u.writes) then .done (s.trap rid cILLEGAL 0)
  else if Role.entryIn rid u.reads s.badRegs then .done (s.abortGang rid cDATA_ERROR 0 r.ipc)
  else if slotOfInstr i ≠ 0 && 32 ≤ r.waitCount (slotOfInstr i) && !(r.idle i) then .done (s.setRole rid (r.holdAt .slotFull))
  else .run { (s.readEntries rid r u.reads).setRole rid (r.trackTack i) with cur := rid }

/-! ### The choice at an issue opportunity (R403, R404) -/

/-- The header that a role issues next has YIELD, or the role ranks as if it had (R432). -/
def Role.yields (r : Role) : Bool :=
  r.yielded || (match r.clause with
    | some c => !c.issued && c.header.yield
    | none => false)

/-- A role is ready (R403): resident, not held, with a clause fetched whose waited slots are clear, and no trap to take. A load or atomic
that a home has refused holds it (R412). -/
def State.roleReady (s : State) (rid : Nat) (r : Role) : Bool :=
  (match s.gang? r.gang with
    | some g => g.state == .resident
    | none => false) &&
  !r.ended && r.hold == .ready && (s.stoppedOp rid r).isNone && (r.pend.isEmpty || r.handler) &&
  (match r.clause with
    | none => false
    | some c => c.issued || (List.range 6).all fun i => !(c.header.wait.getLsbD i) || r.waitCount (i + 1) = 0)

/-- The better of two ready roles, given as slot, rid and role (R404). -/
def better (last : Option Nat) (a b : Nat × Nat × Role) : Nat × Nat × Role :=
  let ua := 48 ≤ a.2.2.count
  let ub := 48 ≤ b.2.2.count
  let tie := fun () => if b.2.2.count > a.2.2.count then b else if a.2.2.count > b.2.2.count then a
    else if b.1 < a.1 then b else a
  if ua && !ub then a else if ub && !ua then b
  else if ua && ub then tie ()
  else if a.2.2.prio > b.2.2.prio then a else if b.2.2.prio > a.2.2.prio then b
  else
    let ya := a.2.2.yields
    let yb := b.2.2.yields
    if last == some a.2.1 && !ya then a
    else if last == some b.2.1 && !yb then b
    else if ya && !yb then b else if yb && !ya then a
    else tie ()

/-- The roles of a core in slot order. -/
def State.coreRoles (s : State) (core : Nat) : List (Nat × Nat × Role) :=
  (s.core core).slots.filterMap fun p => (s.role? p.2).map fun r => (p.1, p.2, r)

/-- The ready roles of a core. -/
def State.readyRoles (s : State) (core : Nat) : List (Nat × Nat × Role) := (s.coreRoles core).filter fun p => s.roleReady p.2.1 p.2.2

/-- One issue opportunity (R404): roles that HALT has stopped end (R444); roles with a pending trap take it (R473); the chosen role's count becomes 0, the others that
are ready count one more, and a role that is not ready has count 0. -/
def State.opportunity (s0 : State) (core : Nat) : State :=
  if (s0.core core).phase != .choose then s0
  else
    let s1 := s0.pump core
    let s2 := (s1.coreRoles core).foldl (fun s p => if p.2.2.halting then (s.discardLog p.2.1 core).endRole p.2.1 else s) s1
    let s := (s2.coreRoles core).foldl (fun s p => if p.2.2.pend.isEmpty then s else s.takePending p.2.1) s2
    match s.readyRoles core with
    | [] => s
    | c :: rest =>
      let pick := rest.foldl (better (s.core core).last) c
      let ready := (c :: rest).map (·.2.1)
      let s2 := (s.coreRoles core).foldl (fun s p => s.updRole p.2.1 fun r =>
        { r with count := if p.2.1 = pick.2.1 then 0 else if ready.contains p.2.1 then r.count + 1 else 0 }) s
      let run := match pick.2.2.clause with
        | some c => c.issued
        | none => false
      s2.updCore core fun k => { k with last := some pick.2.1, phase := if run then .run pick.2.1 else .header pick.2.1 }

def execIssueOpportunity (core : Nat) (s : State) : Out := .next (s.opportunity core)

end Sys2Proof.Machine
end

