-- ==== Sys2Proof/Machine/Moves.lean ====
section
/-! DEFINITION. How engines move data (08 R185-R198, 11 R253-R255): element accesses under a command's identity, pod addresses,
flows, tensor copy descriptors, HALO records and all-reduce records. -/
namespace Sys2Proof.Machine

/-! ### Status codes (R183) -/

def stMALFORMED : Nat := 1
def stNONCANON : Nat := 2
def stNOTPRESENT : Nat := 3
def stPERM : Nat := 4
def stALIGN : Nat := 5
def stDATA_ERROR : Nat := 6
def stHOME_LOST : Nat := 7
def stREMOTE : Nat := 8
def stPEERDOWN : Nat := 9
def stCOUNTER_OVF : Nat := 10

/-- The status that a cause of the memory chapters becomes. (DEDUCED, log 78) -/
def statusOf (cause : Nat) : Nat :=
  if cause = cNONCANON then stNONCANON
  else if cause = cNOTPRESENT then stNOTPRESENT
  else if cause = cALIGN then stALIGN
  else if cause = cDATA_ERROR then stDATA_ERROR
  else if cause = cHOME_LOST then stHOME_LOST
  else if cause = cCOUNTER_OVF then stCOUNTER_OVF
  else stPERM

/-- Why an engine does not go on: a status with its address, or a page that is being moved or copied. -/
inductive MoveStop where
  | fail (code : Nat) (addr : Word) | wait
deriving DecidableEq, Repr

/-- Why an engine's act stops, and the state then; an act that goes on answers its result and the state. -/
abbrev Stopped := MoveStop × State

def failWith {α : Type} (s : State) (code : Nat) (addr : Word) : Except Stopped (α × State) := .error (.fail code addr, s)

/-! ### Element accesses -/

/-- Where an element of a command lies; `view` marks a retained frame. -/
inductive ESpot where
  | spad (gang rank off : Nat) | mem (pa : Nat) (view : Bool) | pod (addr : Nat)
deriving DecidableEq, Repr

/-- An element of `z` bytes at a virtual address: its checks and its place (R77, R86, R173, R183). -/
def State.engSpot (s : State) (id : CtxId) (c : Cmd) (a : Acc) (view : Option Nat) (z : Nat) (ea : Int) : Except Stopped (ESpot × State) :=
  if !canonRange ea z then failWith s stNONCANON (addr64 ea)
  else
    let va := ea.toNat
    if va % z ≠ 0 then failWith s stALIGN (addr64 ea)
    else if onChip va then match id with
      | .local _ _ => match s.spadAt c.gang c.rank va z with
        | some (rk, off) => .ok (.spad c.gang rk off, s)
        | none => failWith s stNOTPRESENT (addr64 ea)
      | _ => failWith s stPERM (addr64 ea)
    else match s.walk (cmdWalker id c view) a va with
      | (.ok m, s1) => if regionOf m.pa == .window then failWith s1 stPERM (addr64 ea) else .ok (.mem m.pa m.retained.isSome, s1)
      | (.fault e, s1) => failWith s1 (statusOf e) (addr64 ea)
      | (.mig _, s1) => .error (.wait, s1)
      | (.cow l _, s1) => .error (.wait, s1.requestCopy c.vmid va c.wver l (ctxDie id c))

/-- Read an element. -/
def State.engRead (s : State) (id : CtxId) (c : Cmd) (x : ESpot) (z : Nat) (addr : Word) : Except Stopped (Nat × State) :=
  match x with
  | .spad g rk off =>
    let (s0, bad) := s.spadCheck g rk off
    if bad then failWith s0 stDATA_ERROR addr
    else
      let (t, s1) := s0.spadTime g rk (s.ctx id).pts false
      .ok (s1.spadGet g rk off z, s1.tickCtx id t)
  | .pod a => .ok (readBytes s.podMem a z, s)
  | .mem pa view =>
    let d := ctxDie id c
    let (v, w, s1) := if view then (let (v, t) := s.viewIn d pa z c.vmid; (v, 0, t)) else s.readIn d pa z c.vmid (s.ctx id).pts
    if s.readBad d (lineOf pa) then failWith s1 stDATA_ERROR addr else .ok (v, s1.tickCtx id w)

/-- Write an element at its place. -/
def State.engWrite (s : State) (id : CtxId) (c : Cmd) (x : ESpot) (z v : Nat) (addr : Word) : Except Stopped (Unit × State) :=
  match x with
  | .spad g rk off =>
    let (s0, bad) := s.spadCheck g rk off
    if bad then failWith s0 stDATA_ERROR addr
    else
      let (t, s1) := s0.spadTime g rk (s.ctx id).pts true
      .ok ((), (s1.spadPut g rk off z v).tickCtx id t)
  | .pod a => .ok ((), { s with podMem := writeBytes s.podMem a v z })
  | .mem pa _ =>
    let (_, w, s1) := s.rmwIn (ctxDie id c) pa z c.vmid (s.ctx id).pts fun _ => v
    if s.readBad (ctxDie id c) (lineOf pa) then failWith s1 stDATA_ERROR addr else .ok ((), s1.tickCtx id w)

/-- Read, or write, one element at a virtual address. -/
def State.engLoad (s : State) (id : CtxId) (c : Cmd) (view : Option Nat) (z : Nat) (ea : Int) : Except Stopped (Nat × State) := do
  let (x, s1) ← s.engSpot id c .engRead view z ea
  s1.engRead id c x z (addr64 ea)
def State.engStore (s : State) (id : CtxId) (c : Cmd) (a : Acc) (z v : Nat) (ea : Int) : Except Stopped (Unit × State) := do
  let (x, s1) ← s.engSpot id c a none z ea
  s1.engWrite id c x z v (addr64 ea)

/-- Read `n` words at a virtual address. -/
def State.engWords (s : State) (id : CtxId) (c : Cmd) (va : Int) : Nat → Except Stopped ((List Word) × State)
  | 0 => .ok ([], s)
  | n + 1 => do
    let (x, s1) ← s.engSpot id c .engRead none 8 va
    let (v, s2) ← s1.engRead id c x 8 (addr64 va)
    let (rest, s3) ← State.engWords s2 id c (va + 8) n
    return (BitVec.ofNat 64 v :: rest, s3)

def Ctx.entry? (c : Ctx) (n : Nat) : Option CmdEntry := c.cmds.find? fun q => q.n == n
def Ctx.setEntry (c : Ctx) (n : Nat) (f : CmdEntry → CmdEntry) : Ctx :=
  { c with cmds := c.cmds.map fun q => if q.n == n then f q else q }
def State.setEntry (s : State) (id : CtxId) (n : Nat) (f : CmdEntry → CmdEntry) : State := s.setCtx id ((s.ctx id).setEntry n f)
/-- The entry of a command on its context. -/
def State.entry (s : State) (id : CtxId) (c : Cmd) (n : Nat) : CmdEntry := ((s.ctx id).entry? n).getD { n := n, cmd := c, st := .held }

/-- The `k`-th record of a command: `m` words at a virtual address, read whole once; a later change of the bytes does not affect the
command (R185). -/
def State.record (s : State) (id : CtxId) (c : Cmd) (n k : Nat) (va : Int) (m : Nat) : Except Stopped (List Word × State) :=
  match (s.entry id c n).record[k]? with
  | some ws => .ok (ws, s)
  | none => do
    let (ws, s1) ← s.engWords id c va m
    return (ws, s1.setEntry id n fun e => { e with record := e.record ++ [ws] })

/-! ### The pod (R193, R195) -/

/-- A pod address: its device. -/
def podDev (a : Nat) : Nat := a / 2 ^ 54 % 1024

/-- An exact value is a pod address: its reserved bits are zero. -/
def podOk (a : Int) : Bool := 0 ≤ a && a < 2 ^ 64 && a.toNat / 2 ^ 40 % 2 ^ 8 == 0

/-- Traffic to a pod address: PEERDOWN without a route or a port that is up, REMOTE where the peer refuses it, and MALFORMED
for an address whose reserved bits are set. -/
def State.podSpot (s : State) (id : CtxId) (c : Cmd) (z : Nat) (a : Int) : Except Stopped (ESpot × State) :=
  let n := a.toNat
  let route := s.reg (ctxDie id c) (0x2_0000 + 8 * podDev n)
  if !(podOk a) then failWith s stMALFORMED (addr64 a)
  else if n % z ≠ 0 then failWith s stALIGN (addr64 a)
  else if !(wbit route 63) || (route.extractLsb' 0 16 &&& ~~~s.portsDown) == 0 then failWith s stPEERDOWN (addr64 a)
  else if s.podRefused.contains (n / 128) then failWith s stREMOTE (addr64 a)
  else .ok (.pod n, s)

/-! ### Flows (R188-R191) -/

def DieState.flow (x : DieState) (f : Nat) : Word × Word := x.flows.get (0, 0) f
def State.setFlow (s : State) (d f : Nat) (e : Word × Word) : State :=
  s.updDie d fun x => { x with flows := Sparse.set (0, 0) x.flows f e }

/-- A flow that a command, descriptor or record names (R190): none where it is MALFORMED. -/
def flowNamed (f : Nat) : Bool := f = 1 || 16 ≤ f

/-- The sender's checks of a named flow before anything moves (R190). -/
def State.flowOk (s : State) (d f vmid : Nat) : Bool :=
  let e := (s.die d).flow f
  f = 1 || (wbit e.2 63 && wfield e.1 58 4 = vmid)

/-- The destination of a transfer on an ordered flow is the one its entry names (R190). -/
def State.flowDest (s : State) (d f kind dst : Nat) : Bool :=
  let e := (s.die d).flow f
  f = 1 || !(wbit e.1 62) || (wfield e.2 56 2 = kind && (kind = 1 || wfield e.2 46 10 = dst))

/-- The sender stamps `k` transfers with SSEQ and the numbers after it (R190): the first of them. (DESIGN CHOICE, log 68) -/
def State.stamp (s : State) (d f k : Nat) : Nat × State :=
  if f < 16 then (0, s)
  else
    let e := (s.die d).flow f
    let q := wfield e.2 0 32
    (q, s.setFlow d f (e.1, withField e.2 0 32 (q + k)))

/-- What a command has sent: the transfers to other dies that are still to be stamped, and its last line request through a port: the
port (1 the host, 2 pod writes, 3 pod reads) and the address after its last element. -/
structure Traffic where
  out : List FlowTransfer := []
  last : Option (Nat × Nat) := none

/-- An element of `z` bytes passes a port: it continues the last line request, or starts one that is stamped (R181, R190). -/
def State.passPort (s : State) (d f port a z : Nat) (l : Traffic) : Traffic × State :=
  let l1 := { l with last := some (port, a + z) }
  if l.last == some (port, a) && a % 128 ≠ 0 then (l1, s) else (l1, (s.stamp d f 1).2)

/-- Add an element to the transfers of a command: contiguous bytes of one line travel together. -/
def addTransfer (l : List FlowTransfer) (t : FlowTransfer) : List FlowTransfer :=
  match l.getLast? with
  | some u =>
    if u.die = t.die && u.flow = t.flow && u.face = t.face && u.pa + u.size = t.pa && u.pa / 128 = (t.pa + t.size - 1) / 128 then
      l.dropLast ++ [{ u with size := u.size + t.size, data := setLineField u.data u.size t.size t.data.toNat }]
    else l ++ [t]
  | none => l ++ [t]

/-- Stamp and send the transfers of a command. -/
def State.sendTransfers (s : State) (d : Nat) (l : Traffic) : State :=
  l.out.foldl (fun s t =>
    let (q, s1) := s.stamp d t.flow 1
    s1.sendMsg d t.die.val (.flowTransferReceive { t with seq := q })) s

/-- The flow may carry an element to or from a place (R190): through the port to the host or to a pod peer, or over a seam. -/
def State.flowFits (s : State) (d f : Nat) (x : ESpot) : Bool :=
  match x with
  | .spad _ _ _ => true
  | .pod a => s.flowDest d f 2 (podDev a)
  | .mem pa _ =>
    let line := lineOf pa
    if isHostLine line then s.flowDest d f 1 0 else s.homeOf line == d || s.flowDest d f 0 (s.homeOf line)

/-- One element read of a command. -/
def State.engTake (s : State) (id : CtxId) (c : Cmd) (f : Nat) (x : ESpot) (z : Nat) (addr : Word) (l : Traffic) :
    Except Stopped ((Nat × Traffic) × State) := do
  let (v, s1) ← s.engRead id c x z addr
  match x with
  | .pod a =>
    let (l1, s2) := s1.passPort (ctxDie id c) f 3 a z l
    return ((v, l1), s2)
  | _ => return ((v, l), s1)

/-- One element write of a command: at its own die, in host memory or at a pod peer at once, to another die as a transfer on the flow. -/
def State.engPut (s : State) (id : CtxId) (c : Cmd) (n face f : Nat) (x : ESpot) (z v : Nat) (addr : Word) (l : Traffic) :
    Except Stopped (Traffic × State) :=
  let d := ctxDie id c
  if !(s.flowFits d f x) then failWith s stPERM addr
  else
    let through := fun (port a : Nat) => do
      let ((), s1) ← s.engWrite id c x z v addr
      return s1.passPort d f port a z l
    match x with
    | .pod a => through 2 a
    | .mem pa _ =>
      let h := s.homeOf (lineOf pa)
      if isHostLine (lineOf pa) then through 1 (canonPA pa)
      else if h = d then do
        let ((), s1) ← s.engWrite id c x z v addr
        return (l, s1)
      else
        let t : FlowTransfer := { die := dieId h, flow := f, seq := 0, vmid := c.vmid, srcKind := 0, srcId := d, pa := canonPA pa, size := z,
                                  data := BitVec.ofNat 1024 (v % 2 ^ (8 * z)), ctx := id, n := n, face := face, addr := addr }
        .ok ({ l with out := addTransfer l.out t }, s)
    | .spad _ _ _ => do
      let ((), s1) ← s.engWrite id c x z v addr
      return (l, s1)

/-! ### Tensor copies (R185-R187) -/

/-- A tensor copy descriptor. -/
structure Tensor where
  src : Int
  dst : Int
  speer : Bool
  dpeer : Bool
  flow : Nat
  counts : List Nat
  sstrides : List Int
  dstrides : List Int
  cvt : Bool
  rm : RMode
  dty : Ty
  sty : Ty
  sig : Word
  sinc : Word
deriving DecidableEq, Repr

/-- The 42 words of a descriptor; none where it is MALFORMED (R185). Which peers a command may name is its own rule (R254). -/
def tensorOf (ws : List Word) : Option Tensor :=
  let w := fun (i : Nat) => ws.getD i 0
  let ctl := w 2
  let n := wfield ctl 12 4 + 1
  let count := fun (k : Nat) => wfield (w (6 + k / 2)) (32 * (k % 2)) 32
  let f := wfield ctl 16 12
  let sty := tyOfCode (wfield ctl 0 4)
  let dty := tyOfCode (wfield ctl 4 4)
  let cvt := wbit ctl 11
  if wfield ctl 34 30 ≠ 0 || wfield ctl 28 4 ≠ 0 || w 5 ≠ 0 || w 13 ≠ 0 || 14 < n || 4 < wfield ctl 8 3 || !sty.isMem || !dty.isMem
      || (!cvt && sty != dty) || (wbit ctl 32 && wbit ctl 33) || !(flowNamed (if f = 0 then 1 else f)) then none
  else some
    { src := (w 0).toNat, dst := (w 1).toNat, speer := wbit ctl 33, dpeer := wbit ctl 32, flow := if f = 0 then 1 else f,
      counts := (List.range n).map count, sstrides := (List.range n).map fun k => (w (14 + 2 * k)).toInt,
      dstrides := (List.range n).map fun k => (w (15 + 2 * k)).toInt, cvt := cvt, rm := RMode.ofCode (wfield ctl 8 3),
      dty := dty, sty := sty, sig := w 3, sinc := w 4 }

/-- The number of elements. -/
def Tensor.size (t : Tensor) : Nat := t.counts.foldl (· * ·) 1

/-- Source and destination of element i, dimension 0 fastest. -/
def Tensor.pairAt (t : Tensor) (i : Nat) : Int × Int :=
  (t.src + strideSum i (t.counts.zip t.sstrides), t.dst + strideSum i (t.counts.zip t.dstrides))

/-- The value that an element has at its destination (R186). -/
def Tensor.value (t : Tensor) (sat : Bool) (x : Nat) : Nat :=
  if t.cvt then (convert t.dty t.rm sat (readElem t.sty x).1).1 else x % 2 ^ t.sty.width

/-- The places of every element, before any of them moves. -/
def State.tensorSpots (s : State) (id : CtxId) (c : Cmd) (t : Tensor) : List Nat → Except Stopped ((List (ESpot × ESpot × Int × Int)) × State)
  | [] => .ok ([], s)
  | i :: rest => do
    let (a, b) := t.pairAt i
    let (x, s1) ← if t.speer then s.podSpot id c t.sty.bytes a else s.engSpot id c .engRead none t.sty.bytes a
    let (y, s2) ← if t.dpeer then s1.podSpot id c t.dty.bytes b else s1.engSpot id c .engWrite none t.dty.bytes b
    let (l, s3) ← State.tensorSpots s2 id c t rest
    return ((x, y, a, b) :: l, s3)

/-- Move the elements in order; the answer holds the transfers to other dies. -/
def State.tensorMove (s : State) (id : CtxId) (c : Cmd) (n face : Nat) (t : Tensor) :
    List (ESpot × ESpot × Int × Int) → Traffic → Except Stopped (Traffic × State)
  | [], l => .ok (l, s)
  | (x, y, a, b) :: rest, l => do
    let ((v, l1), s1) ← s.engTake id c t.flow x t.sty.bytes (addr64 a) l
    let (l2, s2) ← s1.engPut id c n face t.flow y t.dty.bytes (t.value c.sat v) (addr64 b) l1
    State.tensorMove s2 id c n face t rest l2

/-- A planned tensor copy: the face that it is, its descriptor, and the places that it reads and writes. -/
structure Plan where
  face : Nat
  t : Tensor
  spots : List (ESpot × ESpot × Int × Int)

/-- What makes a copy MALFORMED beyond its descriptor's fields: an element at a pod address whose reserved bits are set (R193). -/
def Tensor.podsOk (t : Tensor) : Bool :=
  (!t.speer && !t.dpeer) || (List.range t.size).all fun i =>
    let (a, b) := t.pairAt i
    (!t.speer || podOk a) && (!t.dpeer || podOk b)

/-- Every address of a tensor copy, and the destination of its flow, before any element moves (R190). -/
def State.planTensor (s : State) (id : CtxId) (c : Cmd) (face : Nat) (t : Tensor) (at_ : Word) : Except Stopped (Plan × State) := do
  let (spots, s1) ← s.tensorSpots id c t (List.range t.size)
  let fits := s1.flowFits (ctxDie id c) t.flow
  match spots.find? fun q => !(fits q.2.1) || (t.speer && !(fits q.1)) with
  | some _ => failWith s1 stPERM at_
  | none => return ({ face := face, t := t, spots := spots }, s1)

/-- Move the elements of planned copies, one after another. -/
def State.movePlans (s : State) (id : CtxId) (c : Cmd) (n : Nat) : List Plan → Except Stopped (Unit × State)
  | [] => .ok ((), s)
  | p :: rest => do
    let (l, s1) ← s.tensorMove id c n p.face p.t p.spots {}
    State.movePlans (s1.sendTransfers (ctxDie id c) l) id c n rest

/-! ### Elements in any order (R182, R187) -/

/-- A place as one number, so that places of different kinds lie apart. -/
def ESpot.key : ESpot → Nat
  | .mem pa _ => canonPA pa
  | .pod a => 2 ^ 65 + a
  | .spad g r o => 2 ^ 70 + (g * 2 ^ 16 + r) * 2 ^ 24 + o

/-- A read or write at a place meets an uncorrectable error. -/
def State.spotFails (s : State) (d : Nat) : ESpot → Bool
  | .mem pa _ => s.readBad d (lineOf pa)
  | .pod _ => false
  | .spad g r o => (s.spadCheck g r o).2

/-- An element of a planned copy: its number, its copy and its places. -/
structure MoveElem where
  ix : Nat
  face : Nat
  t : Tensor
  x : ESpot
  y : ESpot
  a : Int
  b : Int

/-- The elements of planned copies, each numbered by its linear index in its own. (DEDUCED, log 146) -/
def moveElems (ps : List Plan) : List MoveElem :=
  ps.flatMap fun p => (p.spots.zip (List.range p.spots.length)).map fun e =>
    { ix := e.2, face := p.face, t := p.t, x := e.1.1, y := e.1.2.1, a := e.1.2.2.1, b := e.1.2.2.2 }

/-- The least stretch that holds all of the given ranges. -/
def hull : List (Nat × Nat) → Option (Nat × Nat)
  | [] => none
  | (a, z) :: rest => match hull rest with
    | none => some (a, a + z)
    | some (l, h) => some (min a l, max (a + z) h)

/-- No source of the elements meets a destination of them, and no place of them fails: then the order of their reads and writes
shows only where two destinations meet, and there the later element is the later write. -/
def State.apart (s : State) (d : Nat) (es : List MoveElem) : Bool :=
  (match hull (es.map fun e => (e.x.key, e.t.sty.bytes)), hull (es.map fun e => (e.y.key, e.t.dty.bytes)) with
   | some (l, h), some (l', h') => h ≤ l' || h' ≤ l
   | _, _ => true) && !(es.any fun e => s.spotFails d e.x || s.spotFails d e.y)

/-- Element `e` is to be written before element `f`: they stand in one copy and write the same bytes, and `e` comes first (R187). -/
def MoveElem.before (e f : MoveElem) : Bool :=
  e.face == f.face && e.ix < f.ix && e.y.key < f.y.key + f.t.dty.bytes && f.y.key < e.y.key + e.t.dty.bytes

/-- Faces in ascending order, and in a face its elements. -/
def MoveElem.first (e f : MoveElem) : Bool := e.face < f.face || (e.face == f.face && e.ix < f.ix)

/-- The element among those read and not yet written, in their order. -/
def putElem (e : MoveElem × Nat) : List (MoveElem × Nat) → List (MoveElem × Nat)
  | [] => [e]
  | f :: rest => if e.1.first f.1 then e :: f :: rest else f :: putElem e rest

/-- Reads and writes of elements in an order that is free, but that an element is read before it is written, and that of two elements
of one copy which write the same bytes the later one is written later (R187). -/
def State.moveAny (s : State) (id : CtxId) (c : Cmd) (n : Nat) :
    Nat → List MoveElem → List (MoveElem × Nat) → Traffic → Except Stopped (Traffic × State)
  | 0, _, _, l => .ok (l, s)
  | k + 1, ws, rs, l =>
    if ws.isEmpty && rs.isEmpty then .ok (l, s)
    else
      let (v, s0) := s.fresh
      let p := v.toNat % (ws.length + rs.length)
      let first := match ws.head?, rs.head? with
        | some e, some f => if e.first f.1 then 0 else ws.length
        | some _, none => 0
        | none, _ => ws.length
      let free := match rs[p - ws.length]? with
        | some f => !(ws.any fun e => e.before f.1) && !(rs.any fun e => e.1.before f.1)
        | none => true
      let i := if p < ws.length || free then p else first
      match ws[i]?, rs[i - ws.length]? with
      | some e, _ => do
        let ((x, l1), s1) ← s0.engTake id c e.t.flow e.x e.t.sty.bytes (addr64 e.a) l
        State.moveAny s1 id c n k (dropAt ws i) (putElem (e, x) rs) l1
      | none, some (e, x) => do
        let (l1, s1) ← s0.engPut id c n e.face e.t.flow e.y e.t.dty.bytes (e.t.value c.sat x) (addr64 e.b) l
        State.moveAny s1 id c n k ws (dropAt rs (i - ws.length)) l1
      | none, none => .ok (l, s0)

/-- The SIG add of a planned copy. -/
def Plan.sig (p : Plan) : Option SigAdd :=
  if p.t.sig = 0 then none else some { face := p.face, addr := p.t.sig, inc := p.t.sinc, pod := p.t.dpeer, flow := p.t.flow }

/-- Run planned copies. Their faces have moved then, and their SIG adds are to come. -/
def State.runPlans (s : State) (id : CtxId) (c : Cmd) (n : Nat) (ps : List Plan) : Except Stopped (Unit × State) := do
  let es := moveElems ps
  let ((), s1) ← if s.apart (ctxDie id c) es then s.movePlans id c n ps
    else do
      let (l, s1) ← s.moveAny id c n (2 * es.length) es [] {}
      return ((), s1.sendTransfers (ctxDie id c) l)
  return ((), s1.setEntry id n fun e => { e with moved := e.moved ++ ps.map (·.face), sigs := e.sigs ++ ps.filterMap Plan.sig })

/-- Some of the elements of a copy that has failed a check may have moved: which ones is free (R182). -/
def State.someMoves (s : State) (id : CtxId) (c : Cmd) (n face : Nat) (t : Tensor) : State :=
  let one := fun (p : Traffic × State) (i : Nat) =>
    let (v, s1) := p.2.fresh
    if !(v.getLsbD 0) then (p.1, s1)
    else match s1.tensorSpots id c t [i] with
      | .error _ => (p.1, s1)
      | .ok (spots, s2) => match s2.tensorMove id c n face t spots p.1 with
        | .ok r => r
        | .error e => (p.1, e.2)
  let (l, s1) := (List.range t.size).foldl one ({}, s)
  s1.sendTransfers (ctxDie id c) l

/-- What is checked of copies before any element of any of them moves: pod addresses, where MALFORMED moves nothing, and the flows that
they name, at the sender (R183, R190). -/
def State.checkTensors (s : State) (id : CtxId) (c : Cmd) (ts : List (Tensor × Word)) : Except Stopped (Unit × State) :=
  match ts.find? fun p => !(p.1.podsOk), ts.find? fun p => !(s.flowOk (ctxDie id c) p.1.flow c.vmid) with
  | some p, _ => failWith s stMALFORMED p.2
  | none, some p => failWith s stPERM p.2
  | none, none => .ok ((), s)

/-- A whole tensor copy. -/
def State.runTensor (s : State) (id : CtxId) (c : Cmd) (n : Nat) (t : Tensor) (at_ : Word) : Except Stopped (Unit × State) := do
  let ((), s0) ← s.checkTensors id c [(t, at_)]
  match s0.planTensor id c 0 t at_ with
  | .ok (p, s1) => s1.runPlans id c n [p]
  | .error (.wait, s1) => .error (.wait, s1)
  | .error (.fail code a, s1) => .error (.fail code a, s1.someMoves id c n 0 t)

/-- The descriptor at an address, the `k`-th record of a command that allows the given peers (R185, R254). -/
def State.readTensor (s : State) (id : CtxId) (c : Cmd) (n k : Nat) (va : Word) (ok : Tensor → Bool) : Except Stopped (Tensor × State) := do
  if va.toNat % 64 ≠ 0 then failWith s stMALFORMED va
  else
    let (ws, s1) ← s.record id c n k va.toNat 42
    match tensorOf ws with
    | none => failWith s1 stMALFORMED va
    | some t => if ok t then return (t, s1) else failWith s1 stMALFORMED va

/-- COPY as a tensor copy (R253). -/
def copyTensor (c : Cmd) : Option Tensor :=
  let z := 2 ^ (wfield (c.qmod.zeroExtend 64) 0 2)
  let ty : Ty := if z = 1 then .n8 else if z = 2 then .n16 else if z = 4 then .n32 else .n64
  if c.c.toNat % z ≠ 0 || 2 ^ 32 ≤ c.c.toNat / z then none
  else some { src := c.a.toNat, dst := c.b.toNat, speer := false, dpeer := false, flow := 1, counts := [c.c.toNat / z],
              sstrides := [z], dstrides := [z], cvt := false, rm := .rne, dty := ty, sty := ty, sig := 0, sinc := 0 }

/-! ### HALO (R196) -/

/-- The descriptors of the faces, read in turn; the k-th is the command's record k + 2. -/
def State.readFaces (s : State) (id : CtxId) (c : Cmd) (n k : Nat) : List Word → Except Stopped (List Tensor × State)
  | [] => .ok ([], s)
  | a :: rest => do
    let (t, s1) ← s.readTensor id c n (k + 2) a fun t => !t.speer
    let (ts, s2) ← State.readFaces s1 id c n (k + 1) rest
    return (t :: ts, s2)

/-- The faces in turn, planned: those that do not wait for a page, and whether one waits. -/
def State.planFaces (s : State) (id : CtxId) (c : Cmd) : List (Nat × Tensor × Word) → Except Stopped ((List Plan × Bool) × State)
  | [] => .ok (([], false), s)
  | (k, t, a) :: rest =>
    match s.planTensor id c k t a with
    | .ok (p, s1) => do
      let ((ps, w), s2) ← State.planFaces s1 id c rest
      return ((p :: ps, w), s2)
    | .error (.wait, s1) => do
      let ((ps, _), s2) ← State.planFaces s1 id c rest
      return ((ps, true), s2)
    | .error (.fail code x, s1) => .error (.fail code x, s1)

/-- Every record is read and checked before any face moves. A face that waits for a page keeps no other face back, nor its SIG add. -/
def State.runHalo (s : State) (id : CtxId) (c : Cmd) (n : Nat) : Except Stopped (Unit × State) := do
  if c.a.toNat % 8 ≠ 0 then failWith s stMALFORMED c.a
  else
    let (hd, s1) ← s.record id c n 0 c.a.toNat 1
    let w := hd.headD 0
    let nf := w.toNat % 32
    if 32 ≤ w.toNat || nf = 0 || 26 < nf then failWith s1 stMALFORMED c.a
    else
      let (faces, s2) ← s1.record id c n 1 ((c.a.toNat : Int) + 8) nf
      let (ts, s3) ← s2.readFaces id c n 0 faces
      let ((), s4) ← s3.checkTensors id c (ts.zip faces)
      let due := ((List.range nf).zip (ts.zip faces)).filter fun p => !((s4.entry id c n).moved.contains p.1)
      match s4.planFaces id c due with
      | .ok ((ps, waits), s5) =>
        let ((), s6) ← s5.runPlans id c n ps
        if waits then .error (.wait, s6) else return ((), s6)
      | .error (.wait, s5) => .error (.wait, s5)
      | .error (.fail code a, s5) => .error (.fail code a, due.foldl (fun s p => s.someMoves id c n p.1 p.2.1) s5)

/-! ### ARED (R197, R198) -/

/-- Combine in TYPE (R198). -/
def aredCombine (ty : Ty) (op : Nat) (a b : Nat) : Nat :=
  match ty.fmt?, op with
  | some f, 0 => (fAdd f .rne (f.decode a) (f.decode b)).1
  | some f, 1 => canon f (fMinMax f false a b).1
  | some f, 2 => canon f (fMinMax f true a b).1
  | none, 0 => (a + b) % 2 ^ ty.width
  | none, 1 => if ty.toInt b < ty.toInt a then b else a
  | none, 2 => if ty.toInt a < ty.toInt b then b else a
  | _, 3 => a &&& b
  | _, 4 => a ||| b
  | _, _ => a ^^^ b
where
  canon (f : Fmt) (p : Nat) : Nat := if (f.decode p).isNan then f.nanBits else p

/-- The result of one element from every member's input, in rank order. -/
def reduceAll (ty : Ty) (op : Nat) (acc96 : Bool) (xs : List Nat) : Nat :=
  match xs with
  | [] => 0
  | x :: rest =>
    if acc96 then match ty.fmt? with
      | some f =>
        let up := fun (p : Nat) => (roundVal .af96 .rne (f.decode p)).1
        let sum := rest.foldl (fun a y => (fAdd .af96 .rne (Fmt.decode .af96 a) (Fmt.decode .af96 (up y))).1) (up x)
        (roundVal f .rne (Fmt.decode .af96 sum)).1
      | none => x
    else rest.foldl (aredCombine ty op) (match ty.fmt? with
      | some f => if op < 3 && (f.decode x).isNan then f.nanBits else x
      | none => x)

/-- An ARED record's fields that every member's has alike, with its own RANK and buffers; `group` is the group table. -/
structure Ared where
  src : Nat
  dst : Nat
  count : Nat
  ty : Ty
  op : Nat
  acc96 : Bool
  flow : Nat
  members : Nat
  rank : Nat
  group : Nat
deriving DecidableEq, Repr

/-- The 8 words of a record; none where it is MALFORMED (R197). -/
def aredOf (ws : List Word) : Option Ared :=
  let w := fun (i : Nat) => ws.getD i 0
  let ctl := w 3
  let ty := tyOfCode (wfield ctl 0 4)
  let acc96 := wbit ctl 8
  let r : Ared := { src := (w 0).toNat, dst := (w 1).toNat, count := wfield (w 2) 0 40, ty := ty, op := wfield ctl 4 4, acc96 := acc96,
                    flow := wfield ctl 16 12, members := wfield ctl 32 12 + 1, rank := wfield ctl 48 12, group := (w 4).toNat }
  let reserved := wfield (w 2) 40 24 ≠ 0 || wfield ctl 60 4 ≠ 0 || wfield ctl 44 4 ≠ 0 || wfield ctl 28 4 ≠ 0 || wfield ctl 9 7 ≠ 0 ||
    w 5 ≠ 0 || w 6 ≠ 0 || w 7 ≠ 0
  let tyOk := ty.isFloat || ty == .i64 || ty == .n64 || ty == .i32 || ty == .n32
  if reserved || r.members < 2 || r.members ≤ r.rank || !tyOk || 5 < r.op || (acc96 && !ty.isFloat) || !(flowNamed r.flow) then none
  else some r

/-- Two members' parameters agree. -/
def Ared.agrees (x y : Ared) : Bool := { x with src := y.src, dst := y.dst, rank := y.rank, group := y.group } == y

/-- The addresses of the elements of a buffer. -/
def Ared.elems (r : Ared) (base : Nat) : List Int := (List.range r.count).map fun (j : Nat) => (base : Int) + (r.ty.bytes * j : Nat)

/-- Another member of the all-reduce whose command this package holds: its context, its command and its record. -/
structure Mate where
  id : CtxId
  e : CmdEntry
  r : Ared
  group : List Word

/-- The members that this package holds: other held AREDs whose staging buffer, at their rank, is the one that this command's table
names there. -/
def State.mates (s : State) (id : CtxId) (n : Nat) (r : Ared) (group : List Word) : List Mate :=
  s.ctxs.flatMap fun p => p.2.cmds.filterMap fun e =>
    match e.record, (e.record.head?).bind aredOf with
    | [_, g], some x =>
      if e.cmd.kind == .ared && e.st == .held && !(p.1 == id && e.n == n) && x.rank ≠ r.rank && x.rank < group.length &&
          g[x.rank]? == group[x.rank]? then some { id := p.1, e := e, r := x, group := g }
      else none
    | _, _ => none

/-- Members exchange their parameters: with the mates, where a difference ends both commands with MALFORMED, and with the members that
have not been met yet, each of which is free to have issued, or to refuse. Whether every member has been met. -/
def State.exchange (s : State) (id : CtxId) (c : Cmd) (n : Nat) (r : Ared) (group : List Word) : Except Stopped (Bool × State) :=
  let mates := s.mates id n r group
  let differs := fun (m : Mate) => !(m.r.agrees r) || m.group != group
  match mates.find? differs with
  | some m => failWith (s.send (.engineCommandFail m.id m.e.n stMALFORMED m.e.cmd.a.toNat)) stMALFORMED c.a
  | none =>
    let s1 := mates.foldl (fun s m => s.setEntry m.id m.e.n fun e => { e with met := e.met ++ [r.rank] }) s
    let near := (s1.entry id c n).met ++ mates.map (·.r.rank)
    let far := (List.range r.members).filter fun k => k ≠ r.rank && !(near.contains k)
    let said := fun (k : Nat) => Config.membersReady (s1.freeCtr + k)
    let s2 : State := { s1 with freeCtr := s1.freeCtr + r.members }
    if far.any fun k => said k == 2 then failWith s2 stMALFORMED c.a
    else
      let met := near ++ far.filter fun k => said k == 1
      .ok ((List.range r.members).all fun k => k == r.rank || met.contains k, s2.setEntry id n fun e => { e with met := met })

/-- Read elements of `z` bytes. -/
def State.engLoads (s : State) (id : CtxId) (c : Cmd) (z : Nat) : List Int → Except Stopped (List Nat × State)
  | [] => .ok ([], s)
  | a :: rest => do
    let (v, s1) ← s.engLoad id c none z a
    let (vs, s2) ← State.engLoads s1 id c z rest
    return (v :: vs, s2)

/-- The traffic of an exchange with a member: its pod addresses take it, and the flow leads there (R190, R195). -/
def State.memberSpots (s : State) (id : CtxId) (c : Cmd) (f z : Nat) : List Int → Except Stopped (Unit × State)
  | [] => .ok ((), s)
  | a :: rest => do
    let (x, s1) ← s.podSpot id c z a
    if !(s1.flowFits (ctxDie id c) f x) then failWith s1 stPERM (addr64 a) else State.memberSpots s1 id c f z rest

/-- The input of member `k`: this member's own; a mate's from its SRC; another's as its staging buffer has it. -/
def State.memberInput (s : State) (own : List Nat) (mates : List Mate) (r : Ared) (group : List Word) (k : Nat) :
    Except Stopped (List Nat × State) :=
  if k = r.rank then .ok (own, s)
  else match mates.find? fun m => m.r.rank == k with
    | some m => match s.engLoads m.id m.e.cmd r.ty.bytes (r.elems m.r.src) with
      | .ok x => .ok x
      | .error (_, s1) => .error (.wait, s1)
    | none => .ok ((r.elems (group.getD k 0).toNat).map fun a => readBytes s.podMem a.toNat r.ty.bytes, s)

/-- Every member's input, in rank order. -/
def State.memberInputs (s : State) (own : List Nat) (mates : List Mate) (r : Ared) (group : List Word) :
    List Nat → Except Stopped (List (List Nat) × State)
  | [] => .ok ([], s)
  | k :: rest => do
    let (x, s1) ← s.memberInput own mates r group k
    let (xs, s2) ← State.memberInputs s1 own mates r group rest
    return (x :: xs, s2)

/-- This member's input goes out to its staging buffer, for every other member: the line requests of each are stamped (R190). -/
def State.postInput (s : State) (d : Nat) (r : Ared) (base : Nat) (own : List Nat) : State :=
  let z := r.ty.bytes
  let lines := if r.count = 0 then 0 else (base + z * r.count - 1) / 128 - base / 128 + 1
  let mem := ((List.range r.count).zip own).foldl (fun m p => writeBytes m (base + z * p.1) p.2 z) s.podMem
  { (s.stamp d r.flow (lines * (r.members - 1))).2 with podMem := mem }

/-- The places of elements that a command writes, before any of them is written. -/
def State.outSpots (s : State) (id : CtxId) (c : Cmd) (z : Nat) : List Int → Except Stopped (List (ESpot × Int) × State)
  | [] => .ok ([], s)
  | a :: rest => do
    let (x, s1) ← s.engSpot id c .engWrite none z a
    let (xs, s2) ← State.outSpots s1 id c z rest
    return ((x, a) :: xs, s2)

/-- Write the results at their places. -/
def State.writeRun (s : State) (id : CtxId) (c : Cmd) (n z : Nat) :
    List ((ESpot × Int) × Nat) → Traffic → Except Stopped (Traffic × State)
  | [], l => .ok (l, s)
  | ((x, a), v) :: rest, l => do
    let (l1, s1) ← s.engPut id c n 0 1 x z v (addr64 a) l
    State.writeRun s1 id c n z rest l1

/-- Some of the results may have been written when a write fails: which ones is free (R182). -/
def State.someOuts (s : State) (id : CtxId) (c : Cmd) (n z : Nat) (l : List ((ESpot × Int) × Nat)) : State :=
  let (m, s1) := l.foldl (fun (p : Traffic × State) q =>
    let (v, s1) := p.2.fresh
    if !(v.getLsbD 0) && !(s1.spotFails (ctxDie id c) q.1.1) then (p.1, s1)
    else match s1.engPut id c n 0 1 q.1.1 z q.2 (addr64 q.1.2) p.1 with
      | .ok r => r
      | .error e => (p.1, e.2)) ({}, s)
  s1.sendTransfers (ctxDie id c) m

/-- One element's result from every member's input. -/
def Ared.result (r : Ared) (xs : List (List Nat)) (j : Nat) : Nat := reduceAll r.ty r.op r.acc96 (xs.map fun x => x.getD j 0)

/-- ARED: the record and the group table are read and checked, every address is, and then the members meet. The results travel on flow
0x001: FLOW is the exchanged data's. (DEDUCED, log 70) -/
def State.runAred (s : State) (id : CtxId) (c : Cmd) (n : Nat) : Except Stopped (Unit × State) := do
  if c.a.toNat % 64 ≠ 0 then failWith s stMALFORMED c.a
  else
    let (ws, s1) ← s.record id c n 0 c.a.toNat 8
    match aredOf ws with
    | none => failWith s1 stMALFORMED c.a
    | some r =>
      let d := ctxDie id c
      let z := r.ty.bytes
      if !(s1.flowOk d r.flow c.vmid) then failWith s1 stPERM c.a
      else
        let (group, s2) ← s1.record id c n 1 r.group r.members
        let others := ((List.range r.members).filter (· ≠ r.rank)).flatMap fun k => r.elems (group.getD k 0).toNat
        if !(others.all podOk) then failWith s2 stMALFORMED c.a
        else
          let (own, s3) ← s2.engLoads id c z (r.elems r.src)
          let (outs, s4) ← s3.outSpots id c z (r.elems r.dst)
          let ((), s5) ← s4.memberSpots id c r.flow z others
          let mates := s5.mates id n r group
          let (met, s6) ← s5.exchange id c n r group
          if !met then .error (.wait, s6)
          else
            let (xs, s7) ← s6.memberInputs own mates r group (List.range r.members)
            let s8 := s7.postInput d r (group.getD r.rank 0).toNat own
            let res := outs.zip ((List.range r.count).map (r.result xs))
            match s8.writeRun id c n z res {} with
            | .ok (l, s9) => return ((), s9.sendTransfers d l)
            | .error (.wait, s9) => .error (.wait, s9)
            | .error (.fail code a, _) => .error (.fail code a, s8.someOuts id c n z res)

end Sys2Proof.Machine
end

