-- ==== Sys2Proof/Machine/Encode.lean ====
section
/-! DEFINITION. The coding decisions of the encode engine (11 R264): intra modes by SAD, the motion search, the exact transform and the
levels of every block. What the codecs' own standards fix stands in `Config`. -/
namespace Sys2Proof.Machine

/-! ### Frames of samples -/

/-- A plane of a frame: its width and height, and its samples row by row. -/
structure Plane where
  w : Nat
  h : Nat
  px : List Nat
deriving DecidableEq, Repr

/-- The sample at a place; beyond the plane, the nearest edge sample. -/
def Plane.sample (p : Plane) (x y : Int) : Nat :=
  let cx := min (max x 0).toNat (p.w - 1)
  let cy := min (max y 0).toNat (p.h - 1)
  p.px.getD (cy * p.w + cx) 0

/-- The places of an `n` × `n` block in raster order, from its first sample. -/
def square (n : Nat) : List (Nat × Nat) := (List.range n).flatMap fun y => (List.range n).map fun x => (x, y)

/-- The block of `n` × `n` samples at a place. -/
def Plane.block (p : Plane) (x y : Int) (n : Nat) : List Nat := (square n).map fun q => p.sample (x + (q.1 : Int)) (y + (q.2 : Int))

/-- The plane with a block at a place. -/
def Plane.put (p : Plane) (x y n : Nat) (l : List Nat) : Plane :=
  { p with px := (List.range (p.w * p.h)).map fun i =>
      let cx := i % p.w
      let cy := i / p.w
      if x ≤ cx && cx < x + n && y ≤ cy && cy < y + n then l.getD ((cy - y) * n + (cx - x)) 0 else p.px.getD i 0 }

/-- The sum of absolute differences. -/
def sad (a b : List Nat) : Nat := (a.zip b).foldl (fun t p => t + (max p.1 p.2 - min p.1 p.2)) 0

/-- The first of the places with the least value. -/
def least {α : Type} : List (α × Nat) → Option (α × Nat)
  | [] => none
  | p :: rest => match least rest with
    | some q => some (if p.2 ≤ q.2 then p else q)
    | none => some p

/-! ### The exact transform

Every product of two cosines of the transform is a sum of cosines of multiples of θ = π/32. -/

/-- The place of cos(jθ) among cos(0) … cos(15θ), and its sign; cos(16θ) is 0. -/
def cosPlace (j : Int) : Option (Nat × Int) :=
  let a := j.natAbs % 64
  let b := if 32 < a then 64 - a else a
  if b = 16 then none else if b < 16 then some (b, 1) else some (32 - b, -1)

/-- A sum of cos(jθ), j below 16, with integer factors. -/
abbrev CosSum := List Int

def CosSum.add (v : CosSum) (j x : Int) : CosSum :=
  match cosPlace j with
  | some (i, sg) => v.set i (v.getD i 0 + sg * x)
  | none => v

/-- The coefficient at column k and row l of D·X·Dᵀ, for a block of n × n, times n; times 2n where k and l are 0. -/
def coefSum (n k l : Nat) (xs : List Int) : CosSum :=
  ((square n).zip xs).foldl (fun v q =>
    let a : Int := ((2 * q.1.1 + 1) * k * (16 / n) : Nat)
    let b : Int := ((2 * q.1.2 + 1) * l * (16 / n) : Nat)
    let (p, r) : Int × Int := if k = 0 && l = 0 then (0, 0) else if k = 0 then (b, 8) else if l = 0 then (a, 8) else (a, b)
    (v.add (p + r) q.2).add (p - r) q.2) (List.replicate 16 0)

/-- cos(jθ) scaled by 2^1024, for j below 16. -/
def cosTable : List Int :=
  let one := 2 ^ 1024
  let root := fun (x : Nat) => isqrt ((2 * one + x) * one)
  let c1 : Int := (root (root (root (root 0))) : Nat)
  ((List.range 15).foldl (fun (p : List Int × Int × Int) _ =>
    (p.1 ++ [p.2.2 / 2], p.2.2, c1 * p.2.2 / (one : Nat) - p.2.1)) ([(one : Nat)], 2 * ((one : Nat) : Int), c1)).1

/-- The integer nearest to an exact value v · num / den, ties to even. A value with an irrational part lies much farther from every tie than
2^-900, so that 1,024 bits decide it. -/
def CosSum.round (v : CosSum) (num den : Nat) : Int :=
  let one : Int := ((2 ^ 1024 : Nat) : Int)
  let x := if v.tail.all (· == 0) then v.headD 0 * one else ((v.zip cosTable).map fun p => p.1 * p.2).foldl (· + ·) 0
  let top := x * num
  let unit : Int := one * den
  let q := top / unit
  let r := top % unit
  if 2 * r < unit then q else if unit < 2 * r then q + 1 else if q % 2 = 0 then q else q + 1

/-- F of R264, as numerator and denominator. -/
def scaleF (codec n : Nat) : Nat × Nat :=
  let b := if codec % 2 = 1 then 10 else 8
  if 2 ≤ codec then (2 ^ (15 - b), n) else (8 * 2 ^ (b - 8), 1)

/-- The coefficient C at column k and row l of a block of differences. -/
def coefficient (codec n k l : Nat) (xs : List Int) : Int :=
  let (fn, fd) := scaleF codec n
  (coefSum n k l xs).round fn (fd * n * (if k = 0 && l = 0 then 2 else 1))

/-- The level of a coefficient c at a step of num / den. -/
def levelOf (c : Int) (num den : Nat) : Int := c.sign * ((3 * c.natAbs * den + num) / (3 * num) : Nat)

/-! ### Blocks -/

/-- How a block is predicted: by an intra mode of Table 6, by its place in the order tried, or at a motion vector. -/
inductive Mode where
  | intra (m : Nat) | inter (dx dy : Int)
deriving DecidableEq, Repr

def Mode.isIntra : Mode → Bool
  | .intra _ => true
  | .inter _ _ => false

/-- A frame that is being coded. -/
structure Coding where
  pic : Config.Picture
  src : List Plane           -- the source at the coded size
  ref : List Plane           -- the previous reconstructed frame
  recon : List Plane         -- what is reconstructed so far
  blocks : List (List Int) := []   -- each coded block: its place, its size, its mode, its levels

def planeOf (l : List Plane) (p : Nat) : Plane := l.getD p ⟨0, 0, []⟩

/-- The place and size of a luma block in a plane. -/
def inPlane (p x y n : Nat) : Nat × Nat × Nat := if p = 0 then (x, y, n) else (x / 2, y / 2, n / 2)

/-- A luma block's samples of a plane, coded under a mode. -/
def blockAt (m : Mode) (p x y n : Nat) : Config.BlockAt :=
  let (x1, y1, n1) := inPlane p x y n
  { plane := p, x := x1, y := y1, n := n1, intra := m.isIntra }

/-- The prediction of a block of a plane under a mode. -/
def Coding.predict (k : Coding) (m : Mode) (p x y n : Nat) : List Nat :=
  match m with
  | .intra i => Config.intraPred k.pic (blockAt m p x y n) i (k.recon.map (·.px))
  | .inter dx dy => Config.interPred k.pic (blockAt m p x y n) dx dy (k.ref.map (·.px))

/-- The source samples of a block of a plane. An AV1 block may pass the frame's edge. -/
def Coding.source (k : Coding) (p x y n : Nat) : List Nat :=
  let (x1, y1, n1) := inPlane p x y n
  let s := planeOf k.src p
  (square n1).map fun q =>
    if x1 + q.1 < s.w && y1 + q.2 < s.h then s.sample (x1 + q.1 : Nat) (y1 + q.2 : Nat) else Config.beyondFrame p (x1 + q.1) (y1 + q.2)

/-- The intra mode of least SAD, the earlier at a tie, with its SAD. -/
def Coding.bestIntra (k : Coding) (x y n : Nat) : Mode × Nat :=
  (least ((List.range 4).map fun i => (Mode.intra i, sad (k.source 0 x y n) (k.predict (.intra i) 0 x y n)))).getD (.intra 0, 0)

/-- The offsets of the motion search, in its order. -/
def searchOrder : List (Int × Int) :=
  (List.range 33).flatMap fun (dy : Nat) => (List.range 33).map fun (dx : Nat) => ((dx : Int) - 16, (dy : Int) - 16)

/-- The offset of least SAD, the first at a tie, with its SAD. -/
def Coding.bestMotion (k : Coding) (x y n : Nat) : Mode × Nat :=
  (least (searchOrder.map fun d =>
    (Mode.inter d.1 d.2, sad (k.source 0 x y n) ((planeOf k.ref 0).block ((x : Int) + d.1) ((y : Int) + d.2) n)))).getD (.inter 0 0, 0)

/-- The mode of a block. -/
def Coding.modeOf (k : Coding) (x y n : Nat) : Mode :=
  let i := k.bestIntra x y n
  if k.pic.key then i.1
  else
    let m := k.bestMotion x y n
    if m.2 ≤ i.2 then m.1 else i.1

/-- The levels of a block of a plane, row by row. -/
def Coding.levels (k : Coding) (m : Mode) (p x y n : Nat) : List Int :=
  let n1 := (inPlane p x y n).2.2
  let xs := ((k.source p x y n).zip (k.predict m p x y n)).map fun q => (q.1 : Int) - (q.2 : Int)
  (square n1).map fun q =>
    let (num, den) := Config.quantStep k.pic (blockAt m p x y n) q.2 q.1
    levelOf (coefficient k.pic.codec n1 q.1 q.2 xs) num (den + 1)

/-- Code a block of a plane under a mode: its levels, and the frame with its reconstruction. -/
def Coding.codePlane (k : Coding) (m : Mode) (x y n p : Nat) : List Int × Coding :=
  let (x1, y1, n1) := inPlane p x y n
  let l := k.levels m p x y n
  let out := Config.decodeBlock k.pic (blockAt m p x y n) (k.predict m p x y n) l
  (l, { k with recon := k.recon.set p ((planeOf k.recon p).put x1 y1 n1 out) })

/-- Code a block: its decisions follow those of the blocks before it. -/
def Coding.code (k : Coding) (b : Nat × Nat × Nat) : Coding :=
  let (x, y, n) := b
  let m := k.modeOf x y n
  let head : List Int := match m with
    | .intra i => [(x : Nat), (y : Nat), (n : Nat), 0, (i : Nat), 0]
    | .inter dx dy => [(x : Nat), (y : Nat), (n : Nat), 1, dx, dy]
  let (l0, k0) := k.codePlane m x y n 0
  let (l1, k1) := k0.codePlane m x y n 1
  let (l2, k2) := k1.codePlane m x y n 2
  { k2 with blocks := k2.blocks ++ [head ++ l0 ++ l1 ++ l2] }

/-- The blocks of a frame in raster order: 16 × 16, but those that AV1 splits at the frame's edge. -/
def Coding.grid (k : Coding) : List (Nat × Nat × Nat) :=
  let s := planeOf k.src 0
  (List.range ((s.h + 15) / 16)).flatMap fun by_ => (List.range ((s.w + 15) / 16)).flatMap fun bx =>
    let x := 16 * bx
    let y := 16 * by_
    if s.w < x + 16 || s.h < y + 16 then Config.edgeBlocks k.pic x y else [(x, y, 16)]

/-- Code the frame: its bytes, for a session of `count` frames so far, and its reconstruction after the loop filters. -/
def Coding.run (k : Coding) (count : Nat) : List Byte × List (List Nat) :=
  let e := k.grid.foldl Coding.code k
  (Config.bitstream k.pic count e.blocks, Config.loopFilter k.pic e.blocks (e.recon.map (·.px)))

end Sys2Proof.Machine
end

