-- ==== Sys2Proof/Machine/Frames.lean ====
section
/-! DEFINITION. The frame composer and the encode engine (11 R261-R264): blending layers over a surface, and encoding a frame. -/
namespace Sys2Proof.Machine

/-! ### The composer's arithmetic (R262) -/

/-- An RGBA8 pixel. -/
structure Pixel where
  r : Nat
  g : Nat
  b : Nat
  a : Nat
deriving DecidableEq, Repr

def Pixel.ofNat (x : Nat) : Pixel := ⟨x % 256, x / 2 ^ 8 % 256, x / 2 ^ 16 % 256, x / 2 ^ 24 % 256⟩
def Pixel.toNat (p : Pixel) : Nat := p.r % 256 + p.g % 256 * 2 ^ 8 + p.b % 256 * 2 ^ 16 + p.a % 256 * 2 ^ 24

/-- Layer pixel s under the layer's alpha, over destination pixel d. -/
def blend (alpha : Nat) (s d : Pixel) : Pixel :=
  let a := (s.a * alpha + 127) / 255
  let ch := fun (x y : Nat) => (x * a + y * (255 - a) + 127) / 255
  ⟨ch s.r d.r, ch s.g d.g, ch s.b d.b, a + (d.a * (255 - a) + 127) / 255⟩

def lumaOf (p : Pixel) : Int := ((47 * p.r + 157 * p.g + 16 * p.b + 128 : Nat) : Int) / 256 + 16
def cbOf (p : Pixel) : Int := (-26 * (p.r : Int) - 87 * p.g + 112 * p.b + 128) / 256 + 128
def crOf (p : Pixel) : Int := (112 * (p.r : Int) - 102 * p.g - 10 * p.b + 128) / 256 + 128

def clampByte (x : Int) : Nat := if x < 0 then 0 else if 255 < x then 255 else x.toNat

/-- The RGBA8 value of a YUV triple. -/
def rgbOf (y cb cr : Nat) : Pixel :=
  let l : Int := 298 * ((y : Int) - 16)
  let u : Int := (cb : Int) - 128
  let v : Int := (cr : Int) - 128
  ⟨clampByte ((l + 459 * v + 128) / 256), clampByte ((l - 55 * u - 136 * v + 128) / 256), clampByte ((l + 541 * u + 128) / 256), 255⟩

/-- A chroma sample from those of the four pixels of a block. -/
def chromaOf (f : Pixel → Int) (ps : List Pixel) : Nat := ((ps.foldl (fun a p => a + f p) 2) / 4).toNat

/-! ### FCOMP (R261, R262) -/

/-- A layer of an FCOMP record. -/
structure Layer where
  src : Int
  w : Nat
  h : Nat
  pitch : Nat
  x : Nat
  y : Nat
  alpha : Nat
  view : Option Nat
deriving DecidableEq, Repr

/-- An FCOMP record. -/
structure Comp where
  dst : Int
  w : Nat
  h : Nat
  pitch : Nat
  fmt : Nat
  layers : List Layer
deriving DecidableEq, Repr

/-- A layer from its four words; none where a reserved bit is set. -/
def layerOf (ws : List Word) : Option Layer :=
  let w := fun (i : Nat) => ws.getD i 0
  if wfield (w 1) 48 16 ≠ 0 || wfield (w 2) 40 24 ≠ 0 || wfield (w 3) 33 31 ≠ 0 then none
  else some { src := (w 0).toNat, w := wfield (w 1) 0 16, h := wfield (w 1) 16 16, pitch := wfield (w 1) 32 16,
              x := wfield (w 2) 0 16, y := wfield (w 2) 16 16, alpha := wfield (w 2) 32 8,
              view := if wbit (w 3) 32 then some (wfield (w 3) 0 32) else none }

/-- A record from its first four words and its layers' words; none where it is MALFORMED. -/
def compOf (ws : List Word) (layers : List Word) : Option Comp :=
  let w := fun (i : Nat) => ws.getD i 0
  let wd := wfield (w 1) 0 16
  let ht := wfield (w 1) 16 16
  let fmt := wfield (w 1) 48 4
  let nl := wfield (w 2) 0 3
  let ls := (List.range nl).map fun i => layerOf ((layers.drop (4 * i)).take 4)
  if wd = 0 || 7680 < wd || ht = 0 || 4320 < ht || 2 < fmt || wfield (w 1) 52 12 ≠ 0 || nl = 0 || 4 < nl || wfield (w 2) 3 61 ≠ 0
      || w 3 ≠ 0 || (fmt ≠ 0 && (wd % 2 ≠ 0 || ht % 2 ≠ 0)) || ls.any Option.isNone then none
  else some { dst := (w 0).toNat, w := wd, h := ht, pitch := wfield (w 1) 32 16, fmt := fmt, layers := ls.filterMap fun x => x }

/-- The layers that cover a destination pixel, in order. -/
def Comp.over (c : Comp) (px py : Nat) : List Layer :=
  c.layers.filter fun l => l.x ≤ px && px < l.x + l.w && l.y ≤ py && py < l.y + l.h

/-- Blend layers in order over a pixel. -/
def State.blendAll (s : State) (id : CtxId) (c : Cmd) (px py : Nat) : List Layer → Pixel → Except Stopped (Pixel × State)
  | [], d => .ok (d, s)
  | l :: rest, d => do
    let (v, s1) ← s.engLoad id c l.view 4 (l.src + (l.pitch * (py - l.y) + 4 * (px - l.x) : Nat))
    State.blendAll s1 id c px py rest (blend l.alpha (Pixel.ofNat v) d)

/-- The writes to an RGBA8 destination: address and value of each covered pixel. -/
def State.compRgb (s : State) (id : CtxId) (c : Cmd) (k : Comp) : List (Nat × Nat) → Except Stopped (List (Int × Nat × Nat) × State)
  | [] => .ok ([], s)
  | (px, py) :: rest =>
    match k.over px py with
    | [] => State.compRgb s id c k rest
    | ls => do
      let a : Int := k.dst + (k.pitch * py + 4 * px : Nat)
      let (v, s1) ← s.engLoad id c none 4 a
      let (p, s2) ← s1.blendAll id c px py ls (Pixel.ofNat v)
      let (out, s3) ← State.compRgb s2 id c k rest
      return ((a, 4, p.toNat) :: out, s3)

/-- Bytes of a sample, and a sample's 8-bit value in memory. -/
def Comp.zs (c : Comp) : Nat := if c.fmt = 2 then 2 else 1
def Comp.load8 (c : Comp) (v : Nat) : Nat := if c.fmt = 2 then v / 256 else v
def Comp.store8 (c : Comp) (v : Nat) : Nat := if c.fmt = 2 then v * 256 else v

/-- The pixels of one 2 × 2 block: read back, and blended; each with the address of its luma sample and whether a layer covers
it. -/
def State.compPixels (s : State) (id : CtxId) (c : Cmd) (k : Comp) (cb cr : Nat) :
    List (Nat × Nat) → Except Stopped (List (Int × Bool × Pixel) × State)
  | [] => .ok ([], s)
  | (px, py) :: rest => do
    let a : Int := k.dst + (k.pitch * py + k.zs * px : Nat)
    let (y, s1) ← s.engLoad id c none k.zs a
    let (p, s2) ← s1.blendAll id c px py (k.over px py) (rgbOf (k.load8 y) cb cr)
    let (out, s3) ← State.compPixels s2 id c k cb cr rest
    return ((a, !(k.over px py).isEmpty, p) :: out, s3)

/-- The writes to a YUV destination, block by block. -/
def State.compYuv (s : State) (id : CtxId) (c : Cmd) (k : Comp) : List (Nat × Nat) → Except Stopped (List (Int × Nat × Nat) × State)
  | [] => .ok ([], s)
  | (bx, by_) :: rest => do
    let ca : Int := k.dst + (k.pitch * k.h + k.pitch * by_ + 2 * k.zs * bx : Nat)
    let (u, s1) ← s.engLoad id c none k.zs ca
    let (v, s2) ← s1.engLoad id c none k.zs (ca + k.zs)
    let (ps, s3) ← s2.compPixels id c k (k.load8 u) (k.load8 v)
      [(2 * bx, 2 * by_), (2 * bx + 1, 2 * by_), (2 * bx, 2 * by_ + 1), (2 * bx + 1, 2 * by_ + 1)]
    let (out, s4) ← State.compYuv s3 id c k rest
    let luma := ps.filterMap fun p => if p.2.1 then some (p.1, k.zs, k.store8 (lumaOf p.2.2).toNat) else none
    let px := ps.map fun p => p.2.2
    let chroma := if ps.any fun p => p.2.1 then
      [(ca, k.zs, k.store8 (chromaOf cbOf px)), (ca + k.zs, k.zs, k.store8 (chromaOf crOf px))] else []
    return (luma ++ chroma ++ out, s4)

/-- The places of elements given as address, size and value. -/
def State.storeSpots (s : State) (id : CtxId) (c : Cmd) : List (Int × Nat × Nat) → Except Stopped (List (ESpot × Int × Nat × Nat) × State)
  | [] => .ok ([], s)
  | (a, z, v) :: rest => do
    let (x, s1) ← s.engSpot id c .engWrite none z a
    let (xs, s2) ← State.storeSpots s1 id c rest
    return ((x, a, z, v) :: xs, s2)

def State.storeAt (s : State) (id : CtxId) (c : Cmd) : List (ESpot × Int × Nat × Nat) → Except Stopped (Unit × State)
  | [] => .ok ((), s)
  | (x, a, z, v) :: rest => do
    let (_, s1) ← s.engWrite id c x z v (addr64 a)
    State.storeAt s1 id c rest

/-- Some of the writes of a command that has failed may have been performed: which ones is free (R182). -/
def State.someStores (s : State) (id : CtxId) (c : Cmd) (l : List (Int × Nat × Nat)) : State :=
  l.foldl (fun s q =>
    let (v, s1) := s.fresh
    if !(v.getLsbD 0) then s1
    else match s1.engStore id c .engWrite q.2.1 q.2.2 q.1 with
      | .ok (_, s2) => s2
      | .error _ => s1) s

/-- What a place that fails does when it is met: its frame is retired (R75). -/
def State.meetSpot (s : State) (d : Nat) : ESpot → State
  | .mem pa _ => if s.readBad d (lineOf pa) then (s.readCheck d (lineOf pa)).1 else s
  | _ => s

/-- Write elements in order; every address is checked before any of them is written. -/
def State.engStores (s : State) (id : CtxId) (c : Cmd) (l : List (Int × Nat × Nat)) : Except Stopped (Unit × State) :=
  match s.storeSpots id c l with
  | .error (.wait, s1) => .error (.wait, s1)
  | .error (.fail code a, s1) => .error (.fail code a, s1.someStores id c l)
  | .ok (xs, s1) => match s1.storeAt id c xs with
    | .error (.fail code a, _) => .error (.fail code a, (xs.foldl (fun s x => s.meetSpot (ctxDie id c) x.1) s1).someStores id c l)
    | r => r

/-- The pairs of a raster, row by row. -/
def raster (w h : Nat) : List (Nat × Nat) := (List.range h).flatMap fun y => (List.range w).map fun x => (x, y)

/-- FCOMP: the record is checked, the tiles are blended, and the outputs are written (R262). (DEDUCED, log 79) -/
def State.runFcomp (s : State) (id : CtxId) (c : Cmd) (n : Nat) : Except Stopped (Unit × State) := do
  if c.a.toNat % 64 ≠ 0 then failWith s stMALFORMED c.a
  else
    let (hd, s1) ← s.record id c n 0 c.a.toNat 4
    let nl := wfield (hd.getD 2 0) 0 3
    let (ls, s2) ← s1.record id c n 1 ((c.a.toNat : Int) + 32) (if nl ≤ 4 then 4 * nl else 0)
    match compOf hd ls with
    | none => failWith s2 stMALFORMED c.a
    | some k =>
      let (ws, s3) ← if k.fmt = 0 then s2.compRgb id c k (raster k.w k.h) else s2.compYuv id c k (raster (k.w / 2) (k.h / 2))
      s3.engStores id c ws

/-! ### ENCF (R263, R264) -/

/-- An ENCF record. -/
structure Enc where
  src : Int
  w : Nat
  h : Nat
  pitch : Nat
  out : Int
  outsz : Nat
  state : Int
  codec : Nat
  key : Bool
  qp : Nat
  result : Int
deriving DecidableEq, Repr

def encOf (ws : List Word) : Option Enc :=
  let w := fun (i : Nat) => ws.getD i 0
  let wd := wfield (w 1) 0 16
  let ht := wfield (w 1) 16 16
  let codec := wfield (w 5) 0 2
  let qp := wfield (w 5) 8 8
  if wfield (w 1) 48 16 ≠ 0 || wd = 0 || ht = 0 || wd % 2 ≠ 0 || ht % 2 ≠ 0 || 7680 < wd || 4320 < ht || (w 4).toNat % 65536 ≠ 0
      || wfield (w 5) 3 5 ≠ 0 || wfield (w 5) 16 48 ≠ 0 || (2 ≤ codec && 51 < qp) || w 7 ≠ 0 then none
  else some { src := (w 0).toNat, w := wd, h := ht, pitch := wfield (w 1) 32 16, out := (w 2).toNat, outsz := (w 3).toNat,
              state := (w 4).toNat, codec := codec, key := wbit (w 5) 2, qp := qp, result := (w 6).toNat }

/-- Bytes of a sample: 1 of an 8-bit profile, 2 of a 10-bit one. -/
def Enc.zs (e : Enc) : Nat := if e.codec % 2 = 1 then 2 else 1
/-- Coded width or height: HEVC rounds up to a multiple of 16. -/
def Enc.coded (e : Enc) (x : Nat) : Nat := if 2 ≤ e.codec then (x + 15) / 16 * 16 else x

/-- The value of a sample as memory holds it: P010 has it in bits [15:6]. -/
def Enc.load (e : Enc) (v : Nat) : Nat := if e.codec % 2 = 1 then v / 64 else v
def Enc.store (e : Enc) (v : Nat) : Nat := if e.codec % 2 = 1 then v % 1024 * 64 else v % 256

/-- The addresses of the samples of a frame of width w and height h: luma by rows, then the chroma rows. -/
def Enc.samples (e : Enc) (base : Int) (w h pitch : Nat) : List Int :=
  (raster w (h + h / 2)).map fun p => base + (pitch * p.2 + e.zs * p.1 : Nat)

/-- The three planes of a frame from its samples in that order. -/
def planesOf (w h : Nat) (l : List Nat) : List Plane :=
  let c := l.drop (w * h)
  let chroma := fun (k : Nat) => (List.range (w / 2 * (h / 2))).map fun i => c.getD (2 * i + k) 0
  [⟨w, h, l.take (w * h)⟩, ⟨w / 2, h / 2, chroma 0⟩, ⟨w / 2, h / 2, chroma 1⟩]

/-- The samples of a frame in that order, from its three planes' samples. -/
def samplesOf (w h : Nat) (ps : List (List Nat)) : List Nat :=
  let at_ := fun (p i : Nat) => (ps.getD p []).getD i 0
  (List.range (w * h)).map (at_ 0) ++ (List.range (w / 2 * (h / 2))).flatMap fun i => [at_ 1 i, at_ 2 i]

/-- A plane that is padded to a size: its last column and row are repeated. -/
def Plane.pad (p : Plane) (w h : Nat) : Plane :=
  { w := w, h := h, px := (raster w h).map fun q => p.sample (q.1 : Nat) (q.2 : Nat) }

/-- The source at the coded size. -/
def Enc.source (e : Enc) (l : List Nat) : List Plane :=
  let cw := e.coded e.w
  let ch := e.coded e.h
  match planesOf e.w e.h (l.map e.load) with
  | y :: rest => y.pad cw ch :: rest.map fun p => p.pad (cw / 2) (ch / 2)
  | [] => []

/-- An empty frame at the coded size. -/
def Enc.blank (e : Enc) : List Plane := planesOf (e.coded e.w) (e.coded e.h) []

/-- Bytes as writes from an address on. -/
def byteWrites (a : Int) (l : List Byte) : List (Int × Nat × Nat) :=
  (List.range l.length).map fun (i : Nat) => (a + (i : Int), 1, (l.getD i 0).toNat)

/-- The session word of the state area is that of another session: its CODEC, W or H differs. -/
def Enc.other (e : Enc) (session : Word) : Bool := wfield session 0 2 ≠ e.codec || wfield session 16 16 ≠ e.w || wfield session 32 16 ≠ e.h

/-- One frame (R263, R264). When the buffer is too small, how many of its bytes the engine writes is a free value no greater than OUTSZ. (DESIGN CHOICE, log 13) (DEDUCED, log 80) -/
def State.runEncf (s : State) (id : CtxId) (c : Cmd) (n : Nat) : Except Stopped (Unit × State) := do
  if c.a.toNat % 64 ≠ 0 then failWith s stMALFORMED c.a
  else
    let (ws, s1) ← s.record id c n 0 c.a.toNat 8
    match encOf ws with
    | none => failWith s1 stMALFORMED c.a
    | some e =>
      let cw := e.coded e.w
      let ch := e.coded e.h
      let (st, s2) ← s1.engWords id c e.state 2
      let count := (st.getD 0 0).toNat
      let key := e.key || count == 0 || e.other (st.getD 1 0)
      let (src, s3) ← s2.engLoads id c e.zs (e.samples e.src e.w e.h e.pitch)
      let places := e.samples (e.state + 65536) cw ch (e.zs * cw)
      let (prev, s4) ← if key then .ok ([], s3) else s3.engLoads id c e.zs places
      let k : Coding := { pic := { codec := e.codec, w := e.w, h := e.h, qp := e.qp, key := key }, src := e.source src,
                          ref := if key then e.blank else planesOf cw ch (prev.map e.load), recon := e.blank }
      let (bits, recon) := k.run count
      let flag := if key then 2 ^ 36 else 0
      if bits.length ≤ e.outsz then
        let session := e.codec + e.w * 2 ^ 16 + e.h * 2 ^ 32
        s4.engStores id c (byteWrites e.out bits ++ [(e.state, 8, (count + 1) % 2 ^ 64), (e.state + 8, 8, session)] ++
          ((places.zip (samplesOf cw ch recon)).map fun p => (p.1, e.zs, e.store p.2)) ++
          [(e.result, 8, bits.length % 2 ^ 32 + flag), (e.result + 8, 8, 0)])
      else
        let (v, s5) := s4.fresh
        let m := v.toNat % (e.outsz + 1)
        s5.engStores id c (byteWrites e.out (bits.take m) ++ [(e.result, 8, m % 2 ^ 32 + 2 ^ 32 + flag), (e.result + 8, 8, 0)])

end Sys2Proof.Machine
end

