-- ==== Sys2Proof/Machine/Engines.lean ====
section
/-! DEFINITION. Engine commands (08 R179-R184, R190, R191, R474; 11 R245-R260): binding queue registers, issuing commands, the life
of a command on its context, timelines and failures, the version commands, and the delivery of flow transfers. -/
namespace Sys2Proof.Machine

/-! ### Issue (R246-R249, R259, R260) -/

/-- A context's engine is enabled; a shared context's identity is the role's (R247, R249). -/
def State.sharedOk (s : State) (r : Role) (id : CtxId) : Bool :=
  let c := s.ctx id
  c.en && c.vmid == r.vmid && c.asid == r.asid

/-- The targets that accept each command (R249 Table 3). -/
def accepts (t : QTarget) (k : CmdKind) : Bool :=
  match t with
  | .shared _ _ => k != .fcomp && k != .encf && k != .close
  | .localCtx => k != .fcomp && k != .encf && k != .halo && k != .ared
  | .composer => k == .fcomp
  | .encoder => k == .encf

/-- A command as the issuing instruction captures it. -/
def Role.command (r : Role) (rid : Nat) (kind : CmdKind) (o : FmtQ) : Cmd :=
  { kind := kind, a := r.sreg o.a.num, b := r.sreg o.b.num, c := r.sreg o.c.num, qmod := o.qmod, wver := r.wver, sat := r.sat,
    vmid := r.vmid, asid := r.asid, rid := rid, gang := r.gang, rank := r.rank, core := r.core }

/-- Every command instruction (R249): it waits for the side-log window, checks its target, and issues; the context accepts it
later. -/
def cmdWord (kind : CmdKind) (o : FmtQ) (s : State) : Out :=
  onRole s fun rid r =>
    if s.windowOpen rid r then s.setRole rid (r.holdAt .window)
    else match r.queues.find o.q.toNat with
      | none => s.trap rid cQUEUE 0
      | some t =>
        let id := s.ctxIdOf r t
        let bad := match t with
          | .shared _ _ => !(s.sharedOk r id)
          | .localCtx => false
          | .composer | .encoder => !(s.ctx id).en
        if !(accepts t kind) || bad then s.trap rid cQUEUE 0
        else
          let q : IssuedCmd := { rid := rid, ctx := id, cmd := r.command rid kind o, pc := r.ipc, dst := o.d, ws := o.ws.toNat,
                                 after := (s.core r.core).nextOp }
          let s1 := s.setRole rid (r.bindSlot o.ws.toNat [o.d]).advance
          ({ s1 with issued := s1.issued ++ [q] }).send (.engineCommandAccept id)

def execClose (o : FmtQ) (s : State) : Out := cmdWord .close o s
def execCopy (o : FmtQ) (s : State) : Out := cmdWord .copy o s
def execTcopy (o : FmtQ) (s : State) : Out := cmdWord .tcopy o s
def execHalo (o : FmtQ) (s : State) : Out := cmdWord .halo o s
def execAred (o : FmtQ) (s : State) : Out := cmdWord .ared o s
def execPut (o : FmtQ) (s : State) : Out := cmdWord .put o s
def execGet (o : FmtQ) (s : State) : Out := cmdWord .get o s
def execPublish (o : FmtQ) (s : State) : Out := cmdWord .publish o s
def execPin (o : FmtQ) (s : State) : Out := cmdWord .pin o s
def execVret (o : FmtQ) (s : State) : Out := cmdWord .vret o s
def execFcomp (o : FmtQ) (s : State) : Out := cmdWord .fcomp o s
def execEncf (o : FmtQ) (s : State) : Out := cmdWord .encf o s

/-- VIEWSET (R259): vw0 takes no write (R104). -/
def execViewset (o : FmtQ) (s : State) : Out :=
  wordStep s fun r =>
    let k := o.qmod.toNat % 16
    (if k = 0 then r else { r with views := Sparse.set 0 r.views k (wfield (r.sreg o.a.num) 0 32) }).advance

/-- WVERSET (R260): it waits for the window, and for the stores and atomics of the role that a home may still refuse. (DEDUCED, log 72) -/
def execWverset (o : FmtQ) (s : State) : Out :=
  onRole s fun rid r =>
    if s.windowOpen rid r then s.setRole rid (r.holdAt .window)
    else if s.opsDue rid r fun p _ => p.kind == .store || p.kind == .atomic then s.setRole rid (r.holdAt .drain)
    else s.setRole rid { r with wver := wfield (r.sreg o.a.num) 0 32 }.advance

/-! ### Timelines and failures (R155, R182, R252, R474) -/

def isLocal : CtxId → Bool
  | .local _ _ => true
  | _ => false

/-- The words that are due at offsets of the timeline's address are written in turn, each where its own address permits; one whose page
is being moved waits, and those behind it. Then the host is signalled, where it is to be (R252). (DEDUCED, log 170) -/
def State.flushDue (s : State) (id : CtxId) : State :=
  let x := s.ctx id
  match x.dueBy with
  | none => s
  | some c =>
    let put := fun (p : List (Nat × Word) × State) (w : Nat × Word) =>
      if !p.1.isEmpty then (p.1 ++ [w], p.2)
      else match p.2.engStore id c .engWrite 8 w.2.toNat ((sext57 x.tladdr : Nat) + (w.1 : Int)) with
        | .error (.wait, t) => ([w], t)
        | .ok (_, t) | .error (_, t) => ([], t)
    let (left, s1) := x.due.foldl put ([], s)
    let y := s1.ctx id
    if !left.isEmpty then s1.setCtx id { y with due := left }
    else
      let s2 := s1.setCtx id { y with due := [], dueBy := none, dueSignal := false }
      match id with
      | .local g t => if y.dueSignal then s2.signal (.localCtx g t) else s2
      | _ => s2

/-- Words become due at the timeline of a context. -/
def State.tlWords (s : State) (id : CtxId) (c : Cmd) (ws : List (Nat × Word)) (signal : Bool) : State :=
  let x := s.ctx id
  (s.setCtx id { x with due := x.due ++ ws, dueBy := some c, dueSignal := x.dueSignal || signal }).flushDue id

/-- A context stops (R182): the first failure's fields are kept, and on a local context the failure words are written (R252). -/
def State.stopCtx (s : State) (id : CtxId) (c : Cmd) (n code : Nat) (addr : Word) (retry : Option Nat) : State :=
  let x := s.ctx id
  if x.err then s.setCtx id { x with tlRetry := retry.or x.tlRetry }
  else
    let s1 := s.setCtx id { x with err := true, code := code, failn := n, failaddr := addr, tlRetry := retry }
    if isLocal id then s1.tlWords id c [(8, BitVec.ofNat 64 n), (16, BitVec.ofNat 64 code), (24, addr)] true else s1

/-- ENGINE_COMMAND_FAIL: the command ends with a status other than OK. -/
def State.failCmd (s : State) (id : CtxId) (n code : Nat) (addr : Word) : State :=
  match (s.ctx id).entry? n with
  | none => s
  | some q =>
    if q.st == .accepted || q.st == .done then s
    else (s.setEntry id n fun e => { e with st := .failed, sigs := [] }).stopCtx id q.cmd n code addr none

def execEngineCommandFail (ctx : CtxId) (n code addr : Nat) (s : State) : Out :=
  .next (s.failCmd ctx n code (BitVec.ofNat 64 addr))

/-- Commands 1 to n have completed: the timeline is written with n as one release, then COMPLETED (R155, R474). While the context is
stopped, only the commands before the failed one count (R156), and a timeline write that has failed waits for the context to resume. -/
def State.advanceCtx (s : State) (id : CtxId) : State :=
  let c := s.ctx id
  match (c.cmds.takeWhile fun q => q.st == .done).getLast? with
  | none => s
  | some q =>
    if c.err && c.tlRetry.isSome then s
    else
      let ea : Int := (sext57 c.tladdr : Nat)
      match s.engStore id q.cmd .counter 8 q.n ea with
      | .ok (_, s1) =>
        let x := s1.ctx id
        s1.setCtx id { x with completed := q.n, tlRetry := none, cmds := x.cmds.filter fun e => q.n < e.n }
      | .error (.wait, s1) => s1
      | .error (.fail code addr, s1) => s1.stopCtx id q.cmd q.n code addr (some q.n)

/-- A transfer that `p` names is on its way. -/
def State.transferOut (s : State) (p : FlowTransfer → Bool) : Bool :=
  (s.afoot.any fun i => match i with
    | .flowTransferReceive t => p t
    | _ => false) || s.dies.any fun d => d.2.flowHeld.any p || d.2.flowRefused.any p

/-- A transfer or a pending publication of a command is on its way. -/
def State.cmdOut (s : State) (id : CtxId) (n : Nat) : Bool :=
  (s.transferOut fun t => t.ctx == id && t.n == n) || s.dies.any fun d => d.2.pubs.any fun p => p.ctx == id && p.n == n

/-- A counter add of an engine (R186, R238). Across UALink it travels on the flow. -/
def State.engAdd (s : State) (id : CtxId) (c : Cmd) (a : SigAdd) : Except Stopped (Unit × State) := do
  let d := ctxDie id c
  let (x, s1) ← if a.pod then s.podSpot id c 8 (a.addr.toNat : Int) else s.engSpot id c .counter none 8 (a.addr.toNat : Int)
  if a.pod && !(s1.flowFits d a.flow x) then failWith s1 stPERM a.addr
  else
    let (v, s2) ← s1.engRead id c x 8 a.addr
    if 2 ^ 64 ≤ v + a.inc.toNat then failWith s2 stCOUNTER_OVF a.addr
    else (if a.pod then (s2.stamp d a.flow 1).2 else s2).engWrite id c x 8 (v + a.inc.toNat) a.addr

/-- The SIG adds of a command whose faces have no transfer on its way any more: why one fails, and those that are left. (DEDUCED, log 71) -/
def State.runSigs (s : State) (id : CtxId) (c : Cmd) (n : Nat) : List SigAdd → Option (Nat × Word) × List SigAdd × State
  | [] => (none, [], s)
  | a :: rest =>
    let later := fun (s : State) => let (e, left, t) := State.runSigs s id c n rest; (e, a :: left, t)
    if s.transferOut fun t => t.ctx == id && t.n == n && t.face == a.face then later s
    else match s.engAdd id c a with
      | .ok (_, s1) => State.runSigs s1 id c n rest
      | .error (.wait, s1) => later s1
      | .error (.fail code addr, s1) => (some (code, addr), a :: rest, s1)

/-- ENGINE_COMMAND_COMPLETE: the SIG adds of a command that may be made are; a command whose every effect has been performed counts as
completed, and the timeline follows. -/
def State.completeCmd (s : State) (id : CtxId) (n : Nat) : State :=
  match (s.ctx id).entry? n with
  | none => s.advanceCtx id
  | some q =>
    if q.st != .running && q.st != .held then s.advanceCtx id
    else match s.runSigs id q.cmd n q.sigs with
      | (some (code, addr), _, s1) => s1.failCmd id n code addr
      | (none, left, s1) =>
        let ended := q.st == .running && left.isEmpty && !(s1.cmdOut id n)
        (s1.setEntry id n fun e => { e with st := if ended then .done else e.st, sigs := left }).advanceCtx id

def execEngineCommandComplete (ctx : CtxId) (n : Nat) (s : State) : Out := .next (s.completeCmd ctx n)

/-! ### Acceptance (R249 step 5, R184) -/

/-- The accesses before a command in program order have taken their places (R143 item 7). -/
def State.cmdOrdered (s : State) (q : IssuedCmd) : Bool :=
  match s.role? q.rid with
  | none => true
  | some r => !(s.windowOpen q.rid r) && !(((s.core r.core).opsOf q.rid).any fun p => p.1 < q.after && p.2.inOrder)

/-- The engine context of the hardware on which a command runs: a local one is its core's, whichever the team (R179, R184). -/
def hwCtx (id : CtxId) (c : Cmd) : Option CtxId × Nat :=
  match id with
  | .local _ _ => (none, c.core)
  | _ => (some id, 0)

/-- The commands that a context of the hardware has accepted and `p` names. -/
def State.countCmds (s : State) (id : CtxId) (c : Cmd) (p : CmdEntry → Bool) : Nat :=
  (s.ctxs.flatMap fun x => x.2.cmds.filter fun e => p e && hwCtx x.1 e.cmd == hwCtx id c).length

/-- Whether a context may accept a command that is the first issued to it: fewer than 64 of its commands are accepted and not yet
completed. (DEDUCED, log 33) (DEDUCED, log 76) -/
def State.mayAccept (s : State) (q : IssuedCmd) : Bool :=
  (match s.gang? q.cmd.gang with
    | some g => g.state == .resident
    | none => false) &&
  s.countCmds q.ctx q.cmd (·.st != .done) < 64 && (isLocal q.ctx || (s.ctx q.ctx).en) && s.cmdOrdered q

/-- The place of the next command that a context accepts: of those that have been issued to it, the first one, in issue order. -/
def State.nextAccept (s : State) (id : CtxId) : Option Nat :=
  match indexWhere (fun (q : IssuedCmd) => q.ctx == id) s.issued with
  | none => none
  | some i => match s.issued[i]? with
    | none => none
    | some q => if (s.issued.take i).any (fun p => hwCtx p.ctx p.cmd == hwCtx id q.cmd) || !(s.mayAccept q) then none else some i

/-- The context accepts its next command: number ACCEPTED + 1 is written to D, and the slot's count falls. -/
def State.accept (s : State) (id : CtxId) : State :=
  match s.nextAccept id with
  | none => s
  | some i => match s.issued[i]? with
    | none => s
    | some q =>
      let c := s.ctx id
      let n := c.accepted + 1
      let r := (s.role? q.rid).getD {}
      let (cmd, c1) := match id with
        | .local g t => (q.cmd, { c with vmid := q.cmd.vmid, asid := q.cmd.asid, tladdr := (s.teamTimeline g t).toNat % 2 ^ 57 })
        | _ => ({ q.cmd with vmid := c.vmid, asid := c.asid }, c)
      let s1 : State := { s with issued := dropAt s.issued i }
      let s2 := (s1.setCtx id { c1 with accepted := n, cmds := c1.cmds ++ [{ n := n, cmd := cmd, st := .accepted }] }).tickCtx id
        (s.core r.core).pts
      let s3 := s2.updRole q.rid fun p => (p.setSreg q.dst.num (BitVec.ofNat 64 n)).slotDone q.ws
      s3.send (.engineCommandStart id)

def execEngineCommandAccept (ctx : CtxId) (s : State) : Out := .next (s.accept ctx)

/-! ### The version commands (R256, R257) -/

/-- The address of a region descriptor under a VMID (R99, R102); none where the VMID's versioned pages do not resolve. -/
def State.regionAddr? (s : State) (d vmid region : Nat) : Option Nat :=
  let r0 := s.reg d (0x3000 + 16 * vmid)
  if wbit r0 0 then some (wfield r0 20 32 * 2 ^ 20 + 16 * region) else none

/-- A check that fails where the command names no address: FAILADDR is a free value. (DEDUCED, log 82) -/
def failNoAddr {α : Type} (s : State) (code : Nat) : Except Stopped (α × State) :=
  let (v, s1) := s.fresh
  failWith s1 code v

/-- One atomic on a word of a region descriptor, under VMID 0's key, placed by the snapshot engine of the die. A descriptor with a
reserved bit set is NOTPRESENT (R13, R102, R103). -/
def State.regionRmw (s : State) (id : CtxId) (c : Cmd) (word : Nat) (f : Nat → Nat) : Except Stopped (Unit × State) :=
  let d := ctxDie id c
  match s.regionAddr? d c.vmid (wfield c.a 32 16) with
  | none => failNoAddr s stNOTPRESENT
  | some ra =>
    let addr := BitVec.ofNat 64 ra
    if s.homeLost (lineOf ra) then failWith s stHOME_LOST addr
    else
      let p := max (s.ctx id).pts (s.die d).snapPts
      let (w1, t, s1) := s.readIn d (ra + 8) 8 0 p
      if s.readBad d (lineOf ra) then failWith s1 stDATA_ERROR addr
      else if w1 / 2 ^ 33 ≠ 0 then failWith (s1.tickSnap d t) stNOTPRESENT addr
      else
        let (_, w, s2) := s1.rmwIn d (ra + 8 * word) 8 0 p f
        .ok ((), (s2.tickSnap d w).tickCtx id w)

/-- PIN on word 1 of a descriptor: HOLD in [31:0], HEN in [32]. -/
def pinWord (mode v x : Nat) : Nat :=
  if mode = 2 then 0
  else if mode = 1 && x / 2 ^ 32 % 2 = 1 then 2 ^ 32 + min (x % 2 ^ 32) v
  else 2 ^ 32 + v

/-- VRET on word 0: FLOOR in [63:32]. -/
def vretWord (set : Bool) (v x : Nat) : Nat := x % 2 ^ 32 + (if set then v else max (x / 2 ^ 32) v) * 2 ^ 32

/-- A publication among those that are pending: before the later commands of its context (R114). -/
def addPub (p : Pub) : List Pub → List Pub
  | [] => [p]
  | q :: rest => if q.ctx == p.ctx && p.n < q.n then p :: q :: rest else q :: addPub p rest

/-- PUBLISH starts: its checks, then a pending entry of the die's snapshot engine. (DEDUCED, log 171) -/
def State.startPublish (s : State) (id : CtxId) (c : Cmd) (n : Nat) : Except Stopped (Unit × State) :=
  let d := ctxDie id c
  if (s.regionAddr? d c.vmid 0).isNone then failNoAddr s stNOTPRESENT
  else match s.engSpot id c .counter none 8 (c.b.toNat : Int) with
    | .error e => .error e
    | .ok (_, s1) =>
      if 64 ≤ (s1.die d).pubs.length then .error (.wait, s1)
      else
        let p : Pub := { ctx := id, n := n, addr := c.b.toNat, vmid := c.vmid, asid := c.asid, target := c.c.toNat,
                         region := wfield c.a 32 16, version := wfield c.a 0 32 }
        .ok ((), s1.updDie d fun x => { x with pubs := addPub p x.pubs })

/-! ### Start (R181, R182) -/

/-- What a command does when an engine takes it. (DESIGN CHOICE, log 69) -/
def State.runCmd (s : State) (id : CtxId) (c : Cmd) (n : Nat) : Except Stopped (Unit × State) :=
  let one := fun (ok : Tensor → Bool) => do
    let (t, s1) ← s.readTensor id c n 0 c.a ok
    s1.runTensor id c n t c.a
  match c.kind with
  | .close => .ok ((), s)
  | .copy => match copyTensor c with
    | none => failNoAddr s stMALFORMED
    | some t => s.runTensor id c n t c.a
  | .tcopy => one fun t => !t.speer && !t.dpeer
  | .put => one fun t => t.dpeer && !t.speer
  | .get => one fun t => t.speer && !t.dpeer
  | .halo => s.runHalo id c n
  | .ared => s.runAred id c n
  | .publish => s.startPublish id c n
  | .pin => s.regionRmw id c 1 (pinWord (c.qmod.toNat % 4) (wfield c.a 0 32))
  | .vret => s.regionRmw id c 0 (vretWord (c.qmod.getLsbD 0) (wfield c.a 0 32))
  | .fcomp => s.runFcomp id c n
  | .encf => s.runEncf id c n

/-- An engine takes a command, or takes up one that is held. (DEDUCED, log 73) -/
def State.startCmd (s : State) (id : CtxId) (q : CmdEntry) : State :=
  match s.runCmd id q.cmd q.n with
  | .ok (_, s1) => (s1.setEntry id q.n fun e => { e with st := .running }).send (.engineCommandComplete id q.n)
  | .error (.wait, s1) => s1.setEntry id q.n fun e => { e with st := .held }
  | .error (.fail code addr, s1) =>
    (s1.setEntry id q.n fun e => { e with st := .failed }).send (.engineCommandFail id q.n code addr.toNat)

/-- The kind of engine that executes a command: the die's 16 copy engines, its collective engine, or the partition's composer or encoder
(R179, R451). -/
def engineOf : CmdKind → Option Nat
  | .copy | .tcopy | .put | .get => some 0
  | .halo | .ared => some 1
  | .fcomp => some 2
  | .encf => some 3
  | .close | .publish | .pin | .vret => none

/-- An engine has the command: it runs or is held. -/
def CmdEntry.busy (q : CmdEntry) : Bool := q.st == .running || q.st == .held

/-- The first command of a context that may start: the context is not stopped. -/
def Ctx.startable (c : Ctx) : Option CmdEntry :=
  if c.err || (c.cmds.any fun q => q.st == .failed) then none else c.cmds.find? fun q => q.st == .accepted

/-- The place of a context in the round of its die, and its PRIO: the shared contexts by their numbers, then the cores' local ones, which
have no PRIO. -/
def roundPlace (id : CtxId) (c : Cmd) : Nat :=
  match id with
  | .shared _ n => n.val
  | _ => 256 + c.core % 192

/-- Fewer than 16 commands of the context run (R181). -/
def State.underLimit (s : State) (id : CtxId) (q : CmdEntry) : Bool := s.countCmds id q.cmd CmdEntry.busy < 16

/-- An engine is free for the command, and of the contexts whose next command such an engine could take, its context has the highest PRIO
and, of those, comes first after the one that was served last (R181). A composer or encoder serves one context. (DESIGN CHOICE, log 74) -/
def State.served (s : State) (id : CtxId) (q : CmdEntry) : Bool :=
  s.underLimit id q && match engineOf q.cmd.kind with
  | none => true
  | some e =>
    let d := ctxDie id q.cmd
    let same := fun (x : CtxId) (p : CmdEntry) => engineOf p.cmd.kind == some e && ctxDie x p.cmd == d && (e < 2 || x == id)
    let busy := (s.ctxs.flatMap fun x => x.2.cmds.filter fun p => p.busy && same x.1 p).length
    let next := s.ctxs.filterMap fun x => match x.2.startable with
      | some p => if same x.1 p && s.underLimit x.1 p then some (x.2.prio, roundPlace x.1 p.cmd) else none
      | none => none
    let last := (s.die d).lastCtx.get 0 e
    let turn := fun (k : Nat) => (k + 511 - last) % 512
    let prio := (s.ctx id).prio
    busy < (if e = 0 then 16 else 1) &&
      (2 ≤ e || !(next.any fun p => prio < p.1 || (p.1 = prio && turn p.2 < turn (roundPlace id q.cmd))))

/-- ENGINE_COMMAND_START: the context's held commands are tried again, and its first accepted one starts when its turn has come. -/
def State.startCtx (s : State) (id : CtxId) : State :=
  let s1 := (s.ctx id).cmds.foldl (fun s q => if q.st == .held then s.startCmd id q else s) (s.flushDue id)
  match (s1.ctx id).startable with
  | some q =>
    if s1.served id q then
      (match engineOf q.cmd.kind with
       | some e => s1.updDie (ctxDie id q.cmd) fun x => { x with lastCtx := Sparse.set 0 x.lastCtx e (roundPlace id q.cmd) }
       | none => s1).startCmd id q
    else s1
  | none => s1

def execEngineCommandStart (ctx : CtxId) (s : State) : Out := .next (s.startCtx ctx)

/-! ### QBIND (R246, R247, R252) -/

def Role.bindQueue (r : Role) (k : Nat) (t : Option QTarget) : Role :=
  { r with queues := match t with
      | some x => r.queues.put k x
      | none => r.queues.del k }

/-- QBIND (R252). (DEDUCED, log 77) -/
def execQbind (o : FmtQ) (s : State) : Out :=
  onRole s fun rid r =>
    let w := r.sreg o.a.num
    let kind := wfield w 60 4
    let act := wfield w 58 2
    let k := o.q.toNat
    let bind := fun (t : Option QTarget) => s.setRole rid (r.bindQueue k t).advance
    if 5 ≤ kind || act = 3 || (act ≠ 0 && kind ≠ 2) then s.trap rid cQUEUE 0
    else if act ≠ 0 then
      if !r.handler then s.trap rid cPRIV 0
      else
        let id : CtxId := .local r.gang r.team
        let s1 := s.ctxResume id (act = 2)
        let tl := (s.teamTimeline r.gang r.team).toNat % 2 ^ 57
        let s2 := s1.setCtx id { s1.ctx id with tladdr := tl }
        (s2.tlWords id (r.command rid .close o) [(8, 0)] false).setRole rid r.advance
    else if kind = 0 then bind none
    else if kind = 1 then
      let t : QTarget := .shared (dieId (wfield w 8 2)) (Fin.ofNat 256 (wfield w 0 8))
      if s.sharedOk r (s.ctxIdOf r t) then bind (some t) else s.trap rid cQUEUE 0
    else if kind = 2 then bind (some .localCtx)
    else
      let t : QTarget := if kind = 3 then .composer else .encoder
      if (s.ctx (s.ctxIdOf r t)).en then bind (some t) else s.trap rid cQUEUE 0

/-! ### Publications (R114, R256) -/

/-- The counter of a pending publication is at or above its target, as the snapshot engine observes it. -/
def State.pubMet (s : State) (p : Pub) : Bool :=
  match (s.ctx p.ctx).entry? p.n with
  | none => true
  | some q => match s.engSpot p.ctx q.cmd .counter none 8 (p.addr : Int) with
    | .ok (.mem pa _, _) => p.target ≤ s.peek pa 8 p.vmid
    | .ok (.spad g rk off, _) => p.target ≤ s.spadGet g rk off 8
    | .ok (.pod _, _) => true
    | .error (.wait, _) => false
    | .error (.fail _ _, _) => true

/-- One publication whose target is met: the counter is acquired, and PUBV := max(PUBV, v). -/
def State.firePub (s : State) (d : Nat) (p : Pub) : State :=
  let s0 := s.updDie d fun x => { x with pubs := x.pubs.filter fun y => !(y.ctx == p.ctx && y.n == p.n) }
  match (s.ctx p.ctx).entry? p.n with
  | none => s0
  | some q =>
    let c := q.cmd
    match (do
        let (_, s1) ← s0.engAdd p.ctx c { face := 0, addr := BitVec.ofNat 64 p.addr, inc := 0, pod := false, flow := 1 }
        s1.regionRmw p.ctx c 0 fun x => x / 2 ^ 32 * 2 ^ 32 + max (x % 2 ^ 32) p.version) with
    | .ok (_, s1) => s1.send (.engineCommandComplete p.ctx p.n)
    | .error (.wait, _) => s
    | .error (.fail code addr, s1) => s1.failCmd p.ctx p.n code addr

/-- PUBLISH_FIRE: one observation of the die's counters; those at their targets publish in command order. -/
def State.publishFire (s : State) (d : Nat) : State :=
  ((s.die d).pubs.filter s.pubMet).foldl (fun s p => s.firePub d p) s

def execPublishFire (die : Die) (s : State) : Out := .next (s.publishFire die.val)

/-! ### Transfers (R190, R191) -/

/-- The receiver's check of a transfer on flow `f` under a VMID from a source (R190). -/
def DieState.takesFrom (x : DieState) (f vmid kind id : Nat) : Bool :=
  let e := (x.flow f).1
  f = 1 || (wbit e 63 && wfield e 58 4 = vmid &&
    (if wfield e 56 2 = 3 then !(wbit e 62) else wfield e 56 2 = kind && (kind = 1 || wfield e 46 10 = id)))

def DieState.takes (x : DieState) (t : FlowTransfer) : Bool := x.takesFrom t.flow t.vmid t.srcKind t.srcId

/-- What becomes of an arriving sequence number (R191): it is the one expected, or the flow is unordered, and the transfer is delivered; it
is a duplicate; or it is ahead, and the transfer is held where the reorder buffer has a place beside the one that is kept. -/
inductive Arrival where
  | deliver (next : Bool) | duplicate | held | full
deriving DecidableEq, Repr

def DieState.arrival (x : DieState) (f seq : Nat) : Arrival :=
  let e := (x.flow f).1
  if f = 1 || !(wbit e 62) then .deliver false
  else
    let δ := (seq + 2 ^ 32 - wfield e 0 32) % 2 ^ 32
    if δ = 0 then .deliver true
    else if 2 ^ 31 ≤ δ then .duplicate
    else if x.flowHeld.length + x.podHeld.length < 511 then .held else .full

/-- NSEQ of a flow moves on. -/
def State.nextSeq (s : State) (d f : Nat) : State :=
  let e := (s.die d).flow f
  s.setFlow d f (withField e.1 0 32 (wfield e.1 0 32 + 1), e.2)

/-- A transfer is performed at its destination when it is delivered. One of size 0 writes nothing. -/
def State.deliver (s : State) (t : FlowTransfer) : State :=
  let line := lineOf t.pa
  if t.size = 0 then s
  else if s.homeLost line then s.failCmd t.ctx t.n stHOME_LOST t.addr
  else
    let (_, w, s1) := s.rmwIn t.die.val t.pa t.size t.vmid (s.ctx t.ctx).pts fun _ => t.data.toNat
    if s.readBad t.die.val line then s1.failCmd t.ctx t.n stDATA_ERROR t.addr else s1.tickCtx t.ctx w

/-- Deliver the held transfers that have become next. -/
def State.drainFlow (s : State) (d f : Nat) : Nat → State
  | 0 => s
  | n + 1 =>
    let x := s.die d
    let q := wfield (x.flow f).1 0 32
    match x.flowHeld.find? fun t => t.flow == f && t.seq == q with
    | none => s
    | some t =>
      let s1 := s.setDie d { x with flowHeld := x.flowHeld.filter fun u => !(u.flow == f && u.seq == q) }
      State.drainFlow ((s1.nextSeq d f).deliver t) d f n

/-- FLOW_TRANSFER_RECEIVE. -/
def State.receive (s : State) (t : FlowTransfer) : State :=
  let d := t.die.val
  let x := s.die d
  if !(x.takes t) then s.failCmd t.ctx t.n stPERM t.addr
  else match x.arrival t.flow t.seq with
    | .deliver false => s.deliver t
    | .deliver true => ((s.nextSeq d t.flow).deliver t).drainFlow d t.flow 512
    | .duplicate => s.countError d 0x6318
    | .held => s.setDie d { x with flowHeld := x.flowHeld ++ [t] }
    | .full => s.setDie d { x with flowRefused := x.flowRefused ++ [t] }

def execFlowTransferReceive (t : FlowTransfer) (s : State) : Out := .next (s.receive t)

/-- FLOW_RESEND: the senders send the transfers again that the die has refused (R191). (DEDUCED, log 140) -/
def execFlowResend (die : Die) (s : State) : Out :=
  let x := s.die die.val
  .next (x.flowRefused.foldl (fun s t => s.sendMsg t.srcId die.val (.flowTransferReceive t)) (s.setDie die.val { x with flowRefused := [] }))

end Sys2Proof.Machine
end

