-- ==== Sys2Proof/Machine/Agents.lean ====
section
/-! DEFINITION. Accesses of the beam units, the launch scheduler and the save machinery at virtual addresses (03 R77, R86, R87):
reads and writes of elements and words under a walker, every address of a write checked before any byte is written. -/
namespace Sys2Proof.Machine

/-- Why an agent's access does not go on: a cause with its address, a page that is being moved or copied, or a record that breaks
its rules. -/
inductive VStop where
  | cause (c : Nat) (addr : Word) | wait | bad
deriving DecidableEq, Repr

abbrev VStopped := VStop × State

/-- The place of `z` bytes at an exact address: aligned to `z`, outside the on-chip window and the register windows. -/
def State.vaSpot (s : State) (w : Walker) (a : Acc) (z : Nat) (ea : Int) : Except VStopped (Reach × State) :=
  if !canonRange ea z then .error (.cause cNONCANON (addr64 ea), s)
  else
    let va := ea.toNat
    if va % z ≠ 0 then .error (.cause cALIGN (addr64 ea), s)
    else if onChip va then .error (.cause cPERM (addr64 ea), s)
    else match s.walk w a va with
      | (.ok m, s1) => if regionOf m.pa == .window then .error (.cause cPERM (addr64 ea), s1) else .ok (m, s1)
      | (.fault e, s1) => .error (.cause e (addr64 ea), s1)
      | (.mig _, s1) => .error (.wait, s1)
      | (.cow l _, s1) => .error (.wait, s1.requestCopy w.vmid va w.wver l w.die)

/-- Read `z` bytes at a place. -/
def State.vaReadAt (s : State) (w : Walker) (m : Reach) (z : Nat) (addr : Word) : Except VStopped (Nat × State) :=
  let (v, t, s1) := if m.retained.isSome then (let (v, s1) := s.viewIn w.die m.pa z w.vmid; (v, 0, s1))
    else s.readIn w.die m.pa z w.vmid s.clock
  if s.readBad w.die (lineOf m.pa) then .error (.cause cDATA_ERROR addr, s1) else .ok (v, s1.tick t)

/-- Write `z` bytes at a place. -/
def State.vaWriteAt (s : State) (w : Walker) (m : Reach) (z v : Nat) (addr : Word) : Except VStopped (Unit × State) :=
  let (_, t, s1) := s.rmwIn w.die m.pa z w.vmid s.clock fun _ => v
  if s.readBad w.die (lineOf m.pa) then .error (.cause cDATA_ERROR addr, s1) else .ok ((), s1.tick t)

def State.vaRead (s : State) (w : Walker) (a : Acc) (z : Nat) (ea : Int) : Except VStopped (Nat × State) := do
  let (m, s1) ← s.vaSpot w a z ea
  s1.vaReadAt w m z (addr64 ea)

/-- The `n` words from an address on. -/
def State.vaWords (s : State) (w : Walker) (a : Acc) (ea : Int) : Nat → Except VStopped (List Word × State)
  | 0 => .ok ([], s)
  | n + 1 => do
    let (v, s1) ← s.vaRead w a 8 ea
    let (rest, s2) ← State.vaWords s1 w a (ea + 8) n
    return (BitVec.ofNat 64 v :: rest, s2)

/-- The places of writes given as address, size and value. -/
def State.vaSpots (s : State) (w : Walker) (a : Acc) : List (Int × Nat × Nat) → Except VStopped (List (Reach × Int × Nat × Nat) × State)
  | [] => .ok ([], s)
  | (ea, z, v) :: rest => do
    let (m, s1) ← s.vaSpot w a z ea
    let (ms, s2) ← State.vaSpots s1 w a rest
    return ((m, ea, z, v) :: ms, s2)

def State.vaStoreAt (s : State) (w : Walker) : List (Reach × Int × Nat × Nat) → Except VStopped (Unit × State)
  | [] => .ok ((), s)
  | (m, ea, z, v) :: rest => do
    let (_, s1) ← s.vaWriteAt w m z v (addr64 ea)
    State.vaStoreAt s1 w rest

/-- Writes in order, every address checked before any byte is written. -/
def State.vaStores (s : State) (w : Walker) (a : Acc) (l : List (Int × Nat × Nat)) : Except VStopped (Unit × State) := do
  let (ms, s1) ← s.vaSpots w a l
  s1.vaStoreAt w ms

/-- A counter add (R238): past 2^64 − 1 nothing is added. -/
def State.vaAdd (s : State) (w : Walker) (ea : Int) (inc : Nat) : Except VStopped (Unit × State) := do
  let (m, s1) ← s.vaSpot w .counter 8 ea
  let (v, s2) ← s1.vaReadAt w m 8 (addr64 ea)
  if 2 ^ 64 ≤ v + inc then .error (.cause cCOUNTER_OVF (addr64 ea), s2) else s2.vaWriteAt w m 8 (v + inc) (addr64 ea)

/-- The walker of an agent that acts under a VMID and ASID. -/
def agentWalker (die vmid asid wver : Nat) : Walker :=
  { die := die, vmid := vmid, asid := asid, handler := false, wver := wver, view := none, engine := true }

end Sys2Proof.Machine
end

