-- ==== Sys2Proof/Machine/Spawn.lean ====
section
/-! DEFINITION. Spawn queues and pushes to them (19 R398-R401, 21 R431): the descriptor, its field rules, the rank and depth of a
push, its writes, and ENQR and ENQC. -/
namespace Sys2Proof.Machine

/-! ### The descriptor (R398 Table 5) -/

/-- A spawn queue's descriptor: its address and its eight words as they were read. -/
structure SpawnQ where
  qva : Nat
  w : List Word
deriving DecidableEq, Repr

def SpawnQ.word (q : SpawnQ) (i : Nat) : Word := q.w.getD i 0
def SpawnQ.ldesc (q : SpawnQ) : Word := q.word 0
def SpawnQ.ring (q : SpawnQ) : Nat := (q.word 1).toNat
def SpawnQ.depths (q : SpawnQ) : Nat := (q.word 2).toNat
def SpawnQ.rank (q : SpawnQ) : Nat := wfield (q.word 3) 42 8
def SpawnQ.maxrec (q : SpawnQ) : Nat := wfield (q.word 3) 34 8
def SpawnQ.prio (q : SpawnQ) : Nat := wfield (q.word 3) 32 2
def SpawnQ.batch (q : SpawnQ) : Nat := wfield (q.word 3) 24 8
def SpawnQ.rsz (q : SpawnQ) : Nat := wfield (q.word 3) 16 8
def SpawnQ.cap (q : SpawnQ) : Nat := wfield (q.word 3) 0 16
def SpawnQ.tail (q : SpawnQ) : Nat := wfield (q.word 4) 32 32
def SpawnQ.head (q : SpawnQ) : Nat := wfield (q.word 4) 0 32
def SpawnQ.done (q : SpawnQ) : Word := q.word 5
def SpawnQ.taken (q : SpawnQ) : Nat := wfield (q.word 6) 0 32
def SpawnQ.err (q : SpawnQ) : Bool := wbit (q.word 7) 63

/-- The descriptor breaks a field rule of R399. (DEDUCED, log 83) -/
def SpawnQ.bad (q : SpawnQ) : Bool :=
  wfield (q.word 3) 50 14 != 0 || wfield (q.word 6) 32 32 != 0 || wfield (q.word 7) 8 55 != 0 || q.ring % 64 != 0 ||
  q.batch == 0 || q.rsz == 0 || q.cap == 0 || 16 < q.rsz

/-- The place in the ring of the record with index `i`. -/
def SpawnQ.place (q : SpawnQ) (i : Nat) : Nat := i % 2 ^ 32 % q.cap
/-- The address of a record, and of its depth. -/
def SpawnQ.recordAt (q : SpawnQ) (i : Nat) : Int := (q.ring + 16 * q.rsz * q.place i : Nat)
def SpawnQ.depthAt (q : SpawnQ) (i : Nat) : Int := (q.depths + q.place i : Nat)
/-- There is room for `n` more records. -/
def SpawnQ.room (q : SpawnQ) (n : Nat) : Bool := (q.tail + 2 ^ 32 - q.head) % 2 ^ 32 + n ≤ q.cap

/-! ### What the scheduler keeps of a queue -/

/-- The entry of one spawn queue: its descriptor's address under a VMID and ASID. -/
def Spawn.named (x : Spawn) (qva vmid asid : Nat) : Bool := x.qva == qva && x.vmid == vmid && x.asid == asid
def State.spawn? (s : State) (qva vmid asid : Nat) : Option Spawn := s.spawns.find? fun x => x.named qva vmid asid
def State.setSpawn (s : State) (x : Spawn) : State :=
  if s.spawns.any fun y => y.named x.qva x.vmid x.asid then
    { s with spawns := s.spawns.map fun y => if y.named x.qva x.vmid x.asid then x else y }
  else { s with spawns := s.spawns ++ [x] }
/-- The entry of a queue, new where no push has used it. -/
def State.spawnEntry (s : State) (q : SpawnQ) (vmid asid : Nat) : Spawn :=
  (s.spawn? q.qva vmid asid).getD { qva := q.qva, vmid := vmid, asid := asid, rank := q.rank }
def State.updSpawn (s : State) (qva vmid asid : Nat) (f : Spawn → Spawn) : State :=
  match s.spawn? qva vmid asid with
  | none => s
  | some x => s.setSpawn (f x)

/-! ### Pushes (R399, R469) -/

/-- Where the gang of a role came from, and its partition. -/
def State.originOf (s : State) (r : Role) : Origin × Nat := match s.gang? r.gang with
  | some g => (g.origin, g.part)
  | none => (.queue 0, 0)

/-- The depth that a push writes: one more than its batch's for a consumer push of the queue to itself. -/
def pushDepth (who : Origin) (qva vmid asid : Nat) : Nat := match who with
  | .spawn q v a _ _ d => if q = qva ∧ v = vmid ∧ a = asid then d + 1 else 0
  | .queue _ => 0

/-- A consumer push to another queue whose rank is at or below its own queue's. -/
def State.rankRefused (s : State) (who : Origin) (q : SpawnQ) (vmid asid : Nat) : Bool := match who with
  | .spawn o v a _ _ _ =>
    !(o == q.qva && v == vmid && a == asid) && (match s.spawn? o v a with
      | some x => q.rank ≤ x.rank
      | none => false)
  | .queue _ => false

/-- A push of `n` records is refused by the rules of R399. -/
def State.pushRefused (s : State) (who : Origin) (q : SpawnQ) (vmid asid n : Nat) : Bool :=
  q.bad || (n != 0 && (s.rankRefused who q vmid asid || q.maxrec < pushDepth who q.qva vmid asid))

/-- The writes of an accepted push: the records, their depths, and TAIL. A record has as many words as the queue's records. -/
def SpawnQ.writes (q : SpawnQ) (records : List (List Word)) (depth : Nat) : List (Int × Nat × Nat) :=
  let n := records.length
  ((List.range n).flatMap fun i =>
    ((List.range (2 * q.rsz)).map fun (k : Nat) => (q.recordAt (q.tail + i) + 8 * (k : Int), 8, ((records.getD i []).getD k 0).toNat))
      ++ [(q.depthAt (q.tail + i), 1, depth % 256)]) ++
    [(((q.qva + 0x24 : Nat) : Int), 4, (q.tail + n) % 2 ^ 32)]

/-- A push that is accepted: everything it writes, and what the scheduler keeps of its records. -/
def State.writePush (s : State) (w : Walker) (a : Acc) (q : SpawnQ) (p : Push) : Except VStopped (Unit × State) := do
  let (_, s1) ← s.vaStores w a (q.writes p.records p.depth)
  let x := s1.spawnEntry q w.vmid w.asid
  let marks := (List.range p.records.length).map fun i => (q.tail + i) % 2 ^ 32
  return ((), s1.setSpawn { x with origins := marks.foldl (fun t i => t.put i (p.depth, p.part)) x.origins })

/-- No push stands before it, and there is room. -/
def State.pushFits (s : State) (q : SpawnQ) (vmid asid n : Nat) : Bool :=
  (match s.spawn? q.qva vmid asid with
    | some x => x.parked.isEmpty
    | none => true) && q.room n

/-- A push parks. -/
def State.park (s : State) (q : SpawnQ) (vmid asid : Nat) (p : Push) : State :=
  let x := s.spawnEntry q vmid asid
  { s.setSpawn { x with parked := x.parked ++ [{ p with stamp := s.parks }] } with parks := s.parks + 1 }

/-- A parked push that will not be made is forgotten. -/
def State.unpark (s : State) (f : Push → Bool) : State :=
  { s with spawns := s.spawns.map fun x => { x with parked := x.parked.filter fun p => !(f p) } }

/-- What an access at a virtual address that a role's instruction makes whole does to the instruction when it fails: it is taken
as a load (R412). -/
def State.roleStop (s : State) (rid : Nat) (e : VStop) (wr : Bool) : State :=
  match e with
  | .cause c a => match s.role? rid with
    | some r => s.loadFault rid c a r.ipc wr
    | none => s
  | _ => s.holdRole rid .walk

/-! ### ENQR and ENQC (R431) -/

/-- The push of `records` by a role: it is accepted at once, or the role parks. -/
def State.pushRole (s : State) (rid : Nat) (r : Role) (q : SpawnQ) (records : List (List Word)) : State :=
  let (who, part) := s.originOf r
  let p : Push := { rid := rid, query := none, records := records, depth := pushDepth who q.qva r.vmid r.asid, part := part }
  if !(s.pushFits q r.vmid r.asid records.length) then
    (s.park q r.vmid r.asid p).holdRole rid (.parked q.qva r.vmid r.asid)
  else match (s.tick (s.core r.core).pts).writePush (r.walker none) .store q p with
    | .ok (_, s1) => s1.updRole rid fun x => x.advance
    | .error (e, s1) => s1.roleStop rid e true

/-- What ENQR and ENQC share: the checks of the address, the waits, and the descriptor. -/
def enqWord (o : FmtQ) (f : State → Nat → Role → SpawnQ → State) (s : State) : Out :=
  onRole s fun rid r =>
    let qva := (r.sreg o.a.num).toNat
    if s.windowOpen rid r then s.setRole rid (r.holdAt .window)
    else match s.issueCause r .load (qva : Int) 64 64 with
      | some c => s.trap rid c (r.sreg o.a.num)
      | none =>
        if !(s.releaseReady rid r 4) then s.setRole rid (r.holdAt .drain)
        else match s.loadRecord r .load (qva : Int) 8 64 with
          | (.error e, s1) => s1.stopRole rid e false
          | (.ok ws, s1) => f s1 rid r { qva := qva, w := ws }

/-- ENQR. (DEDUCED, log 85) -/
def execEnqr (o : FmtQ) (s : State) : Out :=
  enqWord o (fun s rid r q =>
    let n := (r.sreg o.c.num).toNat
    if s.pushRefused (s.originOf r).1 q r.vmid r.asid n || q.cap < n then s.trap rid cQUEUE (r.sreg o.a.num)
    else if n = 0 then s.setRole rid r.advance
    else match s.loadRecord r .load ((r.sreg o.b.num).toNat : Int) (2 * q.rsz * n) 8 with
      | (.error e, s1) => s1.stopRole rid e false
      | (.ok ws, s1) =>
        s1.pushRole rid r q ((List.range n).map fun i => (ws.drop (2 * q.rsz * i)).take (2 * q.rsz))) s

/-- ENQC. The registers of its records, which the descriptor's RSZ names, obey R32 and R178 as any that an instruction reads. (DEDUCED, log 166) -/
def execEnqc (o : FmtQ) (s : State) : Out :=
  enqWord o (fun s rid r q =>
    let lanes := r.active 0
    let regs : List TrackReg := (List.range (2 * q.rsz)).map fun k => .v (o.b.num + k)
    if !q.bad && r.boundIn regs then s.trap rid cILLEGAL 0
    else if !q.bad && Role.entryIn rid regs s.badRegs then s.abortGang rid cDATA_ERROR 0 r.ipc
    else if s.pushRefused (s.originOf r).1 q r.vmid r.asid lanes.length || q.cap < lanes.length || r.budget < o.b.num + 2 * q.rsz then
      s.trap rid cQUEUE (r.sreg o.a.num)
    else if lanes.isEmpty then s.setRole rid r.advance
    else (s.readEntries rid r regs).pushRole rid r q (lanes.map fun l => (List.range (2 * q.rsz)).map fun k => r.vreg (o.b.num + k) l)) s

end Sys2Proof.Machine
end

