-- ==== Sys2Proof/Machine/Beam.lean ====
section
/-! DEFINITION. The beam unit (16 R338-R358, R469, R470; 17 R359-R370): the records of a query, its visits, splits, results and
spills, and the instructions of CLASS 20. -/
namespace Sys2Proof.Machine

/-! ### The records of a query (R338-R340, R352, R358) -/

def Query.tmin (q : Query) : Option Ext := f32Ext (half q.qrec 3)
def Query.tmax (q : Query) : Option Ext := f32Ext (half q.qrec 7)
def Query.ctl (q : Query) : Nat := half q.qrec 11
def Query.kind (q : Query) : Nat := q.ctl % 4
/-- Columns and rows of the root's frustum, and samples of its cone. -/
def Query.cols (q : Query) : Nat := q.ctl / 2 ^ 4 % 16 + 1
def Query.rows (q : Query) : Nat := q.ctl / 2 ^ 8 % 16 + 1
def Query.samps (q : Query) : Nat := q.ctl / 2 ^ 12 % 256 + 1
def Query.raybase (q : Query) : Nat := half q.qrec 15
def Query.samp (q : Query) : Word := q.qrec.getD 8 0
def Query.donec (q : Query) : Word := q.qrec.getD 9 0
def Query.spawn (q : Query) : Word := q.qrec.getD 10 0
def Query.qid (q : Query) : Nat := half q.qrec 22
def Query.base (q : Query) : Nat := (q.sdesc.getD 0 0).toNat
def Query.size (q : Query) : Nat := wfield (q.sdesc.getD 1 0) 0 40
def Query.root (q : Query) : Nat := wfield (q.sdesc.getD 2 0) 0 32
def Query.viewReg (q : Query) : Nat := wfield (q.sdesc.getD 3 0) 24 4
def Query.budget (q : Query) : Nat := wfield (q.sdesc.getD 3 0) 0 21
def Query.result (q : Query) : Nat := (q.sdesc.getD 4 0).toNat

def Vec.zero : Vec := ⟨Dy.zero, Dy.zero, Dy.zero⟩
def Query.origin (q : Query) : Vec := (vecAt q.qrec 0).getD Vec.zero

/-- The ray indices of a region (R339, R352 Table 6), `cols` being the root's columns. -/
def regionRays (ckind region cols : Nat) : List Nat :=
  if ckind = 1 then
    (List.range (region / 2 ^ 12 % 16 + 1)).flatMap fun y => (List.range (region / 2 ^ 8 % 16 + 1)).map fun x =>
      (region / 2 ^ 4 % 16 + y) * cols + region % 16 + x
  else if ckind = 2 then (List.range (region / 2 ^ 8 % 256 + 1)).map fun i => region % 256 + i
  else [region % 256]

def Query.rays (q : Query) : List Nat := regionRays q.ckind q.region q.cols
/-- The query traces one ray: it has one, whatever its kind, or it splits in place. -/
def Query.single (q : Query) : Bool := q.serial || q.rays.length == 1
/-- The ray that a query traces alone. -/
def Query.ray (q : Query) : Nat := if q.serial then q.curRay else q.rays.headD 0

/-- The two coefficients of a ray (R339 Table 2); none where a sample is not finite. -/
def Query.coeffs (q : Query) (i : Nat) : Option (Dy × Dy) :=
  if q.kind = 1 then some (Dy.ofNat (i % q.cols), Dy.ofNat (i / q.cols))
  else if q.kind = 2 then
    let w := Sparse.get 0 q.samples i
    match f32Fin (wfield w 0 32), f32Fin (wfield w 32 32) with
    | some a, some b => some (a, b)
    | _, _ => none
  else some (Dy.zero, Dy.zero)

/-- The direction of a ray; none where R343 makes it MALFORMED. -/
def Query.dir? (q : Query) (i : Nat) : Option Vec :=
  match vecAt q.qrec 4, vecAt q.qrec 8, vecAt q.qrec 12, q.coeffs i with
  | some d, some u, some v, some (a, b) =>
    let x := direction d u v a b
    if directionFinite d u v a b && !x.isZero then some x else none
  | _, _, _, _ => none
def Query.dir (q : Query) (i : Nat) : Vec := (q.dir? i).getD Vec.zero

/-- The directions that a test covers: the one traced ray's, or all the enclosed rays'. (DEDUCED, log 132) -/
def Query.dirs (q : Query) : List Vec := if q.single then [q.dir q.ray] else q.rays.map q.dir

/-- The region of a query from its root's record. -/
def Query.whole (q : Query) : Nat :=
  if q.kind = 1 then (q.cols - 1) * 2 ^ 8 + (q.rows - 1) * 2 ^ 12 else if q.kind = 2 then (q.samps - 1) * 2 ^ 8 else 0

/-- A region lies within its root's rays. -/
def Query.regionOk (q : Query) : Bool :=
  if q.ckind = 1 then q.kind == 1 && q.region % 16 + q.region / 2 ^ 8 % 16 + 1 ≤ q.cols &&
    q.region / 2 ^ 4 % 16 + q.region / 2 ^ 12 % 16 + 1 ≤ q.rows
  else if q.ckind = 2 then q.kind == 2 && q.region % 256 + q.region / 2 ^ 8 % 256 + 1 ≤ q.samps
  else
    let n := if q.kind = 1 then q.cols * q.rows else if q.kind = 2 then q.samps else 1
    q.ckind == 0 && q.region / 2 ^ 8 % 256 == 0 && q.region % 256 < n

/-- The walker of a query's accesses to records and results, and the one of its reads of the structure. -/
def Query.walker (q : Query) (core : Nat) : Walker := agentWalker (dieOf core) q.vmid q.asid q.wver
def Query.viewer (q : Query) (core : Nat) : Walker := { q.walker core with view := q.view }

/-! ### Reading the records -/

/-- One stage of the start of a query: the query with what it has read, and whether the start goes on. -/
abbrev BeamLoad := Query × Option VStop × State

/-- The fields that a fray record and a spill record share: PATH, CTL and REG (R352 Table 6). -/
def Query.withPlace (q : Query) (path ctl reg : Word) : Query :=
  { q with path := (List.range (wfield ctl 0 5)).map fun i => wfield path (3 * i) 3, nextk := wfield ctl 5 3,
           depth := wfield ctl 8 4, quota := wfield ctl 12 9, ckind := wfield ctl 24 2, region := wfield reg 0 16,
           visits := wfield reg 32 32 }
def placeBad (path ctl reg : Word) (minDepth : Nat) : Bool :=
  wfield path 60 4 != 0 || wfield ctl 26 6 != 0 || wfield ctl 21 3 != 0 || wfield reg 16 16 != 0 || 20 < wfield ctl 0 5 ||
  wfield ctl 8 4 < minDepth || 8 < wfield ctl 8 4 || 256 < wfield ctl 12 9 || wfield ctl 24 2 == 3

/-- The fray record, with .fray. -/
def State.loadFray (s : State) (core : Nat) (q : Query) (addr : Nat) : BeamLoad :=
  match s.vaWords (q.walker core) .engRead (addr : Int) 8 with
  | .error (e, s1) => (q, some e, s1)
  | .ok (ws, s1) =>
    let w := fun i => ws.getD i 0
    if placeBad (w 2) (w 3) (w 4) 1 || wfield (w 5) 32 32 ≠ 0 || w 6 ≠ 0 || w 7 ≠ 0 || (w 0).toNat % 128 ≠ 0 then (q, some .bad, s1)
    else ({ q.withPlace (w 2) (w 3) (w 4) with qaddr := (w 0).toNat, sva := (w 1).toNat, view := some (wfield (w 5) 0 32) }, none, s1)

/-- The query record at QADDR. -/
def State.loadRecordOf (s : State) (core : Nat) (q : Query) (root : Bool) : BeamLoad :=
  match s.vaWords (q.walker core) .engRead (q.qaddr : Int) 16 with
  | .error (e, s1) => (q, some e, s1)
  | .ok (ws, s1) =>
    let q0 := { q with qrec := ws }
    let q1 := if root then { q0 with sva := (ws.getD 12 0).toNat, ckind := q0.kind, region := q0.whole } else q0
    if q1.kind = 3 || !q1.regionOk then (q1, some .bad, s1) else (q1, none, s1)

/-- The structure descriptor. Once RESULT is known, the enclosed rays can have records. -/
def State.loadStruct (s : State) (core : Nat) (q : Query) : BeamLoad :=
  if q.sva % 64 ≠ 0 then (q, some .bad, s)
  else match s.vaWords (q.walker core) .engRead (q.sva : Int) 8 with
    | .error (e, s1) => (q, some e, s1)
    | .ok (ws, s1) => ({ q with sdesc := ws }, none, s1)

/-- Read `n` bytes one by one, the lowest first. -/
def State.vaBytes (s : State) (w : Walker) (a : Acc) (ea : Int) : Nat → Except VStopped (Nat × State)
  | 0 => .ok (0, s)
  | n + 1 => do
    let (b, s1) ← s.vaRead w a 1 ea
    let (rest, s2) ← State.vaBytes s1 w a (ea + 1) n
    return (b + 256 * rest, s2)

/-- The f32 pair of a cone sample: R339 sets SAMP no alignment. (DEDUCED, log 172) -/
def State.vaPair (s : State) (w : Walker) (ea : Nat) : Except VStopped (Nat × State) :=
  if ea % 8 = 0 then s.vaRead w .engRead 8 (ea : Int) else s.vaBytes w .engRead (ea : Int) 8

/-- The samples of the enclosed rays of a cone. -/
def State.loadSamples (s : State) (core : Nat) (q : Query) : List Nat → BeamLoad
  | [] => (q, none, s)
  | i :: rest => match s.vaPair (q.walker core) (q.samp.toNat + 8 * i) with
    | .error (e, s1) => (q, some e, s1)
    | .ok (v, s1) => State.loadSamples s1 core { q with samples := Sparse.set 0 q.samples i (BitVec.ofNat 64 v) } rest

/-- The fields of the record and the descriptor are in range (R338, R340, R343). -/
def Query.fieldsOk (q : Query) : Bool :=
  let d := fun i => q.sdesc.getD i 0
  q.base % 128 == 0 && q.size != 0 && q.size % 128 == 0 && wfield (d 1) 40 24 == 0 && wfield (d 2) 32 32 == 0 &&
  wfield (d 3) 28 36 == 0 && wfield (d 3) 21 3 == 0 && q.budget != 0 && q.budget ≤ 2 ^ 20 && d 5 == 0 && d 6 == 0 && d 7 == 0 &&
  q.ctl / 2 ^ 20 == 0 && q.ctl / 4 % 4 == 0 && half q.qrec 23 == 0 && q.qrec.getD 13 0 == 0 && q.qrec.getD 14 0 == 0 &&
  q.qrec.getD 15 0 == 0 && (q.kind == 2 || q.samp == 0) && q.tmin.isSome && q.tmax.isSome && (vecAt q.qrec 0).isSome &&
  (vecAt q.qrec 4).isSome && (vecAt q.qrec 8).isSome && (vecAt q.qrec 12).isSome

/-- What is left once the record and the descriptor have been read: the checks, the view value, and the samples. (DEDUCED, log 43) -/
def State.loadRest (s : State) (core : Nat) (r : Role) (q : Query) : BeamLoad :=
  let q1 := { q with known := q.result % 32 == 0 }
  if q.result % 32 ≠ 0 || !q1.fieldsOk then (q1, some .bad, s)
  else
    let v := match q1.view with
      | some x => x
      | none => Sparse.get 0 r.views q1.viewReg
    let q2 := { q1 with view := if q1.viewReg = 0 then none else some v }
    match if q2.kind = 2 then s.loadSamples core q2 q2.rays else (q2, none, s) with
    | (q3, some e, s1) => (q3, some e, s1)
    | (q3, none, s1) => if q3.rays.all fun i => (q3.dir? i).isSome then (q3, none, s1) else (q3, some .bad, s1)

/-- A further stage, where the earlier ones went on. -/
def BeamLoad.andThen (x : BeamLoad) (f : State → Query → BeamLoad) : BeamLoad :=
  match x with
  | (q, none, s) => f s q
  | y => y

def State.loadQuery (s : State) (core : Nat) (r : Role) (fray : Bool) (q : Query) (addr : Nat) : BeamLoad :=
  let first := if fray then s.loadFray core q addr else (({ q with qaddr := addr }, none, s) : BeamLoad)
  BeamLoad.andThen (BeamLoad.andThen (BeamLoad.andThen first fun s q => s.loadRecordOf core q (!fray))
    fun s q => s.loadStruct core q) fun s q => s.loadRest core r q

/-- The upper two words of a BEST field break the form of Table 7. -/
def bestBad (c d : Word) : Bool := wfield d 32 32 != 0 || wfield c 48 16 != 0 || 1 < wfield c 32 8 || 4 < wfield c 40 8

/-- A spill record (R358 Table 8). (DEDUCED, log 138) -/
def State.loadSpill (s : State) (core : Nat) (r : Role) (q : Query) (addr : Nat) : BeamLoad :=
  match s.vaWords (q.walker core) .engRead (addr : Int) 64 with
  | .error (e, s1) => (q, some e, s1)
  | .ok (ws, s1) =>
    let w := fun i => ws.getD i 0
    let x := w 28
    let serial := wbit x 32
    let q1 : Query :=
      { q.withPlace (w 25) (w 26) (w 27) with
        qrec := ws.take 16, sdesc := (ws.drop 16).take 8, qaddr := (w 24).toNat, sva := (w 12).toNat,
        view := some (wfield x 0 32), counted := false }
    let one := serial || q1.rays.length == 1
    let bad := q1.qaddr % 128 ≠ 0 || q1.sva % 64 ≠ 0 || placeBad (w 25) (w 26) (w 27) 0 || wfield x 42 22 ≠ 0 || wfield (w 29) 32 32 ≠ 0 || w 30 ≠ 0 || w 31 ≠ 0 ||
      (ws.drop 36).any (fun y => y ≠ 0) || bestBad (w 34) (w 35) || q1.kind = 3 || !q1.regionOk || (wbit x 33 && !one) ||
      (serial && !(q1.rays.contains (wfield x 34 8)))
    if bad then (q1, some .bad, s1)
    else
      let best : Option BestHit := if wfield (w 34) 32 8 = 1 && !serial then
          some { t := (w 32).extractLsb' 0 32, prim := wfield (w 32) 32 32, u := (w 33).extractLsb' 0 32,
                 v := (w 33).extractLsb' 32 32, leaf := wfield (w 34) 0 32 }
        else none
      let q2 : Query :=
        { q1 with
          serial := serial, curRay := wfield x 34 8, splitVisits := q1.visits, best := best,
          written := if serial then q1.rays.filter fun i => i < wfield x 34 8 else [],
          pend := if wbit x 33 then some (wfield (w 29) 0 32) else none }
      s1.loadRest core r q2

/-! ### Handles (R359) -/

/-- The number of a current handle word. (DEDUCED, log 58) -/
def Role.handle? (r : Role) (w : Word) : Option Nat :=
  let n := wfield w 0 4
  if wfield w 20 44 = 0 && (r.beamHeld.find n).isSome && Sparse.get 0 r.beamGen n = wfield w 4 16 then some n else none

/-- The lowest free number is allocated: the role, the number and its handle word. -/
def Role.allocHandle (r : Role) : Role × Nat × Word :=
  let n := ((List.range 16).find? fun i => (r.beamHeld.find i).isNone).getD 0
  let g0 := (Sparse.get 0 r.beamGen n + 1) % 2 ^ 16
  let g := if g0 = 0 then 1 else g0
  ({ r with beamGen := Sparse.set 0 r.beamGen n g, beamHeld := r.beamHeld.put n .running }, n, BitVec.ofNat 64 (n + 16 * g))

def State.setQuery (s : State) (core n : Nat) (q : Query) : State := s.updCore core fun k => { k with queries := k.queries.put n q }
def State.dropQuery (s : State) (core n : Nat) : State := s.updCore core fun k => { k with queries := k.queries.del n }

/-- The query that a role's number names, with its place on the role's core. -/
def State.queryOf (s : State) (rid : Nat) (r : Role) (num : Nat) : Option (Nat × Query) :=
  (s.core r.core).queries.find? fun p => p.2.rid == rid && p.2.handle == num

/-- The query's role has not ended. (DEDUCED, log 139) -/
def State.queryLive (s : State) (q : Query) : Bool := match s.role? q.rid with
  | some r => !r.ended
  | none => false

/-- A query's latest event. -/
def State.beamEvent (s : State) (q : Query) (e : BeamEvent) : State :=
  s.updRole q.rid fun r => if r.ended || (r.beamHeld.find q.handle).isNone then r else { r with beamHeld := r.beamHeld.put q.handle e }

/-- BSAVE's answer: its status in D, and the slot's count falls. -/
def State.answerSave (s : State) (q : Query) (status : Nat) : State :=
  match q.saveTo with
  | none => s
  | some (_, d, ws) => s.updRole q.rid fun r => if r.ended then r else (r.setSreg d.num (BitVec.ofNat 64 status)).slotDone ws

/-- The query is over: its event, and the answer of a BSAVE that came too late. -/
def State.finishQuery (s : State) (core n : Nat) (q : Query) (status : Nat) : State :=
  let e : BeamEvent := .complete status (if status = 4 then q.cause else 0) (if status = 4 then q.faddr else 0) q.nchild q.written.length
  ((s.dropQuery core n).beamEvent q e).answerSave q 1

/-! ### Ends of rays (R351, R353, R357) -/

/-- The rays that still have no record. -/
def Query.left (q : Query) : List Nat := if q.known then q.rays.filter fun i => !(q.written.contains i) else []

/-- An error or an abort ends the query: every ray without a record receives one. -/
def Query.endWith (q : Query) (status cause : Nat) (addr : Word) : Query :=
  { q with ending := true, phase := .records status q.left, cause := cause, faddr := addr, maxStatus := max q.maxStatus status,
           pend := none }

def Query.stopped (q : Query) : VStop → Query
  | .bad => q.endWith 1 0 0
  | .cause c a => q.endWith 4 c a
  | .wait => q

/-- The budget is used up (R351). -/
def Query.outOfVisits (q : Query) : Query :=
  if q.single then { q with phase := .records 2 [q.ray] } else { q with phase := .records 2 q.left }

/-- Every child of the root has been seen: the rays are complete. -/
def Query.done (q : Query) : Query := { q with phase := .records 0 (if q.single then [q.ray] else q.left) }

/-- The words of a result record (R353 Table 7). -/
def resultWords (b : Option BestHit) (status visits : Nat) : List Word :=
  let h := b.getD { t := 0x7F80_0000#32, prim := 0xFFFF_FFFF, u := 0, v := 0, leaf := 0 }
  [BitVec.ofNat 64 (h.t.toNat + h.prim * 2 ^ 32), BitVec.ofNat 64 (h.u.toNat + h.v.toNat * 2 ^ 32),
   BitVec.ofNat 64 (h.leaf + (if b.isSome then 2 ^ 32 else 0) + status * 2 ^ 40), BitVec.ofNat 64 (visits % 2 ^ 32)]

/-- The record of one ray: a single ray keeps its best hit but for MALFORMED, ABORTED and FAULT; a ray of a split made in place
that is not being traced has the visits of the split. -/
def Query.record (q : Query) (ray status : Nat) : List Word :=
  let mine := q.single && ray == q.ray
  resultWords (if mine && (status == 0 || status == 2) then q.best else none) status
    (if q.serial && !mine then q.splitVisits else q.visits)

/-! ### Traversal (R341-R347, R351, R470) -/

/-- A node breaks R343. -/
def nodeBad (ws : List Word) : Bool :=
  let valid := byteAt ws 0x0F
  let leaf := byteAt ws 0x10
  let proc := byteAt ws 0x11
  let on := fun (m k : Nat) => m / 2 ^ k % 2 == 1
  (vecAt ws 0).isNone || (List.range 3).any (fun a => byteAt ws (0x0C + a) == 0 || byteAt ws (0x0C + a) == 255) ||
  (List.range 14).any (fun i => byteAt ws (0x12 + i) != 0) || ws.getD 15 0 != 0 ||
  (List.range 8).any fun k =>
    (!(on valid k) && (on leaf k || on proc k)) || (on proc k && !(on leaf k)) ||
    (on valid k &&
      ((List.range 3).any (fun a => byteAt ws (0x43 + 6 * k + a) < byteAt ws (0x40 + 6 * k + a)) ||
        (let c := byteAt ws (0x70 + k)
         if on proc k then c != 1 else if on leaf k then c == 0 || 32 < c else c != 0)))

def Frame.valid (f : Frame) (k : Nat) : Bool := byteAt f.words 0x0F / 2 ^ k % 2 == 1
def Frame.isLeaf (f : Frame) (k : Nat) : Bool := byteAt f.words 0x10 / 2 ^ k % 2 == 1
def Frame.isProc (f : Frame) (k : Nat) : Bool := byteAt f.words 0x11 / 2 ^ k % 2 == 1
def Frame.child (f : Frame) (k : Nat) : Nat := half f.words (8 + k)
def Frame.count (f : Frame) (k : Nat) : Nat := byteAt f.words (0x70 + k)
/-- A corner of the box of child `k`: bytes from `off` on. -/
def Frame.corner (f : Frame) (off : Nat) : Vec :=
  let o := (vecAt f.words 0).getD Vec.zero
  let c := fun (x : Dy) (a : Nat) => x.add ⟨(byteAt f.words (off + a) : Nat), (byteAt f.words (0x0C + a) : Int) - 127⟩
  ⟨c o.x 0, c o.y 1, c o.z 2⟩
def Frame.low (f : Frame) (k : Nat) : Vec := f.corner (0x40 + 6 * k)
def Frame.high (f : Frame) (k : Nat) : Vec := f.corner (0x43 + 6 * k)

/-- The bound B (R349). -/
def Query.bound (q : Query) : Ext := boundOf (q.tmax.getD .pinf) (if q.single then q.best else none)

def Query.box (q : Query) (f : Frame) (k : Nat) : BoxOut :=
  let ds := q.dirs
  boxTest q.origin (f.low k) (f.high k) (dirLow ds) (dirHigh ds) (q.tmin.getD .pinf) q.bound

/-- One more visit; none where the budget allows none. -/
def Query.visit (q : Query) : Option Query :=
  if !q.counted && (match q.phase with
    | .path => true
    | _ => false) then some q
  else if q.budget < q.visits + 1 then none
  else some { q with visits := q.visits + 1 }

/-- The child after the one taken, in the first of the parents that has one. -/
def unwindUp : List Frame → List Frame
  | [] => []
  | g :: more => if g.next + 1 < 8 then { g with next := g.next + 1 } :: more else unwindUp more

/-- Frames whose children are all seen are left (R470: that reads nothing). -/
def unwind : List Frame → List Frame
  | [] => []
  | f :: rest => if f.next < 8 then f :: rest else unwindUp rest

/-- The query goes on with the child after the one that it has dealt with. -/
def Query.nextChild (q : Query) : Query :=
  let st := match q.stack with
    | [] => []
    | f :: rest => unwind ({ f with next := f.next + 1 } :: rest)
  if st.isEmpty then { q with stack := [] }.done else { q with stack := st, phase := .walking }

/-- A hit of the ray that is traced. -/
def Query.addHit (q : Query) (h : BestHit) : Query := { q with best := keepBest q.best h }

/-- An answer about the procedural leaf at which the ray stands (R366). -/
def Query.answer (q : Query) (prim : Nat) (t : Option (BitVec 32)) : Query :=
  let leaf := match q.stack with
    | f :: _ => f.node
    | [] => 0
  let q1 := match t with
    | none => q
    | some b => match f32Ext b.toNat with
      | none => q
      | some x =>
        if (q.tmin.getD .pinf).le x && x.le (q.tmax.getD .ninf) then q.addHit { t := b, prim := prim, u := 0, v := 0, leaf := leaf }
        else q
  q1.nextChild

/-- Parts of a split (R348), as CKIND and REGION. -/
def Query.parts (q : Query) : List (Nat × Nat) :=
  let x0 := q.region % 16
  let y0 := q.region / 2 ^ 4 % 16
  let w := q.region / 2 ^ 8 % 16 + 1
  let h := q.region / 2 ^ 12 % 16 + 1
  let cx := (w + 1) / 2
  let cy := (h + 1) / 2
  let f := q.region % 256
  let c := q.region / 2 ^ 8 % 256 + 1
  let raw : List (Nat × Nat) :=
    if q.ckind = 1 then
      ([(x0, y0, cx, cy), (x0 + cx, y0, w - cx, cy), (x0, y0 + cy, cx, h - cy), (x0 + cx, y0 + cy, w - cx, h - cy)].filter
        fun p => p.2.2.1 != 0 && p.2.2.2 != 0).map
        fun p => (1, p.1 + p.2.1 * 2 ^ 4 + (p.2.2.1 - 1) * 2 ^ 8 + (p.2.2.2 - 1) * 2 ^ 12)
    else ((List.range 4).map fun m => (f + m * c / 4, (m + 1) * c / 4 - m * c / 4)).filterMap
        fun p => if p.2 = 0 then none else some (2, p.1 + (p.2 - 1) * 2 ^ 8)
  raw.map fun p => match regionRays p.1 p.2 q.cols with
    | [i] => (0, i)
    | _ => p

/-- PATH of a stack (R347): the child taken at each level, the first level lowest. -/
def pathOf (st : List Frame) : Nat :=
  (st.drop 1).reverse.zipIdx.foldl (fun a p => a + p.1.next % 8 * 2 ^ (3 * p.2)) 0

/-- The words PATH, CTL and REG of a query's place (R352 Table 6). -/
def placeWords (q : Query) (st : List Frame) (ckind region depth quota visits : Nat) : List Word :=
  let k := match st with
    | f :: _ => f.next % 8
    | [] => 0
  [BitVec.ofNat 64 (pathOf st),
   BitVec.ofNat 64 ((st.length - 1) + k * 2 ^ 5 + depth * 2 ^ 8 + quota * 2 ^ 12 + ckind * 2 ^ 24 + q.qid * 2 ^ 32),
   BitVec.ofNat 64 (region + visits % 2 ^ 32 * 2 ^ 32)]

/-- The fray records of a split, in child order. -/
def Query.frays (q : Query) : List (List Word) :=
  let ps := q.parts
  let n := ps.length
  let rest := q.quota - n
  ps.zipIdx.map fun p =>
    [BitVec.ofNat 64 q.qaddr, BitVec.ofNat 64 q.sva] ++
      placeWords q q.stack p.1.1 p.1.2 (q.depth + 1) (rest / n + (if p.2 < rest % n then 1 else 0)) q.visits ++
      [BitVec.ofNat 64 (q.view.getD 0), 0, 0]

/-- The split is made in place (R348): the first ray is traced from the split point. (DEDUCED, log 136) -/
def Query.serially (q : Query) : Query :=
  { q with serial := true, splitAt := q.stack, splitVisits := q.visits, curRay := q.left.headD 0, best := none, phase := .walking,
           children := [], leafRead := false }

/-- The query disagrees at its place. -/
def Query.split (q : Query) (leafRead : Bool) : Query :=
  let n := q.parts.length
  if q.depth < 8 && n ≤ q.quota && q.spawn != 0 then { q with phase := .push, children := q.frays, leafRead := leafRead }
  else q.serially

/-- What the next child of the current node asks for. -/
inductive Seek where
  | node (n : Nat) | block (n count : Nat) | proc (prim : Nat) | split | done
deriving DecidableEq, Repr

/-- Children that are missing or missed are passed over; `n` bounds the children that are left on the path. -/
def Query.seek (q : Query) : Nat → Query × Seek
  | 0 => (q, .done)
  | n + 1 => match q.stack with
    | [] => (q, .done)
    | f :: rest =>
      if 8 ≤ f.next then
        let st := unwind (f :: rest)
        if st.isEmpty then ({ q with stack := [] }, .done) else Query.seek { q with stack := st } n
      else
        let k := f.next
        let skip : Query := { q with stack := { f with next := k + 1 } :: rest }
        if !(f.valid k) then Query.seek skip n
        else match q.box f k with
          | .miss => Query.seek skip n
          | .mixed => if q.single then (q, enter f k) else (q, .split)
          | .hit => (q, enter f k)
where
  enter (f : Frame) (k : Nat) : Seek :=
    if f.isProc k then .proc (f.child k) else if f.isLeaf k then .block (f.child k) (f.count k) else .node (f.child k)

/-- Read a node as one visit, and go down to it. (DEDUCED, log 133) -/
def State.visitNode (s : State) (core : Nat) (q : Query) (n : Nat) : Query × State :=
  if 20 < q.stack.length || q.size < 128 * (n + 1) then (q.endWith 1 0 0, s)
  else match q.visit with
    | none => (q.outOfVisits, s)
    | some q1 => match s.vaWords (q.viewer core) .engRead ((q.base + 128 * n : Nat) : Int) 16 with
      | .error (.wait, s1) => (q, s1)
      | .error (e, s1) => (q1.stopped e, s1)
      | .ok (ws, s1) =>
        if nodeBad ws then (q1.endWith 1 0 0, s1) else ({ q1 with stack := { node := n, words := ws, next := 0 } :: q1.stack }, s1)

/-- Read a triangle block as one visit, and test its triangles (R345, R346). -/
def State.visitBlock (s : State) (core : Nat) (q : Query) (n count : Nat) : Query × State :=
  if q.size < 128 * n + 48 * count then (q.endWith 1 0 0, s)
  else match q.visit with
    | none => (q.outOfVisits, s)
    | some q1 => match s.vaWords (q.viewer core) .engRead ((q.base + 128 * n : Nat) : Int) (6 * count) with
      | .error (.wait, s1) => (q, s1)
      | .error (e, s1) => (q1.stopped e, s1)
      | .ok (ws, s1) =>
        let tris := (List.range count).map fun j => triOf q1.origin ((ws.drop (6 * j)).take 6)
        if tris.any Option.isNone then (q1.endWith 1 0 0, s1)
        else
          let ts := tris.filterMap id
          let ds := q1.dirs
          if q1.single then
            let leaf := match q1.stack with
              | f :: _ => f.node
              | [] => 0
            let d := q1.dir q1.ray
            let q2 := ts.foldl (fun (x : Query) t => match t.hit d (q1.tmin.getD .pinf) (q1.tmax.getD .ninf) with
              | some (tb, u, v) => x.addHit { t := BitVec.ofNat 32 tb, prim := t.prim, u := BitVec.ofNat 32 u, v := BitVec.ofNat 32 v,
                                               leaf := leaf }
              | none => x) q1
            (q2.nextChild, s1)
          else if ts.all fun t => t.allMiss (dirLow ds) (dirHigh ds) then (q1.nextChild, s1)
          else (q1.split true, s1)

/-- A procedural leaf, taken as one visit: a single ray presents its primitive. -/
def State.visitProc (s : State) (q : Query) (prim : Nat) : Query × State :=
  match q.visit with
  | none => (q.outOfVisits, s)
  | some q1 =>
    let present := ({ q1 with phase := .proc prim, pend := none }, s.beamEvent q1 (.proc q1.ray prim))
    if !q1.single then (q1.split true, s)
    else present

/-- The path has been read: the query stands at its place. A ray traced in place starts again from the split. -/
def State.atPlace (s : State) (q : Query) : Query × State :=
  let st := match q.stack with
    | f :: rest => { f with next := q.nextk } :: rest
    | [] => []
  let q1 : Query := { q with stack := st, phase := .walking, counted := true, splitAt := if q.serial then st else q.splitAt }
  match q1.serial, q1.pend with
  | false, some p => ({ q1 with pend := none, phase := .proc p }, s)
  | _, _ => (q1, s)

/-! ### Spilling (R358, R367) -/

/-- The 64 words of a query's spill record. -/
def Query.spill (q : Query) : List Word :=
  let st := if q.serial then q.splitAt else q.stack
  let v := if q.serial then q.splitVisits else match q.phase with
    | .push => if q.leafRead then q.visits - 1 else q.visits
    | _ => q.visits
  let pend := match q.phase with
    | .proc p => some p
    | _ => q.pend
  q.qrec ++ q.sdesc ++ [BitVec.ofNat 64 q.qaddr] ++ placeWords q st q.ckind q.region q.depth q.quota v ++
    [BitVec.ofNat 64 (q.view.getD 0 + (if q.serial then 2 ^ 32 else 0) + (if pend.isSome then 2 ^ 33 else 0) +
        (if q.single then q.ray * 2 ^ 34 else 0)),
     BitVec.ofNat 64 (pend.getD 0), 0, 0] ++
    resultWords (if q.single then q.best else none) 0 q.visits ++ List.replicate 28 0

/-- The push of a query that waits for room is forgotten. -/
def State.unparkQuery (s : State) (core n : Nat) : State := s.unpark fun p => p.query == some (core, n)

/-- BSAVE acts at a node boundary. -/
def State.spillQuery (s : State) (core n : Nat) (q : Query) (addr : Nat) : State :=
  match s.vaStores (q.walker core) .engWrite (q.spill.zipIdx.map fun p => ((addr + 8 * p.2 : Nat), 8, p.1.toNat)) with
  | .error (.wait, s1) => s1
  | .error (_, s1) => (s1.setQuery core n { q with saveTo := none }).answerSave q 3
  | .ok (_, s1) =>
    let s2 := ((s1.dropQuery core n).unparkQuery core n).answerSave q 0
    (s2.updRole q.rid fun r => { r with beamHeld := r.beamHeld.del q.handle }).raisePts core s1.clock

/-! ### The steps of a query -/

/-- The query can stop where it is: between two visits, before its push, or where it waits for an answer. (DEDUCED, log 135) -/
def Query.atBoundary (q : Query) : Bool := match q.phase with
  | .records _ _ => false
  | _ => true

/-- One visit of the path, or of the traversal. -/
def State.visitStep (s : State) (core : Nat) (q : Query) : Query × State :=
  match q.phase with
  | .path =>
    let (q1, s1) := match q.stack, q.path with
      | [], _ => s.visitNode core q q.root
      | f :: rest, k :: more =>
        if !(f.valid k) || f.isLeaf k then (q.endWith 1 0 0, s)
        else
          let (q2, s2) := s.visitNode core { q with stack := { f with next := k } :: rest } (f.child k)
          (if q2.stack.length = q.stack.length then q2 else { q2 with path := more }, s2)
      | _, [] => (q, s)
    match q1.phase with
    | .path => if q1.path.isEmpty && !q1.stack.isEmpty then s1.atPlace q1 else (q1, s1)
    | _ => (q1, s1)
  | .walking => match q.seek 256 with
    | (q1, .node n) => s.visitNode core q1 n
    | (q1, .block n c) => s.visitBlock core q1 n c
    | (q1, .proc p) => s.visitProc q1 p
    | (q1, .split) => (q1.split false, s)
    | (q1, .done) => (q1.done, s)
  | .proc p => if s.queryLive q then (q, s) else (q.answer p none, s)
  | _ => (q, s)

/-- BEAM_NODE_VISIT: at a node boundary an abort or a BSAVE acts (R367, R369); else one visit is made. -/
def State.beamVisit (s : State) (core n : Nat) : State :=
  match (s.core core).queries.find n with
  | none => s
  | some q =>
    if q.aborted && q.atBoundary && !q.ending then (s.unparkQuery core n).setQuery core n (q.endWith 3 0 0)
    else match q.saveTo, q.phase with
      | some (addr, _, _), .walking => s.spillQuery core n q addr
      | some (addr, _, _), .push => s.spillQuery core n q addr
      | some (addr, _, _), .proc _ => s.spillQuery core n q addr
      | _, _ =>
        let (q1, s1) := s.visitStep core q
        s1.setQuery core n q1

def execBeamNodeVisit (core q : Nat) (s : State) : Out := .next (s.beamVisit core q)

/-- The push of a query's split waits for room. -/
def State.queryParked (s : State) (core n : Nat) : Bool := s.spawns.any fun x => x.parked.any fun p => p.query == some (core, n)

/-- The children have the query's rays. -/
def State.handedOver (s : State) (core n : Nat) (q : Query) : State :=
  s.finishQuery core n { q with nchild := q.children.length } 5

/-- BEAM_SPLIT_PUSH (R348, R352, R399, R469). (DEDUCED, log 84) (DEDUCED, log 137) -/
def State.beamPush (s : State) (core n : Nat) : State :=
  match (s.core core).queries.find n with
  | none => s
  | some q => match q.phase with
    | .push =>
      if q.aborted || q.saveTo.isSome then s.beamVisit core n
      else if s.queryParked core n then s
      else if q.spawn.toNat % 64 ≠ 0 then s.setQuery core n q.serially
      else
        let w := q.walker core
        match s.vaWords w .engRead (q.spawn.toNat : Int) 8 with
        | .error (e, s1) => s1.setQuery core n (q.stopped e)
        | .ok (ws, s1) =>
          let t : SpawnQ := { qva := q.spawn.toNat, w := ws }
          let k := q.children.length
          if s1.pushRefused q.who t q.vmid q.asid k then s1.setQuery core n q.serially
          else
            let p : Push := { rid := q.rid, query := some (core, n), records := q.children,
                              depth := pushDepth q.who t.qva q.vmid q.asid, part := q.part }
            if !(s1.pushFits t q.vmid q.asid k) then s1.park t q.vmid q.asid p
            else match s1.writePush w .engWrite t p with
              | .error (e, s2) => s2.setQuery core n (q.stopped e)
              | .ok (_, s2) => s2.handedOver core n q
    | _ => s

def execBeamSplitPush (core q : Nat) (s : State) : Out := .next (s.beamPush core q)

/-- Write result records: the query, whether it goes on, and the state. In a query that has ended, a write that raises is left
out (R357). -/
def State.writeRecords (s : State) (core : Nat) (q : Query) (status : Nat) : List Nat → Query × Bool × State
  | [] => ({ q with phase := .records status [] }, true, s)
  | i :: rest =>
    let va := q.result + 32 * (q.raybase + i)
    match s.vaStores (q.walker core) .engWrite ((q.record i status).zipIdx.map fun p => ((va + 8 * p.2 : Nat), 8, p.1.toNat)) with
    | .ok (_, s1) =>
      State.writeRecords s1 core { q with written := q.written ++ [i], toAdd := q.toAdd + 1, maxStatus := max q.maxStatus status }
        status rest
    | .error (.wait, s1) => ({ q with phase := .records status (i :: rest) }, false, s1)
    | .error (.cause c a, s1) =>
      if q.ending then
        let q1 := if q.maxStatus < 4 then { q with maxStatus := 4, cause := c, faddr := a } else q
        State.writeRecords s1 core q1 status rest
      else (q.endWith 4 c a, false, s1)
    | .error (.bad, s1) => (q.endWith 1 0 0, false, s1)

/-- BEAM_RAYS_COMPLETE: the records of rays that have ended, their add to DONEC (R355), and what comes after. -/
def State.beamRecords (s : State) (core n : Nat) : State :=
  match (s.core core).queries.find n with
  | none => s
  | some q => match q.phase with
    | .records status rays =>
      let (q1, go, s1) := s.writeRecords core q status rays
      if !go then s1.setQuery core n q1
      else
        let next := fun (s : State) (q : Query) =>
          match q.serial && !q.ending, q.left with
          | true, i :: _ => s.setQuery core n { q with curRay := i, visits := q.splitVisits, stack := q.splitAt, best := none,
                                                       phase := .walking, pend := none }
          | _, _ => s.finishQuery core n q q.maxStatus
        if q1.toAdd = 0 || q1.donec = 0 then next s1 { q1 with toAdd := 0 }
        else match s1.vaAdd (q1.walker core) (q1.donec.toNat : Int) q1.toAdd with
          | .ok (_, s2) => next s2 { q1 with toAdd := 0 }
          | .error (.wait, s2) => s2.setQuery core n q1
          | .error (.cause c a, s2) =>
            if q1.ending then
              let q2 := if q1.maxStatus < 4 then { q1 with maxStatus := 4, cause := c, faddr := a } else q1
              s2.finishQuery core n q2 q2.maxStatus
            else s2.setQuery core n ({ q1 with toAdd := 0 }.endWith 4 c a)
          | .error (.bad, s2) => s2.finishQuery core n q1 q1.maxStatus
    | _ => s

def execBeamRaysComplete (core q : Nat) (s : State) : Out := .next (s.beamRecords core q)

/-- SPAWN_PUSH_ACCEPT: the first parked push of the queue is made once there is room (R399). -/
def State.acceptPush (s : State) (qva vmid asid : Nat) : State :=
  match s.spawn? qva vmid asid with
  | none => s
  | some x => match x.parked with
    | [] => s
    | p :: _ =>
      let query := match p.query with
        | some (c, n) => (match (s.core c).queries.find n with
          | some q => some (c, n, q)
          | none => none)
        | none => none
      let r := (s.role? p.rid).getD {}
      let (w, rd, wr) : Walker × Acc × Acc := match query with
        | some (c, _, q) => (q.walker c, .engRead, .engWrite)
        | none => (r.walker none, .load, .store)
      let forget := fun (s : State) => s.unpark fun y => y.stamp == p.stamp
      let fail := fun (s : State) (e : VStop) => match e, query with
        | .wait, _ => s
        | e, some (c, n, q) => (forget s).setQuery c n (q.stopped e)
        | e, none => (forget s).roleStop p.rid e true
      match s.vaWords w rd (qva : Int) 8 with
      | .error (e, s1) => fail s1 e
      | .ok (ws, s1) =>
        let t : SpawnQ := { qva := qva, w := ws }
        if !(t.room p.records.length) || t.bad then s1
        else match (s1.tick (s1.core r.core).pts).writePush w wr t p with
          | .error (e, s2) => fail s2 e
          | .ok (_, s2) => match query with
            | some (c, n, q) => (forget s2).handedOver c n q
            | none => (forget s2).updRole p.rid fun y => y.advance

def execSpawnPushAccept (qva vmid asid : Nat) (s : State) : Out := .next (s.acceptPush qva vmid asid)

/-! ### BSET, BQ and BRESUME (R362, R363, R368) -/

def execBset (o : FmtQ) (s : State) : Out :=
  wordStep s fun r =>
    let n := wfield (r.sreg o.a.num) 0 5
    { r with beamLimit := if n = 0 ∨ 16 < n then 16 else n }.advance

/-- The role stands at a BQ or a BRESUME. -/
def Role.atBeam (r : Role) : Bool :=
  !r.ended && (match r.clause with
    | some c => c.issued && (match decodeWord (c.words.getD c.idx 0) with
      | .ok (.bq _) | .ok (.bresume _) => true
      | _ => false)
    | none => false)

/-- A role of the core is held at a BQ or a BRESUME that came earlier (R363). (DEDUCED, log 59) -/
def State.beamAhead (s : State) (rid : Nat) (r : Role) : Bool :=
  ((s.core r.core).waitBeam.takeWhile fun x => x != rid).any fun x => match s.role? x with
    | some q => q.core == r.core && q.atBeam
    | none => false

def State.beamRoom (s : State) (rid : Nat) (r : Role) : Bool :=
  r.beamHeld.length < r.beamLimit && (s.core r.core).queries.length < 16 && !(s.beamAhead rid r)

/-- What BQ and BRESUME share: the checks of the address, the holds, and the start of the query that `load` reads. -/
def beamStart (o : FmtQ) (n align : Nat) (load : State → Nat → Role → Query → Nat → BeamLoad) (s : State) : Out :=
  onRole s fun rid r =>
    let a := r.sreg o.a.num
    if s.windowOpen rid r then s.setRole rid (r.holdAt .window)
    else if !(canonRange (a.toNat : Int) n) then s.trap rid cNONCANON a
    else if a.toNat % align ≠ 0 then s.trap rid cALIGN a
    else if ((s.core r.core).opsOf rid).any fun p => p.2.inOrder then s.setRole rid (r.holdAt .drain)
    else if !(s.beamRoom rid r) then
      (s.updCore r.core fun k => if k.waitBeam.contains rid then k else { k with waitBeam := k.waitBeam ++ [rid] }).setRole rid
        (r.holdAt .beam)
    else
      let (who, part) := s.originOf r
      let q0 : Query := { rid := rid, handle := 0, gang := r.gang, vmid := r.vmid, asid := r.asid, wver := r.wver, who := who,
                          part := part }
      match load (s.tick (s.core r.core).pts) r.core r q0 a.toNat with
      | (_, some .wait, s1) => s1.setRole rid (r.holdAt .walk)
      | (q, e, s1) =>
        let (r1, num, h) := r.allocHandle
        let q1 := match e with
          | some x => q.stopped x
          | none => if (q.tmax.getD .ninf).lt (q.tmin.getD .pinf) then { q with phase := .records 0 q.left } else q
        let q2 := { q1 with handle := num }
        let k := s1.core r.core
        let s2 := (s1.setCore r.core { k with queries := k.queries.put k.nextQuery q2, nextQuery := k.nextQuery + 1,
                                               waitBeam := k.waitBeam.filter fun x => x != rid }).setRole rid
          (((r1.bindSlot o.ws.toNat [o.d]).setSreg o.d.num h).slotDone o.ws.toNat).advance
        match e, q2.pend with
        | none, some p => s2.beamEvent q2 (.proc q2.ray p)
        | _, _ => s2

def execBq (o : FmtQ) (s : State) : Out :=
  let fray := o.qmod.getLsbD 0
  let n := if fray then 64 else 128
  beamStart o n n (fun s core r q a => s.loadQuery core r fray q a) s

def execBresume (o : FmtQ) (s : State) : Out := beamStart o 512 512 (fun s core r q a => s.loadSpill core r q a) s

/-! ### BRES, BPROC, BSAVE and BABORT (R364-R369) -/

/-- The event word (R364 Table 3). -/
def BeamEvent.word : BeamEvent → Word
  | .running => 0x1000_0000_0000_0000#64
  | .complete st cause _ nchild nrays =>
    BitVec.ofNat 64 (2 * 2 ^ 60 + st * 2 ^ 56 + cause * 2 ^ 48 + nchild * 2 ^ 16 + (if st = 5 then 0 else nrays % 2 ^ 16))
  | .proc ray prim => BitVec.ofNat 64 (3 * 2 ^ 60 + ray % 256 * 2 ^ 32 + prim % 2 ^ 32)

/-- What BRES.addr writes: the address kept for a query that completed with FAULT. -/
def BeamEvent.addr : BeamEvent → Word
  | .complete st _ a _ _ => if st = 4 then a else 0
  | _ => 0

def execBres (o : FmtQ) (s : State) : Out :=
  onRole s fun rid r =>
    let poll := o.qmod.getLsbD 0
    let addr := o.qmod.getLsbD 1
    let give := fun (r : Role) (w : Word) =>
      s.setRole rid (((r.bindSlot o.ws.toNat [o.d]).setSreg o.d.num w).slotDone o.ws.toNat).advance
    match r.handle? (r.sreg o.a.num) with
    | none => give r 0
    | some n => match r.beamHeld.find n with
      | none => give r 0
      | some .running => if poll then give r BeamEvent.running.word else s.setRole rid (r.holdAt (.event n))
      | some e =>
        if addr then give r e.addr
        else match e with
          | .complete _ _ _ _ _ => give { r with beamHeld := r.beamHeld.del n } e.word
          | _ => give r e.word

/-- BPROC (R366): an answer to a query that does not stand at its procedural leaf is lost, and its event stays. -/
def execBproc (o : FmtQ) (s : State) : Out :=
  onRole s fun rid r =>
    if s.windowOpen rid r then s.setRole rid (r.holdAt .window)
    else
      let t : Option (BitVec 32) := if o.qmod.getLsbD 0 then none else some ((r.sreg o.b.num).extractLsb' 0 32)
      let s1 := s.setRole rid r.advance
      match r.handle? (r.sreg o.a.num) with
      | none => s1
      | some h => match r.beamHeld.find h, s.queryOf rid r h with
        | some (.proc _ _), some (n, q) => match q.phase with
          | .proc p => (s1.beamEvent q .running).setQuery r.core n (q.answer p t)
          | _ => s1
        | _, _ => s1

/-- BSAVE (R367): it is answered when the query stops. (DEDUCED, log 134) -/
def execBsave (o : FmtQ) (s : State) : Out :=
  onRole s fun rid r =>
    let a := r.sreg o.b.num
    if s.windowOpen rid r then s.setRole rid (r.holdAt .window)
    else if !(canonRange (a.toNat : Int) 512) then s.trap rid cNONCANON a
    else if a.toNat % 512 ≠ 0 then s.trap rid cALIGN a
    else
      let r1 := (r.bindSlot o.ws.toNat [o.d])
      let give := fun (x : Nat) => s.setRole rid ((r1.setSreg o.d.num (BitVec.ofNat 64 x)).slotDone o.ws.toNat).advance
      match r.handle? (r.sreg o.a.num) with
      | none => give 2
      | some h => match s.queryOf rid r h with
        | none => give 1
        | some (n, q) =>
          if q.saveTo.isSome then s.setRole rid (r.holdAt (.event h))
          else (s.setRole rid r1.advance).setQuery r.core n { q with saveTo := some (a.toNat, o.d, o.ws.toNat) }

/-- BABORT (R369). -/
def execBabort (o : FmtQ) (s : State) : Out :=
  onRole s fun rid r =>
    if s.windowOpen rid r then s.setRole rid (r.holdAt .window)
    else
      let s1 := s.setRole rid r.advance
      match r.handle? (r.sreg o.a.num) with
      | none => s1
      | some h => match s.queryOf rid r h with
        | none => s1
        | some (n, q) => (s1.beamEvent q .running).setQuery r.core n { q with aborted := true }

end Sys2Proof.Machine
end

