-- ==== Sys2Proof/Machine/Convert.lean ====
section
/-! DEFINITION. The conversion instructions of CLASS 8 (13 R299-R304). -/
namespace Sys2Proof.Machine

/-- One converted element: its pattern and the flags of the read and of the conversion (R277). -/
def cvtElem (dst src : Ty) (m : RMode) (sat : Bool) (p : Nat) : Nat × Flags :=
  let x := readElem src p
  let y := convert dst m sat x.1
  (y.1, x.2 ||| y.2)

/-- The elements that a CVT converts in lane `l`: one, or all of a packed word (R299, R300). -/
def cvtSources (dst src : Ty) (pk : Bool) (x : Word) : List Nat :=
  if pk then (List.range (64 / max src.width dst.width)).map fun i => packedElem src.width x i
  else [x.toNat % 2 ^ src.width]

/-- The lanes that an instruction runs on: lane 0 stands for the scalar unit (R36). -/
def Role.runs (r : Role) (d : RegName) (mask : BitVec 3) : List Nat := if d.isScalar then [0] else r.active mask

/-- AMAX after folding source elements (R302). -/
def Role.fold (r : Role) (src : Ty) (ps : List Nat) : Role :=
  { r with amax := ps.foldl (fun a p => foldAmax a (readElem src p).1) r.amax }

/-- CVT: MOD[3:0] the source type, MOD[4] .amax, MOD[5] .pk (R299, R300, R302). -/
def execCvt (o : FmtA) (s : State) : Out :=
  let src := Ty.ofCode (o.mod.extractLsb' 0 4)
  let pk := o.mod.getLsbD 5
  wordStep s fun r =>
    let q := r.write o.d o.mask fun l =>
      let ys := (cvtSources o.ty src pk (r.read o.a l)).map fun p => cvtElem o.ty src (r.mode o.rm) r.sat p
      (pat (packWord o.ty.width (ys.map (·.1))), ys.foldl (fun a y => a ||| y.2) 0)
    (if o.mod.getLsbD 4 then
      q.fold src ((r.runs o.d o.mask).flatMap fun l => cvtSources o.ty src pk (r.read o.a l))
    else q).advance

/-- CVTS: the conversion of the exact product a × b, with one rounding (R301). -/
def execCvts (o : FmtA) (s : State) : Out :=
  let src := Ty.ofCode (o.mod.extractLsb' 0 4)
  wordStep s fun r =>
    let q := r.write o.d o.mask fun l =>
      let a := (src.fmt?.getD .f32).decode (r.elem src o.a l)
      let b := (src.fmt?.getD .f32).decode (r.elem src o.b l)
      let y := match a.mul b with
        | none => convert o.ty (r.mode o.rm) r.sat (.flt (.nan true))
        | some v => convert o.ty (r.mode o.rm) r.sat (.flt v)
      -- a signalling NaN operand sets INV whatever the destination (R268)
      (pat y.1, y.2 ||| (if a.isSnan || b.isSnan then flINV else 0))
    (if o.mod.getLsbD 4 then q.fold src ((r.runs o.d o.mask).map fun l => r.elem src o.a l) else q).advance

/-- E(b) of PACK: bits of B, or for t2 and b1 the i64 integer converted with no flag (R303). -/
def packElem (t : Ty) (b : Word) : Nat :=
  match t with
  | .t2 => t2Code b.toInt
  | .b1 => if b.toInt > 0 then 1 else 0
  | _ => b.toNat % 2 ^ t.width

def execPack (o : FmtA) (s : State) : Out :=
  wordStep s fun r =>
    (r.write o.d o.mask fun l =>
      (insertElem o.ty.width (r.read o.a l) o.mod.toNat (packElem o.ty (r.read o.b l)), 0)).advance

/-- The element that UNPACK writes: i types sign-extended to 64 bits, t2 as −1, 0 or +1 (R303). -/
def unpackElem (t : Ty) (p : Nat) : Word × Flags :=
  match t with
  | .t2 => match readElem .t2 p with
    | (.int i, fl) => (BitVec.ofInt 64 i, fl)
    | (_, fl) => (0, fl)
  | _ => if t.isSigned then (BitVec.ofInt 64 (toSigned t.width p), 0) else (pat p, 0)

def execUnpack (o : FmtA) (s : State) : Out :=
  wordStep s fun r =>
    (r.write o.d o.mask fun l => unpackElem o.ty (packedElem o.ty.width (r.read o.a l) o.mod.toNat)).advance

/-- AMAXRD writes the bits of AMAX (R304). -/
def execAmaxrd (o : FmtA) (s : State) : Out := wordStep s fun r => (r.write o.d o.mask fun _ => (r.amax, 0)).advance
/-- AMAXCLR sets AMAX to +0.0 (R304). -/
def execAmaxclr (_o : FmtA) (s : State) : Out := wordStep s fun r => { r with amax := 0 }.advance

end Sys2Proof.Machine
end

