-- ==== Sys2Proof/Machine/Float.lean ====
section
/-! DEFINITION. The floating-point instructions of CLASS 4 to 6 (13 R293-R298), over the exact arithmetic of
Machine/Numeric.lean. -/
namespace Sys2Proof.Machine

/-- The float format of an instruction's TYPE; a legal word has one (R293). -/
def fmtOf (t : Ty) : Fmt := t.fmt?.getD .f64

/-- The shared form: `f` gives the result bits and the flags from the format, the rounding mode and the element bits. -/
def floatA (o : FmtA) (f : Fmt → RMode → Nat → Nat → Nat → Nat × Flags) (s : State) : Out :=
  wordStep s fun r =>
    (r.write o.d o.mask fun l =>
      let x := f (fmtOf o.ty) (r.mode o.rm) (r.elem o.ty o.a l) (r.elem o.ty o.b l) (r.elem o.ty o.c l)
      (pat x.1, x.2)).advance

/-! ### CLASS 4 -/

def execFadd (o : FmtA) (s : State) : Out := floatA o (fun f m a b _ => fAdd f m (f.decode a) (f.decode b)) s
def execFsub (o : FmtA) (s : State) : Out := floatA o (fun f m a b _ => fAdd f m (f.decode a) (f.decode b).neg) s
def execFmul (o : FmtA) (s : State) : Out := floatA o (fun f m a b _ => fMul f m (f.decode a) (f.decode b)) s
/-- a × b + c. -/
def execFma (o : FmtA) (s : State) : Out :=
  floatA o (fun f m a b c => fMulAdd f m (f.decode a) (f.decode b) (f.decode c)) s
/-- a × b − c. -/
def execFms (o : FmtA) (s : State) : Out :=
  floatA o (fun f m a b c => fMulAdd f m (f.decode a) (f.decode b) (f.decode c).neg) s
/-- c − a × b: the addends are c and −(a × b). -/
def execFnma (o : FmtA) (s : State) : Out :=
  floatA o (fun f m a b c => fMulAdd f m (f.decode a).neg (f.decode b) (f.decode c)) s
def execFmin (o : FmtA) (s : State) : Out := floatA o (fun f _ a b _ => fMinMax f false a b) s
def execFmax (o : FmtA) (s : State) : Out := floatA o (fun f _ a b _ => fMinMax f true a b) s

/-! ### CLASS 5 -/

/-- A sign operation: a NaN gives the canonical NaN, and no flag is set (R295). -/
def signOp (f : Fmt) (a : Nat) (neg : Bool) : Nat × Flags :=
  if (f.decode a).isNan then (f.nanBits, 0) else (signed f neg (a % f.signBit), 0)
/-- The sign bit of an element. -/
def signOf (f : Fmt) (a : Nat) : Bool := a / f.signBit % 2 == 1

def execFabs (o : FmtA) (s : State) : Out := floatA o (fun f _ a _ _ => signOp f a false) s
def execFneg (o : FmtA) (s : State) : Out := floatA o (fun f _ a _ _ => signOp f a (!signOf f a)) s
def execFcpys (o : FmtA) (s : State) : Out := floatA o (fun f _ a b _ => signOp f a (signOf f b)) s

/-- The truth of an FCMP condition (R296). -/
def fcmpHolds (code : Nat) (x y : FVal) : Bool :=
  let un := x.isNan || y.isNan
  let c := fCompare x y
  match code with
  | 0 => !un && c == .eq
  | 1 => un || c != .eq
  | 2 => !un && c == .lt
  | 3 => !un && c != .gt
  | 4 => !un && c == .gt
  | 5 => !un && c != .lt
  | 6 => un
  | _ => !un
/-- INV of an FCMP: any NaN for an order condition, else a signalling NaN (R296). -/
def fcmpFlags (code : Nat) (x y : FVal) : Flags :=
  if (2 ≤ code && code ≤ 5 && (x.isNan || y.isNan)) || x.isSnan || y.isSnan then flINV else 0

/-- FCMP: MD (MOD[3]) selects a mask destination; a scalar FCMP writes CC (R296). -/
def execFcmp (o : FmtA) (s : State) : Out :=
  let f := fmtOf o.ty
  let code := o.mod.toNat % 8
  wordStep s fun r =>
    let x := fun l => f.decode (r.elem o.ty o.a l)
    let y := fun l => f.decode (r.elem o.ty o.b l)
    let t := fun l => fcmpHolds code (x l) (y l)
    if o.mod.getLsbD 3 then
      ((r.writeMask o.d.toNat o.mask t).raiseFlags
        ((r.active o.mask).foldl (fun a l => a ||| fcmpFlags code (x l) (y l)) 0)).advance
    else
      ((r.write o.d o.mask fun l => (if t l then 1 else 0, fcmpFlags code (x l) (y l))).writeCC o.d
        (ccFcmp (x 0) (y 0))).advance

/-- FCLASS writes a 64-bit integer with one bit set (R297). -/
def execFclass (o : FmtA) (s : State) : Out := floatA o (fun f _ a _ _ => (2 ^ fClass f a, 0)) s

/-- FSCALE reads b as the 64-bit two's complement value of B (R298). -/
def execFscale (o : FmtA) (s : State) : Out :=
  wordStep s fun r =>
    (r.write o.d o.mask fun l =>
      let x := fScale (fmtOf o.ty) (r.mode o.rm) (r.elem o.ty o.a l) (r.read o.b l).toInt
      (pat x.1, x.2)).advance
def execFgetexp (o : FmtA) (s : State) : Out := floatA o (fun f _ a _ _ => fGetExp f a) s
def execFrnd (o : FmtA) (s : State) : Out := floatA o (fun f m a _ _ => fRnd f m a) s

/-! ### CLASS 6 -/

def execFdiv (o : FmtA) (s : State) : Out := floatA o (fun f m a b _ => fDiv f m (f.decode a) (f.decode b)) s
def execFsqrt (o : FmtA) (s : State) : Out := floatA o (fun f m a _ _ => fSqrt f m (f.decode a)) s
def execFrcpe (o : FmtA) (s : State) : Out := floatA o (fun f _ a _ _ => fRcpe f (f.decode a)) s
def execFrsqe (o : FmtA) (s : State) : Out := floatA o (fun f _ a _ _ => fRsqe f (f.decode a)) s
def execFexp2 (o : FmtA) (s : State) : Out := floatA o (fun f _ a _ _ => fExp2 f (f.decode a)) s
def execFlog2 (o : FmtA) (s : State) : Out := floatA o (fun f _ a _ _ => fLog2 f (f.decode a)) s

end Sys2Proof.Machine
end

