-- ==== Sys2Proof/Machine/Lanes.lean ====
section
/-! DEFINITION. The cross-lane instructions of CLASS 9 (13 R305-R309). -/
namespace Sys2Proof.Machine

/-- The data movers: lane `l` of D takes the lane of A that `src` names, or 0 where it names none (R306). -/
def moverA (o : FmtA) (src : Role → Nat → Option Nat) (s : State) : Out :=
  wordStep s fun r =>
    (r.setLanes o.d.num (r.active o.mask) fun l =>
      match src r l with
      | some j => if j < r.nlanes then r.vreg o.a.num j else 0
      | none => 0).advance

/-- Lane l + k with k signed, when it is not negative. -/
def shifted (l : Nat) (k : Int) : Option Nat := if (l : Int) + k < 0 then none else some ((l : Int) + k).toNat

def execVbcast (o : FmtA) (s : State) : Out := moverA o (fun r _ => some (r.sreg o.b.num).toNat) s
def execVshfl (o : FmtA) (s : State) : Out := moverA o (fun r l => some (r.vreg o.b.num l).toNat) s
def execVshift (o : FmtA) (s : State) : Out := moverA o (fun r l => shifted l (r.sreg o.b.num).toInt) s
def execVrot (o : FmtA) (s : State) : Out :=
  moverA o (fun r l => some (((l : Int) + (r.sreg o.b.num).toInt) % (r.nlanes : Int)).toNat) s

/-- Identity(op) of Table 9 (R305). -/
def redIdentity (t : Ty) (code : Nat) : Nat :=
  match code with
  | 1 => patternOf t.width t.hi
  | 2 => patternOf t.width t.lo
  | 3 => 2 ^ t.width - 1
  | 8 => (t.fmt?.getD .f64).infBits
  | 9 => signed (t.fmt?.getD .f64) true (t.fmt?.getD .f64).infBits
  | _ => 0

/-- Combine(op, acc, x) with its flags (R307). -/
def combine (t : Ty) (code : Nat) (m : RMode) (a x : Nat) : Nat × Flags :=
  let f := t.fmt?.getD .f64
  match code with
  | 0 => ((a + x) % 2 ^ t.width, 0)
  | 1 => (if t.toInt x < t.toInt a then x else a, 0)
  | 2 => (if t.toInt a < t.toInt x then x else a, 0)
  | 3 => (a &&& x, 0)
  | 4 => (a ||| x, 0)
  | 5 => (a ^^^ x, 0)
  | 7 => fAdd f m (f.decode a) (f.decode x)
  | 8 => fMinMax f false a x
  | _ => fMinMax f true a x

/-- The running values of a reduction in ascending lane order, each with the flags so far, first value as it is read. -/
def scanGo (t : Ty) (code : Nat) (m : RMode) (r : Role) (a : RegName) : Nat × Flags → List Nat → List (Nat × Flags)
  | _, [] => []
  | acc, l :: rest =>
    let y := combine t code m acc.1 (r.elem t a l)
    (y.1, acc.2 ||| y.2) :: scanGo t code m r a (y.1, acc.2 ||| y.2) rest
/-- The VRED of each lane of a list together with the earlier ones (R308). -/
def prefixes (t : Ty) (code : Nat) (m : RMode) (r : Role) (a : RegName) : List Nat → List (Nat × Flags)
  | [] => []
  | l :: rest => (r.elem t a l, 0) :: scanGo t code m r a (r.elem t a l, 0) rest

/-- VRED (R307): ascending lanes, one rounding a step; with no active lane Identity(op) to a scalar D, and E. -/
def execVred (o : FmtA) (s : State) : Out :=
  wordStep s fun r =>
    let ls := r.active o.mask
    match (prefixes o.ty o.mod.toNat (r.mode o.rm) r o.a ls).getLast? with
    | none =>
      let q := if o.d.isScalar then r.setSreg o.d.num (pat (redIdentity o.ty o.mod.toNat)) else r
      { q with cc := ccWithE r.cc true }.advance
    | some (acc, fl) =>
      let q := if o.d.isScalar then r.setSreg o.d.num (pat acc) else r.setLanes o.d.num ls fun _ => pat acc
      { q.raiseFlags fl with cc := ccWithE r.cc false }.advance

/-- The value that stands for lane `l` in a list of values by active lane. -/
def valueAt (ls : List Nat) (vs : List Nat) (l : Nat) : Nat :=
  match indexWhere (· == l) ls with
  | some i => vs.getD i 0
  | none => 0

/-- VSCAN (R308): MOD[3:0] the operation, MOD[4] .excl. (DEDUCED, log 179) -/
def execVscan (o : FmtA) (s : State) : Out :=
  let code := o.mod.toNat % 16
  wordStep s fun r =>
    let ls := r.active o.mask
    let ps := prefixes o.ty code (r.mode o.rm) r o.a ls
    match ps.getLast? with
    | none => { r with cc := ccWithE r.cc true }.advance
    | some (_, fl) =>
      let vs := if o.mod.getLsbD 4 then redIdentity o.ty code :: ps.map (·.1) else ps.map (·.1)
      { (r.setLanes o.d.num ls fun l => pat (valueAt ls vs l)).raiseFlags fl with cc := ccWithE r.cc false }.advance

/-- The lanes that count: active, with an element that is not zero, or with .all every active lane (R309). -/
def Role.counting (r : Role) (o : FmtA) (all : Bool) : List Nat :=
  (r.active o.mask).filter fun l => all || r.elem o.ty o.a l != 0

/-- VBALLOT: bit i of D tells whether lane 64k + i counts (R309). -/
def execVballot (o : FmtA) (s : State) : Out :=
  wordStep s fun r =>
    let k := (r.sreg o.b.num).toNat
    let m := maskOfLanes (r.counting o false)
    (r.setSreg o.d.num (if k < 16 then m.extractLsb' (64 * k) 64 else 0)).advance

def execVcount (o : FmtA) (s : State) : Out :=
  wordStep s fun r => (r.setSreg o.d.num (pat (r.counting o (o.mod.getLsbD 0)).length)).advance

def execVfirst (o : FmtA) (s : State) : Out :=
  wordStep s fun r =>
    (r.setSreg o.d.num (match (r.counting o (o.mod.getLsbD 0)).head? with
      | some l => pat l
      | none => 0xFFFF_FFFF_FFFF_FFFF#64)).advance

end Sys2Proof.Machine
end

