-- ==== Sys2Proof/Machine/Launch.lean ====
section
/-! DEFINITION. Launches (19 R386-R397, 22 R446-R448): queues and their head packets, launch descriptors, the limits and the
placement of a gang on a cluster's cores, and its start. -/
namespace Sys2Proof.Machine

/-! ### Launch descriptors (R390, R391) -/

structure RoleShape where
  entry : Word
  budget : Nat
  lanes : Nat
deriving DecidableEq, Repr

/-- What a launch descriptor says: the cores of a gang, its share in bytes, its stacks and timelines, and its teams. -/
structure Shape where
  cores : Nat
  sp : Nat
  stkbase : Nat
  stride : Nat
  limit : Nat
  tlbase : Nat
  teams : List (List RoleShape)
deriving DecidableEq, Repr

/-- What a gang asks of one core: lanes, roles, teams and vector register entries. -/
structure Need where
  lanes : Nat
  roles : Nat
  teams : Nat
  entries : Nat
deriving DecidableEq, Repr

def Need.zero : Need := ⟨0, 0, 0, 0⟩
def Need.add (a b : Need) : Need := ⟨a.lanes + b.lanes, a.roles + b.roles, a.teams + b.teams, a.entries + b.entries⟩
/-- The per-core limits of R200 and R202. -/
def Need.ok (a : Need) : Bool := a.lanes ≤ 2048 && a.roles ≤ 8 && a.teams ≤ 4 && a.entries ≤ 65536

/-- What the teams of a shape ask of the core of a rank: team t stands on rank t mod CORES. -/
def Shape.need (sh : Shape) (rank : Nat) : Need :=
  sh.teams.zipIdx.foldl (fun a p =>
    if p.2 % sh.cores = rank then
      a.add ⟨p.1.foldl (fun x r => x + r.lanes) 0, p.1.length, 1, p.1.foldl (fun x r => x + r.lanes * r.budget) 0⟩
    else a) Need.zero

/-- One team's entry of ten words; none where it breaks a rule. -/
def teamOf (ws : List Word) : Option (List RoleShape) :=
  let w := fun i => ws.getD i 0
  let n := wfield (w 0) 11 2 + 1
  let lanes := wfield (w 0) 0 11
  let roles := (List.range n).map fun r =>
    ({ entry := ((w (2 + 2 * r)).extractLsb' 0 57).signExtend 64, budget := 8 * (wfield (w (3 + 2 * r)) 11 3 + 1),
       lanes := wfield (w (3 + 2 * r)) 0 11 } : RoleShape)
  let bad := wfield (w 0) 13 51 ≠ 0 || lanes = 0 || 1024 < lanes || w 1 ≠ 0 ||
    (List.range n).any fun r => wfield (w (2 + 2 * r)) 57 7 ≠ 0 || wfield (w (2 + 2 * r)) 0 3 ≠ 0 || wfield (w (3 + 2 * r)) 14 50 ≠ 0 ||
      wfield (w (3 + 2 * r)) 0 11 = 0 || 1024 < wfield (w (3 + 2 * r)) 0 11
  if bad || lanes < roles.foldl (fun a r => a + r.lanes) 0 then none else some roles

/-- The fields of a descriptor's header that are checked before the team entries are read. -/
def headerBad (ws : List Word) : Bool :=
  let w := fun i => ws.getD i 0
  let teams := wfield (w 0) 6 7
  let cores := wfield (w 0) 0 6
  wfield (w 0) 16 48 != 0 || 5 < wfield (w 0) 13 3 || teams == 0 || 96 < teams || cores == 0 || 48 < cores ||
  wfield (w 1) 0 5 != 0 || wfield (w 2) 0 5 != 0 || wfield (w 3) 32 32 != 0 || wfield (w 4) 0 5 != 0 || w 5 != 0 || w 6 != 0 || w 7 != 0

/-- A launch descriptor of 8 + 10 × TEAMS words; none where it is MALFORMED. -/
def shapeOf (ws : List Word) : Option Shape :=
  let w := fun i => ws.getD i 0
  let teams := (List.range (wfield (w 0) 6 7)).map fun t => teamOf ((ws.drop (8 + 10 * t)).take 10)
  if headerBad ws || teams.any Option.isNone then none
  else
    let sh : Shape := { cores := wfield (w 0) 0 6, sp := 65536 * wfield (w 0) 13 3, stkbase := (w 1).toNat, stride := (w 2).toNat,
                        limit := wfield (w 3) 0 32, tlbase := (w 4).toNat, teams := teams.filterMap id }
    if (List.range sh.cores).all fun k => (sh.need k).ok then some sh else none

/-- The words of a launch descriptor, read under a walker; `bad` where it is MALFORMED. -/
def State.readShape (s : State) (w : Walker) (va : Word) : Except VStopped (List Word × State) := do
  if va.toNat % 64 ≠ 0 then .error (.bad, s)
  else
    let (hd, s1) ← s.vaWords w .engRead (va.toNat : Int) 8
    if headerBad hd then .error (.bad, s1)
    else
      let (rest, s2) ← s1.vaWords w .engRead ((va.toNat + 64 : Nat) : Int) (10 * wfield (hd.getD 0 0) 6 7)
      if (shapeOf (hd ++ rest)).isNone then .error (.bad, s2) else return (hd ++ rest, s2)

/-! ### Room on cores (R394, R184) -/

/-- The teams of a list of roles, each once. -/
def teamsOf (rs : List Role) : List (Nat × Nat) :=
  rs.foldl (fun a r => if a.contains (r.gang, r.team) then a else a ++ [(r.gang, r.team)]) []

/-- What roles ask of their core. -/
def needOf (rs : List Role) : Need :=
  ⟨rs.foldl (fun a r => a + r.nlanes) 0, rs.length, (teamsOf rs).length, rs.foldl (fun a r => a + r.nlanes * r.budget) 0⟩

/-- The roles that a core holds; an ended role keeps its place until its gang retires (R393). -/
def State.rolesOn (s : State) (core : Nat) : List Role := (s.core core).slots.filterMap fun p => s.role? p.2

/-- The gang has a share on its cores. -/
def Gang.placed (g : Gang) : Bool := g.state != .saved && g.state != .loading

/-- The scratchpad bytes that shares take of a core. -/
def State.spOn (s : State) (core : Nat) : Nat :=
  s.gangs.foldl (fun a p => if p.2.placed && p.2.cores.contains core then a + p.2.sp else a) 0

/-- The commands of a context that can still run: all that are not completed, but those that have failed and, once the context is stopped,
those behind them. (DEDUCED, log 89) -/
def Ctx.unfinished (c : Ctx) : List CmdEntry := c.cmds.filter fun q => q.st != .done && q.st != .failed && (!c.err || q.st != .accepted)

/-- Teams that keep a team slot of the core's local context without standing on the core: one of their commands on it has not
completed (R184). -/
def State.slotsKept (s : State) (core gid : Nat) (here : List (Nat × Nat)) : Nat :=
  (s.ctxs.filter fun p => match p.1 with
    | .local g t => g != gid && !(here.contains (g, t)) && p.2.cmds.any fun q => q.st != .done && q.cmd.core == core
    | _ => false).length

/-- Side-log entries and data units that a core is to take. -/
structure LogNeed where
  entries : Nat := 0
  units : Nat := 0
deriving DecidableEq, Repr

/-- A core can take its part of a gang: `extra` and `extraSp` stand for gangs that are to be placed with it, and `empty` asks as if
no other work were there. (DESIGN CHOICE, log 97) -/
def State.coreFits (s : State) (core gid : Nat) (need : Need) (sp : Nat) (log : LogNeed) (extra : Need × Nat) (empty : Bool) : Bool :=
  let rs := if empty then [] else s.rolesOn core
  let here := teamsOf rs
  let k := s.core core
  let total := ((needOf rs).add extra.1).add need
  total.ok && (if empty then 0 else s.spOn core) + extra.2 + sp ≤ 320 * 1024 &&
  (empty || total.teams + s.slotsKept core gid here ≤ 8) &&
  (empty || (k.log.length + log.entries ≤ 64 && k.logUnits + log.units ≤ 128))

/-! ### Placement (R395) -/

/-- The first position of a cluster whose cores all fit; rank k lies on core c0 + k. -/
def placeIn (fits : Nat → Nat → Bool) (cores cluster : Nat) : Option (List Nat) :=
  (List.range (49 - cores)).findSome? fun c0 =>
    let l := (List.range cores).map fun k => 48 * cluster + c0 + k
    if l.zipIdx.all fun p => fits p.1 p.2 then some l else none

def placeOn (fits : Nat → Nat → Bool) (cores : Nat) (clusters : List Nat) : Option (List Nat) :=
  clusters.findSome? fun c => placeIn fits cores c

/-- What gangs that are to be placed together have taken so far. -/
abbrev Tentative := Sparse (Need × Nat)

def Tentative.take (t : Tentative) (sh : Shape) (cores : List Nat) : Tentative :=
  cores.zipIdx.foldl (fun t p =>
    let x := t.get (Need.zero, 0) p.1
    t.put p.1 (x.1.add (sh.need p.2), x.2 + sh.sp)) t

/-- The cores of `n` gangs of a shape placed together, in order; none where they do not all fit. -/
def State.placeMany (s : State) (sh : Shape) (clusters : List Nat) (free : Nat → Bool) (empty : Bool) :
    Tentative → Nat → Option (List (List Nat))
  | _, 0 => some []
  | t, n + 1 =>
    match placeOn (fun c k => free c && s.coreFits c 0 (sh.need k) sh.sp {} (t.get (Need.zero, 0) c) empty) sh.cores clusters with
    | none => none
    | some l => (State.placeMany s sh clusters free empty (t.take sh l) n).map fun r => l :: r

/-- Gangs of a shape that one empty cluster holds, at most `n`. -/
def State.clusterHolds (s : State) (sh : Shape) : Tentative → Nat → Nat
  | _, 0 => 0
  | t, n + 1 =>
    match placeOn (fun c k => s.coreFits c 0 (sh.need k) sh.sp {} (t.get (Need.zero, 0) c) true) sh.cores [0] with
    | none => 0
    | some l => 1 + State.clusterHolds s sh (t.take sh l) n

/-- The empty partition holds `n` gangs of a shape (R397); its clusters are alike. -/
def State.everFits (s : State) (sh : Shape) (part n : Nat) : Bool :=
  n ≤ s.clusterHolds sh [] 192 * (s.clustersOf part).length

/-! ### Partitions and queues (R386-R388, R446-R448) -/

/-- The queue ranges of two valid partitions overlap, or they have one VMID (R448). -/
def State.partClash (s : State) (p : Nat) : Bool :=
  (List.range s.partitions).any fun q => q != p && s.partValid q &&
    (s.partVmid q == s.partVmid p || (decide (s.partQbase q < s.partQend p) && decide (s.partQbase p < s.partQend q)))

/-- The partition that serves a queue with an entry of a VMID. -/
def State.partOfQueue (s : State) (q vmid : Nat) : Option Nat :=
  match (List.range s.partitions).find? fun p => s.partValid p && s.partQbase p ≤ q && decide (q < s.partQend p) with
  | none => none
  | some p => if s.partClash p || !(vmid == 0 || vmid == s.partVmid p) then none else some p

/-- The partition that owns a VMID. -/
def State.partOfVmid (s : State) (vmid : Nat) : Option Nat :=
  (List.range s.partitions).find? fun p => s.partValid p && s.partVmid p == vmid

/-- A queue's entry as it stands. -/
def State.queuePeek (s : State) (q : Nat) : List Word :=
  (List.range 4).map fun k => BitVec.ofNat 64 (s.peek (s.queueAddr q + 8 * k) 8 0)

/-- The scheduler serves the queues, and this one has EN and no ERR. -/
def State.served? (s : State) (q : Nat) : Option (List Word) :=
  let ws := s.queuePeek q
  if wbit (s.reg 0 0x5000) 0 && wbit (ws.getD 0 0) 63 && !(wbit (ws.getD 3 0) 62) then some ws else none

def qPrio (ws : List Word) : Nat := wfield (ws.getD 0 0) 61 2
def qVmid (ws : List Word) : Nat := wfield (ws.getD 0 0) 57 4
def qAsid (ws : List Word) : Nat := wfield (ws.getD 2 0) 0 16
def qRsize (ws : List Word) : Nat := wfield (ws.getD 0 0) 52 5
def qProd (ws : List Word) : Nat := wfield (ws.getD 1 0) 32 32
def qCons (ws : List Word) : Nat := wfield (ws.getD 1 0) 0 32
/-- Packet `i` of a ring (R387). -/
def packetAddr (ws : List Word) (i : Nat) : Nat := wfield (ws.getD 0 0) 7 45 * 2 ^ 7 + 128 * (i % 2 ^ qRsize ws)

def State.setHead (s : State) (q : Nat) (h : Option Head) : State := s.setQueueState q { s.queueState q with head := h }

/-- A queue stops: its head is forgotten, and nothing is kept for it. -/
def State.stopQueue (s : State) (q code : Nat) : State :=
  (s.queueError q code).setQueueState q { s.queueState q with head := none, reserved := [] }

/-! ### The head packet (R389, R391, R392, R397) -/

def Head.word (h : Head) (i : Nat) : Word := h.packet.getD i 0
def Head.grid (h : Head) : Nat := wfield (h.word 1) 32 32
def Head.ngangs (h : Head) : Nat := wfield (h.word 1) 0 32
def Head.ndep (h : Head) : Nat := wfield (h.word 2) 1 2
def Head.coop (h : Head) : Bool := wbit (h.word 2) 0
def Head.shape (h : Head) : Option Shape := shapeOf h.desc

/-- A packet's own fields are in range. (DEDUCED, log 87) -/
def packetBad (p : List Word) : Bool :=
  let w := fun i => p.getD i 0
  wfield (w 2) 3 61 != 0 || w 15 != 0 || wfield (w 1) 0 32 == 0 || wfield (w 2) 1 2 == 3 || wfield (w 0) 0 6 != 0

/-- A physical address that the scheduler cannot read under a VMID. -/
def State.unreadable (s : State) (pa vmid : Nat) : Bool :=
  regionOf pa == .reserved || regionOf pa == .window || s.keyMissing (lineOf pa) vmid || s.readBad 0 (lineOf pa) || s.homeLost (lineOf pa)

/-- A co-operative packet whose gangs the empty partition does not hold: it is asked once, when the packet becomes the head (R397). -/
def State.neverFits (s : State) (q : Nat) (ws : List Word) (h : Head) : Bool :=
  h.coop && (match h.shape, s.partOfQueue q (qVmid ws) with
    | some sh, some part => !(s.everFits sh part h.ngangs)
    | _, _ => false)

/-- The packet at a queue's CONS becomes the head: none where there is nothing to read or a page is being moved. The roles of its gangs
start from a time after its writes (R154). Reserved bits of the queue's entry have no meaning here: R386 and R387 give them no status. (DESIGN CHOICE, log 147) -/
def State.loadHead? (s : State) (q : Nat) : Option State :=
  match s.served? q with
  | none => none
  | some ws =>
    let stale := match (s.queueState q).head with
      | some h => h.cons != qCons ws
      | none => true
    if (s.partOfQueue q (qVmid ws)).isNone || qRsize ws < 2 || 16 < qRsize ws then some (s.stopQueue q 1)
    else if qProd ws = qCons ws || !stale then none
    else
      let pa := packetAddr ws (qCons ws)
      if s.unreadable pa (qVmid ws) then some (s.stopQueue q 2)
      else
        let (p, t, s0) := s.readWords 0 pa (qVmid ws) s.clock 16
        let s1 := s0.tick t
        if packetBad p then some (s1.stopQueue q 1)
        else match s1.readShape (agentWalker 0 (qVmid ws) (qAsid ws) 0) (p.getD 0 0) with
          | .error (.wait, _) => none
          | .error (.bad, s2) => some (s2.stopQueue q 1)
          | .error (.cause _ _, s2) => some (s2.stopQueue q 2)
          | .ok (d, s2) =>
            let h : Head := { cons := qCons ws, packet := p, desc := d, deps := wfield (p.getD 2 0) 1 2 = 0, pts := s2.clock }
            if s2.neverFits q ws h then some (s2.stopQueue q 3) else some (s2.setHead q (some h))

/-- Counter and target of the dependences in force. -/
def Head.depList (h : Head) : List (Word × Nat) := (List.range h.ndep).map fun k => (h.word (4 + 2 * k), (h.word (5 + 2 * k)).toNat)

/-- A dependence's counter is at or above its target: it is read in place (R392 step 1); a fault is told apart. -/
def State.depMet (s : State) (w : Walker) (d : Word × Nat) : Except VStop Bool :=
  match s.vaSpot w .counter 8 (d.1.toNat : Int) with
  | .ok (m, s1) => if s1.readBad w.die (lineOf m.pa) then .error (.cause cDATA_ERROR d.1) else .ok (d.2 ≤ s1.peek m.pa 8 w.vmid)
  | .error (e, _) => .error e

/-- LAUNCH_DEP_MET: a faulting counter stops the queue; with every target met, the head goes on, after an acquire of each counter. (DEDUCED, log 86) -/
def State.depStep? (s : State) (q : Nat) : Option State :=
  match s.served? q, (s.queueState q).head with
  | some ws, some h =>
    if h.deps || h.cons != qCons ws then none
    else
      let w := agentWalker 0 (qVmid ws) (qAsid ws) 0
      let answers := h.depList.map fun d => s.depMet w d
      if answers.any fun a => match a with
        | .error (.cause _ _) | .error .bad => true
        | _ => false then some (s.stopQueue q 4)
      else if answers.all fun a => match a with
        | .ok b => b
        | _ => false then
        let s1 := h.depList.foldl (fun s d => match s.vaAdd w (d.1.toNat : Int) 0 with
          | .ok (_, t) => t
          | .error (_, t) => t) s
        some (s1.setHead q (some { h with deps := true, pts := max h.pts s1.clock }))
      else none
  | _, _ => none

def execLaunchDepMet (queue : Nat) (s : State) : Out := .next ((s.depStep? queue).getD s)

/-! ### The start of a gang (R389, R390, R393, R400, R201) -/

/-- A role of a new gang, on its core. -/
def State.addRole (s : State) (gid : Nat) (g : Gang) (sh : Shape) (args : List Word) (team ix : Nat) (x : RoleShape) (pts : Nat) : State :=
  let core := g.cores.getD (team % sh.cores) 0
  let k := s.core core
  let slot := ((List.range 8).find? fun i => (k.slots.find i).isNone).getD 0
  let rs := sh.stkbase + sh.stride * (384 * g.g + 4 * team + ix)
  let r : Role :=
    { gang := gid, grid := g.grid, team := team, ix := ix, rank := team % sh.cores, core := core, slot := slot, prio := g.prio,
      vmid := g.vmid, asid := g.asid, nlanes := x.lanes, budget := x.budget, pc := x.entry,
      sregs := args.zipIdx.foldl (fun t p => Sparse.set 0 t p.2 p.1) [], masks := Sparse.set 0 [] 0 (lowLanes x.lanes),
      rsbase := BitVec.ofNat 64 rs, limit := sh.limit, sf := max k.pts pts, tvec := s.reg (dieOf core) (0x6100 + 8 * g.vmid) }
  let s1 : State := { s with roles := s.roles.put s.nextRole r, nextRole := s.nextRole + 1 }
  s1.setCore core { k with slots := k.slots.put slot s.nextRole }

/-- A gang is admitted: all of its roles start at once, as if each had acquired what the launch released. -/
def State.admitGang (s : State) (sh : Shape) (g : Gang) (args : List Word) (pts : Nat) : State :=
  let gid := s.nextGang
  let s1 : State := { s with gangs := s.gangs.put gid g, nextGang := gid + 1 }
  let s2 := sh.teams.zipIdx.foldl (fun s t => t.1.zipIdx.foldl (fun s r => s.addRole gid g sh args t.2 r.2 r.1 pts) s) s1
  g.cores.foldl (fun s c => (s.raisePts c pts).trimL1 c) s2

/-! ### Reservations (R397) -/

/-- A core is kept for the co-operative head of another queue of the partition: no gang of its priority or a lower one takes it. -/
def State.reservedFrom (s : State) (part prio core : Nat) (own : Option Nat) : Bool :=
  s.queues.any fun p => some p.1 != own && p.2.reserved.contains core && (match s.served? p.1 with
    | some ws => s.partOfQueue p.1 (qVmid ws) == some part && prio ≤ qPrio ws
    | none => false)

/-- Cores have become free: they are reserved for the co-operative heads that wait in their partition. -/
def State.coresFreed (s : State) (cores : List Nat) : State :=
  { s with queues := s.queues.map fun p =>
      match p.2.head, s.served? p.1 with
      | some h, some ws =>
        if h.waits then
          let mine := match s.partOfQueue p.1 (qVmid ws) with
            | some part => s.clustersOf part
            | none => []
          (p.1, { p.2 with reserved := p.2.reserved ++ cores.filter fun c => mine.contains (clusterOf c) && !(p.2.reserved.contains c) })
        else p
      | _, _ => p }

/-! ### The head packet's gangs (R392, R395-R397) -/

/-- The gang of number `n` of a packet. -/
def Head.gang (h : Head) (q : Nat) (ws : List Word) (sh : Shape) (part n : Nat) (cores : List Nat) : Gang :=
  { grid := h.grid, g := n, vmid := qVmid ws, asid := qAsid ws, prio := qPrio ws, part := part, cores := cores,
    nteams := sh.teams.length, sp := sh.sp, done := (h.word 3).toNat, origin := .queue q, tlbase := sh.tlbase }

/-- The scalars of the roles of gang `n`: ARG[0] to ARG[6], and n. -/
def Head.args (h : Head) (n : Nat) : List Word := ((List.range 7).map fun k => h.word (8 + k)) ++ [BitVec.ofNat 64 n]

/-- CONS advances past the packet when its last gang is admitted. -/
def State.passPacket (s : State) (q : Nat) : State :=
  let (ws, s1) := s.queueEntry q
  ((s1.writeQueueWord q 1 (withField (ws.getD 1 0) 0 32 (qCons ws + 1))).setHead q none)

def State.headWait (s : State) (q : Nat) (on : Bool) : State :=
  let (ws, s1) := s.queueEntry q
  s1.writeQueueWord q 3 (withField (ws.getD 3 0) 63 1 (if on then 1 else 0))

/-- Admit from a queue's head: none where nothing of it can start. -/
def State.tryHead? (s : State) (q : Nat) : Option State :=
  match s.served? q, (s.queueState q).head with
  | some ws, some h =>
    match h.shape, s.partOfQueue q (qVmid ws) with
    | some sh, some part =>
      if !h.deps || h.cons != qCons ws then none
      else
        let clusters := s.clustersOf part
        if h.coop then
          match (if s.everFits sh part h.ngangs then
              s.placeMany sh clusters (fun c => !(s.reservedFrom part (qPrio ws) c (some q))) false [] h.ngangs else none) with
            | none => if h.waits then none else some ((s.headWait q true).setHead q (some { h with waits := true }))
            | some places =>
              let s1 := if h.waits then s.headWait q false else s
              let s2 := s1.setQueueState q { s1.queueState q with reserved := [] }
              some ((places.zipIdx.foldl (fun s p => s.admitGang sh (h.gang q ws sh part p.2 p.1) (h.args p.2) h.pts) s2).passPacket q)
        else match placeOn (fun c k => !(s.reservedFrom part (qPrio ws) c (some q)) &&
            s.coreFits c 0 (sh.need k) sh.sp {} (Need.zero, 0) false) sh.cores clusters with
          | none => none
          | some cores =>
            let s1 := s.admitGang sh (h.gang q ws sh part h.next cores) (h.args h.next) h.pts
            some (if h.next + 1 < h.ngangs then s1.setHead q (some { h with next := h.next + 1 }) else s1.passPacket q)
    | _, _ => none
  | _, _ => none

/-- The head packets, PRIO from 3 down, and round-robin by queue number within one PRIO (R396). -/
def State.serveQueues? (s : State) : Option State :=
  let qs := s.queues.map (·.1)
  let turn := (qs.filter fun q => s.rr < q) ++ qs.filter fun q => q ≤ s.rr
  [3, 2, 1, 0].findSome? fun prio => turn.findSome? fun q =>
    match s.served? q with
    | some ws => if qPrio ws = prio then (s.tryHead? q).map fun t => { t with rr := q } else none
    | none => none

/-- A head packet is read where one is due. -/
def State.loadHeads? (s : State) : Option State := (s.queues.map (·.1)).findSome? fun q => s.loadHead? q

end Sys2Proof.Machine
end

