-- ==== Sys2Proof/Machine/Saving.lean ====
section
/-! DEFINITION. Saving and restoring gangs (20 R425-R427, 16 R358, 17 R370, 21 R439, R440): the end of issue, what a save waits for
and records, the save area's header, placing a saved gang, and CTXSAVE and CTXLOAD. -/
namespace Sys2Proof.Machine

/-! ### What a save waits for (R425) -/

/-- An exact address lies in the on-chip window. -/
def inWindow (a : Int) : Bool := 0 ≤ a && onChip a.toNat

/-- An element of a copy, or its counter, lies in the on-chip window. -/
def Tensor.inWindow (t : Tensor) : Bool :=
  (t.sig ≠ 0 && !t.dpeer && onChip t.sig.toNat) || (List.range t.size).any fun i =>
    let (a, b) := t.pairAt i
    (!t.speer && Machine.inWindow a) || (!t.dpeer && Machine.inWindow b)

/-- A local command reads or writes the on-chip window (R175): its descriptor, its elements or its counter lies there, as its engine has
read them, or as memory has them for a command that has not started. -/
def State.namesWindow (s : State) (id : CtxId) (q : CmdEntry) : Bool :=
  let c := q.cmd
  match c.kind with
  | .close | .pin | .vret => false
  | .publish => onChip c.b.toNat
  | .copy => (copyTensor c).any Tensor.inWindow
  | _ =>
    let ws := match q.record[0]? with
      | some l => l
      | none => (List.range 42).map fun k => BitVec.ofNat 64 (s.cmdPeek id c (c.a.toNat + 8 * k))
    onChip c.a.toNat || (tensorOf ws).any Tensor.inWindow

/-- A local-context command of the gang that names its window has still to complete. -/
def State.windowDue (s : State) (gid : Nat) : Bool :=
  s.ctxs.any fun p => match p.1 with
    | .local g _ => g == gid && p.2.unfinished.any fun q => s.namesWindow p.1 q
    | _ => false

/-- The role stands at a clause boundary or a hold point: its core is not issuing from it. -/
def State.stands (s : State) (rid : Nat) (r : Role) : Bool :=
  r.ended || r.hold != .ready || r.clause.isNone || (s.core r.core).phase != .run rid

/-- A save discards the instruction with its region, which is still open: it is not committed, and its counter add is not made (R324). (DEDUCED, log 56) -/
def State.discardable (s : State) (j : MatJob) : Bool :=
  j.inRegion && !j.counted && (match s.role? j.rid with
    | some r => r.tack.isSome
    | none => false)

/-- A BSAVE or BABORT of a query has still to act. -/
def Query.acting (q : Query) : Bool := q.saveTo.isSome || (q.aborted && !q.ending)

/-- A query stands at a node boundary that a spill record can name: between two visits, before its push, or where it waits for an answer. (DEDUCED, log 94) -/
def Query.spillable (q : Query) : Bool := match q.phase with
  | .walking | .push | .proc _ => true
  | .path | .records _ _ => false

/-- The save of a gang can be made now. A load that a home has refused is saved as a held instruction (R412). (DEDUCED, log 95) -/
def State.saveReady (s : State) (gid : Nat) (g : Gang) : Bool :=
  let rs := s.rolesOf gid
  let mine := fun (rid : Nat) => rs.any fun p => p.1 == rid
  (rs.all fun p => s.stands p.1 p.2) &&
  (g.cores.all fun c =>
    let k := s.core c
    !(k.ops.any fun o => mine o.2.rid && o.2.stop == .go) && !(k.jobs.any fun j => mine j.rid && !(s.discardable j)) &&
    !(k.queries.any fun q => q.2.gang == gid && (q.2.acting || !q.2.spillable))) &&
  !(s.windowDue gid)

/-! ### The save (R425) -/

/-- A role's open region is discarded: its checkpoint is restored (R424). (DEDUCED, log 55) -/
def Role.dropRegion (r : Role) : Role :=
  match r.tack with
  | none => { r with tackNext := false, tackLast := false }
  | some t =>
    { r with pc := t.pc, clause := t.clause, bound := t.bound, latch := t.latch, tack := none, tackNext := false, tackLast := false,
             streams := r.streams.map fun p => match t.positions.find p.1 with
               | some n => (p.1, { p.2 with pos := n })
               | none => p }

/-- A held instruction is issued again after the restore (R244); a role whose access has a record of KIND 0 keeps waiting for its
verdict (R412). -/
def Role.unheld (r : Role) : Role := match r.hold with
  | .service _ _ => r
  | _ => { r with hold := .ready }

/-- The bytes of a save area (R426). -/
def State.saveSize (s : State) (gid : Nat) (g : Gang) : Nat :=
  256 + g.cores.length * (256 * 1024 + g.sp) + (s.rolesOf gid).foldl (fun a p => a + p.2.nlanes * p.2.budget * 8) 0

/-- The largest pts of a gang's cores (R124). -/
def State.gangPts (s : State) (g : Gang) : Nat := g.cores.foldl (fun a c => max a (s.core c).pts) 0

/-- What one core gives up of a gang: its entries, refused updates and queries, by rank; its instructions in open regions go. -/
def State.leaveCore (s : State) (gid rank core : Nat) (mine : Nat → Bool) : State :=
  let k := s.core core
  let entries := k.log.filter fun e => mine e.rid
  let gone := k.jobs.filter fun j => mine j.rid
  let dropped := gone.filterMap fun j => j.logEntry.map fun e => (j.rid, e)
  let queries := k.queries.filter fun q => q.2.gang == gid
  let ops := k.ops.filter fun p => mine p.2.rid
  let left := fun (n : Nat) => match k.phase with
    | .run r | .header r | .fetch r => r == n
    | .choose => false
  let k1 : Core :=
    { k with
      log := k.log.filter fun e => !(mine e.rid), jobs := k.jobs.filter fun j => !(mine j.rid),
      refused := k.refused.filter fun u => !(mine u.rid), queries := k.queries.filter fun q => q.2.gang != gid,
      ops := k.ops.filter fun p => !(mine p.2.rid), picks := k.picks.filter fun p => !(mine p.1),
      slots := k.slots.filter fun p => !(mine p.2), waitBeam := k.waitBeam.filter fun r => !(mine r),
      last := k.last.bind fun r => if mine r then none else some r,
      phase := if k.slots.any fun p => mine p.2 && left p.2 then .choose else k.phase }
  let s1 := queries.foldl (fun s q => s.unparkQuery core q.1) (s.setCore core k1)
  s1.updGang gid fun g =>
    { g with
      savedLog := g.savedLog ++ (entries.filter fun e => !(dropped.contains (e.rid, e.id))).map fun e => (rank, e),
      savedRefused := g.savedRefused ++ (k.refused.filter fun u => mine u.rid).map fun u => (rank, u),
      savedOps := g.savedOps ++ ops.map fun p => (rank, p.1, p.2),
      savedQueries := g.savedQueries ++ queries.map fun q => (rank, q.2) }

/-- A CTXLOAD that a role has in progress is given up: the role issues it again after its own restore. -/
def State.dropLoads (s : State) (mine : Nat → Bool) : State :=
  { s with gangs := s.gangs.map fun p =>
      if p.2.state == .loading && (p.2.saveArea.any fun q => mine q.rid) then (p.1, { p.2 with state := .saved, saveArea := none })
      else p }

/-- The gang leaves its cores. (DEDUCED, log 91) -/
def State.doSave (s : State) (gid : Nat) (g : Gang) : State :=
  let rs := s.rolesOf gid
  let mine := fun (rid : Nat) => rs.any fun p => p.1 == rid
  let pts := s.gangPts g
  let s1 := g.cores.zipIdx.foldl (fun s p => s.leaveCore gid p.2 p.1 mine) s
  let s2 := rs.foldl (fun s p => s.updRole p.1 fun r => if r.ended then r else r.dropRegion.unheld) s1
  let s3 := (s2.unpark fun p => p.query.isNone && mine p.rid).dropLoads mine
  let s4 : State := { s3 with issued := s3.issued.filter fun q => !(mine q.rid), saveOrder := s3.saveOrder ++ [gid] }
  (s4.updGang gid fun x => { x with savedCmds := s3.issued.filter fun q => mine q.rid, state := .saved, saveArea := none, ctxSaved := g.saveArea.isSome, savedPts := pts }).coresFreed g.cores

/-- The header of a save area (R426). -/
def saveHeader (gid : Nat) (g : Gang) (pts size : Nat) : List Word :=
  [0x5341_5645#64, BitVec.ofNat 64 (gid % 2 ^ 32), BitVec.ofNat 64 g.grid, BitVec.ofNat 64 (g.cores.length + g.nteams * 2 ^ 6),
   BitVec.ofNat 64 pts, BitVec.ofNat 64 size, BitVec.ofNat 64 g.vmid] ++ List.replicate 25 0

/-- The answer of a CTXSAVE: D, and the slot's count falls. -/
def State.answerCtx (s : State) (q : SaveReq) (d : Word) : State :=
  s.updRole q.rid fun r => if r.ended then r else (r.setSreg q.dst.num d).slotDone q.ws

/-- The spill records of a gang's queries as a save writes them (R358): core by core, the 16 records lie at the end of the core's 256 KiB. -/
def State.spillWrites (s : State) (gid : Nat) (g : Gang) (area : Nat) : List (Int × Nat × Nat) :=
  g.cores.zipIdx.flatMap fun c =>
    let vector := ((s.rolesOf gid).filter fun p => p.2.rank < c.2).foldl (fun a p => a + p.2.nlanes * p.2.budget * 8) 0
    let base := area + 256 + c.2 * (256 * 1024 + g.sp) + vector + 256 * 1024 - 16 * 512
    ((s.core c.1).queries.filter fun q => q.2.gang == gid).zipIdx.flatMap fun q =>
      q.1.2.spill.zipIdx.map fun w => (((base + 512 * q.2 + 8 * w.2 : Nat) : Int), 8, w.1.toNat)

/-- GANG_SAVE_COMPLETE: once everything that R425 names has come to rest, the save is made; for CTXSAVE the area's header is
written first, and a fault on it leaves the gang resident. None while the save has to wait. (DEDUCED, log 96) -/
def State.saveStep? (s : State) (gid : Nat) : Option State :=
  match s.gang? gid with
  | none => none
  | some g =>
    if g.state != .saving then none
    else if (s.rolesOf gid).all fun p => p.2.ended then
      let s1 := s.updGang gid fun x => { x with state := .resident, saveArea := none }
      some (match g.saveArea with
        | some q => s1.answerCtx q 1
        | none => s1)
    else if !(s.saveReady gid g) then none
    else match g.saveArea with
      | none => some (s.doSave gid g)
      | some q =>
        let r := (s.role? q.rid).getD {}
        let hd := saveHeader gid g (s.gangPts g) (s.saveSize gid g)
        match s.vaStores { r.walker none with handler := true } .store
            (hd.zipIdx.map (fun p => (((q.area + 8 * p.2 : Nat) : Int), 8, p.1.toNat)) ++ s.spillWrites gid g q.area) with
        | .ok (_, s1) => some ((s1.doSave gid g).answerCtx q 0)
        | .error (.wait, _) => none
        | .error (_, s1) => some ((s1.updGang gid fun x => { x with state := .resident, saveArea := none }).answerCtx q 2)

def execGangSaveComplete (gang : Nat) (s : State) : Out := .next ((s.saveStep? gang).getD s)

/-! ### Restoring (R427, R394) -/

/-- What a saved gang asks of the core that takes rank `k`. -/
def State.savedNeed (s : State) (gid k : Nat) : Need := needOf ((s.rolesOf gid).filterMap fun p => if p.2.rank = k then some p.2 else none)

def Gang.logNeed (g : Gang) (k : Nat) : LogNeed :=
  let es := g.savedLog.filter fun p => p.1 == k
  { entries := es.length, units := es.foldl (fun a p => a + p.2.body.units) 0 }

/-- The cores that a saved gang is restored onto. -/
def State.restorePlace (s : State) (gid : Nat) (g : Gang) : Option (List Nat) :=
  placeOn (fun c k => !(s.reservedFrom g.part g.prio c none) &&
    s.coreFits c gid (s.savedNeed gid k) g.sp (g.logNeed k) (Need.zero, 0) false) g.cores.length (s.clustersOf g.part)

/-- The partition could hold the gang if it were empty (R439 status 7). -/
def State.couldRestore (s : State) (gid : Nat) (g : Gang) (part : Nat) : Bool :=
  (placeOn (fun c k => s.coreFits c gid (s.savedNeed gid k) g.sp {} (Need.zero, 0) true) g.cores.length (s.clustersOf part)).isSome

/-- The core fields of a pending record are written again (R427). -/
def State.rewriteRecord (s : State) (d idx : Nat) (r : Role) (entry : Nat) : State :=
  let (ws, s1) := s.recordWords d idx
  let x := ws.getD 4 0
  let die := withField x 32 2 (dieOf r.core)
  let core := withField (withField die 34 2 (clusterNumber r.core)) 36 6 (coreNumber r.core)
  s1.writeWords d (recordAddr s1 d idx + 0x20) 0 [withField (withField core 42 3 r.slot) 45 6 entry]

/-- A role takes its place on the core of its rank. -/
def State.enterCore (s : State) (rid core : Nat) : State :=
  let k := s.core core
  let slot := ((List.range 8).find? fun i => (k.slots.find i).isNone).getD 0
  let s1 := (s.setCore core { k with slots := k.slots.put slot rid }).updRole rid fun r => { r with core := core, slot := slot, count := 0 }
  match s1.role? rid with
  | some r => match r.hold with
    | .service d idx => s1.rewriteRecord d.val idx r 0
    | _ => s1
  | none => s1

/-- A saved entry goes into the log of the core of its rank; one that waits for no verdict is replayed. -/
def State.reload (s : State) (core : Nat) (e : LogEntry) : State :=
  let id := (s.core core).freeEntry
  let s1 := s.addEntry core { e with id := id }
  match e.state with
  | .logged _ (some (d, idx)) => s1.rewriteRecord d idx ((s1.role? e.rid).getD {}) id
  | _ => s1.send (.sidelogReplay core id)

/-- A verdict given while the gang was away. (DEDUCED, log 93) -/
def State.lateVerdict (s : State) (v : Die × Nat × Bool) : State :=
  let (ws, s1) := s.recordWords v.1.val v.2.1
  if wfield (ws.getD 4 0) 10 2 = 0 then s1.verdictHeld v.1.val v.2.1 ws v.2.2 else s1.verdictLogged v.1.val v.2.1 v.2.2

/-- The numbers that a core has given to what a gang has saved of it lie below this. -/
def Gang.savedTop (g : Gang) (rank : Nat) : Nat :=
  let ops := g.savedOps.filterMap fun p => if p.1 = rank then some (p.2.1 + 1) else none
  let log := g.savedLog.filterMap fun p => if p.1 = rank then some p.2.after else none
  let cmds := g.savedCmds.filterMap fun q => if q.cmd.rank = rank then some q.after else none
  (ops ++ log ++ cmds).foldl max 0

/-- A command that a context had not accepted when its gang was saved is issued again: its target is checked anew, and QUEUE is a pending
trap of its role (R249 step 2, R250). (DEDUCED, log 81) -/
def State.issueAgain (s : State) (q : IssuedCmd) : State :=
  match s.role? q.rid with
  | none => s
  | some r =>
    let bad := match q.ctx with
      | .shared _ _ => !(s.sharedOk r q.ctx)
      | .composer _ | .encoder _ => !(s.ctx q.ctx).en
      | .local _ _ => false
    if bad then
      ((s.updRole q.rid fun p => p.slotDone q.ws).addPending q.rid
        { cause := cQUEUE, addr := 0, pc := q.pc, final := false, wr := false }).send (.pendingTrapTake q.rid)
    else ({ s with issued := s.issued ++ [q] } : State).send (.engineCommandAccept q.ctx)

/-- The gang takes its cores again. -/
def State.restoreGang (s : State) (gid : Nat) (g : Gang) (cores : List Nat) : State :=
  let s1 := s.setGang gid { g with cores := cores, state := .resident, saveArea := none, savedFor := none, ctxSaved := false, savedLog := [], savedRefused := [],
                                   savedQueries := [], savedOps := [], savedCmds := [], verdicts := [] }
  let at_ := fun (k : Nat) => cores.getD k 0
  let s2 := cores.foldl (fun s c => s.raisePts c g.savedPts) { s1 with saveOrder := s1.saveOrder.filter fun x => x != gid }
  let s3 := (s2.rolesOf gid).foldl (fun s p => s.enterCore p.1 (at_ p.2.rank)) (cores.foldl (fun s c => s.trimL1 c) s2)
  let base := fun (k : Nat) => (s3.core (at_ k)).nextOp
  let sa := cores.zipIdx.foldl (fun s c => s.updCore c.1 fun x => { x with nextOp := x.nextOp + g.savedTop c.2 }) s3
  let sb := g.savedOps.foldl (fun s p =>
    let c := at_ p.1
    let s1 := s.updCore c fun x => { x with ops := x.ops.put (base p.1 + p.2.1) p.2.2 }
    match p.2.2.stop with
    | .record d idx => s1.rewriteRecord d idx ((s1.role? p.2.2.rid).getD {}) 0
    | _ => s1) sa
  let s4 := g.savedLog.foldl (fun s p => s.reload (at_ p.1) { p.2 with after := base p.1 + p.2.after }) sb
  let s5 := g.savedRefused.foldl (fun s p =>
    let c := at_ p.1
    (s.updCore c fun k => { k with refused := k.refused ++ [{ p.2 with core := c }] }).send (.reductionResend c)) s4
  let s6 := g.savedQueries.foldl (fun s p => s.updCore (at_ p.1) fun k =>
    { k with queries := k.queries.put k.nextQuery p.2, nextQuery := k.nextQuery + 1 }) s5
  let s7 := g.savedCmds.foldl (fun s q =>
    s.issueAgain { q with cmd := { q.cmd with core := at_ q.cmd.rank }, after := base q.cmd.rank + q.after }) s6
  g.verdicts.foldl (fun s v => s.lateVerdict v) s7

/-- The role of a CTXLOAD still holds at it. -/
def State.loadAlive (s : State) (q : SaveReq) : Bool := match s.role? q.rid with
  | some r => !r.ended && r.hold == .place
  | none => false

/-- CTXLOAD is done: the area's magic becomes 0, and the role goes on (R440). -/
def State.endLoad (s : State) (q : SaveReq) : State :=
  let r := (s.role? q.rid).getD {}
  let s1 := match s.vaStores { r.walker none with handler := true } .store [((q.area : Nat), 8, 0)] with
    | .ok (_, t) => t
    | .error (_, t) => t
  s1.updRole q.rid fun r => (((r.bindSlot q.ws [q.dst]).setSreg q.dst.num 0).slotDone q.ws).advance

/-- The batch for which the scheduler saved a gang has not been placed yet (R401). -/
def State.batchAwaits (s : State) (g : Gang) : Bool := match g.savedFor with
  | none => false
  | some (q, v, a, first) => match s.spawn? q v a with
    | some x => !x.parked.isEmpty && x.ready.any fun b => b.1.first == first
    | none => false

/-- A saved gang that may come back: one saved by the scheduler, once the batch it made room for is placed, or one that a CTXLOAD
waits for. -/
def State.mayReturn (s : State) (g : Gang) : Bool :=
  (g.state == .saved && !g.ctxSaved && !(s.batchAwaits g)) || (g.state == .loading && g.saveArea.any fun q => s.loadAlive q)

/-- The saved gangs, the highest priority first and then the earliest save (R396 item 1). -/
def State.serveSaved? (s : State) : Option State :=
  [3, 2, 1, 0].findSome? fun prio => s.saveOrder.findSome? fun gid =>
    match s.gang? gid with
    | none => none
    | some g =>
      if g.prio != prio || !(s.mayReturn g) then none
      else (s.restorePlace gid g).map fun cores => match g.saveArea with
        | some q => (s.restoreGang gid g cores).endLoad q
        | none => s.restoreGang gid g cores

/-! ### CTXSAVE and CTXLOAD (R439, R440) -/

/-- An instruction whose destination is written at once. -/
def Role.given (r : Role) (d : RegName) (ws : BitVec 3) (x : Word) : Role :=
  (((r.bindSlot ws.toNat [d]).setSreg d.num x).slotDone ws.toNat).advance

/-- What a stop of a control block or an area does: a page that is being moved holds the role, every fault is status 2. -/
def State.ctxStop (s : State) (rid : Nat) (o : FmtS) (wait : Bool) : State :=
  if wait then s.holdRole rid .walk else s.updRole rid fun r => r.given o.d o.ws 2

def isWait : Stop → Bool
  | .walk (.fault _) | .issue _ => false
  | _ => true

/-- The pages of an area can be written. -/
def State.areaOk (s : State) (w : Walker) (area size : Nat) : Except VStopped (Unit × State) := do
  let pages := (area + size - 1) / 65536 - area / 65536 + 1
  let (_, s1) ← s.vaSpots w .store ((List.range pages).map fun (i : Nat) =>
    ((if i = 0 then area else (area / 65536 + i) * 65536 : Nat), 8, 0))
  return ((), s1)

/-- CTXSAVE (R439). (DEDUCED, log 92) -/
def execCtxsaveBody (o : FmtS) (s : State) (rid : Nat) (r : Role) : State :=
  match s.loadRecord r .load ((r.sreg o.a.num).toNat : Int) 3 8 with
  | (.error e, s1) => s1.ctxStop rid o (isWait e.1)
  | (.ok ws, s1) =>
    let gid := wfield (ws.getD 0 0) 0 32
    let area := (ws.getD 1 0).toNat
    let size := (ws.getD 2 0).toNat
    let give := fun (s : State) (x : Nat) => s.updRole rid fun q => q.given o.d o.ws (BitVec.ofNat 64 x)
    match s1.gang? gid with
    | none => give s1 1
    | some g =>
      let live := (g.state == .resident || g.state == .saving) && !((s1.rolesOf gid).all fun p => p.2.ended)
      if !live || (r.vmid ≠ 0 && g.vmid ≠ r.vmid) then give s1 1
      else if gid = r.gang then give s1 3
      else if g.state == .saving then give s1 4
      else
        let need := s1.saveSize gid g
        if size < need then give s1 (need * 256 + 5)
        else if area % 4096 ≠ 0 then give s1 2
        else match s1.areaOk (r.walker none) area need with
          | .error (.wait, s2) => s2.holdRole rid .walk
          | .error (_, s2) => give s2 2
          | .ok (_, s2) =>
            let q : SaveReq := { rid := rid, area := area, size := size, dst := o.d, ws := o.ws.toNat }
            ((s2.updGang gid fun x => { x with state := .saving, saveArea := some q }).updRole rid fun p =>
              (p.bindSlot o.ws.toNat [o.d]).advance).send (.gangSaveComplete gid)

/-- The partition that a gang recorded under a VMID is restored into. -/
def State.loadPart (s : State) (r : Role) (vmid : Nat) : Option Nat :=
  if vmid = 0 then some (s.partitionOfCluster (clusterOf r.core)) else s.partOfVmid vmid

/-- CTXLOAD (R440). (DEDUCED, log 98) -/
def execCtxloadBody (o : FmtS) (s : State) (rid : Nat) (r : Role) : State :=
  let area := r.sreg o.a.num
  let give := fun (s : State) (x : Nat) => s.updRole rid fun q => q.given o.d o.ws (BitVec.ofNat 64 x)
  if area.toNat % 4096 ≠ 0 then give s 6
  else match s.loadRecord r .load (area.toNat : Int) 7 8 with
    | (.error e, s1) => s1.ctxStop rid o (isWait e.1)
    | (.ok ws, s1) =>
      let w := fun i => ws.getD i 0
      let vmid := wfield (w 6) 0 4
      let gid := wfield (w 1) 0 32
      match s1.gang? gid with
      | none => give s1 6
      | some g =>
        let free := g.ctxSaved && (g.state == .saved || (g.state == .loading && !(g.saveArea.any fun q => s1.loadAlive q)))
        if w 0 ≠ 0x5341_5645#64 || !free then give s1 6
        else if r.vmid ≠ 0 && vmid ≠ r.vmid then give s1 1
        else match s1.loadPart r vmid with
          | none => give s1 7
          | some part =>
            if !(s1.couldRestore gid g part) then give s1 7
            else
              let q : SaveReq := { rid := rid, area := area.toNat, size := (w 5).toNat, dst := o.d, ws := o.ws.toNat }
              (s1.updGang gid fun x => { x with state := .loading, saveArea := some q, part := part }).holdRole rid .place

end Sys2Proof.Machine
end

