-- ==== Sys2Proof/Machine/Scheduling.lean ====
section
/-! DEFINITION. The scheduler (19 R393, R396, R400, R401): batches of spawn queues, the choice of the next gang to admit,
pre-emption for a full queue, and the retirement of gangs. -/
namespace Sys2Proof.Machine

/-! ### Batches (R400) -/

/-- The walker of the scheduler for a spawn queue. -/
def Spawn.walker (x : Spawn) : Walker := agentWalker 0 x.vmid x.asid 0

/-- The descriptor of a queue as it stands. -/
def State.readSpawn (s : State) (x : Spawn) : Except VStopped (SpawnQ × State) := do
  let (ws, s1) ← s.vaWords x.walker .engRead (x.qva : Int) 8
  return ({ qva := x.qva, w := ws }, s1)

/-- The depth and the partition of the push that wrote a record. -/
def Spawn.origin (x : Spawn) (i : Nat) : Nat × Nat := (x.origins.find i).getD (0, 0)

/-- Consecutive untaken records of one depth from `i` on that do not pass the ring's end; `n` bounds them. -/
def runLength (q : SpawnQ) (x : Spawn) (d : Nat) : Nat → Nat → Nat
  | _, 0 => 0
  | i, n + 1 =>
    if i = q.tail || (x.origin i).1 ≠ d then 0
    else if q.place i + 1 = q.cap then 1 else 1 + runLength q x d ((i + 1) % 2 ^ 32) n

/-- The batch that can be formed: BATCH records, or fewer once the oldest has waited. -/
def batchOf (q : SpawnQ) (x : Spawn) : Option Batch :=
  if q.err || q.bad || q.taken = q.tail then none
  else
    let d := (x.origin q.taken).1
    let n := runLength q x d q.taken q.batch
    if n = q.batch || x.timeout then some { first := q.taken, count := n, depth := d, gang := none, retired := false } else none

/-- ERR of a spawn queue is set with a code, and the host is signalled; none while the descriptor's page is being moved. -/
def State.spawnError? (s : State) (x : Spawn) (code : Nat) : Option State :=
  match s.vaStores x.walker .engWrite [((x.qva + 0x38 : Nat), 8, 2 ^ 63 + code)] with
  | .error (.wait, _) => none
  | .ok (_, s1) | .error (_, s1) => some (s1.signal (.spawnErr x.qva))

/-- What the queue's batch could not have sets ERR; where that has to wait, it comes up again with the batch. -/
def State.spawnError (s : State) (x : Spawn) (code : Nat) : State := (s.spawnError? x code).getD s

/-- SPAWN_BATCH_FORM: a batch is formed with the launch descriptor that LDESC names, or the queue's ERR is set. -/
def State.formBatch? (s : State) (qva vmid asid : Nat) : Option State :=
  match s.spawn? qva vmid asid with
  | none => none
  | some x =>
    if x.ready.isSome then none
    else match s.readSpawn x with
      | .error _ => none
      | .ok (q, s1) => match batchOf q x with
        | none => none
        | some b => match s1.readShape x.walker q.ldesc with
          | .ok (d, s2) => some (s2.updSpawn qva vmid asid fun y => { y with ready := some (b, d) })
          | .error (.wait, _) => none
          | .error (.bad, s2) => some (s2.spawnError x 1)
          | .error (.cause _ _, s2) => some (s2.spawnError x 2)

def execSpawnBatchForm (qva vmid asid : Nat) (s : State) : Out := .next ((s.formBatch? qva vmid asid).getD s)

/-- The oldest untaken record of the queue has waited 1,800 cycles. -/
def execSpawnBatchTimeout (qva vmid asid : Nat) (s : State) : Out :=
  .next (s.updSpawn qva vmid asid fun x => { x with timeout := true })

/-- The cores for a formed batch. -/
def State.batchPlace (s : State) (x : Spawn) (q : SpawnQ) (b : Batch) (sh : Shape) : Option (List Nat) :=
  let part := (x.origin b.first).2
  placeOn (fun c k => !(s.reservedFrom part q.prio c none) && s.coreFits c 0 (sh.need k) sh.sp {} (Need.zero, 0) false) sh.cores
    (s.clustersOf part)

/-- Admit the gang of a formed batch; TAKEN advances past its records. -/
def State.takeBatch? (s : State) (x : Spawn) : Option State :=
  match x.ready with
  | none => none
  | some (b, d) => match s.readSpawn x, shapeOf d with
    | .ok (q, s1), some sh => match s1.batchPlace x q b sh with
      | none => none
      | some cores =>
        let taken := (b.first + b.count) % 2 ^ 32
        match s1.vaStores x.walker .engWrite [((x.qva + 0x30 : Nat), 4, taken)] with
        | .error _ => none
        | .ok (_, s2) =>
          let g := q.place b.first
          let gang : Gang :=
            { grid := 0, g := g, vmid := x.vmid, asid := x.asid, prio := q.prio, part := (x.origin b.first).2, cores := cores,
              nteams := sh.teams.length, sp := sh.sp, done := q.done.toNat,
              origin := .spawn x.qva x.vmid x.asid b.first b.count b.depth, tlbase := sh.tlbase }
          let args := [BitVec.ofInt 64 (q.recordAt b.first), BitVec.ofNat 64 b.count, BitVec.ofNat 64 x.qva, BitVec.ofNat 64 b.depth]
          let gone := (List.range b.count).map fun i => (b.first + i) % 2 ^ 32
          let gid := s2.nextGang
          some ((s2.admitGang sh gang args s2.clock).updSpawn x.qva x.vmid x.asid fun y =>
            { y with ready := none, timeout := false, batches := y.batches ++ [{ b with gang := some gid }],
                     origins := y.origins.filter fun p => !(gone.contains p.1) })
    | _, _ => none

/-- A queue's PRIO. -/
def State.spawnPrio (s : State) (x : Spawn) : Nat := match s.readSpawn x with
  | .ok (q, _) => q.prio
  | .error _ => 0

/-- The queue that comes first: a full one before any other, then higher PRIO, then the earliest parked push (R401). -/
def fullBefore (a b : Nat × Nat × Spawn) : Bool :=
  a.1 > b.1 || (a.1 == b.1 && a.2.1 ≤ b.2.1)

/-- Full queues with their PRIO and the place of their first parked push. -/
def State.fullQueues (s : State) : List (Nat × Nat × Spawn) :=
  s.spawns.filterMap fun x => match x.parked with
    | p :: _ => some (s.spawnPrio x, p.stamp, x)
    | [] => none

/-- Put a queue in its order. -/
def insertFull (a : Nat × Nat × Spawn) : List (Nat × Nat × Spawn) → List (Nat × Nat × Spawn)
  | [] => [a]
  | b :: rest => if fullBefore a b then a :: b :: rest else b :: insertFull a rest

def State.fullOrder (s : State) : List Spawn := (s.fullQueues.foldr insertFull []).map fun p => p.2.2

/-- The batches of spawn queues (R396 item 2, R401). -/
def State.serveSpawns? (s : State) : Option State :=
  (s.fullOrder ++ s.spawns.filter fun x => x.parked.isEmpty).findSome? fun x => s.takeBatch? x

/-! ### The choice (R396) -/

/-- GANG_ADMIT: a head packet that is due is read, or the next gang is admitted; none where there is neither. -/
def State.admitStep? (s : State) : Option State :=
  match s.loadHeads? with
  | some t => some t
  | none => match s.serveSaved? with
    | some t => some t
    | none => match s.serveSpawns? with
      | some t => some t
      | none => s.serveQueues?

def execGangAdmit (s : State) : Out := .next ((s.admitStep?).getD s)

/-! ### Pre-emption (R401) -/

/-- The queue that a role is parked on is full: its push is among the parked. -/
def State.parkedFull (s : State) (r : Role) : Bool := match r.hold with
  | .parked q v a => match s.spawn? q v a with
    | some x => !x.parked.isEmpty
    | none => false
  | _ => false

/-- All unended roles of a resident gang of the partition are parked on full queues. (DESIGN CHOICE, log 90) -/
def State.preemptible (s : State) (part gid : Nat) (g : Gang) : Bool :=
  let live := (s.rolesOf gid).filter fun p => !p.2.ended
  g.state == .resident && g.part == part && !live.isEmpty && live.all fun p => s.parkedFull p.2

/-- The saves of gangs that would give a batch its cores: the first gang whose save alone does, else the first of those whose saves
together do. -/
def State.makesRoom (s : State) (x : Spawn) (q : SpawnQ) (b : Batch) (sh : Shape) : Option Nat :=
  let gs := s.gangs.filter fun p => s.preemptible (x.origin b.first).2 p.1 p.2
  let fits := fun (l : List (Nat × Gang)) => ((l.foldl (fun t p => t.doSave p.1 p.2) s).batchPlace x q b sh).isSome
  match gs.find? fun p => fits [p] with
  | some p => some p.1
  | none => if fits gs then gs.head?.map (·.1) else none

/-- SCHEDULER_PREEMPT: for a full queue whose batch cannot be placed, the save of such a gang begins. -/
def State.preempt? (s : State) : Option State :=
  if s.gangs.any fun p => p.2.state == .saving && p.2.saveArea.isNone then none
  else s.fullOrder.findSome? fun x => match x.ready with
    | none => none
    | some (b, d) => match s.readSpawn x, shapeOf d with
      | .ok (q, _), some sh =>
        if (s.batchPlace x q b sh).isSome then none
        else (s.makesRoom x q b sh).map fun g =>
          (s.updGang g fun y => { y with state := .saving, saveArea := none, savedFor := some (x.qva, x.vmid, x.asid, b.first) }).send
            (.gangSaveComplete g)
      | _, _ => none

def execSchedulerPreempt (s : State) : Out := .next ((s.preempt?).getD s)

/-! ### Retirement (R393) -/

/-- Every access, reduction and command of the gang's roles that the release covers is out of the way, and no operation is left. -/
def State.retireReady (s : State) (gid : Nat) (g : Gang) : Bool :=
  let rs := s.rolesOf gid
  rs.all fun p => p.2.ended && s.releaseReady p.1 p.2 5 && !(s.busyOps p.1 p.2) &&
    g.cores.all fun c => !((s.core c).jobs.any fun j => j.rid == p.1)

/-- HEAD advances past a retired batch once every earlier batch has retired (R400). -/
def State.passBatches (s : State) (x : Spawn) (gid : Nat) : Option State :=
  let bs := x.batches.map fun b => if b.gang = some gid then { b with retired := true } else b
  let gone := bs.takeWhile fun b => b.retired
  let s1 := s.updSpawn x.qva x.vmid x.asid fun y => { y with batches := bs.drop gone.length }
  if gone.isEmpty then some s1
  else match s1.readSpawn x with
    | .error (.wait, _) => none
    | .error (_, s2) => some s2
    | .ok (q, s2) =>
      match s2.vaStores x.walker .engWrite [((x.qva + 0x20 : Nat), 4, (q.head + gone.foldl (fun a b => a + b.count) 0) % 2 ^ 32)] with
      | .error (.wait, _) => none
      | .error (_, s3) => some s3
      | .ok (_, s3) => some s3

/-- The failure of a gang's DONE add: its queue stops, or its spawn queue's ERR is set, with CODE 4; none while that has to wait. (DEDUCED, log 99) -/
def State.doneFailed? (s : State) (g : Gang) : Option State := match g.origin with
  | .queue q => some (s.queueError q 4)
  | .spawn q v a _ _ _ => match s.spawn? q v a with
    | some x => s.spawnError? x 4
    | none => some s

/-- The DONE add, which an aborted gang does not make; none where its page is being moved. -/
def State.doneAdd? (s : State) (g : Gang) : Option State :=
  if g.noDone || g.done = 0 then some s
  else match (s.tick (s.gangPts g)).vaAdd (agentWalker (dieOf (g.cores.headD 0)) g.vmid g.asid 0) (g.done : Int) 1 with
    | .ok (_, s1) => some s1
    | .error (.wait, _) => none
    | .error (_, s1) => s1.doneFailed? g

/-- The roles of a retired gang are gone, and their cores are free. -/
def State.removeRoles (s : State) (gid : Nat) : State :=
  let rs := s.rolesOf gid
  let mine := fun (rid : Nat) => rs.any fun p => p.1 == rid
  { s with
    roles := s.roles.filter fun p => p.2.gang != gid, badRegs := s.badRegs.filter (fun b => !(mine b.1)),
    weakRegs := s.weakRegs.filter (fun b => !(mine b.1)),
    cores := s.cores.map fun p => (p.1, { p.2 with slots := p.2.slots.filter (fun q => !(mine q.2)),
                                                    last := p.2.last.bind fun r => if mine r then none else some r }) }

/-- GANG_RETIRE: the DONE add, then the gang's places are freed; its scratchpad goes once the local-context commands that name
its window have completed. None while it has to wait. (DEDUCED, log 88) -/
def State.retireStep? (s : State) (gid : Nat) : Option State :=
  match s.gang? gid with
  | none => none
  | some g =>
    if g.state == .retired then
      if s.windowDue gid then none
      else some { s with gangs := s.gangs.del gid, badSpad := s.badSpad.filter (fun b => b.1 != gid), weakSpad := s.weakSpad.filter (fun b => b.1 != gid),
                         ctxs := s.ctxs.filter fun c => match c.1 with
                           | .local x _ => x != gid || !c.2.unfinished.isEmpty
                           | _ => true }
    else if g.state != .resident || !(s.retireReady gid g) then none
    else match s.doneAdd? g with
      | none => none
      | some s1 =>
        let s2 := s1.updGang gid fun x => { x with noDone := true }
        let s3 := match g.origin with
          | .spawn q v a _ _ _ => match s2.spawn? q v a with
            | some x => s2.passBatches x gid
            | none => some s2
          | .queue _ => some s2
        match s3 with
        | none => some s2
        | some t => some (((t.removeRoles gid).updGang gid fun x => { x with state := .retired }).coresFreed g.cores)

def execGangRetire (gang : Nat) (s : State) : Out := .next ((s.retireStep? gang).getD s)

end Sys2Proof.Machine
end

