-- ==== Sys2Proof/Machine/System.lean ====
section
/-! DEFINITION. The system instructions (21 R429-R444): launches, yielding, traps and their return, special registers, caches and
translations, gang contexts, the fault ring, and HALT. -/
namespace Sys2Proof.Machine

/-! ### Who may issue (R47, R409, R429) -/

/-- A word that both kinds of handler may issue; outside handler mode it raises PRIV. -/
def handlerWord (s : State) (f : Nat → Role → State) : Out :=
  onRole s fun rid r => if r.handler then f rid r else s.trap rid cPRIV 0

/-- A word that only a privileged handler may issue. (DEDUCED, log 51) -/
def privWord (s : State) (f : Nat → Role → State) : Out :=
  onRole s fun rid r => if r.privileged then f rid r else s.trap rid cPRIV 0

/-! ### LAUNCH and YIELD (R430, R432) -/

/-- The cause of an access of die `d` to a physical address under a VMID (R71, R75, R84, R140), with what a read that fails has done;
none where the access is free to go on. (DEDUCED, log 52) -/
def State.physCause (s : State) (d pa vmid : Nat) : Option (Nat × State) :=
  if regionOf pa == .reserved then some (cNOTPRESENT, s)
  else if regionOf pa == .window || s.keyMissing (lineOf pa) vmid then some (cPERM, s)
  else if s.homeLost (lineOf pa) then some (cHOME_LOST, s)
  else
    let (s1, bad) := s.readCheck d (lineOf pa)
    if bad then some (cDATA_ERROR, s1) else none

/-- The entry takes no LAUNCH of the role. -/
def launchRefused (r : Role) (e : List Word) : Bool :=
  qRsize e < 2 || 16 < qRsize e || qVmid e != r.vmid || qAsid e != r.asid

/-- The push itself: the packet at ring index PROD, then PROD, and the LAUNCH mark. -/
def State.pushPacket (s : State) (r : Role) (q : Nat) (e packet : List Word) : State :=
  let t := s.tick (s.core r.core).pts
  let s1 := t.writeWords (dieOf r.core) (packetAddr e (qProd e)) r.vmid packet
  (s1.writeQueueWord q 1 (withField (e.getD 1 0) 32 32 (qProd e + 1))).setQueueState q { s1.queueState q with mark := true }

def execLaunch (o : FmtQ) (s : State) : Out :=
  onRole s fun rid r =>
    let va := (r.sreg o.a.num).toNat
    let q := wfield (r.sreg o.b.num) 0 16
    match s.issueCause r .load (va : Int) 128 128 with
    | some c => s.trap rid c (r.sreg o.a.num)
    | none =>
      if s.windowOpen rid r then s.setRole rid (r.holdAt .window)
      else if !(s.releaseReady rid r 4) then s.setRole rid (r.holdAt .drain)
      else match s.physCause (dieOf r.core) (s.queueAddr q) 0 with
        | some (c, s1) => s1.loadFault rid c 0 r.ipc false
        | none =>
          let (e, s1) := s.queueEntry q
          if !(wbit (e.getD 0 0) 63) then (s1.setQueueState q { s1.queueState q with mark := false }).trap rid cQUEUE 0
          else if launchRefused r e then s1.trap rid cQUEUE 0
          else match s1.loadRecord r .load (va : Int) 16 128 with
            | (.error x, s2) => s2.stopRole rid x false
            | (.ok packet, s2) =>
              if 2 ^ qRsize e ≤ (qProd e + 2 ^ 32 - qCons e) % 2 ^ 32 then s2.updRole rid fun x => x.given o.d o.ws (~~~0)
              else match s2.physCause (dieOf r.core) (packetAddr e (qProd e)) r.vmid with
                | some (c, s3) => s3.loadFault rid c 0 r.ipc true
                | none => (s2.pushPacket r q e packet).updRole rid fun x => x.given o.d o.ws (BitVec.ofNat 64 (qProd e))

def execYield (_o : FmtQ) (s : State) : Out :=
  onRole s fun rid r =>
    (s.setRole rid { r with yielded := true }.advance).updCore r.core fun k =>
      { k with last := if k.last == some rid then none else k.last }

/-! ### Traps (R433, R434) -/

def execTrap (o : FmtS) (s : State) : Out :=
  onRole s fun rid r =>
    s.trapWith rid (0x80 + o.smod.toNat % 128) false false false 0 0 (if o.smod.getLsbD 7 then r.sreg o.a.num else 0) r.next

/-- TRET: the role leaves handler mode, and the fetch that follows resumes it at TPC. -/
def execTret (_o : FmtS) (s : State) : Out := handlerWord s fun rid r => s.setRole rid r.leaveHandler

def execTack (_o : FmtS) (s : State) : Out := wordStep s fun r => { r.advance with tackNext := true }

/-! ### Special registers (R62, R104, R210-R214, R435) -/

/-- Who may reach a special register (R210). -/
inductive Right where
  | any | handler | privileged | nobody
deriving DecidableEq, Repr

def readRight (n : Nat) : Right :=
  if n < 0x30 then .any
  else if n < 0x35 then .handler
  else .privileged

def writeRight (n : Nat) : Right :=
  if n < 0x10 then .nobody
  else if n = 0x10 || n = 0x12 || n = 0x13 then .any
  else if n = 0x15 || n = 0x34 || n = 0x35 || n = 0x40 then .privileged
  else if n = 0x41 || n = 0x42 then .nobody
  else .handler

def Role.hasRight (r : Role) : Right → Bool
  | .any => true
  | .handler => r.handler
  | .privileged => r.privileged
  | .nobody => false

/-- The logical die behind physical seam port `i` of a die (R63). -/
def seamPeer (d : Die) (i : Nat) : Nat := (d.val + i + 1) % 4

/-- DIEORIENT of a die (R62). -/
def dieOrient (d : Die) : Word :=
  BitVec.ofNat 64 (d.val + 4 * d.val + 16 * seamPeer d 0 + 64 * seamPeer d 1 + 256 * seamPeer d 2)

/-- The value of a special register other than LANEID. -/
def State.special (s : State) (r : Role) (n : Nat) : Word :=
  match n with
  | 0x02 => BitVec.ofNat 64 r.ix
  | 0x03 => BitVec.ofNat 64 r.team
  | 0x04 => BitVec.ofNat 64 r.rank
  | 0x05 => BitVec.ofNat 64 (r.gang % 2 ^ 32)
  | 0x06 => BitVec.ofNat 64 (r.grid % 2 ^ 32)
  | 0x07 => BitVec.ofNat 64 r.nlanes
  | 0x10 => r.fmt
  | 0x11 => r.amax
  | 0x12 => r.fpstat
  | 0x13 => r.cc
  | 0x14 => BitVec.ofNat 64 r.wver
  | 0x15 => BitVec.ofNat 64 (s.core r.core).pts
  | 0x16 => r.rsbase
  | 0x17 => BitVec.ofNat 64 (r.limit * 2 ^ 32 + r.depth)
  | 0x30 => r.tvec
  | 0x31 => r.tcause
  | 0x32 => r.taddr
  | 0x33 => r.tpc
  | 0x34 => BitVec.ofNat 64 r.asid
  | 0x35 => (s.core r.core).logstat
  | 0x40 => (s.die (dieOf r.core)).hashsel
  | 0x41 => dieOrient (dieId (dieOf r.core))
  | 0x42 => BitVec.ofNat 64 (windowBase + 0x400)
  | _ => if 0x21 ≤ n && n < 0x30 then BitVec.ofNat 64 (Sparse.get 0 r.views (n - 0x20)) else 0

def execSread (o : FmtS) (s : State) : Out :=
  onRole s fun rid r =>
    let n := o.sreg.toNat
    if !(r.hasRight (readRight n)) then s.trap rid cPRIV 0
    else s.setRole rid (r.write o.d o.mask fun l => (if n = 1 then BitVec.ofNat 64 l else s.special r n, 0)).advance

/-- RSDEPTH: a lower DEPTH drops the entries above it, and a higher one names entries in the stack area. (DESIGN CHOICE, log 49) -/
def Role.setDepth (r : Role) (v : Word) : Role :=
  let d := wfield v 0 32
  { r with limit := wfield v 32 32, depth := d, stack := if d ≤ r.depth then r.stack.drop (r.depth - d) else [] }

/-- The role's own special registers, each under its map. (DEDUCED, log 53) (DEDUCED, log 158) -/
def Role.setSpecial (r : Role) (n : Nat) (v : Word) : Role :=
  match n with
  | 0x10 => { r with fmt := v &&& 0x3FF#64 }
  | 0x11 => { r with amax := v &&& 0x7FFF_FFFF_FFFF_FFFF#64 }
  | 0x12 => { r with fpstat := v &&& 0x1F#64 }
  | 0x13 => { r with cc := v &&& 0x1F#64 }
  | 0x14 => { r with wver := wfield v 0 32 }
  | 0x16 => { r with rsbase := v &&& ~~~(0x1F#64) }
  | 0x17 => r.setDepth v
  | 0x30 => { r with tvec := v }
  | 0x31 => { r with tcause := v &&& 0x0003_FFFF_0000_07FF#64 }
  | 0x32 => { r with taddr := v }
  | 0x33 => { r with tpc := v }
  | 0x34 => { r with asid := wfield v 0 16 }
  | _ => if 0x21 ≤ n && n < 0x30 then { r with views := Sparse.set 0 r.views (n - 0x20) (wfield v 0 32) } else r

def execSwrite (o : FmtS) (s : State) : Out :=
  onRole s fun rid r =>
    let n := o.sreg.toNat
    let v := r.sreg o.a.num
    if !(r.hasRight (writeRight n)) then s.trap rid cPRIV 0
    else if n = 0x10 && !(fmtOk v) then s.trap rid cILLEGAL 0
    else
      let s1 := if n = 0x15 then s.raisePts r.core v.toNat else if n = 0x40 then s.writeHashsel (dieOf r.core) v else s
      s1.setRole rid (r.setSpecial n v).advance

/-! ### Caches and translations (R436-R438) -/

/-- The causes of a range that starts at `a` with `n` bytes. -/
def rangeBad (a : Word) (n : Nat) : Bool := !(canonRange (a.toNat : Int) 1) || (n != 0 && !(canonRange (a.toNat : Int) n))

/-- What TLBINV removes: everything, a VMID, an ASID of a VMID, or the bytes from `lo` of an address space, `lo` being VA[56:0]. -/
inductive InvKind where
  | all | vmid (vmid : Nat) | asid (vmid asid : Nat) | range (vmid asid lo n : Nat)
deriving DecidableEq, Repr

/-- A page of 2^shift bytes, or a line, at VA[56:0] `va` matches. -/
def InvKind.hits (k : InvKind) (vmid asid va size : Nat) : Bool :=
  match k with
  | .all => true
  | .vmid v => vmid == v
  | .asid v a => vmid == v && asid == a
  | .range v a lo n => vmid == v && asid == a && decide (n ≠ 0) && decide (va < lo + n) && decide (lo < va + size)

/-- The largest page that holds an address: 1 GiB. -/
def InvKind.hitsPage (k : InvKind) (vmid asid va : Nat) : Bool := k.hits vmid asid (va % 2 ^ 57 / 2 ^ 30 * 2 ^ 30) (2 ^ 30)

/-- An access that translated through a matching page is on its way. (DEDUCED, log 67) -/
def State.inFlight (s : State) (k : InvKind) : Bool :=
  let ofRole := fun (rid va : Nat) => match s.role? rid with
    | some r => k.hitsPage r.vmid r.asid va
    | none => false
  let ofFlow := fun (t : FlowTransfer) => k.hitsPage (s.ctx t.ctx).vmid (s.ctx t.ctx).asid t.addr.toNat
  (s.cores.any fun p =>
    (p.2.ops.any fun o => o.2.stop == .go && o.2.waiting.any fun e => match e.target with
      | .mem _ _ t _ _ _ => k.hitsPage t.vmid t.asid e.va
      | _ => false) ||
    (p.2.jobs.any fun j => k.hitsPage j.vmid j.asid j.va) ||
    (p.2.refused.any fun u => ofRole u.rid u.va)) ||
  (s.loadsOut.any fun m => k.hitsPage m.tag.vmid m.tag.asid (m.tag.va * 128)) ||
  (s.afoot.any fun i => match i with
    | .accLineUpdate u => ofRole u.rid u.va
    | .accumulatorAccess a => ofRole a.rid a.va
    | .flowTransferReceive t => ofFlow t
    | _ => false) ||
  (s.dies.any fun d => d.2.flowHeld.any ofFlow || d.2.flowRefused.any ofFlow ||
    (d.2.portRefused.any fun u => ofRole u.rid u.va) || d.2.reorder.any fun h => ofRole h.update.rid h.update.va)

/-- Remove cached translations, resolutions and L1 lines throughout the package. (DEDUCED, log 103) -/
def State.invalidate (s : State) (k : InvKind) : State :=
  { s with
    dies := s.dies.map fun p => (p.1, { p.2 with
      tlb := p.2.tlb.filter fun t => !(k.hits t.vmid t.asid (t.va * 2 ^ t.shift) (2 ^ t.shift)) }),
    cores := s.cores.map fun p => (p.1, { p.2 with
      l1 := p.2.l1.filter fun l => !(k.hitsPage l.tag.vmid l.tag.asid (l.tag.va * 128)),
      resolutions := p.2.resolutions.filter fun q => !(k.hitsPage q.vmid q.asid (q.va * 2 ^ 16)) }) }

def execTlbinv (o : FmtS) (s : State) : Out :=
  privWord s fun rid r =>
    let a := r.sreg o.a.num
    let n := (r.sreg o.d.num).toNat
    let kind : InvKind := match o.smod.toNat with
      | 0 => .range r.vmid r.asid (a.toNat % 2 ^ 57) n
      | 1 => .asid r.vmid (wfield a 0 16)
      | 2 => .vmid (wfield a 0 4)
      | _ => .all
    if o.smod == 0 && rangeBad a n then s.trap rid cNONCANON a
    else if s.inFlight kind then s.setRole rid (r.holdAt .drain)
    else (s.invalidate kind).updRole rid fun x => x.advance

/-- The interleaved offset of a canonical HBM address (R58). -/
def interleave (c : Nat) : Nat :=
  let q := c % 2 ^ 36 / 2 ^ 12
  (q * 8 + ((c / 2 ^ 36) ^^^ (q % 8))) * 2 ^ 12 + c % 2 ^ 12

/-- A line has a byte at one of its physical addresses in the `n` bytes from `lo`. -/
def lineMeets (lo n line : Nat) : Bool :=
  let meets := fun (a : Nat) => decide (a < lo + n) && decide (lo < a + 128)
  decide (n ≠ 0) && (meets (lineAddr line) || (regionOf (lineAddr line) == .hbm && !(interleaved (lineAddr line)) &&
    meets (2 ^ 39 + interleave (lineAddr line))))

/-- Every line that some cache or directory of the package knows. -/
def State.knownLines (s : State) : List Nat :=
  let ls := s.dies.flatMap (fun p => (p.2.lines.map fun l => l.line) ++ (p.2.t0.map fun e => e.2.line) ++ (p.2.t1.map fun e => e.2.line) ++
      (p.2.victims.map fun v => v.entry.line)) ++
    s.cores.flatMap (fun p => p.2.l1.map fun l => l.line) ++ s.hostLines.map fun l => l.line
  ls.foldl (fun a l => if a.contains l then a else l :: a) []

/-- The physical ranges of the pages that the `n` bytes from `va` meet: pages whose walk fails, peer pages and the on-chip window are
skipped. `k` 64 KiB steps are left. -/
def State.flushRanges (s : State) (r : Role) (va last : Nat) : Nat → List (Nat × Nat) × State
  | 0 => ([], s)
  | k + 1 =>
    if last < va then ([], s)
    else
      let stop := min (last + 1) (va / 2 ^ 16 * 2 ^ 16 + 2 ^ 16)
      let (here, s1) := if onChip va then ([], s) else match s.walk (r.walker none) .load va with
        | (.ok m, s1) => ([(m.pa, stop - va)], s1)
        | (_, s1) => ([], s1)
      let (rest, s2) := State.flushRanges s1 r stop last k
      (here ++ rest, s2)

/-- Remove the known lines of physical ranges from every cache; none while one of them has a transaction in progress. -/
def State.flushLines (s : State) (ranges : List (Nat × Nat)) : Option State :=
  let ls := s.knownLines.filter fun l => ranges.any fun p => lineMeets p.1 p.2 l
  if ls.all fun l => s.quiet l then some (ls.foldl (fun s l => s.dropLine l true) s) else none

/-- LFLUSH (R437). (DEDUCED, log 104) -/
def execLflush (o : FmtS) (s : State) : Out :=
  onRole s fun rid r =>
    let a := r.sreg o.a.num
    let n := (r.sreg o.d.num).toNat
    let pa := o.smod.getLsbD 0
    if !(if pa then r.privileged else r.handler) then s.trap rid cPRIV 0
    else if !pa && rangeBad a n then s.trap rid cNONCANON a
    else if s.opsDue rid r fun p _ => p.kind == .store || p.kind == .atomic then s.setRole rid (r.holdAt .drain)
    else
      let (ranges, s1) := if n = 0 then ([], s) else if pa then ([(a.toNat, n)], s)
        else s.flushRanges r a.toNat (a.toNat + n - 1) (n / 2 ^ 16 + 2)
      match s1.flushLines ranges with
      | none => s1.updRole rid fun x => x.holdAt .drain
      | some s2 => s2.updRole rid fun x => x.advance

/-- The bytes from `a` on meet a range of addresses. -/
def meetsRange (lo n a size : Nat) : Bool := decide (n ≠ 0) && decide (a < lo + n) && decide (lo < a + size)

/-- A fetched clause whose header has not issued goes. -/
def Role.dropClause (r : Role) (lo n : Nat) : Role :=
  match r.clause with
  | some c => if !c.issued && meetsRange lo n c.addr.toNat (8 * (c.words.length + 1)) then { r with clause := none, pc := c.addr } else r
  | none => r

/-- LINV (R438). (DEDUCED, log 105) -/
def execLinv (o : FmtS) (s : State) : Out :=
  handlerWord s fun rid r =>
    let lo := (r.sreg o.a.num).toNat
    let n := (r.sreg o.d.num).toNat
    let s1 := s.updCore r.core fun k => { k with
      l1 := k.l1.filter fun l => !(l.tag.vmid == r.vmid && l.tag.asid == r.asid && meetsRange lo n (sext57 (128 * l.tag.va)) 128),
      fetched := k.fetched.filter fun f => !(f.vmid == r.vmid && f.asid == r.asid && meetsRange lo n f.addr.toNat (8 * f.words.length)) }
    let s2 := (s1.coreRoles r.core).foldl (fun s p =>
      if p.2.2.vmid = r.vmid && p.2.2.asid = r.asid then s.updRole p.2.1 fun x => x.dropClause lo n else s) s1
    s2.updRole rid fun x => x.advance

/-! ### Gang contexts (R439, R440) -/

/-- The role's earlier accesses are performed before an instruction reads a control block or a save area. -/
def settledWord (s : State) (f : Nat → Role → State) : Out :=
  handlerWord s fun rid r =>
    if s.windowOpen rid r then s.setRole rid (r.holdAt .window)
    else if s.busyOps rid r then s.setRole rid (r.holdAt .drain)
    else f rid r

def execCtxsave (o : FmtS) (s : State) : Out := settledWord s fun rid r => execCtxsaveBody o s rid r
def execCtxload (o : FmtS) (s : State) : Out := settledWord s fun rid r => execCtxloadBody o s rid r

/-! ### The fault ring (R441-R443) -/

def execLogreplay (o : FmtS) (s : State) : Out :=
  privWord s fun rid r =>
    let w := r.sreg o.a.num
    (s.verdict (wfield w 16 2) (wfield w 0 16) (o.smod.getLsbD 0)).updRole rid fun x => x.advance

def execFqpop (o : FmtS) (s : State) : Out :=
  privWord s fun rid r =>
    let d := dieOf r.core
    if ringProd s d = ringCons s d then
      if o.smod.getLsbD 0 then s.setRole rid (r.holdAt .fqpop) else s.setRole rid (r.given o.d o.ws (~~~0))
    else
      let idx := ringCons s d % 2 ^ ringSizeLog s d
      (s.writeCons d (BitVec.ofNat 64 (ringCons s d + 1))).setRole rid (r.given o.d o.ws (BitVec.ofNat 64 (idx % 2 ^ 16 + 2 ^ 16 * d)))

/-! ### HALT (R444) -/

/-- The roles that a HALT ends: those of the team or of the gang. -/
def State.haltSet (s : State) (r : Role) (gang : Bool) : List (Nat × Role) :=
  (s.rolesOf r.gang).filter fun p => gang || p.2.team == r.team

/-- A role stops: at once where it stands at a clause boundary or a hold point, else when it comes to one. -/
def State.haltRole (s : State) (rid : Nat) (r : Role) (own : Bool) : State :=
  if own || s.stands rid r then (s.discardLog rid r.core).endRole rid else s.updRole rid fun x => { x with halting := true }

/-- HALT (R444). (DEDUCED, log 100) -/
def execHalt (o : FmtS) (s : State) : Out :=
  handlerWord s fun rid r =>
    (s.haltSet r (o.smod.getLsbD 0)).foldl (fun s p => s.haltRole p.1 p.2 (p.1 == rid)) s

end Sys2Proof.Machine
end

