-- ==== Sys2Proof/Machine/Snapshot.lean ====
section
/-! DEFINITION. Free rings and returns (03 R94, R472), and the snapshot engine (04 R111-R113, R116, 27 R466): copy-on-write, reclaim
and the background sweep. -/
namespace Sys2Proof.Machine

/-! ### Words of the tables that engines write -/

/-- Replace the word at `pa` by `f` of it, whole, under VMID 0's key: the old word, and the state after. `e` names the snapshot engine
whose pts places the access (R117); each write of an engine follows the one before it in the global order (R466). -/
def State.changeWord (s : State) (e : Option Nat) (d pa : Nat) (f : Nat → Nat) : Nat × State :=
  let (old, t, s1) := s.rmwIn d pa 8 0 (s.clockOf e) f
  (old, s1.tickOf e t)

def State.putWord (s : State) (e : Option Nat) (d pa : Nat) (x : Word) : State := (s.changeWord e d pa fun _ => x.toNat).2

/-- Read one word likewise. -/
def State.getWord (s : State) (e : Option Nat) (d pa : Nat) : Word × State :=
  let (x, t, s1) := s.readIn d pa 8 0 (s.clockOf e)
  (BitVec.ofNat 64 x, s1.tickOf e t)

/-! ### Free rings (R94, R472) -/

def migOff (t : Nat) : Nat := 0x2000 + 0x100 * t
def State.freeRing (s : State) (d t : Nat) : Nat := s.regField d (migOff t + 0x10) 12 40 * 2 ^ 12
def State.freeSize (s : State) (d t : Nat) : Nat := 2 ^ s.regField d (migOff t + 0x10) 0 5
def State.freeProd (s : State) (d t : Nat) : Nat := s.regField d (migOff t + 0x18) 32 32
def State.freeCons (s : State) (d t : Nat) : Nat := s.regField d (migOff t + 0x18) 0 32

/-- The next frame of a ring, as it stands: PA[51:16]. -/
def State.freePeek (s : State) (d t : Nat) : Option Nat :=
  if !(s.ringOk d t) || s.freeCount d t = 0 then none
  else some (s.peek (s.freeRing d t + 8 * (s.freeCons d t % s.freeSize d t)) 8 0 % 2 ^ 36)

/-- Take the next frame of a ring. -/
def State.freeTake (s : State) (e : Option Nat) (d t : Nat) : Option (Nat × State) :=
  match s.freePeek d t with
  | none => none
  | some _ =>
    let (x, s1) := s.getWord e d (s.freeRing d t + 8 * (s.freeCons d t % s.freeSize d t))
    some (wfield x 0 36, s1.setRegField d (migOff t + 0x18) 0 32 (s.freeCons d t + 1))

/-- The ring takes a returned frame. -/
def State.freeRoom (s : State) (d t : Nat) : Bool := s.ringOk d t && decide (s.freeCount d t < s.freeSize d t)

def State.freePut (s : State) (x : Return) : State :=
  let n := s.freeProd x.die x.tier
  (s.putWord x.snap x.die (s.freeRing x.die x.tier + 8 * (n % s.freeSize x.die x.tier)) (BitVec.ofNat 64 (x.frame % 2 ^ 36))).setRegField
    x.die (migOff x.tier + 0x18) 32 32 (n + 1)

/-- The return of a frame: made at once, or it waits; the host hears of the first that waits. (DEDUCED, log 112) -/
def State.giveBack (s : State) (x : Return) : State :=
  let waiting := (s.die x.die).returns.any fun y => y.tier == x.tier
  if !waiting && s.freeRoom x.die x.tier then s.freePut x
  else
    let s1 := s.updDie x.die fun y => { y with returns := y.returns ++ [x] }
    if waiting then s1 else s1.signal (.retwait x.die x.tier)

/-- The waiting returns of a ring that it can take, in order; `n` bounds their number. -/
def State.returnAll (s : State) (d t : Nat) : Nat → State
  | 0 => s
  | n + 1 =>
    match (s.die d).returns.find? fun x => x.tier == t with
    | none => s
    | some x =>
      if s.freeRoom d t then
        State.returnAll ((s.updDie d fun y => { y with returns := y.returns.erase x }).freePut x) d t n
      else s

def execFrameReturnResume (die : Die) (tier : Fin 3) (s : State) : Out :=
  .next (s.returnAll die.val tier.val (s.die die.val).returns.length)

/-! ### Frames -/

/-- The physical address of a frame, and the return of it that the snapshot engine of die `d` makes, to the ring of its tier on the die that
homes it. -/
def framePA (frame : Nat) : Nat := frame * 2 ^ 16
def ringOf (d frame : Nat) : Return :=
  match frameIndex (framePA frame) with
  | some (h, i) => { die := h, tier := if i < 2 ^ 24 then 0 else 1, frame := frame, snap := some d }
  | none => { die := d, tier := 2, frame := frame, snap := some d }

def inFrame (frame line : Nat) : Bool := lineMeets (framePA frame) (2 ^ 16) line

/-- The lines of a frame in address order. -/
def frameLines (frame : Nat) : List Nat := (List.range 512).map fun i => lineOf (framePA frame + 128 * i)

/-- Nothing that translated to the frame is on its way: no access of a role, current or under a view, no prefetch, no transfer, no
transaction on its lines. -/
def State.frameQuiet (s : State) (frame : Nat) : Bool :=
  (s.cores.all fun p => p.2.ops.all fun o => o.2.stop != .go || o.2.waiting.all fun e => match e.target with
    | .mem l _ _ _ _ _ => !(inFrame frame l)
    | _ => true) &&
  (s.loadsOut.all fun m => !(inFrame frame m.line)) &&
  (s.afoot.all fun i => match i with
    | .flowTransferReceive t => !(inFrame frame (lineOf t.pa))
    | _ => true) &&
  s.dies.all fun p =>
    (p.2.flowHeld.all fun t => !(inFrame frame (lineOf t.pa))) && (p.2.flowRefused.all fun t => !(inFrame frame (lineOf t.pa))) &&
    (p.2.homeTx.all fun t => !(inFrame frame t.line)) && (p.2.agentTx.all fun t => !(inFrame frame t.line)) &&
    (p.2.victims.all fun v => !(inFrame frame v.entry.line)) && (p.2.mirWait.all fun m => !(inFrame frame m.line)) &&
    (p.2.waitSt.all fun m => !(inFrame frame m.line))

/-- The translations of a leaf go, and the L1 lines of its frame that ordinary accesses filled (R97, R107, R111). -/
def State.dropPage (s : State) (leafAddr frame : Nat) : State :=
  { s with
    dies := s.dies.map fun p => (p.1, { p.2 with tlb := p.2.tlb.filter fun t => t.leafAddr != leafAddr }),
    cores := s.cores.map fun p => (p.1, { p.2 with
      l1 := p.2.l1.filter fun l => !(l.tag.ver.isNone && inFrame frame l.line), resolutions := [] }) }

/-- The frame's lines leave every L2 and the host's caches, dirty data written home. -/
def State.flushFrame (s : State) (frame : Nat) : State :=
  (s.knownLines.filter fun l => inFrame frame l).foldl (fun s l => s.dropLine l false) s

/-- A read of the frame from memory finds an uncorrectable error. -/
def State.frameBad (s : State) (frame : Nat) : Bool :=
  (s.attrOf (framePA frame)).retired || s.bad.any fun b => inFrame frame (b / 4)

/-- Copy a frame line by line under a VMID's key; the errors that ECC corrects in it are counted (R74). What is written stands above
everything that was performed on the source and on the destination's former lines. -/
def State.copyFrame (s : State) (e : Option Nat) (src dst vmid : Nat) : State :=
  ((frameLines src).zip (frameLines dst)).foldl (fun s p =>
    let h := s.homeOf p.2
    let t := max (max (s.clockOf e) ((s.die (s.homeOf p.1)).mtsOf p.1)) ((s.die h).mtsOf p.2) + 1
    (((s.countWeak p.1).storeLine p.2 vmid (s.fetchLine p.1 vmid)).updDie h fun x => x.raiseMts p.2 t).tickOf e t) (s.flushFrame dst)

/-- The CAS on word 0 of a leaf (R97 step 2, R98): V = 0 and MIG = 1, where the leaf is valid and names the frame. -/
def State.lockLeaf (s : State) (e : Option Nat) (d leafAddr frame : Nat) : Bool × State :=
  let good := fun (x : Nat) => x % 2 == 1 && !(wbit (BitVec.ofNat 64 x) 11) && x / 2 ^ 16 % 2 ^ 36 == frame
  let (old, s1) := s.changeWord e d leafAddr fun x => if good x then x - 1 + 2 ^ 11 else x
  (good old, { s1 with migLost := if good old then s1.migLost.erase leafAddr else s1.migLost })

/-- Word 0 of the leaf names the destination and is valid again; every other bit stands. (DEDUCED, log 109) -/
def State.openLeaf (s : State) (e : Option Nat) (d leafAddr dest : Nat) : State :=
  let (w0, s1) := s.getWord e d leafAddr
  s1.putWord e d leafAddr (withField (withField (withField w0 16 36 dest) 11 1 0) 0 1 1)

/-- Held accesses walk again, and logged stores replay, in log order (R97, R111 step 8). -/
def State.pageDone (s : State) (e : Option Nat) : State := s.wakeWalks.replayWaiting (s.clockOf e)

/-! ### Reclaim (R112) -/

/-- The slot with the lowest version that may go: number and version. -/
def Chain.reclaimable (c : Chain) (cur : Nat) : Option (Nat × ChainSlot) :=
  let all := cur :: (c.slots.filter fun k => k.v).map (·.ver)
  (c.slots.zipIdx.filter fun p => p.1.v && all.any fun b => decide (p.1.ver < b) && decide (b ≤ c.eff)).foldl (fun a p => match a with
    | none => some (p.2 + 1, p.1)
    | some q => if p.1.ver < q.2.ver then some (p.2 + 1, p.1) else some q) none

/-- The slot that goes next, and no load is on its way that has resolved to its frame: such a load reads the frame's data (R112). (DEDUCED, log 173) -/
def State.reclaimNow (s : State) (c : Chain) (cur : Nat) : Option (Nat × ChainSlot) :=
  match c.reclaimable cur with
  | some p => if s.frameQuiet p.2.frame then some p else none
  | none => none

/-- Slot `k` is reclaimed: V clears, the cached lines and resolutions of its version go, and the frame is returned. (DEDUCED, log 106) -/
def State.reclaimSlot (s : State) (d chainAddr k : Nat) (x : ChainSlot) : Return × State :=
  let s1 := (s.changeWord (some d) d (chainAddr + 16 * k) fun w => w / 2 * 2).2
  let s2 : State := { s1 with
    cores := s1.cores.map fun p => (p.1, { p.2 with
      l1 := p.2.l1.filter fun l => !(l.tag.ver == some x.ver && inFrame x.frame l.line), resolutions := [] }),
    dies := s1.dies.map fun p => (p.1, { p.2 with lines := p.2.lines.filter fun l => !(l.kind == .view && inFrame x.frame l.line) }) }
  let ret := ringOf d x.frame
  (ret, s2.giveBack ret)

/-! ### Copy-on-write (R111) -/

def sameCow (a b : CowJob) : Bool := a.leafAddr == b.leafAddr && a.w == b.w
def State.setCow (s : State) (d : Nat) (j : CowJob) : State :=
  s.updDie d fun x => { x with cow := x.cow.map fun q => if sameCow q j then j else q }

/-- A copy ends: requests behind it are dropped, since their stores are checked again (R111 step 1). (DEDUCED, log 108) -/
def State.endCow (s : State) (d : Nat) (j : CowJob) : State :=
  (s.updDie d fun x => { x with cow := x.cow.filter fun q => q.leafAddr != j.leafAddr }).pageDone (some d)

/-- BUSY is cleared. -/
def State.clearBusy (s : State) (d : Nat) (j : CowJob) : State :=
  (s.changeWord (some d) d j.chainAddr fun x => if wbit (BitVec.ofNat 64 x) 16 then x - 2 ^ 16 else x).2

/-- Steps 4 and 5 with a destination frame. -/
def State.cowLock (s : State) (d : Nat) (j : CowJob) (dest : Nat) : State :=
  match s.lockLeaf (some d) d j.leafAddr j.oldFrame with
  | (true, s1) => (s1.dropPage j.leafAddr j.oldFrame).setCow d { j with stage := .copying dest, owes := none }
  | (false, s1) =>
    let ret : Return := { ringOf d j.oldFrame with die := d, frame := dest }
    let s2 := s1.giveBack ret
    if s2.owed (some ret) then s2.setCow d { j with stage := .finish, owes := some ret } else (s2.clearBusy d j).endCow d j

/-- Step 3. -/
def State.cowFrame (s : State) (d : Nat) (j : CowJob) : State :=
  match s.freeTake (some d) d (ringOf d j.oldFrame).tier with
  | none => s.setCow d { j with stage := .frame, owes := none }
  | some (f, s1) => s1.cowLock d j f

/-- The version of the current frame. -/
def State.leafVer (s : State) (leafAddr : Nat) : Nat := s.peek (leafAddr + 8) 8 0 % 2 ^ 32

/-- Step 2: at most three slots are reclaimed, each return made before the next. -/
def State.cowReclaim (s : State) (d : Nat) (j : CowJob) : Nat → State
  | 0 => s.cowFrame d j
  | n + 1 =>
    match s.readChain d j.vmid j.chainAddr with
    | (none, s1) => (s1.clearBusy d j).endCow d j
    | (some c, s1) => match c.reclaimable (s1.leafVer j.leafAddr) with
      | some (k, x) =>
        if !(s1.frameQuiet x.frame) then s1.setCow d { j with stage := .reclaim, owes := none }
        else
          let (ret, s2) := s1.reclaimSlot d j.chainAddr k x
          if s2.owed (some ret) then s2.setCow d { j with stage := .reclaim, owes := some ret } else State.cowReclaim s2 d j n
      | none =>
        if c.slots.all fun k => k.v then
          let s2 := s1.setCow d { j with stage := .reclaim, owes := none }
          if (s2.die d).chfull then s2 else (s2.updDie d fun x => { x with chfull := true }).signal (.chfull d)
        else s1.cowFrame d j

/-- Step 1: BUSY by a CAS that expects 0. (DESIGN CHOICE, log 107) -/
def State.cowStart (s : State) (d : Nat) (j : CowJob) : State :=
  State.cowReclaim (s.changeWord (some d) d j.chainAddr fun x => if wbit (BitVec.ofNat 64 x) 16 then x else x + 2 ^ 16).2 d j 4

/-- How a request or copy goes on; none where it has to wait, or waits for its frame's copy. -/
def State.cowGo? (s : State) (d : Nat) (j : CowJob) : Option State :=
  if s.owed j.owes then none
  else match j.stage with
  | .request =>
    let under := (s.die d).cow.filter fun q => q.stage != .request
    if 16 ≤ under.length || (under.any fun q => q.leafAddr == j.leafAddr) || wbit (BitVec.ofNat 64 (s.peek j.chainAddr 8 0)) 16 then none
    else some (s.cowStart d j)
  | .reclaim =>
    match (s.readChain d j.vmid j.chainAddr).1 with
    | some c => match c.reclaimable (s.leafVer j.leafAddr) with
      | some (_, x) => if s.frameQuiet x.frame then some (s.cowReclaim d j 4) else none
      | none => if c.slots.all fun k => k.v then none else some (s.cowReclaim d j 4)
    | none => some (s.cowReclaim d j 4)
  | .frame => if (s.freePeek d (ringOf d j.oldFrame).tier).isNone then none else some (s.cowFrame d j)
  | .copying _ => none
  | .finish => some ((s.clearBusy d j).endCow d j)

/-- The first request that can be taken, and the first waiting copy that can go on. -/
def State.cowRequest? (s : State) (d : Nat) : Option State :=
  (s.die d).cow.findSome? fun j => if j.stage == .request then s.cowGo? d j else none
def State.cowResume? (s : State) (d : Nat) : Option State := (s.die d).cow.findSome? fun j => s.cowGo? d j

def execSnapshotCopyRequest (die : Die) (s : State) : Out := .next ((s.cowRequest? die.val).getD s)
def execSnapshotCopyResume (die : Die) (s : State) : Out := .next ((s.cowResume? die.val).getD s)

/-- Step 7: the old frame in the lowest free slot, word 1, then word 0, then BUSY (R466). -/
def State.cowWrite (s : State) (d : Nat) (j : CowJob) (dest : Nat) : State :=
  let me := some d
  let (w1, s1) := s.getWord me d (j.leafAddr + 8)
  let slot := match (s1.readChain d j.vmid j.chainAddr).1 with
    | some c => (indexWhere (fun k => !k.v) c.slots).getD 0 + 1
    | none => 1
  let s2 := s1.putWord me d (j.chainAddr + 16 * slot + 8) (BitVec.ofNat 64 (wfield w1 0 32))
  let s3 := s2.putWord me d (j.chainAddr + 16 * slot) (BitVec.ofNat 64 (j.oldFrame * 2 ^ 16 + 1))
  let s4 := s3.putWord me d (j.leafAddr + 8) (withField w1 0 32 j.w)
  (s4.openLeaf me d j.leafAddr dest).clearBusy d j

/-- The copy of a frame ends (R111 steps 6 to 8). -/
def State.cowComplete (s : State) (d : Nat) (j : CowJob) (dest : Nat) (dataError : Bool) : State :=
  let s1 := (s.dropPage j.leafAddr j.oldFrame).flushFrame j.oldFrame
  if dataError || s1.frameBad j.oldFrame then
    let ret : Return := { ringOf d j.oldFrame with die := d, frame := dest }
    let s2 := ({ s1.retireFrame (framePA j.oldFrame) with migLost := j.leafAddr :: s1.migLost } : State).giveBack ret
    if s2.owed (some ret) then (s2.setCow d { j with stage := .finish, owes := some ret }).pageDone (some d)
    else (s2.clearBusy d j).endCow d j
  else
    let s2 := (s1.copyFrame (some d) j.oldFrame dest j.vmid).cowWrite d j dest
    (s2.updDie d fun x => { x with copies := x.copies + 1 }).endCow d j

/-- Copies whose frames have come to rest. -/
def State.cowReady (s : State) (d : Nat) : List (CowJob × Nat) :=
  (s.die d).cow.filterMap fun j => match j.stage with
    | .copying dest => if s.frameQuiet j.oldFrame && s.frameQuiet dest then some (j, dest) else none
    | _ => none

/-- One of `n` alternatives that the manual does not order. -/
def State.anyOf (s : State) (n : Nat) : Nat × State :=
  if n ≤ 1 then (0, s) else ((Config.freeWord s.freeCtr).toNat % n, { s with freeCtr := s.freeCtr + 1 })

/-- SNAPSHOT_COPY_COMPLETE: the copies of different pages end in no fixed order. (DESIGN CHOICE, log 110) -/
def execSnapshotCopyComplete (die : Die) (dataError : Bool) (s : State) : Out :=
  let ready := s.cowReady die.val
  let (n, s1) := s.anyOf ready.length
  .next (match ready[n]? with
    | some (j, dest) => s1.cowComplete die.val j dest dataError
    | none => s)

/-! ### The background sweep (R113) -/

/-- The place after a record: the next record of the VMID's chain table, or the first of the next VMID's. (DESIGN CHOICE, log 111) -/
def State.sweepNext (s : State) (d vmid chain : Nat) : Nat × Nat :=
  if wbit (s.reg d (0x3000 + 16 * vmid)) 0 && chain + 1 < 2 ^ s.regField d (0x3008 + 16 * vmid) 0 6 then (vmid, chain + 1)
  else ((vmid + 1) % 16, 0)

/-- RECLAIM_SWEEP: an idle engine looks at the next record; one slot that may go, of a page whose frame the die homes, goes. -/
def State.sweepStep (s : State) (d : Nat) : State :=
  let x := s.die d
  if !x.cow.isEmpty || s.owed x.sweepOwes then s
  else
    let (vmid, chain) := x.sweep
    match s.chainAddr? d vmid chain with
    | none => s.updDie d fun y => { y with sweep := s.sweepNext d vmid chain, sweepOwes := none }
    | some ca => match s.readChain d vmid ca with
      | (none, s1) => s1.updDie d fun y => { y with sweep := s.sweepNext d vmid chain, sweepOwes := none }
      | (some c, s1) =>
        let w0 := BitVec.ofNat 64 (s1.peek c.leafAddr 8 0)
        let mine := !c.busy && wbit w0 0 && wbit w0 9 && s1.homeOf (lineOf (framePA (wfield w0 16 36))) == d
        match (if mine then s1.reclaimNow c (s1.leafVer c.leafAddr) else none) with
        | none => s1.updDie d fun y => { y with sweep := s.sweepNext d vmid chain, sweepOwes := none }
        | some (k, sl) =>
          let (ret, s2) := s1.reclaimSlot d ca k sl
          s2.updDie d fun y => { y with sweepOwes := if s2.owed (some ret) then some ret else none }

def execReclaimSweep (die : Die) (s : State) : Out := .next (s.sweepStep die.val)

end Sys2Proof.Machine
end

