-- ==== Sys2Proof/Machine/Migration.lean ====
section
/-! DEFINITION. The migration engines (03 R93-R98): the sweep for a victim, the steps of a migration, and what a failed one leaves. -/
namespace Sys2Proof.Machine

/-- A bit of the word at +0x00 of an engine. -/
def State.migBit (s : State) (d t i : Nat) : Bool := wbit (s.reg d (migOff t)) i
def State.setMigBit (s : State) (d t i : Nat) (b : Bool) : State := s.setRegField d (migOff t) i 1 (if b then 1 else 0)
def State.migHigh (s : State) (d t : Nat) : Nat := s.regField d (migOff t + 8) 32 32
def State.migLow (s : State) (d t : Nat) : Nat := s.regField d (migOff t + 8) 0 32

/-- An engine is active from the time its ring holds fewer than LOW frames until it holds HIGH, while EN is 1 (R93). (DEDUCED, log 114) -/
def State.migActive (s : State) (d t : Nat) : Bool :=
  s.migBit d t 0 && s.ringOk d t && decide (s.freeCount d t < s.migHigh d t) &&
    (decide (s.freeCount d t < s.migLow d t) || (s.die d).migOn.getLsbD t)

/-- Frames that a die homes in a tier (R65), and PA[51:16] of frame `i` of its share. -/
def tierFrames (t : Nat) : Nat := if t = 0 then 2 ^ 21 else 2 ^ 22
def tierFrame (d t i : Nat) : Nat := if t = 0 then d * 2 ^ 21 + i else capBase / 2 ^ 16 + 4 * i + d

/-! ### The reverse map (R94) -/

/-- Where the entry of a frame stands: in the map of the frame's tier on the die that homes it; a host frame has the place of its
proxy's share. (DEDUCED, log 113) -/
def State.rmapAddr (s : State) (frame : Nat) : Nat × Nat :=
  let pa := framePA frame
  let (d, t, i) := match frameIndex pa with
    | some (h, i) => if i < 2 ^ 24 then (h, 0, i) else (h, 1, i - 2 ^ 24)
    | none => (pa / 2 ^ 16 % 4, 2, (pa - hostBase) / 2 ^ 18)
  (d, s.regField d (migOff t + 0x20) 4 48 * 2 ^ 4 + 16 * i)

/-! ### The sweep (R95, R96) -/

/-- The byte and bit of a frame's access bit. -/
def accessAt (t i : Nat) : Nat × Nat := ((if t = 0 then 0x80_0000 else 0xC0_0000) + i / 8, i % 8)

def State.accessBit (s : State) (d t i : Nat) : Bool :=
  (Sparse.get 0 (s.die d).access (accessAt t i).1).getLsbD (accessAt t i).2

def State.clearAccess (s : State) (d t i : Nat) : State :=
  s.updDie d fun x => { x with
    access := Sparse.set 0 x.access (accessAt t i).1 (Sparse.get 0 x.access (accessAt t i).1 &&& ~~~(1#8 <<< (accessAt t i).2)) }

/-- The words of frame `i`'s entry, as the map holds them. -/
def State.rmapPeek (s : State) (d t i : Nat) : Word × Word :=
  let pa := s.regField d (migOff t + 0x20) 4 48 * 2 ^ 4 + 16 * i
  let x := s.peek pa 16 0
  (BitVec.ofNat 64 x, BitVec.ofNat 64 (x / 2 ^ 64))

/-- The sweep passes frame `i` by. (DESIGN CHOICE, log 148) -/
def State.skips (s : State) (d t i : Nat) : Bool :=
  let (w0, _) := s.rmapPeek d t i
  let a := s.attrOf (framePA (tierFrame d t i))
  !(wbit w0 0) || wbit w0 1 || a.acc || a.vers || a.retired

/-- Frames from `i` on, `n` of them: the victim; `seen` says that a frame was eligible but for its access bit. -/
def State.sweepFrom (s : State) (d t : Nat) : Nat → Nat → Bool → Option Nat × Bool × State
  | 0, _, seen => (none, seen, s)
  | n + 1, i, seen =>
    let next := (i + 1) % tierFrames t
    if s.skips d t i then State.sweepFrom s d t n next seen
    else if s.accessBit d t i then State.sweepFrom (s.clearAccess d t i) d t n next true
    else (some i, true, s)

/-! ### The steps of a migration (R97) -/

def State.setMig (s : State) (d t : Nat) (j : Option MigJob) : State :=
  s.updDie d fun x => { x with mig := match j with
    | some j => x.mig.put t j
    | none => x.mig.del t }

/-- Step 7: the counter at DONE counts one more; none while its page is being moved. (DEDUCED, log 115) -/
def State.migCount (s : State) (d t : Nat) : Option State :=
  let va := sext57 (s.regField d (migOff t + 0x28) 0 57)
  match s.vaAdd (agentWalker d 0 0 0) (va : Int) 1 with
  | .ok (_, s1) => some s1
  | .error (.wait, _) => none
  | .error (_, s1) => some s1

/-- Step 7 ends the migration, or waits for the counter's page. -/
def State.migFinish (s : State) (d t : Nat) (j : MigJob) : State :=
  match s.migCount d t with
  | some s1 => s1.setMig d t none
  | none => s.setMig d t (some { j with stage := .count, owes := none })

/-- A return, and the steps behind it. -/
def State.migReturn (s : State) (d t : Nat) (j : MigJob) (ret : Return) (count : Bool) : State :=
  let s1 := s.giveBack ret
  if s1.owed (some ret) then s1.setMig d t (some { j with stage := if count then .count else .drop, owes := some ret })
  else if count then s1.migFinish d t j else s1.setMig d t none

/-- The frame lies wholly in the encrypted host range (R72). -/
def State.inEncrypted (s : State) (d frame : Nat) : Bool :=
  let lo := s.regField d 0x4108 16 36
  let hi := s.regField d 0x4110 16 36
  decide (lo ≤ frame) && decide (frame < hi) && regionOf (framePA frame) == .host

/-- Steps 1 to 3: a destination frame, the CAS on the leaf, and the removal of the page. -/
def State.migTake (s : State) (d t : Nat) (j : MigJob) : State :=
  match s.freePeek d (t + 1) with
  | none => s.setMig d t (some j)
  | some f =>
    if t = 1 && !(s.inEncrypted d f) then (s.setMig d t (some j)).setMigBit d t 4 true
    else match s.freeTake none d (t + 1) with
      | none => s.setMig d t (some j)
      | some (dest, s1) =>
        match s1.lockLeaf none d j.leafAddr j.victim with
        | (true, s2) => (s2.dropPage j.leafAddr j.victim).setMig d t (some { j with stage := .copying dest })
        | (false, s2) => s2.migReturn d t j { die := d, tier := t + 1, frame := dest } false

/-- A new migration: the sweep, then its first steps. (DESIGN CHOICE, log 155) -/
def State.migBegin (s : State) (d t : Nat) : State :=
  let s0 := s.updDie d fun x => { x with migOn := x.migOn ||| (1#3 <<< t) }
  let hand := s.regField d (migOff t + 0x30) 0 32 % tierFrames t
  -- a second round finds a frame whose access bit the first one has cleared
  match s0.sweepFrom d t (2 * tierFrames t) hand false with
  | (none, seen, s1) => if seen then s1 else s1.setMigBit d t 2 true
  | (some i, _, s1) =>
    let (w0, w1) := s1.rmapPeek d t i
    let j : MigJob := { victim := tierFrame d t i, leafAddr := wfield w0 4 48 * 16, va := wfield w1 0 41 * 2 ^ 16, asid := wfield w1 41 16,
                        vmid := wfield w1 57 4 }
    (s1.setRegField d (migOff t + 0x30) 0 32 ((i + 1) % tierFrames t)).migTake d t j

/-- What the engine of a tier has to begin: the tier 2 engine only tells the host that its ring is low. -/
def State.migStart? (s : State) (d t : Nat) : Option State :=
  if t = 2 then
    if s.lowf d = s.migBit d 2 3 then none
    else
      let s1 := s.setMigBit d 2 3 (s.lowf d)
      some (if s.lowf d then s1.signal (.lowf d) else s1)
  else if ((s.die d).mig.find t).isSome || s.migBit d t 2 || (t = 1 && s.migBit d t 4) then none
  else if s.migActive d t then some (s.migBegin d t)
  else if (s.die d).migOn.getLsbD t then some (s.updDie d fun x => { x with migOn := x.migOn &&& ~~~(1#3 <<< t) })
  else none

def execMigrationStart (die : Die) (tier : Fin 3) (s : State) : Out := .next ((s.migStart? die.val tier.val).getD s)

/-- How a waiting migration goes on. (DESIGN CHOICE, log 154) -/
def State.migResume? (s : State) (d t : Nat) : Option State :=
  match (s.die d).mig.find t with
  | none => none
  | some j =>
    if s.owed j.owes then none
    else match j.stage with
    | .take => if (s.freePeek d (t + 1)).isNone || (t = 1 && s.migBit d t 4) then none else some (s.migTake d t j)
    | .copying _ => none
    | .count => (s.migCount d t).map fun s1 => s1.setMig d t none
    | .drop => some (s.setMig d t none)

def execMigrationResume (die : Die) (tier : Fin 3) (s : State) : Out := .next ((s.migResume? die.val tier.val).getD s)

/-- Step 5: the leaf names the destination, and both reverse maps say so. -/
def State.migWrite (s : State) (d : Nat) (j : MigJob) (dest : Nat) : State :=
  let s1 := s.openLeaf none d j.leafAddr dest
  let (da, a) := s1.rmapAddr j.victim
  let (db, b) := s1.rmapAddr dest
  let s2 := (s1.putWord none da a 0).putWord none da (a + 8) 0
  (s2.putWord none db (b + 8) (BitVec.ofNat 64 (j.va / 2 ^ 16 % 2 ^ 41 + j.asid % 2 ^ 16 * 2 ^ 41 + j.vmid % 16 * 2 ^ 57))).putWord none db b
    (BitVec.ofNat 64 (j.leafAddr / 16 * 16 % 2 ^ 52 + 1))

/-- The copy of the frame ends: steps 4 to 7, or the end after a DATA_ERROR. -/
def State.migComplete (s : State) (d t : Nat) (j : MigJob) (dest : Nat) (dataError : Bool) : State :=
  let s1 := (s.dropPage j.leafAddr j.victim).flushFrame j.victim
  if dataError || s1.frameBad j.victim then
    let s2 : State := { s1.retireFrame (framePA j.victim) with migLost := j.leafAddr :: s1.migLost }
    (s2.migReturn d t j { die := d, tier := t + 1, frame := dest } true).pageDone none
  else
    let s2 := ((s1.copyFrame none j.victim dest j.vmid).migWrite d j dest).pageDone none
    s2.migReturn d t j { die := d, tier := t, frame := j.victim } true

/-- A migration whose frame has come to rest. -/
def State.migReady (s : State) (d t : Nat) : Option (MigJob × Nat) :=
  match (s.die d).mig.find t with
  | some j => match j.stage with
    | .copying dest => if s.frameQuiet j.victim && s.frameQuiet dest then some (j, dest) else none
    | _ => none
  | none => none

def execMigrationComplete (die : Die) (tier : Fin 3) (dataError : Bool) (s : State) : Out :=
  .next (match s.migReady die.val tier.val with
    | some (j, dest) => s.migComplete die.val tier.val j dest dataError
    | none => s)

end Sys2Proof.Machine
end

