-- ==== Sys2Proof/Machine/Outside.lean ====
section
/-! DEFINITION. What comes from outside the cores: seams and the life of dies (05 R137-R140), the pod fabric and the host (08 R192-R199,
05 R135), the patrol scrubber (02 R74), bring-up, power and cooling (22 R455, R459). -/
namespace Sys2Proof.Machine

/-! ### Seams (R137, R139) -/

def State.seam (s : State) (a b : Nat) : Seam := s.seams.get {} (seamKey a b)
def State.setSeam (s : State) (a b : Nat) (m : Seam) : State := { s with seams := s.seams.put (seamKey a b) m }

/-- SLEEPIDLE of a die (R118). -/
def State.sleepIdle (s : State) (d : Nat) : Nat := s.regField d 0x4000 32 16

/-- SEAM_SLEEP: SLEEPIDLE microseconds have passed without a flit; with SLEEPIDLE 0 at either end the seam never sleeps (R118). (DEDUCED, log 177) -/
def State.seamIdle (s : State) (a b : Nat) : State :=
  let m := s.seam a b
  if a ≠ b && m.lstate.val = 0 && m.held.isEmpty && s.sleepIdle a ≠ 0 && s.sleepIdle b ≠ 0 then s.setSeam a b { m with lstate := 1 } else s

def execSeamSleep (a b : Die) (s : State) : Out := .next (s.seamIdle a.val b.val)
def execSeamWake (a b : Die) (s : State) : Out := .next (s.runMsg (.seamWake a b))
def execSeamWakeDone (a b : Die) (s : State) : Out := .next (s.runMsg (.seamWakeDone a b))

/-- SEAM_WAKE_FAIL: the wake has not completed within 20 µs: it is counted, and the seam retrains. -/
def State.seamFail (s : State) (a b : Nat) : State :=
  let m := s.seam a b
  if m.lstate.val ≠ 2 then s
  else (s.setSeam a b { m with lstate := 3, wakefail := m.wakefail + 1, retrain := m.retrain + 1 }).send
    (.seamRetrainComplete (dieId (min a b)) (dieId (max a b)))

def execSeamWakeFail (a b : Die) (s : State) : Out := .next (s.seamFail a.val b.val)
/-- SEAM_RETRAIN_COMPLETE (R139). (DESIGN CHOICE, log 119) -/
def execSeamRetrainComplete (a b : Die) (s : State) : Out := .next (s.runMsg (.seamRetrainComplete a b))

/-! ### The death of a die (R138, R140) -/

/-- Every die is told of a declaration (R138). -/
def State.declareDead (s : State) (dead : Nat) : State :=
  s.sendAll (((List.range 4).filter fun x => x != dead).map fun x => .dieDeadDeclaration (dieId x) (dieId dead))

/-- SEAM_RETRAIN_TIMEOUT: both ends have tested their ports in loopback. -/
def State.retrainTimeout (s : State) (a b : Nat) (passA passB : Bool) : State :=
  let m := s.seam a b
  if m.lstate.val ≠ 3 then s
  else (s.setSeam a b { m with lstate := 4 }).declareDead (if passA && !passB then b else if passB && !passA then a else max a b)

def execSeamRetrainTimeout (a b : Die) (passA passB : Bool) (s : State) : Out := .next (s.retrainTimeout a.val b.val passA passB)

/-- HEARTBEAT: a die's period ends: it has one more period without a heartbeat from each peer, and every peer hears from it. (DESIGN CHOICE, log 116) -/
def State.beat (s : State) (d : Nat) : State :=
  if s.isDead d then s
  else (List.range 4).foldl (fun s p =>
    if p = d then s
    else
      let h1 := s.hearts.put (4 * d + p) (s.hearts.get 0 (4 * d + p) + 1)
      { s with hearts := h1.put (4 * p + d) 0 }) s

def execHeartbeat (die : Die) (s : State) : Out := .next (s.beat die.val)

/-- Three periods of `d` have passed without a heartbeat from `p`. -/
def State.missed (s : State) (d p : Nat) : Bool := d != p && decide (3 ≤ s.hearts.get 0 (4 * d + p)) && !(s.die d).dead.getLsbD p

/-- HEARTBEAT_TIMEOUT. -/
def execHeartbeatTimeout (die peer : Die) (s : State) : Out :=
  .next (if s.missed die.val peer.val then
      { s.declareDead peer.val with hearts := s.hearts.put (4 * die.val + peer.val) 0 }
    else s)

/-- What becomes of a message of the protocol when die `d` is lost: those to it are gone, and so are the requests and notices that it had
sent; what it had sent in answer still arrives, but for the host lines whose proxy it was. -/
def State.afterDeath (s : State) (d : Nat) (i : Instr) : Bool :=
  let proxied := fun (l : Nat) => isHostLine l && s.homeOf l == d
  match i with
  | .gets h _ a | .getm h _ a | .upgm h _ a | .inv h a _ | .binv h a _ => h.val != d && a.val != d
  | .evc h _ a _ | .invack h _ a _ | .back h _ a _ | .mirw h _ a _ _ _ => h.val != d && a.val != d
  | .fwds h o _ a | .fwdm h o _ a => h.val != d && o.val != d && a.val != d
  | .data a l _ _ _ _ _ | .gnt a l _ _ => a.val != d && !(proxied l)
  | .mack a _ _ => a.val != d
  | .flowTransferReceive t => t.die.val != d && !(t.srcKind == 0 && t.srcId == d)
  | _ => true

/-- The transfers on their way to die `d`. -/
def State.transfersTo (s : State) (d : Nat) : List FlowTransfer :=
  (s.afoot.filterMap fun i => match i with
    | .flowTransferReceive t => if t.die.val = d then some t else none
    | _ => none) ++ (s.die d).flowHeld ++ (s.die d).flowRefused

/-- Messages everywhere lose what `d` sent and was to receive; its seams are down, and of what they hold only what is no message of the
protocol goes on; transfers to it end their commands. -/
def State.cutMessages (s : State) (d : Nat) : State :=
  let keep := fun (l : List Instr) => l.filter (s.afterDeath d)
  let ofDie := fun (k : Nat) => k / 4 == d || k % 4 == d
  let held := (s.seams.filter fun p => ofDie p.1).flatMap fun p => (keep p.2.held).filter fun i => !(dieScope i)
  let s1 : State := { s with
    pending := keep s.pending ++ held,
    seams := s.seams.map fun p => (p.1, { p.2 with held := if ofDie p.1 then [] else keep p.2.held }),
    dies := s.dies.map fun p => (p.1, { p.2 with fillWait := keep p.2.fillWait }) }
  let s2 := (s.transfersTo d).foldl (fun s t => s.failCmd t.ctx t.n stHOME_LOST t.addr) s1
  (List.range 4).foldl (fun s x => if x = d then s else s.setSeam x d { s.seam x d with lstate := 4 }) s2

/-- The host lines whose proxy `d` is. -/
def State.proxied (s : State) (d : Nat) : List Nat :=
  let asked := s.dies.flatMap fun p => (p.2.agentTx.map (·.line)) ++ p.2.mirWait.map (·.line)
  ((s.knownLines ++ asked).eraseDups).filter fun l => isHostLine l && s.homeOf l == d

/-- A host line gets a new proxy, after the loss of `d` (R140). A surviving die that has written the line and waits for the host's
acknowledgement sends the host its bytes again. Every slice drops the line; its new proxy places what comes above all that was done. A
request in flight is made again, to the new proxy. (DEDUCED, log 118) -/
def State.moveProxy (s : State) (d line : Nat) : State :=
  let h := s.homeOf line
  let live := (List.range 4).filter fun x => x != d
  let top := live.foldl (fun a x => (s.die x).lines.foldl (fun a l => if l.line == line && l.kind != .view then max a (max l.wts l.rts) else a) a) 0
  let s1 := live.foldl (fun s x =>
    let waits := (s.die x).mirWait.filter fun w => w.line == line
    match (s.die x).copy? line with
    | some l => if waits.isEmpty then s else (s.storeLine line l.vmid l.data).sendAll (waits.map fun w => .mack (agent x) line w.wts)
    | none => s) s
  let s2 := live.foldl (fun s x => s.updDie x fun y => { y with
    lines := y.lines.filter fun l => l.line != line,
    agentTx := y.agentTx.map fun (t : AgentTx) => if t.line == line then { t with data := none, hts := 0, gnt := false, needGnt := false } else t }.forget line) s1
  let s3 := s2.updDie h fun y => y.raiseMts line top
  live.foldl (fun s x => match (s.die x).agentTx.find? fun t => t.line == line with
    | some t => s.sendMsg x h (if t.write then .getm (dieId h) line (agent x) else .gets (dieId h) line (agent x))
    | none => s) s3

/-- What a request forwarded to `d` has still to bring cannot come: no forward to another owner and no data is on its way, and the
requester has none. -/
def State.dataLost (s : State) (t : HomeTx) : Bool :=
  t.forwarded && !(s.afoot.any fun i => match i with
    | .fwds _ _ l _ | .fwdm _ _ l _ => l == t.line
    | _ => isAnswer t.a.val t.line i) &&
  (if t.a.val = 4 then !(t.granted && (s.held? 4 t.line).isSome)
   else !((s.die t.a.val).agentTx.any fun q => q.line == t.line && q.data.isSome))

/-- A transaction at home `x` goes on without `d`: what `d` owed counts as given with H = HTS, and the home supplies the data. -/
def State.txWithout (s : State) (x d : Nat) (t : HomeTx) : State :=
  let lost := s.dataLost t
  if t.req == .gets then (if lost then s.serveRead x d t.line t.a.val else s)
  else if t.acks.any fun i => i.val == d then
    let hts := match (s.die x).entry? t.line with
      | some e => e.hts
      | none => 0
    (if lost then s.updDie x fun z => { z with homeTx := z.homeTx.map fun k => if k.line == t.line then { k with forwarded := false } else k }
     else s).homeInvack x t.line d hts
  else if lost && t.granted then s.homeReply x t.line t.a.val .M
  else s

/-- The directory of die `x` drops `d`: the requests that `d` made end, its transactions with others go on, and it leaves every entry
(R140). -/
def State.dropAgent (s : State) (x d : Nat) : State :=
  let y := s.die x
  let s1 := s.setDie x { y with homeTx := y.homeTx.filter fun t => t.a.val != d, homeQ := y.homeQ.filter fun q => q.2.2.val != d,
                                insertQ := y.insertQ.filter fun q => q.2.2.val != d }
  let s2 := (s1.die x).homeTx.foldl (fun s t => s.txWithout x d t) s1
  let s3 := (s2.die x).victims.foldl (fun s v => if v.waiting.any (fun i => i.val == d) then s.homeBack x v.entry.line d v.entry.hts else s) s2
  let entries := ((s3.die x).t0.map (·.2) ++ (s3.die x).t1.map (·.2)).filter fun e => e.own.val == d || e.shr.getLsbD d
  let s4 := entries.foldl (fun s e => s.homeEvc x e.line d e.hts) s3
  ((y.homeTx.filter fun t => t.a.val == d).map (·.line) ++ (s4.die x).homeQ.map (·.2.1)).eraseDups.foldl (fun s l => s.wake x l) s4

/-- The package has lost die `d`, at its first declaration: every directory drops it, and its host lines get another proxy. -/
def State.loseDie (s : State) (d : Nat) (lines : List Nat) : State :=
  (lines.foldl (fun s l => s.moveProxy d l) ((List.range 4).foldl (fun s x => if x = d then s else s.dropAgent x d) s)).signal (.dieDead d)

/-- Die `x` gives up every line homed on `d`: its caches drop them, and accesses that wait for them fail. -/
def State.dropHome (s : State) (x d : Nat) : State :=
  let lost := fun (l : Nat) => !(isHostLine l) && s.homeOf l == d
  let y := s.die x
  let s1 := s.setDie x { y with
    lines := y.lines.filter fun l => !(lost l.line), agentTx := y.agentTx.filter fun t => !(lost t.line),
    waitLd := y.waitLd.filter fun m => !(lost m.line), waitSt := y.waitSt.filter fun m => !(lost m.line),
    mirWait := y.mirWait.filter fun w => !(lost w.line) }
  let keep := fun (k : Core) => { k with l1 := k.l1.filter fun l => !(lost l.line) }
  let s2 : State := { s1 with cores := s1.cores.map (fun p => if dieOf p.1 = x then (p.1, keep p.2) else p) }
  s2.sendAll (((y.waitLd.filter fun m => lost m.line).map fun m => loadError m cHOME_LOST) ++
    ((y.waitSt.filter fun m => lost m.line).map fun m => .homeRefusal m cHOME_LOST) ++
    ((y.mirWait.filter fun w => lost w.line).filterMap (·.reply)).map fun r => .homeRefusal r.req cHOME_LOST)

/-- DIE_DEAD_DECLARATION: a die acts on the first declaration of a dead die that it receives. (DEDUCED, log 117) -/
def State.actOnDeath (s : State) (x d : Nat) : State :=
  if x = d || (s.die x).dead.getLsbD d then s
  else
    let mark := fun (s : State) => s.updDie x fun y => { y with dead := y.dead ||| (1#4 <<< d) }
    (if s.isDead d then mark s else (mark (s.cutMessages d)).loseDie d (s.proxied d)).dropHome x d

def execDieDeadDeclaration (die dead : Die) (s : State) : Out := .next (s.actOnDeath die.val dead.val)

/-! ### Requests from outside (R192-R194, R199, R135) -/

/-- What a request makes of the `n` bytes it finds. -/
def reqNew (k : ReqKind) (n old x : Nat) : Nat :=
  let w := 8 * n
  match k with
  | .read | .other => old
  | .write | .swap => x % 2 ^ w
  | .atomicAdd => (old + x) % 2 ^ w
  | .cas e => if old = e.toNat % 2 ^ w then x % 2 ^ w else old

def reqReads : ReqKind → Bool
  | .write => false
  | _ => true

/-- The bytes lie in one 128-byte block; atomics are 8 aligned bytes. (DEDUCED, log 120) -/
def reqShape (k : ReqKind) (a n : Nat) : Bool :=
  decide (1 ≤ n) && decide (a % 128 + n ≤ 128) && (match k with
    | .read | .write => true
    | .other => false
    | _ => n == 8 && a % 8 == 0)

/-- The address that a request of a pod peer names, by the export entry. -/
def State.podPA (s : State) (r : PodReq) : Nat := s.regField (s.liveFrom 0) (0x7000 + 16 * r.exp.val) 16 36 * 2 ^ 16 + r.off

/-- A request of a pod peer is refused (R192, R194). -/
def State.podRefuses (s : State) (r : PodReq) : Bool :=
  let d := s.liveFrom 0
  let w0 := s.reg d (0x7000 + 16 * r.exp.val)
  let w1 := s.reg d (0x7008 + 16 * r.exp.val)
  let allowed := match r.kind with
    | .read => wbit w0 62
    | .write => wbit w0 61
    | _ => wbit w0 60
  let pa := s.podPA r
  let at_ := s.attrOf pa
  !(reqShape r.kind r.off r.size) || !(wbit w0 63) || wfield w0 56 4 != r.vmid || !allowed || decide (wfield w1 0 24 * 2 ^ 16 < r.off + r.size) ||
  at_.acc || at_.vers || at_.retired || regionOf pa == .reserved || regionOf pa == .window || s.keyMissing (lineOf pa) r.vmid ||
  s.homeLost (lineOf pa)

/-- A request of a pod peer that its flow delivers: an accepted one is performed at its home under the export's VMID, and a read that
fails is an error. -/
def State.podPerform (s : State) (r : PodReq) : State :=
  let pa := s.podPA r
  let h := s.homeOf (lineOf pa)
  if s.podRefuses r then s.signal .podError
  else
    let (s0, bad) := s.readCheck h (lineOf pa)
    if bad then s0.signal .podError
    else match r.kind with
    | .read =>
      let (v, t, s1) := s.readIn h pa r.size r.vmid s.clock
      (s1.tick t).signal (.podRead (BitVec.ofNat 1024 v))
    | k =>
      let (v, t, s1) := s.rmwIn h pa r.size r.vmid s.clock fun old => reqNew k r.size old r.data.toNat
      if reqReads k then (s1.tick t).signal (.podRead (BitVec.ofNat 1024 v)) else s1.tick t

/-- The held pod requests of a flow that have become next are delivered (R191). -/
def State.drainPods (s : State) (d f : Nat) : Nat → State
  | 0 => s
  | n + 1 =>
    let x := s.die d
    let q := wfield (x.flow f).1 0 32
    match x.podHeld.find? fun r => r.flow == f && r.seq == q with
    | none => s
    | some r =>
      let s1 := s.setDie d { x with podHeld := x.podHeld.filter fun u => !(u.flow == f && u.seq == q) }
      State.drainPods ((s1.nextSeq d f).podPerform r) d f n

/-- POD_REQUEST: it arrives at the die that homes the bytes, whose flow table checks it and puts it in its place (R190, R191). (DEDUCED, log 123) -/
def State.podServe (s : State) (r : PodReq) : State :=
  let d := s.homeOf (lineOf (s.podPA r))
  let x := s.die d
  if !(x.takesFrom r.flow r.vmid 2 r.src) then s.signal .podError
  else match x.arrival r.flow r.seq with
    | .deliver false => s.podPerform r
    | .deliver true => ((s.nextSeq d r.flow).podPerform r).drainPods d r.flow 512
    | .duplicate => s.countError d 0x6318
    | .held => s.setDie d { x with podHeld := x.podHeld ++ [r] }
    | .full => s.signal .podAgain

def execPodRequest (r : PodReq) (s : State) : Out := .next (s.podServe r)

/-- UALINK_PORT_DOWN: a port gives up; transfers that it alone would carry end with PEERDOWN. -/
def execUalinkPortDown (port : Fin 16) (s : State) : Out := .next { s with portsDown := s.portsDown ||| (1#16 <<< port.val) }

/-- The host may read, or write, the line from its own cache. -/
def State.hostHas (s : State) (line : Nat) (write : Bool) : Bool :=
  match s.hostLines.find? fun l => l.line == line with
  | some l => if write then writable l.st else readable l.st
  | none => false

/-- The host asks the line's home for it, and the protocol runs until it has it, or until its home has refused it (R126, R135). (DEDUCED, log 122) -/
def State.hostObtain (s : State) (line : Nat) (write asked : Bool) : Nat → State
  | 0 => s
  | fuel + 1 =>
    if s.hostHas line write then s
    else
      let h := dieId (s.homeOf line)
      let s1 := if asked then s
        else s.send (if !write then .gets h line (agent 4) else if s.hostHas line false then .upgm h line (agent 4) else .getm h line (agent 4))
      match s1.runFirst? with
      | none => s1
      | some s2 => State.hostObtain s2 line write true fuel

/-- The host's store to a line that it holds: each stands at HTS + 1 at the home (R135). -/
def State.hostWrite (s : State) (r : HostReq) (l : SliceLine) : State :=
  let off := canonPA r.pa % 128
  let old := lineField l.data off r.size
  let data := setLineField l.data off r.size (reqNew r.kind r.size old r.data.toNat)
  let s1 := (s.putHeld 4 { l with data := data, st := .M }).homeMirw (s.homeOf l.line) l.line 4 data (byteMask off r.size) 0
  if reqReads r.kind then s1.signal (.hostRead (BitVec.ofNat 1024 old)) else s1

/-- A host request that has to wait goes behind the other steps that are due, and the host's later requests behind it (R188). -/
def State.hostLater (s : State) (r : HostReq) : State :=
  let isHost := fun (i : Instr) => match i with
    | .hostRequest _ => true
    | _ => false
  { s with pending := (s.pending.filter fun i => !(isHost i)) ++ .hostRequest r :: s.pending.filter isHost }

/-- A host access to a device-homed line: a versioned frame takes no host write (R109), and the access fails where its home would
refuse it. -/
def State.hostDevice (s : State) (r : HostReq) : State :=
  let line := lineOf r.pa
  let write := match r.kind with
    | .read => false
    | _ => true
  if (write && (s.attrOf r.pa).vers) || s.homeLost line || s.keyMissing line r.vmid then s.signal .hostError
  else if s.mustWait line r.vmid then s.hostLater r
  else
    let s1 : State := ({ s.claim line r.vmid with hostVmid := r.vmid } : State).hostObtain line write false obtainFuel
    match s1.hostLines.find? fun l => l.line == line with
    | some l =>
      if !(s1.hostHas line write) then s1.signal .hostError
      else if write then s1.hostWrite r l
      else s1.signal (.hostRead (BitVec.ofNat 1024 (lineField l.data (canonPA r.pa % 128) r.size)))
    | none => s1.signal .hostError

/-- A host access to its own memory: the slices' copies go first, and the bytes of the encrypted range pass unchanged; the L1 copies stay up
to their own rts, which a write stands above (R72, R130, R136). -/
def State.hostOwn (s : State) (r : HostReq) : State :=
  let line := lineOf r.pa
  if !(s.quiet line) then s.hostLater r
  else
    let s1 := s.dropLine line false
    let x := s1.hostFetch line
    let off := r.pa % 128
    let old := lineField x off r.size
    let h := s1.homeOf line
    match r.kind with
    | .read => s1.signal (.hostRead (BitVec.ofNat 1024 old))
    | k =>
      let s2 := (s1.hostStore line (setLineField x off r.size (reqNew k r.size old r.data.toNat))).updDie h fun y =>
        y.raiseMts line (y.mtsOf line + 1)
      if reqReads k then s2.signal (.hostRead (BitVec.ofNat 1024 old)) else s2

/-- A host access to a register window: 8-byte loads and stores at aligned addresses (R61). -/
def State.hostWindow (s : State) (r : HostReq) : State :=
  if r.size ≠ 8 || r.pa % 8 ≠ 0 then s.signal .hostError
  else match r.kind with
    | .read => s.signal (.hostRead ((s.readReg (windowDie r.pa) (windowOff r.pa)).zeroExtend 1024))
    | .write => s.writeReg (windowDie r.pa) (windowOff r.pa) (r.data.extractLsb' 0 64)
    | _ => s.signal .hostError

/-- HOST_REQUEST: before the device is ready, only reads of BOOTSTAT are served (R455); a memory request needs its VMID in HVMASK. (DEDUCED, log 121) -/
def State.hostServe (s : State) (r : HostReq) : State :=
  let window := regionOf r.pa == .window
  let bootstat := window && windowOff r.pa == 0x100 && r.kind == .read
  if !(s.boot.getLsbD 16) && !bootstat then s.signal .hostError
  else if window then s.hostWindow r
  else if !(reqShape r.kind r.pa r.size) || regionOf r.pa == .reserved || 16 ≤ r.vmid ||
      !(wbit (s.reg (s.homeOf (lineOf r.pa)) 0x4100) r.vmid) then s.signal .hostError
  else if regionOf r.pa == .host then s.hostOwn r
  else s.hostDevice r

def execHostRequest (r : HostReq) (s : State) : Out := .next (s.hostServe r)

/-! ### The patrol scrubber (R74, R75, R456) -/

/-- PATROL_SCRUB: the errors of the frame that ECC corrects, and those that arise as it is read, are counted, and corrected data is written
back; an uncorrectable one retires the frame. -/
def State.scrub (s : State) (d : Nat) (tier : Bool) (frame corrected : Nat) (bad : Bool) : State :=
  let t := if tier then 1 else 0
  if tierFrames t ≤ frame then s
  else
    let f := tierFrame d t frame
    let mine := fun (b : Nat) => inFrame f (b / 4)
    let s1 : State := { s.countErrors d 0x6300 (corrected + (s.weak.filter mine).length) with weak := s.weak.filter fun b => !(mine b) }
    if bad || s.bad.any mine then s1.retireFrame (framePA f) else s1

/-- The errors that ECC corrects and the one that it does not come from outside. (DESIGN CHOICE, log 124) -/
def execPatrolScrub (die : Die) (tier : Bool) (frame corrected : Nat) (bad : Bool) (s : State) : Out :=
  .next (s.scrub die.val tier frame corrected bad)

/-! ### Bring-up, power and cooling (R455, R459) -/

/-- What one step of bring-up does. -/
def State.bootStep (s : State) (o : BootOutcome) (n : Nat) : State :=
  let each := fun (f : DieState → DieState) => (List.range 4).foldl (fun s d => s.updDie d f) s
  match n with
  | 3 => each fun x =>
    let plim := x.regs.put 0x200 resetPlim
    let regs := Sparse.set 0 plim 0x4000 ((Config.sleepIdle).zeroExtend 64 <<< 32 ||| 32#64)
    { x with hashsel := resetHashsel, regs := regs }
  | 4 => { s with seams := s.seams.map fun p => (p.1, { p.2 with lstate := 0 }) }
  | 5 => each fun x => { x with attrs := [] }
  | 6 => each fun x => { x with keys := x.keys.put 0 o.key0, regs := Sparse.set 0 x.regs 0x6200 0x8800_00FF_0000_0000#64 }
  | 7 => each fun x => { x with regs := Sparse.set 0 x.regs 0x4100 1 }
  | _ => s

/-- The last step that bring-up completes: what it meets lets it come so far, and step 2 needs both images (R453). -/
def State.bootReaches (s : State) (o : BootOutcome) : Nat := if s.imagesAccepted then o.step.val else min o.step.val 1

/-- BRING_UP: the steps in order up to the first that fails; after step 8 the device is ready. A failure has a code other than 0, which the
manual does not give. -/
def State.bringUp (s : State) (o : BootOutcome) : State :=
  if s.boot ≠ 0 || s.stopped then s
  else
    let n := s.bootReaches o
    let s1 := (List.range (n + 1)).foldl (fun s n => s.bootStep o n) s
    if n = 8 then { s1 with boot := 0x10008#17 }.signal .ready
    else if o.fail ≠ 0 then { s1 with boot := BitVec.ofNat 17 (n + o.fail.toNat * 2 ^ 8) }
    else
      let (w, s2) := s1.fresh
      { s2 with boot := BitVec.ofNat 17 (n + (1 + w.toNat % 255) * 2 ^ 8) }

/-- BRING_UP (R455). (DESIGN CHOICE, log 127) -/
def execBringUp (o : BootOutcome) (s : State) : Out := .next (s.bringUp o)

/-- THERMAL_THROTTLE: the clock steps by 100 MHz, between 600 MHz and 1.8 GHz. (DEDUCED, log 125) -/
def execThermalThrottle (up : Bool) (s : State) : Out :=
  .next { s with mhz := if up then min 1800 (s.mhz + 100) else max 600 (s.mhz - 100) }

/-- THERMAL_SHUTDOWN: the device stops issuing and is no longer ready. -/
def execThermalShutdown (s : State) : Out :=
  .next ({ s with stopped := true, boot := s.boot &&& ~~~(0x10000#17) }.signal .overheat)

end Sys2Proof.Machine
end

