-- ==== Sys2Proof/Machine/Dispatch.lean ====
section
/-! DEFINITION. The meaning of every instruction and device step: one arm for each constructor of Instr. -/
namespace Sys2Proof.Machine

def exec (i : Instr) (s : State) : Host.Outcome State Fault Refusal :=
  match i with
  | .clauseFetch rid => Sys2Proof.Machine.execClauseFetch rid s
  | .clauseIssue rid => Sys2Proof.Machine.execClauseIssue rid s
  | .issueOpportunity core => Sys2Proof.Machine.execIssueOpportunity core s
  | .add o => Sys2Proof.Machine.execAdd o s
  | .sub o => Sys2Proof.Machine.execSub o s
  | .mul o => Sys2Proof.Machine.execMul o s
  | .mulhi o => Sys2Proof.Machine.execMulhi o s
  | .mad o => Sys2Proof.Machine.execMad o s
  | .div o => Sys2Proof.Machine.execDiv o s
  | .rem o => Sys2Proof.Machine.execRem o s
  | .neg o => Sys2Proof.Machine.execNeg o s
  | .abs o => Sys2Proof.Machine.execAbs o s
  | .min o => Sys2Proof.Machine.execMin o s
  | .max o => Sys2Proof.Machine.execMax o s
  | .and o => Sys2Proof.Machine.execAnd o s
  | .or o => Sys2Proof.Machine.execOr o s
  | .xor o => Sys2Proof.Machine.execXor o s
  | .not o => Sys2Proof.Machine.execNot o s
  | .andn o => Sys2Proof.Machine.execAndn o s
  | .shl o => Sys2Proof.Machine.execShl o s
  | .shr o => Sys2Proof.Machine.execShr o s
  | .sar o => Sys2Proof.Machine.execSar o s
  | .rol o => Sys2Proof.Machine.execRol o s
  | .sel o => Sys2Proof.Machine.execSel o s
  | .mov o => Sys2Proof.Machine.execMov o s
  | .cmp o => Sys2Proof.Machine.execCmp o s
  | .addImm o => Sys2Proof.Machine.execAddImm o s
  | .subImm o => Sys2Proof.Machine.execSubImm o s
  | .mulImm o => Sys2Proof.Machine.execMulImm o s
  | .minImm o => Sys2Proof.Machine.execMinImm o s
  | .maxImm o => Sys2Proof.Machine.execMaxImm o s
  | .andImm o => Sys2Proof.Machine.execAndImm o s
  | .orImm o => Sys2Proof.Machine.execOrImm o s
  | .xorImm o => Sys2Proof.Machine.execXorImm o s
  | .shlImm o => Sys2Proof.Machine.execShlImm o s
  | .shrImm o => Sys2Proof.Machine.execShrImm o s
  | .sarImm o => Sys2Proof.Machine.execSarImm o s
  | .rolImm o => Sys2Proof.Machine.execRolImm o s
  | .cmpImm o => Sys2Proof.Machine.execCmpImm o s
  | .movi o => Sys2Proof.Machine.execMovi o s
  | .movh o => Sys2Proof.Machine.execMovh o s
  | .clz o => Sys2Proof.Machine.execClz o s
  | .ctz o => Sys2Proof.Machine.execCtz o s
  | .popc o => Sys2Proof.Machine.execPopc o s
  | .brev o => Sys2Proof.Machine.execBrev o s
  | .bfx o => Sys2Proof.Machine.execBfx o s
  | .bfi o => Sys2Proof.Machine.execBfi o s
  | .fadd o => Sys2Proof.Machine.execFadd o s
  | .fsub o => Sys2Proof.Machine.execFsub o s
  | .fmul o => Sys2Proof.Machine.execFmul o s
  | .fma o => Sys2Proof.Machine.execFma o s
  | .fms o => Sys2Proof.Machine.execFms o s
  | .fnma o => Sys2Proof.Machine.execFnma o s
  | .fmin o => Sys2Proof.Machine.execFmin o s
  | .fmax o => Sys2Proof.Machine.execFmax o s
  | .fabs o => Sys2Proof.Machine.execFabs o s
  | .fneg o => Sys2Proof.Machine.execFneg o s
  | .fcpys o => Sys2Proof.Machine.execFcpys o s
  | .fcmp o => Sys2Proof.Machine.execFcmp o s
  | .fclass o => Sys2Proof.Machine.execFclass o s
  | .fscale o => Sys2Proof.Machine.execFscale o s
  | .fgetexp o => Sys2Proof.Machine.execFgetexp o s
  | .frnd o => Sys2Proof.Machine.execFrnd o s
  | .fdiv o => Sys2Proof.Machine.execFdiv o s
  | .fsqrt o => Sys2Proof.Machine.execFsqrt o s
  | .frcpe o => Sys2Proof.Machine.execFrcpe o s
  | .frsqe o => Sys2Proof.Machine.execFrsqe o s
  | .fexp2 o => Sys2Proof.Machine.execFexp2 o s
  | .flog2 o => Sys2Proof.Machine.execFlog2 o s
  | .cvt o => Sys2Proof.Machine.execCvt o s
  | .cvts o => Sys2Proof.Machine.execCvts o s
  | .pack o => Sys2Proof.Machine.execPack o s
  | .unpack o => Sys2Proof.Machine.execUnpack o s
  | .amaxrd o => Sys2Proof.Machine.execAmaxrd o s
  | .amaxclr o => Sys2Proof.Machine.execAmaxclr o s
  | .vbcast o => Sys2Proof.Machine.execVbcast o s
  | .vshfl o => Sys2Proof.Machine.execVshfl o s
  | .vshift o => Sys2Proof.Machine.execVshift o s
  | .vrot o => Sys2Proof.Machine.execVrot o s
  | .vred o => Sys2Proof.Machine.execVred o s
  | .vscan o => Sys2Proof.Machine.execVscan o s
  | .vballot o => Sys2Proof.Machine.execVballot o s
  | .vcount o => Sys2Proof.Machine.execVcount o s
  | .vfirst o => Sys2Proof.Machine.execVfirst o s
  | .mand o => Sys2Proof.Machine.execMand o s
  | .mor o => Sys2Proof.Machine.execMor o s
  | .mxor o => Sys2Proof.Machine.execMxor o s
  | .mnot o => Sys2Proof.Machine.execMnot o s
  | .mmove o => Sys2Proof.Machine.execMmove o s
  | .mfroms o => Sys2Proof.Machine.execMfroms o s
  | .mtos o => Sys2Proof.Machine.execMtos o s
  | .bra o => Sys2Proof.Machine.execBra o s
  | .bc o => Sys2Proof.Machine.execBc o s
  | .call o => Sys2Proof.Machine.execCall o s
  | .ret o => Sys2Proof.Machine.execRet o s
  | .jmpi o => Sys2Proof.Machine.execJmpi o s
  | .split o => Sys2Proof.Machine.execSplit o s
  | .els o => Sys2Proof.Machine.execEls o s
  | .join o => Sys2Proof.Machine.execJoin o s
  | .loop o => Sys2Proof.Machine.execLoop o s
  | .brk o => Sys2Proof.Machine.execBrk o s
  | .cont o => Sys2Proof.Machine.execCont o s
  | .exit o => Sys2Proof.Machine.execExit o s
  | .setfmt o => Sys2Proof.Machine.execSetfmt o s
  | .getfmt o => Sys2Proof.Machine.execGetfmt o s
  | .nop o => Sys2Proof.Machine.execNop o s
  | .ld o => Sys2Proof.Machine.execLd o s
  | .st o => Sys2Proof.Machine.execSt o s
  | .ldsp o => Sys2Proof.Machine.execLdsp o s
  | .stsp o => Sys2Proof.Machine.execStsp o s
  | .spset o => Sys2Proof.Machine.execSpset o s
  | .pref o => Sys2Proof.Machine.execPref o s
  | .ldsc o => Sys2Proof.Machine.execLdsc o s
  | .stsc o => Sys2Proof.Machine.execStsc o s
  | .ldcl o => Sys2Proof.Machine.execLdcl o s
  | .stcl o => Sys2Proof.Machine.execStcl o s
  | .stmc o => Sys2Proof.Machine.execStmc o s
  | .gath o => Sys2Proof.Machine.execGath o s
  | .scat o => Sys2Proof.Machine.execScat o s
  | .fence o => Sys2Proof.Machine.execFence o s
  | .atom o => Sys2Proof.Machine.execAtom o s
  | .cas o => Sys2Proof.Machine.execCas o s
  | .red o => Sys2Proof.Machine.execRed o s
  | .cadd o => Sys2Proof.Machine.execCadd o s
  | .cwait o => Sys2Proof.Machine.execCwait o s
  | .cread o => Sys2Proof.Machine.execCread o s
  | .tlwait o => Sys2Proof.Machine.execTlwait o s
  | .close o => Sys2Proof.Machine.execClose o s
  | .qbind o => Sys2Proof.Machine.execQbind o s
  | .copy o => Sys2Proof.Machine.execCopy o s
  | .tcopy o => Sys2Proof.Machine.execTcopy o s
  | .halo o => Sys2Proof.Machine.execHalo o s
  | .ared o => Sys2Proof.Machine.execAred o s
  | .put o => Sys2Proof.Machine.execPut o s
  | .get o => Sys2Proof.Machine.execGet o s
  | .publish o => Sys2Proof.Machine.execPublish o s
  | .pin o => Sys2Proof.Machine.execPin o s
  | .vret o => Sys2Proof.Machine.execVret o s
  | .viewset o => Sys2Proof.Machine.execViewset o s
  | .wverset o => Sys2Proof.Machine.execWverset o s
  | .fcomp o => Sys2Proof.Machine.execFcomp o s
  | .encf o => Sys2Proof.Machine.execEncf o s
  | .mma o => Sys2Proof.Machine.execMma o s
  | .mmas o => Sys2Proof.Machine.execMmas o s
  | .mmab o => Sys2Proof.Machine.execMmab o s
  | .mscale o => Sys2Proof.Machine.execMscale o s
  | .accclr o => Sys2Proof.Machine.execAccclr o s
  | .accrd o => Sys2Proof.Machine.execAccrd o s
  | .accfl o => Sys2Proof.Machine.execAccfl o s
  | .accseq o => Sys2Proof.Machine.execAccseq o s
  | .bset o => Sys2Proof.Machine.execBset o s
  | .bq o => Sys2Proof.Machine.execBq o s
  | .bres o => Sys2Proof.Machine.execBres o s
  | .bproc o => Sys2Proof.Machine.execBproc o s
  | .bsave o => Sys2Proof.Machine.execBsave o s
  | .bresume o => Sys2Proof.Machine.execBresume o s
  | .babort o => Sys2Proof.Machine.execBabort o s
  | .launch o => Sys2Proof.Machine.execLaunch o s
  | .enqr o => Sys2Proof.Machine.execEnqr o s
  | .enqc o => Sys2Proof.Machine.execEnqc o s
  | .yield o => Sys2Proof.Machine.execYield o s
  | .trap o => Sys2Proof.Machine.execTrap o s
  | .tret o => Sys2Proof.Machine.execTret o s
  | .sread o => Sys2Proof.Machine.execSread o s
  | .swrite o => Sys2Proof.Machine.execSwrite o s
  | .tack o => Sys2Proof.Machine.execTack o s
  | .tlbinv o => Sys2Proof.Machine.execTlbinv o s
  | .lflush o => Sys2Proof.Machine.execLflush o s
  | .linv o => Sys2Proof.Machine.execLinv o s
  | .ctxsave o => Sys2Proof.Machine.execCtxsave o s
  | .ctxload o => Sys2Proof.Machine.execCtxload o s
  | .logreplay o => Sys2Proof.Machine.execLogreplay o s
  | .fqpop o => Sys2Proof.Machine.execFqpop o s
  | .halt o => Sys2Proof.Machine.execHalt o s
  | .ldreq m => Sys2Proof.Machine.execLdreq m s
  | .lddata m => Sys2Proof.Machine.execLddata m s
  | .renew m => Sys2Proof.Machine.execRenew m s
  | .streq m => Sys2Proof.Machine.execStreq m s
  | .stdone m => Sys2Proof.Machine.execStdone m s
  | .gets home line a => Sys2Proof.Machine.execGets home line a s
  | .getm home line a => Sys2Proof.Machine.execGetm home line a s
  | .upgm home line a => Sys2Proof.Machine.execUpgm home line a s
  | .fwds home o line a => Sys2Proof.Machine.execFwds home o line a s
  | .fwdm home o line a => Sys2Proof.Machine.execFwdm home o line a s
  | .data a line kind bytes wts hts fromOwner => Sys2Proof.Machine.execData a line kind bytes wts hts fromOwner s
  | .gnt a line hts forwarded => Sys2Proof.Machine.execGnt a line hts forwarded s
  | .inv home a line => Sys2Proof.Machine.execInv home a line s
  | .invack home line a h => Sys2Proof.Machine.execInvack home line a h s
  | .binv home a line => Sys2Proof.Machine.execBinv home a line s
  | .back home line a h => Sys2Proof.Machine.execBack home line a h s
  | .mirw home line a bytes mask wts => Sys2Proof.Machine.execMirw home line a bytes mask wts s
  | .mack a line wts => Sys2Proof.Machine.execMack a line wts s
  | .evc home line a h => Sys2Proof.Machine.execEvc home line a h s
  | .homeQueueStart home line => Sys2Proof.Machine.execHomeQueueStart home line s
  | .victimBufferFree home => Sys2Proof.Machine.execVictimBufferFree home s
  | .l2FillResume die => Sys2Proof.Machine.execL2FillResume die s
  | .accLineUpdate u => Sys2Proof.Machine.execAccLineUpdate u s
  | .reductionResend core => Sys2Proof.Machine.execReductionResend core s
  | .matrixResultSend core => Sys2Proof.Machine.execMatrixResultSend core s
  | .matrixBReadsDone core => Sys2Proof.Machine.execMatrixBReadsDone core s
  | .flowTransferReceive t => Sys2Proof.Machine.execFlowTransferReceive t s
  | .flowResend die => Sys2Proof.Machine.execFlowResend die s
  | .engineCommandAccept ctx => Sys2Proof.Machine.execEngineCommandAccept ctx s
  | .engineCommandStart ctx => Sys2Proof.Machine.execEngineCommandStart ctx s
  | .engineCommandComplete ctx n => Sys2Proof.Machine.execEngineCommandComplete ctx n s
  | .engineCommandFail ctx n code addr => Sys2Proof.Machine.execEngineCommandFail ctx n code addr s
  | .publishFire die => Sys2Proof.Machine.execPublishFire die s
  | .snapshotCopyRequest die => Sys2Proof.Machine.execSnapshotCopyRequest die s
  | .snapshotCopyResume die => Sys2Proof.Machine.execSnapshotCopyResume die s
  | .snapshotCopyComplete die dataError => Sys2Proof.Machine.execSnapshotCopyComplete die dataError s
  | .reclaimSweep die => Sys2Proof.Machine.execReclaimSweep die s
  | .migrationStart die tier => Sys2Proof.Machine.execMigrationStart die tier s
  | .migrationResume die tier => Sys2Proof.Machine.execMigrationResume die tier s
  | .migrationComplete die tier dataError => Sys2Proof.Machine.execMigrationComplete die tier dataError s
  | .frameReturnResume die tier => Sys2Proof.Machine.execFrameReturnResume die tier s
  | .seamWake a b => Sys2Proof.Machine.execSeamWake a b s
  | .seamWakeDone a b => Sys2Proof.Machine.execSeamWakeDone a b s
  | .dieDeadDeclaration die dead => Sys2Proof.Machine.execDieDeadDeclaration die dead s
  | .launchDepMet queue => Sys2Proof.Machine.execLaunchDepMet queue s
  | .gangAdmit => Sys2Proof.Machine.execGangAdmit s
  | .gangRetire gang => Sys2Proof.Machine.execGangRetire gang s
  | .spawnPushAccept qva vmid asid => Sys2Proof.Machine.execSpawnPushAccept qva vmid asid s
  | .spawnBatchForm qva vmid asid => Sys2Proof.Machine.execSpawnBatchForm qva vmid asid s
  | .schedulerPreempt => Sys2Proof.Machine.execSchedulerPreempt s
  | .faultRingSpace die => Sys2Proof.Machine.execFaultRingSpace die s
  | .faultVerdictRetry die idx => Sys2Proof.Machine.execFaultVerdictRetry die idx s
  | .faultVerdictFinal die idx => Sys2Proof.Machine.execFaultVerdictFinal die idx s
  | .sidelogReplay core entry => Sys2Proof.Machine.execSidelogReplay core entry s
  | .sidelogSpace core => Sys2Proof.Machine.execSidelogSpace core s
  | .homeRefusal m cause => Sys2Proof.Machine.execHomeRefusal m cause s
  | .pendingTrapTake rid => Sys2Proof.Machine.execPendingTrapTake rid s
  | .gangSaveComplete gang => Sys2Proof.Machine.execGangSaveComplete gang s
  | .beamNodeVisit core q => Sys2Proof.Machine.execBeamNodeVisit core q s
  | .beamSplitPush core q => Sys2Proof.Machine.execBeamSplitPush core q s
  | .beamRaysComplete core q => Sys2Proof.Machine.execBeamRaysComplete core q s
  | .cwaitWake rid => Sys2Proof.Machine.execCwaitWake rid s
  | .seamRetrainComplete a b => Sys2Proof.Machine.execSeamRetrainComplete a b s
  | .scratchpadAccess r => Sys2Proof.Machine.execScratchpadAccess r s
  | .accumulatorAccess r => Sys2Proof.Machine.execAccumulatorAccess r s
  | .heartbeatTimeout die peer => Sys2Proof.Machine.execHeartbeatTimeout die peer s
  | .ptsAge core => Sys2Proof.Machine.execPtsAge core s
  | .spawnBatchTimeout qva vmid asid => Sys2Proof.Machine.execSpawnBatchTimeout qva vmid asid s
  | .hostRequest r => Sys2Proof.Machine.execHostRequest r s
  | .podRequest r => Sys2Proof.Machine.execPodRequest r s
  | .ualinkPortDown port => Sys2Proof.Machine.execUalinkPortDown port s
  | .ctxControlWrite ctx v => Sys2Proof.Machine.execCtxControlWrite ctx v s
  | .ctxErrClear ctx => Sys2Proof.Machine.execCtxErrClear ctx s
  | .migrationEnableWrite die tier v => Sys2Proof.Machine.execMigrationEnableWrite die tier v s
  | .patrolScrub die tier frame corrected bad => Sys2Proof.Machine.execPatrolScrub die tier frame corrected bad s
  | .frameAttrWrite die off v => Sys2Proof.Machine.execFrameAttrWrite die off v s
  | .rclear die v => Sys2Proof.Machine.execRclear die v s
  | .hashselWrite die v => Sys2Proof.Machine.execHashselWrite die v s
  | .ptsWrite core v => Sys2Proof.Machine.execPtsWrite core v s
  | .seamRetrainTimeout a b passA passB => Sys2Proof.Machine.execSeamRetrainTimeout a b passA passB s
  | .doorbell die v => Sys2Proof.Machine.execDoorbell die v s
  | .faultRingConsWrite die v => Sys2Proof.Machine.execFaultRingConsWrite die v s
  | .keyLoad die v => Sys2Proof.Machine.execKeyLoad die v s
  | .keyClear die v => Sys2Proof.Machine.execKeyClear die v s
  | .partitionWrite die off v => Sys2Proof.Machine.execPartitionWrite die off v s
  | .attestRequest v => Sys2Proof.Machine.execAttestRequest v s
  | .errorCounterWrite die off v => Sys2Proof.Machine.execErrorCounterWrite die off v s
  | .registerWrite die off v => Sys2Proof.Machine.execRegisterWrite die off v s
  | .bringUp o => Sys2Proof.Machine.execBringUp o s
  | .thermalThrottle up => Sys2Proof.Machine.execThermalThrottle up s
  | .thermalShutdown => Sys2Proof.Machine.execThermalShutdown s
  | .seamSleep a b => Sys2Proof.Machine.execSeamSleep a b s
  | .heartbeat die => Sys2Proof.Machine.execHeartbeat die s
  | .seamWakeFail a b => Sys2Proof.Machine.execSeamWakeFail a b s

end Sys2Proof.Machine
end

