-- ==== Sys2Proof/Machine/Choice.lean ====
section
/-! DEFINITION. The choice of what comes next: a core's issue logic (01 R22-R30, 09 R215, 19 R403), the steps that are due with the
orders that hold among them (05 R126, R143, 08 R188), and the agents of the device that have something to do. -/
namespace Sys2Proof.Machine

/-- What the next step is: an instruction or event to execute at a state, or a state already reached. -/
inductive Pick where
  | run (i : Instr) (s : State) | done (s : State)

/-- The gang of a role is resident. -/
def State.resident (s : State) (r : Role) : Bool := match s.gang? r.gang with
  | some g => g.state == .resident
  | none => false

/-- The role may issue the word at its clause's index: it is not held, nor does a load of its stand refused (R412). -/
def State.issuing (s : State) (rid : Nat) (r : Role) : Bool :=
  !r.ended && r.hold == .ready && (s.stoppedOp rid r).isNone && (match r.clause with
    | some c => c.issued
    | none => false)

/-- The word at a role's index: decoded, and prepared for its meaning (R23, R32). -/
def State.wordStep (s : State) (rid : Nat) (r : Role) : Pick :=
  match r.clause with
  | none => .done s
  | some c => match decodeWord (c.words.getD c.idx 0) with
    | .error _ => .done (s.trapWith rid cILLEGAL false false false 0 0 c.addr r.ipc)
    | .ok i => match s.prepare rid r i with
      | .done s1 => .done s1
      | .run s1 => .run i s1

/-- What one attempt at a role's word answers. -/
def State.attempt (s : State) (rid : Nat) (r : Role) : Out :=
  match s.wordStep rid r with
  | .done s1 => .next s1
  | .run i s1 => exec i s1

/-! ### Roles that hold (R215) -/

/-- A hold that lasts while its own condition does: the instruction is tried again to see whether it goes on. -/
def probed : Hold → Bool
  | .window | .drain | .overlap | .counter _ | .context | .beam | .event _ | .matrix | .slotFull | .fqpop => true
  | _ => false

/-- The role holds on a counter; a CWAIT_WAKE ends that hold (R240). -/
def onCounter : Hold → Bool
  | .counter _ => true
  | _ => false

/-- A held role's instruction would go on now. -/
def State.wouldGo (s : State) (rid : Nat) (r : Role) : Bool :=
  let r1 := { r with hold := .ready }
  match r.clause with
  | none => true
  | some c =>
    if !c.issued then true
    else match (s.setRole rid r1).attempt rid r1 with
      | .next t => match t.role? rid with
        | some q => q.hold == .ready || (match q.clause with
          | some d => !(d.addr == c.addr && d.idx == c.idx)
          | none => true)
        | none => true
      | _ => true

/-- The roles of a core that HALT has not stopped and that no refused load holds, of gangs that are resident. -/
def State.liveRoles (s : State) (core : Nat) : List (Nat × Role) :=
  (s.coreRoles core).filterMap fun p =>
    if !p.2.2.ended && !p.2.2.halting && s.resident p.2.2 && (s.stoppedOp p.2.1 p.2.2).isNone then some (p.2.1, p.2.2) else none

/-- The roles of a core whose probed hold has ended are ready. (DESIGN CHOICE, log 57) -/
def State.recheck (s : State) (core : Nat) : State :=
  (s.liveRoles core).foldl (fun t p =>
    if probed p.2.hold && !(onCounter p.2.hold) && s.wouldGo p.1 p.2 then t.updRole p.1 fun r => { r with hold := .ready } else t) s

/-- A role of the core held on a counter whose target is met. -/
def State.counterMet (s : State) (core : Nat) : Option Nat :=
  (s.liveRoles core).findSome? fun p => if onCounter p.2.hold && s.wouldGo p.1 p.2 then some p.1 else none

/-- A role whose clause is to be fetched. -/
def State.toFetch (s : State) (core : Nat) : Option Nat :=
  (s.liveRoles core).findSome? fun p =>
    if p.2.hold == .ready && p.2.clause.isNone && (p.2.pend.isEmpty || p.2.handler) then some p.1 else none

/-- Some operation of the core may go on, or a role of it has a trap to take or is to end. -/
def State.coreBusy (s : State) (core : Nat) : Bool :=
  ((s.core core).ops.any fun p => p.2.stop == .walk ||
    (p.2.stop == .go && p.2.sent = 0 && p.2.kind != .accRead && p.2.kind != .accWrite && s.mayStart core p.1 p.2)) ||
  (s.coreRoles core).any fun p => !p.2.2.ended && (p.2.2.halting ||
    (!p.2.2.pend.isEmpty && !p.2.2.handler && (p.2.2.atBoundary || (s.stoppedOp p.2.1 p.2.2).isSome) && s.ringRoom (dieOf core)))

/-! ### A core's issue logic -/

/-- The device has come up, has not shut down, and the die is alive (R455, R459, R139). -/
def State.alive (s : State) (d : Nat) : Bool := s.boot.getLsbD 16 && !s.stopped && !(s.isDead d)

/-- With no role in the middle of a clause: a wake, a fetch, or an issue opportunity. -/
def State.coreChoose (s : State) (core : Nat) : Option Pick :=
  let s1 := s.recheck core
  match s1.counterMet core with
  | some rid => some (.run (.cwaitWake rid) s1)
  | none => match s1.toFetch core with
    | some rid => some (.run (.clauseFetch rid) s1)
    | none => if !(s1.readyRoles core).isEmpty || s1.coreBusy core then some (.run (.issueOpportunity core) s1) else none

/-- What a core's issue logic does next; none where it has nothing to do. -/
def State.coreStep (s : State) (core : Nat) : Option Pick :=
  if !(s.alive (dieOf core)) then none
  else
    let k := s.core core
    let idle := fun () => (s.setCore core { k with phase := .choose }).coreChoose core
    match k.phase with
    | .run rid => match s.role? rid with
      | some r => if s.issuing rid r then some (s.wordStep rid r) else idle ()
      | none => idle ()
    | .header rid => match s.role? rid with
      | some r => if s.roleReady rid r then some (.run (.clauseIssue rid) s) else idle ()
      | none => idle ()
    | _ => s.coreChoose core

/-- The first core from `turn` on, in the order of the list and around, whose issue logic has something to do. -/
def State.someCore (s : State) (turn : Nat) : Option Pick :=
  let ids := s.cores.map (·.1)
  ((ids.filter fun c => turn ≤ c) ++ ids.filter fun c => c < turn).findSome? fun c =>
    (({ s with coreTurn := c + 1 } : State).coreStep c)

/-! ### The order of the steps that are due -/

/-- The way of a message of the protocol: where it comes from and where it goes. Flow 0x000 is ordered per source endpoint (R188); what stays
on one die is ordered by its line. The data of an owner does not name it, and follows the line's. -/
def State.msgWay (s : State) (i : Instr) : Option (Nat × Nat × Nat) :=
  let way := fun (x y l : Nat) => some (x, y, if x = y then l + 1 else 0)
  match i with
  | .gets h l a | .getm h l a | .upgm h l a => way a.val h.val l
  | .invack h l a _ | .back h l a _ | .evc h l a _ => way a.val h.val l
  | .mirw h l a _ _ _ => way a.val h.val l
  | .fwds h o l _ | .fwdm h o l _ => way h.val o.val l
  | .inv h a l | .binv h a l => way h.val a.val l
  | .data a l _ _ _ _ fromOwner => if fromOwner then some (9, a.val, l + 1) else way (s.homeOf l) a.val l
  | .gnt a l _ _ => way (s.homeOf l) a.val l
  | .mack a l _ => way (s.homeOf l) a.val l
  | _ => none

/-- The copy that a transfer is of, and its line: of two element writes of one copy to the same bytes, the later stays the later (R187). -/
def flowWay : Instr → Option (CtxId × Nat × Nat × Nat)
  | .flowTransferReceive t => some (t.ctx, t.n, t.face, t.pa / 128)
  | _ => none

def storeWay : Instr → Option (Nat × Nat)
  | .streq m => some (m.core, m.line)
  | _ => none

/-- The host's requests come in the order in which it sends them (R188), and the entries of a side log replay in its order (R111 step 8). -/
def orderWay : Instr → Option (Option Nat)
  | .hostRequest _ => some none
  | .sidelogReplay c _ => some (some c)
  | _ => none

def isUpdate : Instr → Bool
  | .accLineUpdate _ => true
  | _ => false

/-- Two steps on one way. -/
def sameWay {α : Type} [DecidableEq α] (way : Instr → Option α) (a b : Instr) : Bool := (way a).isSome && decide (way a = way b)

/-- Step `b`, due after `a`, comes after it: stores of one core to one line; messages of the protocol on one way; accumulator requests of a
role to one line, line updates among themselves apart; transfers of one command; requests of the host; replays of one core. -/
def State.mustFollow (s : State) (a b : Instr) : Bool :=
  sameWay storeWay a b || sameWay s.msgWay a b || (sameWay accWay a b && !(isUpdate a && isUpdate b)) || sameWay flowWay a b || sameWay orderWay a b

/-- The place of the step that is taken when place `n` is asked for: the earliest that it must follow, or itself. -/
def State.duePlace (s : State) (n : Nat) : Nat :=
  match s.pending[n]? with
  | none => n
  | some i => (indexWhere (fun j => s.mustFollow j i) (s.pending.take n)).getD n

/-- Take the step that is due at a place. Only device steps are ever due: an instruction word, which a core alone executes, is dropped. (DESIGN CHOICE, log 7) -/
def State.takeDue (s : State) (n : Nat) : Option Pick :=
  let m := s.duePlace n
  let s1 : State := { s with pending := dropAt s.pending m }
  (s.pending[m]?).map fun i => if (encode i).isSome then .done s1 else .run i s1

/-! ### Agents of the device -/

/-- The engine contexts' steps. -/
def State.engineDue (s : State) : List Instr :=
  ((s.issued.filter fun q => (s.nextAccept q.ctx).isSome).map fun q => .engineCommandAccept q.ctx) ++
  s.ctxs.flatMap fun p =>
    let start := !p.2.due.isEmpty || (p.2.cmds.any fun q => q.st == .held) || (match p.2.startable with
      | some q => s.served p.1 q
      | none => false)
    (if start then [Instr.engineCommandStart p.1] else []) ++
    ((p.2.cmds.filter fun q => (q.st == .running && !(s.cmdOut p.1 q.n)) || (q.busy && !q.sigs.isEmpty) ||
      (q.st == .done && !(p.2.err && p.2.tlRetry.isSome) && q.n == p.2.completed + 1)).map
      fun q => .engineCommandComplete p.1 q.n)

/-- The step of a beam query (R344, R348, R355, R367, R369). -/
def State.queryDue (s : State) (core n : Nat) (q : Query) : List Instr :=
  let stop := q.aborted || q.saveTo.isSome
  match q.phase with
  | .path | .walking => [.beamNodeVisit core n]
  | .push => if stop then [.beamNodeVisit core n] else if s.queryParked core n then [] else [.beamSplitPush core n]
  | .proc _ => if stop || !(s.queryLive q) then [.beamNodeVisit core n] else []
  | .records _ _ => [.beamRaysComplete core n]

/-- What a live core's sender and beam unit have to do. -/
def State.coreDue (s : State) (core : Nat) (k : Core) : List Instr :=
  if !(s.alive (dieOf core)) then []
  else (if k.refused.isEmpty then [] else [Instr.reductionResend core]) ++ k.queries.flatMap fun p => s.queryDue core p.1 p.2

/-- What the scheduler has to do (R392, R396, R399-R401, R425). -/
def State.schedulerDue (s : State) : List Instr :=
  ((s.queues.map (·.1)).filter fun q => (s.depStep? q).isSome).map .launchDepMet ++
  (s.spawns.flatMap fun x =>
    (if ((s.acceptPush x.qva x.vmid x.asid).spawn? x.qva x.vmid x.asid).any fun y => y.parked.length < x.parked.length then
      [Instr.spawnPushAccept x.qva x.vmid x.asid] else []) ++
    (if (s.formBatch? x.qva x.vmid x.asid).isSome then [Instr.spawnBatchForm x.qva x.vmid x.asid] else [])) ++
  (if s.admitStep?.isSome then [.gangAdmit] else []) ++
  (s.gangs.map (·.1)).flatMap fun g =>
    (if (s.retireStep? g).isSome then [Instr.gangRetire g] else []) ++ (if (s.saveStep? g).isSome then [Instr.gangSaveComplete g] else [])

/-- What the engines of a die have to do: versions (R111, R114), migration (R97), free rings (R472), flows (R191). -/
def State.dieDue (s : State) (d : Die) : List Instr :=
  if !(s.alive d.val) then []
  else
    let x := s.die d.val
    let tiers : List (Fin 3) := [0, 1, 2]
    (if x.pubs.any s.pubMet then [Instr.publishFire d] else []) ++
    (if x.flowRefused.isEmpty then [] else [Instr.flowResend d]) ++
    (if (s.cowRequest? d.val).isSome then [Instr.snapshotCopyRequest d] else []) ++
    (if (s.cowResume? d.val).isSome then [Instr.snapshotCopyResume d] else []) ++
    (if (s.cowReady d.val).isEmpty then [] else [Instr.snapshotCopyComplete d false]) ++
    (tiers.flatMap fun t =>
      (if (s.migStart? d.val t.val).isSome then [Instr.migrationStart d t] else []) ++
      (if (s.migResume? d.val t.val).isSome then [Instr.migrationResume d t] else []) ++
      (if (s.migReady d.val t.val).isSome then [Instr.migrationComplete d t false] else []) ++
      (if (x.returns.any fun r => r.tier == t.val) && s.freeRoom d.val t.val then [Instr.frameReturnResume d t] else [])) ++
    (([0, 1, 2, 3] : List Die).filter fun p => s.missed d.val p.val).map (.heartbeatTimeout d)

/-- What the agents of the device have to do now. -/
def State.dueEvents (s : State) : List Instr :=
  if !(s.boot.getLsbD 16) || s.stopped then []
  else s.engineDue ++ (s.cores.flatMap fun p => s.coreDue p.1 p.2) ++ (([0, 1, 2, 3] : List Die).flatMap s.dieDue) ++ s.schedulerDue ++
    (if s.preempt?.isSome then [.schedulerPreempt] else [])

/-- What only the passing of time brings: the time-out of a batch (R400), the ageing of a core's pts (R122), and the background
sweep of a die whose chain tables are in use (R113). (DESIGN CHOICE, log 10) -/
def State.timeEvents (s : State) : List Instr :=
  if !(s.boot.getLsbD 16) || s.stopped then []
  else
    (s.spawns.filterMap fun x => match s.readSpawn x with
      | .ok (q, _) => if x.ready.isNone && (batchOf q x).isNone && (batchOf q { x with timeout := true }).isSome then
          some (.spawnBatchTimeout x.qva x.vmid x.asid) else none
      | .error _ => none) ++
    (s.cores.filterMap fun p => if s.alive (dieOf p.1) && p.2.hitSince then some (.ptsAge p.1) else none) ++
    ((([0, 1, 2, 3] : List Die).filter fun d => s.alive d.val &&
      (List.range 16).any fun v => wbit (s.reg d.val (0x3000 + 16 * v)) 0).map .reclaimSweep)

/-- The element of a list that comes up at turn `n`. -/
def atTurn (l : List Instr) (n : Nat) : Option Instr := l[n % l.length]?

/-! ### The choice -/

/-- The default choice: the steps that are due, the cores and the agents of the device in turn; time passes when none of them has
anything to do, and once in 1,024 turns. -/
def State.byDefault (s0 : State) : Pick :=
  let s : State := { s0 with turn := s0.turn + 1 }
  let due := fun () => s.takeDue 0
  let core := fun () => s.someCore s.coreTurn
  let agent := fun () => (atTurn s.dueEvents (s0.turn / 3)).map fun i => .run i s
  let time := fun (n : Nat) => (atTurn s.timeEvents n).map fun i => .run i s
  let first : List (Unit → Option Pick) := if s0.turn % 1024 = 1023 then [fun _ => time (s0.turn / 1024), due, core, agent]
    else if s0.turn % 3 = 0 then [due, core, agent] else if s0.turn % 3 = 1 then [core, agent, due] else [agent, due, core]
  match first.findSome? fun f => f () with
  | some p => p
  | none => (time (s0.turn / 3)).getD (.done s0)

/-- The next step: the choice that stands first in `sched`, or the default. (DESIGN CHOICE, log 9) -/
def State.pick (s : State) : Pick :=
  match s.sched with
  | [] => s.byDefault
  | c :: rest =>
    let s1 : State := { s with sched := rest }
    let asked := match c with
      | .event n => s1.takeDue n
      | .core c => s1.coreStep c
      | .poll n => ((s1.dueEvents ++ s1.timeEvents)[n]?).map fun i => .run i s1
      | .default => none
    match asked with
    | some p => p
    | none => s1.byDefault

/-! ### Placing one instruction -/

/-- A role that an instruction can be placed in: 32 lanes, 64 vector registers, on core 0. -/
def placedRole (gid slot : Nat) : Role :=
  { gang := gid, core := 0, slot := slot, vmid := 1, nlanes := 32, budget := 64, masks := Sparse.set 0 [] 0 (lowLanes 32) }

/-- The clause of one word, with its header issued. -/
def placedClause (addr : Word) (w : Word) : Clause :=
  { addr := addr, header := { hint := 0, yield := false, tack := false, wait := 0, count := 0 }, words := [w], idx := 0, issued := true }

/-- The role that core 0 is issuing from. -/
def State.running (s : State) : Option (Nat × Role) := match (s.core 0).phase with
  | .run rid => (s.role? rid).bind fun r => if s.issuing rid r && s.resident r then some (rid, r) else none
  | _ => none

/-- The device is ready and core 0 issues from a role whose clause is the one word. -/
def State.placeWord (s : State) (w : Word) : State :=
  let s0 : State := { s with sched := [.core 0], boot := 0x10008#17, stopped := false }
  match s.running with
  | some (rid, r) => s0.setRole rid { r with clause := some (placedClause r.header w) }
  | none =>
    let k := s.core 0
    let slot := ((List.range 8).find? fun i => (k.slots.find i).isNone).getD 0
    let gid := s.nextGang
    let rid := s.nextRole
    let s1 : State := { s0 with gangs := s.gangs.put gid { vmid := 1, cores := [0] }, nextGang := gid + 1, nextRole := rid + 1,
                                roles := s.roles.put rid { placedRole gid slot with clause := some (placedClause 0 w) } }
    s1.setCore 0 { k with slots := k.slots.put slot rid, phase := .run rid }

end Sys2Proof.Machine
end

