-- ==== Sys2Proof/Machine/Step.lean ====
section
/-! DEFINITION. One step of the package, and an instruction placed where the next step fetches it. -/
namespace Sys2Proof.Machine

/-- One step: what comes next is chosen and executed. (DESIGN CHOICE, log 11) -/
def step (s : State) : Host.Outcome State Fault Refusal :=
  match s.pick with
  | .done s1 => .next s1
  | .run i s1 => exec i s1

/-- The state with an instruction's word where the next step takes it from: in the clause that core 0 issues. (DESIGN CHOICE, log 6) -/
def State.withFetchWord (s : State) (nbits w : Nat) : State := s.placeWord (BitVec.ofNat 64 (w % 2 ^ nbits))

end Sys2Proof.Machine
end

