-- ==== Sys2Proof/Safety.lean ====
section
/-! DEFINITION. What a run is, when a state is safe, and the invariant of the machine's memory that claims are stated with. -/
namespace Sys2Proof.Machine

/-- `n` steps lead from `s` to `t`. -/
def Runs (n : Nat) (s t : State) : Prop := Sys2Proof.core.run n s = .next t

/-- Some number of steps leads from `s` to `t`. -/
def Reaches (s t : State) : Prop := ∃ n, Runs n s t

/-- No run from the state ends in a fault or a refusal. -/
def Safe (s : State) : Prop := ∀ n, ∃ t, Runs n s t

/-- The memory of the package and that of the pod's peers are in their canonical form. -/
def MemoryInv (s : State) : Prop := Memory.wf s.mem ∧ Memory.wf s.podMem

/-- A step that the device takes on its own, and that no instruction word encodes. -/
def DeviceStep (i : Instr) : Prop := encode i = none

end Sys2Proof.Machine
end

