-- ==== Sys2Proof/Certificates/Slice0/Obligations.lean ====
section
/-! DEFINITION. The statements for the provers, with the vocabulary they share. Each docstring names the rules of the spec that a
statement formalises; where a clause rests on a choice of the model, it names the row of the assumption log. -/
namespace Sys2Proof.Claim
open Sys2Proof.Machine

/-! ### Vocabulary -/

/-- The w-bit element of a register field in lane `l`: a scalar register is the same in every lane (R36, R203). -/
def el (r : Role) (t : Ty) (f : RegName) (l : Nat) : Nat :=
  (if f.isScalar then r.sreg f.num else r.vreg f.num l).toNat % 2 ^ t.width

/-- Lane `l` is active under MASK `m` (R205). -/
def Active (r : Role) (m : BitVec 3) (l : Nat) : Prop :=
  l < r.nlanes ∧ l < 1024 ∧ (r.mask 0).getLsbD l = true ∧ (r.mask m.toNat).getLsbD l = true

/-- From `r` to `q`, D took `f` (R36, R283): s[D] the value of lane 0, or each active lane of v[D] its own; every other scalar and
vector register, and every lane that is not active, is unchanged. -/
def Wrote (r q : Role) (d : RegName) (m : BitVec 3) (f : Nat → Word) : Prop :=
  (∀ n, q.sreg n = if d.isScalar ∧ n = d.num then f 0 else r.sreg n) ∧
  ∀ n l, l < 1024 →
    ((d.isScalar = false ∧ n = d.num ∧ Active r m l) → q.vreg n l = f l) ∧
    (¬(d.isScalar = false ∧ n = d.num ∧ Active r m l) → q.vreg n l = r.vreg n l)

/-- No scalar and no vector register changed. -/
def RegsKept (r q : Role) : Prop := (∀ n, q.sreg n = r.sreg n) ∧ ∀ n l, l < 1024 → q.vreg n l = r.vreg n l

/-- The instruction is complete: the role stands past its word (R26), and of its other state only the scalar and vector registers,
the masks, CC, FPSTAT and AMAX may differ; those have clauses of their own. -/
def Moved (r q : Role) : Prop :=
  { q with sregs := r.sregs, vregs := r.vregs, masks := r.masks, cc := r.cc, fpstat := r.fpstat, amax := r.amax } = r.advance

/-- The instruction `i` completes: a next state in which only the issuing role differs, as `post` says; every other role, every
byte of memory and everything else of the device is unchanged. -/
def Completes (i : Instr) (s : State) (post : Role → Prop) : Prop :=
  ∃ t q, exec i s = .next t ∧ t.role? s.cur = some q ∧ post q ∧ (∀ k, k ≠ s.cur → t.role? k = s.role? k) ∧
    (∀ a, t.byte a = s.byte a) ∧ t = { s with roles := t.roles }

/-- The issuing role of a state. -/
abbrev Issuing (s : State) (r : Role) : Prop := s.role? s.cur = some r

/-- CC took Z, N, C and V; E keeps its value (R211, R292). -/
def CCIs (r q : Role) (z n c v : Bool) : Prop :=
  q.cc.getLsbD 0 = z ∧ q.cc.getLsbD 1 = n ∧ q.cc.getLsbD 2 = c ∧ q.cc.getLsbD 3 = v ∧ q.cc.getLsbD 4 = r.cc.getLsbD 4

/-- The w-bit pattern of an integer (R287 without .sat). -/
def wrap (t : Ty) (x : Int) : Nat := (x % (2 ^ t.width : Nat)).toNat

/-- The stored pattern of an exact result: clamped to the type's range with .sat, else modulo 2^w (R287, R269). -/
def stored (t : Ty) (sat : Bool) (x : Int) : Nat := wrap t (if sat then max t.lo (min t.hi x) else x)

/-- The exact result lies outside the range of the type. -/
def beyond (t : Ty) (x : Int) : Bool := decide (x < t.lo ∨ t.hi < x)

/-- The pattern of `p` read signed at the width of the type. -/
def signedVal (t : Ty) (p : Nat) : Int := if 2 * p < 2 ^ t.width then (p : Int) else (p : Int) - (2 ^ t.width : Nat)

/-- Signed overflow (R292). -/
def overflows (t : Ty) (x : Int) : Bool := decide (x < -(2 ^ (t.width - 1) : Nat) ∨ (2 ^ (t.width - 1) : Nat) ≤ x)

/-- The top bit of a pattern. -/
def top (t : Ty) (p : Nat) : Bool := decide (2 ^ (t.width - 1) ≤ p)

/-- An integer instruction completes (R283): D takes the pattern `p` of each lane, CC takes `c` and `v` with Z and N of the pattern
`zn` in the scalar form and keeps its value in the vector form; masks, FPSTAT and AMAX are unchanged. -/
def IntDone (i : Instr) (s : State) (r : Role) (d : RegName) (m : BitVec 3) (t : Ty) (p zn : Nat → Nat) (c v : Bool) : Prop :=
  Completes i s fun q =>
    Wrote r q d m (fun l => BitVec.ofNat 64 (p l)) ∧
    (d.isScalar = true → CCIs r q (decide (zn 0 = 0)) (top t (zn 0)) c v) ∧ (d.isScalar = false → q.cc = r.cc) ∧
    q.masks = r.masks ∧ q.fpstat = r.fpstat ∧ q.amax = r.amax ∧ Moved r q

/-- The b operand of an immediate form: the sign-extended immediate modulo 2^w (R286). -/
def immB (o : FmtI2) : Nat := (o.imm.signExtend 64).toNat % 2 ^ o.ty.width

/-- A result that leaves CC alone: D takes the words, and masks, CC, FPSTAT and AMAX are unchanged. -/
def MoveDone (i : Instr) (s : State) (r : Role) (d : RegName) (m : BitVec 3) (f : Nat → Word) : Prop :=
  Completes i s fun q =>
    Wrote r q d m f ∧ q.cc = r.cc ∧ q.masks = r.masks ∧ q.fpstat = r.fpstat ∧ q.amax = r.amax ∧ Moved r q

/-- A floating-point instruction completes: D takes the pattern of each lane's result, FPSTAT gains the flags of every lane that ran
(R213, R283); CC, masks and AMAX are unchanged. -/
def FloatDone (i : Instr) (s : State) (r : Role) (d : RegName) (m : BitVec 3) (f : Nat → Nat × Flags) : Prop :=
  Completes i s fun q =>
    Wrote r q d m (fun l => BitVec.ofNat 64 (f l).1) ∧
    (∀ k, q.fpstat.getLsbD k = true ↔ r.fpstat.getLsbD k = true ∨
      (d.isScalar = true ∧ (f 0).2.getLsbD k = true) ∨
      (d.isScalar = false ∧ ∃ l, Active r m l ∧ (f l).2.getLsbD k = true)) ∧
    q.cc = r.cc ∧ q.masks = r.masks ∧ q.amax = r.amax ∧ Moved r q

/-- Mask register `d` took truth values: the active lanes' bits take `f`, every other lane of the role keeps its bit, lanes at or
above NLANES read 0, and every other mask is unchanged (R204, R289). -/
def MaskWrote (r q : Role) (d : Nat) (m : BitVec 3) (f : Nat → Bool) : Prop :=
  (∀ l, l < r.nlanes → l < 1024 →
    (Active r m l → (q.mask d).getLsbD l = f l) ∧ (¬Active r m l → (q.mask d).getLsbD l = (r.mask d).getLsbD l)) ∧
  (∀ l, r.nlanes ≤ l → (q.mask d).getLsbD l = false) ∧ ∀ n, n ≠ d → q.mask n = r.mask n

end Sys2Proof.Claim

open Sys2Proof Sys2Proof.Machine Sys2Proof.Claim

/-! ### Integer instructions (13 R283-R292) -/

/-- R287, R292: ADD, SUB, MUL and MAD store the exact result clamped with .sat and modulo 2^w without; MULHI the floor of the
product over 2^w; NEG and ABS as their entries say; each with its CC, and nothing else changes. -/
def Sys2Proof.Claim.IntegerSumsAndProducts : Prop :=
  ∀ (s : State) (r : Role) (o : FmtA), Issuing s r → o.ty.isInt = true →
    let t := o.ty
    let sat := o.mod.getLsbD 0
    let a := fun l => t.toInt (el r t o.a l)
    let b := fun l => t.toInt (el r t o.b l)
    let c := fun l => t.toInt (el r t o.c l)
    let ua := el r t o.a 0
    let ub := el r t o.b 0
    let pAdd := fun l => stored t sat (a l + b l)
    let pSub := fun l => stored t sat (a l - b l)
    let pMul := fun l => stored t sat (a l * b l)
    let pMad := fun l => stored t sat (a l * b l + c l)
    let pHi := fun l => wrap t (a l * b l / (2 ^ t.width : Nat))
    let pNeg := fun l => stored t sat (-(a l))
    let pAbs := fun l => stored t sat (a l).natAbs
    IntDone (.add o) s r o.d o.mask t pAdd pAdd (decide (2 ^ t.width ≤ ua + ub))
      (overflows t (signedVal t ua + signedVal t ub) || (sat && beyond t (a 0 + b 0))) ∧
    IntDone (.sub o) s r o.d o.mask t pSub (fun l => wrap t ((el r t o.a l : Int) - el r t o.b l)) (decide (ub ≤ ua))
      (overflows t (signedVal t ua - signedVal t ub) || (sat && beyond t (a 0 - b 0))) ∧
    IntDone (.mul o) s r o.d o.mask t pMul pMul false (beyond t (a 0 * b 0)) ∧
    IntDone (.mad o) s r o.d o.mask t pMad pMad false (beyond t (a 0 * b 0 + c 0)) ∧
    IntDone (.mulhi o) s r o.d o.mask t pHi pHi false false ∧
    IntDone (.neg o) s r o.d o.mask t pNeg (fun l => wrap t (-(el r t o.a l : Int))) (decide (ua = 0))
      (overflows t (-(signedVal t ua)) || (sat && beyond t (-(a 0)))) ∧
    IntDone (.abs o) s r o.d o.mask t pAbs pAbs false (sat && beyond t (a 0).natAbs)

/-- R286, R287, R292: the immediate forms of ADD, SUB and MUL take the sign-extended immediate modulo 2^w and never saturate. -/
def Sys2Proof.Claim.IntegerSumsImmediate : Prop :=
  ∀ (s : State) (r : Role) (o : FmtI2), Issuing s r → o.ty.isInt = true →
    let t := o.ty
    let a := fun l => t.toInt (el r t o.a l)
    let b := t.toInt (immB o)
    let ua := el r t o.a 0
    let pAdd := fun l => wrap t (a l + b)
    let pMul := fun l => wrap t (a l * b)
    IntDone (.addImm o) s r o.d o.mask t pAdd pAdd (decide (2 ^ t.width ≤ ua + immB o))
      (overflows t (signedVal t ua + signedVal t (immB o))) ∧
    IntDone (.subImm o) s r o.d o.mask t (fun l => wrap t (a l - b)) (fun l => wrap t ((el r t o.a l : Int) - immB o))
      (decide (immB o ≤ ua)) (overflows t (signedVal t ua - signedVal t (immB o))) ∧
    IntDone (.mulImm o) s r o.d o.mask t pMul pMul false (beyond t (a 0 * b))

/-- R287, R292: DIV truncates toward zero and REM is a − b × DIV(a, b); division by zero gives all ones and a, the most negative
value over −1 gives itself and 0, neither traps, and V tells both corners. -/
def Sys2Proof.Claim.DivisionNeverTraps : Prop :=
  ∀ (s : State) (r : Role) (o : FmtA), Issuing s r → o.ty.isInt = true →
    let t := o.ty
    let a := fun l => t.toInt (el r t o.a l)
    let b := fun l => t.toInt (el r t o.b l)
    let z := fun l => el r t o.b l = 0
    let q := fun l => if z l then 2 ^ t.width - 1 else wrap t (Int.tdiv (a l) (b l))
    let m := fun l => if z l then el r t o.a l else wrap t (a l - b l * Int.tdiv (a l) (b l))
    let v := decide (z 0) || (decide (t.lo < 0) && decide (a 0 = t.lo) && decide (b 0 = -1))
    IntDone (.div o) s r o.d o.mask t q q false v ∧ IntDone (.rem o) s r o.d o.mask t m m false v

/-- R283-R287, R292: integer sums, products, quotients and remainders, in both forms. -/
def Obligations.IntegerArithmetic : Prop := Claim.IntegerSumsAndProducts ∧ Claim.IntegerSumsImmediate ∧ Claim.DivisionNeverTraps

/-- R286, R292: MIN, MAX and the logical instructions, in both forms, with C and V 0. -/
def Sys2Proof.Claim.OrderAndLogic : Prop :=
  (∀ (s : State) (r : Role) (o : FmtA), Issuing s r → o.ty.isInt = true →
    let t := o.ty
    let a := fun l => el r t o.a l
    let b := fun l => el r t o.b l
    let done := fun (i : Instr) (p : Nat → Nat) => IntDone i s r o.d o.mask t p p false false
    done (.min o) (fun l => wrap t (min (t.toInt (a l)) (t.toInt (b l)))) ∧
    done (.max o) (fun l => wrap t (max (t.toInt (a l)) (t.toInt (b l)))) ∧
    done (.and o) (fun l => a l &&& b l) ∧ done (.or o) (fun l => a l ||| b l) ∧ done (.xor o) (fun l => a l ^^^ b l) ∧
    done (.not o) (fun l => 2 ^ t.width - 1 - a l) ∧ done (.andn o) (fun l => a l &&& (2 ^ t.width - 1 - b l))) ∧
  ∀ (s : State) (r : Role) (o : FmtI2), Issuing s r → o.ty.isInt = true →
    let t := o.ty
    let a := fun l => el r t o.a l
    let done := fun (i : Instr) (p : Nat → Nat) => IntDone i s r o.d o.mask t p p false false
    done (.minImm o) (fun l => wrap t (min (t.toInt (a l)) (t.toInt (immB o)))) ∧
    done (.maxImm o) (fun l => wrap t (max (t.toInt (a l)) (t.toInt (immB o)))) ∧
    done (.andImm o) (fun l => a l &&& immB o) ∧ done (.orImm o) (fun l => a l ||| immB o) ∧
    done (.xorImm o) (fun l => a l ^^^ immB o)

/-- R288, R292: shifts and rotates by bits [7:0] of B, or by the immediate: 0 or the sign past the width, ROL modulo the width. -/
def Sys2Proof.Claim.ShiftsAndRotates : Prop :=
  (∀ (s : State) (r : Role) (o : FmtA), Issuing s r → o.ty.isInt = true →
    let t := o.ty
    let a := fun l => el r t o.a l
    let n := fun l => el r t o.b l % 256
    let k := fun l => n l % t.width
    let done := fun (i : Instr) (p : Nat → Nat) => IntDone i s r o.d o.mask t p p false false
    done (.shl o) (fun l => if t.width ≤ n l then 0 else a l * 2 ^ n l % 2 ^ t.width) ∧
    done (.shr o) (fun l => if t.width ≤ n l then 0 else a l / 2 ^ n l) ∧
    done (.sar o) (fun l => if t.width ≤ n l then (if signedVal t (a l) < 0 then 2 ^ t.width - 1 else 0)
      else wrap t (signedVal t (a l) / (2 ^ n l : Nat))) ∧
    done (.rol o) (fun l => a l * 2 ^ k l % 2 ^ t.width + a l / 2 ^ (t.width - k l))) ∧
  ∀ (s : State) (r : Role) (o : FmtI2), Issuing s r → o.ty.isInt = true → o.imm.toNat < 64 →
    let t := o.ty
    let a := fun l => el r t o.a l
    let n := o.imm.toNat
    let k := n % t.width
    let done := fun (i : Instr) (p : Nat → Nat) => IntDone i s r o.d o.mask t p p false false
    done (.shlImm o) (fun l => if t.width ≤ n then 0 else a l * 2 ^ n % 2 ^ t.width) ∧
    done (.shrImm o) (fun l => if t.width ≤ n then 0 else a l / 2 ^ n) ∧
    done (.sarImm o) (fun l => if t.width ≤ n then (if signedVal t (a l) < 0 then 2 ^ t.width - 1 else 0)
      else wrap t (signedVal t (a l) / (2 ^ n : Nat))) ∧
    done (.rolImm o) (fun l => a l * 2 ^ k % 2 ^ t.width + a l / 2 ^ (t.width - k))

/-- R289, R290, R292: MOV, MOVI, MOVH and SEL move words and leave CC; SEL takes the mask C in the vector form and the condition on
CC in the scalar form. -/
def Sys2Proof.Claim.MovesAndSelects : Prop :=
  (∀ (s : State) (r : Role) (o : FmtA), Issuing s r → o.ty.isInt = true →
    MoveDone (.mov o) s r o.d o.mask (fun l => BitVec.ofNat 64 (el r o.ty o.a l))) ∧
  (∀ (s : State) (r : Role) (o : FmtI1), Issuing s r →
    (o.ty = .i64 → MoveDone (.movi o) s r o.d o.mask (fun _ => o.imm.signExtend 64)) ∧
    (o.ty = .n64 → MoveDone (.movi o) s r o.d o.mask (fun _ => o.imm.zeroExtend 64)) ∧
    MoveDone (.movh o) s r o.d o.mask (fun l =>
      BitVec.ofNat 64 (2 ^ 32 * o.imm.toNat + (if o.d.isScalar then r.sreg o.d.num else r.vreg o.d.num l).toNat % 2 ^ 32))) ∧
  ∀ (s : State) (r : Role) (o : FmtA), Issuing s r → (Instr.sel o).wf = true →
    let w := fun (f : RegName) (l : Nat) => if f.isScalar then r.sreg f.num else r.vreg f.num l
    let zBit := r.cc.getLsbD 0
    let nBit := r.cc.getLsbD 1
    let vBit := r.cc.getLsbD 3
    (o.d.isScalar = true → MoveDone (.sel o) s r o.d o.mask fun _ =>
      if (o.mod.toNat = 0 ∨ (o.mod.toNat = 1 ∧ zBit) ∨ (o.mod.toNat = 2 ∧ !zBit) ∨ (o.mod.toNat = 3 ∧ nBit ≠ vBit) ∨
        (o.mod.toNat = 4 ∧ nBit = vBit)) then r.sreg o.a.num else r.sreg o.b.num) ∧
    (o.d.isScalar = false → MoveDone (.sel o) s r o.d o.mask fun l =>
      if (r.mask o.c.toNat).getLsbD l then w o.a l else w o.b l)

/-- R289, R292: CMP writes 1 or 0, or a mask bit per active lane with MD; the immediate form compares three ways; the CC of a − b
comes from the scalar forms alone. -/
def Sys2Proof.Claim.Comparisons : Prop :=
  (∀ (s : State) (r : Role) (o : FmtA), Issuing s r → (Instr.cmp o).wf = true →
    let t := o.ty
    let a := fun l => t.toInt (el r t o.a l)
    let b := fun l => t.toInt (el r t o.b l)
    let ua := el r t o.a 0
    let ub := el r t o.b 0
    let c := o.mod.toNat % 8
    let holds := fun l => decide ((c = 0 ∧ a l = b l) ∨ (c = 1 ∧ a l ≠ b l) ∨ (c = 2 ∧ a l < b l) ∨ (c = 3 ∧ a l ≤ b l) ∨
      (c = 4 ∧ b l < a l) ∨ (c = 5 ∧ b l ≤ a l))
    (o.mod.getLsbD 3 = false → IntDone (.cmp o) s r o.d o.mask t (fun l => if holds l then 1 else 0)
      (fun l => wrap t ((el r t o.a l : Int) - el r t o.b l)) (decide (ub ≤ ua)) (overflows t (signedVal t ua - signedVal t ub))) ∧
    (o.mod.getLsbD 3 = true → Completes (.cmp o) s fun q =>
      MaskWrote r q o.d.toNat o.mask holds ∧ RegsKept r q ∧ q.cc = r.cc ∧ q.fpstat = r.fpstat ∧ q.amax = r.amax ∧ Moved r q)) ∧
  ∀ (s : State) (r : Role) (o : FmtI2), Issuing s r → o.ty.isInt = true →
    let t := o.ty
    let a := fun l => t.toInt (el r t o.a l)
    let b := t.toInt (immB o)
    let ua := el r t o.a 0
    IntDone (.cmpImm o) s r o.d o.mask t (fun l => if a l < b then 2 ^ t.width - 1 else if a l = b then 0 else 1)
      (fun l => wrap t ((el r t o.a l : Int) - immB o)) (decide (immB o ≤ ua)) (overflows t (signedVal t ua - signedVal t (immB o)))

/-- R289, R290, R292: moves, selects and integer comparisons. -/
def Obligations.MovesSelectsAndComparisons : Prop := Claim.MovesAndSelects ∧ Claim.Comparisons

/-- R291, R292: the bit instructions, told by their bits: CLZ and CTZ count the zeros above and below, POPC the ones, BREV turns the
pattern round, BFX and BFI read and replace a field. -/
def Sys2Proof.Claim.BitInstructions : Prop :=
  ∀ (s : State) (r : Role) (o : FmtA), Issuing s r → o.ty.isInt = true →
    let t := o.ty
    let w := t.width
    let a := fun l => el r t o.a l
    let pos := o.b.toNat
    let len := o.c.toNat + 1
    let shows := fun (i : Instr) (good : Nat → Nat → Prop) => ∃ p : Nat → Nat, (∀ l, good l (p l)) ∧
      IntDone i s r o.d o.mask t p p false false
    shows (.clz o) (fun l n => n ≤ w ∧ a l < 2 ^ (w - n) ∧ (n < w → 2 ^ (w - n - 1) ≤ a l)) ∧
    shows (.ctz o) (fun l n => n ≤ w ∧ a l % 2 ^ n = 0 ∧ (n < w → (a l).testBit n = true)) ∧
    shows (.popc o) (fun l n => n = ((List.range w).filter fun i => (a l).testBit i).length) ∧
    shows (.brev o) (fun l n => n < 2 ^ w ∧ ∀ i, i < w → n.testBit (w - 1 - i) = (a l).testBit i) ∧
    (pos + len ≤ w → shows (.bfx o) (fun l n => n < 2 ^ w ∧ ∀ i, i < w →
      n.testBit i = if i < len then (a l).testBit (pos + i) else (t.isSigned && (a l).testBit (pos + len - 1)))) ∧
    (pos + len ≤ w → shows (.bfi o) (fun l n => n < 2 ^ w ∧ ∀ i, i < w →
      n.testBit i = if pos ≤ i ∧ i < pos + len then (a l).testBit (i - pos) else (el r t o.d l).testBit i))

/-- R286, R288, R291, R292: order, logic, shifts, rotates and the bit instructions. -/
def Obligations.IntegerOrderLogicAndShifts : Prop := Claim.OrderAndLogic ∧ Claim.ShiftsAndRotates ∧ Claim.BitInstructions

/-! ### Floating point, conversions and lanes (12, 13 R293-R309) -/

/-- The rational value of a finite float. -/
def Sys2Proof.Claim.ratOf (n : Bool) (m : Nat) (e : Int) : Rat := (if n then -1 else 1) * (m : Rat) * (2 : Rat) ^ e

/-- The magnitude of a rational. -/
def Sys2Proof.Claim.size (x : Rat) : Rat := if x < 0 then -x else x

/-- The rounding mode that an instruction runs with: RM, or FMT.RM where RM is 000 (R38, R212). -/
def Sys2Proof.Claim.modeOf (r : Role) (rm : BitVec 3) : RMode := RMode.ofCode (if rm = 0 then r.fmt.toNat % 8 else rm.toNat)

/-- R273, R275: RoundTo of an exact value. A finite result is a value of the format: under rne none is nearer, under rtz it is
the nearest of those no larger in magnitude, under rdn the greatest that is not above and under rup the least that is not below. -/
def Obligations.RoundingIsCorrect : Prop :=
  ∀ (f : Fmt) (mode : RMode) (neg : Bool) (m : Nat) (e : Int) (n : Bool) (k : Nat) (d : Int), m ≠ 0 →
    f.decode (roundTo f mode neg m e false).1 = .fin n k d →
    let x := ratOf neg m e
    let y := ratOf n k d
    (∀ b n' k' d', f.decode b = .fin n' k' d' →
      let z := ratOf n' k' d'
      (mode = .rne → size (y - x) ≤ size (z - x)) ∧
      (mode = .rtz → size y ≤ size x ∧ (size z ≤ size x → size z ≤ size y)) ∧
      (mode = .rdn → y ≤ x ∧ (z ≤ x → z ≤ y)) ∧
      (mode = .rup → x ≤ y ∧ (x ≤ z → y ≤ z))) ∧
    ((roundTo f mode neg m e false).2.getLsbD 0 = true ↔ y ≠ x)

/-- R268, R274, R275, R293: FADD, FSUB, FMUL, FMA, FMS, FNMA, FDIV and FSQRT write the once-rounded value in the instruction's mode;
FPSTAT gains the flags and nothing else changes. -/
def Sys2Proof.Claim.FloatArithmetic : Prop :=
  ∀ (s : State) (r : Role) (o : FmtA), Issuing s r → ∀ f, o.ty.fmt? = some f →
    let m := modeOf r o.rm
    let a := fun l => f.decode (el r o.ty o.a l)
    let b := fun l => f.decode (el r o.ty o.b l)
    let c := fun l => f.decode (el r o.ty o.c l)
    let done := fun (i : Instr) (g : Nat → Nat × Flags) => FloatDone i s r o.d o.mask g
    done (.fadd o) (fun l => fAdd f m (a l) (b l)) ∧ done (.fsub o) (fun l => fAdd f m (a l) (b l).neg) ∧
    done (.fmul o) (fun l => fMul f m (a l) (b l)) ∧ done (.fma o) (fun l => fMulAdd f m (a l) (b l) (c l)) ∧
    done (.fms o) (fun l => fMulAdd f m (a l) (b l) (c l).neg) ∧ done (.fnma o) (fun l => fMulAdd f m (a l).neg (b l) (c l)) ∧
    done (.fdiv o) (fun l => fDiv f m (a l) (b l)) ∧ done (.fsqrt o) (fun l => fSqrt f m (a l))

/-- R294, R295, R297: FMIN and FMAX return an operand, with −0 ordered below +0, the other operand where exactly one is a NaN and the
canonical NaN where both are; INV tells a signalling NaN. FABS, FNEG and FCPYS give a the sign 0, the sign inverted and the sign of b, and
the canonical NaN for a NaN. FCLASS sets the one bit of the class. None of them rounds or sets another flag. -/
def Sys2Proof.Claim.FloatOrderAndSigns : Prop :=
  ∀ (s : State) (r : Role) (o : FmtA), Issuing s r → ∀ f, o.ty.fmt? = some f →
    let w := o.ty.width
    let a := fun l => el r o.ty o.a l
    let b := fun l => el r o.ty o.b l
    let nan := fun p => (f.decode p).isNan
    let snan := fun p => (f.decode p).isSnan
    let mag := fun p => p % 2 ^ (w - 1)
    let neg := fun p => decide (2 ^ (w - 1) ≤ p)
    let less := fun p q => fCompare (f.decode p) (f.decode q) == .lt ||
      (fCompare (f.decode p) (f.decode q) == .eq && neg p && !(neg q))
    let pick := fun (big : Bool) (l : Nat) =>
      (if nan (a l) && nan (b l) then f.nanBits else if nan (a l) then b l else if nan (b l) then a l
        else if big then (if less (a l) (b l) then b l else a l) else if less (b l) (a l) then b l else a l,
        if snan (a l) || snan (b l) then flINV else (0 : Flags))
    let withSign := fun (g : Bool) (p : Nat) => ((if nan p then f.nanBits else mag p + if g then 2 ^ (w - 1) else 0), (0 : Flags))
    let cls := fun p => match f.decode p with
      | .inf n => if n then 0 else 7
      | .nan q => if q then 8 else 9
      | .fin n m e => if m = 0 then (if n then 3 else 4)
        else if size (ratOf n m e) < (2 : Rat) ^ f.emin then (if n then 2 else 5) else if n then 1 else 6
    FloatDone (.fmin o) s r o.d o.mask (pick false) ∧ FloatDone (.fmax o) s r o.d o.mask (pick true) ∧
    FloatDone (.fabs o) s r o.d o.mask (fun l => withSign false (a l)) ∧
    FloatDone (.fneg o) s r o.d o.mask (fun l => withSign (!(neg (a l))) (a l)) ∧
    FloatDone (.fcpys o) s r o.d o.mask (fun l => withSign (neg (b l)) (a l)) ∧
    FloatDone (.fclass o) s r o.d o.mask (fun l => (2 ^ cls (a l), 0))

/-- R278, R279, R298: FSCALE, FGETEXP and FRND, and the estimates FRCPE, FRSQE, FEXP2 and FLOG2, which round with rne whatever RM
holds: each writes its function of the element, with its flags, and nothing else changes. -/
def Sys2Proof.Claim.FloatFunctions : Prop :=
  ∀ (s : State) (r : Role) (o : FmtA), Issuing s r → ∀ f, o.ty.fmt? = some f →
    let m := modeOf r o.rm
    let a := fun l => el r o.ty o.a l
    let b := fun l => ((if o.b.isScalar then r.sreg o.b.num else r.vreg o.b.num l).toInt)
    let x := fun l => f.decode (a l)
    let done := fun (i : Instr) (g : Nat → Nat × Flags) => FloatDone i s r o.d o.mask g
    done (.fscale o) (fun l => fScale f m (a l) (b l)) ∧ done (.fgetexp o) (fun l => fGetExp f (a l)) ∧
    done (.frnd o) (fun l => fRnd f m (a l)) ∧ done (.frcpe o) (fun l => fRcpe f (x l)) ∧ done (.frsqe o) (fun l => fRsqe f (x l)) ∧
    done (.fexp2 o) (fun l => fExp2 f (x l)) ∧ done (.flog2 o) (fun l => fLog2 f (x l))

/-- R268, R274, R275, R278, R279, R293, R298: the rounding floating-point instructions, the estimates and the scaling functions. -/
def Obligations.FloatArithmeticAndFunctions : Prop := Claim.FloatArithmetic ∧ Claim.FloatFunctions

/-- R296: FCMP compares with −0 equal to +0; an order condition raises INV on any NaN, the others on a signalling one; the scalar form
writes the relation to CC; MD writes a mask. -/
def Sys2Proof.Claim.FloatComparison : Prop :=
  ∀ (s : State) (r : Role) (o : FmtA), Issuing s r → (Instr.fcmp o).wf = true → ∀ f, o.ty.fmt? = some f →
    let x := fun l => f.decode (el r o.ty o.a l)
    let y := fun l => f.decode (el r o.ty o.b l)
    let un := fun l => (x l).isNan || (y l).isNan
    let is := fun (c : Ordering) l => !(un l) && fCompare (x l) (y l) == c
    let code := o.mod.toNat % 8
    let holds := fun l => match code with
      | 0 => is .eq l
      | 1 => !(is .eq l)
      | 2 => is .lt l
      | 3 => is .lt l || is .eq l
      | 4 => is .gt l
      | 5 => is .gt l || is .eq l
      | 6 => un l
      | _ => !(un l)
    let inv := fun l => (x l).isSnan || (y l).isSnan || (decide (2 ≤ code ∧ code ≤ 5) && un l)
    let flags := fun (q : Role) => ∀ k, q.fpstat.getLsbD k = true ↔ r.fpstat.getLsbD k = true ∨
      (k = 4 ∧ ((o.d.isScalar = true ∧ o.mod.getLsbD 3 = false ∧ inv 0 = true) ∨
        (¬(o.d.isScalar = true ∧ o.mod.getLsbD 3 = false) ∧ ∃ l, Active r o.mask l ∧ inv l = true)))
    Completes (.fcmp o) s fun q =>
      flags q ∧ q.amax = r.amax ∧ Moved r q ∧
      (o.mod.getLsbD 3 = false → Wrote r q o.d o.mask (fun l => if holds l then 1 else 0) ∧ q.masks = r.masks ∧
        (o.d.isScalar = true → CCIs r q (is .eq 0) (is .lt 0 || un 0) (is .gt 0) (un 0)) ∧
        (o.d.isScalar = false → q.cc = r.cc)) ∧
      (o.mod.getLsbD 3 = true → MaskWrote r q o.d.toNat o.mask holds ∧ RegsKept r q ∧ q.cc = r.cc)

/-- R294-R297: floating-point order, signs, classes and comparison. -/
def Obligations.FloatOrderSignsAndComparison : Prop := Claim.FloatOrderAndSigns ∧ Claim.FloatComparison

/-- One step of the fold of R302: a NaN in AMAX stays, a NaN folded makes AMAX the canonical NaN, any other value makes it the larger of
AMAX and |x| rounded up to f64. The f64 patterns of numbers that are not negative order as integers. -/
def Sys2Proof.Claim.foldStep (a : Word) (x : NVal) : Word :=
  let larger := fun (p : Nat) => if a.toInt < p then BitVec.ofNat 64 p else a
  if (Fmt.decode .f64 a.toNat).isNan then a
  else match x with
    | .flt (.nan _) => BitVec.ofNat 64 (Fmt.nanBits .f64)
    | .flt (.inf _) => larger (Fmt.infinity .f64 false)
    | .flt (.fin _ m e) => larger (roundTo .f64 .rup false m e false).1
    | .int i => larger (roundTo .f64 .rup false i.natAbs 0 false).1

/-- The lanes that an instruction converts: the scalar unit's one element, or the active lanes in ascending order (R36, R205). -/
def Sys2Proof.Claim.convertedLanes (r : Role) (d : RegName) (m : BitVec 3) : List Nat :=
  if d.isScalar then [0]
  else (List.range 1024).filter fun l => decide (l < r.nlanes) && (r.mask 0).getLsbD l && (r.mask m.toNat).getLsbD l

/-- A conversion completes: D takes the pattern of each lane's result, FPSTAT gains the flags of every lane that ran, AMAX takes the
value given, and CC and the masks are unchanged. -/
def Sys2Proof.Claim.ConvertDone (i : Instr) (s : State) (r : Role) (d : RegName) (m : BitVec 3) (f : Nat → Nat × Flags) (amax : Word) : Prop :=
  Completes i s fun q =>
    Wrote r q d m (fun l => BitVec.ofNat 64 (f l).1) ∧
    (∀ k, q.fpstat.getLsbD k = true ↔ r.fpstat.getLsbD k = true ∨
      ∃ l, l ∈ convertedLanes r d m ∧ (f l).2.getLsbD k = true) ∧
    q.amax = amax ∧ q.cc = r.cc ∧ q.masks = r.masks ∧ Moved r q

/-- R299-R304: CVT converts one element, or with .pk every element of a packed word, and writes the bits above the last as zero; CVTS
converts the exact product a × b with one rounding, with INV for 0 × ∞ and for a signalling NaN. With .amax the source magnitudes, for
CVTS those of the unscaled a, are folded into AMAX, and without it AMAX is unchanged. PACK replaces one element and raises no flag; UNPACK
extracts one. AMAXRD reads AMAX and AMAXCLR sets it to +0.0. -/
def Obligations.Conversions : Prop :=
  ∀ (s : State) (r : Role) (o : FmtA), Issuing s r → r.nlanes ≤ 1024 →
    let word := fun (f : RegName) (l : Nat) => if f.isScalar then r.sreg f.num else r.vreg f.num l
    let m := modeOf r o.rm
    let sat := r.fmt.getLsbD 3
    let src := tyOfCode (o.mod.toNat % 16)
    let lanes := convertedLanes r o.d o.mask
    let n := if o.mod.getLsbD 5 then 64 / max src.width o.ty.width else 1
    let elem := fun (l i : Nat) => (word o.a l).toNat / 2 ^ (src.width * i) % 2 ^ src.width
    let conv := fun (l i : Nat) => cvtElem o.ty src m sat (elem l i)
    let all := fun (l : Nat) => (((List.range n).map fun i => 2 ^ (o.ty.width * i) * ((conv l i).1 % 2 ^ o.ty.width)).sum,
      (List.range n).foldl (fun a i => a ||| (conv l i).2) 0)
    let value := fun (l i : Nat) => (readElem src (elem l i)).1
    ConvertDone (.cvt o) s r o.d o.mask all
      (if o.mod.getLsbD 4 then (lanes.flatMap fun l => (List.range n).map (value l)).foldl foldStep r.amax else r.amax) ∧
    ((Instr.cvts o).wf = true → ∀ g, src.fmt? = some g →
      let x := fun l => g.decode (el r src o.a l)
      let y := fun l => g.decode (el r src o.b l)
      let prod := fun l => ((x l).mul (y l)).getD (.nan true)
      let inv := fun l => (x l).isSnan || (y l).isSnan || ((x l).mul (y l)).isNone
      ConvertDone (.cvts o) s r o.d o.mask
        (fun l => ((convert o.ty m sat (.flt (prod l))).1,
          (convert o.ty m sat (.flt (prod l))).2 ||| if inv l then flINV else 0))
        (if o.mod.getLsbD 4 then (lanes.map fun l => NVal.flt (x l)).foldl foldStep r.amax else r.amax)) ∧
    ((Instr.pack o).wf = true → ∃ f : Nat → Word, MoveDone (.pack o) s r o.d o.mask f ∧
      ∀ l i, i < 64 / o.ty.width → (f l).toNat / 2 ^ (o.ty.width * i) % 2 ^ o.ty.width =
        if i = o.mod.toNat then
          (if o.ty = .t2 then (if (word o.b l).toInt < 0 then 3 else if (word o.b l).toInt = 0 then 0 else 1)
           else if o.ty = .b1 then (if 0 < (word o.b l).toInt then 1 else 0)
           else (word o.b l).toNat % 2 ^ o.ty.width)
        else (word o.a l).toNat / 2 ^ (o.ty.width * i) % 2 ^ o.ty.width) ∧
    (o.ty ≠ .t2 → MoveDone (.unpack o) s r o.d o.mask fun l =>
      let p := (word o.a l).toNat / 2 ^ (o.ty.width * o.mod.toNat) % 2 ^ o.ty.width
      if o.ty.isSigned then BitVec.ofInt 64 (signedVal o.ty p) else BitVec.ofNat 64 p) ∧
    (o.ty = .t2 → FloatDone (.unpack o) s r o.d o.mask fun l =>
      let p := (word o.a l).toNat / 2 ^ (2 * o.mod.toNat) % 4
      (if p = 1 then 1 else if p = 3 then 2 ^ 64 - 1 else 0, if p = 2 then flINV else 0)) ∧
    MoveDone (.amaxrd o) s r o.d o.mask (fun _ => r.amax) ∧
    Completes (.amaxclr o) s fun q => q.amax = 0 ∧ RegsKept r q ∧ q.cc = r.cc ∧ q.masks = r.masks ∧ q.fpstat = r.fpstat ∧ Moved r q

/-- R306: the data movers read every source lane before any lane is written; an index at or above NLANES gives 0, VROT wraps; all 64 bits
move and only active lanes of D are written. -/
def Sys2Proof.Claim.LaneMovers : Prop :=
  ∀ (s : State) (r : Role) (o : FmtA), Issuing s r → o.d.isScalar = false → 0 < r.nlanes →
    let lane := fun (j : Int) => if 0 ≤ j ∧ j < r.nlanes then r.vreg o.a.num j.toNat else 0
    let k := (r.sreg o.b.num).toInt
    MoveDone (.vbcast o) s r o.d o.mask (fun _ => lane (r.sreg o.b.num).toNat) ∧
    MoveDone (.vshfl o) s r o.d o.mask (fun l => lane (r.vreg o.b.num l).toNat) ∧
    MoveDone (.vshift o) s r o.d o.mask (fun l => lane ((l : Int) + k)) ∧
    MoveDone (.vrot o) s r o.d o.mask (fun l => lane (((l : Int) + k) % (r.nlanes : Int)))

/-- R307, R308: VRED and VSCAN combine the active lanes in ascending order, one step at a time. With no active lane a scalar VRED writes
Identity(op), nothing else is written and CC.E is 1; otherwise E is 0 and the other bits of CC stay. FPSTAT gains the
flags of the steps. -/
def Sys2Proof.Claim.Reductions : Prop :=
  ∀ (s : State) (r : Role) (o : FmtA), Issuing s r →
    let op := o.mod.toNat % 16
    let step := combine o.ty op (modeOf r o.rm)
    let lanes := (List.range 1024).filter fun l => decide (l < r.nlanes) && (r.mask 0).getLsbD l && (r.mask o.mask.toNat).getLsbD l
    let sofar := fun (ls : List Nat) => match ls with
      | [] => 0
      | l :: rest => rest.foldl (fun a k => (step a (el r o.ty o.a k)).1) (el r o.ty o.a l)
    let flags := fun (q : Role) => ∀ k, q.fpstat.getLsbD k = true ↔ r.fpstat.getLsbD k = true ∨
      ∃ h l rest, lanes = h ++ l :: rest ∧ h ≠ [] ∧ (step (sofar h) (el r o.ty o.a l)).2.getLsbD k = true
    let e := fun (q : Role) (b : Bool) => q.cc.getLsbD 4 = b ∧ ∀ i, i < 4 → q.cc.getLsbD i = r.cc.getLsbD i
    r.nlanes ≤ 1024 →
    (o.mod.toNat < 16 → Completes (.vred o) s fun q =>
      e q lanes.isEmpty ∧ q.masks = r.masks ∧ q.amax = r.amax ∧ Moved r q ∧
      (lanes = [] → q.fpstat = r.fpstat ∧
        ((o.d.isScalar = true → Wrote r q o.d o.mask (fun _ => BitVec.ofNat 64 (redIdentity o.ty op))) ∧
         (o.d.isScalar = false → RegsKept r q))) ∧
      (lanes ≠ [] → flags q ∧ Wrote r q o.d o.mask (fun _ => BitVec.ofNat 64 (sofar lanes)))) ∧
    (o.d.isScalar = false → Completes (.vscan o) s fun q =>
      e q lanes.isEmpty ∧ q.masks = r.masks ∧ q.amax = r.amax ∧ Moved r q ∧ flags q ∧
      Wrote r q o.d o.mask fun l =>
        let before := lanes.filter fun k => decide (k < l)
        if o.mod.getLsbD 4 then BitVec.ofNat 64 (if before = [] then redIdentity o.ty op else sofar before)
        else BitVec.ofNat 64 (sofar (before ++ [l])))

/-- R309: VBALLOT, VCOUNT and VFIRST look at the active lanes whose element is not 0, or with .all at every active lane: the bits of a window
of 64 lanes, their number, and the lowest of them or −1. -/
def Sys2Proof.Claim.LaneVotes : Prop :=
  ∀ (s : State) (r : Role) (o : FmtA), Issuing s r → o.d.isScalar = true → r.nlanes ≤ 1024 →
    let votes := fun (all : Bool) (l : Nat) => decide (l < r.nlanes) && (r.mask 0).getLsbD l && (r.mask o.mask.toNat).getLsbD l &&
      (all || decide (el r o.ty o.a l ≠ 0))
    let all := o.mod.getLsbD 0
    (∃ f : Word, MoveDone (.vballot o) s r o.d o.mask (fun _ => f) ∧
      ∀ i, i < 64 → f.getLsbD i = (decide ((r.sreg o.b.num).toNat < 16) && votes false (64 * (r.sreg o.b.num).toNat + i))) ∧
    MoveDone (.vcount o) s r o.d o.mask (fun _ => BitVec.ofNat 64 ((List.range 1024).filter (votes all)).length) ∧
    MoveDone (.vfirst o) s r o.d o.mask fun _ => match (List.range 1024).filter (votes all) with
      | [] => BitVec.allOnes 64
      | l :: _ => BitVec.ofNat 64 l

/-- R306-R309: the cross-lane instructions. The model's own choices in it: assumption log 179. -/
def Obligations.LanesMoveReduceAndVote : Prop := Claim.LaneMovers ∧ Claim.Reductions ∧ Claim.LaneVotes

/-- R372, R204: the mask instructions write every lane below NLANES whatever m0 holds, lanes above read 0; MFROMS and MTOS move 64 lanes
between a mask and a scalar register, and a window at or above 16 writes nothing and reads 0. -/
def Obligations.MaskInstructions : Prop :=
  ∀ (s : State) (r : Role) (o : FmtA), Issuing s r →
    let d := o.d.num % 8
    let a := r.mask (o.a.num % 8)
    let b := r.mask (o.b.num % 8)
    let k := (r.sreg o.b.num).toNat
    let done := fun (i : Instr) (f : Nat → Bool) => Completes i s fun q =>
      (∀ l, l < 1024 → (q.mask d).getLsbD l = (decide (l < r.nlanes) && f l)) ∧ (∀ n, n ≠ d → q.mask n = r.mask n) ∧
      RegsKept r q ∧ q.cc = r.cc ∧ q.fpstat = r.fpstat ∧ q.amax = r.amax ∧ Moved r q
    done (.mand o) (fun l => a.getLsbD l && b.getLsbD l) ∧ done (.mor o) (fun l => a.getLsbD l || b.getLsbD l) ∧
    done (.mxor o) (fun l => a.getLsbD l != b.getLsbD l) ∧ done (.mnot o) (fun l => !(a.getLsbD l)) ∧
    done (.mmove o) (fun l => a.getLsbD l) ∧
    done (.mfroms o) (fun l => if 64 * k ≤ l ∧ l < 64 * k + 64 then (r.sreg o.a.num).getLsbD (l - 64 * k) else (r.mask d).getLsbD l) ∧
    (o.d.isScalar = true → ∃ f : Word, MoveDone (.mtos o) s r o.d o.mask (fun _ => f) ∧
      ∀ i, i < 64 → f.getLsbD i = a.getLsbD (64 * k + i))

/-! ### Control (09 R207-R209, 18 R371-R384) -/

/-- An exact address lies in one of the canonical halves (R77). -/
def Sys2Proof.Claim.Canonical (t : Int) : Prop := (0 ≤ t ∧ t < 2 ^ 56) ∨ (2 ^ 64 - 2 ^ 56 ≤ t ∧ t < 2 ^ 64)

/-- `t` is a target that a transfer may take: canonical, aligned, and the word there is a valid header, or its fetch will say why it
cannot be read; `s1` is the state after that look (R26, R373). -/
def Sys2Proof.Claim.Arrives (s : State) (r : Role) (t : Int) (s1 : State) : Prop :=
  Canonical t ∧ t % 8 = 0 ∧ s.targetHeader s.cur r (addr64 t) = (true, s1)

/-- The three traps of a transfer to `t` that is looked at in the state `s0`, with TADDR the target and nothing else changed (R373). -/
def Sys2Proof.Claim.BadTargets (i : Instr) (s s0 : State) (r : Role) (t : Int) : Prop :=
  (¬Canonical t → exec i s = .next (s0.trap s.cur cNONCANON (addr64 t))) ∧
  (Canonical t → t % 8 ≠ 0 → exec i s = .next (s0.trap s.cur cALIGN (addr64 t))) ∧
  ∀ s1, Canonical t → t % 8 = 0 → s0.targetHeader s.cur r (addr64 t) = (false, s1) →
    exec i s = .next (s1.trap s.cur cILLEGAL (addr64 t))

/-- H + 8 × OFF32, with no wrap (R43, R77). -/
def Sys2Proof.Claim.labelOf (r : Role) (off : BitVec 32) : Int := r.header.toNat + 8 * off.toInt

/-- The role stands at the clause whose header is at `t`: the clause has ended and an open tack region that this word ends is closed;
nothing else of the role differs but its masks, FMT and its stack. -/
def Sys2Proof.Claim.Landed (r q : Role) (t : Word) : Prop :=
  q.pc = t ∧ q.clause = none ∧ q.hold = .ready ∧
  { q with masks := r.masks, fmt := r.fmt, stack := r.stack, depth := r.depth, spilled := r.spilled } =
    { r.settle with pc := t, topped := false, clause := none }

/-- As `Moved`, with m0, FMT and the stack told apart. -/
def Sys2Proof.Claim.FellThrough (r q : Role) : Prop :=
  { q with masks := r.masks, fmt := r.fmt, stack := r.stack, depth := r.depth, spilled := r.spilled } = r.advance

/-- m0 is `m` and every other mask is unchanged. -/
def Sys2Proof.Claim.M0Is (r q : Role) (m : LaneMask) : Prop := q.mask 0 = m ∧ ∀ n, n ≠ 0 → q.mask n = r.mask n

/-- The stack of `q`: these entries held, DEPTH, and the words that the role has spilled unchanged. -/
def Sys2Proof.Claim.Holds (r q : Role) (stack : List StackEntry) (depth : Nat) : Prop :=
  q.stack = stack ∧ q.depth = depth ∧ q.spilled = r.spilled

/-- The entry that a push holds: its PC is VA[56:0] (R208). -/
def Sys2Proof.Claim.held (e : StackEntry) : StackEntry := { e with pc := (e.pc.extractLsb' 0 57).signExtend 64 }

/-- The role's top entry is `x` over `rest`: held, or read from the stack area, which leaves the state `s1` (R208). -/
def Sys2Proof.Claim.Top (s : State) (r : Role) (x : StackEntry) (rest : List StackEntry) (s1 : State) : Prop :=
  (r.stack = x :: rest ∧ s1 = s) ∨ (r.stack = [] ∧ s.fillTop s.cur r 1 = .ok ({ r with stack := x :: rest }, s1))

/-- A word of the role goes to `t`, pushing `es`; `post` says what the role's m0 and FMT then are. Where the entries fit, they are held;
else the push writes the lowest of the held ones to memory first, and a push that fails leaves what it leaves (R208, R209). -/
def Sys2Proof.Claim.Pushes (i : Instr) (s s1 : State) (r : Role) (es : List StackEntry) (post : Role → Prop) : Prop :=
  (r.depth + es.length ≤ r.limit → r.stack.length + es.length ≤ 32 → ∃ q, exec i s = .next (s1.setRole s.cur q) ∧ post q ∧
    Holds r q (es.reverse.map held ++ r.stack) (r.depth + es.length)) ∧
  (∀ q1 s2, s1.pushEntries s.cur r es = .ok (q1, s2) → q1 = { r with stack := q1.stack, depth := q1.depth, spilled := q1.spilled } →
    ∃ q, exec i s = .next (s2.setRole s.cur q) ∧ post q ∧ q.stack = q1.stack ∧ q.depth = q1.depth ∧ q.spilled = q1.spilled) ∧
  ∀ s2, s1.pushEntries s.cur r es = .error s2 → exec i s = .next s2

/-- R26: past a word that is not the last of its clause the role stands at the next word; past the last, at the header at
H + 8 × (COUNT + 2), and where that would be 2^64 it is noted, for no address wraps (R77). The hold ends, and no register, mask, stack
entry or slot changes. -/
def Obligations.WordsFollowOneAnother : Prop :=
  ∀ (r : Role) (c : Clause), r.clause = some c → c.words.length = c.header.count.toNat + 1 →
    (c.idx < c.header.count.toNat → r.advance.pc = r.pc ∧ r.advance.topped = r.topped ∧
      r.advance.clause = some { c with idx := c.idx + 1 }) ∧
    (c.idx = c.header.count.toNat → r.advance.clause = none ∧
      r.advance.pc = c.addr + BitVec.ofNat 64 (8 * (c.header.count.toNat + 2)) ∧
      r.advance.topped = decide (2 ^ 64 ≤ c.addr.toNat + 8 * (c.header.count.toNat + 2))) ∧
    r.advance.hold = .ready ∧
    { r.advance with pc := r.pc, topped := r.topped, clause := r.clause, hold := r.hold, tack := r.tack, tackLast := r.tackLast } = r

/-- R43, R373, R374: BRA is always taken, BC when its condition holds on CC or on MC over the active lanes, JMPI goes to s[S]; a branch
that is not taken falls through; a bad target traps with nothing changed. -/
def Sys2Proof.Claim.BranchesOfTheWholeRole : Prop :=
  ∀ (s : State) (r : Role) (o : FmtB), Issuing s r →
    let goes := fun (i : Instr) (t : Int) => (∀ s1, Arrives s r t s1 → ∃ q, exec i s = .next (s1.setRole s.cur q) ∧
      Landed r q (addr64 t) ∧ q.masks = r.masks ∧ q.fmt = r.fmt ∧ Holds r q r.stack r.depth) ∧ BadTargets i s s r t
    let z := r.cc.getLsbD 0
    let lt := r.cc.getLsbD 1 != r.cc.getLsbD 3
    let some1 := ∃ l, Active r 0 l ∧ (r.mask o.mc.toNat).getLsbD l = true
    let taken := (o.cond = 1 ∧ z = true) ∨ (o.cond = 2 ∧ z = false) ∨ (o.cond = 3 ∧ lt = true) ∨ (o.cond = 4 ∧ lt = false) ∨
      (o.cond = 5 ∧ some1) ∨ (o.cond = 6 ∧ ¬some1) ∨
      (o.cond = 7 ∧ ∀ l, Active r 0 l → (r.mask o.mc.toNat).getLsbD l = true)
    goes (.bra o) (labelOf r o.off) ∧ goes (.jmpi o) (r.sreg o.s.num).toNat ∧
    (o.cond ≠ 0 → taken → goes (.bc o) (labelOf r o.off)) ∧
    (o.cond ≠ 0 → ¬taken → Completes (.bc o) s fun q => RegsKept r q ∧ q = r.advance)

/-- R375, R373, R381: CALL pushes a CALL entry with the next header, m0 and FMT and goes to its target; RET restores m0 and FMT from
the CALL entry on top, pops it and goes to its PC; with another kind on top, or none, RET raises ILLEGAL with TADDR 0. A bad target traps,
and no register, mask or entry has changed. -/
def Sys2Proof.Claim.CallsAndReturns : Prop :=
  ∀ (s : State) (r : Role) (o : FmtB), Issuing s r →
    let t := if o.s = 0 then labelOf r o.off else (r.sreg o.s.num).toNat
    let e : StackEntry := { kind := .call, pc := r.next, mask := r.mask 0, fmt := r.fmt }
    (∀ s1, Arrives s r t s1 → Pushes (.call o) s s1 r [e] fun q => Landed r q (addr64 t) ∧ q.masks = r.masks ∧ q.fmt = r.fmt) ∧
    BadTargets (.call o) s s r t ∧
    (∀ x rest s1, Top s r x rest s1 →
      (x.kind ≠ .call → exec (.ret o) s = .next (s1.trap s.cur cILLEGAL 0)) ∧
      (x.kind = .call → BadTargets (.ret o) s s1 r x.pc.toNat ∧
        ∀ s2, Canonical x.pc.toNat → x.pc.toNat % 8 = 0 → s1.targetHeader s.cur r x.pc = (true, s2) → ∃ q,
          exec (.ret o) s = .next (s2.setRole s.cur q) ∧ Landed r q x.pc ∧ M0Is r q (x.mask &&& lowLanes r.nlanes) ∧ q.fmt = x.fmt ∧
          Holds r q rest (r.depth - 1))) ∧
    (r.depth = 0 → r.stack = [] → exec (.ret o) s = .next (s.trap s.cur cILLEGAL 0))

/-- The control transfers of the whole role: branches, calls, returns and indirect jumps. The model's own choices in it: assumption log 45,
46, 163. -/
def Obligations.BranchesCallsAndReturns : Prop := Claim.BranchesOfTheWholeRole ∧ Claim.CallsAndReturns

/-- R376, R378, R381: SPLIT runs the lanes of MC first and keeps the others, and skips a first path without lanes; ELSE turns to the second
path with the FMT of the SPLIT, or skips it; JOIN brings both paths together, or closes an iteration of a loop or the loop; ELSE and JOIN
raise ILLEGAL with TADDR 0 on another kind or an empty stack. -/
def Sys2Proof.Claim.PathsDivergeAndJoin : Prop :=
  ∀ (s : State) (r : Role) (o : FmtB), Issuing s r →
    let t := labelOf r o.off
    let a := r.mask 0 &&& lowLanes r.nlanes
    let yes := a &&& r.mask o.mc.toNat
    let no := a &&& ~~~(r.mask o.mc.toNat)
    (yes = 0 → (∀ s1, Arrives s r t s1 → Pushes (.split o) s s1 r [{ kind := .els, pc := 0, mask := 0, fmt := r.fmt }] fun q =>
      Landed r q (addr64 t) ∧ M0Is r q no ∧ q.fmt = r.fmt) ∧ BadTargets (.split o) s s r t) ∧
    (yes ≠ 0 → Canonical t → Pushes (.split o) s s r [{ kind := .split, pc := addr64 t, mask := no, fmt := r.fmt }] fun q =>
      FellThrough r q ∧ M0Is r q yes ∧ q.fmt = r.fmt) ∧
    (∀ x rest s1, Top s r x rest s1 →
      (x.kind = .split → x.mask = 0 → BadTargets (.els o) s s1 r t ∧
        ∀ s2, Canonical t → t % 8 = 0 → s1.targetHeader s.cur r (addr64 t) = (true, s2) → ∃ q,
        exec (.els o) s = .next (s2.setRole s.cur q) ∧ Landed r q (addr64 t) ∧ q.masks = r.masks ∧ q.fmt = r.fmt ∧
        Holds r q ({ kind := .els, pc := addr64 t, mask := 0, fmt := x.fmt } :: rest) r.depth) ∧
      (x.kind = .split → x.mask ≠ 0 → Canonical t → BadTargets (.els o) s s1 r x.pc.toNat ∧
        ∀ s2, Canonical x.pc.toNat → x.pc.toNat % 8 = 0 → s1.targetHeader s.cur r x.pc = (true, s2) → ∃ q,
        exec (.els o) s = .next (s2.setRole s.cur q) ∧ Landed r q x.pc ∧ M0Is r q (x.mask &&& lowLanes r.nlanes) ∧ q.fmt = x.fmt ∧
        Holds r q ({ kind := .els, pc := addr64 t, mask := r.mask 0, fmt := x.fmt } :: rest) r.depth) ∧
      (x.kind ≠ .split → exec (.els o) s = .next (s1.trap s.cur cILLEGAL 0)) ∧
      (x.kind = .els → ∃ q, exec (.join o) s = .next (s1.setRole s.cur q) ∧ FellThrough r q ∧
        M0Is r q ((r.mask 0 ||| x.mask) &&& lowLanes r.nlanes) ∧ q.fmt = x.fmt ∧ Holds r q rest (r.depth - 1)) ∧
      (x.kind = .loop → x.mask ≠ 0 → BadTargets (.join o) s s1 r x.pc.toNat ∧
        ∀ s2, Canonical x.pc.toNat → x.pc.toNat % 8 = 0 → s1.targetHeader s.cur r x.pc = (true, s2) → ∃ q,
        exec (.join o) s = .next (s2.setRole s.cur q) ∧ Landed r q x.pc ∧ M0Is r q (x.mask &&& lowLanes r.nlanes) ∧ q.fmt = x.fmt ∧
        Holds r q (x :: rest) r.depth) ∧
      (∀ y below s2, x.kind = .loop → x.mask = 0 →
        ((rest = y :: below ∧ s2 = s1) ∨
          (rest = [] ∧ s1.fillTop s.cur { r with stack := [x] } 2 = .ok ({ r with stack := x :: y :: below }, s2))) →
        (y.kind ≠ .loop → exec (.join o) s = .next (s2.trap s.cur cILLEGAL 0)) ∧
        (y.kind = .loop → ∃ q, exec (.join o) s = .next (s2.setRole s.cur q) ∧ FellThrough r q ∧
          M0Is r q (y.mask &&& lowLanes r.nlanes) ∧ q.fmt = y.fmt ∧ Holds r q below (r.depth - 2))) ∧
      (x.kind = .split ∨ x.kind = .call → exec (.join o) s = .next (s1.trap s.cur cILLEGAL 0))) ∧
    (r.depth = 0 → r.stack = [] → exec (.els o) s = .next (s.trap s.cur cILLEGAL 0) ∧
      exec (.join o) s = .next (s.trap s.cur cILLEGAL 0))

/-- R377, R379, R380: LOOP pushes the exit entry and the iteration entry; BRK takes the lanes of MC out of the topmost LOOP entry, where it
stands, held or in memory, and out of m0, CONT out of m0 alone; a path left empty goes to the target where there is one; a BRK that meets
a CALL entry first, or the bottom, raises ILLEGAL. -/
def Sys2Proof.Claim.LoopsAndTheirLanes : Prop :=
  ∀ (s : State) (r : Role) (o : FmtB), Issuing s r →
    let e : StackEntry := { kind := .loop, pc := r.next, mask := r.mask 0, fmt := r.fmt }
    let t := labelOf r o.off
    let b := r.mask 0 &&& lowLanes r.nlanes &&& r.mask o.mc.toNat
    let m := r.mask 0 &&& ~~~b
    let lost := fun (x : StackEntry) => { x with mask := x.mask &&& ~~~b }
    let stays := m ≠ 0 ∨ o.off = 0
    let after := fun (q : Role) => q.fmt = r.fmt ∧ ((stays ∧ FellThrough r q ∧ M0Is r q (m &&& lowLanes r.nlanes)) ∨
      (¬stays ∧ Landed r q (addr64 t) ∧ M0Is r q 0))
    let looked := fun (s1 : State) => (stays ∧ s1 = s) ∨ (¬stays ∧ Arrives s r t s1)
    Pushes (.loop o) s s r [e, e] (fun q => FellThrough r q ∧ q.masks = r.masks ∧ q.fmt = r.fmt) ∧
    (¬stays → BadTargets (.cont o) s s r t ∧ BadTargets (.brk o) s s r t) ∧
    ∀ s1, looked s1 →
      (∃ q, exec (.cont o) s = .next (s1.setRole s.cur q) ∧ after q ∧ Holds r q r.stack r.depth) ∧
      (∀ above x rest, r.stack = above ++ x :: rest → (∀ y ∈ above, y.kind = .split ∨ y.kind = .els) →
        (x.kind = .loop → ∃ q, exec (.brk o) s = .next (s1.setRole s.cur q) ∧ after q ∧ Holds r q (above ++ lost x :: rest) r.depth) ∧
        (x.kind = .call → exec (.brk o) s = .next (s1.trap s.cur cILLEGAL 0))) ∧
      ((∀ y ∈ r.stack, y.kind = .split ∨ y.kind = .els) →
        (r.depth = r.stack.length → exec (.brk o) s = .next (s1.trap s.cur cILLEGAL 0)) ∧
        (∀ s2, s1.findSpilled s.cur r (r.depth - r.stack.length) = .error s2 → exec (.brk o) s = .next s2) ∧
        ∀ i s2 ws s3 x q1 s4, s1.findSpilled s.cur r (r.depth - r.stack.length) = .ok (i, s2) →
          s2.stackWords s.cur r i 20 = .ok (ws, s3) → entryOfWords r.nlanes ws = some x →
          s3.stackWrite s.cur r ((2 :: (List.range 16).map (· + 4)).map fun (k : Nat) =>
            ((r.rsbase.toNat : Int) + 160 * (i : Int) + 8 * (k : Int), (lost x).words.getD k 0)) = .ok (q1, s4) →
          q1 = { r with spilled := q1.spilled } →
          ∃ q, exec (.brk o) s = .next (s4.setRole s.cur q) ∧ after q ∧ q.stack = r.stack ∧ q.depth = r.depth ∧ q.spilled = q1.spilled)

/-- The transfers that divide a role by its lanes. The model's own choices in it: assumption log 164. -/
def Obligations.PathsAndLoops : Prop := Claim.PathsDivergeAndJoin ∧ Claim.LoopsAndTheirLanes

/-- R208, R209, R380: a push above LIMIT raises PERM with TADDR RSBASE + 160 × DEPTH and pushes nothing; with at most 32 entries held after
it nothing else moves; a push that finds 32 held writes the lowest to its place in the stack area first; a pop that finds none held
reads the top one, in which a word that another agent has changed is the old or the new one. The search of BRK goes down the entries in
memory to the first LOOP entry, and raises ILLEGAL at a CALL entry or at the bottom. -/
def Sys2Proof.Claim.StackHoldsTheTop : Prop :=
  ∀ (s : State) (rid : Nat) (r : Role),
    (∀ es : List StackEntry, r.limit < r.depth + es.length →
      s.pushEntries rid r es = .error (s.trap rid cPERM (r.rsbase + BitVec.ofNat 64 (160 * r.depth)))) ∧
    (∀ es : List StackEntry, r.depth + es.length ≤ r.limit → r.stack.length + es.length ≤ 32 →
      s.pushEntries rid r es = .ok ({ r with stack := es.reverse.map held ++ r.stack, depth := r.depth + es.length }, s)) ∧
    (∀ (e low : StackEntry) (xs : List Spot) (s1 s2 : State), r.depth + 1 ≤ r.limit → r.stack.length = 32 → 32 ≤ r.depth →
      r.stack.getLast? = some low → s.windowOpen rid r = false → s.busyOps rid r = false →
      s.spots r (.stack true) 8 8 ((List.range 20).map fun k => ((r.rsbase.toNat + 160 * (r.depth - 32) + 8 * k : Nat) : Int)) = (.ok xs, s1) →
      s1.writeSpots r 8 (xs.zip (low.words.map BitVec.toNat)) = (.ok (), s2) →
      s.pushEntries rid r [e] = .ok ({ r.spilling (xs.zip low.words) with stack := held e :: r.stack.take 31, depth := r.depth + 1 }, s2)) ∧
    (r.stack ≠ [] → s.fillTop rid r 1 = .ok (r, s)) ∧
    (∀ (n : Nat) (e : StackEntry) (xs : List Spot) (vs : List Nat) (s1 s2 : State), r.stack = [] → r.depth = n + 1 →
      s.windowOpen rid r = false → s.busyOps rid r = false →
      s.spots r (.stack false) 8 8 ((List.range 20).map fun k => ((r.rsbase.toNat + 160 * n + 8 * k : Nat) : Int)) = (.ok xs, s1) →
      s1.readSpots r 8 xs = (.ok vs, s2) →
      let ws := xs.zip (vs.map fun v => BitVec.ofNat 64 v)
      (r.areaChanged ws = false → entryOfWords r.nlanes (ws.map (·.2)) = some e →
        s.fillTop rid r 1 = .ok ({ r with stack := [e] }, s2)) ∧
      (r.areaChanged ws = true → entryOfWords r.nlanes (r.readBack ws s2.fresh.1) = some e →
        s.fillTop rid r 1 = .ok ({ r with stack := [e] }, s2.fresh.2)) ∧
      (r.areaChanged ws = false → entryOfWords r.nlanes (ws.map (·.2)) = none →
        s.fillTop rid r 1 = .error (s2.trap rid cILLEGAL 0))) ∧
    (∀ (ws : List (Spot × Word)) (pick : Word) (k : Nat),
      (r.readBack ws pick)[k]? = (ws.map (·.2))[k]? ∨
        ∃ p, ws[k]? = some p ∧ (r.readBack ws pick)[k]? = r.spilled.find p.1.place) ∧
    s.findSpilled rid r 0 = .error (s.trap rid cILLEGAL 0) ∧
    ∀ (n : Nat) (w : Word) (s1 : State), s.stackWords rid r n 1 = .ok ([w], s1) →
      let kind := w.toNat / 2 ^ 60
      let clean := w.toNat / 2 ^ 57 % 8 = 0
      (kind = 3 → clean → s.findSpilled rid r (n + 1) = .ok (n, s1)) ∧
      (kind = 1 ∨ kind = 2 → clean → s.findSpilled rid r (n + 1) = s1.findSpilled rid r n) ∧
      ((kind = 0 ∨ 4 ≤ kind ∨ ¬clean) → s.findSpilled rid r (n + 1) = .error (s1.trap rid cILLEGAL 0))

/-- R208: an entry written to the stack area and read back is the entry, when it is one that a push can make. -/
def Sys2Proof.Claim.SpilledEntryReadsBack : Prop :=
  ∀ (n : Nat) (e : StackEntry), n ≤ 1024 → canonical e.pc = true → e.fmt.toNat < 1024 → 1 ≤ e.fmt.toNat % 8 → e.fmt.toNat % 8 ≤ 4 →
    e.mask.toNat < 2 ^ n → e.words.length = 20 ∧ entryOfWords n e.words = some e

/-- The stack and its entries in memory. The model's own choices in it: assumption log 46, 47, 48, 163. -/
def Obligations.TheStack : Prop := Claim.StackHoldsTheTop ∧ Claim.SpilledEntryReadsBack

/-- R383, R212, R382: SETFMT takes bits [9:0] of s[A] when RM is 001 to 100 and raises ILLEGAL otherwise; GETFMT writes FMT; NOP changes
nothing; EXIT ends the role once its window has closed, discarding its stack, its bindings and its slots. The model's own choices in it:
assumption log 30. -/
def Obligations.ModesNopAndExit : Prop :=
  ∀ (s : State) (r : Role), Issuing s r →
    (∀ o : FmtA, let x := r.sreg o.a.num
      ((1 ≤ x.toNat % 8 ∧ x.toNat % 8 ≤ 4) → Completes (.setfmt o) s fun q => q.fmt.toNat = x.toNat % 1024 ∧
        { q with fmt := r.fmt } = r.advance) ∧
      (¬(1 ≤ x.toNat % 8 ∧ x.toNat % 8 ≤ 4) → exec (.setfmt o) s = .next (s.trap s.cur cILLEGAL 0)) ∧
      (o.d.isScalar = true → MoveDone (.getfmt o) s r o.d o.mask fun _ => r.fmt) ∧
      Completes (.nop o) s fun q => q = r.advance) ∧
    ∀ o : FmtB, (s.windowOpen s.cur r = true → exec (.exit o) s = .next (s.setRole s.cur { r with hold := .window })) ∧
      (s.windowOpen s.cur r = false → r.ended = false → r.pend = [] → ∃ t q, exec (.exit o) s = .next t ∧ t.role? s.cur = some q ∧
        q.ended = true ∧ q.stack = [] ∧ q.depth = 0 ∧ q.bound = [] ∧ q.waits = [] ∧ q.clause = none ∧
        q.sregs = r.sregs ∧ q.vregs = r.vregs ∧ q.masks = r.masks ∧ (∀ k, k ≠ s.cur → t.role? k = s.role? k) ∧
        ∀ a, t.byte a = s.byte a)

/-! ### Loads and stores (10 R217-R232) -/

/-- A load issues (R219, R220): the first element that fails a check of issue traps with TADDR its address; an overlap with a logged
store holds the role, and a load under a view waits for the role's earlier accesses; a failure at the walk is handled with the lowest
failing lane's address; else the operation starts. With no lane that takes a value nothing changes (R206). `out` is what the instruction does
after that, and `undo` the slot and position to which a failed LDSP returns. -/
def Sys2Proof.Claim.LoadIssues (i : Instr) (s : State) (r : Role) (ty : Ty) (cls : AccClass) (view : Option Nat) (d : RegName) (ws : Nat)
    (es : List ElemReq) (got : List (Nat × Word)) (undo : Option (Nat × Nat)) (fix : Role → Role) (out : State → State) : Prop :=
  let z := ty.bytes
  let ok := fun (e : ElemReq) => s.issueCause r .load e.ea z z = none
  let clear := fun (e : ElemReq) => s.overlapsLog s.cur r e.ea.toNat z = false
  let waits := view ≠ none ∧ s.opsDue s.cur r (fun o _ => o.inOrder) = true
  let targets := s.targetsOf r .load view (decide (z = 8) && cls == .ordinary) true z es
  (∀ pre e post c, es = pre ++ e :: post → (∀ x ∈ pre, ok x) → s.issueCause r .load e.ea z z = some c →
    exec i s = .next (s.trap s.cur c (BitVec.ofInt 64 e.ea))) ∧
  (es = [] → got = [] → exec i s = .next (out (s.setRole s.cur r.advance))) ∧
  ((∀ e ∈ es, ok e) → (∃ e ∈ es, ¬clear e) → exec i s = .next (out (s.setRole s.cur { r with hold := .overlap }))) ∧
  (¬(es = [] ∧ got = []) → (∀ e ∈ es, ok e) → (∀ e ∈ es, clear e) → waits →
    exec i s = .next (out (s.setRole s.cur { r with hold := .drain }))) ∧
  (¬(es = [] ∧ got = []) → (∀ e ∈ es, ok e) → (∀ e ∈ es, clear e) → ¬waits →
    (∀ xs s1, targets = (xs, none, s1) → exec i s = .next (out (s1.startOp s.cur (fix r)
      { rid := s.cur, pc := 0, kind := .load, ty := ty, dst := some d, ws := ws, cls := cls, waiting := xs, got := got, undo := undo,
        view := view }))) ∧
    ∀ xs w e rest s1, targets = (xs, some (w, e :: rest), s1) →
      exec i s = .next (out (s1.loadStop s.cur w (BitVec.ofInt 64 e.ea) r.ipc false)))

/-- A store issues (R157, R219, R221): the first element that fails a check of issue traps; inside the role's open window the elements
form a queued entry of the side log, or LOGFULL at 16 entries; else the elements before the first that fails at its walk are
performed, and that one and the later ones form one entry; a page whose copy is to be made is asked for first. -/
def Sys2Proof.Claim.StoreIssues (i : Instr) (s : State) (r : Role) (ty : Ty) (cls : AccClass) (es : List ElemReq) (fix : Role → Role) :
    Prop :=
  let z := ty.bytes
  let ok := fun (e : ElemReq) => s.issueCause r .store e.ea z z = none
  let body := fun (l : List ElemReq) => LogBody.elems ty cls (l.map fun e => (e.lane, e.ea.toNat, e.data))
  let entry := fun (t : State) (a : Nat) (l : List ElemReq) => t.entryNow s.cur r r.ipc a (body l)
  let targets := s.targetsOf r .store none (decide (z = 8) && cls == .ordinary) true z es
  let op := fun (xs : List OpElem) => ({ rid := s.cur, pc := 0, kind := .store, ty := ty, cls := cls, waiting := xs } : Op)
  (∀ pre e post c, es = pre ++ e :: post → (∀ x ∈ pre, ok x) → s.issueCause r .store e.ea z z = some c →
    exec i s = .next (s.trap s.cur c (BitVec.ofInt 64 e.ea))) ∧
  (es = [] → exec i s = .next (s.setRole s.cur (fix r).advance)) ∧
  ∀ e0 rest, es = e0 :: rest → (∀ e ∈ es, ok e) →
    (s.windowOpen s.cur r = true → 16 ≤ ((s.core r.core).entriesOf s.cur).length →
      exec i s = .next (s.trap s.cur cLOGFULL (BitVec.ofInt 64 e0.ea))) ∧
    (s.windowOpen s.cur r = true → ((s.core r.core).entriesOf s.cur).length < 16 → (s.core r.core).logRoom (body es) = true →
      exec i s = .next ((s.logQueued r (entry s e0.ea.toNat es)).updRole s.cur fun q => (fix q).advance)) ∧
    (s.windowOpen s.cur r = true → ((s.core r.core).entriesOf s.cur).length < 16 → (s.core r.core).logRoom (body es) = false →
      exec i s = .next (s.setRole s.cur { r with hold := .logSpace })) ∧
    (s.windowOpen s.cur r = false → ∀ xs s1, targets = (xs, none, s1) → exec i s = .next (s1.startOp s.cur (fix r) (op xs))) ∧
    (s.windowOpen s.cur r = false → ∀ xs w e left s1, targets = (xs, some (w, e :: left), s1) →
      let s2 := match w with
        | .cow l _ => s1.requestCopy r.vmid e.ea.toNat r.wver l (dieOf r.core)
        | _ => s1
      let after := (s2.core r.core).nextOp + if xs = [] then 0 else 1
      let s3 := s2.logFault r (walkCause w) { entry s2 e.ea.toNat (e :: left) with after := after }
      (s3.stopped? s.cur = true → exec i s = .next s3) ∧
      (s3.stopped? s.cur = false → ∀ q, s3.role? s.cur = some q →
        exec i s = .next (if xs = [] then s3.setRole s.cur (fix q).advance else s3.startOp s.cur (fix q) (op xs))))

/-- The elements of the lanes of a form at E + z × lane (R218). -/
def Sys2Proof.Claim.inARow (r : Role) (d : RegName) (m : BitVec 3) (e : Int) (z : Nat) (k : ElemOp) : List ElemReq :=
  (if d.isScalar then [0] else (List.range r.nlanes).filter fun l => (r.mask 0 &&& r.mask m.toNat &&& lowLanes r.nlanes).getLsbD l).map
    fun l => { lane := l, ea := e + ((z * l : Nat) : Int), data := r.read d l, elem := k }

/-- s[BASE] + the sign-extended offset, exactly (R222). -/
def Sys2Proof.Claim.eaOf (r : Role) (base : BitVec 6) (off : Int) : Int := ((r.sreg base.toNat).toNat : Int) + off

/-- R144, R143: an operation that starts while every earlier one of its core has an element in flight, and no copy in its L1 is to be
corrected, changes its role and its core alone and sends at most messages: the role is past its word; its registers are unchanged but
for lanes of the destination, which an L1 hit may fill at once; the destination is bound and the slot counts one more until the
operation is complete. The model's own choices in it: assumption log 32, 144, 161. -/
def Obligations.OperationStarts : Prop :=
  ∀ (s : State) (rid : Nat) (r : Role) (o : Op), s.role? rid = some r →
    (∀ p ∈ (s.core r.core).ops, p.2.sent ≠ 0 ∧ p.2.stop = .go) → (s.core r.core).weakL1 = [] →
    o.kind ≠ .accRead → o.kind ≠ .accWrite → o.sent = 0 → o.stop = .go → (∀ e ∈ o.waiting, e.lane < 1024 ∧ ∀ pa, e.target ≠ .window pa) →
    (∀ g ∈ o.got, g.1 < 1024) →
    let t := s.startOp rid r o
    let n := (s.core r.core).nextOp
    t = { s with roles := t.roles, cores := t.cores, pending := t.pending } ∧ (∀ a, t.byte a = s.byte a) ∧
    (∀ k, k ≠ rid → t.role? k = s.role? k) ∧ (∀ c, c ≠ r.core → t.core c = s.core c) ∧
    (o.dst = none → o.ws = 0 → t.role? rid = some r.advance) ∧
    ∀ d, o.dst = some d → ∃ q, t.role? rid = some q ∧
      (∀ k, ¬(d.isScalar = true ∧ k = d.num) → q.sreg k = r.sreg k) ∧
      (∀ k l, l < 1024 → ¬(d.isScalar = false ∧ k = d.num ∧ ((∃ e ∈ o.waiting, e.lane = l) ∨ ∃ g ∈ o.got, g.1 = l)) →
        q.vreg k l = r.vreg k l) ∧
      q.bound = (if o.ws = 0 then r.bound else r.bound ++ [(d, o.ws)]) ∧
      (∀ w, q.waitCount w = r.waitCount w +
        if w = o.ws ∧ o.ws ≠ 0 ∧ ((t.core r.core).ops.find n).isSome = true then 1 else 0) ∧
      { q with sregs := r.sregs, vregs := r.vregs, bound := r.bound, waits := r.waits } = r.advance

/-- R222, R223, R224, R231: the elements of LD, LDSC, LDCL and GATH, under the view and class that the word names; an offset outside
the window raises NOTPRESENT with TADDR the offset. -/
def Sys2Proof.Claim.LoadsIssue : Prop :=
  (∀ (s : State) (r : Role) (o : FmtM), Issuing s r →
    let x := eaOf r o.base o.off.toInt
    let view := if o.view = 0 then none else some (Sparse.get 0 r.views o.view.toNat)
    let at_ := fun (i : Instr) (e : Int) =>
      LoadIssues i s r o.ty (accClassOf o.acl) view o.d o.ws.toNat (inARow r o.d o.mask e o.ty.bytes .load) [] none id id
    at_ (.ld o) x ∧
    (0 ≤ x → x < 2 ^ 40 → at_ (.ldsc o) (0xFFFFFE0000000000 + x) ∧ at_ (.ldcl o) (0xFFFFFD0000000000 + x)) ∧
    (¬(0 ≤ x ∧ x < 2 ^ 40) → exec (.ldsc o) s = .next (s.trap s.cur cNOTPRESENT (BitVec.ofInt 64 x)) ∧
      exec (.ldcl o) s = .next (s.trap s.cur cNOTPRESENT (BitVec.ofInt 64 x)))) ∧
  ∀ (s : State) (r : Role) (o : FmtMA), Issuing s r → o.d.isScalar = false →
    LoadIssues (.gath o) s r o.ty (accClassOf o.acl) none o.d o.ws.toNat
      ((inARow r o.d o.mask (eaOf r o.base o.off.toInt) 0 .load).map fun e => { e with ea := e.ea + (r.vreg o.a.num e.lane).toInt })
      [] none id id

/-- R222, R224: the elements of ST, STSC and STCL. -/
def Sys2Proof.Claim.StoresIssue : Prop :=
  ∀ (s : State) (r : Role) (o : FmtM), Issuing s r →
    let x := eaOf r o.base o.off.toInt
    let at_ := fun (i : Instr) (e : Int) =>
      StoreIssues i s r o.ty (accClassOf o.acl) (inARow r o.d o.mask e o.ty.bytes .store) id
    at_ (.st o) x ∧
    (0 ≤ x → x < 2 ^ 40 → at_ (.stsc o) (0xFFFFFE0000000000 + x) ∧ at_ (.stcl o) (0xFFFFFD0000000000 + x)) ∧
    (¬(0 ≤ x ∧ x < 2 ^ 40) → exec (.stsc o) s = .next (s.trap s.cur cNOTPRESENT (BitVec.ofInt 64 x)) ∧
      exec (.stcl o) s = .next (s.trap s.cur cNOTPRESENT (BitVec.ofInt 64 x)))

/-- The plain, scratchpad, coherent and streaming loads and stores. The model's own choices in it: assumption log 32, 35. -/
def Obligations.LoadsAndStoresIssue : Prop := Claim.LoadsIssue ∧ Claim.StoresIssue

/-- R221, R231, R232: SCAT and STMC write the destinations that pass the checks of issue and then raise the cause of the lowest that
does not, with REC set and the denied lanes or ranks in the record. With no denied destination they are stores; the destination of rank
k and lane l of STMC is at 0xFFFF_FD00_0000_0000 + k × 2^20 + O + z × l, ranks ascending. -/
def Sys2Proof.Claim.ScattersAndMulticasts : Prop :=
  ∀ (s : State) (r : Role) (o : FmtMA), Issuing s r →
    let z := o.ty.bytes
    let base := eaOf r o.base o.off.toInt
    let scat := (inARow r o.d o.mask base 0 .store).map fun e => { e with ea := e.ea + (r.vreg o.a.num e.lane).toInt }
    let bad := fun (e : ElemReq) => s.issueCause r .store e.ea z z ≠ none
    let lanes := (inARow r o.d o.mask 0 0 .store).map (·.lane)
    let mult := fun (ranks : List Nat) => ranks.flatMap fun k => (inARow r o.d o.mask base z .store).map fun e =>
      { e with ea := e.ea + 0xFFFFFD0000000000 + ((2 ^ 20 * k : Nat) : Int) }
    let ranks := (List.range 48).filter fun k => (r.sreg o.a.num).getLsbD k
    (o.d.isScalar = false → (∀ e ∈ scat, ¬bad e) → StoreIssues (.scat o) s r o.ty (accClassOf o.acl) scat id) ∧
    (o.d.isScalar = false → ∀ pre e post c, scat = pre ++ e :: post → (∀ x ∈ pre, ¬bad x) → s.issueCause r .store e.ea z z = some c →
      (∀ x ∈ scat, bad x) → s.ringRoom (dieOf r.core) = true → r.ended = false →
      exec (.scat o) s = .next ((s.setRole s.cur r.advance).deniedTrap s.cur r.ipc c (BitVec.ofInt 64 e.ea) (maskOfLanes (scat.map (·.lane))))) ∧
    ((∀ k ∈ ranks, k < s.gangCores r.gang) → (0 ≤ base) → (base < 2 ^ 20) →
      (∀ l ∈ lanes, base + ((z * l + z : Nat) : Int) ≤ (s.gangSp r.gang : Int) ∧ (base + ((z * l : Nat) : Int)) % (z : Int) = 0) →
      (s.gangSp r.gang ≤ 2 ^ 20) → (mult ranks).all (fun e => s.issueCause r .store e.ea z z == none) = true →
      StoreIssues (.stmc o) s r o.ty (accClassOf o.acl) (mult ranks) id) ∧
    (∀ k, ranks = [k] → s.gangCores r.gang ≤ k → (∃ l ls, lanes = l :: ls) → (0 ≤ base) → (base < 2 ^ 20) →
      (∀ l ∈ lanes, base + ((z * l + z : Nat) : Int) ≤ (s.gangSp r.gang : Int) ∧ (base + ((z * l : Nat) : Int)) % (z : Int) = 0) →
      (s.gangSp r.gang ≤ 2 ^ 20) → s.ringRoom (dieOf r.core) = true → r.ended = false →
      exec (.stmc o) s = .next ((s.setRole s.cur r.advance).deniedTrap s.cur r.ipc cNOTPRESENT
        (BitVec.ofInt 64 (0xFFFFFD0000000000 + ((2 ^ 20 * k : Nat) : Int) + base + ((z * lanes.headD 0 : Nat) : Int))) (maskOfLanes [k])))

/-- R225-R228: element i of a stream lies at BASE plus the sum of its tuple indices times the strides, dimension 0 fastest; SPSET takes
a record whose reserved bits are zero with pos 0, and raises ILLEGAL on another; LDSP and STSP on an idle slot raise ILLEGAL, and on one of
another type or direction once every element has passed its checks of issue, with TADDR the first element's address; else they take the
next elements in lane order, LDSP writes 0 past the end, and pos moves on. With no active lane nothing changes (R206). -/
def Sys2Proof.Claim.StreamSlots : Prop :=
  (∀ (x : Stream) (c0 c1 c2 c3 : Nat) (t0 t1 t2 t3 : Int) (i : Nat), x.counts = [c0, c1, c2, c3] → x.strides = [t0, t1, t2, t3] →
    (x.ndim = 1 → x.addr i = x.base + ((i % c0 : Nat) : Int) * t0 ∧ x.len = c0) ∧
    (x.ndim = 2 → x.addr i = x.base + ((i % c0 : Nat) : Int) * t0 + ((i / c0 % c1 : Nat) : Int) * t1 ∧ x.len = c0 * c1) ∧
    (x.ndim = 3 → x.addr i = x.base + ((i % c0 : Nat) : Int) * t0 + ((i / c0 % c1 : Nat) : Int) * t1 +
      ((i / (c0 * c1) % c2 : Nat) : Int) * t2 ∧ x.len = c0 * c1 * c2) ∧
    (x.ndim = 4 → x.addr i = x.base + ((i % c0 : Nat) : Int) * t0 + ((i / c0 % c1 : Nat) : Int) * t1 +
      ((i / (c0 * c1) % c2 : Nat) : Int) * t2 + ((i / (c0 * c1 * c2) % c3 : Nat) : Int) * t3 ∧ x.len = c0 * c1 * c2 * c3)) ∧
  ∀ (s : State) (r : Role) (o : FmtM), Issuing s r →
    let k := o.base.toNat % 4
    let a := ((r.sreg o.d.num).toNat : Int) + o.off.toInt
    (s.issueCause r .load a 64 64 = none → s.overlapsLog s.cur r a.toNat 64 = false → s.busyOps s.cur r = false →
      ∀ w0 w1 w2 w3 w4 w5 w6 w7 s1, s.loadRecord r .load a 8 64 = (.ok [w0, w1, w2, w3, w4, w5, w6, w7], s1) →
      (w1 &&& 0xFFFFFFFF00FCFEF0#64 ≠ 0 → exec (.spset o) s = .next (s1.trap s.cur cILLEGAL (BitVec.ofInt 64 a))) ∧
      (w1 &&& 0xFFFFFFFF00FCFEF0#64 = 0 → ∃ x : Stream, exec (.spset o) s = .next (s1.setRole s.cur
          { r with streams := r.streams.put k x }.advance) ∧
        x.base = w0.toNat ∧ x.pfd = w1.toNat / 2 ^ 24 % 256 ∧ x.ndim = w1.toNat / 2 ^ 16 % 4 + 1 ∧ x.dir = w1.getLsbD 8 ∧
        x.ty = tyOfCode (w1.toNat % 16) ∧ x.pos = 0 ∧ x.strides = [w4.toInt, w5.toInt, w6.toInt, w7.toInt] ∧
        x.counts = [w2.toNat % 2 ^ 32, w2.toNat / 2 ^ 32, w3.toNat % 2 ^ 32, w3.toNat / 2 ^ 32])) ∧
    (∀ c, s.issueCause r .load a 64 64 = some c → exec (.spset o) s = .next (s.trap s.cur c (BitVec.ofInt 64 a))) ∧
    let lanes := (inARow r o.d o.mask 0 0 .load).map (·.lane)
    (lanes = [] → exec (.ldsp o) s = .next (s.setRole s.cur r.advance) ∧ exec (.stsp o) s = .next (s.setRole s.cur r.advance)) ∧
    (lanes ≠ [] → r.streams.find k = none →
      exec (.ldsp o) s = .next (s.trap s.cur cILLEGAL 0) ∧ exec (.stsp o) s = .next (s.trap s.cur cILLEGAL 0)) ∧
    ∀ x, r.streams.find k = some x → lanes ≠ [] →
      let n := min lanes.length (x.len - x.pos)
      let es := fun (op : ElemOp) => (List.range n).map fun j =>
        ({ lane := lanes.getD j 0, ea := x.addr (x.pos + j), data := r.read o.d (lanes.getD j 0), elem := op } : ElemReq)
      let fix := fun (q : Role) => { q with streams := q.streams.put k { x with pos := x.pos + n } }
      let view := if o.view = 0 then none else some (Sparse.get 0 r.views o.view.toNat)
      let bad := fun (dir : Bool) => x.ty ≠ o.ty ∨ x.ty = .t2 ∨ x.ty = .b1 ∨ x.dir ≠ dir
      let ok := fun (acc : Acc) (e : ElemReq) => s.issueCause r acc e.ea o.ty.bytes o.ty.bytes = none
      let taddr : Word := if n = 0 then 0 else BitVec.ofInt 64 (x.addr x.pos)
      (bad false → (∀ e ∈ es .load, ok .load e) → exec (.ldsp o) s = .next (s.trap s.cur cILLEGAL taddr)) ∧
      (bad true → (∀ e ∈ es .store, ok .store e) → exec (.stsp o) s = .next (s.trap s.cur cILLEGAL taddr)) ∧
      (¬bad false → LoadIssues (.ldsp o) s r o.ty (accClassOf o.acl) view o.d o.ws.toNat (es .load)
        ((lanes.drop n).map fun l => (l, 0)) (some (k, x.pos)) fix fun t => t.streamAhead s.cur k (x.pos + n) view) ∧
      (¬bad true → StoreIssues (.stsp o) s r o.ty (accClassOf o.acl) (es .store) fix)

/-- R120, R176, R230: PREF always completes, whatever its address: it asks for the line at most, and changes no register, mask or flag.
It asks for no line that the L1 holds under its lease, and for one whose lease has expired with its wts. -/
def Sys2Proof.Claim.PrefetchNeverRaises : Prop :=
  ∀ (s : State) (r : Role) (o : FmtM), Issuing s r →
    let a := eaOf r o.base o.off.toInt
    let view := if o.view = 0 then none else some (Sparse.get 0 r.views o.view.toNat)
    (∃ s1 : State, exec (.pref o) s = .next (s1.setRole s.cur r.advance) ∧ s1.role? s.cur = some r) ∧
    (canonRange a 1 = false ∨ onChip a.toNat = true ∨ 64 ≤ (s.core r.core).prefetches →
      exec (.pref o) s = .next (s.setRole s.cur r.advance)) ∧
    ∀ m s1, canonRange a 1 = true → onChip a.toNat = false → (s.core r.core).prefetches < 64 →
      s.walk { r.walker view with core := none } .prefetch a.toNat = (.ok m, s1) → m.acc = false → regionOf m.pa ≠ .window →
      let tag := r.tag a.toNat m.retained
      let held := if o.d.toNat = 1 then none else (s1.core r.core).l1? tag
      (∀ x, held = some x → x.tag.ver ≠ none ∨ (s1.core r.core).pts ≤ x.rts → exec (.pref o) s = .next (s1.setRole s.cur r.advance)) ∧
      (held = none ∨ (∃ x, held = some x ∧ x.tag.ver = none ∧ x.rts < (s1.core r.core).pts) → ∃ q, exec (.pref o) s =
          .next (((s1.updCore r.core fun k => { k with prefetches := k.prefetches + 1 }).send (.ldreq q)).setRole s.cur r.advance) ∧
        q.line = lineOf m.pa ∧ q.op = none ∧ q.l2only = decide (o.d.toNat = 1) ∧ q.core = r.core ∧ q.tag = tag ∧
        q.oldWts = if m.retained.isSome then none else held.map (·.wts))

/-- Scatters, multicasts, streams and prefetches. The model's own choices in it: assumption log 37, 40, 41, 145, 165. -/
def Obligations.ScattersStreamsAndPrefetches : Prop := Claim.ScattersAndMulticasts ∧ Claim.StreamSlots ∧ Claim.PrefetchNeverRaises

/-! ### Atomics, reductions, counters and fences (06 R142-R153, 10 R233-R243) -/

/-- An atomic issues (R157, R206, R220, R234): with no active lane it changes nothing; it waits for the role's window; the first element
that fails a check of issue traps; a failure at the walk is handled as a load's, marked a write, and a page whose copy is to be made is
asked for first; else the operation starts. -/
def Sys2Proof.Claim.AtomicIssues (i : Instr) (s : State) (r : Role) (o : FmtMA) (k : Nat → ElemOp) : Prop :=
  let z := o.ty.bytes
  let es := (inARow r o.d o.mask (eaOf r o.base o.off.toInt) z .load).map fun e =>
    { e with data := r.read o.a e.lane, elem := k e.lane }
  let ok := fun (e : ElemReq) => s.issueCause r .atomic e.ea z z = none
  let targets := s.targetsOf r .atomic none false false z es
  (es = [] → exec i s = .next (s.setRole s.cur r.advance)) ∧
  (es ≠ [] → s.windowOpen s.cur r = true → exec i s = .next (s.setRole s.cur { r with hold := .window })) ∧
  (s.windowOpen s.cur r = false → ∀ pre e post c, es = pre ++ e :: post → (∀ x ∈ pre, ok x) →
    s.issueCause r .atomic e.ea z z = some c → exec i s = .next (s.trap s.cur c (BitVec.ofInt 64 e.ea))) ∧
  (es ≠ [] → s.windowOpen s.cur r = false → (∀ e ∈ es, ok e) →
    (∀ xs s1, targets = (xs, none, s1) → exec i s = .next (s1.startOp s.cur r
      { rid := s.cur, pc := 0, kind := .atomic, ty := o.ty, dst := some o.d, ws := o.ws.toNat, cls := accClassOf o.acl, waiting := xs })) ∧
    ∀ xs w e rest s1, targets = (xs, some (w, e :: rest), s1) →
      let s2 := match w with
        | .cow l _ => s1.requestCopy r.vmid e.ea.toNat r.wver l (dieOf r.core)
        | _ => s1
      exec i s = .next (s2.loadStop s.cur w (BitVec.ofInt 64 e.ea) r.ipc true))

/-- R233, R234, R235: the operation that each OP code of ATOM names, and what each makes of the old element and the operand x at the
width w of its type: the sum and the bitwise operations modulo 2^w, the smaller or larger under the type's signedness, the swap, the
sum rounded with rne, and for CAS x exactly when the element equals the expected pattern. -/
def Sys2Proof.Claim.AtomicNewElements : Prop :=
  ((List.range 8).map fun n => atomOp (BitVec.ofNat 4 n)) = [.add, .min, .max, .and, .or, .xor, .swap, .fadd] ∧
  ∀ (t : Ty) (old x : Nat), old < 2 ^ t.width → x < 2 ^ t.width →
    let w := t.width
    elemNew t w .store old x = x ∧ elemNew t w .swap old x = x ∧ elemNew t w .add old x = (old + x) % 2 ^ w ∧
    elemNew t w .and old x = old &&& x ∧ elemNew t w .or old x = old ||| x ∧ elemNew t w .xor old x = old ^^^ x ∧
    (t.isInt = true → t.toInt (elemNew t w .min old x) = min (t.toInt old) (t.toInt x) ∧
      t.toInt (elemNew t w .max old x) = max (t.toInt old) (t.toInt x) ∧
      (elemNew t w .min old x = old ∨ elemNew t w .min old x = x) ∧ (elemNew t w .max old x = old ∨ elemNew t w .max old x = x)) ∧
    (∀ f, t.fmt? = some f → elemNew t w .fadd old x = (fAdd f .rne (f.decode old) (f.decode x)).1) ∧
    ∀ e : Word, elemNew t w (.cas e) old x = if old = e.toNat % 2 ^ w then x else old

/-- R234-R237: ATOM and CAS start an atomic on the elements at E + z × lane, CAS expecting each lane of D; RED sends a reduction for
each element at E + 16 × lane, with the flow word of s[A], and its role goes on; it waits while 32 reductions of the core are refused, and
behind a logged accumulator write to its slots; what fails at its walk goes to the side log. -/
def Sys2Proof.Claim.AtomicsAndReductionsIssue : Prop :=
  ∀ (s : State) (r : Role) (o : FmtMA), Issuing s r →
    AtomicIssues (.atom o) s r o (fun _ => atomOp o.op) ∧ AtomicIssues (.cas o) s r o (fun l => .cas (r.read o.d l)) ∧
    let es := inARow r o.d o.mask (eaOf r o.base o.off.toInt) 16 .store
    let ok := fun (e : ElemReq) => s.issueCause r .reduction e.ea 16 16 = none
    let flow := r.sreg o.a.num
    (∀ pre e post c, es = pre ++ e :: post → (∀ x ∈ pre, ok x) → s.issueCause r .reduction e.ea 16 16 = some c →
      exec (.red o) s = .next (s.trap s.cur c (BitVec.ofInt 64 e.ea))) ∧
    let raw := es.map fun e => (e.lane, e.ea.toNat, e.data)
    let waits := es ≠ [] ∧ 32 ≤ (s.core r.core).refused.length
    let behind := ∃ e ∈ es, s.loggedClear s.cur r e.ea.toNat 16 = true
    let sent := fun (us : List LineUpdate) => ∀ u ∈ us, u.rid = s.cur ∧ u.ord = flow.getLsbD 63 ∧
      u.flow.toNat = flow.toNat / 2 ^ 16 % 2 ^ 12 ∧ u.seq.toNat = flow.toNat % 2 ^ 16 ∧ u.op = redOpOf o.op
    ((∀ e ∈ es, ok e) → waits → exec (.red o) s = .next (s.setRole s.cur { r with hold := .matrix })) ∧
    ((∀ e ∈ es, ok e) → ¬waits → behind → exec (.red o) s = .next (s.setRole s.cur { r with hold := .window })) ∧
    ((∀ e ∈ es, ok e) → ¬waits → ¬behind →
      (∀ us s1, s.redElems r s.cur r.ipc (redOpOf o.op) flow o.ty [] raw = (none, us, s1) →
        exec (.red o) s = .next ((s1.sendUpdates (dieOf r.core) us).setRole s.cur r.advance) ∧
        (us.map fun u => u.parts.length).sum = es.length ∧ sent us) ∧
      ∀ w x left us s1, s.redElems r s.cur r.ipc (redOpOf o.op) flow o.ty [] raw = (some (w, x :: left), us, s1) →
        let s2 := s1.logFault r (walkCause w) (s1.entryNow s.cur r r.ipc x.2.1 (.reds (redOpOf o.op) flow o.ty (x :: left)))
        sent us ∧ exec (.red o) s = .next (if s2.stopped? s.cur then s2
          else (s2.sendUpdates (dieOf r.core) us).updRole s.cur fun q => q.advance))

/-- Atomics and reductions: what they make of an element, and their issue. -/
def Obligations.AtomicsAndTheirElements : Prop := Claim.AtomicNewElements ∧ Claim.AtomicsAndReductionsIssue

/-- R144: an access to a share of the scratchpad stands at max(P, spts), a store or an atomic at max(P, spts + 1); spts takes that time
and the requester's pts rises to it. A load returns the share's bytes; a read-modify-write returns them and leaves the new ones, and
every other byte of the share keeps its value. The bytes are ones without an error. -/
def Sys2Proof.Claim.ScratchpadClock : Prop :=
  ∀ (s : State) (r : Role) (g : Gang) (rank off n : Nat) (f : Nat → Nat), s.gang? r.gang = some g →
    s.spadCheck r.gang rank off = (s, false) →
    let p := (s.core r.core).pts
    let spts := g.spts.get 0 rank
    let share := g.shares.get [] rank
    let old := readBytes share off n
    (∃ t g', s.spotRead r (.spad rank off) n = (.ok old, t) ∧ t.gang? r.gang = some g' ∧ g'.spts.get 0 rank = max p spts ∧
      g'.shares = g.shares ∧ (t.core r.core).pts = max p spts ∧ t.mem = s.mem ∧ t.roles = s.roles) ∧
    ∃ t g', s.spotRmw r (.spad rank off) n f = (.ok (old, max p (spts + 1)), t) ∧ t.gang? r.gang = some g' ∧
      g'.spts.get 0 rank = max p (spts + 1) ∧ (t.core r.core).pts = max p (spts + 1) ∧ t.mem = s.mem ∧ t.roles = s.roles ∧
      readBytes (g'.shares.get [] rank) off n = f old % 256 ^ n ∧
      (∀ b, b < off ∨ off + n ≤ b → Sparse.get (0 : Byte) (g'.shares.get [] rank) b = Sparse.get 0 share b) ∧
      ∀ k, k ≠ rank → g'.shares.get [] k = g.shares.get [] k

/-- The counter at `ea` passes its checks and stands at `x`; `s1` is the state after its walk (R238). -/
def Sys2Proof.Claim.CounterAt (s : State) (r : Role) (ea : Int) (x : Spot) (s1 : State) : Prop :=
  s.windowOpen s.cur r = false ∧ s.issueCause r .counter ea 8 8 = none ∧
  s.opsDue s.cur r (fun o e => decide (e.va < ea.toNat + 8) && decide (ea.toNat < e.va + o.ty.bytes)) = false ∧
  s.spot r .counter none false ea.toNat 8 = (.ok x, s1)

/-- R153, R240: the acquire: s[D] is the value read, sf is pts, the destination is bound and its slot counts nothing more. -/
def Sys2Proof.Claim.Acquired (r q : Role) (d : RegName) (ws v pts : Nat) : Prop :=
  (∀ n, q.sreg n = if n = d.num then BitVec.ofNat 64 v else r.sreg n) ∧ q.vregs = r.vregs ∧ q.sf = pts ∧ q.bound = r.bound ++ [(d, ws)] ∧
  (∀ w, q.waitCount w = r.waitCount w) ∧
  { q with sregs := r.sregs, sf := r.sf, bound := r.bound, waits := r.waits } = r.advance

/-- R239, R240, R241: CADD adds s[A] to the counter as one atomic once its release may take its place, and raises COUNTER_OVF with the
counter unchanged when the sum passes 2^64 − 1; CREAD reads it once as a load, CWAIT and TLWAIT wait until it is at or above s[A] and
read it once as an atomic, and each acquires the value. All wait for the window. A queue register without a copy context makes TLWAIT raise QUEUE. -/
def Sys2Proof.Claim.CountersReleaseAndAcquire : Prop :=
  (∀ (s : State) (r : Role) (o : FmtMA), Issuing s r →
    let ea := eaOf r o.base o.off.toInt
    let a := (r.sreg o.a.num).toNat
    let addr := BitVec.ofInt 64 ea
    (∀ x s1, CounterAt s r ea x s1 → s.releaseReady s.cur r (if o.scope = 0 then 4 else o.scope.toNat) = true →
      (2 ^ 64 ≤ s1.spotPeek r x 8 + a → exec (.cadd o) s = .next (s1.trap s.cur cCOUNTER_OVF addr)) ∧
      (s1.spotPeek r x 8 + a < 2 ^ 64 → ∀ v w s2, s1.spotRmw r x 8 (fun old => old + a) = (.ok (v, w), s2) →
        exec (.cadd o) s = .next (s2.setRole s.cur (r.overwrite x.place 8 (v + a)).advance))) ∧
    (s.releaseReady s.cur r (if o.scope = 0 then 4 else o.scope.toNat) = false → s.windowOpen s.cur r = false →
      exec (.cadd o) s = .next (s.setRole s.cur { r with hold := .drain })) ∧
    (s.windowOpen s.cur r = true → exec (.cadd o) s = .next (s.setRole s.cur { r with hold := .window }) ∧
      exec (.cwait o) s = .next (s.setRole s.cur { r with hold := .window }) ∧
      exec (.cread o) s = .next (s.setRole s.cur { r with hold := .window })) ∧
    ∀ x s1, CounterAt s r ea x s1 →
      (s1.spotPeek r x 8 < a → exec (.cwait o) s = .next (s1.setRole s.cur { r with hold := .counter ea.toNat })) ∧
      (∀ v s2, s1.spotRead r x 8 = (.ok v, s2) →
        ∃ q, exec (.cread o) s = .next (s2.setRole s.cur q) ∧ Acquired r q o.d o.ws.toNat v (s2.core r.core).pts) ∧
      ∀ v w s2, s1.spotRmw r x 8 (fun old => old) = (.ok (v, w), s2) →
        (a ≤ s1.spotPeek r x 8 → ∃ q, exec (.cwait o) s = .next (s2.setRole s.cur q) ∧
          Acquired r q o.d o.ws.toNat v (s2.core r.core).pts)) ∧
  ∀ (s : State) (r : Role) (o : FmtQ), Issuing s r →
    (∀ ea : Int, (∃ d c, r.queues.find o.q.toNat = some (.shared d c) ∧
        ea = (((BitVec.ofNat 57 (s.ctx (.shared d c)).tladdr).signExtend 64).toNat : Int)) ∨
        (r.queues.find o.q.toNat = some .localCtx ∧ ea = s.teamTimeline r.gang r.team) →
      ∀ x s1, CounterAt s r ea x s1 → ((r.sreg o.a.num).toNat ≤ s1.spotPeek r x 8 → ∀ v w s2,
        s1.spotRmw r x 8 (fun old => old) = (.ok (v, w), s2) → ∃ q, exec (.tlwait o) s = .next (s2.setRole s.cur q) ∧
        Acquired r q o.d o.ws.toNat v (s2.core r.core).pts) ∧
      (s1.spotPeek r x 8 < (r.sreg o.a.num).toNat → exec (.tlwait o) s = .next (s1.setRole s.cur { r with hold := .counter ea.toNat }))) ∧
    ((∀ d c, r.queues.find o.q.toNat ≠ some (.shared d c)) → r.queues.find o.q.toNat ≠ some .localCtx →
      exec (.tlwait o) s = .next (s.trap s.cur cQUEUE 0))

/-- R148, R243: FENCE completes once the window is closed and what its scope covers has been performed, and then sets sf to pts; until
then it holds the role. Nothing else changes. -/
def Sys2Proof.Claim.FenceSetsTheFloor : Prop :=
  ∀ (s : State) (r : Role) (o : FmtM), Issuing s r →
    let scope := if o.scope = 0 then 4 else o.scope.toNat
    (s.windowOpen s.cur r = true → exec (.fence o) s = .next (s.setRole s.cur { r with hold := .window })) ∧
    (s.windowOpen s.cur r = false → s.fenceReady s.cur r scope = false → exec (.fence o) s = .next (s.setRole s.cur { r with hold := .drain })) ∧
    (s.windowOpen s.cur r = false → s.fenceReady s.cur r scope = true → Completes (.fence o) s fun q =>
      q.sf = (s.core r.core).pts ∧ RegsKept r q ∧ { q with sf := r.sf } = r.advance) ∧
    (s.fenceReady s.cur r scope = true → s.windowOpen s.cur r = false ∧ (s.jobsDue s.cur r fun l => s.coversLine r scope l) = false ∧
      (s.reductionDue s.cur r fun l _ => s.coversLine r scope l) = false ∧
      (scope = 6 → s.peerDue s.cur = false ∧ s.issuedDue s.cur = false) ∧
      ∀ p ∈ (s.core r.core).opsOf s.cur, ∀ e ∈ p.2.waiting, s.covers r scope e.target = false)

/-- Counters, timelines, the fence, and the clock of the scratchpad. The model's own choices in it: assumption log 34. -/
def Obligations.CountersFencesAndTheScratchpad : Prop := Claim.CountersReleaseAndAcquire ∧ Claim.FenceSetsTheFloor ∧ Claim.ScratchpadClock

/-! ### Coherence (05 R117-R140) -/

/-- Byte `k` of a line. -/
def Sys2Proof.Claim.lineByte (d : LineData) (k : Nat) : Nat := d.toNat / 2 ^ (8 * k) % 256

/-- R120: a slice that may read the line answers a load with rts := max(rts, wts + LEASE, P + LEASE): RENEW exactly when the request's
wts is the line's, LDDATA with the line's bytes otherwise. Only the line's rts changes, and it becomes the most recently used. -/
def Sys2Proof.Claim.SliceLoadsLeaseTheLine : Prop :=
  ∀ (s : State) (m : LdReqMsg) (l : SliceLine),
    let d := dieOf m.core
    m.acc = false → m.view = false → (s.die d).copy? m.line = some l → l.st ≠ .I → s.homeLost m.line = false →
    s.keyMissing m.line m.vmid = false → s.lineVmid? m.line = some m.vmid → (s.die d).badL2 = [] → (s.die d).weakL2 = [] →
    let rts := max l.rts (max (l.wts + s.lease d) (m.p + s.lease d))
    let r : LdReply := { req := m, data := l.data, wts := l.wts, rts := rts, error := none }
    exec (.ldreq m) s = .next ((s.updDie d fun x => x.putLine { l with rts := rts }).send
      (if m.oldWts = some l.wts then .renew r else .lddata r)) ∧
    l.wts ≤ rts ∧ m.p + s.lease d ≤ rts

/-- R121, R127, R128, R136: a store or an atomic is performed at the slice of a die that holds the line in M or E: wts := max(P, rts + 1),
rts and wts take it, the state becomes M and the bytes of the element alone change. At the home die the entry of a line granted clean
becomes M and STDONE follows at once; from another die MIRW goes to the home, and for a host line the bytes go to the host, and STDONE waits
for the acknowledgement. -/
def Sys2Proof.Claim.SliceStoresTakeTheirTime : Prop :=
  ∀ (s : State) (m : StReqMsg) (l : SliceLine),
    let d := dieOf m.core
    let home := s.homeOf m.line
    (s.die d).copy? m.line = some l → l.line = m.line → (l.st = .M ∨ l.st = .E) → s.homeLost m.line = false →
    s.keyMissing m.line m.vmid = false → s.lineVmid? m.line = some m.vmid → (s.die d).badL2 = [] → (s.die d).weakL2 = [] →
    m.off + m.size ≤ 128 →
    let wts := max m.p (l.rts + 1)
    let old := l.data.toNat / 2 ^ (8 * m.off) % 2 ^ (8 * m.size)
    let new := elemNew m.ty (8 * m.size) m.elem old m.data.toNat
    ∃ l', l'.wts = wts ∧ l'.rts = wts ∧ l'.st = .M ∧ l'.line = l.line ∧ l'.kind = l.kind ∧ l'.vmid = l.vmid ∧
      (∀ k, k < 128 → ¬(m.off ≤ k ∧ k < m.off + m.size) → lineByte l'.data k = lineByte l.data k) ∧
      l'.data.toNat / 2 ^ (8 * m.off) % 2 ^ (8 * m.size) = new % 2 ^ (8 * m.size) ∧
      let reply : StReply := { req := m, wts := wts, prev := l.wts, old := BitVec.ofNat 64 old, new := BitVec.ofNat 64 new,
                               bytes := l'.data, error := none }
      let s1 := s.updDie d fun x => x.putLine l'
      let waits := s1.updDie d fun x => { x with mirWait := x.mirWait ++ [{ line := m.line, wts := wts, reply := some reply }] }
      let learns := fun (t : State) => t.updDie d fun x => x.updEntry m.line fun e =>
        if e.st = .E ∧ e.own.val = d then { e with st := .M } else e
      (home = d → isHostLine m.line = false → exec (.streq m) s = .next ((learns s1).send (.stdone reply))) ∧
      (home = d → isHostLine m.line = true →
        exec (.streq m) s = .next (((learns waits).storeLine m.line l.vmid l'.data).send (.mack (agent d) m.line wts))) ∧
      (home ≠ d → exec (.streq m) s = .next
        (waits.sendMsg d home (.mirw (dieId home) m.line (agent d) l'.data (byteMask m.off m.size) wts)))

/-- R120, R121, R128: what a slice does with a load and with a store. The model's own choices in it: assumption log 21, 149. -/
def Obligations.SlicesServeLoadsAndStores : Prop := Claim.SliceLoadsLeaseTheLine ∧ Claim.SliceStoresTakeTheirTime

/-- R120, R121, R222, R234: the reply of the last element completes its operation: a load or an atomic writes its value, a store writes
nothing, pts rises to the wts of the reply, and the slot counts one less. LDDATA brings the line's bytes, RENEW serves the load from the
copy that it renews. A reply with an error writes no destination; where the fault ring has no place for the record of the abort, the
load is made again. The model's own choices in it: assumption log 26, 27, 36, 162. -/
def Obligations.RepliesCompleteOperations : Prop :=
  ∀ (s : State) (c n rid : Nat) (o : Op) (r : Role) (e : OpElem) (line off : Nat) (tag : L1Tag) (perm : FillPerm) (d : RegName),
    (s.core c).ops = [(n, o)] → o.rid = rid → s.role? rid = some r → r.core = c → o.waiting = [e] →
    e.target = .mem line off tag perm false false → d.isScalar = true → o.got = [] → o.stop = .go →
    ((s.core c).entriesOf rid) = [] →
    let wrote := fun (q : Role) (v : Word) => (∀ k, q.sreg k = if k = d.num then v else r.sreg k) ∧ q.vregs = r.vregs ∧
      q.masks = r.masks ∧ q.pc = r.pc ∧ q.clause = r.clause ∧
      ∀ w, q.waitCount w = if w = o.ws ∧ o.ws ≠ 0 then r.waitCount w - 1 else r.waitCount w
    (∀ m : LdReply, m.req.core = c → m.req.op = some n → m.req.acc = false → m.req.view = false → m.error = none →
      max (s.core c).pts m.wts ≤ m.rts → o.kind = .load → o.dst = some d →
      let v := fun (d : LineData) => BitVec.ofNat 64 (d.toNat / 2 ^ (8 * off) % 2 ^ (8 * o.ty.bytes))
      (∃ t q, exec (.lddata m) s = .next t ∧ t.role? rid = some q ∧ wrote q (v m.data) ∧ (t.core c).ops = [] ∧
        (t.core c).pts = max (s.core c).pts m.wts ∧ t.mem = s.mem) ∧
      ∀ y, (s.core c).l1? m.req.tag = some y → m.req.oldWts = some y.wts → m.req.l2only = false →
        ∃ t q, exec (.renew m) s = .next t ∧ t.role? rid = some q ∧ wrote q (v y.data) ∧ (t.core c).ops = [] ∧
        (t.core c).pts = max (s.core c).pts m.wts ∧ t.mem = s.mem) ∧
    (∀ m : StReply, m.req.core = c → m.req.op = n → m.error = none → o.kind ≠ .accRead → o.kind ≠ .accWrite →
      (o.dst = some d → ∃ t q, exec (.stdone m) s = .next t ∧ t.role? rid = some q ∧ wrote q m.old ∧ (t.core c).ops = [] ∧
        (t.core c).pts = max (s.core c).pts m.wts ∧ t.mem = s.mem) ∧
      (o.dst = none → o.ws = 0 → ∃ t q, exec (.stdone m) s = .next t ∧ t.role? rid = some q ∧
        { q with spilled := r.spilled } = r ∧ (t.core c).ops = [] ∧
        (t.core c).pts = max (s.core c).pts m.wts ∧ t.mem = s.mem)) ∧
    (∀ m : SpadReq, m.core = c → m.op = n → s.spadCheck m.gang m.rank m.off = (s, false) → ∀ g, s.gang? m.gang = some g →
      o.kind ≠ .accRead → o.kind ≠ .accWrite → o.dst = some d →
      let old := readBytes (g.shares.get [] m.rank) m.off m.size
      ∃ t q g', exec (.scratchpadAccess m) s = .next t ∧ t.role? rid = some q ∧ wrote q (BitVec.ofNat 64 old) ∧ (t.core c).ops = [] ∧
        t.gang? m.gang = some g' ∧
        (m.elem = .load → g'.shares = g.shares) ∧
        (m.elem ≠ .load → readBytes (g'.shares.get [] m.rank) m.off m.size =
          elemNew m.ty (8 * m.size) m.elem old m.data.toNat % 256 ^ m.size)) ∧
    ∀ m : LdReply, m.req.core = c → m.req.op = some n → m.error = some cDATA_ERROR →
      ((r.ended = true ∨ s.ringRoom (dieOf c) = true) → ∃ t, exec (.lddata m) s = .next t ∧ ((t.core c).ops.find n).isNone = true ∧
        ∀ q, t.role? rid = some q → q.sregs = r.sregs ∧ q.vregs = r.vregs) ∧
      (r.ended = false → s.ringRoom (dieOf c) = false → exec (.lddata m) s = .next
        ((s.updCore c fun k => { k with ops := k.ops.put n { o with sent := 0, stop := .walk } }).pump c))

/-- R122: when 1,024 cycles have passed since the last change of pts, pts advances by 1 if an L1-hit load has issued in them; otherwise it
stays, and the next such load will advance it. The model's own choices in it: assumption log 10, 149. -/
def Obligations.LogicalTimeAges : Prop :=
  ∀ (s : State) (c : Nat), ∃ t, exec (.ptsAge c) s = .next t ∧ t = { s with cores := t.cores } ∧ (∀ k, k ≠ c → t.core k = s.core k) ∧
    ((s.core c).hitSince = true → (t.core c).pts = (s.core c).pts + 1 ∧ (t.core c).hitSince = false ∧ (t.core c).aged = false) ∧
    ((s.core c).hitSince = false → (t.core c).pts = (s.core c).pts ∧ (t.core c).aged = true)

/-- The step `i` gives the entry of `line` at home `h` the value `e`, changes nothing else there but transactions in progress and which
line was used last, and sends `msg` from agent `x` to agent `y`. -/
def Sys2Proof.Claim.Turns (i : Instr) (s : State) (h : Die) (line : Nat) (e : DirEntry) (x y : Nat) (msg : Instr) : Prop :=
  ∃ t1 : State, exec i s = .next (t1.sendMsg x y msg) ∧ (t1.die h).entry? line = some e ∧ t1 = { s with dies := t1.dies } ∧
    (∀ d, d ≠ h.val → t1.die d = s.die d) ∧ ∀ n k, (t1.die h).find? n k = (s.die h).find? n k

/-- The step `i` leaves the entry of `line` at home `h` as it is, starts a transaction there, and sends `msg` to agent `y`. -/
def Sys2Proof.Claim.Begins (i : Instr) (s : State) (h : Die) (e : DirEntry) (tx : HomeTx) (y : Nat) (msg : Instr) : Prop :=
  ∃ t1 : State, exec i s = .next (t1.sendMsg h y msg) ∧ (t1.die h).entry? e.line = some e ∧ t1 = { s with dies := t1.dies } ∧
    (∀ d, d ≠ h.val → t1.die d = s.die d) ∧ (t1.die h).lines = (s.die h).lines ∧ (t1.die h).homeTx = (s.die h).homeTx ++ [tx]

/-- Nothing waits at home `h`, nor for a way at any die. -/
def Sys2Proof.Claim.NoneWait (s : State) (h : Die) : Prop :=
  (s.die h).homeQ = [] ∧ (s.die h).insertQ = [] ∧ ∀ d, d < 4 → (s.die d).fillWait = []

/-- R127, R131, R132: the home's transitions. GETS and GETM or UPGM by the state of the entry, a request behind a busy line queues, a
request that goes to an owner or to sharers is a transaction, an INVACK raises HTS and the last one lets the grant go, and a holder that
evicts the line leaves the entry. The data that a home sends is data that it can read. -/
def Sys2Proof.Claim.HomeTransitions : Prop :=
  ∀ (s : State) (h : Die) (line : Nat) (a : Agent) (e : DirEntry), (s.die h).entry? line = some e → e.line = line →
    let d := s.homeData line (s.reqVmid a line)
    let data := fun (k : DataKind) (hts : Nat) => Instr.data a line k d hts (if k = .M then hts else 0) false
    let shr := fun (i : Nat) => e.shr.getLsbD i = true
    let join := e.shr ||| (1#5 <<< a.val)
    let taken := { e with st := .M, own := a, shr := 0, hts := if a.val = 4 then e.hts + 1 else e.hts }
    let tx := fun (req : ReqMsg) (from_ : Agent) (fwd : Bool) =>
      ({ line := line, req := req, a := a, acks := [from_], forwarded := fwd, upgrade := false } : HomeTx)
    s.homeOf line = h.val → s.homeCheck line = (s, false) →
    ((s.die h).busy line = true →
      (∀ i, (i = Instr.gets h line a ∨ i = .getm h line a ∨ i = .upgm h line a) → ∃ req,
        exec i s = .next (s.setDie h { s.die h with homeQ := (s.die h).homeQ ++ [(req, line, a)] }))) ∧
    ((s.die h).busy line = false →
      (e.st = .I → Turns (.gets h line a) s h line { e with st := .E, own := a, shr := 0 } h a (data .E e.hts)) ∧
      (e.st = .S → Turns (.gets h line a) s h line { e with shr := join } h a (data .S e.hts)) ∧
      ((e.st = .E ∨ e.st = .M ∨ e.st = .O) → e.own ≠ a →
        Begins (.gets h line a) s h e (tx .gets e.own true) e.own (.fwds h e.own line a)) ∧
      ((e.st = .I ∨ (e.st = .S ∧ ∀ i, i < 5 → i ≠ a.val → ¬shr i)) → NoneWait s h →
        Turns (.getm h line a) s h line taken h a (data .M taken.hts) ∧
        (e.st = .S → shr a.val → Turns (.upgm h line a) s h line taken h a (.gnt a line taken.hts false))) ∧
      ((e.st = .E ∨ e.st = .M) → e.own ≠ a →
        Begins (.getm h line a) s h e (tx .getm e.own true) e.own (.fwdm h e.own line a)) ∧
      (∀ b : Agent, e.st = .S → b ≠ a → e.shr = (1#5 <<< b.val) →
        Begins (.getm h line a) s h e (tx .getm b false) b (.inv h b line))) ∧
    (∀ (b : Agent) (hh : Nat) (fwd up : Bool), (s.die h).homeTx = [{ line := line, req := .getm, a := b, acks := [a], forwarded := fwd, upgrade := up }] →
      NoneWait s h → (fwd || up) = true →
      let hts := max e.hts hh + if b.val = 4 then 1 else 0
      Turns (.invack h line a hh) s h line { e with st := .M, own := b, shr := 0, hts := hts } h b (.gnt b line hts fwd)) ∧
    (∀ hh, e.st = .S → e.shr = (1#5 <<< a.val) → (s.die h).busy line = false → ∃ t, exec (.evc h line a hh) s = .next t ∧
      (t.die h).mtsOf line = max ((s.die h).mtsOf line) (max e.hts hh)) ∧
    (∀ hh b, e.st = .S → b ≠ a → e.shr = ((1#5 <<< a.val) ||| (1#5 <<< b.val)) → ∃ t, exec (.evc h line a hh) s = .next t ∧
      (t.die h).entry? line = some { e with shr := 1#5 <<< b.val, hts := max e.hts hh }) ∧
    ∀ hh, (e.st = .E ∨ e.st = .M) → e.own = a → (s.die h).busy line = true → ∃ t, exec (.evc h line a hh) s = .next t ∧
      (t.die h).entry? line = some { e with st := .I, shr := 0, hts := max e.hts hh }

/-- R131, R132: a line without an entry gets one at slot h0 of T0 with HTS = MTS; the last BACK frees its victim and MTS rises to the
victim's horizon; a request that waited behind a line or for a victim buffer starts as if it arrived. -/
def Sys2Proof.Claim.NewEntriesAndVictims : Prop :=
  ∀ (s : State) (h : Die) (line : Nat) (a : Agent),
    ((s.die h).busy line = false → (s.die h).entry? line = none → (s.die h).t0.find (hash0 line) = none → s.homeOf line = h.val →
      s.homeCheck line = (s, false) →
      let e : DirEntry := { line := line, st := .E, shr := 0, own := a, hts := (s.die h).mtsOf line }
      Turns (.gets h line a) s h line e h a (.data a line .E (s.homeData line (s.reqVmid a line)) e.hts 0 false)) ∧
    (∀ (v : Victim) (hh : Nat), (s.die h).victims = [v] → v.entry.line = line → v.waiting = [a] →
      ∃ t, exec (.back h line a hh) s = .next t ∧ (t.die h).victims = [] ∧
      (t.die h).mtsOf line = max ((s.die h).mtsOf line) (max v.entry.hts hh)) ∧
    (∀ req rest, (s.die h).busy line = false → (s.die h).homeQ = (req, line, a) :: rest →
      let s0 := s.setDie h { s.die h with homeQ := rest }
      let s1 := s0.homeRequest h req line a
      exec (.homeQueueStart h line) s = .next
        (if ((s1.die h).homeQ.any fun q => q.2.1 == line) = true ∧ (s1.die h).busy line = false then s1.send (.homeQueueStart h line) else s1)) ∧
    ∀ req l rest, (s.die h).insertQ = (req, l, a) :: rest →
      let s1 := (s.setDie h { s.die h with insertQ := rest }).homeRequest h req l a
      let left := (s1.die h).insertQ.length
      exec (.victimBufferFree h) s = .next (if 0 < left ∧ left ≤ rest.length then s1.send (.victimBufferFree h) else s1)

/-- The home: its transitions, and the entries it makes and gives up. The model's own choices in it: assumption log 21, 22, 157, 160, 176. -/
def Obligations.HomesAndTheirEntries : Prop := Claim.HomeTransitions ∧ Claim.NewEntriesAndVictims

/-- No answer of a home to die `a` about the line is on its way, and the die's copy has no error. -/
def Sys2Proof.Claim.Settled (s : State) (a line : Nat) : Prop :=
  s.pending.any (isAnswer a line) = false ∧ (s.die a).fillWait.any (isAnswer a line) = false ∧ (s.die a).badL2 = [] ∧ (s.die a).weakL2 = []

/-- R126-R130, R460: what an agent does with the home's messages. INV and BINV end its copy and are answered with the largest rts that it
has granted; FWDS makes E into S and M into O, and the entry follows it; FWDM hands the data and the agent's own horizon over; GNT lets it
write, with rts at or above the HTS received; MACK performs the store that waits for it. -/
def Sys2Proof.Claim.AgentsAnswerTheHome : Prop :=
  ∀ (s : State) (h a b : Die) (line : Nat) (l : SliceLine), (s.die a).copy? line = some l → l.line = line → l.kind = .copy → h ≠ a →
    s.homeOf line = h.val → Settled s a line →
    let hz := max l.wts l.rts
    let gone := fun (t : State) => t.updDie a fun x => x.dropKind line .copy
    let a5 : Agent := agent a
    let b5 : Agent := agent b
    exec (.inv h a5 line) s = .next ((gone s).sendMsg a h (.invack h line a5 hz)) ∧
    exec (.binv h a5 line) s = .next ((gone s).sendMsg a h (.back h line a5 hz)) ∧
    (a ≠ b → ∀ st', (l.st = .E → st' = .S) → (l.st = .M → st' = .O) → (l.st ≠ .E → l.st ≠ .M → st' = l.st) →
      let own := (1#5 <<< a.val)
      let rd := (1#5 <<< b.val)
      exec (.fwds h a5 line b5) s = .next (((s.updDie a fun x => x.putLine { l with st := st' }).updDie h fun x => x.updEntry line fun e =>
          if st' = .O then { e with st := .O, shr := e.shr ||| rd } else { e with st := .S, shr := e.shr ||| own ||| rd }).sendMsg a b
        (.data b5 line .S l.data l.wts 0 true))) ∧
    (a ≠ b → exec (.fwdm h a5 line b5) s = .next ((gone (s.sendMsg a b (.data b5 line .M l.data l.wts hz true))).sendMsg a h
      (.invack h line a5 hz))) ∧
    (∀ (hts : Nat), (s.die a).agentTx = [{ line := line, vmid := l.vmid, write := true, data := none, hts := 0, gnt := false, needGnt := false }] → (s.die a).waitLd = [] → (s.die a).waitSt = [] →
      ∃ t, exec (.gnt a5 line hts false) s = .next t ∧ (t.die a).agentTx = [] ∧
        (t.die a).copy? line = some { l with st := .M, rts := max l.rts hts }) ∧
    ∀ w, (s.die a).mirWait = [w] → w.line = line →
      let met := s.updDie a fun x => { x with mirWait := [] }
      (∀ reply, w.reply = some reply → exec (.mack a5 line w.wts) s = .next (met.send (.stdone reply))) ∧
      (w.reply = none → exec (.mack a5 line w.wts) s = .next met)

/-- R127, R128: DATA kind S or E from the home installs the line at the requester, with rts := max(wts, HTS), and its request is complete;
MIRW is merged into the home's copy, raises HTS to its wts and is answered with MACK. -/
def Sys2Proof.Claim.DataInstallsAndMirrors : Prop :=
  ∀ (s : State) (a : Die) (line wts hts vmid : Nat) (d : LineData) (k : DataKind),
    ((s.die a).lines = [] → (s.die a).agentTx = [{ line := line, vmid := vmid, write := false, data := none, hts := 0, gnt := false, needGnt := false }] → (s.die a).waitLd = [] → (s.die a).waitSt = [] → k ≠ .M →
      ∃ t, exec (.data (agent a) line k d wts hts false) s = .next t ∧ (t.die a).agentTx = [] ∧
        ∃ l, (t.die a).copy? line = some l ∧ l.vmid = vmid ∧ (k = .E → l.st = .E) ∧ (k = .S → l.st = .S) ∧ l.wts = wts ∧
          l.rts = max wts hts ∧ l.dirty = false ∧ l.data = d) ∧
    ∀ (h : Die) (e : DirEntry) (l : SliceLine) (mask : BitVec 128), h ≠ a → s.homeOf line = h.val → (s.die h).entry? line = some e →
      e.line = line → e.st = .M → (s.die h).copy? line = none → (s.die h).find? line .mirror = some l → l.line = line →
      l.kind = .mirror → isHostLine line = false → (s.die h).fillWait = [] → s.pending.any (mirwBefore line a wts) = false →
      ∃ (t1 : State) (l' : SliceLine), exec (.mirw h line (agent a) d mask wts) s = .next (t1.sendMsg h a (.mack (agent a) line wts)) ∧
        (t1.die h).entry? line = some { e with hts := max e.hts wts } ∧ (t1.die h).find? line .mirror = some l' ∧ l'.dirty = true ∧
        t1.mem = s.mem ∧
        ∀ i, i < 128 → lineByte l'.data i = if mask.getLsbD i then lineByte d i else lineByte l.data i

/-- The agents: what they answer, and what they install. The model's own choices in it: assumption log 21, 22, 23, 29, 181. -/
def Obligations.AgentsInstallAndAnswer : Prop := Claim.AgentsAnswerTheHome ∧ Claim.DataInstallsAndMirrors

/-- R137, R140: a message between dies is due at once on an active seam; on a sleeping one it is held and wakes the seam; while the seam
wakes or retrains it is held in order; on a seam that is down a message of the protocol is lost, and another arrives at the dead end.
Waking and retraining end with the held messages due in their order, and what waited for a way is tried again. The model's own choices
in it: assumption log 24, 175. -/
def Obligations.SeamsCarryMessages : Prop :=
  ∀ (s : State) (a b : Die) (i : Instr), a.val < b.val →
    let k := seamKey a b
    let m := s.seams.get {} k
    let held := { s with seams := s.seams.put k { m with held := m.held ++ [i] } }
    (m.lstate = 0 → s.sendMsg a b i = { s with pending := s.pending ++ [i] }) ∧
    (m.lstate = 1 → s.sendMsg a b i = { held with pending := s.pending ++ [.seamWake a b] }) ∧
    ((m.lstate = 2 ∨ m.lstate = 3) → s.sendMsg a b i = held) ∧
    (m.lstate = 4 → s.sendMsg a b i = if dieScope i then s else { s with pending := s.pending ++ [i] }) ∧
    (m.lstate = 1 → exec (.seamWake a b) s = .next
      { s with seams := s.seams.put k { m with lstate := 2 }, pending := s.pending ++ [.seamWakeDone a b] }) ∧
    (m.lstate = 2 → exec (.seamWakeDone a b) s = .next
      { s with seams := s.seams.put k { m with lstate := 0, held := [] }, pending := s.pending ++ m.held }) ∧
    (m.lstate = 3 → exec (.seamRetrainComplete a b) s = .next
      { s with seams := s.seams.put k { m with lstate := 0, held := [] }, pending := s.pending ++ m.held }) ∧
    exec (.l2FillResume a) s = .next { s.setDie a { s.die a with fillWait := [] } with pending := s.pending ++ (s.die a).fillWait }

/-! ### Engines, flows and versions at the engines (08 R179-R198, 11 R245-R260) -/

/-- R249 Table 3, R242: the commands that a target takes. -/
def Sys2Proof.Claim.Takes (t : QTarget) (k : CmdKind) : Prop :=
  match t with
  | .shared _ _ => k = .copy ∨ k = .tcopy ∨ k = .put ∨ k = .get ∨ k = .publish ∨ k = .pin ∨ k = .vret ∨ k = .halo ∨ k = .ared
  | .localCtx => k = .copy ∨ k = .tcopy ∨ k = .put ∨ k = .get ∨ k = .publish ∨ k = .pin ∨ k = .vret ∨ k = .close
  | .composer => k = .fcomp
  | .encoder => k = .encf

/-- The context that a queue register's target names (R246). -/
def Sys2Proof.Claim.contextOf (s : State) (r : Role) (t : QTarget) : CtxId :=
  match t with
  | .shared d c => .shared d c
  | .localCtx => .local r.gang r.team
  | .composer => .composer (Fin.ofNat 8 (s.partitionOfCluster (r.core / 48)))
  | .encoder => .encoder (Fin.ofNat 8 (s.partitionOfCluster (r.core / 48)))

/-- A shared context that is enabled and has the role's VMID and ASID (R247, R249), a composer or an encoder that is enabled (R180, R451);
the team's local context needs nothing here. -/
def Sys2Proof.Claim.Admits (s : State) (r : Role) (t : QTarget) : Prop :=
  match t with
  | .shared d c => (s.ctx (.shared d c)).en = true ∧ (s.ctx (.shared d c)).vmid = r.vmid ∧ (s.ctx (.shared d c)).asid = r.asid
  | .localCtx => True
  | .composer => (s.ctx (contextOf s r .composer)).en = true
  | .encoder => (s.ctx (contextOf s r .encoder)).en = true

/-- R249, R242: every command instruction waits for the side-log window; an unbound queue register, a target that takes no such command, a
shared context that is disabled or another tenant's, or an engine that is not enabled raises QUEUE with TADDR 0; else the command issues
with the operands, WVER and SAT it finds, the role continues with D bound to its slot, and the context will accept it. The model's own
choices in it: assumption log 33, 74, 76, 81, 171. -/
def Obligations.CommandsIssue : Prop :=
  ∀ (s : State) (r : Role) (o : FmtQ), Issuing s r →
    ∀ p ∈ ([(.copy o, .copy), (.tcopy o, .tcopy), (.put o, .put), (.get o, .get), (.halo o, .halo), (.ared o, .ared),
        (.publish o, .publish), (.pin o, .pin), (.vret o, .vret), (.fcomp o, .fcomp), (.encf o, .encf), (.close o, .close)] :
        List (Instr × CmdKind)),
      let i := p.1
      let k := p.2
      (s.windowOpen s.cur r = true → exec i s = .next (s.setRole s.cur { r with hold := .window })) ∧
      (s.windowOpen s.cur r = false → r.queues.find o.q.toNat = none → exec i s = .next (s.trap s.cur cQUEUE 0)) ∧
      ∀ t, s.windowOpen s.cur r = false → r.queues.find o.q.toNat = some t →
        (¬(Takes t k ∧ Admits s r t) → exec i s = .next (s.trap s.cur cQUEUE 0)) ∧
        (Takes t k ∧ Admits s r t → ∃ (c : Cmd) (q : Role),
          exec i s = .next { s.setRole s.cur q with
            issued := s.issued ++ [{ rid := s.cur, ctx := contextOf s r t, cmd := c, pc := r.ipc, dst := o.d, ws := o.ws.toNat,
                                     after := (s.core r.core).nextOp }],
            pending := s.pending ++ [.engineCommandAccept (contextOf s r t)] } ∧
          c.kind = k ∧ c.a = r.sreg o.a.num ∧ c.b = r.sreg o.b.num ∧ c.c = r.sreg o.c.num ∧ c.qmod = o.qmod ∧ c.wver = r.wver ∧
          c.sat = r.fmt.getLsbD 3 ∧ c.vmid = r.vmid ∧ c.asid = r.asid ∧ c.rid = s.cur ∧
          RegsKept r q ∧ q.bound = r.bound ++ [(o.d, o.ws.toNat)] ∧
          (∀ w, q.waitCount w = r.waitCount w + if w = o.ws.toNat then 1 else 0) ∧
          { q with bound := r.bound, waits := r.waits } = r.advance)

/-- R246, R247, R252: QBIND binds a queue register to the target that its word names, or unbinds it; a refused kind or action, a shared
context that is disabled or another tenant's, an engine that is not enabled, and an action on another kind raise QUEUE; an action
outside handler mode raises PRIV. -/
def Sys2Proof.Claim.QueueRegistersBind : Prop :=
  ∀ (s : State) (r : Role) (o : FmtQ), Issuing s r →
    let w := (r.sreg o.a.num).toNat
    let kind := w / 2 ^ 60
    let act := w / 2 ^ 58 % 4
    let shared : QTarget := .shared (Fin.ofNat 4 (w / 2 ^ 8)) (Fin.ofNat 256 w)
    let binds := fun (t : QTarget) => Completes (.qbind o) s fun q =>
      (∀ k, q.queues.find k = if k = o.q.toNat then some t else r.queues.find k) ∧ RegsKept r q ∧ { q with queues := r.queues } = r.advance
    let refused := exec (.qbind o) s = .next (s.trap s.cur cQUEUE 0)
    (5 ≤ kind ∨ act = 3 ∨ (act ≠ 0 ∧ kind ≠ 2) → refused) ∧
    (kind = 2 → (act = 1 ∨ act = 2) → r.handler = false → exec (.qbind o) s = .next (s.trap s.cur cPRIV 0)) ∧
    (kind = 2 → (act = 1 ∨ act = 2) → r.handler = true → ∃ t, exec (.qbind o) s = .next t ∧ t.role? s.cur = some r.advance) ∧
    (act = 0 →
      (kind = 0 → Completes (.qbind o) s fun q => { q with queues := r.queues } = r.advance ∧ q.queues = r.queues.del o.q.toNat) ∧
      (kind = 1 → Admits s r shared → binds shared) ∧ (kind = 1 → ¬Admits s r shared → refused) ∧ (kind = 2 → binds .localCtx) ∧
      (kind = 3 → if (s.ctx (contextOf s r .composer)).en = true then binds .composer else refused) ∧
      (kind = 4 → if (s.ctx (contextOf s r .encoder)).en = true then binds .encoder else refused))

/-- R259, R260, R104: VIEWSET sets a view to s[A][31:0], and leaves vw0 alone; WVERSET sets WVER once the window is closed and no store
or atomic of the role is on its way. -/
def Sys2Proof.Claim.ViewsAndWriteVersion : Prop :=
  ∀ (s : State) (r : Role) (o : FmtQ), Issuing s r →
    let k := o.qmod.toNat % 16
    let v := (r.sreg o.a.num).toNat % 2 ^ 32
    (k = 0 → Completes (.viewset o) s fun q => q = r.advance) ∧
    (k ≠ 0 → Completes (.viewset o) s fun q => (∀ j, Sparse.get 0 q.views j = if j = k then v else Sparse.get 0 r.views j) ∧
      { q with views := r.views } = r.advance) ∧
    (s.windowOpen s.cur r = true → exec (.wverset o) s = .next (s.setRole s.cur { r with hold := .window })) ∧
    (s.windowOpen s.cur r = false → s.opsDue s.cur r (fun p _ => p.kind == .store || p.kind == .atomic) = true →
      exec (.wverset o) s = .next (s.setRole s.cur { r with hold := .drain })) ∧
    (s.windowOpen s.cur r = false → s.opsDue s.cur r (fun p _ => p.kind == .store || p.kind == .atomic) = false →
      Completes (.wverset o) s fun q => q.wver = v ∧ { q with wver := r.wver } = r.advance)

/-- R104, R246, R247, R252, R259, R260: queue registers, views and the write version. The model's own choices in it: assumption log 72, 77. -/
def Obligations.BindingsViewsAndVersions : Prop := Claim.QueueRegistersBind ∧ Claim.ViewsAndWriteVersion

/-- R249, R155, R181, R182: a context accepts the command that was issued to it first, once it may, under the number ACCEPTED + 1, writes
that number to D and the slot counts one less; an engine that serves it makes it running, held, or failed by what it meets, and until one
does nothing changes; a command that completes lets the timeline take its number; a failure stops the context with the first failure's
number, code and address. -/
def Sys2Proof.Claim.CommandsRun : Prop :=
  ∀ (s : State) (id : CtxId),
    let x := s.ctx id
    (∀ (q : IssuedCmd) (r : Role) (rest : List IssuedCmd) (d : Die × Fin 256), s.issued = q :: rest → q.ctx = id → s.mayAccept q = true → s.role? q.rid = some r → id = .shared d.1 d.2 →
      q.dst.isScalar = true → ∃ t p, exec (.engineCommandAccept id) s = .next t ∧ t.issued = rest ∧
      (t.ctx id).accepted = x.accepted + 1 ∧ t.role? q.rid = some p ∧
      (∀ k, p.sreg k = if k = q.dst.num then BitVec.ofNat 64 (x.accepted + 1) else r.sreg k) ∧
      (∀ w, p.waitCount w = if w = q.ws then r.waitCount w - 1 else r.waitCount w) ∧
      (t.ctx id).cmds.map (·.n) = x.cmds.map (·.n) ++ [x.accepted + 1] ∧ t.mem = s.mem ∧
      t.pending = s.pending ++ [.engineCommandStart id]) ∧
    (∀ q, x.cmds = [q] → q.st = .accepted → x.err = false → x.dueBy = none →
      (s.served id q = false → exec (.engineCommandStart id) s = .next s) ∧
      (s.served id q = true → ∃ s0 : State, s0 = { s with dies := s0.dies } ∧
        (∀ d, { s0.die d with lastCtx := (s.die d).lastCtx } = s.die d) ∧
        (∀ s1, s0.runCmd id q.cmd q.n = .ok ((), s1) → exec (.engineCommandStart id) s = .next
          ((s1.setEntry id q.n fun e => { e with st := .running }).send (.engineCommandComplete id q.n))) ∧
        (∀ s1, s0.runCmd id q.cmd q.n = .error (.wait, s1) → exec (.engineCommandStart id) s = .next
          (s1.setEntry id q.n fun e => { e with st := .held })) ∧
        ∀ code addr s1, s0.runCmd id q.cmd q.n = .error (.fail code addr, s1) → exec (.engineCommandStart id) s = .next
          ((s1.setEntry id q.n fun e => { e with st := .failed }).send (.engineCommandFail id q.n code addr.toNat)))) ∧
    (∀ q code addr, x.cmds = [q] → q.st = .running → x.err = false → (∀ g t, id ≠ .local g t) →
      ∃ t, exec (.engineCommandFail id q.n code addr) s = .next t ∧ (t.ctx id).err = true ∧ (t.ctx id).failn = q.n ∧
      (t.ctx id).code = code ∧ (t.ctx id).failaddr = BitVec.ofNat 64 addr ∧ (t.ctx id).completed = x.completed ∧ t.mem = s.mem) ∧
    ∀ q s1, x.cmds = [q] → q.st = .running → q.sigs = [] → x.err = false → s.cmdOut id q.n = false →
      let s0 := s.setEntry id q.n fun e => { e with st := .done, sigs := [] }
      s0.engStore id q.cmd .counter 8 q.n (((BitVec.ofNat 57 x.tladdr).signExtend 64).toNat : Int) = .ok ((), s1) →
      (s1.ctx id).cmds = (s0.ctx id).cmds → ∃ t, exec (.engineCommandComplete id q.n) s = .next t ∧ (t.ctx id).completed = q.n ∧ (t.ctx id).cmds = []

/-- R253, R186, R187: COPY is the tensor copy of s[C] / z elements of z bytes with strides of z, and MALFORMED where z does not divide
s[C] or the count is 2^32 or more; an element is converted only with CVT, and element i of a tensor lies at its base plus its tuple
indices times the strides. -/
def Sys2Proof.Claim.CopyIsATensorCopy : Prop :=
  (∀ c : Cmd, let z := 2 ^ (c.qmod.toNat % 4)
    (c.c.toNat % z ≠ 0 ∨ 2 ^ 32 ≤ c.c.toNat / z → copyTensor c = none) ∧
    (c.c.toNat % z = 0 → c.c.toNat / z < 2 ^ 32 → ∃ t, copyTensor c = some t ∧ t.size = c.c.toNat / z ∧ t.sty = t.dty ∧ t.sty.bytes = z ∧
      t.flow = 1 ∧ t.sig = 0 ∧ t.speer = false ∧ t.dpeer = false ∧
      (∀ i, i < t.size → t.pairAt i = (((c.a.toNat + z * i : Nat) : Int), ((c.b.toNat + z * i : Nat) : Int))) ∧
      ∀ sat x, t.value sat x = x % 2 ^ (8 * z))) ∧
  ∀ (t : Tensor) (i c0 c1 : Nat) (s0 s1 d0 d1 : Int), t.counts = [c0, c1] → t.sstrides = [s0, s1] → t.dstrides = [d0, d1] →
    t.size = c0 * c1 ∧ t.pairAt i = (t.src + ((i % c0 : Nat) : Int) * s0 + ((i / c0 % c1 : Nat) : Int) * s1,
      t.dst + ((i % c0 : Nat) : Int) * d0 + ((i / c0 % c1 : Nat) : Int) * d1)

/-- R198: the all-reduce combines the members' elements in rank order, in TYPE or, with ACC96, in af96 with one rounding at the end;
integer addition wraps. -/
def Sys2Proof.Claim.AllReduceInRankOrder : Prop :=
  (∀ (ty : Ty) (op x : Nat) (rest : List Nat), ty.isInt = true → reduceAll ty op false (x :: rest) = rest.foldl (aredCombine ty op) x) ∧
  (∀ (ty : Ty) (a b : Nat), ty.isInt = true → aredCombine ty 0 a b = (a + b) % 2 ^ ty.width ∧
    ty.toInt (aredCombine ty 1 a b) = min (ty.toInt a) (ty.toInt b) ∧ ty.toInt (aredCombine ty 2 a b) = max (ty.toInt a) (ty.toInt b) ∧
    aredCombine ty 3 a b = a &&& b ∧ aredCombine ty 4 a b = a ||| b ∧ aredCombine ty 5 a b = a ^^^ b) ∧
  reduceAll .f64 0 false [0x4340000000000000, 0x3FF0000000000000, 0x3FF0000000000000, 0xC340000000000000] = 0 ∧
  reduceAll .f64 0 true [0x4340000000000000, 0x3FF0000000000000, 0x3FF0000000000000, 0xC340000000000000] = 0x4000000000000000

/-- R186, R187, R198, R253: what a copy moves, and what an all-reduce computes. The model's own choices in it: assumption log 68, 69, 70,
71. -/
def Obligations.TensorCopiesAndReductions : Prop := Claim.CopyIsATensorCopy ∧ Claim.AllReduceInRankOrder

/-- R257, R256, R102, R103, R140: PIN sets, lowers or clears the hold, VRET raises or sets the floor, and a publication raises PUBV, as one
atomic on a word of the region descriptor, placed by the die's snapshot engine; a descriptor with a reserved bit set ends the command with
NOTPRESENT, and one on a dead die with HOME_LOST. -/
def Sys2Proof.Claim.VersionAtomics : Prop :=
  (∀ v x : Nat, v < 2 ^ 32 → x < 2 ^ 64 →
    let hold := fun (y : Nat) => y % 2 ^ 32
    let hen := fun (y : Nat) => y / 2 ^ 32
    (x < 2 ^ 33 → (hold (pinWord 0 v x) = v ∧ hen (pinWord 0 v x) = 1) ∧
      (hold (pinWord 1 v x) = (if hen x = 1 then min (hold x) v else v) ∧ hen (pinWord 1 v x) = 1) ∧
      (hold (pinWord 2 v x) = 0 ∧ hen (pinWord 2 v x) = 0)) ∧
    (vretWord false v x / 2 ^ 32 = max (x / 2 ^ 32) v ∧ vretWord false v x % 2 ^ 32 = x % 2 ^ 32) ∧
    (vretWord true v x / 2 ^ 32 = v ∧ vretWord true v x % 2 ^ 32 = x % 2 ^ 32)) ∧
  ∀ (s : State) (id : CtxId) (c : Cmd) (n : Nat),
    let d := ctxDie id c
    let a := c.a.toNat
    let step := fun (word : Nat) (f : Nat → Nat) => s.regionRmw id c word f
    (c.kind = .pin → s.runCmd id c n = step 1 (pinWord (c.qmod.toNat % 4) (a % 2 ^ 32))) ∧
    (c.kind = .vret → s.runCmd id c n = step 0 (vretWord (c.qmod.getLsbD 0) (a % 2 ^ 32))) ∧
    ∀ ra word f, s.regionAddr? d c.vmid (a / 2 ^ 32 % 2 ^ 16) = some ra →
      (s.homeLost (lineOf ra) = true → step word f = .error (.fail stHOME_LOST (BitVec.ofNat 64 ra), s)) ∧
      ∀ w1 t s1, s.homeLost (lineOf ra) = false → s.readBad d (lineOf ra) = false →
        s.readIn d (ra + 8) 8 0 (max (s.ctx id).pts (s.die d).snapPts) = (w1, t, s1) →
        (2 ^ 33 ≤ w1 → ∃ s2 : State, step word f = .error (.fail stNOTPRESENT (BitVec.ofNat 64 ra), s2) ∧ s2.mem = s1.mem) ∧
        (w1 < 2 ^ 33 → ∀ old w s2, s1.rmwIn d (ra + 8 * word) 8 0 (max (s.ctx id).pts (s.die d).snapPts) f = (old, w, s2) →
          step word f = .ok ((), (s2.tickSnap d w).tickCtx id w))

/-- R155, R182, R249, R256, R257: commands run to their end, and what the version commands write. The model's own choices in it: assumption
log 13, 69, 71, 73, 76, 168, 169, 170. -/
def Obligations.CommandsRunAndSettle : Prop := Claim.CommandsRun ∧ Claim.VersionAtomics

/-- R190, R191: a transfer whose endpoint does not take it fails its command with PERM; an unordered one is delivered on arrival; on an
ordered flow the next one is delivered and NSEQ advances, a later one is held while the buffer keeps a place and refused after, an older
one is dropped and counted. The refused ones come again. The model's own choices in it: assumption log 68, 140, 168. -/
def Obligations.FlowsDeliver : Prop :=
  ∀ (s : State) (t : FlowTransfer),
    let x := s.die t.die
    let e := x.flow t.flow
    let w0 := e.1.toNat
    let opens := t.flow = 1 ∨ (w0 / 2 ^ 63 % 2 = 1 ∧ w0 / 2 ^ 58 % 16 = t.vmid ∧
      ((w0 / 2 ^ 56 % 4 = 3 ∧ w0 / 2 ^ 62 % 2 = 0) ∨
        (w0 / 2 ^ 56 % 4 ≠ 3 ∧ w0 / 2 ^ 56 % 4 = t.srcKind ∧ (t.srcKind = 1 ∨ w0 / 2 ^ 46 % 1024 = t.srcId))))
    let ahead := (t.seq + 2 ^ 32 - w0 % 2 ^ 32) % 2 ^ 32
    (¬opens → exec (.flowTransferReceive t) s = .next (s.failCmd t.ctx t.n 4 t.addr)) ∧
    (opens → (t.flow = 1 ∨ w0 / 2 ^ 62 % 2 = 0) → exec (.flowTransferReceive t) s = .next (s.deliver t)) ∧
    (opens → t.flow ≠ 1 → w0 / 2 ^ 62 % 2 = 1 →
      (ahead = 0 → x.flowHeld = [] →
        let s0 := s.setFlow t.die t.flow (withField e.1 0 32 (w0 % 2 ^ 32 + 1), e.2)
        (withField e.1 0 32 (w0 % 2 ^ 32 + 1)).toNat = w0 / 2 ^ 32 * 2 ^ 32 + (w0 + 1) % 2 ^ 32 ∧
        (((s0.deliver t).die t.die).flowHeld = [] → exec (.flowTransferReceive t) s = .next (s0.deliver t))) ∧
      (2 ^ 31 ≤ ahead → exec (.flowTransferReceive t) s = .next (s.countError t.die 0x6318)) ∧
      (ahead ≠ 0 → ahead < 2 ^ 31 → x.flowHeld.length + x.podHeld.length < 511 →
        exec (.flowTransferReceive t) s = .next (s.setDie t.die { x with flowHeld := x.flowHeld ++ [t] })) ∧
      (ahead ≠ 0 → ahead < 2 ^ 31 → 511 ≤ x.flowHeld.length + x.podHeld.length →
        exec (.flowTransferReceive t) s = .next (s.setDie t.die { x with flowRefused := x.flowRefused ++ [t] }))) ∧
    exec (.flowResend t.die) s = .next (x.flowRefused.foldl (fun s u => s.sendMsg u.srcId t.die (.flowTransferReceive u))
      (s.setDie t.die { x with flowRefused := [] }))

/-! ### The matrix engine and accumulator lines (12 R280-R282, 14 R311-R324, 15 R326-R335, R462) -/

/-- R312 Table 2 with step 2 of R327: the operand pairs that MMA (0), MMAS (1) and MMAB (2) take. -/
def Sys2Proof.Claim.PairTaken (kind : Nat) (a b : Ty) : Prop :=
  (kind = 2 ∧ a = .b1 ∧ b = .b1) ∨
  (kind < 2 ∧ ((a = .f64 ∧ b = .f64) ∨ (a = .f32 ∧ b = .f32) ∨ ((a = .bf16 ∨ a = .f16) ∧ (b = .bf16 ∨ b = .f16)) ∨
    ((a = .e4m3 ∨ a = .e5m2) ∧ (b = .e4m3 ∨ b = .e5m2)) ∨ ((a = .i8 ∨ a = .n8) ∧ (b = .i8 ∨ b = .n8 ∨ (kind = 0 ∧ b = .t2)))))

/-- The type of B: FMT.MBTYPE with MBEN, else TYPE (R312). -/
def Sys2Proof.Claim.typeOfB (r : Role) (o : FmtX) : Ty :=
  if r.fmt.getLsbD 8 then tyOfCode (r.fmt.toNat / 2 ^ 4 % 16) else o.ty

/-- R313, R314, R316, R318, R323, R326, R328: an accumulation instruction that passes the checks of R327 issues: it captures A from the
register or the latch, the flow word with bit 63 replaced by ORD, and the slot elements that it takes; the slots move on, the latch takes
A with REUSE and empties without, and the role goes on. No register, mask, CC, FPSTAT or AMAX changes. -/
def Sys2Proof.Claim.MatrixInstructionsIssue : Prop :=
  ∀ (s : State) (r : Role) (o : FmtX), Issuing s r →
    ∀ p ∈ ([(.mma o, 0), (.mmas o, 1), (.mmab o, 2)] : List (Instr × Nat)),
      let i := p.1
      let kind := p.2
      let bt := typeOfB r o
      let k := r.nlanes / 8 * (64 / o.ty.width)
      let c := r.sreg o.sc.toNat
      let sn := ((r.sreg o.sn.toNat).toNat : Int)
      ∀ (x y : Stream), r.streams.find o.sp.toNat = some x → (kind = 1 → r.streams.find ((o.sp.toNat + 1) % 4) = some y) →
      let panels := k / 8
      let words := if kind = 1 then (panels + 63) / 64 else 0
      let bitmap := y.elems y.pos words
      let bits := bitmap.map (s.tileRead r 8)
      let live := if kind = 1 then (List.range panels).filter fun q => (bits.getD (q / 64) 0).getLsbD (q % 64) else []
      let idx := if kind = 1 then y.elems (y.pos + words) (2 * live.length) else []
      let n := if kind = 1 then 64 * live.length else (k + blockK bt - 1) / blockK bt * 16
      let vals := x.elems x.pos n
      r.nlanes % 8 = 0 → PairTaken kind o.ty bt → (kind = 1 → k % 8 = 0) → x.dir = false → x.ty = bt →
      (kind = 1 → y.dir = false ∧ y.ty = .n64) → canonical c = true → c.toNat % 2048 = 0 →
      s.tileFail r 8 bitmap = none → s.tileCheck r bitmap = (none, s) → s.tileFail r 8 idx = none → s.tileFail r bt.bytes vals = none →
      s.tileBusy s.cur r 8 (bitmap ++ idx) = false → s.tileBusy s.cur r bt.bytes vals = false →
      ∀ s1 s2 m spot, (o.cnt = 0 → s1 = s) →
      (o.cnt = 1 → s.issueCause r .counter sn 8 8 = none ∧ s.spot r .counter none false sn.toNat 8 = (.ok spot, s1)) →
      s1.loggedClear s.cur r c.toNat 2048 = false → (s1.core r.core).jobs.length < 4 → (s1.core r.core).refused.length < 32 →
      s1.spot r .reduction none false c.toNat 16 = (.ok (.mem m), s2) →
      ∃ (j : MatJob) (q : Role), exec i s = .next
        (((s2.updCore r.core fun z => { z with jobs := z.jobs ++ [j] }).send (.matrixBReadsDone r.core)).setRole s.cur q) ∧
        j.rid = s.cur ∧ j.ty = o.ty ∧ j.bt = bt ∧ j.k = k ∧ j.w = r.nlanes / 8 ∧ j.panels = live ∧ j.sparse = (kind == 1) ∧
        j.binary = (kind == 2) ∧ j.binAnd = o.xmod.getLsbD 0 ∧ j.line = lineOf m.pa ∧ j.va = c.toNat ∧ j.logEntry = none ∧ j.readsDone = false ∧
        j.bAddrs = (idx ++ vals).map (fun e => e.map Int.toNat) ∧ j.active = r.mask 0 &&& r.mask o.mask.toNat &&& lowLanes r.nlanes ∧
        j.counter = (if o.cnt = 1 then some sn.toNat else none) ∧
        j.flow.getLsbD 63 = (o.ord == 1) ∧ (∀ b, b < 63 → j.flow.getLsbD b = (r.sreg o.sf.toNat).getLsbD b) ∧
        ((∀ ws, r.latch ≠ some (o.d, ws)) → j.a = (List.range r.nlanes).map (r.vreg o.d.num)) ∧
        (∀ ws, r.latch = some (o.d, ws) → j.a = ws) ∧
        q.latch = (if o.reuse = 1 then some (o.d, j.a) else none) ∧
        q.streams.find o.sp.toNat = some { x with pos := max x.pos (min (x.pos + n) x.len) } ∧
        (kind = 1 → q.streams.find ((o.sp.toNat + 1) % 4) =
          some { y with pos := max y.pos (min (y.pos + words + 2 * live.length) y.len) }) ∧
        RegsKept r q ∧ q.masks = r.masks ∧ q.cc = r.cc ∧ q.fpstat = r.fpstat ∧ q.amax = r.amax ∧
        (r.tack = none → r.tackLast = false → { q with streams := r.streams, latch := r.latch } = r.advance)

/-- R327: the first checks of an accumulation instruction in their order, each with its cause and TADDR, and nothing of the instruction
takes effect. -/
def Sys2Proof.Claim.MatrixIssueChecks : Prop :=
  ∀ (s : State) (r : Role) (o : FmtX), Issuing s r →
    ∀ p ∈ ([(.mma o, 0), (.mmas o, 1), (.mmab o, 2)] : List (Instr × Nat)),
      let i := p.1
      let kind := p.2
      let bt := typeOfB r o
      let k := r.nlanes / 8 * (64 / o.ty.width)
      let c := r.sreg o.sc.toNat
      let illegal := exec i s = .next (s.trap s.cur cILLEGAL 0)
      let slotOk := fun (n : Nat) (t : Ty) => ∃ x, r.streams.find n = some x ∧ x.dir = false ∧ x.ty = t
      let slots := slotOk o.sp.toNat bt ∧ (kind = 1 → slotOk ((o.sp.toNat + 1) % 4) .n64)
      let first := r.nlanes % 8 = 0 ∧ PairTaken kind o.ty bt ∧ (kind = 1 → k % 8 = 0) ∧ slots
      (¬first → illegal) ∧ (first → canonical c = false → exec i s = .next (s.trap s.cur cNONCANON c)) ∧
      (first → canonical c = true → c.toNat % 2048 ≠ 0 → exec i s = .next (s.trap s.cur cALIGN c))

/-- The issue of a matrix instruction: its checks and its job. -/
def Obligations.MatrixIssue : Prop := Claim.MatrixInstructionsIssue ∧ Claim.MatrixIssueChecks

/-- R280, R311, R317: the integer results are exact sums of the products of active lanes over K, saturated to ai96; those of MMAB count
the bits of a XOR b or a AND b; the 16 updates carry output element (q div 2, 8 (q mod 2) + m) in slot m of line q. -/
def Obligations.MatrixResults : Prop :=
  (∀ (j : MatJob) (i c : Nat), j.isFloat = false → j.sparse = false → 0 < j.k →
    let e := 64 / j.ty.width
    let lane := fun (k : Nat) => i * j.w + k / e
    let a := fun (k : Nat) => asInt (j.aElem i k).2.1
    let b := fun (k : Nat) => asInt (j.bDense k c).1
    let sum := ((List.range j.k).map fun k => if j.active.getLsbD (lane k) then a k * b k else 0).sum
    (j.element i c).val = some (.ai (BitVec.ofInt 96 (max (-(2 ^ 95)) (min (2 ^ 95 - 1) sum)))) ∧ (j.element i c).slot = Fin.ofNat 8 c) ∧
  (∀ (j : MatJob) (i c : Nat),
    let one := fun (n : Nat) => if j.binAnd then j.a.getD (i * j.w + n) 0 &&& j.bWords.getD (n * 16 + c) 0
      else j.a.getD (i * j.w + n) 0 ^^^ j.bWords.getD (n * 16 + c) 0
    let bitsOf := fun (n : Nat) => if j.active.getLsbD (i * j.w + n) then ((List.range 64).filter fun t => (one n).getLsbD t).length else 0
    (j.bitElement i c).val = some (.ai (BitVec.ofNat 96 ((List.range j.w).map bitsOf).sum))) ∧
  ∀ (j : MatJob) (core first p q m : Nat), q < 16 → m < 8 → ∃ u, (j.updates core first p)[q]? = some u ∧ u.line = first + q ∧
    u.va = j.va + 128 * q ∧ u.ord = j.flow.getLsbD 63 ∧ u.seq.toNat = j.flow.toNat % 2 ^ 16 ∧
    u.parts[m]? = some (if j.binary then j.bitElement (q / 2) (8 * (q % 2) + m) else j.element (q / 2) (8 * (q % 2) + m))

/-- R280, the worked order of 12 Table 8: 2^82 and three ones, then −2^82, sum to 4 in af96 with NX; the scaled product of 1 and 1 under
scales 128 and 127 is 2, and a NaN scale gives a NaN. -/
def Obligations.OrderInTheBits : Prop :=
  let one : FVal := .fin false 1 0
  let zero : FVal := .fin false 0 0
  let g0 := groupSum [.fin false 1 82, one, one, one, zero, zero, zero, zero]
  let g1 := groupSum [.fin true 1 82, zero, zero, zero, zero, zero, zero, zero]
  g0 = (0x405100000000000000000001, flNX) ∧ g1.2 = 0 ∧ addGroups [g0, g1] = some (0x400100000000000000000000, flNX) ∧
  (scaledProduct (.flt one) (.flt one) (some 128) (some 127)) = .fin false 1 1 ∧
  (scaledProduct (.flt one) (.flt one) (some 255) none).isNan = true ∧ groupSum [.inf false, .inf true] = (Fmt.nanBits .af96, flINV)

/-- A 96-bit pattern read signed. -/
def Sys2Proof.Claim.signed96 (n : Nat) : Int := if n < 2 ^ 95 then (n : Int) else (n : Int) - 2 ^ 96

/-- R166, R281, R320, R462: a slot's 128 bits hold TAG, flags, NSEQ and value; a reduction gives a cleared slot its kind and value, adds
or compares in a slot of its kind, sets INV and drops the value in one of another kind; in an ordered flow the expected sequence is
applied and NSEQ advances, an early one is held, and a stale one is dropped with INV. -/
def Sys2Proof.Claim.SlotArithmetic : Prop :=
  (∀ x : Slot, x.tag < 256 → x.rsv < 16 → x.nseq < 2 ^ 16 → x.val < 2 ^ 96 → Slot.ofNat x.toNat = x ∧ x.toNat < 2 ^ 128 ∧
    x.toNat / 2 ^ 120 = x.tag ∧ x.toNat / 2 ^ 96 % 2 ^ 16 = x.nseq ∧ x.toNat % 2 ^ 96 = x.val) ∧
  ∀ (x : Slot) (q : AccPart) (op : RedOp) (v : BitVec 96), x.val < 2 ^ 96 → q.nx = false → q.ovf = false → q.inv = false →
    (q.val = none → x.apply q op = x) ∧
    (q.val = some (.ai v) → x.tag = 0 → x.apply q op = { x with tag := 2, val := v.toNat }) ∧
    (q.val = some (.ai v) → x.tag = 2 →
      let sum := signed96 x.val + v.toInt
      let kept := max (-(2 ^ 95)) (min (2 ^ 95 - 1) sum)
      let beyond96 := decide (sum < -(2 ^ 95) ∨ 2 ^ 95 - 1 < sum)
      (op = .add → signed96 (x.apply q op).val = kept ∧ (x.apply q op).sat = (x.sat || beyond96) ∧
        { x.apply q op with val := x.val, sat := x.sat } = x) ∧
      (op = .min → signed96 (x.apply q op).val = min (signed96 x.val) v.toInt ∧ { x.apply q op with val := x.val } = x) ∧
      (op = .max → signed96 (x.apply q op).val = max (signed96 x.val) v.toInt ∧ { x.apply q op with val := x.val } = x)) ∧
    (q.val = some (.ai v) → x.tag ≠ 0 → x.tag ≠ 2 → x.apply q op = { x with inv := true }) ∧
    (q.val = some (.af v) → (Fmt.decode .af96 v.toNat).isNan = false →
      (x.tag = 0 → x.apply q op = { x with tag := 1, val := v.toNat }) ∧
      (x.tag = 1 → op = .fadd → (x.apply q op).val = (fAdd .af96 .rne (Fmt.decode .af96 x.val) (Fmt.decode .af96 v.toNat)).1 ∧
        (x.apply q op).nseq = x.nseq ∧ (x.apply q op).tag = 1) ∧
      (x.tag ≠ 0 → x.tag ≠ 1 → x.apply q op = { x with inv := true })) ∧
    ∀ seq, seq < 2 ^ 16 → x.nseq < 2 ^ 16 →
      let d := (seq + 2 ^ 16 - x.nseq) % 2 ^ 16
      x.accApply q op false seq = .applied (x.apply q op) ∧
      (d = 0 → x.accApply q op true seq = .applied { x.apply q op with nseq := (x.nseq + 1) % 2 ^ 16 }) ∧
      (d ≠ 0 → d < 2 ^ 15 → x.accApply q op true seq = .early) ∧
      (2 ^ 15 ≤ d → x.accApply q op true seq = .stale { x with inv := true })

/-- R150, R320, R321: a line update of one part at its home slice: wts and rts take max(P, rts + 1), the named slot takes what the
sequence gives it and every other byte of the line stays; an early part takes an entry of the reorder buffer, or, when none is free, is
refused to its core, which keeps up to 32, or to the home's seam port where the core is of another die. Core and ports send refused
updates again. -/
def Sys2Proof.Claim.LineUpdatesApply : Prop :=
  ∀ (s s0 s1 : State) (u : LineUpdate) (q : AccPart) (l : SliceLine), s.reachAcc u.line u.vmid = (.ok (.line l s1), s0) → u.parts = [q] →
    l.line = u.line →
    let h := s1.homeOf u.line
    let t := max u.p (l.rts + 1)
    let slot := Slot.ofNat (l.data.toNat / 2 ^ (128 * q.slot.val) % 2 ^ 128)
    let sameBut := fun (d : LineData) => ∀ k, k < 128 → k / 16 ≠ q.slot.val → lineByte d k = lineByte l.data k
    let early := u.ord = true ∧ slot.accApply q u.op true u.seq.toNat = .early
    (u.ord = false → ∃ l' t1, exec (.accLineUpdate u) s = .next t1 ∧ (t1.die h).lines.find? (fun k => k.line == l.line && k.kind == l.kind) = some l' ∧
      l'.wts = t ∧ l'.rts = t ∧ l'.dirty = true ∧ sameBut l'.data ∧
      l'.data.toNat / 2 ^ (128 * q.slot.val) % 2 ^ 128 = (slot.apply q u.op).toNat ∧ (t1.die h).reorder = (s1.die h).reorder ∧
      t1.mem = s1.mem ∧ t1.roles = s1.roles) ∧
    (early → ((s1.die h).heldIn u.line < 256) →
      ∃ t1, exec (.accLineUpdate u) s = .next t1 ∧ (t1.die h).reorder = (s1.die h).reorder ++ [{ update := u }]) ∧
    (early → 256 ≤ ((s1.die h).heldIn u.line) → h = dieOf u.core → (s1.core u.core).refused.length < 32 →
      ∃ t1, exec (.accLineUpdate u) s = .next t1 ∧ (t1.core u.core).refused = (s1.core u.core).refused ++ [u] ∧
        (t1.die h).reorder = (s1.die h).reorder) ∧
    (early → 256 ≤ ((s1.die h).heldIn u.line) → h ≠ dieOf u.core →
      ∃ t1, exec (.accLineUpdate u) s = .next t1 ∧ (t1.die h).portRefused = (s1.die h).portRefused ++ [u] ∧
        (t1.die h).reorder = (s1.die h).reorder ∧ t1.cores = s1.cores) ∧
    ∀ c, ∃ s2 : State, s2 = { s with dies := s2.dies, cores := s2.cores } ∧ (s2.core c).refused = [] ∧
      (∀ p ∈ s2.dies, ∀ v ∈ p.2.portRefused, v.core ≠ c) ∧
      exec (.reductionResend c) s = .next ((s2.sendUpdates (dieOf c) (s.core c).refused).sendAll
        ((s.dies.flatMap fun p => p.2.portRefused.filter fun v => v.core == c).map .accLineUpdate))

/-- R97, R315, R318, R324: the oldest instruction of a core that has not read B reads its elements, and its counter's add follows, or waits
while the counter's page is being moved; the oldest of all sends its sixteen updates and is committed, or leaves them to its side-log
entry where its block's page had faulted. The elements read are ones without an error. -/
def Sys2Proof.Claim.MatrixEngineSteps : Prop :=
  ∀ (s : State) (c : Nat) (j : MatJob) (rest : List MatJob), (s.core c).jobs = j :: rest → j.inRegion = false →
    let more := if (rest.head?.any fun q => q.readsDone && q.counter.isNone) = true then [Instr.matrixResultSend c] else []
    (j.readsDone = true → j.counter = none → j.logEntry = none → exec (.matrixResultSend c) s = .next
      (({ s.updCore c fun k => { k with jobs := rest } with pending := s.pending ++ more } : State).sendUpdates (dieOf c)
        (j.updates c j.line (s.core c).pts))) ∧
    (j.readsDone = true → j.counter = none → ∀ id, j.logEntry = some id → ∃ t, exec (.matrixResultSend c) s = .next t ∧ (t.core c).jobs = rest ∧
      (t.core c).log = (s.core c).log.map (fun e => if e.id = id ∧ e.rid = j.rid then
        { e with body := .updates j.va (j.updates c 0 0) } else e) ∧ t.pending = s.pending ++ more) ∧
    ((j.readsDone = false ∨ j.counter ≠ none) → exec (.matrixResultSend c) s = .next s) ∧
    (∀ a, rest = [] → j.readsDone = true → j.counter = some a → s.matCount j a = none →
      exec (.matrixBReadsDone c) s = .next ((s.send (.matrixBReadsDone c)).send (.matrixResultSend c))) ∧
    (∀ a s1 made, rest = [] → j.readsDone = true → j.counter = some a → s.matCount j a = some (s1, made) →
      exec (.matrixBReadsDone c) s = .next ((s1.updCore c fun k => k.updJob 0 fun q => { q with counter := none, counted := made }).send
        (.matrixResultSend c))) ∧
    ((∀ q ∈ rest, q.readsDone = false) → j.readsDone = false → j.counter = none → ∀ r, s.role? j.rid = some r →
      s.tileCheck r (j.bAddrs.map fun a => a.map fun (x : Nat) => (x : Int)) = (none, s) →
      ∃ t j', exec (.matrixBReadsDone c) s = .next t ∧ (t.core c).jobs = j' :: rest ∧ j'.readsDone = true ∧
        { j' with readsDone := false, bWords := j.bWords } = j ∧ j'.bWords.length = j.bAddrs.length ∧ t.mem = s.mem ∧ t.roles = s.roles ∧
        t.pending = s.pending ++ [.matrixResultSend c])

/-- The matrix engine and the line updates that it sends. The model's own choices in it: assumption log 56, 60, 61, 62, 167. -/
def Obligations.MatrixEngineAndLines : Prop := Claim.LineUpdatesApply ∧ Claim.MatrixEngineSteps

/-- R332, R319: MSCALE.reset makes every scale 0x7F; the other forms read 768, 256 or 512 bytes of ordinary loads into their part of the
store, byte for byte. Nothing else of the role changes. -/
def Sys2Proof.Claim.ScaleStore : Prop :=
  ∀ (s : State) (r : Role) (o : FmtX), Issuing s r →
    let ea := ((r.sreg o.sc.toNat).toNat : Int)
    let m := o.xmod.toNat % 4
    (m = 3 → Completes (.mscale o) s fun q => (∀ b, Sparse.get 0x7F#8 q.scale b = 0x7F#8) ∧ { q with scale := r.scale } = r.advance) ∧
    ∀ n lo, (m = 0 ∧ n = 96 ∧ lo = 0) ∨ (m = 1 ∧ n = 32 ∧ lo = 0) ∨ (m = 2 ∧ n = 64 ∧ lo = 256) →
      (∀ c, s.issueCause r .load ea 8 64 = some c → exec (.mscale o) s = .next (s.trap s.cur c (BitVec.ofInt 64 ea))) ∧
      (s.issueCause r .load ea 8 64 = none → s.overlapsLog s.cur r ea.toNat (8 * n) = false → s.busyOps s.cur r = false →
        ∀ xs vs s1 s2, s.spots r .load 8 8 ((List.range n).map fun (i : Nat) => ea + 8 * (i : Int)) = (.ok xs, s1) →
        s1.readSpots r 8 xs = (.ok vs, s2) → vs.length = n → ∃ q, exec (.mscale o) s = .next (s2.setRole s.cur q) ∧
        { q with scale := r.scale } = r.advance ∧
        ∀ b, Sparse.get 0x7F#8 q.scale b = if lo ≤ b ∧ b < lo + 8 * n then BitVec.ofNat 8 (vs.getD ((b - lo) / 8) 0 / 2 ^ (8 * ((b - lo) % 8)))
          else Sparse.get 0x7F#8 r.scale b)

/-- Accumulator slots and the scale store. -/
def Obligations.SlotsAndScale : Prop := Claim.SlotArithmetic ∧ Claim.ScaleStore

/-- R333, R334: ACCCLR, ACCSEQ and ACCFL wait for the window and for the role's earlier accesses and reductions to the lines, and then send
one access for each line of the block, or for the one line; the role goes on. -/
def Sys2Proof.Claim.AccumulatorWritesIssue : Prop :=
  ∀ (s : State) (r : Role) (o : FmtX), Issuing s r →
    ∀ p ∈ ([(.accclr o, .clr), (.accseq o, .setSeq (BitVec.ofNat 16 (r.sreg o.sf.toNat).toNat)), (.accfl o, .flush)] : List (Instr × AccAccess)),
      let i := p.1
      let ea := ((r.sreg o.sc.toNat).toNat : Int)
      let n := if o.xmod.getLsbD 0 then 1 else 16
      (∀ c, s.issueCause r .accWrite ea (128 * n) (128 * n) = some c → exec i s = .next (s.trap s.cur c (BitVec.ofInt 64 ea))) ∧
      (s.issueCause r .accWrite ea (128 * n) (128 * n) = none →
        (s.windowOpen s.cur r = true → exec i s = .next (s.setRole s.cur { r with hold := .window })) ∧
        (s.windowOpen s.cur r = false →
          s.opsDue s.cur r (fun p e => decide (e.va < ea.toNat + 128 * n) && decide (ea.toNat < e.va + p.ty.bytes)) = false →
          s.jobAt s.cur r ea.toNat (128 * n) = false → ∀ m s1, s.spot r .accWrite none false ea.toNat 16 = (.ok (.mem m), s1) →
          s1.reductionOut s.cur r (fun l => decide (lineOf m.pa ≤ l) && decide (l < lineOf m.pa + n)) = false →
          ∃ s2 : State, s2.role? s.cur = some r.advance ∧ s2 = { s1 with roles := s2.roles, cores := s2.cores } ∧
            exec i s = .next ((List.range n).foldl (fun t q => t.sendMsg (dieOf r.core) (t.homeOf (lineOf m.pa + q)) (.accumulatorAccess
              { line := lineOf m.pa + q, vmid := r.vmid, core := r.core, rid := s.cur, op := (s1.core r.core).nextOp, slots := allSlots,
                lanes := [], acc := p.2, p := (s1.core r.core).pts, pc := r.ipc, va := ea.toNat + 128 * q })) s2)))

/-- R206, R335: ACCRD with no lane to read changes nothing; else it waits for the role's reductions to the slots it reads, binds its
destination and asks for its first line, at its home. -/
def Sys2Proof.Claim.AccumulatorReadsIssue : Prop :=
  ∀ (s : State) (r : Role) (o : FmtX), Issuing s r →
    let ea := ((r.sreg o.sc.toNat).toNat : Int)
    let n := if o.d.isScalar then 16 else if o.xhi = 1 then 128 else 2048
    let lanes := if o.d.isScalar then [0] else (r.active o.mask).filter fun l => decide (l < if o.xhi = 1 then 8 else 128)
    let bound := fun (q : Role) => RegsKept r q ∧ q.bound = r.bound ++ [(o.d, o.ws.toNat)] ∧
      { q with bound := r.bound, waits := r.waits } = r.advance
    let first := ea.toNat + 16 * lanes.headD 0
    (∀ c, s.issueCause r .accRead ea n n = some c → exec (.accrd o) s = .next (s.trap s.cur c (BitVec.ofInt 64 ea))) ∧
    (s.issueCause r .accRead ea n n = none → lanes = [] → Completes (.accrd o) s fun q => q = r.advance) ∧
    (s.issueCause r .accRead ea n n = none → lanes ≠ [] → s.overlapsLog s.cur r ea.toNat n = false → s.loggedRed s.cur r ea.toNat n = false →
      s.opsDue s.cur r (fun p e => p.kind == .accWrite && decide (e.va < ea.toNat + n) && decide (ea.toNat < e.va + 8)) = false →
      s.jobAt s.cur r ea.toNat n = false →
      ∀ m s1, s.spot r .accRead none false first 16 = (.ok (.mem m), s1) →
        let place := fun (l : Nat) => canonPA (m.pa / 2 ^ 16 * 2 ^ 16 + (ea.toNat + 16 * l) % 2 ^ 16)
        let reads := fun (k : Nat) (js : List (Fin 8)) => lanes.any fun l =>
          place l / 128 == k && js.contains (Fin.ofNat 8 (place l % 128 / 16))
        (s1.reductionDue s.cur r reads = true → exec (.accrd o) s = .next (s1.setRole s.cur { r with hold := .drain })) ∧
        (s1.reductionDue s.cur r reads = false → ∃ (s2 : State) (q : Role) (a : AccReq),
          exec (.accrd o) s = .next (s2.sendMsg (dieOf r.core) (s.homeOf a.line) (.accumulatorAccess a)) ∧
          s2.role? s.cur = some q ∧ bound q ∧ (∀ w, q.waitCount w = r.waitCount w + if w = o.ws.toNat then 1 else 0) ∧
          s2 = { s1 with roles := s2.roles, cores := s2.cores } ∧ a.acc = .read ∧ a.line = place (lanes.headD 0) / 128))

/-- R334, R335, R322: at the home slice a clear makes the slots' 128 bits 0 and ACCSEQ sets NSEQ alone, and each discards the parts held
for them; a read gives each tag its conversion, 0 for an empty slot, and the canonical NaN or 0 with INV for a reserved tag; .st gives
TAG, flags and NSEQ. -/
def Sys2Proof.Claim.SlotAccessEffects : Prop :=
  (∀ (s s0 s1 : State) (m : AccReq) (l : SliceLine) (acc : AccAccess), m.acc = acc → s.reachAcc m.line m.vmid = (.ok (.line l s1), s0) →
    l.line = m.line → m.slots = allSlots → ((s1.core m.core).ops.find m.op) = none →
    let h := s1.homeOf m.line
    let line := fun (t : State) => (t.die h).lines.find? fun k => k.line == l.line && k.kind == l.kind
    (acc = .clr → ∃ t l', exec (.accumulatorAccess m) s = .next t ∧ line t = some l' ∧ l'.data = 0 ∧ l'.wts = max m.p (l.rts + 1) ∧
      l'.dirty = true ∧ ∀ x ∈ (t.die h).reorder, x.update.line ≠ m.line) ∧
    (∀ q, acc = .setSeq q → ∃ t l', exec (.accumulatorAccess m) s = .next t ∧ line t = some l' ∧
      (∀ j, j < 8 → slotOf l'.data j = { slotOf l.data j with nseq := q.toNat }) ∧ ∀ x ∈ (t.die h).reorder, x.update.line ≠ m.line) ∧
    (acc = .read → ∃ t l', exec (.accumulatorAccess m) s = .next t ∧ line t = some l' ∧ l'.data = l.data ∧ l'.wts = l.wts ∧
      l'.rts = max l.rts m.p ∧ t.mem = s1.mem)) ∧
  (∀ (s : State) (m : AccReq), m.acc = .flush → ((s.die (s.homeOf m.line)).find? m.line .acc) = none →
    (s.core m.core).ops.find m.op = none → ∃ t, exec (.accumulatorAccess m) s = .next t ∧ t.mem = s.mem ∧ t.dies = s.dies) ∧
  ∀ (ty : Ty) (mode : RMode) (sat : Bool) (x : Slot), x.tag < 256 → x.rsv < 16 → x.nseq < 2 ^ 16 → x.val < 2 ^ 96 →
    let bits := x.toNat
    accRead ty mode true sat bits = (BitVec.ofNat 64 (bits / 2 ^ 96), 0) ∧
    (x.tag = 0 → accRead ty mode false sat bits = (0, 0)) ∧
    (x.tag = 1 → accRead ty mode false sat bits =
      (BitVec.ofNat 64 (convert ty mode sat (.flt (Fmt.decode .af96 x.val))).1, (convert ty mode sat (.flt (Fmt.decode .af96 x.val))).2)) ∧
    (x.tag = 2 → (accRead ty mode false sat bits).1 = BitVec.ofNat 64 (convert ty mode sat (.int (if x.val < 2 ^ 95 then (x.val : Int)
      else (x.val : Int) - 2 ^ 96))).1) ∧
    (2 < x.tag → (accRead ty mode false sat bits).2 = flINV ∧ ∀ f, ty.fmt? = some f → (accRead ty mode false sat bits).1 =
      BitVec.ofNat 64 f.nanBits) ∧ (2 < x.tag → ty.fmt? = none → (accRead ty mode false sat bits).1 = 0)

/-- The accumulator instructions and what their accesses do. The model's own choices in it: assumption log 65, 67. -/
def Obligations.AccumulatorAccess : Prop := Claim.AccumulatorWritesIssue ∧ Claim.AccumulatorReadsIssue ∧ Claim.SlotAccessEffects

/-! ### Beam queries (16 R338-R358, 17 R359-R370) -/

/-- s[D] took `v`; D is bound to the slot, which counts as before, and the role stands past the word (R31, R32). -/
def Sys2Proof.Claim.Answered (r q : Role) (d : RegName) (ws : BitVec 3) (v : Word) : Prop :=
  (∀ n, q.sreg n = if n = d.num then v else r.sreg n) ∧ q.bound = r.bound ++ [(d, ws.toNat)] ∧
  (∀ w, q.waitCount w = r.waitCount w) ∧ { q with sregs := r.sregs, bound := r.bound, waits := r.waits } = r.advance

/-- A handle word is current for number `n` (R359). -/
def Sys2Proof.Claim.Current (r : Role) (h : Word) (n : Nat) : Prop :=
  h.toNat < 2 ^ 20 ∧ h.toNat % 16 = n ∧ (r.beamHeld.find n).isSome = true ∧ Sparse.get 0 r.beamGen n = h.toNat / 16

/-- R361, R362, R364, R366, R367, R369: BSET sets LIMIT; BPROC, BSAVE and BABORT wait for the side-log window. BRES gives EVENT 0 for a
stale handle, holds or gives EVENT 1 while the query runs, and gives COMPLETE, freeing the number, or PROC; with .addr the kept address.
BPROC answers a query whose event is PROC and has no effect else; BSAVE answers 2 for a stale handle and 1 for a query that is over, and
else the query is to stop; BABORT marks its query. The model's own choices in it: assumption log 58, 134. -/
def Obligations.BeamInstructions : Prop :=
  ∀ (s : State) (r : Role) (o : FmtQ), Issuing s r → r.ended = false →
    let h := r.sreg o.a.num
    let n := h.toNat % 16
    let b := r.sreg o.b.num
    let stale := ¬Current r h n
    let x := h.toNat % 32
    let closed := s.windowOpen s.cur r = false
    let answers := fun (i : Instr) (r : Role) (v : Word) => Completes i s fun q => Answered r q o.d o.ws v
    (Completes (.bset o) s fun q => q = { r.advance with beamLimit := if 1 ≤ x ∧ x ≤ 16 then x else 16 }) ∧
    (∀ i ∈ [Instr.bq o, .bresume o, .bproc o, .bsave o, .babort o], s.windowOpen s.cur r = true →
      exec i s = .next (s.setRole s.cur { r with hold := .window })) ∧
    (stale → answers (.bres o) r 0) ∧
    (∀ e, ¬stale → r.beamHeld.find n = some e →
      (e = .running → if o.qmod.getLsbD 0 then answers (.bres o) r 0x1000000000000000
        else exec (.bres o) s = .next (s.setRole s.cur { r with hold := .event n })) ∧
      (∀ st cause a kids recs, e = .complete st cause a kids recs → st < 16 → cause < 256 → kids < 256 → recs < 65536 →
        (o.qmod.getLsbD 1 = false → answers (.bres o) { r with beamHeld := r.beamHeld.del n }
          (BitVec.ofNat 64 (2 * 2 ^ 60 + st * 2 ^ 56 + cause * 2 ^ 48 + kids * 2 ^ 16 + if st = 5 then 0 else recs))) ∧
        (o.qmod.getLsbD 1 = true → answers (.bres o) r (if st = 4 then a else 0))) ∧
      ∀ ray prim, e = .proc ray prim → ray < 256 → prim < 2 ^ 32 →
        answers (.bres o) r (if o.qmod.getLsbD 1 then 0 else BitVec.ofNat 64 (3 * 2 ^ 60 + ray * 2 ^ 32 + prim))) ∧
    (closed → (stale ∨ ∀ ray prim, r.beamHeld.find n ≠ some (.proc ray prim)) → Completes (.bproc o) s fun q => q = r.advance) ∧
    (closed → ¬stale → ∀ ray prim p k y, r.beamHeld.find n = some (.proc ray prim) → s.queryOf s.cur r n = some (k, y) → y.phase = .proc p →
      ∃ t, exec (.bproc o) s = .next t ∧ t.role? s.cur = some { r.advance with beamHeld := r.beamHeld.put n .running } ∧ t.mem = s.mem ∧
        (t.core r.core).queries.find k = some (y.answer p (if o.qmod.getLsbD 0 then none else some (b.extractLsb' 0 32)))) ∧
    (closed → ¬(b.toNat < 2 ^ 56 ∨ 2 ^ 64 - 2 ^ 56 ≤ b.toNat) → exec (.bsave o) s = .next (s.trap s.cur cNONCANON b)) ∧
    (closed → (b.toNat + 512 ≤ 2 ^ 56 ∨ (2 ^ 64 - 2 ^ 56 ≤ b.toNat ∧ b.toNat + 512 ≤ 2 ^ 64)) →
      (b.toNat % 512 ≠ 0 → exec (.bsave o) s = .next (s.trap s.cur cALIGN b)) ∧
      (b.toNat % 512 = 0 →
        (stale → answers (.bsave o) r 2) ∧ (¬stale → s.queryOf s.cur r n = none → answers (.bsave o) r 1) ∧
        ∀ k y, ¬stale → s.queryOf s.cur r n = some (k, y) → y.saveTo = none → ∃ t q, exec (.bsave o) s = .next t ∧
          t.role? s.cur = some q ∧ q.bound = r.bound ++ [(o.d, o.ws.toNat)] ∧ { q with bound := r.bound, waits := r.waits } = r.advance ∧
          (∀ w, q.waitCount w = r.waitCount w + if w = o.ws.toNat then 1 else 0) ∧ t.mem = s.mem ∧
          (t.core r.core).queries.find k = some { y with saveTo := some (b.toNat, o.d, o.ws.toNat) })) ∧
    (closed → stale → Completes (.babort o) s fun q => q = r.advance) ∧
    (closed → ¬stale → ∀ k y, s.queryOf s.cur r n = some (k, y) → ∃ t, exec (.babort o) s = .next t ∧
      t.role? s.cur = some { r.advance with beamHeld := r.beamHeld.put n .running } ∧ t.mem = s.mem ∧
      (t.core r.core).queries.find k = some { y with aborted := true })

/-- R359, R363, R368: BQ and BRESUME check the address, wait for room under LIMIT and in the core's unit, and start a query under the lowest free
number, whose generation skips 0; D takes the handle, and the unit has the query, with the status that its records give it; a query resumed at a procedural leaf has the
event PROC, every other runs. -/
def Sys2Proof.Claim.QueriesStart : Prop :=
  ∀ (s : State) (r : Role) (o : FmtQ), Issuing s r → s.windowOpen s.cur r = false →
    let a := r.sreg o.a.num
    let k := s.core r.core
    let s0 := s.tick k.pts
    let q0 : Query := { rid := s.cur, handle := 0, gang := r.gang, vmid := r.vmid, asid := r.asid, wver := r.wver,
                        who := (s.originOf r).1, part := (s.originOf r).2 }
    let fray := o.qmod.getLsbD 0
    let small := k.queries.length < 16 ∧ r.beamHeld.length < r.beamLimit
    ∀ p ∈ ([(.bq o, if fray then 64 else 128, s0.loadQuery r.core r fray q0 a.toNat), (.bresume o, 512, s0.loadSpill r.core r q0 a.toNat)] :
        List (Instr × Nat × BeamLoad)),
      let i := p.1
      let z := p.2.1
      let read := p.2.2
      (2 ^ 56 ≤ a.toNat → a.toNat < 2 ^ 64 - 2 ^ 56 → exec i s = .next (s.trap s.cur cNONCANON a)) ∧
      ((a.toNat + z ≤ 2 ^ 56 ∨ (2 ^ 64 - 2 ^ 56 ≤ a.toNat ∧ a.toNat + z ≤ 2 ^ 64)) →
        (a.toNat % z ≠ 0 → exec i s = .next (s.trap s.cur cALIGN a)) ∧
        (a.toNat % z = 0 → (∀ p ∈ k.opsOf s.cur, p.2.inOrder = false) →
          (¬small → ∃ t, exec i s = .next t ∧ t.role? s.cur = some { r with hold := .beam } ∧ t.mem = s.mem ∧
            (t.core r.core).queries = k.queries) ∧
          (small → s.beamAhead s.cur r = false → r.beamLimit ≤ 16 → ∀ x e s1, read = (x, e, s1) → e ≠ some .wait →
            let event : BeamEvent := match e, x.pend with
              | none, some prim => .proc x.ray prim
              | _, _ => .running
            ∃ t q num gen, exec i s = .next t ∧ t.role? s.cur = some q ∧
              num < 16 ∧ r.beamHeld.find num = none ∧ (∀ m, m < num → (r.beamHeld.find m).isSome = true) ∧
              gen = (if Sparse.get 0 r.beamGen num % 65536 = 65535 then 1 else Sparse.get 0 r.beamGen num % 65536 + 1) ∧
              Answered { r with beamHeld := r.beamHeld.put num event, beamGen := Sparse.set 0 r.beamGen num gen } q o.d o.ws
                (BitVec.ofNat 64 (num + 16 * gen)) ∧
              ∃ y, (t.core r.core).queries.find (s1.core r.core).nextQuery = some y ∧ y.handle = num ∧
                (e = some .bad → y.phase = .records 1 x.left) ∧
                (∀ c addr, e = some (.cause c addr) → y.phase = .records 4 x.left ∧ y.cause = c ∧ y.faddr = addr) ∧
                (e = none → (x.tmax.getD .ninf).lt (x.tmin.getD .pinf) = true → y.phase = .records 0 x.left) ∧
                (e = none → (x.tmax.getD .ninf).lt (x.tmin.getD .pinf) = false → y.phase = x.phase))))

/-- R348, R352: a split divides the rays of a region among its children: each ray belongs to exactly one child, a child of one ray is that
ray, and the quotas of the children, which differ by at most 1, together are the parent's less their number. -/
def Sys2Proof.Claim.SplitsPartitionTheRays : Prop :=
  ∀ q : Query, q.regionOk = true → (q.ckind = 1 ∨ q.ckind = 2) →
    let rays := fun (p : Nat × Nat) => regionRays p.1 p.2 q.cols
    List.Perm (q.parts.flatMap rays) q.rays ∧ q.rays.Nodup ∧ q.parts.length ≤ 4 ∧
    (∀ p ∈ q.parts, rays p ≠ [] ∧ ((rays p).length = 1 → p.1 = 0)) ∧
    (q.parts.length ≤ q.quota → q.quota ≤ 256 → q.depth < 8 → q.stack.length ≤ 21 → q.qid < 2 ^ 32 →
      let quota := fun (f : List Word) => (f.getD 3 0).toNat / 2 ^ 12 % 512
      q.frays.length = q.parts.length ∧ (∀ f ∈ q.frays, f.length = 8 ∧ (f.getD 3 0).toNat / 2 ^ 8 % 16 = q.depth + 1) ∧
      (q.frays.map quota).sum = q.quota - q.parts.length ∧ ∀ f ∈ q.frays, ∀ g ∈ q.frays, quota f ≤ quota g + 1)

/-- R348, R352, R359, R363, R368: a query starts, and a split partitions its rays. The model's own choices in it: assumption log 43, 59,
172. -/
def Obligations.QueriesStartAndSplit : Prop := Claim.QueriesStart ∧ Claim.SplitsPartitionTheRays

/-- R350-R352, R355, R357, R358, R366, R367, R469: what the unit does with a query: a visit reads one node within the structure while BUDGET
allows it; an abort ends it at a node boundary with records for every ray that has none; a split whose push is refused is made in place,
one without room parks, and one that is made completes the query as SPLIT; records are written and their number added to DONEC. The
model's own choices in it: assumption log 133, 135, 136, 137, 139. -/
def Obligations.QueriesRun : Prop :=
  ∀ (s : State) (c n : Nat) (x : Query), (s.core c).queries.find n = some x → x.ending = false →
    let after := fun (i : Instr) (y : Query) => ∃ t, exec i s = .next t ∧ (t.core c).queries.find n = some y
    (x.aborted = true → (∀ st l, x.phase ≠ .records st l) → after (.beamNodeVisit c n) (x.endWith 3 0 0) ∧
      (x.endWith 3 0 0).phase = .records 3 x.left) ∧
    (x.aborted = false → x.saveTo = none → x.phase = .walking → x.counted = true →
      (∀ x1, x.seek 256 = (x1, .done) → after (.beamNodeVisit c n) x1.done) ∧
      ∀ x1 m, x.seek 256 = (x1, .node m) → x1.stack.length ≤ 20 → x1.phase = .walking → x1.counted = true →
        (x1.size < 128 * (m + 1) → after (.beamNodeVisit c n) (x1.endWith 1 0 0)) ∧
        (128 * (m + 1) ≤ x1.size → x1.budget ≤ x1.visits → after (.beamNodeVisit c n) x1.outOfVisits) ∧
        (128 * (m + 1) ≤ x1.size → x1.visits < x1.budget → ∀ ws s1,
          s.vaWords (x1.viewer c) .engRead ((x1.base + 128 * m : Nat) : Int) 16 = .ok (ws, s1) →
          after (.beamNodeVisit c n) (if nodeBad ws then { x1 with visits := x1.visits + 1 }.endWith 1 0 0
            else { x1 with visits := x1.visits + 1, stack := { node := m, words := ws, next := 0 } :: x1.stack }))) ∧
    (x.aborted = false → x.saveTo = none → x.phase = .push → s.queryParked c n = false →
      (x.spawn.toNat % 64 ≠ 0 → after (.beamSplitPush c n) x.serially) ∧
      ∀ ws s1, x.spawn.toNat % 64 = 0 → s.vaWords (x.walker c) .engRead (x.spawn.toNat : Int) 8 = .ok (ws, s1) →
        let q : SpawnQ := { qva := x.spawn.toNat, w := ws }
        let k := x.children.length
        let p : Push := { rid := x.rid, query := some (c, n), records := x.children, depth := pushDepth x.who q.qva x.vmid x.asid, part := x.part }
        (s1.pushRefused x.who q x.vmid x.asid k = true → after (.beamSplitPush c n) x.serially) ∧
        (s1.pushRefused x.who q x.vmid x.asid k = false → s1.pushFits q x.vmid x.asid k = false →
          exec (.beamSplitPush c n) s = .next (s1.park q x.vmid x.asid p)) ∧
        (s1.pushRefused x.who q x.vmid x.asid k = false → s1.pushFits q x.vmid x.asid k = true → ∀ s2,
          s1.writePush (x.walker c) .engWrite q p = .ok ((), s2) →
          ∃ t, exec (.beamSplitPush c n) s = .next t ∧ (t.core c).queries.find n = none ∧
            ∀ r, s2.role? x.rid = some r → x.saveTo = none → r.ended = false → (r.beamHeld.find x.handle).isSome = true →
              ∃ q, t.role? x.rid = some q ∧ q.beamHeld.find x.handle = some (.complete 5 0 0 k x.written.length))) ∧
    ∀ st i, x.phase = .records st [i] → x.serial = false → x.saveTo = none → x.toAdd = 0 → st < 4 → x.maxStatus ≤ st →
      let va := x.result + 32 * (x.raybase + i)
      ∀ s1, s.vaStores (x.walker c) .engWrite ((x.record i st).zipIdx.map fun p => ((va + 8 * p.2 : Nat), 8, p.1.toNat)) = .ok ((), s1) →
        let finished := fun (t s3 : State) => (t.core c).queries.find n = none ∧ t.mem = s3.mem ∧ ∀ r, s3.role? x.rid = some r →
          r.ended = false → (r.beamHeld.find x.handle).isSome = true → ∃ q, t.role? x.rid = some q ∧
            q.beamHeld.find x.handle = some (.complete st 0 0 x.nchild (x.written.length + 1))
        (x.donec = 0 → ∃ t, exec (.beamRaysComplete c n) s = .next t ∧ finished t s1) ∧
        (x.donec ≠ 0 → ∀ s2, s1.vaAdd (x.walker c) (x.donec.toNat : Int) 1 = .ok ((), s2) →
          ∃ t, exec (.beamRaysComplete c n) s = .next t ∧ finished t s2)

/-! ### Launching work (19 R386-R404, 21 R430-R432) -/

/-- R430: LAUNCH pushes the packet at s[A] to the launch queue s[B][15:0]: QUEUE for a queue that is disabled, of another VMID or ASID or of a ring
size outside 2 to 16; all ones in s[D] for a full ring; else the packet goes to the ring index PROD, which advances, and s[D] has the index. -/
def Sys2Proof.Claim.LaunchPushes : Prop :=
  ∀ (s : State) (r : Role) (o : FmtQ), Issuing s r →
    let a := r.sreg o.a.num
    let q := (r.sreg o.b.num).toNat % 65536
    let i : Instr := .launch o
    let ready := s.issueCause r .load (a.toNat : Int) 128 128 = none ∧ s.windowOpen s.cur r = false ∧ s.releaseReady s.cur r 4 = true ∧
      s.physCause (dieOf r.core) (s.queueAddr q) 0 = none
    (∀ c, s.issueCause r .load (a.toNat : Int) 128 128 = some c → exec i s = .next (s.trap s.cur c a)) ∧
    (s.issueCause r .load (a.toNat : Int) 128 128 = none → s.windowOpen s.cur r = true →
      exec i s = .next (s.setRole s.cur { r with hold := .window })) ∧
    (s.issueCause r .load (a.toNat : Int) 128 128 = none → s.windowOpen s.cur r = false → s.releaseReady s.cur r 4 = false →
      exec i s = .next (s.setRole s.cur { r with hold := .drain })) ∧
    ∀ e s1, ready → s.queueEntry q = (e, s1) →
      let w0 := (e.getD 0 0).toNat
      let w1 := (e.getD 1 0).toNat
      let log := w0 / 2 ^ 52 % 32
      let prod := w1 / 2 ^ 32
      let cons := w1 % 2 ^ 32
      let takes := 2 ≤ log ∧ log ≤ 16 ∧ w0 / 2 ^ 57 % 16 = r.vmid ∧ (e.getD 2 0).toNat % 65536 = r.asid
      (w0 < 2 ^ 63 → ∃ t, exec i s = .next t ∧
        t = (s1.setQueueState q { s1.queueState q with mark := false }).trap s.cur cQUEUE 0) ∧
      (2 ^ 63 ≤ w0 → ¬takes → exec i s = .next (s1.trap s.cur cQUEUE 0)) ∧
      (2 ^ 63 ≤ w0 → takes → ∀ packet s2, s1.loadRecord r .load (a.toNat : Int) 16 128 = (.ok packet, s2) → s2.role? s.cur = some r →
        (2 ^ log ≤ (prod + 2 ^ 32 - cons) % 2 ^ 32 → ∃ p, exec i s = .next (s2.setRole s.cur p) ∧ Answered r p o.d o.ws (BitVec.allOnes 64)) ∧
        ((prod + 2 ^ 32 - cons) % 2 ^ 32 < 2 ^ log → s2.physCause (dieOf r.core) (packetAddr e prod) r.vmid = none →
          packetAddr e prod = w0 / 2 ^ 7 % 2 ^ 45 * 128 + 128 * (prod % 2 ^ log) ∧
          ∀ x, (s2.pushPacket r q e packet).role? s.cur = some x → ∃ p,
            exec i s = .next ((s2.pushPacket r q e packet).setRole s.cur p) ∧ Answered x p o.d o.ws (BitVec.ofNat 64 prod)))

/-- R399, R431: ENQR pushes s[C] records from s[B], ENQC one per active lane from registers B on, to the spawn queue at s[A]: QUEUE with TADDR
= s[A] for a descriptor or a push that breaks the rules, ILLEGAL for an ENQC whose records' registers are bound to a wait slot (R32), nothing for a push of none, a parked role without room, else the push.
R432: YIELD marks the role and gives up its core's preference. -/
def Sys2Proof.Claim.PushesAndYield : Prop :=
  ∀ (s : State) (r : Role) (o : FmtQ), Issuing s r →
    let a := r.sreg o.a.num
    let cause := s.issueCause r .load (a.toNat : Int) 64 64
    let lanes := (List.range r.nlanes).filter fun l => (r.mask 0 &&& r.mask 0 &&& lowLanes r.nlanes).getLsbD l
    (∀ i ∈ [Instr.enqr o, .enqc o],
      (s.windowOpen s.cur r = true → exec i s = .next (s.setRole s.cur { r with hold := .window })) ∧
      (s.windowOpen s.cur r = false →
        (∀ c, cause = some c → exec i s = .next (s.trap s.cur c a)) ∧
        (cause = none → s.releaseReady s.cur r 4 = false → exec i s = .next (s.setRole s.cur { r with hold := .drain })))) ∧
    (s.windowOpen s.cur r = false → cause = none → s.releaseReady s.cur r 4 = true → ∀ ws s1, s.loadRecord r .load (a.toNat : Int) 8 64 = (.ok ws, s1) →
      let q : SpawnQ := { qva := a.toNat, w := ws }
      let refused := fun (n : Nat) => q.bad = true ∨ q.cap < n ∨ (n ≠ 0 ∧ (s1.rankRefused (s1.originOf r).1 q r.vmid r.asid = true ∨
        q.maxrec < pushDepth (s1.originOf r).1 q.qva r.vmid r.asid))
      let pushed := fun (i : Instr) (s2 : State) (recs : List (List Word)) =>
        let p : Push := { rid := s.cur, query := none, records := recs, depth := pushDepth (s2.originOf r).1 q.qva r.vmid r.asid,
                          part := (s2.originOf r).2 }
        (s2.pushFits q r.vmid r.asid recs.length = false →
          exec i s = .next ((s2.park q r.vmid r.asid p).holdRole s.cur (.parked q.qva r.vmid r.asid))) ∧
        (s2.pushFits q r.vmid r.asid recs.length = true → ∀ s3 x,
          (s2.tick (s2.core r.core).pts).writePush (r.walker none) .store q p = .ok ((), s3) → s3.role? s.cur = some x →
          exec i s = .next (s3.setRole s.cur x.advance))
      let n := (r.sreg o.c.num).toNat
      (refused n → exec (.enqr o) s = .next (s1.trap s.cur cQUEUE a)) ∧
      (¬refused n → (n = 0 → exec (.enqr o) s = .next (s1.setRole s.cur r.advance)) ∧
        ∀ recs s2, n ≠ 0 → s1.loadRecord r .load ((r.sreg o.b.num).toNat : Int) (2 * q.rsz * n) 8 = (.ok recs, s2) →
          pushed (.enqr o) s2 ((List.range n).map fun i => (recs.drop (2 * q.rsz * i)).take (2 * q.rsz))) ∧
      let regs : List TrackReg := (List.range (2 * q.rsz)).map fun k => .v (o.b.num + k)
      let taken : Prop := ∃ p ∈ r.bound, trackOf p.1 ∈ regs
      let spoilt : Prop := ∃ b ∈ s1.badRegs, b.1 = s.cur ∧ trackOf b.2 ∈ regs
      (q.bad = false → taken → exec (.enqc o) s = .next (s1.trap s.cur cILLEGAL 0)) ∧
      (q.bad = false → ¬taken → spoilt → exec (.enqc o) s = .next (s1.abortGang s.cur cDATA_ERROR 0 r.ipc)) ∧
      (q.bad = true ∨ (¬taken ∧ ¬spoilt) → refused lanes.length ∨ r.budget < o.b.num + 2 * q.rsz →
        exec (.enqc o) s = .next (s1.trap s.cur cQUEUE a)) ∧
      (¬taken → ¬spoilt → ¬refused lanes.length → o.b.num + 2 * q.rsz ≤ r.budget →
        (lanes = [] → exec (.enqc o) s = .next (s1.setRole s.cur r.advance)) ∧
        (lanes ≠ [] → pushed (.enqc o) (s1.readEntries s.cur r regs) (lanes.map fun l => (List.range (2 * q.rsz)).map fun k => r.vreg (o.b.num + k) l)))) ∧
    ∃ t, exec (.yield o) s = .next t ∧ t.role? s.cur = some { r.advance with yielded := true } ∧ (∀ k, k ≠ s.cur → t.role? k = s.role? k) ∧
      (t.core r.core).last ≠ some s.cur ∧ ((s.core r.core).last ≠ some s.cur → (t.core r.core).last = (s.core r.core).last) ∧ t.mem = s.mem

/-- R399, R430-R432: the launch commands of a role: LAUNCH, ENQR and ENQC, and YIELD. The model's own choices in it: assumption log 52, 85,
142, 147, 166. -/
def Obligations.LaunchesAndPushes : Prop := Claim.LaunchPushes ∧ Claim.PushesAndYield

/-! ### The system instructions and exceptions (09 R210-R214, 20 R406-R411, R421, 21 R429-R444) -/

/-- R406, R407, R408: a trap of a role outside handler mode with TVEC not 0 writes TCAUSE, TADDR and TPC (the instruction's address), enters handler
mode and goes to TVEC; every register, mask, stack entry and slot keeps its value. A cause in handler mode, or with TVEC 0, aborts the
gang where the fault ring has room: every role of the gang ends and its DONE add is not made. -/
def Sys2Proof.Claim.TakingAnException : Prop :=
  ∀ (s : State) (r : Role) (cause : Nat) (addr : Word), Issuing s r → cause < 256 →
    let t := s.trap s.cur cause addr
    (r.handler = false → r.tvec ≠ 0 → ∃ q, t.role? s.cur = some q ∧ q.handler = true ∧ q.pc = r.tvec ∧ q.tpc = r.ipc ∧ q.taddr = addr ∧
      q.tcause.toNat = cause ∧ q.clause = none ∧ q.hold = .ready ∧ q.tack = none ∧
      { q with handler := r.handler, pc := r.pc, tpc := r.tpc, taddr := r.taddr, tcause := r.tcause, clause := r.clause, hold := r.hold,
               tack := r.tack, tackNext := r.tackNext, tackLast := r.tackLast, resume := r.resume, topped := r.topped } = r ∧
      (∀ k, k ≠ s.cur → t.role? k = s.role? k) ∧ t.mem = s.mem ∧ t.dies = s.dies ∧ t.gangs = s.gangs) ∧
    (r.handler = true ∨ r.tvec = 0 →
      (s.ringRoom (dieOf r.core) = false → t = s.setRole s.cur { r with hold := .ring }) ∧
      (s.ringRoom (dieOf r.core) = true → (∀ g, s.gang? r.gang = some g → ∃ h, t.gang? r.gang = some h ∧ h.noDone = true) ∧
        ∀ k q, t.role? k = some q → q.gang = r.gang → q.ended = true))

/-- R433, R434, R421: TRAP enters the handler with cause 80h + SMOD[6:0], TADDR s[A] with .addr and else 0, and TPC the header of the next clause;
TRET leaves handler mode and resumes at TPC, and raises PRIV outside it; TACK marks the next clause. -/
def Sys2Proof.Claim.TrapsAndReturns : Prop :=
  ∀ (s : State) (r : Role) (o : FmtS), Issuing s r →
    (r.handler = false → r.tvec ≠ 0 → ∃ t q, exec (.trap o) s = .next t ∧ t.role? s.cur = some q ∧ q.handler = true ∧ q.pc = r.tvec ∧
      q.tpc = r.next ∧ q.taddr = (if o.smod.getLsbD 7 then r.sreg o.a.num else 0) ∧ q.tcause.toNat = 128 + o.smod.toNat % 128 ∧
      q.clause = none ∧ RegsKept r q ∧ q.masks = r.masks ∧ q.stack = r.stack ∧ q.waits = r.waits ∧ q.bound = r.bound ∧ q.cc = r.cc ∧
      q.fmt = r.fmt ∧ q.fpstat = r.fpstat ∧ (∀ k, k ≠ s.cur → t.role? k = s.role? k) ∧ t.mem = s.mem) ∧
    (r.handler = true → Completes (.tret o) s fun q => q.handler = false ∧ q.pc = r.tpc ∧ q.clause = none ∧ q.resume = true ∧
      RegsKept r q ∧ { q with handler := r.handler, pc := r.pc, clause := r.clause, hold := r.hold, tack := r.tack, tackLast := r.tackLast,
                              resume := r.resume, topped := r.topped } = r) ∧
    (r.handler = false → exec (.tret o) s = .next (s.trap s.cur cPRIV 0)) ∧
    Completes (.tack o) s fun q => q = { r.advance with tackNext := true }

/-- R406-R408, R421, R433, R434: taking an exception, and the instructions that take one or return from one. The model's own choices in it:
assumption log 50, 51, 143, 180. -/
def Obligations.ExceptionsAndReturns : Prop := Claim.TakingAnException ∧ Claim.TrapsAndReturns

/-- R210-R214, R435: the value that a special register reads; LANEID alone differs from lane to lane. -/
def Sys2Proof.Claim.SpecialValue (s : State) (r : Role) (n : Nat) (v : Word) : Prop :=
  (n = 0x02 → v = BitVec.ofNat 64 r.ix) ∧ (n = 0x03 → v = BitVec.ofNat 64 r.team) ∧ (n = 0x04 → v = BitVec.ofNat 64 r.rank) ∧
  (n = 0x05 → r.gang < 2 ^ 32 → v = BitVec.ofNat 64 r.gang) ∧ (n = 0x06 → r.grid < 2 ^ 32 → v = BitVec.ofNat 64 r.grid) ∧
  (n = 0x07 → v = BitVec.ofNat 64 r.nlanes) ∧ (n = 0x10 → v = r.fmt) ∧ (n = 0x11 → v = r.amax) ∧ (n = 0x12 → v = r.fpstat) ∧
  (n = 0x13 → v = r.cc) ∧ (n = 0x14 → v = BitVec.ofNat 64 r.wver) ∧ (n = 0x15 → v = BitVec.ofNat 64 (s.core r.core).pts) ∧
  (n = 0x16 → v = r.rsbase) ∧ (n = 0x17 → v = BitVec.ofNat 64 (r.limit * 2 ^ 32 + r.depth)) ∧
  (∀ k, 1 ≤ k → k < 16 → n = 0x20 + k → v = BitVec.ofNat 64 (Sparse.get 0 r.views k)) ∧
  (n = 0x30 → v = r.tvec) ∧ (n = 0x31 → v = r.tcause) ∧ (n = 0x32 → v = r.taddr) ∧ (n = 0x33 → v = r.tpc) ∧
  (n = 0x34 → v = BitVec.ofNat 64 r.asid) ∧ (n = 0x35 → v = (s.core r.core).logstat) ∧ (n = 0x40 → v = (s.die (dieOf r.core)).hashsel) ∧
  (n = 0x41 → v = dieOrient (dieId (dieOf r.core))) ∧ (n = 0x42 → v = BitVec.ofNat 64 (windowBase + 0x400))

/-- R210, R211-R214, R409, R435: SREAD and SWRITE reach the special registers, each under its own right, and raise PRIV else. SREAD moves
the value; SWRITE writes the bits that a register has and leaves every other register. The model's own choices in it: assumption log 49,
53, 158. -/
def Obligations.SpecialRegisters : Prop :=
  ∀ (s : State) (r : Role) (o : FmtS), Issuing s r →
    let n := o.sreg.toNat
    let v := r.sreg o.a.num
    let priv := r.handler = true ∧ r.vmid = 0
    let mayRead := n < 0x30 ∨ (n < 0x35 ∧ r.handler = true) ∨ priv
    let mayWrite := n = 0x10 ∨ n = 0x12 ∨ n = 0x13 ∨ (r.handler = true ∧ (n = 0x11 ∨ n = 0x14 ∨ n = 0x16 ∨ n = 0x17 ∨ (0x21 ≤ n ∧ n < 0x34))) ∨
      (priv ∧ (n = 0x15 ∨ n = 0x34 ∨ n = 0x35 ∨ n = 0x40))
    let writes := fun (f : Role → Prop) (g : Role → Role) => Completes (.swrite o) s fun q => f q ∧ g q = r.advance
    ((Instr.sread o).wf = true → ¬mayRead → exec (.sread o) s = .next (s.trap s.cur cPRIV 0)) ∧
    ((Instr.sread o).wf = true → mayRead → (n = 1 → MoveDone (.sread o) s r o.d o.mask fun l => BitVec.ofNat 64 l) ∧
      (n ≠ 1 → ∃ x, MoveDone (.sread o) s r o.d o.mask (fun _ => x) ∧ SpecialValue s r n x)) ∧
    ((Instr.swrite o).wf = true → ¬mayWrite → exec (.swrite o) s = .next (s.trap s.cur cPRIV 0)) ∧
    ((Instr.swrite o).wf = true → mayWrite →
      (n = 0x35 → Completes (.swrite o) s fun q => q = r.advance) ∧
      (n = 0x10 → (fmtOk v = false → exec (.swrite o) s = .next (s.trap s.cur cILLEGAL 0)) ∧
        (fmtOk v = true → writes (fun q => q.fmt.toNat = v.toNat % 2 ^ 10) fun q => { q with fmt := r.fmt })) ∧
      (n = 0x11 → writes (fun q => q.amax.toNat = v.toNat % 2 ^ 63) fun q => { q with amax := r.amax }) ∧
      (n = 0x12 → writes (fun q => q.fpstat.toNat = v.toNat % 32) fun q => { q with fpstat := r.fpstat }) ∧
      (n = 0x13 → writes (fun q => q.cc.toNat = v.toNat % 32) fun q => { q with cc := r.cc }) ∧
      (n = 0x14 → writes (fun q => q.wver = v.toNat % 2 ^ 32) fun q => { q with wver := r.wver }) ∧
      (n = 0x16 → writes (fun q => q.rsbase.toNat = v.toNat / 32 * 32) fun q => { q with rsbase := r.rsbase }) ∧
      (n = 0x17 → writes (fun q => q.limit = v.toNat / 2 ^ 32 ∧ q.depth = v.toNat % 2 ^ 32) fun q =>
        { q with limit := r.limit, depth := r.depth, stack := r.stack }) ∧
      (∀ k, 1 ≤ k → k < 16 → n = 0x20 + k → writes (fun q => ∀ j, Sparse.get 0 q.views j = if j = k then v.toNat % 2 ^ 32 else
        Sparse.get 0 r.views j) fun q => { q with views := r.views }) ∧
      (n = 0x30 → writes (fun q => q.tvec = v) fun q => { q with tvec := r.tvec }) ∧
      (n = 0x31 → writes (fun q => ∀ i, i < 64 → q.tcause.getLsbD i = (v.getLsbD i && decide (i ≤ 10 ∨ (32 ≤ i ∧ i ≤ 49)))) fun q =>
        { q with tcause := r.tcause }) ∧
      (n = 0x32 → writes (fun q => q.taddr = v) fun q => { q with taddr := r.taddr }) ∧
      (n = 0x33 → writes (fun q => q.tpc = v) fun q => { q with tpc := r.tpc }) ∧
      (n = 0x34 → writes (fun q => q.asid = v.toNat % 65536) fun q => { q with asid := r.asid }) ∧
      (n = 0x15 → ∃ t, exec (.swrite o) s = .next t ∧ t.role? s.cur = some r.advance ∧
        (t.core r.core).pts = max (s.core r.core).pts v.toNat ∧ t.mem = s.mem ∧ ∀ c, c ≠ r.core → t.core c = s.core c) ∧
      (n = 0x40 → ∃ t, exec (.swrite o) s = .next t ∧ t.role? s.cur = some r.advance ∧ t.mem = s.mem ∧ t.cores = s.cores ∧
        (∀ d, d ≠ dieOf r.core → t.die d = s.die d) ∧
        let x := s.die (dieOf r.core)
        let takes := x.lines = [] ∧ v.toNat % 4 ≠ 3 ∧ 32 - v.toNat % 4 ≤ x.hashsel.toNat / 4 % 64
        (¬takes → t.dies = s.dies) ∧ (takes → (t.die (dieOf r.core)).hashsel.toNat = x.hashsel.toNat / 4 * 4 + v.toNat % 4)))

/-- R429, R436-R438: TLBINV removes exactly the translations that match, LINV the L1 lines and the kept clauses of its range in the role's core, LFLUSH the
lines of its range from every cache once none is in progress; each is complete when that is done, and changes no register. -/
def Sys2Proof.Claim.CachesAreInvalidated : Prop :=
  ∀ (s : State) (r : Role) (o : FmtS), Issuing s r →
    let a := r.sreg o.a.num
    let n := (r.sreg o.d.num).toNat
    let bad := ¬(a.toNat < 2 ^ 56 ∨ 2 ^ 64 - 2 ^ 56 ≤ a.toNat)
    let inRange := fun (vmid asid lo size : Nat) => vmid = r.vmid ∧ asid = r.asid ∧ n ≠ 0 ∧ lo < a.toNat % 2 ^ 57 + n ∧ a.toNat % 2 ^ 57 < lo + size
    let hits := fun (vmid asid lo size : Nat) =>
      (o.smod = 0 ∧ inRange vmid asid lo size) ∨ (o.smod = 1 ∧ vmid = r.vmid ∧ asid = a.toNat % 65536) ∨ (o.smod = 2 ∧ vmid = a.toNat % 16) ∨ o.smod = 3
    let kind : InvKind := if o.smod = 0 then .range r.vmid r.asid (a.toNat % 2 ^ 57) n else if o.smod = 1 then .asid r.vmid (a.toNat % 65536)
      else if o.smod = 2 then .vmid (a.toNat % 16) else .all
    (o.smod.toNat < 4 → r.handler = true → r.vmid = 0 →
      (o.smod = 0 → bad → exec (.tlbinv o) s = .next (s.trap s.cur cNONCANON a)) ∧
      ((o.smod ≠ 0 ∨ rangeBad a n = false) →
        (s.inFlight kind = true → exec (.tlbinv o) s = .next (s.setRole s.cur { r with hold := .drain })) ∧
        (s.inFlight kind = false → ∃ t, exec (.tlbinv o) s = .next t ∧ t.role? s.cur = some r.advance ∧
          (∀ k, k ≠ s.cur → t.role? k = s.role? k) ∧ t.mem = s.mem ∧
          ∀ d e, e ∈ (t.die d).tlb ↔ e ∈ (s.die d).tlb ∧ ¬hits e.vmid e.asid (e.va * 2 ^ e.shift) (2 ^ e.shift)))) ∧
    (r.handler = true → ∃ t, exec (.linv o) s = .next t ∧ t.mem = s.mem ∧ t.dies = s.dies ∧ (∀ c, c ≠ r.core → t.core c = s.core c) ∧
      ((∀ c, r.clause = some c → c.issued = true) → t.role? s.cur = some r.advance) ∧
      (∀ f, f ∈ (t.core r.core).fetched ↔ f ∈ (s.core r.core).fetched ∧ ¬(f.vmid = r.vmid ∧ f.asid = r.asid ∧
        meetsRange a.toNat n f.addr.toNat (8 * f.words.length) = true)) ∧
      ∀ l, l ∈ (t.core r.core).l1 ↔ l ∈ (s.core r.core).l1 ∧ ¬(l.tag.vmid = r.vmid ∧ l.tag.asid = r.asid ∧
        meetsRange a.toNat n (sext57 (128 * l.tag.va)) 128 = true)) ∧
    ((o.smod.getLsbD 0 = true → r.handler = true ∧ r.vmid = 0) → r.handler = true →
      (o.smod.getLsbD 0 = false → bad → exec (.lflush o) s = .next (s.trap s.cur cNONCANON a)) ∧
      (s.opsDue s.cur r (fun p _ => p.kind == .store || p.kind == .atomic) = false →
        (n = 0 → (o.smod.getLsbD 0 = true ∨ rangeBad a n = false) → Completes (.lflush o) s fun q => q = r.advance) ∧
        ∀ s2, n ≠ 0 → o.smod.getLsbD 0 = true → s.flushLines [(a.toNat, n)] = some s2 → s2.role? s.cur = some r →
          exec (.lflush o) s = .next (s2.setRole s.cur r.advance) ∧ ∀ l, lineMeets a.toNat n l = true →
            (∀ d x, d < 4 → x ∈ (s2.die d).lines → x.line ≠ l) ∧ ∀ c x, x ∈ (s2.core c).l1 → x.line ≠ l) ∧
      ∀ ranges s1 s2, s.opsDue s.cur r (fun p _ => p.kind == .store || p.kind == .atomic) = false → n ≠ 0 → o.smod.getLsbD 0 = false →
        rangeBad a n = false → s.flushRanges r a.toNat (a.toNat + n - 1) (n / 2 ^ 16 + 2) = (ranges, s1) → s1.flushLines ranges = some s2 →
        s2.role? s.cur = some r → exec (.lflush o) s = .next (s2.setRole s.cur r.advance) ∧
          ∀ l, (∃ p ∈ ranges, lineMeets p.1 p.2 l = true) →
            (∀ d x, d < 4 → x ∈ (s2.die d).lines → x.line ≠ l) ∧ ∀ c x, x ∈ (s2.core c).l1 → x.line ≠ l)

/-- R429, R439-R444: LOGREPLAY gives a verdict; FQPOP pops a record or answers all ones, or waits, at an empty ring; HALT ends the roles of the
team or gang where they stand and stops the others; CTXSAVE and CTXLOAD answer their status, or begin the save or the restore. -/
def Sys2Proof.Claim.SystemCommands : Prop :=
  ∀ (s : State) (r : Role) (o : FmtS), Issuing s r →
    let priv := r.handler = true ∧ r.vmid = 0
    let w := (r.sreg o.a.num).toNat
    let d := dieOf r.core
    let gives := fun (i : Instr) (s1 : State) (v : Word) => ∀ p, s1.role? s.cur = some p → ∃ q, exec i s = .next (s1.setRole s.cur q) ∧
      Answered p q o.d o.ws v
    let settled := r.handler = true ∧ s.windowOpen s.cur r = false ∧ s.busyOps s.cur r = false
    (∀ i ∈ [Instr.tlbinv o, .logreplay o, .fqpop o], ¬priv → exec i s = .next (s.trap s.cur cPRIV 0)) ∧
    (∀ i ∈ [Instr.linv o, .ctxsave o, .ctxload o, .halt o, .lflush o], r.handler = false → exec i s = .next (s.trap s.cur cPRIV 0)) ∧
    (o.smod.getLsbD 0 = true → ¬priv → exec (.lflush o) s = .next (s.trap s.cur cPRIV 0)) ∧
    (priv →
      (∀ s1 q, s.verdict (w / 2 ^ 16 % 4) (w % 65536) (o.smod.getLsbD 0) = s1 → s1.role? s.cur = some q →
        exec (.logreplay o) s = .next (s1.setRole s.cur q.advance)) ∧
      (ringProd s d = ringCons s d →
        if o.smod.getLsbD 0 then exec (.fqpop o) s = .next (s.setRole s.cur { r with hold := .fqpop })
        else gives (.fqpop o) s (BitVec.allOnes 64)) ∧
      (ringProd s d ≠ ringCons s d → ∃ s1, ringCons s1 d = (ringCons s d + 1) % 2 ^ 32 ∧ ringProd s1 d = ringProd s d ∧ s1.mem = s.mem ∧
        s1.roles = s.roles ∧ gives (.fqpop o) s1 (BitVec.ofNat 64 (ringCons s d % 2 ^ ringSizeLog s d % 65536 + 65536 * d)))) ∧
    (r.handler = true → ∃ t, exec (.halt o) s = .next t ∧
      (∀ p ∈ s.roles, p.2.gang = r.gang → (o.smod.getLsbD 0 = true ∨ p.2.team = r.team) → ∃ q, t.role? p.1 = some q ∧
        (p.1 = s.cur ∨ s.stands p.1 p.2 = true → q.ended = true) ∧
        (p.1 ≠ s.cur → s.stands p.1 p.2 = false → q.ended = true ∨ q.halting = true)) ∧
      ∀ k q, s.role? k = some q → (∀ p ∈ s.roles, p.1 = k → p.2 = q) → ¬(q.gang = r.gang ∧ (o.smod.getLsbD 0 = true ∨ q.team = r.team)) →
        t.role? k = some q) ∧
    (settled → ∀ ws s1, s.loadRecord r .load (w : Int) 3 8 = (.ok ws, s1) →
      let gid := (ws.getD 0 0).toNat % 2 ^ 32
      let area := (ws.getD 1 0).toNat
      let size := (ws.getD 2 0).toNat
      let req : SaveReq := { rid := s.cur, area := area, size := size, dst := o.d, ws := o.ws.toNat }
      (s1.gang? gid = none → gives (.ctxsave o) s1 1) ∧
      ∀ g, s1.gang? gid = some g → (∃ p ∈ s1.roles, p.2.gang = gid ∧ p.2.ended = false) → (r.vmid = 0 ∨ g.vmid = r.vmid) →
        (g.state = .saved → gives (.ctxsave o) s1 1) ∧
        (g.state = .resident ∨ g.state = .saving → gid = r.gang → gives (.ctxsave o) s1 3) ∧
        (g.state = .saving → gid ≠ r.gang → gives (.ctxsave o) s1 4) ∧
        (g.state = .resident → gid ≠ r.gang → let need := s1.saveSize gid g
          (size < need → gives (.ctxsave o) s1 (BitVec.ofNat 64 (need * 256 + 5))) ∧
          (need ≤ size → area % 4096 ≠ 0 → gives (.ctxsave o) s1 2) ∧
          (need ≤ size → area % 4096 = 0 → ∀ s2, s1.areaOk (r.walker none) area need = .ok ((), s2) → s2.gang? gid = some g →
            s2.role? s.cur = some r → ∃ t q, exec (.ctxsave o) s = .next t ∧ t.gang? gid = some { g with state := .saving, saveArea := some req } ∧ t.role? s.cur = some q ∧
              q.bound = r.bound ++ [(o.d, o.ws.toNat)] ∧ { q with bound := r.bound, waits := r.waits } = r.advance))) ∧
    (settled →
      (w % 4096 ≠ 0 → gives (.ctxload o) s 6) ∧
      (w % 4096 = 0 → ∀ ws s1, s.loadRecord r .load (w : Int) 7 8 = (.ok ws, s1) →
        let gid := (ws.getD 1 0).toNat % 2 ^ 32
        let vmid := (ws.getD 6 0).toNat % 16
        ((ws.getD 0 0).toNat ≠ 0x53415645 ∨ s1.gang? gid = none → gives (.ctxload o) s1 6) ∧
        ∀ g, (ws.getD 0 0).toNat = 0x53415645 → s1.gang? gid = some g → g.state = .saved → g.ctxSaved = true →
          (r.vmid ≠ 0 → vmid ≠ r.vmid → gives (.ctxload o) s1 1) ∧
          (r.vmid = 0 ∨ vmid = r.vmid → s1.loadPart r vmid = none → gives (.ctxload o) s1 7) ∧
          ∀ part, (r.vmid = 0 ∨ vmid = r.vmid) → s1.loadPart r vmid = some part →
            (s1.couldRestore gid g part = false → gives (.ctxload o) s1 7) ∧
            (s1.couldRestore gid g part = true → s1.role? s.cur = some r → ∃ t q, exec (.ctxload o) s = .next t ∧
              t.role? s.cur = some { r with hold := .place } ∧ t.gang? gid = some { g with state := .loading, part := part, saveArea := some q } ∧
              q.area = w ∧ q.rid = s.cur ∧ q.dst = o.d ∧ q.ws = o.ws.toNat)))

/-- R429, R436-R444: the system instructions of a handler. The model's own choices in it: assumption log 92, 100, 102, 103, 104, 105. -/
def Obligations.SystemInstructions : Prop := Claim.CachesAreInvalidated ∧ Claim.SystemCommands

/-! ### Fetch and issue (01 R22-R32, 19 R403, R404) -/

/-- R22, R23: a clause is fetched whole: its header, then its words; a bad header or a bad word is ILLEGAL with TPC the header, and every word of a
fetched clause decodes, lies within the budget, and is no transfer unless it is the last. R28: a clause that the core has kept may be
fetched as it was, whole. R30, R32: a header issues once its slots are 0, and their bindings end. -/
def Sys2Proof.Claim.ClausesIssue : Prop :=
  (∀ (s : State) (rid : Nat) (r : Role), s.role? rid = some r → r.ended = false → r.clause = none → r.hold = .ready → s.resident r = true →
    r.resume = false → r.topped = false → s.keptClause r r.pc = none → ∀ hw s1, s.fetchPart r none (r.pc.toNat : Int) 1 = (.ok hw, s1) →
      (decodeHeader (hw.headD 0) = none →
        exec (.clauseFetch rid) s = .next ((s1.trapWith rid cILLEGAL false false false 0 0 r.pc r.pc).keepClause rid)) ∧
      ∀ hd, decodeHeader (hw.headD 0) = some hd → r.pc.toNat % 2 ^ 16 + 8 * (hd.count.toNat + 2) ≤ 2 ^ 16 → ∀ ws s2,
        s1.fetchPart r none ((r.pc.toNat : Int) + 8) (hd.count.toNat + 1) = (.ok ws, s2) →
        (badWord r.budget 0 ws = none → s2.role? rid = some r →
          let q : Role := { r with clause := some { addr := r.pc, header := hd, words := ws, idx := 0, issued := false } }
          exec (.clauseFetch rid) s = .next ((s2.setRole rid q).keepClause rid) ∧
          ∃ f, ((s2.setRole rid q).keepClause rid).keptClause q q.pc = some f ∧ f.words = encodeHeader hd :: ws) ∧
        ∀ i, badWord r.budget 0 ws = some i → exec (.clauseFetch rid) s = .next
          ((s2.trapWith rid cILLEGAL false false false 0 0 r.pc (r.pc + BitVec.ofNat 64 (8 * (i + 1)))).keepClause rid)) ∧
  (∀ (s : State) (rid : Nat) (r : Role), s.role? rid = some r → r.clause = none → ∃ s0 f, (s0 = s ∨ s0 = s.fresh.2) ∧
    (f = none ∨ f = s.keptClause r r.pc) ∧ exec (.clauseFetch rid) s = .next ((s0.fetchFrom f rid r).keepClause rid)) ∧
  (∀ (b : Nat) (ws : List Word), badWord b 0 ws = none ↔ ∀ k w, ws[k]? = some w →
    ∃ x, decodeWord w = .ok x ∧ x.inBudget b = true ∧ (x.isTransfer = true → k + 1 = ws.length)) ∧
  ∀ (s : State) (rid : Nat) (r : Role) (c : Clause), s.role? rid = some r → r.ended = false → r.hold = .ready → r.clause = some c →
    c.issued = false → (s.core r.core).phase = .header rid →
    ((∀ i, i < 6 → c.header.wait.getLsbD i = true → r.waitCount (i + 1) = 0) → ∃ t q, exec (.clauseIssue rid) s = .next t ∧
      t.role? rid = some q ∧ q.clause = some { c with issued := true } ∧ q.yielded = false ∧ RegsKept r q ∧ q.waits = r.waits ∧
      (∀ p, p ∈ q.bound ↔ p ∈ r.bound ∧ c.header.wait.getLsbD (p.2 - 1) = false) ∧ (t.core r.core).phase = .run rid ∧
      (c.header.tack = true → q.tack.isSome = true) ∧ (c.header.tack = false → q.tack = r.tack) ∧ t.mem = s.mem ∧
      ∀ k, k ≠ rid → t.role? k = s.role? k) ∧
    ((∃ i, i < 6 ∧ c.header.wait.getLsbD i = true ∧ r.waitCount (i + 1) ≠ 0) → exec (.clauseIssue rid) s = .next s)

/-- R403, R404: at an issue opportunity of a core with ready roles, one of them is chosen: an urgent role of the largest count where there is one; else
one of the highest priority, the last issuer where it does not yield, and one that does not yield before one that does; the count of the
chosen role becomes 0, the other ready roles' counts rise by 1 and every other role's is 0. -/
def Sys2Proof.Claim.OpportunitiesChoose : Prop :=
  ∀ (s : State) (c : Nat), (s.core c).phase = .choose → (s.core c).ops = [] → ((s.core c).slots.map (·.2)).Nodup →
    (∀ p ∈ s.coreRoles c, p.2.2.halting = false ∧ p.2.2.pend = []) →
    let ready := s.readyRoles c
    let i : Instr := .issueOpportunity c
    (ready = [] → exec i s = .next s) ∧
    (ready ≠ [] → ∃ t p, exec i s = .next t ∧ p ∈ ready ∧ (t.core c).last = some p.2.1 ∧
      ((t.core c).phase = .run p.2.1 ∨ (t.core c).phase = .header p.2.1) ∧ t.mem = s.mem ∧
      (∀ x ∈ ready, 48 ≤ x.2.2.count → 48 ≤ p.2.2.count ∧ x.2.2.count ≤ p.2.2.count) ∧
      (p.2.2.count < 48 → ∀ x ∈ ready, x.2.2.prio ≤ p.2.2.prio ∧ (x.2.2.prio = p.2.2.prio →
        ((s.core c).last = some x.2.1 → x.2.2.yields = false → p.2.1 = x.2.1) ∧
        (x.2.2.yields = false → p.2.2.yields = false) ∧
        ((s.core c).last ≠ some p.2.1 → x.2.2.yields = p.2.2.yields →
          x.2.2.count ≤ p.2.2.count ∧ (x.2.2.count = p.2.2.count → p.1 ≤ x.1)))) ∧
      ∀ x ∈ s.coreRoles c, t.role? x.2.1 = some { x.2.2 with
        count := if x.2.1 = p.2.1 then 0 else if x ∈ ready then x.2.2.count + 1 else 0 })

/-- R22, R23, R30, R32, R403, R404: fetching a clause, issuing its header, and choosing among a core's roles. The model's own choices in it:
assumption log 44, 150, 151. -/
def Obligations.ClausesAndOpportunities : Prop := Claim.ClausesIssue ∧ Claim.OpportunitiesChoose

/-! ### The scheduler, saving and restoring (19 R390-R402, 20 R425-R427, R473) -/

/-- R201, R390, R393, R407: a gang starts whole: each role of its shape starts on the core of its rank at its entry, with its scalars, its lanes in
m0, its stack place and the default handler of its VMID; no other role and no byte of memory changes. -/
def Obligations.GangsStartWhole : Prop :=
  ∀ (s : State) (sh : Shape) (g : Gang) (args : List Word) (pts : Nat),
    let t := s.admitGang sh g args pts
    t.gang? s.nextGang = some g ∧ t.nextGang = s.nextGang + 1 ∧ (∀ k, k < s.nextRole → t.role? k = s.role? k) ∧ t.mem = s.mem ∧
    (∀ c ∈ g.cores, pts ≤ (t.core c).pts) ∧
    ∀ i j rs x, sh.teams[i]? = some rs → rs[j]? = some x → ∃ k q, s.nextRole ≤ k ∧ t.role? k = some q ∧ q.gang = s.nextGang ∧
      q.team = i ∧ q.ix = j ∧ q.rank = i % sh.cores ∧ q.core = g.cores.getD (i % sh.cores) 0 ∧ q.nlanes = x.lanes ∧ q.budget = x.budget ∧
      q.pc = x.entry ∧ q.clause = none ∧ q.handler = false ∧ q.ended = false ∧ q.vmid = g.vmid ∧ q.asid = g.asid ∧ q.prio = g.prio ∧
      (∀ n, q.sreg n = args.getD n 0) ∧ q.vregs = [] ∧ (∀ l, l < 1024 → (q.mask 0).getLsbD l = decide (l < x.lanes)) ∧
      q.stack = [] ∧ q.rsbase = BitVec.ofNat 64 (sh.stkbase + sh.stride * (384 * g.g + 4 * i + j)) ∧ q.limit = sh.limit ∧
      q.tvec = s.reg (dieOf q.core) (0x6100 + 8 * g.vmid)

/-- R392, R393, R396, R400: the dependences of a head packet are met together, and a faulting one stops the queue; the scheduler takes saved gangs,
then spawn queues, then the queues' heads; a gang retires with its DONE add, and its roles are gone. -/
def Sys2Proof.Claim.LaunchesAdvance : Prop :=
  (∀ (s : State) (q : Nat) (ws : List Word) (h : Head), s.served? q = some ws → (s.queueState q).head = some h → h.deps = false →
    h.cons = qCons ws →
    let met := fun (d : Word × Nat) => s.depMet (agentWalker 0 (qVmid ws) (qAsid ws) 0) d
    ((∀ d ∈ h.depList, met d = .ok true) → ∃ t h', exec (.launchDepMet q) s = .next t ∧ (t.queueState q).head = some h' ∧ h'.deps = true ∧
      h'.packet = h.packet ∧ h'.next = h.next ∧ h.pts ≤ h'.pts) ∧
    ((∃ d ∈ h.depList, ∃ c a, met d = .error (.cause c a)) → exec (.launchDepMet q) s = .next (s.stopQueue q 4)) ∧
    ((∀ d ∈ h.depList, ∃ b, met d = .ok b) → (∃ d ∈ h.depList, met d = .ok false) → exec (.launchDepMet q) s = .next s)) ∧
  (∀ s : State,
    (∀ t, s.loadHeads? = some t → exec .gangAdmit s = .next t) ∧
    (s.loadHeads? = none →
      (∀ t, s.serveSaved? = some t → exec .gangAdmit s = .next t) ∧
      (s.serveSaved? = none → ∀ t, s.serveSpawns? = some t → exec .gangAdmit s = .next t) ∧
      (s.serveSaved? = none → s.serveSpawns? = none → ∀ q st ws h sh part, s.queues = [(q, st)] → s.served? q = some ws → st.head = some h →
        h.shape = some sh → s.partOfQueue q (qVmid ws) = some part → h.deps = true → h.cons = qCons ws → h.coop = false → qPrio ws < 4 →
        let fits := fun (c k : Nat) => !(s.reservedFrom part (qPrio ws) c (some q)) && s.coreFits c 0 (sh.need k) sh.sp {} (Need.zero, 0) false
        (placeOn fits sh.cores (s.clustersOf part) = none → exec .gangAdmit s = .next s) ∧
        ∀ cores, placeOn fits sh.cores (s.clustersOf part) = some cores → h.next + 1 < h.ngangs →
          let t := s.admitGang sh (h.gang q ws sh part h.next cores) (h.args h.next) h.pts
          exec .gangAdmit s = .next { t.setHead q (some { h with next := h.next + 1 }) with rr := q }))) ∧
  ∀ (s : State) (gid : Nat) (g : Gang), s.gang? gid = some g → g.state = .resident → s.retireReady gid g = true →
    (∃ q, g.origin = .queue q) → g.noDone = false →
    let gone := fun (t u : State) => (∀ k q, t.role? k = some q → q.gang ≠ gid) ∧ t.mem = u.mem ∧
      (∀ x, u.gang? gid = some x → t.gang? gid = some { x with noDone := true, state := .retired })
    (g.done = 0 → ∃ t, exec (.gangRetire gid) s = .next t ∧ gone t s) ∧
    (g.done ≠ 0 → ∀ s1, (s.tick (s.gangPts g)).vaAdd (agentWalker (dieOf (g.cores.headD 0)) g.vmid g.asid 0) (g.done : Int) 1 = .ok ((), s1) →
      ∃ t, exec (.gangRetire gid) s = .next t ∧ gone t s1)

/-- R399-R401: the first parked push is made once there is room; a batch is formed from records of one depth; the time-out is noted; for a full queue
whose batch has no place, a gang parked on full queues begins to be saved. -/
def Sys2Proof.Claim.SpawnQueuesAdvance : Prop :=
  ∀ (s : State) (qva vmid asid : Nat) (x : Spawn), s.spawn? qva vmid asid = some x →
    (∃ t, exec (.spawnBatchTimeout qva vmid asid) s = .next t ∧ t.spawn? qva vmid asid = some { x with timeout := true } ∧ t.mem = s.mem) ∧
    (∀ p rest r ws s1 s2, x.parked = p :: rest → p.query = none → s.role? p.rid = some r →
      s.vaWords (r.walker none) .load (qva : Int) 8 = .ok (ws, s1) →
      let q : SpawnQ := { qva := qva, w := ws }
      q.bad = false → q.room p.records.length = true →
      (s1.tick (s1.core r.core).pts).writePush (r.walker none) .store q p = .ok ((), s2) → ∀ y, s2.role? p.rid = some y →
        ∃ t, exec (.spawnPushAccept qva vmid asid) s = .next t ∧ t.role? p.rid = some y.advance ∧ t.mem = s2.mem ∧
          ∀ z ∈ t.spawns, ∀ k ∈ z.parked, k.stamp ≠ p.stamp) ∧
    (∀ q s1 b, x.ready = none → s.readSpawn x = .ok (q, s1) → batchOf q x = some b →
      1 ≤ b.count ∧ b.count ≤ q.batch ∧ b.first = q.taken ∧ (b.count = q.batch ∨ x.timeout = true) ∧
      (∀ i, i < b.count → (x.origin ((q.taken + i) % 2 ^ 32)).1 = b.depth) ∧
      (∀ d s2, s1.readShape x.walker q.ldesc = .ok (d, s2) → s2.spawn? qva vmid asid = some x →
        ∃ t, exec (.spawnBatchForm qva vmid asid) s = .next t ∧ t.spawn? qva vmid asid = some { x with ready := some (b, d) }) ∧
      (∀ c a s2, s1.readShape x.walker q.ldesc = .error (.cause c a, s2) → exec (.spawnBatchForm qva vmid asid) s = .next (s2.spawnError x 2)) ∧
      ∀ s2, s1.readShape x.walker q.ldesc = .error (.bad, s2) → exec (.spawnBatchForm qva vmid asid) s = .next (s2.spawnError x 1)) ∧
    ∀ b d q s1 sh gid g, (s.gangs.map (·.1)).Nodup → s.fullOrder = [x] → x.ready = some (b, d) → s.readSpawn x = .ok (q, s1) → shapeOf d = some sh →
      (∀ p ∈ s.gangs, p.2.state ≠ .saving) → s.batchPlace x q b sh = none → s.makesRoom x q b sh = some gid → s.gang? gid = some g →
      s.preemptible (x.origin b.first).2 gid g = true ∧ ∃ t, exec .schedulerPreempt s = .next t ∧ t.gang? gid = some { g with
        state := .saving, saveArea := none, savedFor := some (x.qva, x.vmid, x.asid, b.first) } ∧ t.mem = s.mem

/-- R416, R420, R425-R427, R440, R473: a pending trap is taken at a boundary with a record of KIND 2; a save is made once all has come to rest, and a gang
whose roles have all ended is not saved; a CTXLOAD is complete when its gang has its place again; a counter that is met wakes its role. -/
def Sys2Proof.Claim.SavesAndPendingTraps : Prop :=
  (∀ (s : State) (rid : Nat) (r : Role) (p : PendTrap) (rest : List PendTrap), s.role? rid = some r → r.pend = p :: rest → r.ended = false →
    r.handler = false →
    (r.atBoundary = true → s.ringRoom (dieOf r.core) = true → r.tvec ≠ 0 → p.cause < 256 → dieOf r.core < 4 →
      ∃ t q, exec (.pendingTrapTake rid) s = .next t ∧ t.role? rid = some q ∧ q.handler = true ∧ q.pc = r.tvec ∧ q.tpc = p.pc ∧
        q.taddr = p.addr ∧ q.pend = rest ∧ RegsKept r q ∧
        q.tcause.toNat = p.cause + 2 ^ 8 + (if p.final then 2 ^ 9 else 0) + 2 ^ 10 +
          ringProd s (dieOf r.core) % 2 ^ ringSizeLog s (dieOf r.core) % 2 ^ 16 * 2 ^ 32 + dieOf r.core * 2 ^ 48) ∧
    ((r.atBoundary = false ∧ s.stoppedOp rid r = none) ∨ s.ringRoom (dieOf r.core) = false → exec (.pendingTrapTake rid) s = .next s)) ∧
  (∀ (s : State) (gid : Nat) (g : Gang), s.gang? gid = some g → g.state = .saving →
    ((∀ p ∈ s.roles, p.2.gang = gid → p.2.ended = true) → g.saveArea = none → ∃ t, exec (.gangSaveComplete gid) s = .next t ∧
      t.gang? gid = some { g with state := .resident, saveArea := none } ∧ t.roles = s.roles ∧ t.mem = s.mem) ∧
    ((∃ p ∈ s.roles, p.2.gang = gid ∧ p.2.ended = false) →
      (s.saveReady gid g = false → exec (.gangSaveComplete gid) s = .next s) ∧
      (s.saveReady gid g = true → g.saveArea = none → exec (.gangSaveComplete gid) s = .next (s.doSave gid g)) ∧
      (s.saveReady gid g = true → ∀ (q : SaveReq) (r : Role) (s1 : State), g.saveArea = some q → s.role? q.rid = some r →
        s.vaStores { r.walker none with handler := true } .store
          ((saveHeader gid g (s.gangPts g) (s.saveSize gid g)).zipIdx.map (fun p => (((q.area + 8 * p.2 : Nat) : Int), 8, p.1.toNat)) ++
            s.spillWrites gid g q.area) = .ok ((), s1) →
        exec (.gangSaveComplete gid) s = .next ((s1.doSave gid g).answerCtx q 0)))) ∧
  (∀ (s : State) (gid : Nat) (g : Gang) (q : SaveReq) (cores : List Nat) (r : Role), s.loadHeads? = none → s.saveOrder = [gid] →
    s.gang? gid = some g → g.prio < 4 → g.state = .loading → g.saveArea = some q → s.loadAlive q = true → s.restorePlace gid g = some cores →
    let s1 := s.restoreGang gid g cores
    s1.role? q.rid = some r → ∀ s2, s1.vaStores { r.walker none with handler := true } .store [((q.area : Nat), 8, 0)] = .ok ((), s2) →
      s2.role? q.rid = some r → q.ws < 8 → ∃ p, exec .gangAdmit s = .next (s2.setRole q.rid p) ∧ Answered r p q.dst (BitVec.ofNat 3 q.ws) 0) ∧
  ∀ (s : State) (rid : Nat) (r : Role), s.role? rid = some r →
    (∀ a, r.hold = .counter a → exec (.cwaitWake rid) s = .next (s.setRole rid { r with hold := .ready })) ∧
    ((∀ a, r.hold ≠ .counter a) → ∃ t, exec (.cwaitWake rid) s = .next t ∧ t.role? rid = some r)

/-- R392, R393, R396, R399-R401, R416, R420, R425, R440, R473: the scheduler's steps. The model's own choices in it: assumption log 81, 86,
88, 90, 96, 101, 147. -/
def Obligations.SchedulerSteps : Prop := Claim.LaunchesAdvance ∧ Claim.SpawnQueuesAdvance ∧ Claim.SavesAndPendingTraps

/-! ### The fault ring, the side log, and moving pages (03 R93-R98, 04 R111-R113, 20 R410-R418, 21 R443) -/

/-- R410, R412-R416, R418, R443: a place in the ring or in the log makes what waits for it go on; a verdict on a record that is complete and not done marks it: a held
access walks again, or its role traps with FINAL and REC; a logged entry replays, or it is final. The first entry of a role that is
performed is freed. A refused store becomes an entry with a record. -/
def Sys2Proof.Claim.FaultRingAndSideLog : Prop :=
  (∀ (s : State) (d : Die), ∃ t, exec (.faultRingSpace d) s = .next t ∧ t.mem = s.mem ∧
    (∀ k q, s.role? k = some q → t.role? k = some (if q.hold = .ring ∧ dieOf q.core = d.val then { q with hold := .ready } else q)) ∧
    ∀ p ∈ s.cores, dieOf p.1 = d.val → ∀ e ∈ p.2.log, ∀ c, e.state = .logged c none → c ≠ cCOW → c ≠ cMIG →
      .sidelogReplay p.1 e.id ∈ t.pending) ∧
  (∀ (s : State) (c : Nat), ∃ t, exec (.sidelogSpace c) s = .next t ∧ t = { s with roles := t.roles } ∧ ∀ k q, s.role? k = some q →
    t.role? k = some (if q.hold = .logSpace ∧ q.core = c then { q with hold := .ready } else q)) ∧
  (∀ (s : State) (d : Die) (idx : Nat) (ws : List Word) (s0 : State), s.recordWords d idx = (ws, s0) →
    let w20 := (ws.getD 4 0).toNat
    let st := (ws.getD 5 0).toNat
    let kind := w20 / 2 ^ 10 % 4
    let gid := (ws.getD 3 0).toNat % 2 ^ 32
    let s1 := (s0.markDone d idx).send (.faultRingSpace d)
    let both := fun (final : Bool) => if final then Instr.faultVerdictFinal d idx else .faultVerdictRetry d idx
    ((st % 2 = 0 ∨ st / 2 % 2 = 1 ∨ 2 ≤ kind) → ∀ b, exec (both b) s = .next s0) ∧
    (st % 2 = 1 → st / 2 % 2 = 0 → kind < 2 → ∀ g, s1.gang? gid = some g →
      (g.state = .saved → ∀ b, exec (both b) s = .next (s1.setGang gid { g with verdicts := g.verdicts ++ [(d, idx, b)] })) ∧
      (g.state = .resident → kind = 0 → ∀ rid r rest, s1.roles = (rid, r) :: rest → r.hold = .service d idx →
        exec (both false) s = .next (s1.setRole rid { r with hold := .ready }) ∧
        (r.handler = false → r.tvec ≠ 0 → ∃ t q, exec (both true) s = .next t ∧ t.role? rid = some q ∧ q.handler = true ∧ q.pc = r.tvec ∧
          q.taddr = ws.getD 0 0 ∧ q.tpc = ws.getD 1 0 ∧
          q.tcause.toNat = w20 % 256 + 2 ^ 9 + 2 ^ 10 + idx % 2 ^ 16 * 2 ^ 32 + d.val * 2 ^ 48)) ∧
      (g.state = .resident → kind = 0 → (∀ p ∈ s1.roles, p.2.hold ≠ .service d idx) → ∀ core k n o rest more, s1.cores = (core, k) :: rest →
        k.ops = (n, o) :: more → o.stop = .record d.val idx →
        exec (both false) s = .next (s1.setCore core { k with ops := (n, { o with stop := .walk }) :: more })) ∧
      (g.state = .resident → kind = 1 → ∀ core k e cause rest, s1.cores = (core, k) :: rest → k.log.head? = some e →
        e.state = .logged cause (some (d.val, idx)) →
        (∃ t, exec (both false) s = .next t ∧ .sidelogReplay core e.id ∈ t.pending ∧ t.mem = s1.mem) ∧
        exec (both true) s = .next (s1.finalReport core e cause)))) ∧
  (∀ (s : State) (c : Nat) (e : LogEntry), (s.core c).log.find? (fun x => x.id == e.id) = some e → e.state ≠ .lost → e.state.awaits = false →
    let r := { (s.role? e.rid).getD {} with wver := e.wver, asid := e.asid, handler := e.handler }
    ((s.core c).entriesOf e.rid).head? = some e →
    (∀ p ∈ (s.core c).opsOf e.rid, p.1 < e.after → p.2.kind ≠ .store ∧ p.2.kind ≠ .atomic ∧ p.2.kind ≠ .load) →
    ∀ ty cls xs, e.body = .elems ty cls xs →
      (∀ s1, s.storeElems r ty cls xs = (none, s1) → ∃ t, exec (.sidelogReplay c e.id) s = .next t ∧ t.mem = s1.mem ∧
        (∀ x, x ∈ (t.core c).log ↔ x ∈ (s1.core c).log ∧ ¬(x.id = e.id ∧ x.rid = e.rid)) ∧ .sidelogSpace c ∈ t.pending) ∧
      ∀ w left s1, s.storeElems r ty cls xs = (some (w, left), s1) → exec (.sidelogReplay c e.id) s = .next
        ((s1.ownStores e.rid r ty (xs.take (xs.length - left.length))).replayFault c r e w ((left.head?.map (·.2.1)).getD 0) (.elems ty cls left))) ∧
  (∀ (s : State) (c : Nat) (e : LogEntry) (cause : Nat),
    let t := s.finalReport c e cause
    let p : PendTrap := { cause := cause, addr := BitVec.ofNat 64 e.addr, pc := e.pc, final := true, wr := true }
    (∀ q, s.role? e.rid = some q → t.role? e.rid = some { q with pend := q.pend ++ [p] }) ∧
    (∀ x ∈ (t.core c).log, x ∈ (s.core c).log) ∧ e ∉ (t.core c).log ∧
    ∀ x ∈ (s.core c).log, x.rid ≠ e.rid → x ∈ (t.core c).log) ∧
  ∀ (s : State) (m : StReqMsg) (cause : Nat) (o : Op) (r : Role), (s.core m.core).ops.find m.op = some o → s.role? o.rid = some r →
    r.core = m.core → r.ended = false → o.kind = .store → (cause = cPERM ∨ cause = cNOTPRESENT ∨ cause = cPEER) →
    let s1 := s.updCore m.core fun k => { k with ops := k.ops.del m.op }
    let q := o.entry m.op
    let id := (s1.core m.core).freeEntry
    q.body = .elems o.ty o.cls (o.waiting.map fun e => (e.lane, e.va, e.data)) ∧ q.addr = (o.waiting.head?.map (·.va)).getD 0 ∧ q.pc = o.pc ∧
    ((s1.core m.core).logRoom q.body = true → ∀ d idx s2,
      s1.writeRecord { r with asid := o.asid }
        { addr := BitVec.ofNat 64 q.addr, pc := o.pc, entry := id, kind := 1, wr := true, cause := cause } = some (d, idx, s2) →
      (∀ p ∈ (s2.core m.core).ops, p.1 ≤ m.op) →
      exec (.homeRefusal m cause) s = .next (s2.addEntry m.core { q with id := id, state := .logged cause (some (d, idx)) }))

/-- R112: a slot may go when its version is below the oldest that some reader may still ask for: a newer version, a slot's or the current one's, stands
at or below EFF; the slot of the lowest version goes first. -/
def Sys2Proof.Claim.ReclaimTakesTheOldest : Prop :=
  ∀ (c : Chain) (cur : Nat),
    let newer := fun (x : ChainSlot) => ∃ b, (b = cur ∨ ∃ y ∈ c.slots, y.v = true ∧ y.ver = b) ∧ x.ver < b ∧ b ≤ c.eff
    (∀ k x, c.reclaimable cur = some (k, x) → 1 ≤ k ∧ c.slots[k - 1]? = some x ∧ x.v = true ∧ newer x ∧
      ∀ y ∈ c.slots, y.v = true → newer y → x.ver ≤ y.ver) ∧
    (c.reclaimable cur = none ↔ ∀ x ∈ c.slots, x.v = true → ¬newer x)

/-- R112, R410-R418, R443: the fault ring, the side log, and the order of reclaim. The model's own choices in it: assumption log 35, 36, 38,
174. -/
def Obligations.FaultRingLogAndReclaim : Prop := Claim.FaultRingAndSideLog ∧ Claim.ReclaimTakesTheOldest

/-- R93-R98, R111-R113, R472: the snapshot and migration engines: a request or copy that may go on does; a copy that ends leaves no job for
its page, no role held at a walk, and the held stores' replays due; a sweep chooses a frame that it may take; returns are made in order.
The model's own choices in it: assumption log 107, 108, 109, 111, 112, 148, 154, 155, 173. -/
def Obligations.PagesMove : Prop :=
  (∀ (s : State) (d : Die) (j : CowJob), (s.die d).cow = [j] → j.owes = none →
    (j.stage = .request → (s.peek j.chainAddr 8 0) / 2 ^ 16 % 2 = 0 → s.peek j.chainAddr 8 0 < 2 ^ 64 →
      exec (.snapshotCopyRequest d) s = .next (s.cowStart d j)) ∧
    (j.stage = .finish → exec (.snapshotCopyResume d) s = .next ((s.clearBusy d j).endCow d j)) ∧
    (j.stage = .frame → (s.freePeek d (ringOf d j.oldFrame).tier).isSome = true → exec (.snapshotCopyResume d) s = .next (s.cowFrame d j)) ∧
    ∀ dest, j.stage = .copying dest →
      (s.frameQuiet j.oldFrame = false ∨ s.frameQuiet dest = false → ∀ e, exec (.snapshotCopyComplete d e) s = .next s) ∧
      (s.frameQuiet j.oldFrame = true → s.frameQuiet dest = true →
        let s1 := (s.dropPage j.leafAddr j.oldFrame).flushFrame j.oldFrame
        (s1.frameBad j.oldFrame = false → ∃ t, exec (.snapshotCopyComplete d false) s = .next t ∧
          (∀ q ∈ (t.die d).cow, q.leafAddr ≠ j.leafAddr) ∧ (∀ k q, t.role? k = some q → q.hold ≠ .walk) ∧
          (∀ p ∈ t.cores, ∀ e ∈ p.2.log, ∀ c, e.state = .logged c none → (c = cCOW ∨ c = cMIG) → .sidelogReplay p.1 e.id ∈ t.pending)))) ∧
  (∀ (s : State) (d : Die), (s.die d).cow ≠ [] → exec (.reclaimSweep d) s = .next s) ∧
  (∀ (s : State) (d : Die), (s.die d).cow = [] → (s.die d).sweepOwes = none → let v := (s.die d).sweep.1
    s.chainAddr? d v (s.die d).sweep.2 = none → ∃ t, exec (.reclaimSweep d) s = .next t ∧ t.mem = s.mem ∧
      (t.die d).sweep = s.sweepNext d v (s.die d).sweep.2) ∧
  (∀ (s : State) (d : Die) (ca : Nat) (c : Chain) (s1 : State) (k : Nat) (x : ChainSlot) (ret : Return) (s2 : State), (s.die d).cow = [] →
    (s.die d).sweepOwes = none → s.chainAddr? d (s.die d).sweep.1 (s.die d).sweep.2 = some ca →
    s.readChain d (s.die d).sweep.1 ca = (some c, s1) → c.busy = false →
    let w0 := BitVec.ofNat 64 (s1.peek c.leafAddr 8 0)
    w0.getLsbD 0 = true → w0.getLsbD 9 = true → s1.homeOf (lineOf (framePA (w0.toNat / 2 ^ 16 % 2 ^ 36))) = d.val →
    c.reclaimable (s1.leafVer c.leafAddr) = some (k, x) → s1.frameQuiet x.frame = true → s1.reclaimSlot d ca k x = (ret, s2) →
    ∃ t, exec (.reclaimSweep d) s = .next t ∧ t.mem = s2.mem ∧ (t.die d).sweep = (s2.die d).sweep) ∧
  (∀ (s : State) (d t n i : Nat) (seen : Bool) (v : Nat), (s.sweepFrom d t n i seen).1 = some v → s.skips d t v = false) ∧
  (∀ (s : State) (d : Die),
    (s.lowf d = true → s.migBit d 2 3 = false → ∃ t, exec (.migrationStart d 2) s = .next t ∧ t.signals = s.signals ++ [.lowf d] ∧ t.mem = s.mem) ∧
    (s.lowf d = s.migBit d 2 3 → exec (.migrationStart d 2) s = .next s) ∧
    ∀ tier : Fin 3, tier ≠ 2 →
      ((s.die d).mig.find tier = none → s.migBit d tier 2 = false → (tier = 1 → s.migBit d 1 4 = false) → s.migActive d tier = true →
        exec (.migrationStart d tier) s = .next (s.migBegin d tier)) ∧
      ∀ j, (s.die d).mig.find tier = some j → exec (.migrationStart d tier) s = .next s ∧
        (j.stage = .drop → j.owes = none → ∃ t, exec (.migrationResume d tier) s = .next t ∧ (t.die d).mig.find tier = none ∧ t.mem = s.mem) ∧
        ∀ dest, j.stage = .copying dest → (s.frameQuiet j.victim = false ∨ s.frameQuiet dest = false → ∀ e, exec (.migrationComplete d tier e) s = .next s) ∧
          (s.frameQuiet j.victim = true → s.frameQuiet dest = true → ∀ e, exec (.migrationComplete d tier e) s = .next (s.migComplete d tier j dest e))) ∧
  ∀ (s : State) (d : Die) (tier : Fin 3) (x : Return), (s.die d).returns = [x] → x.die = d.val → x.tier = tier.val →
    (s.freeRoom d tier = false → exec (.frameReturnResume d tier) s = .next s) ∧
    (s.freeRoom d tier = true → exec (.frameReturnResume d tier) s = .next ((s.setDie d { s.die d with returns := [] }).freePut x))

/-! ### The life of the package, its registers, the host and the pod (02 R61-R75, 05 R135-R140, 08 R180-R199, 22 R445-R459) -/

/-- R118, R137-R140: a seam sleeps, but never with SLEEPIDLE 0, fails to wake, or retrains without success, and then a die is declared dead;
a heartbeat ends a period of its die for each peer and begins one at each peer; a third period without one declares the peer dead; a die
acts on the first declaration. The model's own choices in it: assumption log 116, 117, 118, 119, 177. -/
def Obligations.SeamsAndDeadDies : Prop :=
  ∀ (s : State) (a b : Die), a.val < b.val →
    let k := seamKey a b
    let m := s.seams.get {} k
    let set := fun (x : Seam) => ({ s with seams := s.seams.put k x } : State)
    (m.lstate = 0 → m.held = [] → 0 < (s.reg a 0x4000).toNat / 2 ^ 32 % 2 ^ 16 → 0 < (s.reg b 0x4000).toNat / 2 ^ 32 % 2 ^ 16 →
      exec (.seamSleep a b) s = .next (set { m with lstate := 1 })) ∧
    ((s.reg a 0x4000).toNat / 2 ^ 32 % 2 ^ 16 = 0 ∨ (s.reg b 0x4000).toNat / 2 ^ 32 % 2 ^ 16 = 0 → exec (.seamSleep a b) s = .next s) ∧
    (m.lstate = 2 → exec (.seamWakeFail a b) s = .next
      ((set { m with lstate := 3, wakefail := m.wakefail + 1, retrain := m.retrain + 1 }).send (.seamRetrainComplete a b))) ∧
    (m.lstate = 3 → ∀ pa pb, let dead : Die := if pa && !pb then b else if pb && !pa then a else b
      ∃ t, exec (.seamRetrainTimeout a b pa pb) s = .next t ∧ t.seams = (set { m with lstate := 4 }).seams ∧ t.mem = s.mem ∧
        ∀ x : Die, x ≠ dead → .dieDeadDeclaration x dead ∈ t.pending) ∧
    (∀ d : Die, s.isDead d = false → ∃ t, exec (.heartbeat d) s = .next t ∧ t = { s with hearts := t.hearts } ∧ ∀ p : Die, p ≠ d →
      t.hearts.get 0 (4 * d.val + p.val) = s.hearts.get 0 (4 * d.val + p.val) + 1 ∧ t.hearts.get 0 (4 * p.val + d.val) = 0) ∧
    ((s.hearts.get 0 (4 * a.val + b.val) < 3 ∨ (s.die a).dead.getLsbD b = true) → exec (.heartbeatTimeout a b) s = .next s) ∧
    (3 ≤ s.hearts.get 0 (4 * a.val + b.val) → (s.die a).dead.getLsbD b = false → ∃ t, exec (.heartbeatTimeout a b) s = .next t ∧
      t.mem = s.mem ∧ t.dies = s.dies ∧ ∀ x : Die, x ≠ b → .dieDeadDeclaration x b ∈ t.pending) ∧
    ((s.die a).dead.getLsbD b = true → exec (.dieDeadDeclaration a b) s = .next s) ∧
    ((s.die a).dead.getLsbD b = false → s.isDead b = true → ∃ t, exec (.dieDeadDeclaration a b) s = .next t ∧ t.mem = s.mem ∧
      (t.die a).dead.getLsbD b = true ∧ (∀ l ∈ (t.die a).lines, ¬(isHostLine l.line = false ∧ s.homeOf l.line = b.val)) ∧
      ∀ l ∈ (s.die a).lines, ¬(isHostLine l.line = false ∧ s.homeOf l.line = b.val) → l ∈ (t.die a).lines)

/-- The named register of a die's window reads `v`. -/
def Sys2Proof.Claim.RegIs (t : State) (d off : Nat) (v : Nat) : Prop := (t.reg d off).toNat = v

/-- R65, R66, R70, R94, R117, R180, R182, R410, R446-R450, R456: writes to the registers of the device windows: each writes the bits that
its map gives and nothing else of memory or of the roles. The model's own choices in it: assumption log 126. -/
def Obligations.RegistersTakeWrites : Prop :=
  ∀ (s : State) (d : Die) (v : Word),
    let quietly := fun (i : Instr) (f : State → Prop) => ∃ t, exec i s = .next t ∧ f t ∧ t.mem = s.mem ∧ t.roles = s.roles
    let old := fun (off : Nat) => (s.reg d off).toNat
    (∀ id : CtxId, let c := s.ctx id
      quietly (.ctxControlWrite id v) fun t => (t.ctx id).en = v.getLsbD 0 ∧ (t.ctx id).skip = v.getLsbD 1 ∧
        (t.ctx id).prio = v.toNat / 2 ^ 26 % 4 ∧ (t.ctx id).cmds = c.cmds ∧ (t.ctx id).completed = c.completed ∧
        (c.accepted = c.completed → (t.ctx id).vmid = v.toNat / 2 ^ 28 % 16 ∧ (t.ctx id).asid = v.toNat / 2 ^ 32 % 65536) ∧
        (c.accepted ≠ c.completed → (t.ctx id).vmid = c.vmid ∧ (t.ctx id).asid = c.asid)) ∧
    (∀ id : CtxId, let c := s.ctx id
      (c.err = false → exec (.ctxErrClear id) s = .next s) ∧
      (c.err = true → quietly (.ctxErrClear id) fun t => (t.ctx id).err = false ∧ (t.ctx id).skip = false ∧ (t.ctx id).failn = c.failn ∧
        (t.ctx id).cmds = c.cmds.map fun q => if q.st = .failed then
          { q with st := if c.skip = true ∧ c.tlRetry = none ∧ q.n = c.failn then .done else .accepted, sigs := [], moved := [] } else q)) ∧
    (∀ off, 0x0100_0000 ≤ off → off % 8 = 0 → off < 0x0120_0000 → quietly (.frameAttrWrite d off v) fun t => ∀ i, i < 8 →
      (t.die d).attrs.get {} (off - 0x0100_0000 + i) = { (s.die d).attrs.get {} (off - 0x0100_0000 + i) with
        acc := v.getLsbD (8 * i + 7), vers := v.getLsbD (8 * i + 6), inter := v.getLsbD (8 * i + 5) }) ∧
    (∀ f, f = v.toNat % 2 ^ 23 → v.toNat / 2 ^ 23 % 2 ^ 40 = 0 → (v.getLsbD 63 = false → f < 2 ^ 21 → quietly (.rclear d v) fun t =>
        ((t.die d).attrs.get {} f).retired = false ∧ ∀ g, g ≠ f → (t.die d).attrs.get {} g = (s.die d).attrs.get {} g) ∧
      (v.getLsbD 63 = true → f < 2 ^ 22 → quietly (.rclear d v) fun t => ((t.die d).attrs.get {} (2 ^ 24 + f)).retired = false)) ∧
    ((s.die d).lines = [] → v.toNat % 4 ≠ 3 → 32 ≤ (s.die d).hashsel.toNat / 4 % 64 + v.toNat % 4 → quietly (.hashselWrite d v) fun t =>
      (t.die d).hashsel.toNat % 4 = v.toNat % 4 ∧ (t.die d).hashsel.toNat / 4 = (s.die d).hashsel.toNat / 4) ∧
    ((s.die d).lines ≠ [] → exec (.hashselWrite d v) s = .next s) ∧
    (∀ c, quietly (.ptsWrite c v) fun t => (t.core c).pts = max (s.core c).pts v.toNat ∧ ∀ k, k ≠ c → t.core k = s.core k) ∧
    quietly (.faultRingConsWrite d v) (fun t => RegIs t d 0x6008 (old 0x6008 / 2 ^ 32 * 2 ^ 32 + v.toNat % 2 ^ 32)) ∧
    (∀ tier : Fin 3, let off := 0x2000 + 0x100 * tier.val
      quietly (.migrationEnableWrite d tier v) fun t =>
        (t.reg d off).getLsbD 0 = (if v.getLsbD 0 = true ∧ old (off + 8) / 2 ^ 32 ≤ old (off + 8) % 2 ^ 32 then (s.reg d off).getLsbD 0
          else v.getLsbD 0) ∧
        (v.getLsbD 2 = true → (t.reg d off).getLsbD 2 = false) ∧ (v.getLsbD 4 = true → (t.reg d off).getLsbD 4 = false)) ∧
    (∀ off, 0x6300 ≤ off → off < 0x6330 → off % 8 = 0 → quietly (.errorCounterWrite d off v) fun t => RegIs t d off 0 ∧
      ∀ o, o ≠ off → t.reg d o = s.reg d o) ∧
    (∀ p, p < 8 → let off := 0x6200 + 8 * p
      (s.partsIdle ([p].filter fun p => p < s.partitions) = true → quietly (.partitionWrite d off v) fun t =>
        ∀ i, i < 64 → (t.reg d off).getLsbD i = (v.getLsbD i && decide (59 ≤ i ∨ (32 ≤ i ∧ i < 48)))) ∧
      (s.partsIdle ([p].filter fun p => p < s.partitions) = false → s.reg d off ≠ (v &&& 0xF800_FFFF_0000_0000#64) →
        quietly (.partitionWrite d off v) fun t => t.reg d off = s.reg d off ∧ t.reg d 0x6328 = s.reg d 0x6328 + 1)) ∧
    (∀ n, (∀ x : Die, ∀ l ∈ (s.die x).lines, l.vmid ≠ n) → n < 16 →
      quietly (.keyLoad d (BitVec.ofNat 64 (n + 256))) (fun t => (t.die d).keys.find n = some (s.die d).staged ∧ (t.die d).staged = 0) ∧
      quietly (.keyClear d (BitVec.ofNat 64 n)) (fun t => (t.die d).keys.find n = none ∧ (t.die d).staged = 0)) ∧
    (∀ k, k < 8 → quietly (.registerWrite d (0x6800 + 8 * k) v) fun t => ∀ i, i < 512 → (t.die d).staged.getLsbD i =
      if 64 * k ≤ i ∧ i < 64 * k + 64 then v.getLsbD (i - 64 * k) else (s.die d).staged.getLsbD i) ∧
    (∀ n, n < 16 → quietly (.registerWrite d (0x6100 + 8 * n) v) fun t => ∀ i, i < 64 → (t.reg d (0x6100 + 8 * n)).getLsbD i =
      (decide (3 ≤ i) && v.getLsbD (min i 56))) ∧
    quietly (.registerWrite d 0x4100 v) (fun t => RegIs t d 0x4100 (old 0x4100 / 65536 * 65536 + v.toNat % 65536)) ∧
    (∀ off, off % 8 ≠ 0 → exec (.registerWrite d off v) s = .next s)

/-- R386, R430, R457: a doorbell to an enabled queue without the LAUNCH mark, within its size, moves PROD; else it is ignored or stops the queue. An attestation
request at a 4 KiB-aligned address of memory is answered by a report over the nonce that stands there, written 256 bytes above it, and sets its
done bit. -/
def Sys2Proof.Claim.DoorbellsAndReports : Prop :=
  (∀ (s : State) (d : Die) (v : Word) (e : List Word) (s1 : State),
    let q := v.toNat / 2 ^ 32 % 65536
    let prod := v.toNat % 2 ^ 32
    s.queueEntry q = (e, s1) →
    let w0 := (e.getD 0 0).toNat
    let w1 := (e.getD 1 0).toNat
    let mark := (s1.queueState q).mark
    let fits := (prod + 2 ^ 32 - w1 % 2 ^ 32) % 2 ^ 32 ≤ 2 ^ (w0 / 2 ^ 52 % 32)
    (w0 < 2 ^ 63 → ∃ t, exec (.doorbell d v) s = .next t ∧ (t.queueState q).mark = false ∧ t.mem = s1.mem) ∧
    (2 ^ 63 ≤ w0 → (mark = true ∨ ¬fits) → exec (.doorbell d v) s = .next (s1.queueError q 1)) ∧
    (2 ^ 63 ≤ w0 → mark = false → fits → ∃ t, exec (.doorbell d v) s = .next t ∧
      t.mem = (s1.writeQueueWord q 1 (BitVec.ofNat 64 (prod * 2 ^ 32 + w1 % 2 ^ 32))).mem)) ∧
  ∀ (s : State) (v : Word),
    (v.toNat % 4096 ≠ 0 → exec (.attestRequest v) s = .next s) ∧
    (v.toNat % 4096 = 0 → v.toNat < 2 ^ 52 → regionOf v.toNat ≠ .reserved → regionOf v.toNat ≠ .window →
      ∀ ws w s1, s.readWords 0 v.toNat 0 s.clock 4 = (ws, w, s1) →
        let nonce := ws.flatMap fun x => (List.range 8).map fun i => x.extractLsb' (8 * i) 8
        let report := s1.reportBytes nonce
        report.take nonce.length = nonce ∧ exec (.attestRequest v) s = .next
          { s1.writeWords 0 (v.toNat + 0x100) 0 ((List.range 96).map fun i => BitVec.ofNat 64
            ((List.range 8).foldl (fun x k => x + (report.getD (8 * i + k) 0).toNat * 2 ^ (8 * k)) 0)) with attest := true })

/-- R61, R72, R135, R190-R194, R199, R455: before bring-up only BOOTSTAT is served; a VMID outside HVMASK, a misshapen or a misdirected request is answered with an
error; a window read gives its word; a host read of its own quiet line gives its bytes. A pod request takes its place in its flow, as a
transfer does (R190, R191), and is then refused, or served under the export's VMID. -/
def Sys2Proof.Claim.RequestsAreServed : Prop :=
  (∀ (s : State) (r : HostReq),
    let error := exec (.hostRequest r) s = .next { s with signals := s.signals ++ [.hostError] }
    let window := regionOf r.pa = .window
    let bootstat := window ∧ windowOff r.pa = 0x100 ∧ r.kind = .read
    let ready := s.boot.getLsbD 16 = true
    (¬ready → ¬bootstat → error) ∧
    ((ready ∨ bootstat) → window → (r.size ≠ 8 ∨ r.pa % 8 ≠ 0 → error) ∧
      (r.size = 8 → r.pa % 8 = 0 →
        (r.kind = .read → exec (.hostRequest r) s = .next
          { s with signals := s.signals ++ [.hostRead ((s.readReg (windowDie r.pa) (windowOff r.pa)).zeroExtend 1024)] }) ∧
        (r.kind = .write → exec (.hostRequest r) s = .next (s.writeReg (windowDie r.pa) (windowOff r.pa) (r.data.extractLsb' 0 64))))) ∧
    (ready → ¬window → (reqShape r.kind r.pa r.size = false ∨ 16 ≤ r.vmid ∨ (s.reg (s.homeOf (lineOf r.pa)) 0x4100).getLsbD r.vmid = false) → error) ∧
    (ready → regionOf r.pa = .host → reqShape r.kind r.pa r.size = true → r.vmid < 16 →
      (s.reg (s.homeOf (lineOf r.pa)) 0x4100).getLsbD r.vmid = true → s.quiet (lineOf r.pa) = true → r.kind = .read →
      let s1 := s.dropLine (lineOf r.pa) false
      exec (.hostRequest r) s = .next { s1 with signals := s1.signals ++ [.hostRead (BitVec.ofNat 1024
        ((s1.hostFetch (lineOf r.pa)).toNat / 2 ^ (8 * (r.pa % 128)) % 2 ^ (8 * r.size)))] })) ∧
  ∀ (s : State) (r : PodReq),
    let d := s.liveFrom 0
    let w0 := s.reg d (0x7000 + 16 * r.exp.val)
    let w1 := s.reg d (0x7008 + 16 * r.exp.val)
    let pa := w0.toNat / 2 ^ 16 % 2 ^ 36 * 2 ^ 16 + r.off
    let right := if r.kind = .read then w0.getLsbD 62 else if r.kind = .write then w0.getLsbD 61 else w0.getLsbD 60
    let h := s.homeOf (lineOf pa)
    let x := s.die h
    let error := exec (.podRequest r) s = .next { s with signals := s.signals ++ [.podError] }
    (x.takesFrom r.flow r.vmid 2 r.src = false → error) ∧
    (x.takesFrom r.flow r.vmid 2 r.src = true →
      (x.arrival r.flow r.seq = .duplicate → exec (.podRequest r) s = .next (s.countError h 0x6318)) ∧
      (x.arrival r.flow r.seq = .held → exec (.podRequest r) s = .next (s.setDie h { x with podHeld := x.podHeld ++ [r] })) ∧
      (x.arrival r.flow r.seq = .full → exec (.podRequest r) s = .next { s with signals := s.signals ++ [.podAgain] }) ∧
      (x.arrival r.flow r.seq = .deliver false →
        (w0.getLsbD 63 = false ∨ w0.toNat / 2 ^ 56 % 16 ≠ r.vmid ∨ right = false ∨ w1.toNat % 2 ^ 24 * 2 ^ 16 < r.off + r.size → error) ∧
        (s.podRefuses r = false → s.readBad h (lineOf pa) = false →
          (r.kind = .read → ∀ y w s1, s.readIn h pa r.size r.vmid s.clock = (y, w, s1) → ∃ t,
            exec (.podRequest r) s = .next t ∧ t.signals = s1.signals ++ [.podRead (BitVec.ofNat 1024 y)] ∧ t.mem = s1.mem) ∧
          (r.kind = .write → ∀ y w s1, s.rmwIn h pa r.size r.vmid s.clock (fun _ => r.data.toNat % 2 ^ (8 * r.size)) = (y, w, s1) →
            ∃ t, exec (.podRequest r) s = .next t ∧ t.signals = s1.signals ∧ t.mem = s1.mem))))

/-- R61, R72, R135, R190-R194, R199, R386, R430, R455, R457: doorbells and requests from outside. The model's own choices in it: assumption
log 21, 120, 121, 123, 129. -/
def Obligations.OutsideRequests : Prop := Claim.DoorbellsAndReports ∧ Claim.RequestsAreServed

/-- R74, R75, R179, R453, R455, R456, R459: bring-up runs its steps in order, sets BOOTSTAT, and with the last the device is ready; without
two accepted images it ends in its second step, and an accepted image has its magic, its exponent, the ROM's modulus, a signature that
verifies and a body that hashes to its header's value; the clock steps by 100 MHz between 600 MHz and 1.8 GHz; a shutdown stops issue
for good; a port that goes down stays down; the scrubber counts corrected errors, those it corrects among them, and retires a frame with
an uncorrectable one. The model's own choices in it: assumption log 124, 125, 127, 141, 178. -/
def Obligations.BringUpPowerAndScrub : Prop :=
  (∀ (s : State) (o : BootOutcome),
    (s.boot ≠ 0 ∨ s.stopped = true → exec (.bringUp o) s = .next s) ∧
    (s.boot = 0 → s.stopped = false → ∃ t, exec (.bringUp o) s = .next t ∧ t.mem = s.mem ∧ t.roles = s.roles ∧
      let images := imageAccepted s.romHash 0x4A584657 s.fwImage = true ∧ imageAccepted s.romHash 0x4A584342 s.blobImage = true
      (o.step = 8 → images → t.boot.toNat = 2 ^ 16 + 8 ∧ t.signals = s.signals ++ [.ready] ∧ ∀ d : Die, t.reg d 0x4100 = 1 ∧
        (t.die d).keys.find 0 = some o.key0 ∧ (t.die d).attrs = [] ∧ (t.reg d 0x4000).toNat % 256 = 32) ∧
      (o.step ≠ 8 ∨ ¬images → t.boot.toNat < 2 ^ 16 ∧ t.signals = s.signals ∧ 0 < t.boot.toNat / 2 ^ 8 ∧
        (images → t.boot.toNat % 2 ^ 8 = o.step.val) ∧ (¬images → t.boot.toNat % 2 ^ 8 = min o.step.val 1) ∧
        (o.fail ≠ 0 → t.boot.toNat / 2 ^ 8 = o.fail.toNat)))) ∧
  (∀ (rom : BitVec 256) (magic : Nat) (img : List Byte), imageAccepted rom magic img = true →
    imageField img 0 8 = magic ∧ 0x400 + imageField img 0x10 8 ≤ img.length ∧ imageField img 0x1C0 64 = 65537 ∧
    sha256 (imageBytes img 0x40 384) = toBytesBE 32 rom.toNat ∧ sha256 (imageBody img) = imageBytes img 0x18 32 ∧
    (imageBody img).length = imageField img 0x10 8 ∧
    pssVerifies (imageField img 0x40 384) (imageField img 0x200 384) (imageBytes img 0 0x200) = true) ∧
  (∀ (s : State) (up : Bool), ∃ t, exec (.thermalThrottle up) s = .next t ∧ t = { s with mhz := t.mhz } ∧
    (600 ≤ s.mhz → s.mhz ≤ 1800 → 600 ≤ t.mhz ∧ t.mhz ≤ 1800 ∧
      (up = true → s.mhz + 100 ≤ 1800 → t.mhz = s.mhz + 100) ∧ (up = false → 700 ≤ s.mhz → t.mhz = s.mhz - 100))) ∧
  (∀ s : State, ∃ t, exec .thermalShutdown s = .next t ∧ t.stopped = true ∧ t.boot.getLsbD 16 = false ∧
    t.boot.toNat % 2 ^ 16 = s.boot.toNat % 2 ^ 16 ∧ t.signals = s.signals ++ [.overheat] ∧ t.mem = s.mem ∧
    (∀ c, t.coreStep c = none) ∧ t.dueEvents = [] ∧ t.timeEvents = []) ∧
  (∀ (s : State) (p : Fin 16), ∃ t, exec (.ualinkPortDown p) s = .next t ∧ t = { s with portsDown := t.portsDown } ∧
    ∀ i, i < 16 → t.portsDown.getLsbD i = (s.portsDown.getLsbD i || decide (i = p.val))) ∧
  (∀ (s : State) (d : Die) (tier : Bool) (f n : Nat) (bad : Bool), f < (if tier then 2 ^ 22 else 2 ^ 21) →
    let pa := if tier then capBase + 2 ^ 18 * f + 2 ^ 16 * d.val else 2 ^ 37 * d.val + 2 ^ 16 * f
    ∃ t, exec (.patrolScrub d tier f n bad) s = .next t ∧ t.mem = s.mem ∧ t.bad = s.bad ∧
      (∀ b, b ∈ t.weak ↔ b ∈ s.weak ∧ inFrame (pa / 2 ^ 16) (b / 4) = false) ∧
      t.reg d 0x6300 = s.reg d 0x6300 + BitVec.ofNat 64 (n + (s.weak.filter fun b => inFrame (pa / 2 ^ 16) (b / 4)).length) ∧
      (bad = true → (t.attrOf pa).retired = true) ∧ (bad = false → s.bad = [] → t.attrOf pa = s.attrOf pa)) ∧
  ∀ (s : State) (d : Die) (p : Pub) (q : CmdEntry), (s.die d).pubs = [p] →
    (s.pubMet p = false → exec (.publishFire d) s = .next s) ∧
    (s.pubMet p = true → (s.ctx p.ctx).entry? p.n = some q → let s0 := s.setDie d { s.die d with pubs := [] }
      ∀ s1 s2, s0.engAdd p.ctx q.cmd { face := 0, addr := BitVec.ofNat 64 p.addr, inc := 0, pod := false, flow := 1 } = .ok ((), s1) →
        s1.regionRmw p.ctx q.cmd 0 (fun x => x / 2 ^ 32 * 2 ^ 32 + max (x % 2 ^ 32) p.version) = .ok ((), s2) →
        exec (.publishFire d) s = .next { s2 with pending := s2.pending ++ [.engineCommandComplete p.ctx p.n] })

/-! ### Encoding, the step, and the whole machine (01 R19-R48, 02 R61, 22 R447, R455) -/

/-- R33-R48: decoding and encoding agree: a word decodes to an instruction exactly when that instruction is well formed and the word is its encoding;
and so do headers (R20, R24). -/
def Obligations.DecodingInvertsEncoding : Prop :=
  (∀ (w : Word) (i : Instr), decodeWord w = .ok i ↔ i.wf = true ∧ encode i = some w) ∧
  (∀ (w : Word) (h : Header), decodeHeader w = some h ↔ encodeHeader h = w) ∧
  ∀ (w : Word) (rest : List Byte), decodeBytes (wordBytes w ++ rest) = some (decodeWord w, rest)

/-- Words that the spec writes out beside their assembly decode to those instructions (01, 10, 13, 15, 17, 18, 21). -/
def Obligations.WrittenOutWordsDecode : Prop :=
  decodeWord 0x08021163_47000000#64 = .ok (.add { ty := .i32, mask := 0, d := 0x45, a := 0x46, b := 0x47, c := 0, rm := 0, ws := 0, mod := 0 }) ∧
  decodeWord 0x10001122_7FFFFFFF#64 = .ok (.addImm { ty := .i64, mask := 0, d := 0x44, a := 0x44, imm := 0x7FFFFFFF }) ∧
  decodeWord 0x2028_01C2_0600_0000#64 = .ok (.fmul { ty := .f64, mask := 0, d := 7, a := 4, b := 6, c := 0, rm := 0, ws := 0, mod := 0 }) ∧
  decodeWord 0x400C_0285_8000_0019#64 = .ok (.cvt { ty := .e4m3, mask := 0, d := 10, a := 11, b := 0, c := 0, rm := 0, ws := 0, mod := 0x19 }) ∧
  decodeWord 0x4848_1302_8000_0007#64 = .ok (.vred { ty := .f64, mask := 0, d := 0x4C, a := 5, b := 0, c := 0, rm := 0, ws := 0, mod := 7 }) ∧
  decodeWord 0x5810_0015_FFFF_FFFC#64 = .ok (.bc { ty := .i64, mask := 0, s := 0, mc := 2, cond := 5, off := 0xFFFFFFFC }) ∧
  decodeWord 0x6809_0084_0010_0304#64 = .ok (.ld { ty := .f32, mask := 0, d := 2, base := 4, off := 0x100, view := 3, acl := 0, scope := 0, ws := 4 }) ∧
  decodeWord 0x8900_0024_9400_8018#64 = .ok (.cadd { ty := .i64, mask := 0, d := 0, a := 0x49, base := 10, off := 8, op := 0, acl := 0, scope := 3, ws := 0 }) ∧
  decodeWord 0x9808_0214_54C0_0000#64 = .ok (.mma { ty := .f64, mask := 0, d := 8, sc := 20, sf := 21, sp := 0, reuse := 1, ord := 1, cnt := 0, sn := 0, xmod := 0, xhi := 0, ws := 0 }) ∧
  decodeWord 0xA020_13A4_8000_000A#64 = .ok (.bres { ty := .i64, mask := 0, d := 0x4E, a := 0x49, b := 0, c := 0, q := 0, qmod := 1, ws := 2 }) ∧
  decodeWord 0xB000_0022_0000_0408#64 = .ok (.trap { ty := .i64, mask := 0, d := 0, a := 0x44, sreg := 0, smod := 0x81, ws := 0 }) ∧
  decodeHeader 0xC1A0_0000_0000_0020#64 = some { hint := 0, yield := false, tack := false, wait := 2, count := 0 }

/-- The core of number `c` issues from role `rid`: the die is up, the core is at a word of the role's clause, and that word is `w`. -/
def Sys2Proof.Claim.StandsAt (s : State) (c rid : Nat) (r : Role) (w : Word) : Prop :=
  s.alive (dieOf c) = true ∧ (s.core c).phase = .run rid ∧ s.role? rid = some r ∧ r.ended = false ∧ r.hold = .ready ∧ s.stoppedOp rid r = none ∧
  ∃ k, r.clause = some k ∧ k.issued = true ∧ k.words.getD k.idx 0 = w

/-- R23, R27, R31, R32: where the step is that of a core that stands at a word which decodes to `i`, step is exec of `i` at that state with
the role as the executing one, its tack region tracked and the corrected errors of the registers that it reads counted (R178); unless
`i` names a bound register (ILLEGAL), or its wait slot counts 32 and it has a lane to act on (the role holds). The model's own choices
in it: assumption log 9. -/
def Obligations.StepRunsTheDecodedInstruction : Prop :=
  ∀ (s : State) (c rid : Nat) (r : Role) (w : Word) (i : Instr) (rest : List Choice), StandsAt s c rid r w → s.sched = .core c :: rest →
    decodeWord w = .ok i →
    let s0 : State := { s with sched := rest }
    let u := r.usesOf i
    let s1 := s0.readEntries rid r u.reads
    (r.boundIn (u.reads ++ u.writes) = true → step s = .next (s0.trap rid cILLEGAL 0)) ∧
    (r.boundIn (u.reads ++ u.writes) = false → s.badRegs = [] →
      (slotOfInstr i ≠ 0 → 32 ≤ r.waitCount (slotOfInstr i) → r.idle i = false → step s = .next (s0.setRole rid { r with hold := .slotFull })) ∧
      ((slotOfInstr i = 0 ∨ r.waitCount (slotOfInstr i) < 32 ∨ r.idle i = true →
        step s = exec i { s1.setRole rid (r.trackTack i) with cur := rid }) ∧
        s1.roles = s.roles ∧ s1.mem = s.mem ∧ s1.cores = s.cores ∧ (s.weakRegs = [] → ∀ d off, s1.reg d off = s.reg d off)) ∧
      (r.tack = none → r.tackNext = false → r.trackTack i = { r with tackLast := false }))

/-- No step of the machine ends in a fault or a refusal, in any state: every instruction and event of the opcode table has an effect. An
event answers a next state in every state, and an instruction word in every state with an issuing role. The model's own choices in it:
assumption log 7, 8. -/
def Obligations.EveryStepGoesOn : Prop := ∀ s : State, (∃ t, step s = .next t) ∧ (∀ n, ∃ t, Runs n s t) ∧
  ∀ i : Instr, ((encode i = none ∨ ∃ r, Issuing s r) → ∃ t, exec i s = .next t)

/-- Memory keeps its canonical form at every step: the form in which equal memories are equal data (R56-R60 give the bytes). The model's own
choices in it: assumption log 1. -/
def Obligations.MemoryStaysCanonical : Prop := ∀ s t : State, MemoryInv s → step s = .next t → MemoryInv t

/-- The canonical form of memory holds right after reset. -/
def Obligations.ResetMemoryIsCanonical : Prop := MemoryInv State.reset

/-- R62, R118, R139, R199, R386, R410, R446, R447, R455: right after reset BOOTSTAT is 0 and the device is not ready; LEASE is 32; HVMASK
admits VMID 0 alone; partition 0 alone is valid, with VMID 1 and 65,536 queues; no queue is served, no fault ring is set up, no die is
dead, and there is no role and no gang. The model's own choices in it: assumption log 3, 5. -/
def Obligations.WhatResetLeaves : Prop :=
  let s := State.reset
  s.boot = 0 ∧ s.roles = [] ∧ s.gangs = [] ∧ s.pending = [] ∧ s.stopped = false ∧
  ∀ d : Die, s.lease d = 32 ∧ s.reg d 0x4100 = 1 ∧ (s.die d).dead = 0 ∧ s.reg d 0x5000 = 0 ∧ s.reg d 0x6000 = 0 ∧ s.reg d 0x6008 = 0 ∧
    (s.reg d 0x6200).getLsbD 63 = true ∧ (s.reg d 0x6200).toNat / 2 ^ 59 % 16 = 1 ∧ (s.reg d 0x6200).toNat / 2 ^ 32 % 256 = 255 ∧
    s.reg d 0x6240 = 0 ∧ (∀ p, 1 ≤ p → p < 8 → (s.reg d (0x6200 + 8 * p)).getLsbD 63 = false) ∧ (s.die d).keys = [] ∧ (s.die d).lines = []

/-- R210, R406, R408, R409: no instruction word that a role issues outside handler mode changes the role's VMID, ASID, handler entry, stack area or
place; and the one way into handler mode is a trap, which leads to TVEC. -/
def Obligations.RightsStayWithHandlers : Prop :=
  ∀ (s t : State) (r q : Role) (i : Instr), Issuing s r → (encode i).isSome = true → r.handler = false → exec i s = .next t →
    t.role? s.cur = some q → q.vmid = r.vmid ∧ q.asid = r.asid ∧ q.tvec = r.tvec ∧ q.rsbase = r.rsbase ∧ q.limit = r.limit ∧
      q.gang = r.gang ∧ q.core = r.core ∧ q.slot = r.slot ∧ q.nlanes = r.nlanes ∧ q.budget = r.budget ∧
      (q.handler = true → q.pc = r.tvec ∧ r.tvec ≠ 0 ∧ q.clause = none)
end

