-- ==== Sys2Proof/Laws/Sparse.lean ====
section
/-! SUPPORT. The laws of sparse tables: what a write reads as, that it leaves every other key alone, and that it keeps the
canonical form. The first two hold of every list, in order or not, and so do the
laws of taking an entry away. -/
namespace Sys2Proof.Machine

variable {α : Type}

theorem Sparse.find_put_same (t : Sparse α) (k : Nat) (x : α) : (t.put k x).find k = some x := by
  induction t with
  | nil => simp [Sparse.put, Sparse.find]
  | cons p rest ih =>
    obtain ⟨j, v⟩ := p
    by_cases h : j = k
    · simp [Sparse.put, Sparse.find, h]
    · by_cases h2 : k < j
      · simp [Sparse.put, Sparse.find, h, h2]
      · simp [Sparse.put, Sparse.find, h, h2, ih]

theorem Sparse.find_put_other (t : Sparse α) (k q : Nat) (x : α) (hq : q ≠ k) : (t.put k x).find q = t.find q := by
  induction t with
  | nil => simp [Sparse.put, Sparse.find, Ne.symm hq]
  | cons p rest ih =>
    obtain ⟨j, v⟩ := p
    by_cases h : j = k
    · subst h
      simp [Sparse.put, Sparse.find, Ne.symm hq]
    · by_cases h2 : k < j
      · simp [Sparse.put, Sparse.find, h, h2, Ne.symm hq]
      · simp [Sparse.put, Sparse.find, h, h2, ih]

theorem Sparse.find_del_same (t : Sparse α) (k : Nat) : (t.del k).find k = none := by
  induction t with
  | nil => rfl
  | cons p rest ih =>
    obtain ⟨j, v⟩ := p
    by_cases h : j = k <;> simp [Sparse.del, Sparse.find, h, ih]

theorem Sparse.find_del_other (t : Sparse α) (k q : Nat) (hq : q ≠ k) : (t.del k).find q = t.find q := by
  induction t with
  | nil => rfl
  | cons p rest ih =>
    obtain ⟨j, v⟩ := p
    by_cases h : j = k
    · subst h
      simp [Sparse.del, Sparse.find, ih, Ne.symm hq]
    · simp [Sparse.del, Sparse.find, h, ih]

theorem Sparse.get_put_same (d : α) (t : Sparse α) (k : Nat) (x : α) : (t.put k x).get d k = x := by
  induction t with
  | nil => simp [Sparse.put, Sparse.get]
  | cons p rest ih =>
    obtain ⟨j, v⟩ := p
    by_cases h : j = k
    · simp [Sparse.put, Sparse.get, h]
    · by_cases h2 : k < j
      · simp [Sparse.put, Sparse.get, h, h2]
      · simp [Sparse.put, Sparse.get, h, h2, ih]

theorem Sparse.get_put_other (d : α) (t : Sparse α) (k q : Nat) (x : α) (hq : q ≠ k) : (t.put k x).get d q = t.get d q := by
  induction t with
  | nil =>
    simp only [Sparse.put, Sparse.get]
    rw [if_neg (by omega)]
    split <;> rfl
  | cons p rest ih =>
    obtain ⟨j, v⟩ := p
    by_cases h : j = k
    · subst h
      simp only [Sparse.put, if_true, Sparse.get, show ¬j = q by omega, if_false]
    · by_cases h2 : k < j
      · simp only [Sparse.put, h, if_false, h2, if_true, Sparse.get]
        rw [if_neg (by omega : ¬k = q)]
        split
        · rw [if_neg (by omega), if_pos (by omega)]
        · rfl
      · simp only [Sparse.put, h, if_false, h2, Sparse.get, ih]

theorem Sparse.get_erase_same (d : α) (t : Sparse α) (k : Nat) : (t.erase d k).get d k = d := by
  induction t with
  | nil => rfl
  | cons p rest ih =>
    obtain ⟨j, v⟩ := p
    by_cases h : j = k
    · subst h
      cases rest with
      | nil => simp [Sparse.erase, Sparse.get]
      | cons q rest =>
        obtain ⟨i, w⟩ := q
        by_cases h2 : j < i
        · simp [Sparse.erase, Sparse.get, h2, show i ≠ j by omega]
        · simp [Sparse.erase, Sparse.get, h2]
    · by_cases h2 : k < j
      · simp [Sparse.erase, Sparse.get, h, h2]
      · simp [Sparse.erase, Sparse.get, h, h2, ih]

theorem Sparse.get_erase_other (d : α) (t : Sparse α) (k q : Nat) (hq : q ≠ k) : (t.erase d k).get d q = t.get d q := by
  induction t with
  | nil => rfl
  | cons p rest ih =>
    obtain ⟨j, v⟩ := p
    by_cases h : j = k
    · subst h
      cases rest with
      | nil =>
        simp only [Sparse.erase, if_true, Sparse.get]
        rw [if_neg (by omega)]
        split <;> rfl
      | cons p rest =>
        obtain ⟨i, w⟩ := p
        by_cases h2 : j < i
        · simp only [Sparse.erase, if_true, h2, Sparse.get, show ¬j = q by omega, if_false]
          by_cases h3 : q < j
          · simp only [h3, if_true, show ¬i = q by omega, show q < i by omega, if_false]
          · simp only [h3, if_false]
        · simp only [Sparse.erase, if_true, h2, if_false, Sparse.get, show ¬j = q by omega]
    · by_cases h2 : k < j
      · simp only [Sparse.erase, h, if_false, h2, if_true]
      · simp only [Sparse.erase, h, if_false, h2, Sparse.get, ih]

variable [DecidableEq α]

/-- A read after a write to the same key gives the value written. -/
theorem Sparse.get_set_same (d : α) (t : Sparse α) (k : Nat) (x : α) : (Sparse.set d t k x).get d k = x := by
  unfold Sparse.set
  split
  · next h => rw [Sparse.get_erase_same, h]
  · exact Sparse.get_put_same d t k x

/-- A write leaves every other key alone. -/
theorem Sparse.get_set_other (d : α) (t : Sparse α) (k q : Nat) (x : α) (hq : q ≠ k) :
    (Sparse.set d t k x).get d q = t.get d q := by
  unfold Sparse.set
  split
  · exact Sparse.get_erase_other d t k q hq
  · exact Sparse.get_put_other d t k q x hq

theorem Sparse.get_set (d : α) (t : Sparse α) (k q : Nat) (x : α) :
    (Sparse.set d t k x).get d q = if q = k then x else t.get d q := by
  split
  · next h => rw [h, Sparse.get_set_same]
  · next h => exact Sparse.get_set_other d t k q x h

theorem Sparse.above_mono (d : α) (t : Sparse α) {a b : Nat} (hab : a ≤ b) (h : Sparse.above d b t = true) :
    Sparse.above d a t = true := by
  cases t with
  | nil => rfl
  | cons p rest =>
    obtain ⟨k, v⟩ := p
    simp only [Sparse.above, Bool.and_eq_true, decide_eq_true_eq] at h ⊢
    exact ⟨⟨by omega, h.1.2⟩, h.2⟩

theorem Sparse.above_put (d : α) (t : Sparse α) (lo k : Nat) (x : α) (hlo : lo ≤ k) (hx : x ≠ d)
    (h : Sparse.above d lo t = true) : Sparse.above d lo (t.put k x) = true := by
  induction t generalizing lo with
  | nil => simp [Sparse.put, Sparse.above, hlo, hx]
  | cons p rest ih =>
    obtain ⟨j, v⟩ := p
    simp only [Sparse.above, Bool.and_eq_true, decide_eq_true_eq] at h
    by_cases h1 : j = k
    · subst h1; simp [Sparse.put, Sparse.above, hlo, hx, h.2]
    · by_cases h2 : k < j
      · simp only [Sparse.put, h1, if_false, h2, if_true, Sparse.above, Bool.and_eq_true, decide_eq_true_eq]
        exact ⟨⟨hlo, hx⟩, ⟨by omega, h.1.2⟩, h.2⟩
      · simp only [Sparse.put, h1, if_false, h2, Sparse.above, Bool.and_eq_true, decide_eq_true_eq]
        exact ⟨h.1, ih (j + 1) (by omega) h.2⟩

theorem Sparse.above_erase (d : α) (t : Sparse α) (lo k : Nat) (h : Sparse.above d lo t = true) :
    Sparse.above d lo (t.erase d k) = true := by
  induction t generalizing lo with
  | nil => rfl
  | cons p rest ih =>
    obtain ⟨j, v⟩ := p
    have h' := h
    simp only [Sparse.above, Bool.and_eq_true, decide_eq_true_eq] at h
    by_cases h1 : j = k
    · subst h1
      cases rest with
      | nil => simp [Sparse.erase, Sparse.above]
      | cons q rest =>
        obtain ⟨i, w⟩ := q
        have hi : j < i := by
          have := h.2
          simp only [Sparse.above, Bool.and_eq_true, decide_eq_true_eq] at this
          omega
        simp only [Sparse.erase, if_true, hi]
        exact Sparse.above_mono d _ (by omega) h.2
    · by_cases h2 : k < j
      · simp only [Sparse.erase, h1, if_false, h2, if_true]; exact h'
      · simp only [Sparse.erase, h1, if_false, h2, Sparse.above, Bool.and_eq_true, decide_eq_true_eq]
        exact ⟨h.1, ih (j + 1) h.2⟩

/-- A write keeps the canonical form. -/
theorem Sparse.wf_set (d : α) (t : Sparse α) (k : Nat) (x : α) (h : t.wf d = true) : (Sparse.set d t k x).wf d = true := by
  unfold Sparse.wf Sparse.set at *
  split
  · exact Sparse.above_erase d t 0 k h
  · next hx => exact Sparse.above_put d t 0 k x (Nat.zero_le k) hx h

/-- Two tables in canonical form that start at or above `lo` and read alike are equal. -/
theorem Sparse.above_ext (d : α) (t u : Sparse α) (lo : Nat) (ht : Sparse.above d lo t = true)
    (hu : Sparse.above d lo u = true) (h : ∀ k, t.get d k = u.get d k) : t = u := by
  induction t generalizing u lo with
  | nil =>
    cases u with
    | nil => rfl
    | cons p rest =>
      obtain ⟨k, v⟩ := p
      simp only [Sparse.above, Bool.and_eq_true, decide_eq_true_eq] at hu
      have := h k
      simp only [Sparse.get, if_true] at this
      exact absurd this.symm hu.1.2
  | cons p rest ih =>
    obtain ⟨k, v⟩ := p
    simp only [Sparse.above, Bool.and_eq_true, decide_eq_true_eq] at ht
    cases u with
    | nil =>
      have := h k
      simp only [Sparse.get, if_true] at this
      exact absurd this ht.1.2
    | cons q rest' =>
      obtain ⟨j, w⟩ := q
      simp only [Sparse.above, Bool.and_eq_true, decide_eq_true_eq] at hu
      have hkj : k = j := by
        rcases Nat.lt_trichotomy k j with hlt | heq | hgt
        · have := h k
          simp only [Sparse.get, if_true, if_neg (by omega : ¬j = k), if_pos hlt] at this
          exact absurd this ht.1.2
        · exact heq
        · have := h j
          simp only [Sparse.get, if_true, if_neg (by omega : ¬k = j), if_pos hgt] at this
          exact absurd this.symm hu.1.2
      subst hkj
      have hv : v = w := by simpa [Sparse.get] using h k
      subst hv
      have below : ∀ (z : Sparse α), Sparse.above d (k + 1) z = true → ∀ i, i ≤ k → z.get d i = d := by
        intro z hz i hik
        cases z with
        | nil => rfl
        | cons q z =>
          obtain ⟨m, y⟩ := q
          simp only [Sparse.above, Bool.and_eq_true, decide_eq_true_eq] at hz
          simp only [Sparse.get, if_neg (by omega : ¬m = i), if_pos (by omega : i < m)]
      have hr : rest = rest' := by
        refine ih rest' (k + 1) ht.2 hu.2 fun i => ?_
        by_cases hik : i ≤ k
        · rw [below rest ht.2 i hik, below rest' hu.2 i hik]
        · have := h i
          simpa only [Sparse.get, if_neg (by omega : ¬k = i), if_neg (by omega : ¬i < k)] using this
      rw [hr]

/-- Equal tables are equal data: two tables in canonical form that read alike are equal. -/
theorem Sparse.ext_of_wf (d : α) (t u : Sparse α) (ht : t.wf d = true) (hu : u.wf d = true)
    (h : ∀ k, t.get d k = u.get d k) : t = u := Sparse.above_ext d t u 0 ht hu h

end Sys2Proof.Machine
end

