-- ==== Sys2Proof/Laws/State.lean ====
section
/-! SUPPORT. What each update of State and Role does to each field: one lemma a field and update, so that no proof unfolds
a record update. -/
namespace Sys2Proof.Machine

@[simp] theorem State.setRole_mem (s : State) (rid : Nat) (r : Role) : (s.setRole rid r).mem = s.mem := rfl
@[simp] theorem State.setRole_memKey (s : State) (rid : Nat) (r : Role) : (s.setRole rid r).memKey = s.memKey := rfl
@[simp] theorem State.setRole_bad (s : State) (rid : Nat) (r : Role) : (s.setRole rid r).bad = s.bad := rfl
@[simp] theorem State.setRole_weak (s : State) (rid : Nat) (r : Role) : (s.setRole rid r).weak = s.weak := rfl
@[simp] theorem State.setRole_migLost (s : State) (rid : Nat) (r : Role) : (s.setRole rid r).migLost = s.migLost := rfl
@[simp] theorem State.setRole_badRegs (s : State) (rid : Nat) (r : Role) : (s.setRole rid r).badRegs = s.badRegs := rfl
@[simp] theorem State.setRole_badSpad (s : State) (rid : Nat) (r : Role) : (s.setRole rid r).badSpad = s.badSpad := rfl
@[simp] theorem State.setRole_weakRegs (s : State) (rid : Nat) (r : Role) : (s.setRole rid r).weakRegs = s.weakRegs := rfl
@[simp] theorem State.setRole_weakSpad (s : State) (rid : Nat) (r : Role) : (s.setRole rid r).weakSpad = s.weakSpad := rfl
@[simp] theorem State.setRole_roles (s : State) (rid : Nat) (r : Role) : (s.setRole rid r).roles = s.roles.put rid r := rfl
@[simp] theorem State.setRole_cores (s : State) (rid : Nat) (r : Role) : (s.setRole rid r).cores = s.cores := rfl
@[simp] theorem State.setRole_dies (s : State) (rid : Nat) (r : Role) : (s.setRole rid r).dies = s.dies := rfl
@[simp] theorem State.setRole_hostLines (s : State) (rid : Nat) (r : Role) : (s.setRole rid r).hostLines = s.hostLines := rfl
@[simp] theorem State.setRole_hostVmid (s : State) (rid : Nat) (r : Role) : (s.setRole rid r).hostVmid = s.hostVmid := rfl
@[simp] theorem State.setRole_ctxs (s : State) (rid : Nat) (r : Role) : (s.setRole rid r).ctxs = s.ctxs := rfl
@[simp] theorem State.setRole_issued (s : State) (rid : Nat) (r : Role) : (s.setRole rid r).issued = s.issued := rfl
@[simp] theorem State.setRole_gangs (s : State) (rid : Nat) (r : Role) : (s.setRole rid r).gangs = s.gangs := rfl
@[simp] theorem State.setRole_queues (s : State) (rid : Nat) (r : Role) : (s.setRole rid r).queues = s.queues := rfl
@[simp] theorem State.setRole_spawns (s : State) (rid : Nat) (r : Role) : (s.setRole rid r).spawns = s.spawns := rfl
@[simp] theorem State.setRole_rr (s : State) (rid : Nat) (r : Role) : (s.setRole rid r).rr = s.rr := rfl
@[simp] theorem State.setRole_saveOrder (s : State) (rid : Nat) (r : Role) : (s.setRole rid r).saveOrder = s.saveOrder := rfl
@[simp] theorem State.setRole_parks (s : State) (rid : Nat) (r : Role) : (s.setRole rid r).parks = s.parks := rfl
@[simp] theorem State.setRole_nextGang (s : State) (rid : Nat) (r : Role) : (s.setRole rid r).nextGang = s.nextGang := rfl
@[simp] theorem State.setRole_nextRole (s : State) (rid : Nat) (r : Role) : (s.setRole rid r).nextRole = s.nextRole := rfl
@[simp] theorem State.setRole_seams (s : State) (rid : Nat) (r : Role) : (s.setRole rid r).seams = s.seams := rfl
@[simp] theorem State.setRole_hearts (s : State) (rid : Nat) (r : Role) : (s.setRole rid r).hearts = s.hearts := rfl
@[simp] theorem State.setRole_portsDown (s : State) (rid : Nat) (r : Role) : (s.setRole rid r).portsDown = s.portsDown := rfl
@[simp] theorem State.setRole_podMem (s : State) (rid : Nat) (r : Role) : (s.setRole rid r).podMem = s.podMem := rfl
@[simp] theorem State.setRole_podRefused (s : State) (rid : Nat) (r : Role) : (s.setRole rid r).podRefused = s.podRefused := rfl
@[simp] theorem State.setRole_fwImage (s : State) (rid : Nat) (r : Role) : (s.setRole rid r).fwImage = s.fwImage := rfl
@[simp] theorem State.setRole_blobImage (s : State) (rid : Nat) (r : Role) : (s.setRole rid r).blobImage = s.blobImage := rfl
@[simp] theorem State.setRole_romHash (s : State) (rid : Nat) (r : Role) : (s.setRole rid r).romHash = s.romHash := rfl
@[simp] theorem State.setRole_boot (s : State) (rid : Nat) (r : Role) : (s.setRole rid r).boot = s.boot := rfl
@[simp] theorem State.setRole_mhz (s : State) (rid : Nat) (r : Role) : (s.setRole rid r).mhz = s.mhz := rfl
@[simp] theorem State.setRole_stopped (s : State) (rid : Nat) (r : Role) : (s.setRole rid r).stopped = s.stopped := rfl
@[simp] theorem State.setRole_attest (s : State) (rid : Nat) (r : Role) : (s.setRole rid r).attest = s.attest := rfl
@[simp] theorem State.setRole_signals (s : State) (rid : Nat) (r : Role) : (s.setRole rid r).signals = s.signals := rfl
@[simp] theorem State.setRole_globalTime (s : State) (rid : Nat) (r : Role) : (s.setRole rid r).globalTime = s.globalTime := rfl
@[simp] theorem State.setRole_cur (s : State) (rid : Nat) (r : Role) : (s.setRole rid r).cur = s.cur := rfl
@[simp] theorem State.setRole_coreTurn (s : State) (rid : Nat) (r : Role) : (s.setRole rid r).coreTurn = s.coreTurn := rfl
@[simp] theorem State.setRole_turn (s : State) (rid : Nat) (r : Role) : (s.setRole rid r).turn = s.turn := rfl
@[simp] theorem State.setRole_pending (s : State) (rid : Nat) (r : Role) : (s.setRole rid r).pending = s.pending := rfl
@[simp] theorem State.setRole_sched (s : State) (rid : Nat) (r : Role) : (s.setRole rid r).sched = s.sched := rfl
@[simp] theorem State.setRole_freeCtr (s : State) (rid : Nat) (r : Role) : (s.setRole rid r).freeCtr = s.freeCtr := rfl

@[simp] theorem State.setCore_mem (s : State) (c : Nat) (k : Core) : (s.setCore c k).mem = s.mem := rfl
@[simp] theorem State.setCore_memKey (s : State) (c : Nat) (k : Core) : (s.setCore c k).memKey = s.memKey := rfl
@[simp] theorem State.setCore_bad (s : State) (c : Nat) (k : Core) : (s.setCore c k).bad = s.bad := rfl
@[simp] theorem State.setCore_weak (s : State) (c : Nat) (k : Core) : (s.setCore c k).weak = s.weak := rfl
@[simp] theorem State.setCore_migLost (s : State) (c : Nat) (k : Core) : (s.setCore c k).migLost = s.migLost := rfl
@[simp] theorem State.setCore_badRegs (s : State) (c : Nat) (k : Core) : (s.setCore c k).badRegs = s.badRegs := rfl
@[simp] theorem State.setCore_badSpad (s : State) (c : Nat) (k : Core) : (s.setCore c k).badSpad = s.badSpad := rfl
@[simp] theorem State.setCore_weakRegs (s : State) (c : Nat) (k : Core) : (s.setCore c k).weakRegs = s.weakRegs := rfl
@[simp] theorem State.setCore_weakSpad (s : State) (c : Nat) (k : Core) : (s.setCore c k).weakSpad = s.weakSpad := rfl
@[simp] theorem State.setCore_roles (s : State) (c : Nat) (k : Core) : (s.setCore c k).roles = s.roles := rfl
@[simp] theorem State.setCore_cores (s : State) (c : Nat) (k : Core) : (s.setCore c k).cores = s.cores.put c k := rfl
@[simp] theorem State.setCore_dies (s : State) (c : Nat) (k : Core) : (s.setCore c k).dies = s.dies := rfl
@[simp] theorem State.setCore_hostLines (s : State) (c : Nat) (k : Core) : (s.setCore c k).hostLines = s.hostLines := rfl
@[simp] theorem State.setCore_hostVmid (s : State) (c : Nat) (k : Core) : (s.setCore c k).hostVmid = s.hostVmid := rfl
@[simp] theorem State.setCore_ctxs (s : State) (c : Nat) (k : Core) : (s.setCore c k).ctxs = s.ctxs := rfl
@[simp] theorem State.setCore_issued (s : State) (c : Nat) (k : Core) : (s.setCore c k).issued = s.issued := rfl
@[simp] theorem State.setCore_gangs (s : State) (c : Nat) (k : Core) : (s.setCore c k).gangs = s.gangs := rfl
@[simp] theorem State.setCore_queues (s : State) (c : Nat) (k : Core) : (s.setCore c k).queues = s.queues := rfl
@[simp] theorem State.setCore_spawns (s : State) (c : Nat) (k : Core) : (s.setCore c k).spawns = s.spawns := rfl
@[simp] theorem State.setCore_rr (s : State) (c : Nat) (k : Core) : (s.setCore c k).rr = s.rr := rfl
@[simp] theorem State.setCore_saveOrder (s : State) (c : Nat) (k : Core) : (s.setCore c k).saveOrder = s.saveOrder := rfl
@[simp] theorem State.setCore_parks (s : State) (c : Nat) (k : Core) : (s.setCore c k).parks = s.parks := rfl
@[simp] theorem State.setCore_nextGang (s : State) (c : Nat) (k : Core) : (s.setCore c k).nextGang = s.nextGang := rfl
@[simp] theorem State.setCore_nextRole (s : State) (c : Nat) (k : Core) : (s.setCore c k).nextRole = s.nextRole := rfl
@[simp] theorem State.setCore_seams (s : State) (c : Nat) (k : Core) : (s.setCore c k).seams = s.seams := rfl
@[simp] theorem State.setCore_hearts (s : State) (c : Nat) (k : Core) : (s.setCore c k).hearts = s.hearts := rfl
@[simp] theorem State.setCore_portsDown (s : State) (c : Nat) (k : Core) : (s.setCore c k).portsDown = s.portsDown := rfl
@[simp] theorem State.setCore_podMem (s : State) (c : Nat) (k : Core) : (s.setCore c k).podMem = s.podMem := rfl
@[simp] theorem State.setCore_podRefused (s : State) (c : Nat) (k : Core) : (s.setCore c k).podRefused = s.podRefused := rfl
@[simp] theorem State.setCore_fwImage (s : State) (c : Nat) (k : Core) : (s.setCore c k).fwImage = s.fwImage := rfl
@[simp] theorem State.setCore_blobImage (s : State) (c : Nat) (k : Core) : (s.setCore c k).blobImage = s.blobImage := rfl
@[simp] theorem State.setCore_romHash (s : State) (c : Nat) (k : Core) : (s.setCore c k).romHash = s.romHash := rfl
@[simp] theorem State.setCore_boot (s : State) (c : Nat) (k : Core) : (s.setCore c k).boot = s.boot := rfl
@[simp] theorem State.setCore_mhz (s : State) (c : Nat) (k : Core) : (s.setCore c k).mhz = s.mhz := rfl
@[simp] theorem State.setCore_stopped (s : State) (c : Nat) (k : Core) : (s.setCore c k).stopped = s.stopped := rfl
@[simp] theorem State.setCore_attest (s : State) (c : Nat) (k : Core) : (s.setCore c k).attest = s.attest := rfl
@[simp] theorem State.setCore_signals (s : State) (c : Nat) (k : Core) : (s.setCore c k).signals = s.signals := rfl
@[simp] theorem State.setCore_globalTime (s : State) (c : Nat) (k : Core) : (s.setCore c k).globalTime = s.globalTime := rfl
@[simp] theorem State.setCore_cur (s : State) (c : Nat) (k : Core) : (s.setCore c k).cur = s.cur := rfl
@[simp] theorem State.setCore_coreTurn (s : State) (c : Nat) (k : Core) : (s.setCore c k).coreTurn = s.coreTurn := rfl
@[simp] theorem State.setCore_turn (s : State) (c : Nat) (k : Core) : (s.setCore c k).turn = s.turn := rfl
@[simp] theorem State.setCore_pending (s : State) (c : Nat) (k : Core) : (s.setCore c k).pending = s.pending := rfl
@[simp] theorem State.setCore_sched (s : State) (c : Nat) (k : Core) : (s.setCore c k).sched = s.sched := rfl
@[simp] theorem State.setCore_freeCtr (s : State) (c : Nat) (k : Core) : (s.setCore c k).freeCtr = s.freeCtr := rfl

@[simp] theorem State.setDie_mem (s : State) (d : Nat) (x : DieState) : (s.setDie d x).mem = s.mem := rfl
@[simp] theorem State.setDie_memKey (s : State) (d : Nat) (x : DieState) : (s.setDie d x).memKey = s.memKey := rfl
@[simp] theorem State.setDie_bad (s : State) (d : Nat) (x : DieState) : (s.setDie d x).bad = s.bad := rfl
@[simp] theorem State.setDie_weak (s : State) (d : Nat) (x : DieState) : (s.setDie d x).weak = s.weak := rfl
@[simp] theorem State.setDie_migLost (s : State) (d : Nat) (x : DieState) : (s.setDie d x).migLost = s.migLost := rfl
@[simp] theorem State.setDie_badRegs (s : State) (d : Nat) (x : DieState) : (s.setDie d x).badRegs = s.badRegs := rfl
@[simp] theorem State.setDie_badSpad (s : State) (d : Nat) (x : DieState) : (s.setDie d x).badSpad = s.badSpad := rfl
@[simp] theorem State.setDie_weakRegs (s : State) (d : Nat) (x : DieState) : (s.setDie d x).weakRegs = s.weakRegs := rfl
@[simp] theorem State.setDie_weakSpad (s : State) (d : Nat) (x : DieState) : (s.setDie d x).weakSpad = s.weakSpad := rfl
@[simp] theorem State.setDie_roles (s : State) (d : Nat) (x : DieState) : (s.setDie d x).roles = s.roles := rfl
@[simp] theorem State.setDie_cores (s : State) (d : Nat) (x : DieState) : (s.setDie d x).cores = s.cores := rfl
@[simp] theorem State.setDie_dies (s : State) (d : Nat) (x : DieState) : (s.setDie d x).dies = s.dies.put d x := rfl
@[simp] theorem State.setDie_hostLines (s : State) (d : Nat) (x : DieState) : (s.setDie d x).hostLines = s.hostLines := rfl
@[simp] theorem State.setDie_hostVmid (s : State) (d : Nat) (x : DieState) : (s.setDie d x).hostVmid = s.hostVmid := rfl
@[simp] theorem State.setDie_ctxs (s : State) (d : Nat) (x : DieState) : (s.setDie d x).ctxs = s.ctxs := rfl
@[simp] theorem State.setDie_issued (s : State) (d : Nat) (x : DieState) : (s.setDie d x).issued = s.issued := rfl
@[simp] theorem State.setDie_gangs (s : State) (d : Nat) (x : DieState) : (s.setDie d x).gangs = s.gangs := rfl
@[simp] theorem State.setDie_queues (s : State) (d : Nat) (x : DieState) : (s.setDie d x).queues = s.queues := rfl
@[simp] theorem State.setDie_spawns (s : State) (d : Nat) (x : DieState) : (s.setDie d x).spawns = s.spawns := rfl
@[simp] theorem State.setDie_rr (s : State) (d : Nat) (x : DieState) : (s.setDie d x).rr = s.rr := rfl
@[simp] theorem State.setDie_saveOrder (s : State) (d : Nat) (x : DieState) : (s.setDie d x).saveOrder = s.saveOrder := rfl
@[simp] theorem State.setDie_parks (s : State) (d : Nat) (x : DieState) : (s.setDie d x).parks = s.parks := rfl
@[simp] theorem State.setDie_nextGang (s : State) (d : Nat) (x : DieState) : (s.setDie d x).nextGang = s.nextGang := rfl
@[simp] theorem State.setDie_nextRole (s : State) (d : Nat) (x : DieState) : (s.setDie d x).nextRole = s.nextRole := rfl
@[simp] theorem State.setDie_seams (s : State) (d : Nat) (x : DieState) : (s.setDie d x).seams = s.seams := rfl
@[simp] theorem State.setDie_hearts (s : State) (d : Nat) (x : DieState) : (s.setDie d x).hearts = s.hearts := rfl
@[simp] theorem State.setDie_portsDown (s : State) (d : Nat) (x : DieState) : (s.setDie d x).portsDown = s.portsDown := rfl
@[simp] theorem State.setDie_podMem (s : State) (d : Nat) (x : DieState) : (s.setDie d x).podMem = s.podMem := rfl
@[simp] theorem State.setDie_podRefused (s : State) (d : Nat) (x : DieState) : (s.setDie d x).podRefused = s.podRefused := rfl
@[simp] theorem State.setDie_fwImage (s : State) (d : Nat) (x : DieState) : (s.setDie d x).fwImage = s.fwImage := rfl
@[simp] theorem State.setDie_blobImage (s : State) (d : Nat) (x : DieState) : (s.setDie d x).blobImage = s.blobImage := rfl
@[simp] theorem State.setDie_romHash (s : State) (d : Nat) (x : DieState) : (s.setDie d x).romHash = s.romHash := rfl
@[simp] theorem State.setDie_boot (s : State) (d : Nat) (x : DieState) : (s.setDie d x).boot = s.boot := rfl
@[simp] theorem State.setDie_mhz (s : State) (d : Nat) (x : DieState) : (s.setDie d x).mhz = s.mhz := rfl
@[simp] theorem State.setDie_stopped (s : State) (d : Nat) (x : DieState) : (s.setDie d x).stopped = s.stopped := rfl
@[simp] theorem State.setDie_attest (s : State) (d : Nat) (x : DieState) : (s.setDie d x).attest = s.attest := rfl
@[simp] theorem State.setDie_signals (s : State) (d : Nat) (x : DieState) : (s.setDie d x).signals = s.signals := rfl
@[simp] theorem State.setDie_globalTime (s : State) (d : Nat) (x : DieState) : (s.setDie d x).globalTime = s.globalTime := rfl
@[simp] theorem State.setDie_cur (s : State) (d : Nat) (x : DieState) : (s.setDie d x).cur = s.cur := rfl
@[simp] theorem State.setDie_coreTurn (s : State) (d : Nat) (x : DieState) : (s.setDie d x).coreTurn = s.coreTurn := rfl
@[simp] theorem State.setDie_turn (s : State) (d : Nat) (x : DieState) : (s.setDie d x).turn = s.turn := rfl
@[simp] theorem State.setDie_pending (s : State) (d : Nat) (x : DieState) : (s.setDie d x).pending = s.pending := rfl
@[simp] theorem State.setDie_sched (s : State) (d : Nat) (x : DieState) : (s.setDie d x).sched = s.sched := rfl
@[simp] theorem State.setDie_freeCtr (s : State) (d : Nat) (x : DieState) : (s.setDie d x).freeCtr = s.freeCtr := rfl

@[simp] theorem State.setGang_mem (s : State) (g : Nat) (x : Gang) : (s.setGang g x).mem = s.mem := rfl
@[simp] theorem State.setGang_memKey (s : State) (g : Nat) (x : Gang) : (s.setGang g x).memKey = s.memKey := rfl
@[simp] theorem State.setGang_bad (s : State) (g : Nat) (x : Gang) : (s.setGang g x).bad = s.bad := rfl
@[simp] theorem State.setGang_weak (s : State) (g : Nat) (x : Gang) : (s.setGang g x).weak = s.weak := rfl
@[simp] theorem State.setGang_migLost (s : State) (g : Nat) (x : Gang) : (s.setGang g x).migLost = s.migLost := rfl
@[simp] theorem State.setGang_badRegs (s : State) (g : Nat) (x : Gang) : (s.setGang g x).badRegs = s.badRegs := rfl
@[simp] theorem State.setGang_badSpad (s : State) (g : Nat) (x : Gang) : (s.setGang g x).badSpad = s.badSpad := rfl
@[simp] theorem State.setGang_weakRegs (s : State) (g : Nat) (x : Gang) : (s.setGang g x).weakRegs = s.weakRegs := rfl
@[simp] theorem State.setGang_weakSpad (s : State) (g : Nat) (x : Gang) : (s.setGang g x).weakSpad = s.weakSpad := rfl
@[simp] theorem State.setGang_roles (s : State) (g : Nat) (x : Gang) : (s.setGang g x).roles = s.roles := rfl
@[simp] theorem State.setGang_cores (s : State) (g : Nat) (x : Gang) : (s.setGang g x).cores = s.cores := rfl
@[simp] theorem State.setGang_dies (s : State) (g : Nat) (x : Gang) : (s.setGang g x).dies = s.dies := rfl
@[simp] theorem State.setGang_hostLines (s : State) (g : Nat) (x : Gang) : (s.setGang g x).hostLines = s.hostLines := rfl
@[simp] theorem State.setGang_hostVmid (s : State) (g : Nat) (x : Gang) : (s.setGang g x).hostVmid = s.hostVmid := rfl
@[simp] theorem State.setGang_ctxs (s : State) (g : Nat) (x : Gang) : (s.setGang g x).ctxs = s.ctxs := rfl
@[simp] theorem State.setGang_issued (s : State) (g : Nat) (x : Gang) : (s.setGang g x).issued = s.issued := rfl
@[simp] theorem State.setGang_gangs (s : State) (g : Nat) (x : Gang) : (s.setGang g x).gangs = s.gangs.put g x := rfl
@[simp] theorem State.setGang_queues (s : State) (g : Nat) (x : Gang) : (s.setGang g x).queues = s.queues := rfl
@[simp] theorem State.setGang_spawns (s : State) (g : Nat) (x : Gang) : (s.setGang g x).spawns = s.spawns := rfl
@[simp] theorem State.setGang_rr (s : State) (g : Nat) (x : Gang) : (s.setGang g x).rr = s.rr := rfl
@[simp] theorem State.setGang_saveOrder (s : State) (g : Nat) (x : Gang) : (s.setGang g x).saveOrder = s.saveOrder := rfl
@[simp] theorem State.setGang_parks (s : State) (g : Nat) (x : Gang) : (s.setGang g x).parks = s.parks := rfl
@[simp] theorem State.setGang_nextGang (s : State) (g : Nat) (x : Gang) : (s.setGang g x).nextGang = s.nextGang := rfl
@[simp] theorem State.setGang_nextRole (s : State) (g : Nat) (x : Gang) : (s.setGang g x).nextRole = s.nextRole := rfl
@[simp] theorem State.setGang_seams (s : State) (g : Nat) (x : Gang) : (s.setGang g x).seams = s.seams := rfl
@[simp] theorem State.setGang_hearts (s : State) (g : Nat) (x : Gang) : (s.setGang g x).hearts = s.hearts := rfl
@[simp] theorem State.setGang_portsDown (s : State) (g : Nat) (x : Gang) : (s.setGang g x).portsDown = s.portsDown := rfl
@[simp] theorem State.setGang_podMem (s : State) (g : Nat) (x : Gang) : (s.setGang g x).podMem = s.podMem := rfl
@[simp] theorem State.setGang_podRefused (s : State) (g : Nat) (x : Gang) : (s.setGang g x).podRefused = s.podRefused := rfl
@[simp] theorem State.setGang_fwImage (s : State) (g : Nat) (x : Gang) : (s.setGang g x).fwImage = s.fwImage := rfl
@[simp] theorem State.setGang_blobImage (s : State) (g : Nat) (x : Gang) : (s.setGang g x).blobImage = s.blobImage := rfl
@[simp] theorem State.setGang_romHash (s : State) (g : Nat) (x : Gang) : (s.setGang g x).romHash = s.romHash := rfl
@[simp] theorem State.setGang_boot (s : State) (g : Nat) (x : Gang) : (s.setGang g x).boot = s.boot := rfl
@[simp] theorem State.setGang_mhz (s : State) (g : Nat) (x : Gang) : (s.setGang g x).mhz = s.mhz := rfl
@[simp] theorem State.setGang_stopped (s : State) (g : Nat) (x : Gang) : (s.setGang g x).stopped = s.stopped := rfl
@[simp] theorem State.setGang_attest (s : State) (g : Nat) (x : Gang) : (s.setGang g x).attest = s.attest := rfl
@[simp] theorem State.setGang_signals (s : State) (g : Nat) (x : Gang) : (s.setGang g x).signals = s.signals := rfl
@[simp] theorem State.setGang_globalTime (s : State) (g : Nat) (x : Gang) : (s.setGang g x).globalTime = s.globalTime := rfl
@[simp] theorem State.setGang_cur (s : State) (g : Nat) (x : Gang) : (s.setGang g x).cur = s.cur := rfl
@[simp] theorem State.setGang_coreTurn (s : State) (g : Nat) (x : Gang) : (s.setGang g x).coreTurn = s.coreTurn := rfl
@[simp] theorem State.setGang_turn (s : State) (g : Nat) (x : Gang) : (s.setGang g x).turn = s.turn := rfl
@[simp] theorem State.setGang_pending (s : State) (g : Nat) (x : Gang) : (s.setGang g x).pending = s.pending := rfl
@[simp] theorem State.setGang_sched (s : State) (g : Nat) (x : Gang) : (s.setGang g x).sched = s.sched := rfl
@[simp] theorem State.setGang_freeCtr (s : State) (g : Nat) (x : Gang) : (s.setGang g x).freeCtr = s.freeCtr := rfl

@[simp] theorem State.send_mem (s : State) (i : Instr) : (s.send i).mem = s.mem := rfl
@[simp] theorem State.send_memKey (s : State) (i : Instr) : (s.send i).memKey = s.memKey := rfl
@[simp] theorem State.send_bad (s : State) (i : Instr) : (s.send i).bad = s.bad := rfl
@[simp] theorem State.send_weak (s : State) (i : Instr) : (s.send i).weak = s.weak := rfl
@[simp] theorem State.send_migLost (s : State) (i : Instr) : (s.send i).migLost = s.migLost := rfl
@[simp] theorem State.send_badRegs (s : State) (i : Instr) : (s.send i).badRegs = s.badRegs := rfl
@[simp] theorem State.send_badSpad (s : State) (i : Instr) : (s.send i).badSpad = s.badSpad := rfl
@[simp] theorem State.send_weakRegs (s : State) (i : Instr) : (s.send i).weakRegs = s.weakRegs := rfl
@[simp] theorem State.send_weakSpad (s : State) (i : Instr) : (s.send i).weakSpad = s.weakSpad := rfl
@[simp] theorem State.send_roles (s : State) (i : Instr) : (s.send i).roles = s.roles := rfl
@[simp] theorem State.send_cores (s : State) (i : Instr) : (s.send i).cores = s.cores := rfl
@[simp] theorem State.send_dies (s : State) (i : Instr) : (s.send i).dies = s.dies := rfl
@[simp] theorem State.send_hostLines (s : State) (i : Instr) : (s.send i).hostLines = s.hostLines := rfl
@[simp] theorem State.send_hostVmid (s : State) (i : Instr) : (s.send i).hostVmid = s.hostVmid := rfl
@[simp] theorem State.send_ctxs (s : State) (i : Instr) : (s.send i).ctxs = s.ctxs := rfl
@[simp] theorem State.send_issued (s : State) (i : Instr) : (s.send i).issued = s.issued := rfl
@[simp] theorem State.send_gangs (s : State) (i : Instr) : (s.send i).gangs = s.gangs := rfl
@[simp] theorem State.send_queues (s : State) (i : Instr) : (s.send i).queues = s.queues := rfl
@[simp] theorem State.send_spawns (s : State) (i : Instr) : (s.send i).spawns = s.spawns := rfl
@[simp] theorem State.send_rr (s : State) (i : Instr) : (s.send i).rr = s.rr := rfl
@[simp] theorem State.send_saveOrder (s : State) (i : Instr) : (s.send i).saveOrder = s.saveOrder := rfl
@[simp] theorem State.send_parks (s : State) (i : Instr) : (s.send i).parks = s.parks := rfl
@[simp] theorem State.send_nextGang (s : State) (i : Instr) : (s.send i).nextGang = s.nextGang := rfl
@[simp] theorem State.send_nextRole (s : State) (i : Instr) : (s.send i).nextRole = s.nextRole := rfl
@[simp] theorem State.send_seams (s : State) (i : Instr) : (s.send i).seams = s.seams := rfl
@[simp] theorem State.send_hearts (s : State) (i : Instr) : (s.send i).hearts = s.hearts := rfl
@[simp] theorem State.send_portsDown (s : State) (i : Instr) : (s.send i).portsDown = s.portsDown := rfl
@[simp] theorem State.send_podMem (s : State) (i : Instr) : (s.send i).podMem = s.podMem := rfl
@[simp] theorem State.send_podRefused (s : State) (i : Instr) : (s.send i).podRefused = s.podRefused := rfl
@[simp] theorem State.send_fwImage (s : State) (i : Instr) : (s.send i).fwImage = s.fwImage := rfl
@[simp] theorem State.send_blobImage (s : State) (i : Instr) : (s.send i).blobImage = s.blobImage := rfl
@[simp] theorem State.send_romHash (s : State) (i : Instr) : (s.send i).romHash = s.romHash := rfl
@[simp] theorem State.send_boot (s : State) (i : Instr) : (s.send i).boot = s.boot := rfl
@[simp] theorem State.send_mhz (s : State) (i : Instr) : (s.send i).mhz = s.mhz := rfl
@[simp] theorem State.send_stopped (s : State) (i : Instr) : (s.send i).stopped = s.stopped := rfl
@[simp] theorem State.send_attest (s : State) (i : Instr) : (s.send i).attest = s.attest := rfl
@[simp] theorem State.send_signals (s : State) (i : Instr) : (s.send i).signals = s.signals := rfl
@[simp] theorem State.send_globalTime (s : State) (i : Instr) : (s.send i).globalTime = s.globalTime := rfl
@[simp] theorem State.send_cur (s : State) (i : Instr) : (s.send i).cur = s.cur := rfl
@[simp] theorem State.send_coreTurn (s : State) (i : Instr) : (s.send i).coreTurn = s.coreTurn := rfl
@[simp] theorem State.send_turn (s : State) (i : Instr) : (s.send i).turn = s.turn := rfl
@[simp] theorem State.send_pending (s : State) (i : Instr) : (s.send i).pending = s.pending ++ [i] := rfl
@[simp] theorem State.send_sched (s : State) (i : Instr) : (s.send i).sched = s.sched := rfl
@[simp] theorem State.send_freeCtr (s : State) (i : Instr) : (s.send i).freeCtr = s.freeCtr := rfl

@[simp] theorem State.sendAll_mem (s : State) (l : List Instr) : (s.sendAll l).mem = s.mem := rfl
@[simp] theorem State.sendAll_memKey (s : State) (l : List Instr) : (s.sendAll l).memKey = s.memKey := rfl
@[simp] theorem State.sendAll_bad (s : State) (l : List Instr) : (s.sendAll l).bad = s.bad := rfl
@[simp] theorem State.sendAll_weak (s : State) (l : List Instr) : (s.sendAll l).weak = s.weak := rfl
@[simp] theorem State.sendAll_migLost (s : State) (l : List Instr) : (s.sendAll l).migLost = s.migLost := rfl
@[simp] theorem State.sendAll_badRegs (s : State) (l : List Instr) : (s.sendAll l).badRegs = s.badRegs := rfl
@[simp] theorem State.sendAll_badSpad (s : State) (l : List Instr) : (s.sendAll l).badSpad = s.badSpad := rfl
@[simp] theorem State.sendAll_weakRegs (s : State) (l : List Instr) : (s.sendAll l).weakRegs = s.weakRegs := rfl
@[simp] theorem State.sendAll_weakSpad (s : State) (l : List Instr) : (s.sendAll l).weakSpad = s.weakSpad := rfl
@[simp] theorem State.sendAll_roles (s : State) (l : List Instr) : (s.sendAll l).roles = s.roles := rfl
@[simp] theorem State.sendAll_cores (s : State) (l : List Instr) : (s.sendAll l).cores = s.cores := rfl
@[simp] theorem State.sendAll_dies (s : State) (l : List Instr) : (s.sendAll l).dies = s.dies := rfl
@[simp] theorem State.sendAll_hostLines (s : State) (l : List Instr) : (s.sendAll l).hostLines = s.hostLines := rfl
@[simp] theorem State.sendAll_hostVmid (s : State) (l : List Instr) : (s.sendAll l).hostVmid = s.hostVmid := rfl
@[simp] theorem State.sendAll_ctxs (s : State) (l : List Instr) : (s.sendAll l).ctxs = s.ctxs := rfl
@[simp] theorem State.sendAll_issued (s : State) (l : List Instr) : (s.sendAll l).issued = s.issued := rfl
@[simp] theorem State.sendAll_gangs (s : State) (l : List Instr) : (s.sendAll l).gangs = s.gangs := rfl
@[simp] theorem State.sendAll_queues (s : State) (l : List Instr) : (s.sendAll l).queues = s.queues := rfl
@[simp] theorem State.sendAll_spawns (s : State) (l : List Instr) : (s.sendAll l).spawns = s.spawns := rfl
@[simp] theorem State.sendAll_rr (s : State) (l : List Instr) : (s.sendAll l).rr = s.rr := rfl
@[simp] theorem State.sendAll_saveOrder (s : State) (l : List Instr) : (s.sendAll l).saveOrder = s.saveOrder := rfl
@[simp] theorem State.sendAll_parks (s : State) (l : List Instr) : (s.sendAll l).parks = s.parks := rfl
@[simp] theorem State.sendAll_nextGang (s : State) (l : List Instr) : (s.sendAll l).nextGang = s.nextGang := rfl
@[simp] theorem State.sendAll_nextRole (s : State) (l : List Instr) : (s.sendAll l).nextRole = s.nextRole := rfl
@[simp] theorem State.sendAll_seams (s : State) (l : List Instr) : (s.sendAll l).seams = s.seams := rfl
@[simp] theorem State.sendAll_hearts (s : State) (l : List Instr) : (s.sendAll l).hearts = s.hearts := rfl
@[simp] theorem State.sendAll_portsDown (s : State) (l : List Instr) : (s.sendAll l).portsDown = s.portsDown := rfl
@[simp] theorem State.sendAll_podMem (s : State) (l : List Instr) : (s.sendAll l).podMem = s.podMem := rfl
@[simp] theorem State.sendAll_podRefused (s : State) (l : List Instr) : (s.sendAll l).podRefused = s.podRefused := rfl
@[simp] theorem State.sendAll_fwImage (s : State) (l : List Instr) : (s.sendAll l).fwImage = s.fwImage := rfl
@[simp] theorem State.sendAll_blobImage (s : State) (l : List Instr) : (s.sendAll l).blobImage = s.blobImage := rfl
@[simp] theorem State.sendAll_romHash (s : State) (l : List Instr) : (s.sendAll l).romHash = s.romHash := rfl
@[simp] theorem State.sendAll_boot (s : State) (l : List Instr) : (s.sendAll l).boot = s.boot := rfl
@[simp] theorem State.sendAll_mhz (s : State) (l : List Instr) : (s.sendAll l).mhz = s.mhz := rfl
@[simp] theorem State.sendAll_stopped (s : State) (l : List Instr) : (s.sendAll l).stopped = s.stopped := rfl
@[simp] theorem State.sendAll_attest (s : State) (l : List Instr) : (s.sendAll l).attest = s.attest := rfl
@[simp] theorem State.sendAll_signals (s : State) (l : List Instr) : (s.sendAll l).signals = s.signals := rfl
@[simp] theorem State.sendAll_globalTime (s : State) (l : List Instr) : (s.sendAll l).globalTime = s.globalTime := rfl
@[simp] theorem State.sendAll_cur (s : State) (l : List Instr) : (s.sendAll l).cur = s.cur := rfl
@[simp] theorem State.sendAll_coreTurn (s : State) (l : List Instr) : (s.sendAll l).coreTurn = s.coreTurn := rfl
@[simp] theorem State.sendAll_turn (s : State) (l : List Instr) : (s.sendAll l).turn = s.turn := rfl
@[simp] theorem State.sendAll_pending (s : State) (l : List Instr) : (s.sendAll l).pending = s.pending ++ l := rfl
@[simp] theorem State.sendAll_sched (s : State) (l : List Instr) : (s.sendAll l).sched = s.sched := rfl
@[simp] theorem State.sendAll_freeCtr (s : State) (l : List Instr) : (s.sendAll l).freeCtr = s.freeCtr := rfl

@[simp] theorem State.signal_mem (s : State) (x : Signal) : (s.signal x).mem = s.mem := rfl
@[simp] theorem State.signal_memKey (s : State) (x : Signal) : (s.signal x).memKey = s.memKey := rfl
@[simp] theorem State.signal_bad (s : State) (x : Signal) : (s.signal x).bad = s.bad := rfl
@[simp] theorem State.signal_weak (s : State) (x : Signal) : (s.signal x).weak = s.weak := rfl
@[simp] theorem State.signal_migLost (s : State) (x : Signal) : (s.signal x).migLost = s.migLost := rfl
@[simp] theorem State.signal_badRegs (s : State) (x : Signal) : (s.signal x).badRegs = s.badRegs := rfl
@[simp] theorem State.signal_badSpad (s : State) (x : Signal) : (s.signal x).badSpad = s.badSpad := rfl
@[simp] theorem State.signal_weakRegs (s : State) (x : Signal) : (s.signal x).weakRegs = s.weakRegs := rfl
@[simp] theorem State.signal_weakSpad (s : State) (x : Signal) : (s.signal x).weakSpad = s.weakSpad := rfl
@[simp] theorem State.signal_roles (s : State) (x : Signal) : (s.signal x).roles = s.roles := rfl
@[simp] theorem State.signal_cores (s : State) (x : Signal) : (s.signal x).cores = s.cores := rfl
@[simp] theorem State.signal_dies (s : State) (x : Signal) : (s.signal x).dies = s.dies := rfl
@[simp] theorem State.signal_hostLines (s : State) (x : Signal) : (s.signal x).hostLines = s.hostLines := rfl
@[simp] theorem State.signal_hostVmid (s : State) (x : Signal) : (s.signal x).hostVmid = s.hostVmid := rfl
@[simp] theorem State.signal_ctxs (s : State) (x : Signal) : (s.signal x).ctxs = s.ctxs := rfl
@[simp] theorem State.signal_issued (s : State) (x : Signal) : (s.signal x).issued = s.issued := rfl
@[simp] theorem State.signal_gangs (s : State) (x : Signal) : (s.signal x).gangs = s.gangs := rfl
@[simp] theorem State.signal_queues (s : State) (x : Signal) : (s.signal x).queues = s.queues := rfl
@[simp] theorem State.signal_spawns (s : State) (x : Signal) : (s.signal x).spawns = s.spawns := rfl
@[simp] theorem State.signal_rr (s : State) (x : Signal) : (s.signal x).rr = s.rr := rfl
@[simp] theorem State.signal_saveOrder (s : State) (x : Signal) : (s.signal x).saveOrder = s.saveOrder := rfl
@[simp] theorem State.signal_parks (s : State) (x : Signal) : (s.signal x).parks = s.parks := rfl
@[simp] theorem State.signal_nextGang (s : State) (x : Signal) : (s.signal x).nextGang = s.nextGang := rfl
@[simp] theorem State.signal_nextRole (s : State) (x : Signal) : (s.signal x).nextRole = s.nextRole := rfl
@[simp] theorem State.signal_seams (s : State) (x : Signal) : (s.signal x).seams = s.seams := rfl
@[simp] theorem State.signal_hearts (s : State) (x : Signal) : (s.signal x).hearts = s.hearts := rfl
@[simp] theorem State.signal_portsDown (s : State) (x : Signal) : (s.signal x).portsDown = s.portsDown := rfl
@[simp] theorem State.signal_podMem (s : State) (x : Signal) : (s.signal x).podMem = s.podMem := rfl
@[simp] theorem State.signal_podRefused (s : State) (x : Signal) : (s.signal x).podRefused = s.podRefused := rfl
@[simp] theorem State.signal_fwImage (s : State) (x : Signal) : (s.signal x).fwImage = s.fwImage := rfl
@[simp] theorem State.signal_blobImage (s : State) (x : Signal) : (s.signal x).blobImage = s.blobImage := rfl
@[simp] theorem State.signal_romHash (s : State) (x : Signal) : (s.signal x).romHash = s.romHash := rfl
@[simp] theorem State.signal_boot (s : State) (x : Signal) : (s.signal x).boot = s.boot := rfl
@[simp] theorem State.signal_mhz (s : State) (x : Signal) : (s.signal x).mhz = s.mhz := rfl
@[simp] theorem State.signal_stopped (s : State) (x : Signal) : (s.signal x).stopped = s.stopped := rfl
@[simp] theorem State.signal_attest (s : State) (x : Signal) : (s.signal x).attest = s.attest := rfl
@[simp] theorem State.signal_signals (s : State) (x : Signal) : (s.signal x).signals = s.signals ++ [x] := rfl
@[simp] theorem State.signal_globalTime (s : State) (x : Signal) : (s.signal x).globalTime = s.globalTime := rfl
@[simp] theorem State.signal_cur (s : State) (x : Signal) : (s.signal x).cur = s.cur := rfl
@[simp] theorem State.signal_coreTurn (s : State) (x : Signal) : (s.signal x).coreTurn = s.coreTurn := rfl
@[simp] theorem State.signal_turn (s : State) (x : Signal) : (s.signal x).turn = s.turn := rfl
@[simp] theorem State.signal_pending (s : State) (x : Signal) : (s.signal x).pending = s.pending := rfl
@[simp] theorem State.signal_sched (s : State) (x : Signal) : (s.signal x).sched = s.sched := rfl
@[simp] theorem State.signal_freeCtr (s : State) (x : Signal) : (s.signal x).freeCtr = s.freeCtr := rfl

@[simp] theorem State.setByte_mem (s : State) (pa : Nat) (x : Byte) : (s.setByte pa x).mem = Sparse.set 0 s.mem pa x := rfl
@[simp] theorem State.setByte_memKey (s : State) (pa : Nat) (x : Byte) : (s.setByte pa x).memKey = s.memKey := rfl
@[simp] theorem State.setByte_bad (s : State) (pa : Nat) (x : Byte) : (s.setByte pa x).bad = s.bad := rfl
@[simp] theorem State.setByte_weak (s : State) (pa : Nat) (x : Byte) : (s.setByte pa x).weak = s.weak := rfl
@[simp] theorem State.setByte_migLost (s : State) (pa : Nat) (x : Byte) : (s.setByte pa x).migLost = s.migLost := rfl
@[simp] theorem State.setByte_badRegs (s : State) (pa : Nat) (x : Byte) : (s.setByte pa x).badRegs = s.badRegs := rfl
@[simp] theorem State.setByte_badSpad (s : State) (pa : Nat) (x : Byte) : (s.setByte pa x).badSpad = s.badSpad := rfl
@[simp] theorem State.setByte_weakRegs (s : State) (pa : Nat) (x : Byte) : (s.setByte pa x).weakRegs = s.weakRegs := rfl
@[simp] theorem State.setByte_weakSpad (s : State) (pa : Nat) (x : Byte) : (s.setByte pa x).weakSpad = s.weakSpad := rfl
@[simp] theorem State.setByte_roles (s : State) (pa : Nat) (x : Byte) : (s.setByte pa x).roles = s.roles := rfl
@[simp] theorem State.setByte_cores (s : State) (pa : Nat) (x : Byte) : (s.setByte pa x).cores = s.cores := rfl
@[simp] theorem State.setByte_dies (s : State) (pa : Nat) (x : Byte) : (s.setByte pa x).dies = s.dies := rfl
@[simp] theorem State.setByte_hostLines (s : State) (pa : Nat) (x : Byte) : (s.setByte pa x).hostLines = s.hostLines := rfl
@[simp] theorem State.setByte_hostVmid (s : State) (pa : Nat) (x : Byte) : (s.setByte pa x).hostVmid = s.hostVmid := rfl
@[simp] theorem State.setByte_ctxs (s : State) (pa : Nat) (x : Byte) : (s.setByte pa x).ctxs = s.ctxs := rfl
@[simp] theorem State.setByte_issued (s : State) (pa : Nat) (x : Byte) : (s.setByte pa x).issued = s.issued := rfl
@[simp] theorem State.setByte_gangs (s : State) (pa : Nat) (x : Byte) : (s.setByte pa x).gangs = s.gangs := rfl
@[simp] theorem State.setByte_queues (s : State) (pa : Nat) (x : Byte) : (s.setByte pa x).queues = s.queues := rfl
@[simp] theorem State.setByte_spawns (s : State) (pa : Nat) (x : Byte) : (s.setByte pa x).spawns = s.spawns := rfl
@[simp] theorem State.setByte_rr (s : State) (pa : Nat) (x : Byte) : (s.setByte pa x).rr = s.rr := rfl
@[simp] theorem State.setByte_saveOrder (s : State) (pa : Nat) (x : Byte) : (s.setByte pa x).saveOrder = s.saveOrder := rfl
@[simp] theorem State.setByte_parks (s : State) (pa : Nat) (x : Byte) : (s.setByte pa x).parks = s.parks := rfl
@[simp] theorem State.setByte_nextGang (s : State) (pa : Nat) (x : Byte) : (s.setByte pa x).nextGang = s.nextGang := rfl
@[simp] theorem State.setByte_nextRole (s : State) (pa : Nat) (x : Byte) : (s.setByte pa x).nextRole = s.nextRole := rfl
@[simp] theorem State.setByte_seams (s : State) (pa : Nat) (x : Byte) : (s.setByte pa x).seams = s.seams := rfl
@[simp] theorem State.setByte_hearts (s : State) (pa : Nat) (x : Byte) : (s.setByte pa x).hearts = s.hearts := rfl
@[simp] theorem State.setByte_portsDown (s : State) (pa : Nat) (x : Byte) : (s.setByte pa x).portsDown = s.portsDown := rfl
@[simp] theorem State.setByte_podMem (s : State) (pa : Nat) (x : Byte) : (s.setByte pa x).podMem = s.podMem := rfl
@[simp] theorem State.setByte_podRefused (s : State) (pa : Nat) (x : Byte) : (s.setByte pa x).podRefused = s.podRefused := rfl
@[simp] theorem State.setByte_fwImage (s : State) (pa : Nat) (x : Byte) : (s.setByte pa x).fwImage = s.fwImage := rfl
@[simp] theorem State.setByte_blobImage (s : State) (pa : Nat) (x : Byte) : (s.setByte pa x).blobImage = s.blobImage := rfl
@[simp] theorem State.setByte_romHash (s : State) (pa : Nat) (x : Byte) : (s.setByte pa x).romHash = s.romHash := rfl
@[simp] theorem State.setByte_boot (s : State) (pa : Nat) (x : Byte) : (s.setByte pa x).boot = s.boot := rfl
@[simp] theorem State.setByte_mhz (s : State) (pa : Nat) (x : Byte) : (s.setByte pa x).mhz = s.mhz := rfl
@[simp] theorem State.setByte_stopped (s : State) (pa : Nat) (x : Byte) : (s.setByte pa x).stopped = s.stopped := rfl
@[simp] theorem State.setByte_attest (s : State) (pa : Nat) (x : Byte) : (s.setByte pa x).attest = s.attest := rfl
@[simp] theorem State.setByte_signals (s : State) (pa : Nat) (x : Byte) : (s.setByte pa x).signals = s.signals := rfl
@[simp] theorem State.setByte_globalTime (s : State) (pa : Nat) (x : Byte) : (s.setByte pa x).globalTime = s.globalTime := rfl
@[simp] theorem State.setByte_cur (s : State) (pa : Nat) (x : Byte) : (s.setByte pa x).cur = s.cur := rfl
@[simp] theorem State.setByte_coreTurn (s : State) (pa : Nat) (x : Byte) : (s.setByte pa x).coreTurn = s.coreTurn := rfl
@[simp] theorem State.setByte_turn (s : State) (pa : Nat) (x : Byte) : (s.setByte pa x).turn = s.turn := rfl
@[simp] theorem State.setByte_pending (s : State) (pa : Nat) (x : Byte) : (s.setByte pa x).pending = s.pending := rfl
@[simp] theorem State.setByte_sched (s : State) (pa : Nat) (x : Byte) : (s.setByte pa x).sched = s.sched := rfl
@[simp] theorem State.setByte_freeCtr (s : State) (pa : Nat) (x : Byte) : (s.setByte pa x).freeCtr = s.freeCtr := rfl

@[simp] theorem Role.setSreg_gang (r : Role) (n : Nat) (x : Word) : (r.setSreg n x).gang = r.gang := rfl
@[simp] theorem Role.setSreg_grid (r : Role) (n : Nat) (x : Word) : (r.setSreg n x).grid = r.grid := rfl
@[simp] theorem Role.setSreg_team (r : Role) (n : Nat) (x : Word) : (r.setSreg n x).team = r.team := rfl
@[simp] theorem Role.setSreg_ix (r : Role) (n : Nat) (x : Word) : (r.setSreg n x).ix = r.ix := rfl
@[simp] theorem Role.setSreg_rank (r : Role) (n : Nat) (x : Word) : (r.setSreg n x).rank = r.rank := rfl
@[simp] theorem Role.setSreg_core (r : Role) (n : Nat) (x : Word) : (r.setSreg n x).core = r.core := rfl
@[simp] theorem Role.setSreg_slot (r : Role) (n : Nat) (x : Word) : (r.setSreg n x).slot = r.slot := rfl
@[simp] theorem Role.setSreg_prio (r : Role) (n : Nat) (x : Word) : (r.setSreg n x).prio = r.prio := rfl
@[simp] theorem Role.setSreg_vmid (r : Role) (n : Nat) (x : Word) : (r.setSreg n x).vmid = r.vmid := rfl
@[simp] theorem Role.setSreg_asid (r : Role) (n : Nat) (x : Word) : (r.setSreg n x).asid = r.asid := rfl
@[simp] theorem Role.setSreg_nlanes (r : Role) (n : Nat) (x : Word) : (r.setSreg n x).nlanes = r.nlanes := rfl
@[simp] theorem Role.setSreg_budget (r : Role) (n : Nat) (x : Word) : (r.setSreg n x).budget = r.budget := rfl
@[simp] theorem Role.setSreg_pc (r : Role) (n : Nat) (x : Word) : (r.setSreg n x).pc = r.pc := rfl
@[simp] theorem Role.setSreg_topped (r : Role) (n : Nat) (x : Word) : (r.setSreg n x).topped = r.topped := rfl
@[simp] theorem Role.setSreg_clause (r : Role) (n : Nat) (x : Word) : (r.setSreg n x).clause = r.clause := rfl
@[simp] theorem Role.setSreg_sregs (r : Role) (n : Nat) (x : Word) : (r.setSreg n x).sregs = Sparse.set 0 r.sregs n x := rfl
@[simp] theorem Role.setSreg_vregs (r : Role) (n : Nat) (x : Word) : (r.setSreg n x).vregs = r.vregs := rfl
@[simp] theorem Role.setSreg_masks (r : Role) (n : Nat) (x : Word) : (r.setSreg n x).masks = r.masks := rfl
@[simp] theorem Role.setSreg_waits (r : Role) (n : Nat) (x : Word) : (r.setSreg n x).waits = r.waits := rfl
@[simp] theorem Role.setSreg_bound (r : Role) (n : Nat) (x : Word) : (r.setSreg n x).bound = r.bound := rfl
@[simp] theorem Role.setSreg_streams (r : Role) (n : Nat) (x : Word) : (r.setSreg n x).streams = r.streams := rfl
@[simp] theorem Role.setSreg_queues (r : Role) (n : Nat) (x : Word) : (r.setSreg n x).queues = r.queues := rfl
@[simp] theorem Role.setSreg_views (r : Role) (n : Nat) (x : Word) : (r.setSreg n x).views = r.views := rfl
@[simp] theorem Role.setSreg_wver (r : Role) (n : Nat) (x : Word) : (r.setSreg n x).wver = r.wver := rfl
@[simp] theorem Role.setSreg_fmt (r : Role) (n : Nat) (x : Word) : (r.setSreg n x).fmt = r.fmt := rfl
@[simp] theorem Role.setSreg_fpstat (r : Role) (n : Nat) (x : Word) : (r.setSreg n x).fpstat = r.fpstat := rfl
@[simp] theorem Role.setSreg_amax (r : Role) (n : Nat) (x : Word) : (r.setSreg n x).amax = r.amax := rfl
@[simp] theorem Role.setSreg_cc (r : Role) (n : Nat) (x : Word) : (r.setSreg n x).cc = r.cc := rfl
@[simp] theorem Role.setSreg_stack (r : Role) (n : Nat) (x : Word) : (r.setSreg n x).stack = r.stack := rfl
@[simp] theorem Role.setSreg_spilled (r : Role) (n : Nat) (x : Word) : (r.setSreg n x).spilled = r.spilled := rfl
@[simp] theorem Role.setSreg_rsbase (r : Role) (n : Nat) (x : Word) : (r.setSreg n x).rsbase = r.rsbase := rfl
@[simp] theorem Role.setSreg_limit (r : Role) (n : Nat) (x : Word) : (r.setSreg n x).limit = r.limit := rfl
@[simp] theorem Role.setSreg_depth (r : Role) (n : Nat) (x : Word) : (r.setSreg n x).depth = r.depth := rfl
@[simp] theorem Role.setSreg_sf (r : Role) (n : Nat) (x : Word) : (r.setSreg n x).sf = r.sf := rfl
@[simp] theorem Role.setSreg_latch (r : Role) (n : Nat) (x : Word) : (r.setSreg n x).latch = r.latch := rfl
@[simp] theorem Role.setSreg_scale (r : Role) (n : Nat) (x : Word) : (r.setSreg n x).scale = r.scale := rfl
@[simp] theorem Role.setSreg_beamLimit (r : Role) (n : Nat) (x : Word) : (r.setSreg n x).beamLimit = r.beamLimit := rfl
@[simp] theorem Role.setSreg_beamGen (r : Role) (n : Nat) (x : Word) : (r.setSreg n x).beamGen = r.beamGen := rfl
@[simp] theorem Role.setSreg_beamHeld (r : Role) (n : Nat) (x : Word) : (r.setSreg n x).beamHeld = r.beamHeld := rfl
@[simp] theorem Role.setSreg_tvec (r : Role) (n : Nat) (x : Word) : (r.setSreg n x).tvec = r.tvec := rfl
@[simp] theorem Role.setSreg_tcause (r : Role) (n : Nat) (x : Word) : (r.setSreg n x).tcause = r.tcause := rfl
@[simp] theorem Role.setSreg_taddr (r : Role) (n : Nat) (x : Word) : (r.setSreg n x).taddr = r.taddr := rfl
@[simp] theorem Role.setSreg_tpc (r : Role) (n : Nat) (x : Word) : (r.setSreg n x).tpc = r.tpc := rfl
@[simp] theorem Role.setSreg_handler (r : Role) (n : Nat) (x : Word) : (r.setSreg n x).handler = r.handler := rfl
@[simp] theorem Role.setSreg_pend (r : Role) (n : Nat) (x : Word) : (r.setSreg n x).pend = r.pend := rfl
@[simp] theorem Role.setSreg_tack (r : Role) (n : Nat) (x : Word) : (r.setSreg n x).tack = r.tack := rfl
@[simp] theorem Role.setSreg_tackNext (r : Role) (n : Nat) (x : Word) : (r.setSreg n x).tackNext = r.tackNext := rfl
@[simp] theorem Role.setSreg_tackLast (r : Role) (n : Nat) (x : Word) : (r.setSreg n x).tackLast = r.tackLast := rfl
@[simp] theorem Role.setSreg_hold (r : Role) (n : Nat) (x : Word) : (r.setSreg n x).hold = r.hold := rfl
@[simp] theorem Role.setSreg_count (r : Role) (n : Nat) (x : Word) : (r.setSreg n x).count = r.count := rfl
@[simp] theorem Role.setSreg_yielded (r : Role) (n : Nat) (x : Word) : (r.setSreg n x).yielded = r.yielded := rfl
@[simp] theorem Role.setSreg_resume (r : Role) (n : Nat) (x : Word) : (r.setSreg n x).resume = r.resume := rfl
@[simp] theorem Role.setSreg_halting (r : Role) (n : Nat) (x : Word) : (r.setSreg n x).halting = r.halting := rfl
@[simp] theorem Role.setSreg_ended (r : Role) (n : Nat) (x : Word) : (r.setSreg n x).ended = r.ended := rfl

@[simp] theorem Role.setVreg_gang (r : Role) (n l : Nat) (x : Word) : (r.setVreg n l x).gang = r.gang := rfl
@[simp] theorem Role.setVreg_grid (r : Role) (n l : Nat) (x : Word) : (r.setVreg n l x).grid = r.grid := rfl
@[simp] theorem Role.setVreg_team (r : Role) (n l : Nat) (x : Word) : (r.setVreg n l x).team = r.team := rfl
@[simp] theorem Role.setVreg_ix (r : Role) (n l : Nat) (x : Word) : (r.setVreg n l x).ix = r.ix := rfl
@[simp] theorem Role.setVreg_rank (r : Role) (n l : Nat) (x : Word) : (r.setVreg n l x).rank = r.rank := rfl
@[simp] theorem Role.setVreg_core (r : Role) (n l : Nat) (x : Word) : (r.setVreg n l x).core = r.core := rfl
@[simp] theorem Role.setVreg_slot (r : Role) (n l : Nat) (x : Word) : (r.setVreg n l x).slot = r.slot := rfl
@[simp] theorem Role.setVreg_prio (r : Role) (n l : Nat) (x : Word) : (r.setVreg n l x).prio = r.prio := rfl
@[simp] theorem Role.setVreg_vmid (r : Role) (n l : Nat) (x : Word) : (r.setVreg n l x).vmid = r.vmid := rfl
@[simp] theorem Role.setVreg_asid (r : Role) (n l : Nat) (x : Word) : (r.setVreg n l x).asid = r.asid := rfl
@[simp] theorem Role.setVreg_nlanes (r : Role) (n l : Nat) (x : Word) : (r.setVreg n l x).nlanes = r.nlanes := rfl
@[simp] theorem Role.setVreg_budget (r : Role) (n l : Nat) (x : Word) : (r.setVreg n l x).budget = r.budget := rfl
@[simp] theorem Role.setVreg_pc (r : Role) (n l : Nat) (x : Word) : (r.setVreg n l x).pc = r.pc := rfl
@[simp] theorem Role.setVreg_topped (r : Role) (n l : Nat) (x : Word) : (r.setVreg n l x).topped = r.topped := rfl
@[simp] theorem Role.setVreg_clause (r : Role) (n l : Nat) (x : Word) : (r.setVreg n l x).clause = r.clause := rfl
@[simp] theorem Role.setVreg_sregs (r : Role) (n l : Nat) (x : Word) : (r.setVreg n l x).sregs = r.sregs := rfl
@[simp] theorem Role.setVreg_vregs (r : Role) (n l : Nat) (x : Word) : (r.setVreg n l x).vregs = Sparse.set 0 r.vregs (1024 * n + l) x := rfl
@[simp] theorem Role.setVreg_masks (r : Role) (n l : Nat) (x : Word) : (r.setVreg n l x).masks = r.masks := rfl
@[simp] theorem Role.setVreg_waits (r : Role) (n l : Nat) (x : Word) : (r.setVreg n l x).waits = r.waits := rfl
@[simp] theorem Role.setVreg_bound (r : Role) (n l : Nat) (x : Word) : (r.setVreg n l x).bound = r.bound := rfl
@[simp] theorem Role.setVreg_streams (r : Role) (n l : Nat) (x : Word) : (r.setVreg n l x).streams = r.streams := rfl
@[simp] theorem Role.setVreg_queues (r : Role) (n l : Nat) (x : Word) : (r.setVreg n l x).queues = r.queues := rfl
@[simp] theorem Role.setVreg_views (r : Role) (n l : Nat) (x : Word) : (r.setVreg n l x).views = r.views := rfl
@[simp] theorem Role.setVreg_wver (r : Role) (n l : Nat) (x : Word) : (r.setVreg n l x).wver = r.wver := rfl
@[simp] theorem Role.setVreg_fmt (r : Role) (n l : Nat) (x : Word) : (r.setVreg n l x).fmt = r.fmt := rfl
@[simp] theorem Role.setVreg_fpstat (r : Role) (n l : Nat) (x : Word) : (r.setVreg n l x).fpstat = r.fpstat := rfl
@[simp] theorem Role.setVreg_amax (r : Role) (n l : Nat) (x : Word) : (r.setVreg n l x).amax = r.amax := rfl
@[simp] theorem Role.setVreg_cc (r : Role) (n l : Nat) (x : Word) : (r.setVreg n l x).cc = r.cc := rfl
@[simp] theorem Role.setVreg_stack (r : Role) (n l : Nat) (x : Word) : (r.setVreg n l x).stack = r.stack := rfl
@[simp] theorem Role.setVreg_spilled (r : Role) (n l : Nat) (x : Word) : (r.setVreg n l x).spilled = r.spilled := rfl
@[simp] theorem Role.setVreg_rsbase (r : Role) (n l : Nat) (x : Word) : (r.setVreg n l x).rsbase = r.rsbase := rfl
@[simp] theorem Role.setVreg_limit (r : Role) (n l : Nat) (x : Word) : (r.setVreg n l x).limit = r.limit := rfl
@[simp] theorem Role.setVreg_depth (r : Role) (n l : Nat) (x : Word) : (r.setVreg n l x).depth = r.depth := rfl
@[simp] theorem Role.setVreg_sf (r : Role) (n l : Nat) (x : Word) : (r.setVreg n l x).sf = r.sf := rfl
@[simp] theorem Role.setVreg_latch (r : Role) (n l : Nat) (x : Word) : (r.setVreg n l x).latch = r.latch := rfl
@[simp] theorem Role.setVreg_scale (r : Role) (n l : Nat) (x : Word) : (r.setVreg n l x).scale = r.scale := rfl
@[simp] theorem Role.setVreg_beamLimit (r : Role) (n l : Nat) (x : Word) : (r.setVreg n l x).beamLimit = r.beamLimit := rfl
@[simp] theorem Role.setVreg_beamGen (r : Role) (n l : Nat) (x : Word) : (r.setVreg n l x).beamGen = r.beamGen := rfl
@[simp] theorem Role.setVreg_beamHeld (r : Role) (n l : Nat) (x : Word) : (r.setVreg n l x).beamHeld = r.beamHeld := rfl
@[simp] theorem Role.setVreg_tvec (r : Role) (n l : Nat) (x : Word) : (r.setVreg n l x).tvec = r.tvec := rfl
@[simp] theorem Role.setVreg_tcause (r : Role) (n l : Nat) (x : Word) : (r.setVreg n l x).tcause = r.tcause := rfl
@[simp] theorem Role.setVreg_taddr (r : Role) (n l : Nat) (x : Word) : (r.setVreg n l x).taddr = r.taddr := rfl
@[simp] theorem Role.setVreg_tpc (r : Role) (n l : Nat) (x : Word) : (r.setVreg n l x).tpc = r.tpc := rfl
@[simp] theorem Role.setVreg_handler (r : Role) (n l : Nat) (x : Word) : (r.setVreg n l x).handler = r.handler := rfl
@[simp] theorem Role.setVreg_pend (r : Role) (n l : Nat) (x : Word) : (r.setVreg n l x).pend = r.pend := rfl
@[simp] theorem Role.setVreg_tack (r : Role) (n l : Nat) (x : Word) : (r.setVreg n l x).tack = r.tack := rfl
@[simp] theorem Role.setVreg_tackNext (r : Role) (n l : Nat) (x : Word) : (r.setVreg n l x).tackNext = r.tackNext := rfl
@[simp] theorem Role.setVreg_tackLast (r : Role) (n l : Nat) (x : Word) : (r.setVreg n l x).tackLast = r.tackLast := rfl
@[simp] theorem Role.setVreg_hold (r : Role) (n l : Nat) (x : Word) : (r.setVreg n l x).hold = r.hold := rfl
@[simp] theorem Role.setVreg_count (r : Role) (n l : Nat) (x : Word) : (r.setVreg n l x).count = r.count := rfl
@[simp] theorem Role.setVreg_yielded (r : Role) (n l : Nat) (x : Word) : (r.setVreg n l x).yielded = r.yielded := rfl
@[simp] theorem Role.setVreg_resume (r : Role) (n l : Nat) (x : Word) : (r.setVreg n l x).resume = r.resume := rfl
@[simp] theorem Role.setVreg_halting (r : Role) (n l : Nat) (x : Word) : (r.setVreg n l x).halting = r.halting := rfl
@[simp] theorem Role.setVreg_ended (r : Role) (n l : Nat) (x : Word) : (r.setVreg n l x).ended = r.ended := rfl

@[simp] theorem Role.setMask_gang (r : Role) (n : Nat) (m : LaneMask) : (r.setMask n m).gang = r.gang := rfl
@[simp] theorem Role.setMask_grid (r : Role) (n : Nat) (m : LaneMask) : (r.setMask n m).grid = r.grid := rfl
@[simp] theorem Role.setMask_team (r : Role) (n : Nat) (m : LaneMask) : (r.setMask n m).team = r.team := rfl
@[simp] theorem Role.setMask_ix (r : Role) (n : Nat) (m : LaneMask) : (r.setMask n m).ix = r.ix := rfl
@[simp] theorem Role.setMask_rank (r : Role) (n : Nat) (m : LaneMask) : (r.setMask n m).rank = r.rank := rfl
@[simp] theorem Role.setMask_core (r : Role) (n : Nat) (m : LaneMask) : (r.setMask n m).core = r.core := rfl
@[simp] theorem Role.setMask_slot (r : Role) (n : Nat) (m : LaneMask) : (r.setMask n m).slot = r.slot := rfl
@[simp] theorem Role.setMask_prio (r : Role) (n : Nat) (m : LaneMask) : (r.setMask n m).prio = r.prio := rfl
@[simp] theorem Role.setMask_vmid (r : Role) (n : Nat) (m : LaneMask) : (r.setMask n m).vmid = r.vmid := rfl
@[simp] theorem Role.setMask_asid (r : Role) (n : Nat) (m : LaneMask) : (r.setMask n m).asid = r.asid := rfl
@[simp] theorem Role.setMask_nlanes (r : Role) (n : Nat) (m : LaneMask) : (r.setMask n m).nlanes = r.nlanes := rfl
@[simp] theorem Role.setMask_budget (r : Role) (n : Nat) (m : LaneMask) : (r.setMask n m).budget = r.budget := rfl
@[simp] theorem Role.setMask_pc (r : Role) (n : Nat) (m : LaneMask) : (r.setMask n m).pc = r.pc := rfl
@[simp] theorem Role.setMask_topped (r : Role) (n : Nat) (m : LaneMask) : (r.setMask n m).topped = r.topped := rfl
@[simp] theorem Role.setMask_clause (r : Role) (n : Nat) (m : LaneMask) : (r.setMask n m).clause = r.clause := rfl
@[simp] theorem Role.setMask_sregs (r : Role) (n : Nat) (m : LaneMask) : (r.setMask n m).sregs = r.sregs := rfl
@[simp] theorem Role.setMask_vregs (r : Role) (n : Nat) (m : LaneMask) : (r.setMask n m).vregs = r.vregs := rfl
@[simp] theorem Role.setMask_masks (r : Role) (n : Nat) (m : LaneMask) : (r.setMask n m).masks = Sparse.set 0 r.masks n (m &&& lowLanes r.nlanes) := rfl
@[simp] theorem Role.setMask_waits (r : Role) (n : Nat) (m : LaneMask) : (r.setMask n m).waits = r.waits := rfl
@[simp] theorem Role.setMask_bound (r : Role) (n : Nat) (m : LaneMask) : (r.setMask n m).bound = r.bound := rfl
@[simp] theorem Role.setMask_streams (r : Role) (n : Nat) (m : LaneMask) : (r.setMask n m).streams = r.streams := rfl
@[simp] theorem Role.setMask_queues (r : Role) (n : Nat) (m : LaneMask) : (r.setMask n m).queues = r.queues := rfl
@[simp] theorem Role.setMask_views (r : Role) (n : Nat) (m : LaneMask) : (r.setMask n m).views = r.views := rfl
@[simp] theorem Role.setMask_wver (r : Role) (n : Nat) (m : LaneMask) : (r.setMask n m).wver = r.wver := rfl
@[simp] theorem Role.setMask_fmt (r : Role) (n : Nat) (m : LaneMask) : (r.setMask n m).fmt = r.fmt := rfl
@[simp] theorem Role.setMask_fpstat (r : Role) (n : Nat) (m : LaneMask) : (r.setMask n m).fpstat = r.fpstat := rfl
@[simp] theorem Role.setMask_amax (r : Role) (n : Nat) (m : LaneMask) : (r.setMask n m).amax = r.amax := rfl
@[simp] theorem Role.setMask_cc (r : Role) (n : Nat) (m : LaneMask) : (r.setMask n m).cc = r.cc := rfl
@[simp] theorem Role.setMask_stack (r : Role) (n : Nat) (m : LaneMask) : (r.setMask n m).stack = r.stack := rfl
@[simp] theorem Role.setMask_spilled (r : Role) (n : Nat) (m : LaneMask) : (r.setMask n m).spilled = r.spilled := rfl
@[simp] theorem Role.setMask_rsbase (r : Role) (n : Nat) (m : LaneMask) : (r.setMask n m).rsbase = r.rsbase := rfl
@[simp] theorem Role.setMask_limit (r : Role) (n : Nat) (m : LaneMask) : (r.setMask n m).limit = r.limit := rfl
@[simp] theorem Role.setMask_depth (r : Role) (n : Nat) (m : LaneMask) : (r.setMask n m).depth = r.depth := rfl
@[simp] theorem Role.setMask_sf (r : Role) (n : Nat) (m : LaneMask) : (r.setMask n m).sf = r.sf := rfl
@[simp] theorem Role.setMask_latch (r : Role) (n : Nat) (m : LaneMask) : (r.setMask n m).latch = r.latch := rfl
@[simp] theorem Role.setMask_scale (r : Role) (n : Nat) (m : LaneMask) : (r.setMask n m).scale = r.scale := rfl
@[simp] theorem Role.setMask_beamLimit (r : Role) (n : Nat) (m : LaneMask) : (r.setMask n m).beamLimit = r.beamLimit := rfl
@[simp] theorem Role.setMask_beamGen (r : Role) (n : Nat) (m : LaneMask) : (r.setMask n m).beamGen = r.beamGen := rfl
@[simp] theorem Role.setMask_beamHeld (r : Role) (n : Nat) (m : LaneMask) : (r.setMask n m).beamHeld = r.beamHeld := rfl
@[simp] theorem Role.setMask_tvec (r : Role) (n : Nat) (m : LaneMask) : (r.setMask n m).tvec = r.tvec := rfl
@[simp] theorem Role.setMask_tcause (r : Role) (n : Nat) (m : LaneMask) : (r.setMask n m).tcause = r.tcause := rfl
@[simp] theorem Role.setMask_taddr (r : Role) (n : Nat) (m : LaneMask) : (r.setMask n m).taddr = r.taddr := rfl
@[simp] theorem Role.setMask_tpc (r : Role) (n : Nat) (m : LaneMask) : (r.setMask n m).tpc = r.tpc := rfl
@[simp] theorem Role.setMask_handler (r : Role) (n : Nat) (m : LaneMask) : (r.setMask n m).handler = r.handler := rfl
@[simp] theorem Role.setMask_pend (r : Role) (n : Nat) (m : LaneMask) : (r.setMask n m).pend = r.pend := rfl
@[simp] theorem Role.setMask_tack (r : Role) (n : Nat) (m : LaneMask) : (r.setMask n m).tack = r.tack := rfl
@[simp] theorem Role.setMask_tackNext (r : Role) (n : Nat) (m : LaneMask) : (r.setMask n m).tackNext = r.tackNext := rfl
@[simp] theorem Role.setMask_tackLast (r : Role) (n : Nat) (m : LaneMask) : (r.setMask n m).tackLast = r.tackLast := rfl
@[simp] theorem Role.setMask_hold (r : Role) (n : Nat) (m : LaneMask) : (r.setMask n m).hold = r.hold := rfl
@[simp] theorem Role.setMask_count (r : Role) (n : Nat) (m : LaneMask) : (r.setMask n m).count = r.count := rfl
@[simp] theorem Role.setMask_yielded (r : Role) (n : Nat) (m : LaneMask) : (r.setMask n m).yielded = r.yielded := rfl
@[simp] theorem Role.setMask_resume (r : Role) (n : Nat) (m : LaneMask) : (r.setMask n m).resume = r.resume := rfl
@[simp] theorem Role.setMask_halting (r : Role) (n : Nat) (m : LaneMask) : (r.setMask n m).halting = r.halting := rfl
@[simp] theorem Role.setMask_ended (r : Role) (n : Nat) (m : LaneMask) : (r.setMask n m).ended = r.ended := rfl

@[simp] theorem Role.holdAt_gang (r : Role) (h : Hold) : (r.holdAt h).gang = r.gang := rfl
@[simp] theorem Role.holdAt_grid (r : Role) (h : Hold) : (r.holdAt h).grid = r.grid := rfl
@[simp] theorem Role.holdAt_team (r : Role) (h : Hold) : (r.holdAt h).team = r.team := rfl
@[simp] theorem Role.holdAt_ix (r : Role) (h : Hold) : (r.holdAt h).ix = r.ix := rfl
@[simp] theorem Role.holdAt_rank (r : Role) (h : Hold) : (r.holdAt h).rank = r.rank := rfl
@[simp] theorem Role.holdAt_core (r : Role) (h : Hold) : (r.holdAt h).core = r.core := rfl
@[simp] theorem Role.holdAt_slot (r : Role) (h : Hold) : (r.holdAt h).slot = r.slot := rfl
@[simp] theorem Role.holdAt_prio (r : Role) (h : Hold) : (r.holdAt h).prio = r.prio := rfl
@[simp] theorem Role.holdAt_vmid (r : Role) (h : Hold) : (r.holdAt h).vmid = r.vmid := rfl
@[simp] theorem Role.holdAt_asid (r : Role) (h : Hold) : (r.holdAt h).asid = r.asid := rfl
@[simp] theorem Role.holdAt_nlanes (r : Role) (h : Hold) : (r.holdAt h).nlanes = r.nlanes := rfl
@[simp] theorem Role.holdAt_budget (r : Role) (h : Hold) : (r.holdAt h).budget = r.budget := rfl
@[simp] theorem Role.holdAt_pc (r : Role) (h : Hold) : (r.holdAt h).pc = r.pc := rfl
@[simp] theorem Role.holdAt_topped (r : Role) (h : Hold) : (r.holdAt h).topped = r.topped := rfl
@[simp] theorem Role.holdAt_clause (r : Role) (h : Hold) : (r.holdAt h).clause = r.clause := rfl
@[simp] theorem Role.holdAt_sregs (r : Role) (h : Hold) : (r.holdAt h).sregs = r.sregs := rfl
@[simp] theorem Role.holdAt_vregs (r : Role) (h : Hold) : (r.holdAt h).vregs = r.vregs := rfl
@[simp] theorem Role.holdAt_masks (r : Role) (h : Hold) : (r.holdAt h).masks = r.masks := rfl
@[simp] theorem Role.holdAt_waits (r : Role) (h : Hold) : (r.holdAt h).waits = r.waits := rfl
@[simp] theorem Role.holdAt_bound (r : Role) (h : Hold) : (r.holdAt h).bound = r.bound := rfl
@[simp] theorem Role.holdAt_streams (r : Role) (h : Hold) : (r.holdAt h).streams = r.streams := rfl
@[simp] theorem Role.holdAt_queues (r : Role) (h : Hold) : (r.holdAt h).queues = r.queues := rfl
@[simp] theorem Role.holdAt_views (r : Role) (h : Hold) : (r.holdAt h).views = r.views := rfl
@[simp] theorem Role.holdAt_wver (r : Role) (h : Hold) : (r.holdAt h).wver = r.wver := rfl
@[simp] theorem Role.holdAt_fmt (r : Role) (h : Hold) : (r.holdAt h).fmt = r.fmt := rfl
@[simp] theorem Role.holdAt_fpstat (r : Role) (h : Hold) : (r.holdAt h).fpstat = r.fpstat := rfl
@[simp] theorem Role.holdAt_amax (r : Role) (h : Hold) : (r.holdAt h).amax = r.amax := rfl
@[simp] theorem Role.holdAt_cc (r : Role) (h : Hold) : (r.holdAt h).cc = r.cc := rfl
@[simp] theorem Role.holdAt_stack (r : Role) (h : Hold) : (r.holdAt h).stack = r.stack := rfl
@[simp] theorem Role.holdAt_spilled (r : Role) (h : Hold) : (r.holdAt h).spilled = r.spilled := rfl
@[simp] theorem Role.holdAt_rsbase (r : Role) (h : Hold) : (r.holdAt h).rsbase = r.rsbase := rfl
@[simp] theorem Role.holdAt_limit (r : Role) (h : Hold) : (r.holdAt h).limit = r.limit := rfl
@[simp] theorem Role.holdAt_depth (r : Role) (h : Hold) : (r.holdAt h).depth = r.depth := rfl
@[simp] theorem Role.holdAt_sf (r : Role) (h : Hold) : (r.holdAt h).sf = r.sf := rfl
@[simp] theorem Role.holdAt_latch (r : Role) (h : Hold) : (r.holdAt h).latch = r.latch := rfl
@[simp] theorem Role.holdAt_scale (r : Role) (h : Hold) : (r.holdAt h).scale = r.scale := rfl
@[simp] theorem Role.holdAt_beamLimit (r : Role) (h : Hold) : (r.holdAt h).beamLimit = r.beamLimit := rfl
@[simp] theorem Role.holdAt_beamGen (r : Role) (h : Hold) : (r.holdAt h).beamGen = r.beamGen := rfl
@[simp] theorem Role.holdAt_beamHeld (r : Role) (h : Hold) : (r.holdAt h).beamHeld = r.beamHeld := rfl
@[simp] theorem Role.holdAt_tvec (r : Role) (h : Hold) : (r.holdAt h).tvec = r.tvec := rfl
@[simp] theorem Role.holdAt_tcause (r : Role) (h : Hold) : (r.holdAt h).tcause = r.tcause := rfl
@[simp] theorem Role.holdAt_taddr (r : Role) (h : Hold) : (r.holdAt h).taddr = r.taddr := rfl
@[simp] theorem Role.holdAt_tpc (r : Role) (h : Hold) : (r.holdAt h).tpc = r.tpc := rfl
@[simp] theorem Role.holdAt_handler (r : Role) (h : Hold) : (r.holdAt h).handler = r.handler := rfl
@[simp] theorem Role.holdAt_pend (r : Role) (h : Hold) : (r.holdAt h).pend = r.pend := rfl
@[simp] theorem Role.holdAt_tack (r : Role) (h : Hold) : (r.holdAt h).tack = r.tack := rfl
@[simp] theorem Role.holdAt_tackNext (r : Role) (h : Hold) : (r.holdAt h).tackNext = r.tackNext := rfl
@[simp] theorem Role.holdAt_tackLast (r : Role) (h : Hold) : (r.holdAt h).tackLast = r.tackLast := rfl
@[simp] theorem Role.holdAt_hold (r : Role) (h : Hold) : (r.holdAt h).hold = h := rfl
@[simp] theorem Role.holdAt_count (r : Role) (h : Hold) : (r.holdAt h).count = r.count := rfl
@[simp] theorem Role.holdAt_yielded (r : Role) (h : Hold) : (r.holdAt h).yielded = r.yielded := rfl
@[simp] theorem Role.holdAt_resume (r : Role) (h : Hold) : (r.holdAt h).resume = r.resume := rfl
@[simp] theorem Role.holdAt_halting (r : Role) (h : Hold) : (r.holdAt h).halting = r.halting := rfl
@[simp] theorem Role.holdAt_ended (r : Role) (h : Hold) : (r.holdAt h).ended = r.ended := rfl

@[simp] theorem Role.settle_gang (r : Role) : (r.settle).gang = r.gang := rfl
@[simp] theorem Role.settle_grid (r : Role) : (r.settle).grid = r.grid := rfl
@[simp] theorem Role.settle_team (r : Role) : (r.settle).team = r.team := rfl
@[simp] theorem Role.settle_ix (r : Role) : (r.settle).ix = r.ix := rfl
@[simp] theorem Role.settle_rank (r : Role) : (r.settle).rank = r.rank := rfl
@[simp] theorem Role.settle_core (r : Role) : (r.settle).core = r.core := rfl
@[simp] theorem Role.settle_slot (r : Role) : (r.settle).slot = r.slot := rfl
@[simp] theorem Role.settle_prio (r : Role) : (r.settle).prio = r.prio := rfl
@[simp] theorem Role.settle_vmid (r : Role) : (r.settle).vmid = r.vmid := rfl
@[simp] theorem Role.settle_asid (r : Role) : (r.settle).asid = r.asid := rfl
@[simp] theorem Role.settle_nlanes (r : Role) : (r.settle).nlanes = r.nlanes := rfl
@[simp] theorem Role.settle_budget (r : Role) : (r.settle).budget = r.budget := rfl
@[simp] theorem Role.settle_pc (r : Role) : (r.settle).pc = r.pc := rfl
@[simp] theorem Role.settle_topped (r : Role) : (r.settle).topped = r.topped := rfl
@[simp] theorem Role.settle_clause (r : Role) : (r.settle).clause = r.clause := rfl
@[simp] theorem Role.settle_sregs (r : Role) : (r.settle).sregs = r.sregs := rfl
@[simp] theorem Role.settle_vregs (r : Role) : (r.settle).vregs = r.vregs := rfl
@[simp] theorem Role.settle_masks (r : Role) : (r.settle).masks = r.masks := rfl
@[simp] theorem Role.settle_waits (r : Role) : (r.settle).waits = r.waits := rfl
@[simp] theorem Role.settle_bound (r : Role) : (r.settle).bound = r.bound := rfl
@[simp] theorem Role.settle_streams (r : Role) : (r.settle).streams = r.streams := rfl
@[simp] theorem Role.settle_queues (r : Role) : (r.settle).queues = r.queues := rfl
@[simp] theorem Role.settle_views (r : Role) : (r.settle).views = r.views := rfl
@[simp] theorem Role.settle_wver (r : Role) : (r.settle).wver = r.wver := rfl
@[simp] theorem Role.settle_fmt (r : Role) : (r.settle).fmt = r.fmt := rfl
@[simp] theorem Role.settle_fpstat (r : Role) : (r.settle).fpstat = r.fpstat := rfl
@[simp] theorem Role.settle_amax (r : Role) : (r.settle).amax = r.amax := rfl
@[simp] theorem Role.settle_cc (r : Role) : (r.settle).cc = r.cc := rfl
@[simp] theorem Role.settle_stack (r : Role) : (r.settle).stack = r.stack := rfl
@[simp] theorem Role.settle_spilled (r : Role) : (r.settle).spilled = r.spilled := rfl
@[simp] theorem Role.settle_rsbase (r : Role) : (r.settle).rsbase = r.rsbase := rfl
@[simp] theorem Role.settle_limit (r : Role) : (r.settle).limit = r.limit := rfl
@[simp] theorem Role.settle_depth (r : Role) : (r.settle).depth = r.depth := rfl
@[simp] theorem Role.settle_sf (r : Role) : (r.settle).sf = r.sf := rfl
@[simp] theorem Role.settle_latch (r : Role) : (r.settle).latch = r.latch := rfl
@[simp] theorem Role.settle_scale (r : Role) : (r.settle).scale = r.scale := rfl
@[simp] theorem Role.settle_beamLimit (r : Role) : (r.settle).beamLimit = r.beamLimit := rfl
@[simp] theorem Role.settle_beamGen (r : Role) : (r.settle).beamGen = r.beamGen := rfl
@[simp] theorem Role.settle_beamHeld (r : Role) : (r.settle).beamHeld = r.beamHeld := rfl
@[simp] theorem Role.settle_tvec (r : Role) : (r.settle).tvec = r.tvec := rfl
@[simp] theorem Role.settle_tcause (r : Role) : (r.settle).tcause = r.tcause := rfl
@[simp] theorem Role.settle_taddr (r : Role) : (r.settle).taddr = r.taddr := rfl
@[simp] theorem Role.settle_tpc (r : Role) : (r.settle).tpc = r.tpc := rfl
@[simp] theorem Role.settle_handler (r : Role) : (r.settle).handler = r.handler := rfl
@[simp] theorem Role.settle_pend (r : Role) : (r.settle).pend = r.pend := rfl
@[simp] theorem Role.settle_tack (r : Role) : (r.settle).tack = (if r.tackLast then none else r.tack) := rfl
@[simp] theorem Role.settle_tackNext (r : Role) : (r.settle).tackNext = r.tackNext := rfl
@[simp] theorem Role.settle_tackLast (r : Role) : (r.settle).tackLast = false := rfl
@[simp] theorem Role.settle_hold (r : Role) : (r.settle).hold = .ready := rfl
@[simp] theorem Role.settle_count (r : Role) : (r.settle).count = r.count := rfl
@[simp] theorem Role.settle_yielded (r : Role) : (r.settle).yielded = r.yielded := rfl
@[simp] theorem Role.settle_resume (r : Role) : (r.settle).resume = r.resume := rfl
@[simp] theorem Role.settle_halting (r : Role) : (r.settle).halting = r.halting := rfl
@[simp] theorem Role.settle_ended (r : Role) : (r.settle).ended = r.ended := rfl

@[simp] theorem Role.goto_gang (r : Role) (a : Word) : (r.goto a).gang = r.gang := rfl
@[simp] theorem Role.goto_grid (r : Role) (a : Word) : (r.goto a).grid = r.grid := rfl
@[simp] theorem Role.goto_team (r : Role) (a : Word) : (r.goto a).team = r.team := rfl
@[simp] theorem Role.goto_ix (r : Role) (a : Word) : (r.goto a).ix = r.ix := rfl
@[simp] theorem Role.goto_rank (r : Role) (a : Word) : (r.goto a).rank = r.rank := rfl
@[simp] theorem Role.goto_core (r : Role) (a : Word) : (r.goto a).core = r.core := rfl
@[simp] theorem Role.goto_slot (r : Role) (a : Word) : (r.goto a).slot = r.slot := rfl
@[simp] theorem Role.goto_prio (r : Role) (a : Word) : (r.goto a).prio = r.prio := rfl
@[simp] theorem Role.goto_vmid (r : Role) (a : Word) : (r.goto a).vmid = r.vmid := rfl
@[simp] theorem Role.goto_asid (r : Role) (a : Word) : (r.goto a).asid = r.asid := rfl
@[simp] theorem Role.goto_nlanes (r : Role) (a : Word) : (r.goto a).nlanes = r.nlanes := rfl
@[simp] theorem Role.goto_budget (r : Role) (a : Word) : (r.goto a).budget = r.budget := rfl
@[simp] theorem Role.goto_pc (r : Role) (a : Word) : (r.goto a).pc = a := rfl
@[simp] theorem Role.goto_topped (r : Role) (a : Word) : (r.goto a).topped = false := rfl
@[simp] theorem Role.goto_clause (r : Role) (a : Word) : (r.goto a).clause = none := rfl
@[simp] theorem Role.goto_sregs (r : Role) (a : Word) : (r.goto a).sregs = r.sregs := rfl
@[simp] theorem Role.goto_vregs (r : Role) (a : Word) : (r.goto a).vregs = r.vregs := rfl
@[simp] theorem Role.goto_masks (r : Role) (a : Word) : (r.goto a).masks = r.masks := rfl
@[simp] theorem Role.goto_waits (r : Role) (a : Word) : (r.goto a).waits = r.waits := rfl
@[simp] theorem Role.goto_bound (r : Role) (a : Word) : (r.goto a).bound = r.bound := rfl
@[simp] theorem Role.goto_streams (r : Role) (a : Word) : (r.goto a).streams = r.streams := rfl
@[simp] theorem Role.goto_queues (r : Role) (a : Word) : (r.goto a).queues = r.queues := rfl
@[simp] theorem Role.goto_views (r : Role) (a : Word) : (r.goto a).views = r.views := rfl
@[simp] theorem Role.goto_wver (r : Role) (a : Word) : (r.goto a).wver = r.wver := rfl
@[simp] theorem Role.goto_fmt (r : Role) (a : Word) : (r.goto a).fmt = r.fmt := rfl
@[simp] theorem Role.goto_fpstat (r : Role) (a : Word) : (r.goto a).fpstat = r.fpstat := rfl
@[simp] theorem Role.goto_amax (r : Role) (a : Word) : (r.goto a).amax = r.amax := rfl
@[simp] theorem Role.goto_cc (r : Role) (a : Word) : (r.goto a).cc = r.cc := rfl
@[simp] theorem Role.goto_stack (r : Role) (a : Word) : (r.goto a).stack = r.stack := rfl
@[simp] theorem Role.goto_spilled (r : Role) (a : Word) : (r.goto a).spilled = r.spilled := rfl
@[simp] theorem Role.goto_rsbase (r : Role) (a : Word) : (r.goto a).rsbase = r.rsbase := rfl
@[simp] theorem Role.goto_limit (r : Role) (a : Word) : (r.goto a).limit = r.limit := rfl
@[simp] theorem Role.goto_depth (r : Role) (a : Word) : (r.goto a).depth = r.depth := rfl
@[simp] theorem Role.goto_sf (r : Role) (a : Word) : (r.goto a).sf = r.sf := rfl
@[simp] theorem Role.goto_latch (r : Role) (a : Word) : (r.goto a).latch = r.latch := rfl
@[simp] theorem Role.goto_scale (r : Role) (a : Word) : (r.goto a).scale = r.scale := rfl
@[simp] theorem Role.goto_beamLimit (r : Role) (a : Word) : (r.goto a).beamLimit = r.beamLimit := rfl
@[simp] theorem Role.goto_beamGen (r : Role) (a : Word) : (r.goto a).beamGen = r.beamGen := rfl
@[simp] theorem Role.goto_beamHeld (r : Role) (a : Word) : (r.goto a).beamHeld = r.beamHeld := rfl
@[simp] theorem Role.goto_tvec (r : Role) (a : Word) : (r.goto a).tvec = r.tvec := rfl
@[simp] theorem Role.goto_tcause (r : Role) (a : Word) : (r.goto a).tcause = r.tcause := rfl
@[simp] theorem Role.goto_taddr (r : Role) (a : Word) : (r.goto a).taddr = r.taddr := rfl
@[simp] theorem Role.goto_tpc (r : Role) (a : Word) : (r.goto a).tpc = r.tpc := rfl
@[simp] theorem Role.goto_handler (r : Role) (a : Word) : (r.goto a).handler = r.handler := rfl
@[simp] theorem Role.goto_pend (r : Role) (a : Word) : (r.goto a).pend = r.pend := rfl
@[simp] theorem Role.goto_tack (r : Role) (a : Word) : (r.goto a).tack = (if r.tackLast then none else r.tack) := rfl
@[simp] theorem Role.goto_tackNext (r : Role) (a : Word) : (r.goto a).tackNext = r.tackNext := rfl
@[simp] theorem Role.goto_tackLast (r : Role) (a : Word) : (r.goto a).tackLast = false := rfl
@[simp] theorem Role.goto_hold (r : Role) (a : Word) : (r.goto a).hold = .ready := rfl
@[simp] theorem Role.goto_count (r : Role) (a : Word) : (r.goto a).count = r.count := rfl
@[simp] theorem Role.goto_yielded (r : Role) (a : Word) : (r.goto a).yielded = r.yielded := rfl
@[simp] theorem Role.goto_resume (r : Role) (a : Word) : (r.goto a).resume = r.resume := rfl
@[simp] theorem Role.goto_halting (r : Role) (a : Word) : (r.goto a).halting = r.halting := rfl
@[simp] theorem Role.goto_ended (r : Role) (a : Word) : (r.goto a).ended = r.ended := rfl

@[simp] theorem Role.bindSlot_gang (r : Role) (w : Nat) (ds : List RegName) : (r.bindSlot w ds).gang = r.gang := rfl
@[simp] theorem Role.bindSlot_grid (r : Role) (w : Nat) (ds : List RegName) : (r.bindSlot w ds).grid = r.grid := rfl
@[simp] theorem Role.bindSlot_team (r : Role) (w : Nat) (ds : List RegName) : (r.bindSlot w ds).team = r.team := rfl
@[simp] theorem Role.bindSlot_ix (r : Role) (w : Nat) (ds : List RegName) : (r.bindSlot w ds).ix = r.ix := rfl
@[simp] theorem Role.bindSlot_rank (r : Role) (w : Nat) (ds : List RegName) : (r.bindSlot w ds).rank = r.rank := rfl
@[simp] theorem Role.bindSlot_core (r : Role) (w : Nat) (ds : List RegName) : (r.bindSlot w ds).core = r.core := rfl
@[simp] theorem Role.bindSlot_slot (r : Role) (w : Nat) (ds : List RegName) : (r.bindSlot w ds).slot = r.slot := rfl
@[simp] theorem Role.bindSlot_prio (r : Role) (w : Nat) (ds : List RegName) : (r.bindSlot w ds).prio = r.prio := rfl
@[simp] theorem Role.bindSlot_vmid (r : Role) (w : Nat) (ds : List RegName) : (r.bindSlot w ds).vmid = r.vmid := rfl
@[simp] theorem Role.bindSlot_asid (r : Role) (w : Nat) (ds : List RegName) : (r.bindSlot w ds).asid = r.asid := rfl
@[simp] theorem Role.bindSlot_nlanes (r : Role) (w : Nat) (ds : List RegName) : (r.bindSlot w ds).nlanes = r.nlanes := rfl
@[simp] theorem Role.bindSlot_budget (r : Role) (w : Nat) (ds : List RegName) : (r.bindSlot w ds).budget = r.budget := rfl
@[simp] theorem Role.bindSlot_pc (r : Role) (w : Nat) (ds : List RegName) : (r.bindSlot w ds).pc = r.pc := rfl
@[simp] theorem Role.bindSlot_topped (r : Role) (w : Nat) (ds : List RegName) : (r.bindSlot w ds).topped = r.topped := rfl
@[simp] theorem Role.bindSlot_clause (r : Role) (w : Nat) (ds : List RegName) : (r.bindSlot w ds).clause = r.clause := rfl
@[simp] theorem Role.bindSlot_sregs (r : Role) (w : Nat) (ds : List RegName) : (r.bindSlot w ds).sregs = r.sregs := rfl
@[simp] theorem Role.bindSlot_vregs (r : Role) (w : Nat) (ds : List RegName) : (r.bindSlot w ds).vregs = r.vregs := rfl
@[simp] theorem Role.bindSlot_masks (r : Role) (w : Nat) (ds : List RegName) : (r.bindSlot w ds).masks = r.masks := rfl
@[simp] theorem Role.bindSlot_waits (r : Role) (w : Nat) (ds : List RegName) : (r.bindSlot w ds).waits = Sparse.set 0 r.waits w (r.waitCount w + 1) := rfl
@[simp] theorem Role.bindSlot_bound (r : Role) (w : Nat) (ds : List RegName) : (r.bindSlot w ds).bound = r.bound ++ ds.map fun d => (d, w) := rfl
@[simp] theorem Role.bindSlot_streams (r : Role) (w : Nat) (ds : List RegName) : (r.bindSlot w ds).streams = r.streams := rfl
@[simp] theorem Role.bindSlot_queues (r : Role) (w : Nat) (ds : List RegName) : (r.bindSlot w ds).queues = r.queues := rfl
@[simp] theorem Role.bindSlot_views (r : Role) (w : Nat) (ds : List RegName) : (r.bindSlot w ds).views = r.views := rfl
@[simp] theorem Role.bindSlot_wver (r : Role) (w : Nat) (ds : List RegName) : (r.bindSlot w ds).wver = r.wver := rfl
@[simp] theorem Role.bindSlot_fmt (r : Role) (w : Nat) (ds : List RegName) : (r.bindSlot w ds).fmt = r.fmt := rfl
@[simp] theorem Role.bindSlot_fpstat (r : Role) (w : Nat) (ds : List RegName) : (r.bindSlot w ds).fpstat = r.fpstat := rfl
@[simp] theorem Role.bindSlot_amax (r : Role) (w : Nat) (ds : List RegName) : (r.bindSlot w ds).amax = r.amax := rfl
@[simp] theorem Role.bindSlot_cc (r : Role) (w : Nat) (ds : List RegName) : (r.bindSlot w ds).cc = r.cc := rfl
@[simp] theorem Role.bindSlot_stack (r : Role) (w : Nat) (ds : List RegName) : (r.bindSlot w ds).stack = r.stack := rfl
@[simp] theorem Role.bindSlot_spilled (r : Role) (w : Nat) (ds : List RegName) : (r.bindSlot w ds).spilled = r.spilled := rfl
@[simp] theorem Role.bindSlot_rsbase (r : Role) (w : Nat) (ds : List RegName) : (r.bindSlot w ds).rsbase = r.rsbase := rfl
@[simp] theorem Role.bindSlot_limit (r : Role) (w : Nat) (ds : List RegName) : (r.bindSlot w ds).limit = r.limit := rfl
@[simp] theorem Role.bindSlot_depth (r : Role) (w : Nat) (ds : List RegName) : (r.bindSlot w ds).depth = r.depth := rfl
@[simp] theorem Role.bindSlot_sf (r : Role) (w : Nat) (ds : List RegName) : (r.bindSlot w ds).sf = r.sf := rfl
@[simp] theorem Role.bindSlot_latch (r : Role) (w : Nat) (ds : List RegName) : (r.bindSlot w ds).latch = r.latch := rfl
@[simp] theorem Role.bindSlot_scale (r : Role) (w : Nat) (ds : List RegName) : (r.bindSlot w ds).scale = r.scale := rfl
@[simp] theorem Role.bindSlot_beamLimit (r : Role) (w : Nat) (ds : List RegName) : (r.bindSlot w ds).beamLimit = r.beamLimit := rfl
@[simp] theorem Role.bindSlot_beamGen (r : Role) (w : Nat) (ds : List RegName) : (r.bindSlot w ds).beamGen = r.beamGen := rfl
@[simp] theorem Role.bindSlot_beamHeld (r : Role) (w : Nat) (ds : List RegName) : (r.bindSlot w ds).beamHeld = r.beamHeld := rfl
@[simp] theorem Role.bindSlot_tvec (r : Role) (w : Nat) (ds : List RegName) : (r.bindSlot w ds).tvec = r.tvec := rfl
@[simp] theorem Role.bindSlot_tcause (r : Role) (w : Nat) (ds : List RegName) : (r.bindSlot w ds).tcause = r.tcause := rfl
@[simp] theorem Role.bindSlot_taddr (r : Role) (w : Nat) (ds : List RegName) : (r.bindSlot w ds).taddr = r.taddr := rfl
@[simp] theorem Role.bindSlot_tpc (r : Role) (w : Nat) (ds : List RegName) : (r.bindSlot w ds).tpc = r.tpc := rfl
@[simp] theorem Role.bindSlot_handler (r : Role) (w : Nat) (ds : List RegName) : (r.bindSlot w ds).handler = r.handler := rfl
@[simp] theorem Role.bindSlot_pend (r : Role) (w : Nat) (ds : List RegName) : (r.bindSlot w ds).pend = r.pend := rfl
@[simp] theorem Role.bindSlot_tack (r : Role) (w : Nat) (ds : List RegName) : (r.bindSlot w ds).tack = r.tack := rfl
@[simp] theorem Role.bindSlot_tackNext (r : Role) (w : Nat) (ds : List RegName) : (r.bindSlot w ds).tackNext = r.tackNext := rfl
@[simp] theorem Role.bindSlot_tackLast (r : Role) (w : Nat) (ds : List RegName) : (r.bindSlot w ds).tackLast = r.tackLast := rfl
@[simp] theorem Role.bindSlot_hold (r : Role) (w : Nat) (ds : List RegName) : (r.bindSlot w ds).hold = r.hold := rfl
@[simp] theorem Role.bindSlot_count (r : Role) (w : Nat) (ds : List RegName) : (r.bindSlot w ds).count = r.count := rfl
@[simp] theorem Role.bindSlot_yielded (r : Role) (w : Nat) (ds : List RegName) : (r.bindSlot w ds).yielded = r.yielded := rfl
@[simp] theorem Role.bindSlot_resume (r : Role) (w : Nat) (ds : List RegName) : (r.bindSlot w ds).resume = r.resume := rfl
@[simp] theorem Role.bindSlot_halting (r : Role) (w : Nat) (ds : List RegName) : (r.bindSlot w ds).halting = r.halting := rfl
@[simp] theorem Role.bindSlot_ended (r : Role) (w : Nat) (ds : List RegName) : (r.bindSlot w ds).ended = r.ended := rfl

@[simp] theorem Role.slotDone_gang (r : Role) (w : Nat) : (r.slotDone w).gang = r.gang := rfl
@[simp] theorem Role.slotDone_grid (r : Role) (w : Nat) : (r.slotDone w).grid = r.grid := rfl
@[simp] theorem Role.slotDone_team (r : Role) (w : Nat) : (r.slotDone w).team = r.team := rfl
@[simp] theorem Role.slotDone_ix (r : Role) (w : Nat) : (r.slotDone w).ix = r.ix := rfl
@[simp] theorem Role.slotDone_rank (r : Role) (w : Nat) : (r.slotDone w).rank = r.rank := rfl
@[simp] theorem Role.slotDone_core (r : Role) (w : Nat) : (r.slotDone w).core = r.core := rfl
@[simp] theorem Role.slotDone_slot (r : Role) (w : Nat) : (r.slotDone w).slot = r.slot := rfl
@[simp] theorem Role.slotDone_prio (r : Role) (w : Nat) : (r.slotDone w).prio = r.prio := rfl
@[simp] theorem Role.slotDone_vmid (r : Role) (w : Nat) : (r.slotDone w).vmid = r.vmid := rfl
@[simp] theorem Role.slotDone_asid (r : Role) (w : Nat) : (r.slotDone w).asid = r.asid := rfl
@[simp] theorem Role.slotDone_nlanes (r : Role) (w : Nat) : (r.slotDone w).nlanes = r.nlanes := rfl
@[simp] theorem Role.slotDone_budget (r : Role) (w : Nat) : (r.slotDone w).budget = r.budget := rfl
@[simp] theorem Role.slotDone_pc (r : Role) (w : Nat) : (r.slotDone w).pc = r.pc := rfl
@[simp] theorem Role.slotDone_topped (r : Role) (w : Nat) : (r.slotDone w).topped = r.topped := rfl
@[simp] theorem Role.slotDone_clause (r : Role) (w : Nat) : (r.slotDone w).clause = r.clause := rfl
@[simp] theorem Role.slotDone_sregs (r : Role) (w : Nat) : (r.slotDone w).sregs = r.sregs := rfl
@[simp] theorem Role.slotDone_vregs (r : Role) (w : Nat) : (r.slotDone w).vregs = r.vregs := rfl
@[simp] theorem Role.slotDone_masks (r : Role) (w : Nat) : (r.slotDone w).masks = r.masks := rfl
@[simp] theorem Role.slotDone_waits (r : Role) (w : Nat) : (r.slotDone w).waits = Sparse.set 0 r.waits w (r.waitCount w - 1) := rfl
@[simp] theorem Role.slotDone_bound (r : Role) (w : Nat) : (r.slotDone w).bound = r.bound := rfl
@[simp] theorem Role.slotDone_streams (r : Role) (w : Nat) : (r.slotDone w).streams = r.streams := rfl
@[simp] theorem Role.slotDone_queues (r : Role) (w : Nat) : (r.slotDone w).queues = r.queues := rfl
@[simp] theorem Role.slotDone_views (r : Role) (w : Nat) : (r.slotDone w).views = r.views := rfl
@[simp] theorem Role.slotDone_wver (r : Role) (w : Nat) : (r.slotDone w).wver = r.wver := rfl
@[simp] theorem Role.slotDone_fmt (r : Role) (w : Nat) : (r.slotDone w).fmt = r.fmt := rfl
@[simp] theorem Role.slotDone_fpstat (r : Role) (w : Nat) : (r.slotDone w).fpstat = r.fpstat := rfl
@[simp] theorem Role.slotDone_amax (r : Role) (w : Nat) : (r.slotDone w).amax = r.amax := rfl
@[simp] theorem Role.slotDone_cc (r : Role) (w : Nat) : (r.slotDone w).cc = r.cc := rfl
@[simp] theorem Role.slotDone_stack (r : Role) (w : Nat) : (r.slotDone w).stack = r.stack := rfl
@[simp] theorem Role.slotDone_spilled (r : Role) (w : Nat) : (r.slotDone w).spilled = r.spilled := rfl
@[simp] theorem Role.slotDone_rsbase (r : Role) (w : Nat) : (r.slotDone w).rsbase = r.rsbase := rfl
@[simp] theorem Role.slotDone_limit (r : Role) (w : Nat) : (r.slotDone w).limit = r.limit := rfl
@[simp] theorem Role.slotDone_depth (r : Role) (w : Nat) : (r.slotDone w).depth = r.depth := rfl
@[simp] theorem Role.slotDone_sf (r : Role) (w : Nat) : (r.slotDone w).sf = r.sf := rfl
@[simp] theorem Role.slotDone_latch (r : Role) (w : Nat) : (r.slotDone w).latch = r.latch := rfl
@[simp] theorem Role.slotDone_scale (r : Role) (w : Nat) : (r.slotDone w).scale = r.scale := rfl
@[simp] theorem Role.slotDone_beamLimit (r : Role) (w : Nat) : (r.slotDone w).beamLimit = r.beamLimit := rfl
@[simp] theorem Role.slotDone_beamGen (r : Role) (w : Nat) : (r.slotDone w).beamGen = r.beamGen := rfl
@[simp] theorem Role.slotDone_beamHeld (r : Role) (w : Nat) : (r.slotDone w).beamHeld = r.beamHeld := rfl
@[simp] theorem Role.slotDone_tvec (r : Role) (w : Nat) : (r.slotDone w).tvec = r.tvec := rfl
@[simp] theorem Role.slotDone_tcause (r : Role) (w : Nat) : (r.slotDone w).tcause = r.tcause := rfl
@[simp] theorem Role.slotDone_taddr (r : Role) (w : Nat) : (r.slotDone w).taddr = r.taddr := rfl
@[simp] theorem Role.slotDone_tpc (r : Role) (w : Nat) : (r.slotDone w).tpc = r.tpc := rfl
@[simp] theorem Role.slotDone_handler (r : Role) (w : Nat) : (r.slotDone w).handler = r.handler := rfl
@[simp] theorem Role.slotDone_pend (r : Role) (w : Nat) : (r.slotDone w).pend = r.pend := rfl
@[simp] theorem Role.slotDone_tack (r : Role) (w : Nat) : (r.slotDone w).tack = r.tack := rfl
@[simp] theorem Role.slotDone_tackNext (r : Role) (w : Nat) : (r.slotDone w).tackNext = r.tackNext := rfl
@[simp] theorem Role.slotDone_tackLast (r : Role) (w : Nat) : (r.slotDone w).tackLast = r.tackLast := rfl
@[simp] theorem Role.slotDone_hold (r : Role) (w : Nat) : (r.slotDone w).hold = r.hold := rfl
@[simp] theorem Role.slotDone_count (r : Role) (w : Nat) : (r.slotDone w).count = r.count := rfl
@[simp] theorem Role.slotDone_yielded (r : Role) (w : Nat) : (r.slotDone w).yielded = r.yielded := rfl
@[simp] theorem Role.slotDone_resume (r : Role) (w : Nat) : (r.slotDone w).resume = r.resume := rfl
@[simp] theorem Role.slotDone_halting (r : Role) (w : Nat) : (r.slotDone w).halting = r.halting := rfl
@[simp] theorem Role.slotDone_ended (r : Role) (w : Nat) : (r.slotDone w).ended = r.ended := rfl

@[simp] theorem Role.enterHandler_gang (r : Role) (c a p : Word) : (r.enterHandler c a p).gang = r.gang := rfl
@[simp] theorem Role.enterHandler_grid (r : Role) (c a p : Word) : (r.enterHandler c a p).grid = r.grid := rfl
@[simp] theorem Role.enterHandler_team (r : Role) (c a p : Word) : (r.enterHandler c a p).team = r.team := rfl
@[simp] theorem Role.enterHandler_ix (r : Role) (c a p : Word) : (r.enterHandler c a p).ix = r.ix := rfl
@[simp] theorem Role.enterHandler_rank (r : Role) (c a p : Word) : (r.enterHandler c a p).rank = r.rank := rfl
@[simp] theorem Role.enterHandler_core (r : Role) (c a p : Word) : (r.enterHandler c a p).core = r.core := rfl
@[simp] theorem Role.enterHandler_slot (r : Role) (c a p : Word) : (r.enterHandler c a p).slot = r.slot := rfl
@[simp] theorem Role.enterHandler_prio (r : Role) (c a p : Word) : (r.enterHandler c a p).prio = r.prio := rfl
@[simp] theorem Role.enterHandler_vmid (r : Role) (c a p : Word) : (r.enterHandler c a p).vmid = r.vmid := rfl
@[simp] theorem Role.enterHandler_asid (r : Role) (c a p : Word) : (r.enterHandler c a p).asid = r.asid := rfl
@[simp] theorem Role.enterHandler_nlanes (r : Role) (c a p : Word) : (r.enterHandler c a p).nlanes = r.nlanes := rfl
@[simp] theorem Role.enterHandler_budget (r : Role) (c a p : Word) : (r.enterHandler c a p).budget = r.budget := rfl
@[simp] theorem Role.enterHandler_pc (r : Role) (c a p : Word) : (r.enterHandler c a p).pc = r.tvec := rfl
@[simp] theorem Role.enterHandler_topped (r : Role) (c a p : Word) : (r.enterHandler c a p).topped = false := rfl
@[simp] theorem Role.enterHandler_clause (r : Role) (c a p : Word) : (r.enterHandler c a p).clause = none := rfl
@[simp] theorem Role.enterHandler_sregs (r : Role) (c a p : Word) : (r.enterHandler c a p).sregs = r.sregs := rfl
@[simp] theorem Role.enterHandler_vregs (r : Role) (c a p : Word) : (r.enterHandler c a p).vregs = r.vregs := rfl
@[simp] theorem Role.enterHandler_masks (r : Role) (c a p : Word) : (r.enterHandler c a p).masks = r.masks := rfl
@[simp] theorem Role.enterHandler_waits (r : Role) (c a p : Word) : (r.enterHandler c a p).waits = r.waits := rfl
@[simp] theorem Role.enterHandler_bound (r : Role) (c a p : Word) : (r.enterHandler c a p).bound = r.bound := rfl
@[simp] theorem Role.enterHandler_streams (r : Role) (c a p : Word) : (r.enterHandler c a p).streams = r.streams := rfl
@[simp] theorem Role.enterHandler_queues (r : Role) (c a p : Word) : (r.enterHandler c a p).queues = r.queues := rfl
@[simp] theorem Role.enterHandler_views (r : Role) (c a p : Word) : (r.enterHandler c a p).views = r.views := rfl
@[simp] theorem Role.enterHandler_wver (r : Role) (c a p : Word) : (r.enterHandler c a p).wver = r.wver := rfl
@[simp] theorem Role.enterHandler_fmt (r : Role) (c a p : Word) : (r.enterHandler c a p).fmt = r.fmt := rfl
@[simp] theorem Role.enterHandler_fpstat (r : Role) (c a p : Word) : (r.enterHandler c a p).fpstat = r.fpstat := rfl
@[simp] theorem Role.enterHandler_amax (r : Role) (c a p : Word) : (r.enterHandler c a p).amax = r.amax := rfl
@[simp] theorem Role.enterHandler_cc (r : Role) (c a p : Word) : (r.enterHandler c a p).cc = r.cc := rfl
@[simp] theorem Role.enterHandler_stack (r : Role) (c a p : Word) : (r.enterHandler c a p).stack = r.stack := rfl
@[simp] theorem Role.enterHandler_spilled (r : Role) (c a p : Word) : (r.enterHandler c a p).spilled = r.spilled := rfl
@[simp] theorem Role.enterHandler_rsbase (r : Role) (c a p : Word) : (r.enterHandler c a p).rsbase = r.rsbase := rfl
@[simp] theorem Role.enterHandler_limit (r : Role) (c a p : Word) : (r.enterHandler c a p).limit = r.limit := rfl
@[simp] theorem Role.enterHandler_depth (r : Role) (c a p : Word) : (r.enterHandler c a p).depth = r.depth := rfl
@[simp] theorem Role.enterHandler_sf (r : Role) (c a p : Word) : (r.enterHandler c a p).sf = r.sf := rfl
@[simp] theorem Role.enterHandler_latch (r : Role) (c a p : Word) : (r.enterHandler c a p).latch = r.latch := rfl
@[simp] theorem Role.enterHandler_scale (r : Role) (c a p : Word) : (r.enterHandler c a p).scale = r.scale := rfl
@[simp] theorem Role.enterHandler_beamLimit (r : Role) (c a p : Word) : (r.enterHandler c a p).beamLimit = r.beamLimit := rfl
@[simp] theorem Role.enterHandler_beamGen (r : Role) (c a p : Word) : (r.enterHandler c a p).beamGen = r.beamGen := rfl
@[simp] theorem Role.enterHandler_beamHeld (r : Role) (c a p : Word) : (r.enterHandler c a p).beamHeld = r.beamHeld := rfl
@[simp] theorem Role.enterHandler_tvec (r : Role) (c a p : Word) : (r.enterHandler c a p).tvec = r.tvec := rfl
@[simp] theorem Role.enterHandler_tcause (r : Role) (c a p : Word) : (r.enterHandler c a p).tcause = c := rfl
@[simp] theorem Role.enterHandler_taddr (r : Role) (c a p : Word) : (r.enterHandler c a p).taddr = a := rfl
@[simp] theorem Role.enterHandler_tpc (r : Role) (c a p : Word) : (r.enterHandler c a p).tpc = p := rfl
@[simp] theorem Role.enterHandler_handler (r : Role) (c a p : Word) : (r.enterHandler c a p).handler = true := rfl
@[simp] theorem Role.enterHandler_pend (r : Role) (c a p : Word) : (r.enterHandler c a p).pend = r.pend := rfl
@[simp] theorem Role.enterHandler_tack (r : Role) (c a p : Word) : (r.enterHandler c a p).tack = none := rfl
@[simp] theorem Role.enterHandler_tackNext (r : Role) (c a p : Word) : (r.enterHandler c a p).tackNext = false := rfl
@[simp] theorem Role.enterHandler_tackLast (r : Role) (c a p : Word) : (r.enterHandler c a p).tackLast = false := rfl
@[simp] theorem Role.enterHandler_hold (r : Role) (c a p : Word) : (r.enterHandler c a p).hold = .ready := rfl
@[simp] theorem Role.enterHandler_count (r : Role) (c a p : Word) : (r.enterHandler c a p).count = r.count := rfl
@[simp] theorem Role.enterHandler_yielded (r : Role) (c a p : Word) : (r.enterHandler c a p).yielded = r.yielded := rfl
@[simp] theorem Role.enterHandler_resume (r : Role) (c a p : Word) : (r.enterHandler c a p).resume = false := rfl
@[simp] theorem Role.enterHandler_halting (r : Role) (c a p : Word) : (r.enterHandler c a p).halting = r.halting := rfl
@[simp] theorem Role.enterHandler_ended (r : Role) (c a p : Word) : (r.enterHandler c a p).ended = r.ended := rfl

@[simp] theorem Role.leaveHandler_gang (r : Role) : (r.leaveHandler).gang = r.gang := rfl
@[simp] theorem Role.leaveHandler_grid (r : Role) : (r.leaveHandler).grid = r.grid := rfl
@[simp] theorem Role.leaveHandler_team (r : Role) : (r.leaveHandler).team = r.team := rfl
@[simp] theorem Role.leaveHandler_ix (r : Role) : (r.leaveHandler).ix = r.ix := rfl
@[simp] theorem Role.leaveHandler_rank (r : Role) : (r.leaveHandler).rank = r.rank := rfl
@[simp] theorem Role.leaveHandler_core (r : Role) : (r.leaveHandler).core = r.core := rfl
@[simp] theorem Role.leaveHandler_slot (r : Role) : (r.leaveHandler).slot = r.slot := rfl
@[simp] theorem Role.leaveHandler_prio (r : Role) : (r.leaveHandler).prio = r.prio := rfl
@[simp] theorem Role.leaveHandler_vmid (r : Role) : (r.leaveHandler).vmid = r.vmid := rfl
@[simp] theorem Role.leaveHandler_asid (r : Role) : (r.leaveHandler).asid = r.asid := rfl
@[simp] theorem Role.leaveHandler_nlanes (r : Role) : (r.leaveHandler).nlanes = r.nlanes := rfl
@[simp] theorem Role.leaveHandler_budget (r : Role) : (r.leaveHandler).budget = r.budget := rfl
@[simp] theorem Role.leaveHandler_pc (r : Role) : (r.leaveHandler).pc = r.tpc := rfl
@[simp] theorem Role.leaveHandler_topped (r : Role) : (r.leaveHandler).topped = false := rfl
@[simp] theorem Role.leaveHandler_clause (r : Role) : (r.leaveHandler).clause = none := rfl
@[simp] theorem Role.leaveHandler_sregs (r : Role) : (r.leaveHandler).sregs = r.sregs := rfl
@[simp] theorem Role.leaveHandler_vregs (r : Role) : (r.leaveHandler).vregs = r.vregs := rfl
@[simp] theorem Role.leaveHandler_masks (r : Role) : (r.leaveHandler).masks = r.masks := rfl
@[simp] theorem Role.leaveHandler_waits (r : Role) : (r.leaveHandler).waits = r.waits := rfl
@[simp] theorem Role.leaveHandler_bound (r : Role) : (r.leaveHandler).bound = r.bound := rfl
@[simp] theorem Role.leaveHandler_streams (r : Role) : (r.leaveHandler).streams = r.streams := rfl
@[simp] theorem Role.leaveHandler_queues (r : Role) : (r.leaveHandler).queues = r.queues := rfl
@[simp] theorem Role.leaveHandler_views (r : Role) : (r.leaveHandler).views = r.views := rfl
@[simp] theorem Role.leaveHandler_wver (r : Role) : (r.leaveHandler).wver = r.wver := rfl
@[simp] theorem Role.leaveHandler_fmt (r : Role) : (r.leaveHandler).fmt = r.fmt := rfl
@[simp] theorem Role.leaveHandler_fpstat (r : Role) : (r.leaveHandler).fpstat = r.fpstat := rfl
@[simp] theorem Role.leaveHandler_amax (r : Role) : (r.leaveHandler).amax = r.amax := rfl
@[simp] theorem Role.leaveHandler_cc (r : Role) : (r.leaveHandler).cc = r.cc := rfl
@[simp] theorem Role.leaveHandler_stack (r : Role) : (r.leaveHandler).stack = r.stack := rfl
@[simp] theorem Role.leaveHandler_spilled (r : Role) : (r.leaveHandler).spilled = r.spilled := rfl
@[simp] theorem Role.leaveHandler_rsbase (r : Role) : (r.leaveHandler).rsbase = r.rsbase := rfl
@[simp] theorem Role.leaveHandler_limit (r : Role) : (r.leaveHandler).limit = r.limit := rfl
@[simp] theorem Role.leaveHandler_depth (r : Role) : (r.leaveHandler).depth = r.depth := rfl
@[simp] theorem Role.leaveHandler_sf (r : Role) : (r.leaveHandler).sf = r.sf := rfl
@[simp] theorem Role.leaveHandler_latch (r : Role) : (r.leaveHandler).latch = r.latch := rfl
@[simp] theorem Role.leaveHandler_scale (r : Role) : (r.leaveHandler).scale = r.scale := rfl
@[simp] theorem Role.leaveHandler_beamLimit (r : Role) : (r.leaveHandler).beamLimit = r.beamLimit := rfl
@[simp] theorem Role.leaveHandler_beamGen (r : Role) : (r.leaveHandler).beamGen = r.beamGen := rfl
@[simp] theorem Role.leaveHandler_beamHeld (r : Role) : (r.leaveHandler).beamHeld = r.beamHeld := rfl
@[simp] theorem Role.leaveHandler_tvec (r : Role) : (r.leaveHandler).tvec = r.tvec := rfl
@[simp] theorem Role.leaveHandler_tcause (r : Role) : (r.leaveHandler).tcause = r.tcause := rfl
@[simp] theorem Role.leaveHandler_taddr (r : Role) : (r.leaveHandler).taddr = r.taddr := rfl
@[simp] theorem Role.leaveHandler_tpc (r : Role) : (r.leaveHandler).tpc = r.tpc := rfl
@[simp] theorem Role.leaveHandler_handler (r : Role) : (r.leaveHandler).handler = false := rfl
@[simp] theorem Role.leaveHandler_pend (r : Role) : (r.leaveHandler).pend = r.pend := rfl
@[simp] theorem Role.leaveHandler_tack (r : Role) : (r.leaveHandler).tack = (if r.tackLast then none else r.tack) := rfl
@[simp] theorem Role.leaveHandler_tackNext (r : Role) : (r.leaveHandler).tackNext = r.tackNext := rfl
@[simp] theorem Role.leaveHandler_tackLast (r : Role) : (r.leaveHandler).tackLast = false := rfl
@[simp] theorem Role.leaveHandler_hold (r : Role) : (r.leaveHandler).hold = .ready := rfl
@[simp] theorem Role.leaveHandler_count (r : Role) : (r.leaveHandler).count = r.count := rfl
@[simp] theorem Role.leaveHandler_yielded (r : Role) : (r.leaveHandler).yielded = r.yielded := rfl
@[simp] theorem Role.leaveHandler_resume (r : Role) : (r.leaveHandler).resume = true := rfl
@[simp] theorem Role.leaveHandler_halting (r : Role) : (r.leaveHandler).halting = r.halting := rfl
@[simp] theorem Role.leaveHandler_ended (r : Role) : (r.leaveHandler).ended = r.ended := rfl

end Sys2Proof.Machine
end

