-- ==== Sys2Proof/Laws/Ops.lean ====
section
/-! SUPPORT. One lemma for each shared operation: roles, registers, masks, wait slots, the move to the next word, a word's meaning
on the issuing role, and memory. -/
namespace Sys2Proof.Machine

/-! ### Roles -/

@[simp] theorem State.role?_setRole_same (s : State) (rid : Nat) (r : Role) : (s.setRole rid r).role? rid = some r :=
  Sparse.find_put_same s.roles rid r

theorem State.role?_setRole_other (s : State) (rid q : Nat) (r : Role) (h : q ≠ rid) :
    (s.setRole rid r).role? q = s.role? q := Sparse.find_put_other s.roles rid q r h

@[simp] theorem State.core_setRole (s : State) (rid : Nat) (r : Role) (c : Nat) : (s.setRole rid r).core c = s.core c := rfl
@[simp] theorem State.die_setRole (s : State) (rid : Nat) (r : Role) (d : Nat) : (s.setRole rid r).die d = s.die d := rfl
@[simp] theorem State.gang?_setRole (s : State) (rid : Nat) (r : Role) (g : Nat) : (s.setRole rid r).gang? g = s.gang? g := rfl
@[simp] theorem State.byte_setRole (s : State) (rid : Nat) (r : Role) (a : Nat) : (s.setRole rid r).byte a = s.byte a := rfl

theorem State.updRole_some (s : State) (rid : Nat) (f : Role → Role) (r : Role) (h : s.role? rid = some r) :
    s.updRole rid f = s.setRole rid (f r) := by simp [State.updRole, h]

/-- A word's meaning runs on the issuing role. -/
theorem onRole_next (s : State) (f : Nat → Role → State) (r : Role) (h : s.role? s.cur = some r) :
    onRole s f = .next (f s.cur r) := by simp [onRole, h]

/-- All that a word's meaning can do: it runs on the issuing role, or no role is issuing. -/
theorem onRole_cases (s : State) (f : Nat → Role → State) :
    (∃ r, s.role? s.cur = some r ∧ onRole s f = .next (f s.cur r)) ∨ (s.role? s.cur = none ∧ onRole s f = .fault .noRole) := by
  unfold onRole
  cases h : s.role? s.cur with
  | none => exact .inr ⟨rfl, rfl⟩
  | some r => exact .inl ⟨r, rfl, rfl⟩

theorem wordStep_next (s : State) (f : Role → Role) (r : Role) (h : s.role? s.cur = some r) :
    wordStep s f = .next (s.setRole s.cur (f r)) := onRole_next s _ r h

/-! ### Registers and masks -/

@[simp] theorem Role.sreg_setSreg_same (r : Role) (n : Nat) (x : Word) : (r.setSreg n x).sreg n = x :=
  Sparse.get_set_same 0 r.sregs n x

theorem Role.sreg_setSreg_other (r : Role) (n q : Nat) (x : Word) (h : q ≠ n) : (r.setSreg n x).sreg q = r.sreg q :=
  Sparse.get_set_other 0 r.sregs n q x h

@[simp] theorem Role.vreg_setSreg (r : Role) (n q l : Nat) (x : Word) : (r.setSreg n x).vreg q l = r.vreg q l := rfl
@[simp] theorem Role.sreg_setVreg (r : Role) (n l q : Nat) (x : Word) : (r.setVreg n l x).sreg q = r.sreg q := rfl

@[simp] theorem Role.vreg_setVreg_same (r : Role) (n l : Nat) (x : Word) : (r.setVreg n l x).vreg n l = x :=
  Sparse.get_set_same 0 r.vregs (1024 * n + l) x

/-- A write of one lane leaves every other lane of every register alone (lanes are below 1,024). -/
theorem Role.vreg_setVreg_other (r : Role) (n l q m : Nat) (x : Word) (hl : l < 1024) (hm : m < 1024)
    (h : q ≠ n ∨ m ≠ l) : (r.setVreg n l x).vreg q m = r.vreg q m :=
  Sparse.get_set_other 0 r.vregs (1024 * n + l) (1024 * q + m) x (by omega)

@[simp] theorem Role.sreg_setLanes (r : Role) (n : Nat) (ls : List Nat) (f : Nat → Word) (q : Nat) :
    (r.setLanes n ls f).sreg q = r.sreg q := by
  unfold Role.setLanes
  induction ls generalizing r with
  | nil => rfl
  | cons l ls ih => simp [ih]

/-- What a write of lanes leaves in each lane of each register. -/
theorem Role.vreg_setLanes (r : Role) (n : Nat) (ls : List Nat) (f : Nat → Word) (hls : ∀ l ∈ ls, l < 1024) (q m : Nat)
    (hm : m < 1024) : (r.setLanes n ls f).vreg q m = if q = n ∧ m ∈ ls then f m else r.vreg q m := by
  unfold Role.setLanes
  induction ls generalizing r with
  | nil => simp
  | cons l ls ih =>
    have hl : l < 1024 := hls l (by simp)
    simp only [List.foldl_cons]
    rw [ih (r.setVreg n l (f l)) (fun x hx => hls x (by simp [hx]))]
    by_cases hq : q = n
    · subst hq
      by_cases hml : m = l
      · subst hml
        by_cases hin : m ∈ ls
        · simp [hin]
        · simp [hin]
      · rw [Role.vreg_setVreg_other r q l q m (f l) hl hm (Or.inr hml)]
        simp [hml]
    · rw [Role.vreg_setVreg_other r n l q m (f l) hl hm (Or.inl hq)]
      simp [hq]

@[simp] theorem Role.mask_setMask_same (r : Role) (n : Nat) (m : LaneMask) : (r.setMask n m).mask n = m &&& lowLanes r.nlanes :=
  Sparse.get_set_same 0 r.masks n _

theorem Role.mask_setMask_other (r : Role) (n q : Nat) (m : LaneMask) (h : q ≠ n) : (r.setMask n m).mask q = r.mask q :=
  Sparse.get_set_other 0 r.masks n q _ h

/-- The active lanes are lanes of the role. -/
theorem Role.active_lt (r : Role) (m : BitVec 3) (l : Nat) (h : l ∈ r.active m) : l < r.nlanes := by
  simp only [Role.active, lanesOf, List.mem_filter, List.mem_range] at h
  exact h.1

/-- A lane is active when it is a lane of the role that the effective mask names. -/
theorem Role.mem_active (r : Role) (m : BitVec 3) (l : Nat) : l ∈ r.active m ↔ l < r.nlanes ∧ (r.effective m).getLsbD l = true := by
  simp [Role.active, lanesOf]

/-! ### The move past a word -/

/-- All that the move past a word changes: the hold ends, a tack region that this word ends is closed, and the role stands at the
clause's next word or, after its last, at the next header. -/
theorem Role.advance_cases (r : Role) :
    (r.clause = none ∧ r.advance = r.settle) ∨
    (∃ c, r.clause = some c ∧ c.idx + 1 < c.words.length ∧
      r.advance = { r.settle with clause := some { c with idx := c.idx + 1 } }) ∨
    (∃ c, r.clause = some c ∧ c.words.length ≤ c.idx + 1 ∧ r.advance = { r.settle with pc := c.nextHeader, topped := c.tops, clause := none }) := by
  unfold Role.advance
  cases h : r.clause with
  | none => exact .inl ⟨rfl, rfl⟩
  | some c =>
    by_cases hl : c.idx + 1 < c.words.length
    · exact .inr (.inl ⟨c, rfl, hl, by simp [hl]⟩)
    · exact .inr (.inr ⟨c, rfl, by omega, by simp [hl]⟩)

@[simp] theorem Role.advance_sregs (r : Role) : r.advance.sregs = r.sregs := by
  rcases r.advance_cases with ⟨_, h⟩ | ⟨c, _, _, h⟩ | ⟨c, _, _, h⟩ <;> rw [h] <;> rfl
@[simp] theorem Role.advance_vregs (r : Role) : r.advance.vregs = r.vregs := by
  rcases r.advance_cases with ⟨_, h⟩ | ⟨c, _, _, h⟩ | ⟨c, _, _, h⟩ <;> rw [h] <;> rfl
@[simp] theorem Role.advance_masks (r : Role) : r.advance.masks = r.masks := by
  rcases r.advance_cases with ⟨_, h⟩ | ⟨c, _, _, h⟩ | ⟨c, _, _, h⟩ <;> rw [h] <;> rfl
@[simp] theorem Role.advance_hold (r : Role) : r.advance.hold = .ready := by
  rcases r.advance_cases with ⟨_, h⟩ | ⟨c, _, _, h⟩ | ⟨c, _, _, h⟩ <;> rw [h] <;> rfl
@[simp] theorem Role.sreg_advance (r : Role) (n : Nat) : r.advance.sreg n = r.sreg n := by simp [Role.sreg]
@[simp] theorem Role.vreg_advance (r : Role) (n l : Nat) : r.advance.vreg n l = r.vreg n l := by simp [Role.vreg]
@[simp] theorem Role.mask_advance (r : Role) (n : Nat) : r.advance.mask n = r.mask n := by simp [Role.mask]

/-! ### Memory -/

@[simp] theorem State.byte_setByte_same (s : State) (a : Nat) (x : Byte) : (s.setByte a x).byte a = x :=
  Sparse.get_set_same 0 s.mem a x

theorem State.byte_setByte_other (s : State) (a b : Nat) (x : Byte) (h : b ≠ a) : (s.setByte a x).byte b = s.byte b :=
  Sparse.get_set_other 0 s.mem a b x h

/-- A write of one byte keeps memory canonical. -/
theorem State.setByte_wf (s : State) (a : Nat) (x : Byte) (h : Memory.wf s.mem) : Memory.wf (s.setByte a x).mem :=
  Sparse.wf_set 0 s.mem a x h

/-- A write of bytes keeps memory canonical. -/
theorem writeBytes_wf (m : List Host.Cell) (a x n : Nat) (h : Memory.wf m) : Memory.wf (writeBytes m a x n) := by
  induction n generalizing m a x with
  | zero => exact h
  | succ n ih => exact ih _ _ _ (Sparse.wf_set 0 m a _ h)

/-- A write of bytes leaves every byte outside them alone. -/
theorem writeBytes_other (m : List Host.Cell) (a x n b : Nat) (h : b < a ∨ a + n ≤ b) :
    Sparse.get (0 : Byte) (writeBytes m a x n) b = Sparse.get (0 : Byte) m b := by
  induction n generalizing m a x with
  | zero => rfl
  | succ n ih =>
    rw [writeBytes, ih _ _ _ (by omega)]
    exact Sparse.get_set_other 0 m a b _ (by omega)

/-- The bytes written are the bytes of the number, the lowest first. -/
theorem writeBytes_inside (m : List Host.Cell) (a x n i : Nat) (h : i < n) :
    Sparse.get (0 : Byte) (writeBytes m a x n) (a + i) = BitVec.ofNat 8 (x / 256 ^ i) := by
  induction n generalizing m a x i with
  | zero => omega
  | succ n ih =>
    rw [writeBytes]
    cases i with
    | zero =>
      rw [writeBytes_other _ _ _ _ _ (by omega)]
      simpa using Sparse.get_set_same (0 : Byte) m a _
    | succ i =>
      have := ih (Sparse.set 0 m a (BitVec.ofNat 8 x)) (a + 1) (x / 256) i (by omega)
      rw [show a + (i + 1) = a + 1 + i by omega, this, Nat.div_div_eq_div_mul, Nat.pow_succ, Nat.mul_comm]

/-- What is written is read back. -/
theorem readBytes_writeBytes (m : List Host.Cell) (a x n : Nat) : readBytes (writeBytes m a x n) a n = x % 256 ^ n := by
  suffices h : ∀ k, ∀ b y, (∀ i, i < k → Sparse.get (0 : Byte) (writeBytes m a x n) (b + i) = BitVec.ofNat 8 (y / 256 ^ i)) →
      readBytes (writeBytes m a x n) b k = y % 256 ^ k from
    h n a x fun i hi => writeBytes_inside m a x n i hi
  intro k
  induction k with
  | zero => intro b y _; simp [readBytes, Nat.mod_one]
  | succ k ih =>
    intro b y hb
    have h0 := hb 0 (by omega)
    have hr := ih (b + 1) (y / 256) fun i hi => by
      have := hb (i + 1) (by omega)
      rw [show b + 1 + i = b + (i + 1) by omega, this, Nat.div_div_eq_div_mul, Nat.pow_succ, Nat.mul_comm]
    simp only [Nat.add_zero, Nat.pow_zero, Nat.div_one] at h0
    rw [readBytes, h0, hr, BitVec.toNat_ofNat, show 256 ^ (k + 1) = 256 * 256 ^ k by rw [Nat.pow_succ, Nat.mul_comm], Nat.mod_mul]

/-- A line written to memory keeps memory canonical. -/
theorem State.storeLine_wf (s : State) (line vmid : Nat) (d : LineData) (h : Memory.wf s.mem) :
    Memory.wf (s.storeLine line vmid d).mem := writeBytes_wf s.mem _ _ _ h

/-- The host's line written to memory keeps memory canonical. -/
theorem State.hostStore_wf (s : State) (line : Nat) (d : LineData) (h : Memory.wf s.mem) :
    Memory.wf (s.hostStore line d).mem := writeBytes_wf s.mem _ _ _ h

/-- Memory is canonical after reset. -/
theorem State.reset_wf : Memory.wf State.reset.mem := rfl

end Sys2Proof.Machine
end

