-- ==== Sys2Proof/Laws/Roles.lean ====
section
/-! SUPPORT. What the operations on a role can change: writing lanes, an instruction's result, CC and flags, and the move past a word. -/
namespace Sys2Proof.Machine

/-- Writing lanes changes the vector registers alone. -/
theorem Role.setLanes_eq (r : Role) (n : Nat) (ls : List Nat) (f : Nat → Word) :
    r.setLanes n ls f = { r with vregs := (r.setLanes n ls f).vregs } := by
  unfold Role.setLanes
  induction ls generalizing r with
  | nil => rfl
  | cons l ls ih =>
    simp only [List.foldl_cons]
    rw [ih]; rfl

/-- Writing a result changes the scalar registers, the vector registers and FPSTAT alone. -/
theorem Role.write_eq (r : Role) (d : RegName) (m : BitVec 3) (f : Nat → Word × Flags) :
    r.write d m f = { r with sregs := (r.write d m f).sregs, vregs := (r.write d m f).vregs, fpstat := (r.write d m f).fpstat } := by
  unfold Role.write
  split
  · rfl
  · simp only
    rw [Role.setLanes_eq]; rfl

/-- Where the move past a word leaves the clause and the pc. -/
def nextClause (c : Option Clause) : Option Clause := c.bind fun c => if c.idx + 1 < c.words.length then some { c with idx := c.idx + 1 } else none
def nextPc (pc : Word) (c : Option Clause) : Word := match c with
  | none => pc
  | some c => if c.idx + 1 < c.words.length then pc else c.nextHeader

def nextTopped (topped : Bool) (c : Option Clause) : Bool := match c with
  | none => topped
  | some c => if c.idx + 1 < c.words.length then topped else c.tops

/-- Everything that the move past a word can change. -/
theorem Role.advance_eq (r : Role) : r.advance =
    { r with
      hold := .ready, tack := (if r.tackLast then none else r.tack), tackLast := false, pc := nextPc r.pc r.clause,
      topped := nextTopped r.topped r.clause, clause := nextClause r.clause } := by
  unfold Role.advance nextClause nextPc nextTopped
  cases h : r.clause with
  | none => simp only [Option.bind]; unfold Role.settle; rw [← h]
  | some c => simp only [Option.bind]; split <;> rfl

/-- A result without flags leaves FPSTAT. -/
theorem Role.write_fpstat (r : Role) (d : RegName) (m : BitVec 3) (f : Nat → Word) : (r.write d m fun l => (f l, 0)).fpstat = r.fpstat := by
  unfold Role.write
  split
  · simp [Role.raiseFlags, Role.setSreg]
  · simp only [Role.raiseFlags]
    rw [Role.setLanes_eq]
    simp

/-- CC changes with a scalar destination alone. -/
theorem Role.writeCC_eq (r : Role) (d : RegName) (c : CC4) : r.writeCC d c = { r with cc := (r.writeCC d c).cc } := by
  unfold Role.writeCC; split <;> rfl

theorem Role.writeCC_cc (r : Role) (d : RegName) (c : CC4) : (r.writeCC d c).cc = if d.isScalar then ccOf r.cc c.z c.n c.c c.v else r.cc := by
  unfold Role.writeCC; split <;> rfl

end Sys2Proof.Machine
end

