-- ==== Sys2Proof/Laws/Traps.lean ====
section
/-! SUPPORT. What taking an exception can do (20 R406-R408, R428): the role enters its handler, or its gang is aborted, or it waits for a place in
the fault ring. -/
namespace Sys2Proof.Machine

/-- Entering the handler: what the role saves and where it goes, and what it keeps. -/
theorem Role.enterHandler_spec (r : Role) (c a p : Word) :
    let q := r.enterHandler c a p
    q.handler = true ∧ q.tcause = c ∧ q.taddr = a ∧ q.tpc = p ∧ q.pc = r.tvec ∧ q.clause = none ∧ q.hold = .ready ∧ q.sregs = r.sregs ∧ q.vregs = r.vregs ∧
      q.masks = r.masks ∧ q.stack = r.stack ∧ q.waits = r.waits ∧ q.bound = r.bound := ⟨rfl, rfl, rfl, rfl, rfl, rfl, rfl, rfl, rfl, rfl, rfl, rfl, rfl⟩

/-- Only a role's own lost entries go before its trap. -/
theorem State.dropLost_eq (s : State) (rid : Nat) (r : Role) : s.dropLost rid r = { s with cores := (s.dropLost rid r).cores } := by
  unfold State.dropLost; split <;> rfl

/-- Everything that a trap can do. -/
theorem State.trapWith_cases (s : State) (rid cause : Nat) (l f b : Bool) (d i : Nat) (addr pc : Word) :
    (s.role? rid = none ∧ s.trapWith rid cause l f b d i addr pc = s) ∨
    (∃ r, s.role? rid = some r ∧ (r.handler = true ∨ r.tvec = 0) ∧ s.trapWith rid cause l f b d i addr pc = s.abortGang rid cause addr pc) ∨
    (∃ r, s.role? rid = some r ∧ r.handler = false ∧ r.tvec ≠ 0 ∧
      s.trapWith rid cause l f b d i addr pc = (s.dropLost rid r).setRole rid (r.enterHandler (tcauseOf cause l f b d i) addr pc)) := by
  unfold State.trapWith
  cases h : s.role? rid with
  | none => exact .inl ⟨rfl, rfl⟩
  | some r =>
    by_cases hh : (r.handler || r.tvec == 0) = true
    · exact .inr (.inl ⟨r, rfl, by simpa using hh, by simp only [hh, if_true]⟩)
    · refine .inr (.inr ⟨r, rfl, ?_, ?_, by simp only [hh]; rfl⟩)
      · cases hx : r.handler <;> simp_all
      · intro hx; simp [hx] at hh

/-- A trap that enters the handler changes the role and its lost side-log entries alone. -/
theorem State.trapWith_enters (s : State) (rid cause : Nat) (l f b : Bool) (d i : Nat) (addr pc : Word) (r : Role)
    (h : s.role? rid = some r) (hh : r.handler = false) (ht : r.tvec ≠ 0) :
    s.trapWith rid cause l f b d i addr pc = (s.dropLost rid r).setRole rid (r.enterHandler (tcauseOf cause l f b d i) addr pc) := by
  unfold State.trapWith
  have h2 : (r.handler || r.tvec == 0) = false := by simp only [hh, Bool.false_or, beq_eq_false_iff_ne]; exact ht
  simp only [h, h2, Bool.false_eq_true, if_false]

/-- The abort of a gang, where the fault ring has no place: the role waits for one. -/
theorem State.abortGang_waits (s : State) (rid cause : Nat) (addr pc : Word) (r : Role) (h : s.role? rid = some r)
    (hr : s.ringRoom (dieOf r.core) = false) : s.abortGang rid cause addr pc = s.setRole rid (r.holdAt .ring) := by
  unfold State.abortGang State.writeRecord
  simp [h, hr]

end Sys2Proof.Machine
end

