-- ==== Sys2Proof/Laws/Words.lean ====
section
/-! SUPPORT. From the shared forms of the instructions to the vocabulary of the statements: a form that gives a role's next state completes, an
instruction's result is what the statements call written, and CC is what they call taken. -/
namespace Sys2Proof.Claim
open Sys2Proof.Machine

theorem completes_of (i : Instr) (s : State) (q : Role) (post : Role → Prop)
    (h : exec i s = .next (s.setRole s.cur q)) (hp : post q) : Completes i s post :=
  ⟨_, q, h, State.role?_setRole_same _ _ _, hp, fun _ hk => State.role?_setRole_other _ _ _ _ hk, fun _ => rfl, rfl⟩

theorem mem_active_iff (r : Role) (m : BitVec 3) (l : Nat) : l ∈ r.active m ↔ Active r m l := by
  rw [Role.mem_active]
  unfold Active Role.effective lowLanes
  simp only [BitVec.getLsbD_and, Bool.and_eq_true, BitVec.getLsbD_ofNat]
  constructor
  · rintro ⟨h1, ⟨h2, h3⟩, h4, h5⟩
    exact ⟨h1, of_decide_eq_true h4, h2, h3⟩
  · rintro ⟨h1, h2, h3, h4⟩
    refine ⟨h1, ⟨h3, h4⟩, by simpa using h2, ?_⟩
    simp [Nat.testBit_two_pow_sub_one, h1]

theorem wrote_write (r : Role) (d : RegName) (m : BitVec 3) (f : Nat → Word × Flags) :
    Wrote r (r.write d m f) d m (fun l => (f l).1) := by
  unfold Wrote Role.write
  by_cases hd : d.isScalar = true
  · simp only [hd, if_true]
    refine ⟨fun n => ?_, fun n l hl => ⟨fun h => by simp at h, fun _ => rfl⟩⟩
    by_cases hn : n = d.num
    · subst hn; simp [Role.raiseFlags, Role.sreg, Role.setSreg, Sparse.get_set_same]
    · simp only [hn, and_false, if_false]
      exact Role.sreg_setSreg_other _ _ _ _ hn
  · simp only [hd]
    refine ⟨fun n => ?_, fun n l hl => ?_⟩
    · simp only [Bool.false_eq_true, false_and, if_false]
      exact Role.sreg_setLanes r d.num (r.active m) (fun l => (f l).1) n
    · have hlt : ∀ x ∈ r.active m, x < 1024 := fun x hx => ((mem_active_iff r m x).1 hx).2.1
      have key := Role.vreg_setLanes r d.num (r.active m) (fun l => (f l).1) hlt n l hl
      simp only [Bool.false_eq_true, if_false]
      constructor
      · rintro ⟨-, rfl, hA⟩
        show (r.setLanes d.num (r.active m) fun l => (f l).1).vreg d.num l = _
        rw [key]; simp [(mem_active_iff r m l).2 hA]
      · intro hn
        show (r.setLanes d.num (r.active m) fun l => (f l).1).vreg n l = _
        rw [key, if_neg]
        rintro ⟨rfl, hm⟩
        exact hn ⟨by simp, rfl, (mem_active_iff r m l).1 hm⟩

theorem moved_of (r q : Role) (h : q = { r with sregs := q.sregs, vregs := q.vregs, masks := q.masks, cc := q.cc, fpstat := q.fpstat, amax := q.amax }) :
    Moved r q.advance := by
  unfold Moved
  rw [Role.advance_eq q, Role.advance_eq r, h]

theorem ccOf_bits (r q : Role) (z n c v : Bool) (h : q.cc = ccOf r.cc z n c v) : CCIs r q z n c v := by
  unfold CCIs
  rw [h]
  unfold ccOf
  refine ⟨?_, ?_, ?_, ?_, ?_⟩ <;> simp <;> cases z <;> cases n <;> cases c <;> cases v <;> decide

/-- An integer result with its CC (R283, R292): the form of every integer instruction. -/
theorem intWrite_done (i : Instr) (s : State) (r : Role) (d : RegName) (m : BitVec 3) (t : Ty) (p zn : Nat → Nat) (c v : Bool)
    (P : Nat → Nat) (CC : CC4) (hP : ∀ l, P l = p l) (hCC : CC = ⟨decide (zn 0 = 0), top t (zn 0), c, v⟩)
    (he : exec i s = .next (s.setRole s.cur (((r.write d m fun l => (pat (P l), 0)).writeCC d CC).advance))) :
    IntDone i s r d m t p zn c v := by
  have hPp : P = p := funext hP
  subst hPp
  unfold IntDone
  refine completes_of i s _ _ he ?_
  have hw := wrote_write r d m (fun l => (pat (P l), (0 : Flags)))
  have hfp := Role.write_fpstat r d m (fun l => pat (P l))
  generalize hq : (r.write d m fun l => (pat (P l), (0 : Flags))) = q0 at *
  have hq0 : q0 = { r with sregs := q0.sregs, vregs := q0.vregs, fpstat := q0.fpstat } := by
    rw [← hq]; exact Role.write_eq _ _ _ _
  have hcc : (q0.writeCC d CC).cc = if d.isScalar then ccOf r.cc CC.z CC.n CC.c CC.v else r.cc := by
    rw [Role.writeCC_cc, hq0]
  have hrest := Role.writeCC_eq q0 d CC
  refine ⟨?_, ?_, ?_, ?_, ?_, ?_, ?_⟩
  · refine ⟨fun n => ?_, fun n l hl => ?_⟩
    · have := hw.1 n
      rw [show (q0.writeCC d CC).advance.sreg n = q0.sreg n by rw [Role.sreg_advance, hrest]; rfl]
      exact this
    · have := hw.2 n l hl
      rw [show (q0.writeCC d CC).advance.vreg n l = q0.vreg n l by rw [Role.vreg_advance, hrest]; rfl]
      exact this
  · intro hd
    refine ccOf_bits r _ _ _ _ _ ?_
    rw [show (q0.writeCC d CC).advance.cc = (q0.writeCC d CC).cc by rw [Role.advance_eq], hcc, hd, hCC]; rfl
  · intro hd
    rw [show (q0.writeCC d CC).advance.cc = (q0.writeCC d CC).cc by rw [Role.advance_eq], hcc, hd]; rfl
  · rw [Role.advance_masks, hrest, hq0]
  · rw [show (q0.writeCC d CC).advance.fpstat = (q0.writeCC d CC).fpstat by rw [Role.advance_eq], hrest]; exact hfp
  · rw [show (q0.writeCC d CC).advance.amax = (q0.writeCC d CC).amax by rw [Role.advance_eq], hrest, hq0]
  · apply moved_of
    rw [hrest, hq0]

theorem intA_done (i : Instr) (s : State) (r : Role) (h : Issuing s r) (o : FmtA) (f : IntOp) (hx : exec i s = intA o f s)
    (t : Ty) (ht : o.ty = t) (p zn : Nat → Nat) (c v : Bool)
    (hP : ∀ l, (f (el r t o.a l) (el r t o.b l) (el r t o.c l)).1 = p l)
    (hCC : (f (el r t o.a 0) (el r t o.b 0) (el r t o.c 0)).2 = some ⟨decide (zn 0 = 0), top t (zn 0), c, v⟩) :
    IntDone i s r o.d o.mask t p zn c v := by
  subst ht
  refine intWrite_done i s r o.d o.mask o.ty p zn c v (fun l => (f (el r o.ty o.a l) (el r o.ty o.b l) (el r o.ty o.c l)).1) _ hP rfl ?_
  rw [hx]
  unfold intA
  rw [wordStep_next s _ r h]
  have : (f (r.elem o.ty o.a 0) (r.elem o.ty o.b 0) (r.elem o.ty o.c 0)).2 = _ := hCC
  simp only [this]
  rfl

theorem intI_done (i : Instr) (s : State) (r : Role) (h : Issuing s r) (o : FmtI2) (f : IntOp) (hx : exec i s = intI o f s)
    (t : Ty) (ht : o.ty = t) (p zn : Nat → Nat) (c v : Bool)
    (hP : ∀ l, (f (el r t o.a l) (immB o) 0).1 = p l)
    (hCC : (f (el r t o.a 0) (immB o) 0).2 = some ⟨decide (zn 0 = 0), top t (zn 0), c, v⟩) :
    IntDone i s r o.d o.mask t p zn c v := by
  subst ht
  refine intWrite_done i s r o.d o.mask o.ty p zn c v (fun l => (f (el r o.ty o.a l) (immB o) 0).1) _ hP rfl ?_
  rw [hx]
  unfold intI
  rw [wordStep_next s _ r h]
  have : (f (r.elem o.ty o.a 0) ((imm31 o.imm).toNat % 2 ^ o.ty.width) 0).2 = _ := hCC
  simp only [this]
  rfl

theorem wrap_lt (t : Ty) (x : Int) : wrap t x < 2 ^ t.width := by
  unfold wrap
  have h : (0 : Int) < (2 ^ t.width : Nat) := by positivity
  have h1 := Int.emod_nonneg x (Int.ne_of_gt h)
  have h2 := Int.emod_lt_of_pos x h
  omega

theorem width_pos (t : Ty) : 0 < t.width := by cases t <;> decide

theorem el_lt (r : Role) (t : Ty) (f : RegName) (l : Nat) : el r t f l < 2 ^ t.width := Nat.mod_lt _ (by positivity)

theorem immB_lt (o : FmtI2) : immB o < 2 ^ o.ty.width := Nat.mod_lt _ (by positivity)

theorem ccPattern_eq (t : Ty) (p : Nat) (hp : p < 2 ^ t.width) (c v : Bool) :
    ccPattern t.width p c v = ⟨decide (p = 0), top t p, c, v⟩ := by
  unfold ccPattern top
  rw [Nat.mod_eq_of_lt hp]
  have hw := width_pos t
  have h2 : 2 ^ t.width = 2 * 2 ^ (t.width - 1) := by
    rw [← Nat.pow_succ']; congr 1; omega
  have h3 : p / 2 ^ (t.width - 1) < 2 := by rw [Nat.div_lt_iff_lt_mul (by positivity)]; omega
  have h4 : (p / 2 ^ (t.width - 1) % 2 == 1) = decide (2 ^ (t.width - 1) ≤ p) := by
    rw [Nat.mod_eq_of_lt h3]
    by_cases h : 2 ^ (t.width - 1) ≤ p
    · have : 1 ≤ p / 2 ^ (t.width - 1) := (Nat.one_le_div_iff (by positivity)).2 h
      simp [h]; omega
    · simp [h, Nat.div_eq_of_lt (by omega : p < 2 ^ (t.width - 1))]
  rw [h4]
  congr 1

theorem toSigned_eq (t : Ty) (p : Nat) (hp : p < 2 ^ t.width) : toSigned t.width p = signedVal t p := by
  unfold toSigned signedVal; rw [Nat.mod_eq_of_lt hp]

theorem overflow_eq (t : Ty) (x : Int) : signedOverflow t.width x = overflows t x := by
  unfold signedOverflow overflows; push_cast; rfl

end Sys2Proof.Claim
end

