-- ==== Sys2Proof/Tests/Slice0.lean ====
section
/-! SUPPORT. The package's own tests: words of the encoding written out by hand, ill-formed terms, one step of some instructions against the
values that the spec works out, and for each statement with hypotheses states and operands that meet them. -/
open Sys2Proof Sys2Proof.Machine Sys2Proof.Claim
namespace Sys2Proof.Tests

set_option Elab.async false

/-! ### The words that the spec writes out (01, 10, 13, 15, 17, 18, 21, 24) -/

theorem test_words_of_01_and_10 :
    decodeHeader 0xC1A0_0000_0000_0001#64 = some ⟨0, false, false, 0, 1⟩ ∧
    decodeWord 0x6808_0102_0004_0002#64 = .ok (.ld ⟨.f64, 0, 4, 2, 0x40, 0, 0, 0, 2⟩) ∧
    decodeWord 0x2008_0180_C300_4000#64 = .ok (.fadd ⟨.f64, 0, 6, 1, 0x43, 0, 1, 0, 0⟩) ∧
    decodeWord 0x6818_0146_0008_0040#64 = .ok (.st ⟨.f64, 0, 5, 6, 0x80, 0, 1, 0, 0⟩) :=
  ⟨rfl, rfl, rfl, rfl⟩

theorem test_words_of_13_and_15 :
    decodeWord 0x0960_0081_8400_000A#64 = .ok (.cmp ⟨.i64, 0, 2, 3, 4, 0, 0, 0, 10⟩) ∧
    decodeWord 0x2038_0200_8206_0000#64 = .ok (.fma ⟨.f64, 0, 8, 1, 2, 3, 0, 0, 0⟩) ∧
    decodeWord 0x1201_0240_8000_0000#64 = .ok (.movi ⟨.n64, 0, 9, 0x80000000⟩) ∧
    decodeWord 0x9808_0214_546B_0000#64 = .ok (.mma ⟨.f64, 0, 8, 20, 21, 0, 0, 1, 1, 22, 0, 0, 0⟩) ∧
    decodeWord 0x9830_0017_0000_0000#64 = .ok (.mscale ⟨.i64, 0, 0, 23, 0, 0, 0, 0, 0, 0, 0, 0, 0⟩) ∧
    decodeWord 0x9880_0014_0000_0000#64 = .ok (.accclr ⟨.i64, 0, 0, 20, 0, 0, 0, 0, 0, 0, 0, 0, 0⟩) ∧
    decodeWord 0x9898_0314_0000_0801#64 = .ok (.accrd ⟨.f64, 0, 12, 20, 0, 0, 0, 0, 0, 0, 1, 0, 1⟩) ∧
    decodeWord 0x98B0_0014_5400_0800#64 = .ok (.accseq ⟨.i64, 0, 0, 20, 21, 0, 0, 0, 0, 0, 1, 0, 0⟩) :=
  ⟨rfl, rfl, rfl, rfl, rfl, rfl, rfl, rfl⟩

theorem test_words_of_17_and_18 :
    decodeWord 0xA010_1262_0000_0001#64 = .ok (.bq ⟨.i64, 0, 0x49, 0x44, 0, 0, 0, 0, 1⟩) ∧
    decodeWord 0xA030_0024_CD00_0000#64 = .ok (.bproc ⟨.i64, 0, 0, 0x49, 0x4D, 0, 0, 0, 0⟩) ∧
    decodeWord 0x5000_0040_0200_0000#64 = .ok (.mand ⟨.i64, 0, 1, 0, 2, 0, 0, 0, 0⟩) ∧
    decodeWord 0x5050_0122_C600_0000#64 = .ok (.mfroms ⟨.i64, 0, 4, 0x45, 0x46, 0, 0, 0, 0⟩) ∧
    decodeWord 0x5820_11C0_0000_0000#64 = .ok (.call ⟨.i64, 0, 0x47, 0, 0, 0⟩) ∧
    decodeWord 0x5850_0008_0000_0008#64 = .ok (.split ⟨.i64, 0, 0, 1, 0, 8⟩) ∧
    decodeWord 0x5860_0000_0000_0007#64 = .ok (.els ⟨.i64, 0, 0, 0, 0, 7⟩) ∧
    decodeWord 0x5870_0000_0000_0000#64 = .ok (.join ⟨.i64, 0, 0, 0, 0, 0⟩) ∧
    decodeWord 0x5890_0018_0000_0002#64 = .ok (.brk ⟨.i64, 0, 0, 3, 0, 2⟩) ∧
    decodeWord 0x58B0_0000_0000_0000#64 = .ok (.exit ⟨.i64, 0, 0, 0, 0, 0⟩) ∧
    decodeWord 0x6000_0021_8000_0000#64 = .ok (.setfmt ⟨.i64, 0, 0, 0x43, 0, 0, 0, 0, 0⟩) ∧
    decodeWord 0x6010_10C0_0000_0000#64 = .ok (.getfmt ⟨.i64, 0, 0x43, 0, 0, 0, 0, 0, 0⟩) :=
  ⟨rfl, rfl, rfl, rfl, rfl, rfl, rfl, rfl, rfl, rfl, rfl, rfl⟩

theorem test_words_of_21_and_24 :
    decodeWord 0xA800_1262_4500_0001#64 = .ok (.launch ⟨.i64, 0, 0x49, 0x44, 0x45, 0, 0, 0, 1⟩) ∧
    decodeWord 0xB020_1140_0008_0000#64 = .ok (.sread ⟨.i64, 0, 0x45, 0, 0x10, 0, 0⟩) ∧
    decodeWord 0xB030_0021_8008_0000#64 = .ok (.swrite ⟨.i64, 0, 0, 0x43, 0x10, 0, 0⟩) ∧
    decodeWord 0xB830_12A5_8000_0002#64 = .ok (.ctxsave ⟨.i64, 0, 0x4A, 0x4B, 0, 0, 2⟩) ∧
    decodeWord 0x6840_10C0_0000_0000#64 = .ok (.spset ⟨.i64, 0, 0x43, 0, 0, 0, 0, 0, 0⟩) ∧
    decodeWord 0x8910_14A3_0800_8023#64 = .ok (.cwait ⟨.i64, 0, 0x52, 0x46, 4, 8, 0, 0, 4, 3⟩) ∧
    decodeWord 0x9808_000E_3040_0000#64 = .ok (.mma ⟨.f64, 0, 0, 14, 12, 0, 0, 1, 0, 0, 0, 0, 0⟩) :=
  ⟨rfl, rfl, rfl, rfl, rfl, rfl, rfl⟩

theorem test_decode_class_1_a :
    decodeWord 0x0800_00C4_D100_0000#64 = .ok (.add ⟨.i64, 0, 3, 9, 81, 0, 0, 0, 0⟩) ∧
    decodeWord 0x0811_2104_D100_0000#64 = .ok (.sub ⟨.n64, 1, 4, 9, 81, 0, 0, 0, 0⟩) ∧
    decodeWord 0x0822_4144_D100_0001#64 = .ok (.mul ⟨.i32, 2, 5, 9, 81, 0, 0, 0, 1⟩) ∧
    decodeWord 0x0833_6184_D100_0000#64 = .ok (.mulhi ⟨.n32, 3, 6, 9, 81, 0, 0, 0, 0⟩) ∧
    decodeWord 0x0844_81C4_D142_0000#64 = .ok (.mad ⟨.i16, 4, 7, 9, 81, 33, 0, 0, 0⟩) ∧
    decodeWord 0x0855_A0C4_D100_0000#64 = .ok (.div ⟨.n16, 5, 3, 9, 81, 0, 0, 0, 0⟩) ∧
    decodeWord 0x0866_C104_D100_0000#64 = .ok (.rem ⟨.i8, 6, 4, 9, 81, 0, 0, 0, 0⟩) ∧
    decodeWord 0x0877_E144_8000_0000#64 = .ok (.neg ⟨.n8, 7, 5, 9, 0, 0, 0, 0, 0⟩) ∧
    decodeWord 0x0880_0184_8000_0000#64 = .ok (.abs ⟨.i64, 0, 6, 9, 0, 0, 0, 0, 0⟩) ∧
    decodeWord 0x0891_21C4_D100_0000#64 = .ok (.min ⟨.n64, 1, 7, 9, 81, 0, 0, 0, 0⟩) ∧
    decodeWord 0x08A2_40C4_D100_0000#64 = .ok (.max ⟨.i32, 2, 3, 9, 81, 0, 0, 0, 0⟩) ∧
    decodeWord 0x08B3_6104_D100_0000#64 = .ok (.and ⟨.n32, 3, 4, 9, 81, 0, 0, 0, 0⟩) :=
  ⟨rfl, rfl, rfl, rfl, rfl, rfl, rfl, rfl, rfl, rfl, rfl, rfl⟩

theorem test_decode_class_1_b :
    decodeWord 0x08C4_8144_D100_0000#64 = .ok (.or ⟨.i16, 4, 5, 9, 81, 0, 0, 0, 0⟩) ∧
    decodeWord 0x08D5_A184_D100_0000#64 = .ok (.xor ⟨.n16, 5, 6, 9, 81, 0, 0, 0, 0⟩) ∧
    decodeWord 0x08E6_C1C4_8000_0000#64 = .ok (.not ⟨.i8, 6, 7, 9, 0, 0, 0, 0, 0⟩) ∧
    decodeWord 0x08F7_E0C4_D100_0000#64 = .ok (.andn ⟨.n8, 7, 3, 9, 81, 0, 0, 0, 0⟩) ∧
    decodeWord 0x0900_0104_D100_0000#64 = .ok (.shl ⟨.i64, 0, 4, 9, 81, 0, 0, 0, 0⟩) ∧
    decodeWord 0x0911_2144_D100_0000#64 = .ok (.shr ⟨.n64, 1, 5, 9, 81, 0, 0, 0, 0⟩) ∧
    decodeWord 0x0922_4184_D100_0000#64 = .ok (.sar ⟨.i32, 2, 6, 9, 81, 0, 0, 0, 0⟩) ∧
    decodeWord 0x0933_61C4_D100_0000#64 = .ok (.rol ⟨.n32, 3, 7, 9, 81, 0, 0, 0, 0⟩) ∧
    decodeWord 0x0940_80C4_D10A_0000#64 = .ok (.sel ⟨.i64, 4, 3, 9, 81, 5, 0, 0, 0⟩) ∧
    decodeWord 0x0955_A104_8000_0000#64 = .ok (.mov ⟨.n16, 5, 4, 9, 0, 0, 0, 0, 0⟩) ∧
    decodeWord 0x0966_C184_D100_000B#64 = .ok (.cmp ⟨.i8, 6, 6, 9, 81, 0, 0, 0, 11⟩) :=
  ⟨rfl, rfl, rfl, rfl, rfl, rfl, rfl, rfl, rfl, rfl, rfl⟩

theorem test_decode_class_2_a :
    decodeWord 0x1000_6574_4000_0005#64 = .ok (.addImm ⟨.i64, 3, 21, 104, 0x40000005⟩) ∧
    decodeWord 0x1011_6574_4000_0006#64 = .ok (.subImm ⟨.n64, 3, 21, 104, 0x40000006⟩) ∧
    decodeWord 0x1022_6574_4000_0007#64 = .ok (.mulImm ⟨.i32, 3, 21, 104, 0x40000007⟩) ∧
    decodeWord 0x1091_6574_4000_000E#64 = .ok (.minImm ⟨.n64, 3, 21, 104, 0x4000000e⟩) ∧
    decodeWord 0x10A2_6574_4000_000F#64 = .ok (.maxImm ⟨.i32, 3, 21, 104, 0x4000000f⟩) ∧
    decodeWord 0x10B3_6574_4000_0010#64 = .ok (.andImm ⟨.n32, 3, 21, 104, 0x40000010⟩) ∧
    decodeWord 0x10C4_6574_4000_0011#64 = .ok (.orImm ⟨.i16, 3, 21, 104, 0x40000011⟩) ∧
    decodeWord 0x10D5_6574_4000_0012#64 = .ok (.xorImm ⟨.n16, 3, 21, 104, 0x40000012⟩) ∧
    decodeWord 0x1100_6574_0000_002D#64 = .ok (.shlImm ⟨.i64, 3, 21, 104, 45⟩) ∧
    decodeWord 0x1111_6574_0000_002D#64 = .ok (.shrImm ⟨.n64, 3, 21, 104, 45⟩) ∧
    decodeWord 0x1122_6574_0000_002D#64 = .ok (.sarImm ⟨.i32, 3, 21, 104, 45⟩) ∧
    decodeWord 0x1133_6574_0000_002D#64 = .ok (.rolImm ⟨.n32, 3, 21, 104, 45⟩) :=
  ⟨rfl, rfl, rfl, rfl, rfl, rfl, rfl, rfl, rfl, rfl, rfl, rfl⟩

theorem test_decode_class_2_b :
    decodeWord 0x1166_6574_4000_001B#64 = .ok (.cmpImm ⟨.i8, 3, 21, 104, 0x4000001b⟩) ∧
    decodeWord 0x1201_21C0_8000_0001#64 = .ok (.movi ⟨.n64, 1, 7, 0x80000001⟩) ∧
    decodeWord 0x1210_11C0_1234_5678#64 = .ok (.movh ⟨.i64, 0, 71, 0x12345678⟩) :=
  ⟨rfl, rfl, rfl⟩

theorem test_decode_class_3 :
    decodeWord 0x1800_4221_0000_0000#64 = .ok (.clz ⟨.i64, 2, 8, 66, 0, 0, 0, 0, 0⟩) ∧
    decodeWord 0x1811_4221_0000_0000#64 = .ok (.ctz ⟨.n64, 2, 8, 66, 0, 0, 0, 0, 0⟩) ∧
    decodeWord 0x1822_4221_0000_0000#64 = .ok (.popc ⟨.i32, 2, 8, 66, 0, 0, 0, 0, 0⟩) ∧
    decodeWord 0x1833_4221_0000_0000#64 = .ok (.brev ⟨.n32, 2, 8, 66, 0, 0, 0, 0, 0⟩) ∧
    decodeWord 0x1844_4221_050C_0000#64 = .ok (.bfx ⟨.i16, 2, 8, 66, 5, 6, 0, 0, 0⟩) ∧
    decodeWord 0x1855_4221_050C_0000#64 = .ok (.bfi ⟨.n16, 2, 8, 66, 5, 6, 0, 0, 0⟩) :=
  ⟨rfl, rfl, rfl, rfl, rfl, rfl⟩

theorem test_decode_class_4 :
    decodeWord 0x2008_2041_4300_0000#64 = .ok (.fadd ⟨.f64, 1, 1, 2, 67, 0, 0, 0, 0⟩) ∧
    decodeWord 0x2019_2041_4300_4000#64 = .ok (.fsub ⟨.f32, 1, 1, 2, 67, 0, 1, 0, 0⟩) ∧
    decodeWord 0x202A_2041_4300_8000#64 = .ok (.fmul ⟨.bf16, 1, 1, 2, 67, 0, 2, 0, 0⟩) ∧
    decodeWord 0x203B_2041_4308_C000#64 = .ok (.fma ⟨.f16, 1, 1, 2, 67, 4, 3, 0, 0⟩) ∧
    decodeWord 0x2048_2041_4309_0000#64 = .ok (.fms ⟨.f64, 1, 1, 2, 67, 4, 4, 0, 0⟩) ∧
    decodeWord 0x2059_2041_4308_0000#64 = .ok (.fnma ⟨.f32, 1, 1, 2, 67, 4, 0, 0, 0⟩) ∧
    decodeWord 0x206A_2041_4300_0000#64 = .ok (.fmin ⟨.bf16, 1, 1, 2, 67, 0, 0, 0, 0⟩) ∧
    decodeWord 0x207B_2041_4300_0000#64 = .ok (.fmax ⟨.f16, 1, 1, 2, 67, 0, 0, 0, 0⟩) :=
  ⟨rfl, rfl, rfl, rfl, rfl, rfl, rfl, rfl⟩

theorem test_decode_class_5 :
    decodeWord 0x2808_8041_0000_0000#64 = .ok (.fabs ⟨.f64, 4, 1, 2, 0, 0, 0, 0, 0⟩) ∧
    decodeWord 0x2819_8041_0000_0000#64 = .ok (.fneg ⟨.f32, 4, 1, 2, 0, 0, 0, 0, 0⟩) ∧
    decodeWord 0x282A_8041_1E00_0000#64 = .ok (.fcpys ⟨.bf16, 4, 1, 2, 30, 0, 0, 0, 0⟩) ∧
    decodeWord 0x283B_8041_1E00_0007#64 = .ok (.fcmp ⟨.f16, 4, 1, 2, 30, 0, 0, 0, 7⟩) ∧
    decodeWord 0x284C_8041_0000_0000#64 = .ok (.fclass ⟨.e4m3, 4, 1, 2, 0, 0, 0, 0, 0⟩) ∧
    decodeWord 0x2859_8041_1E01_0000#64 = .ok (.fscale ⟨.f32, 4, 1, 2, 30, 0, 4, 0, 0⟩) ∧
    decodeWord 0x286A_8041_0000_0000#64 = .ok (.fgetexp ⟨.bf16, 4, 1, 2, 0, 0, 0, 0, 0⟩) ∧
    decodeWord 0x287B_8041_0001_0000#64 = .ok (.frnd ⟨.f16, 4, 1, 2, 0, 0, 4, 0, 0⟩) :=
  ⟨rfl, rfl, rfl, rfl, rfl, rfl, rfl, rfl⟩

theorem test_decode_class_6 :
    decodeWord 0x3008_1061_7F00_C000#64 = .ok (.fdiv ⟨.f64, 0, 65, 66, 127, 0, 3, 0, 0⟩) ∧
    decodeWord 0x3019_1061_0000_C000#64 = .ok (.fsqrt ⟨.f32, 0, 65, 66, 0, 0, 3, 0, 0⟩) ∧
    decodeWord 0x302A_1061_0000_C000#64 = .ok (.frcpe ⟨.bf16, 0, 65, 66, 0, 0, 3, 0, 0⟩) ∧
    decodeWord 0x303B_1061_0000_C000#64 = .ok (.frsqe ⟨.f16, 0, 65, 66, 0, 0, 3, 0, 0⟩) ∧
    decodeWord 0x3048_1061_0000_C000#64 = .ok (.fexp2 ⟨.f64, 0, 65, 66, 0, 0, 3, 0, 0⟩) ∧
    decodeWord 0x3059_1061_0000_C000#64 = .ok (.flog2 ⟨.f32, 0, 65, 66, 0, 0, 3, 0, 0⟩) :=
  ⟨rfl, rfl, rfl, rfl, rfl, rfl⟩

theorem test_decode_class_8 :
    decodeWord 0x400D_0102_8000_8039#64 = .ok (.cvt ⟨.e5m2, 0, 4, 5, 0, 0, 2, 0, 57⟩) ∧
    decodeWord 0x401C_0102_C600_0018#64 = .ok (.cvts ⟨.e4m3, 0, 4, 5, 70, 0, 0, 0, 24⟩) ∧
    decodeWord 0x4026_0102_0500_0007#64 = .ok (.pack ⟨.i8, 0, 4, 4, 5, 0, 0, 0, 7⟩) ∧
    decodeWord 0x403B_0102_8000_0003#64 = .ok (.unpack ⟨.f16, 0, 4, 5, 0, 0, 0, 0, 3⟩) ∧
    decodeWord 0x4048_1140_0000_0000#64 = .ok (.amaxrd ⟨.f64, 0, 69, 0, 0, 0, 0, 0, 0⟩) ∧
    decodeWord 0x4050_0000_0000_0000#64 = .ok (.amaxclr ⟨.i64, 0, 0, 0, 0, 0, 0, 0, 0⟩) :=
  ⟨rfl, rfl, rfl, rfl, rfl, rfl⟩

theorem test_decode_class_9 :
    decodeWord 0x4800_4285_CC00_0000#64 = .ok (.vbcast ⟨.i64, 2, 10, 11, 76, 0, 0, 0, 0⟩) ∧
    decodeWord 0x4810_4285_8C00_0000#64 = .ok (.vshfl ⟨.i64, 2, 10, 11, 12, 0, 0, 0, 0⟩) ∧
    decodeWord 0x4820_4285_CC00_0000#64 = .ok (.vshift ⟨.i64, 2, 10, 11, 76, 0, 0, 0, 0⟩) ∧
    decodeWord 0x4830_4285_CC00_0000#64 = .ok (.vrot ⟨.i64, 2, 10, 11, 76, 0, 0, 0, 0⟩) ∧
    decodeWord 0x4848_3244_0000_4007#64 = .ok (.vred ⟨.f64, 1, 73, 8, 0, 0, 1, 0, 7⟩) ∧
    decodeWord 0x4853_2244_0000_0011#64 = .ok (.vscan ⟨.n32, 1, 9, 8, 0, 0, 0, 0, 17⟩) ∧
    decodeWord 0x4866_7244_4100_0000#64 = .ok (.vballot ⟨.i8, 3, 73, 8, 65, 0, 0, 0, 0⟩) ∧
    decodeWord 0x4874_7240_0000_0001#64 = .ok (.vcount ⟨.i16, 3, 73, 0, 0, 0, 0, 0, 1⟩) ∧
    decodeWord 0x4882_7244_0000_0000#64 = .ok (.vfirst ⟨.i32, 3, 73, 8, 0, 0, 0, 0, 0⟩) :=
  ⟨rfl, rfl, rfl, rfl, rfl, rfl, rfl, rfl, rfl⟩

theorem test_decode_class_10 :
    decodeWord 0x5000_0041_0700_0000#64 = .ok (.mand ⟨.i64, 0, 1, 2, 7, 0, 0, 0, 0⟩) ∧
    decodeWord 0x5010_0041_0700_0000#64 = .ok (.mor ⟨.i64, 0, 1, 2, 7, 0, 0, 0, 0⟩) ∧
    decodeWord 0x5020_0041_0700_0000#64 = .ok (.mxor ⟨.i64, 0, 1, 2, 7, 0, 0, 0, 0⟩) ∧
    decodeWord 0x5030_00C2_0000_0000#64 = .ok (.mnot ⟨.i64, 0, 3, 4, 0, 0, 0, 0, 0⟩) ∧
    decodeWord 0x5040_00C2_0000_0000#64 = .ok (.mmove ⟨.i64, 0, 3, 4, 0, 0, 0, 0, 0⟩) ∧
    decodeWord 0x5050_0163_4700_0000#64 = .ok (.mfroms ⟨.i64, 0, 5, 70, 71, 0, 0, 0, 0⟩) ∧
    decodeWord 0x5060_1143_4700_0000#64 = .ok (.mtos ⟨.i64, 0, 69, 6, 71, 0, 0, 0, 0⟩) :=
  ⟨rfl, rfl, rfl, rfl, rfl, rfl, rfl⟩

theorem test_decode_class_11 :
    decodeWord 0x5800_0000_8000_0000#64 = .ok (.bra ⟨.i64, 0, 0, 0, 0, 0x80000000⟩) ∧
    decodeWord 0x5810_001E_8000_0001#64 = .ok (.bc ⟨.i64, 0, 0, 3, 6, 0x80000001⟩) ∧
    decodeWord 0x5820_1080_0000_0000#64 = .ok (.call ⟨.i64, 0, 66, 0, 0, 0⟩) ∧
    decodeWord 0x5830_0000_0000_0000#64 = .ok (.ret ⟨.i64, 0, 0, 0, 0, 0⟩) ∧
    decodeWord 0x5840_1100_0000_0000#64 = .ok (.jmpi ⟨.i64, 0, 68, 0, 0, 0⟩) ∧
    decodeWord 0x5850_0038_8000_0005#64 = .ok (.split ⟨.i64, 0, 0, 7, 0, 0x80000005⟩) ∧
    decodeWord 0x5860_0000_8000_0006#64 = .ok (.els ⟨.i64, 0, 0, 0, 0, 0x80000006⟩) ∧
    decodeWord 0x5870_0000_0000_0000#64 = .ok (.join ⟨.i64, 0, 0, 0, 0, 0⟩) ∧
    decodeWord 0x5880_0000_0000_0000#64 = .ok (.loop ⟨.i64, 0, 0, 0, 0, 0⟩) ∧
    decodeWord 0x5890_0018_8000_0009#64 = .ok (.brk ⟨.i64, 0, 0, 3, 0, 0x80000009⟩) ∧
    decodeWord 0x58A0_0020_8000_000A#64 = .ok (.cont ⟨.i64, 0, 0, 4, 0, 0x8000000a⟩) ∧
    decodeWord 0x58B0_0000_0000_0000#64 = .ok (.exit ⟨.i64, 0, 0, 0, 0, 0⟩) :=
  ⟨rfl, rfl, rfl, rfl, rfl, rfl, rfl, rfl, rfl, rfl, rfl, rfl⟩

theorem test_decode_class_12 :
    decodeWord 0x6000_0021_8000_0000#64 = .ok (.setfmt ⟨.i64, 0, 0, 67, 0, 0, 0, 0, 0⟩) ∧
    decodeWord 0x6010_10C0_0000_0000#64 = .ok (.getfmt ⟨.i64, 0, 67, 0, 0, 0, 0, 0, 0⟩) ∧
    decodeWord 0x6020_0000_0000_0000#64 = .ok (.nop ⟨.i64, 0, 0, 0, 0, 0, 0, 0, 0⟩) :=
  ⟨rfl, rfl, rfl⟩

theorem test_decode_class_13 :
    decodeWord 0x6809_2084_8010_0304#64 = .ok (.ld ⟨.f32, 1, 2, 4, 0x80100, 3, 0, 0, 4⟩) ∧
    decodeWord 0x6815_4146_0008_0040#64 = .ok (.st ⟨.n16, 2, 5, 6, 128, 0, 1, 0, 0⟩) ∧
    decodeWord 0x6826_6142_0000_0906#64 = .ok (.ldsp ⟨.i8, 3, 5, 2, 0, 9, 0, 0, 6⟩) ∧
    decodeWord 0x6838_8143_0000_0000#64 = .ok (.stsp ⟨.f64, 4, 5, 3, 0, 0, 0, 0, 0⟩) ∧
    decodeWord 0x6840_1141_FFFF_8000#64 = .ok (.spset ⟨.i64, 0, 69, 1, 0xffff8, 0, 0, 0, 0⟩) ∧
    decodeWord 0x6850_0061_0004_0F00#64 = .ok (.pref ⟨.i64, 0, 1, 33, 64, 15, 0, 0, 0⟩) :=
  ⟨rfl, rfl, rfl, rfl, rfl, rfl⟩

theorem test_decode_class_14 :
    decodeWord 0x700B_21C1_0000_2041#64 = .ok (.ldsc ⟨.f16, 1, 7, 1, 2, 0, 1, 0, 1⟩) ∧
    decodeWord 0x7012_21C1_0000_4000#64 = .ok (.stsc ⟨.i32, 1, 7, 1, 4, 0, 0, 0, 0⟩) ∧
    decodeWord 0x702A_21C1_0000_6002#64 = .ok (.ldcl ⟨.bf16, 1, 7, 1, 6, 0, 0, 0, 2⟩) ∧
    decodeWord 0x703C_21C1_0000_8000#64 = .ok (.stcl ⟨.e4m3, 1, 7, 1, 8, 0, 0, 0, 0⟩) ∧
    decodeWord 0x7041_A1E4_9500_8040#64 = .ok (.stmc ⟨.n64, 5, 7, 73, 10, 0x1008, 0, 1, 0, 0⟩) :=
  ⟨rfl, rfl, rfl, rfl, rfl⟩

theorem test_decode_class_15 :
    decodeWord 0x7808_C1C4_9401_0045#64 = .ok (.gath ⟨.f64, 6, 7, 9, 10, 16, 0, 1, 0, 5⟩) ∧
    decodeWord 0x7814_E1C4_9401_2000#64 = .ok (.scat ⟨.i16, 7, 7, 9, 10, 18, 0, 0, 0, 0⟩) :=
  ⟨rfl, rfl⟩

theorem test_decode_class_16 :
    decodeWord 0x8000_0000_0000_0020#64 = .ok (.fence ⟨.i64, 0, 0, 0, 0, 0, 0, 4, 0⟩) :=
  rfl

theorem test_decode_class_17 :
    decodeWord 0x8803_21C4_9401_0581#64 = .ok (.atom ⟨.n32, 1, 7, 9, 10, 16, 5, 2, 0, 1⟩) ∧
    decodeWord 0x8818_21E4_9400_8041#64 = .ok (.cas ⟨.f64, 1, 7, 73, 10, 8, 0, 1, 0, 1⟩) ∧
    decodeWord 0x882A_21E4_9401_0700#64 = .ok (.red ⟨.bf16, 1, 7, 73, 10, 16, 7, 0, 0, 0⟩) ∧
    decodeWord 0x8900_0024_9400_8018#64 = .ok (.cadd ⟨.i64, 0, 0, 73, 10, 8, 0, 0, 3, 0⟩) ∧
    decodeWord 0x8910_1064_9400_8033#64 = .ok (.cwait ⟨.i64, 0, 65, 73, 10, 8, 0, 0, 6, 3⟩) ∧
    decodeWord 0x8920_1040_1400_800B#64 = .ok (.cread ⟨.i64, 0, 65, 0, 10, 8, 0, 0, 1, 3⟩) ∧
    decodeWord 0x8930_1061_0001_E001#64 = .ok (.tlwait ⟨.i64, 0, 65, 66, 0, 0, 15, 0, 1⟩) ∧
    decodeWord 0x8940_1040_0001_2001#64 = .ok (.close ⟨.i64, 0, 65, 0, 0, 0, 9, 0, 1⟩) :=
  ⟨rfl, rfl, rfl, rfl, rfl, rfl, rfl, rfl⟩

theorem test_decode_class_18_a :
    decodeWord 0x9000_0021_8000_8000#64 = .ok (.qbind ⟨.i64, 0, 0, 67, 0, 0, 4, 0, 0⟩) ∧
    decodeWord 0x9010_1061_4388_A01E#64 = .ok (.copy ⟨.i64, 0, 65, 66, 67, 68, 5, 3, 6⟩) ∧
    decodeWord 0x9020_1061_0000_4002#64 = .ok (.tcopy ⟨.i64, 0, 65, 66, 0, 0, 2, 0, 2⟩) ∧
    decodeWord 0x9030_1061_0000_6002#64 = .ok (.halo ⟨.i64, 0, 65, 66, 0, 0, 3, 0, 2⟩) ∧
    decodeWord 0x9040_1061_0000_8002#64 = .ok (.ared ⟨.i64, 0, 65, 66, 0, 0, 4, 0, 2⟩) ∧
    decodeWord 0x9050_1061_0000_A002#64 = .ok (.put ⟨.i64, 0, 65, 66, 0, 0, 5, 0, 2⟩) ∧
    decodeWord 0x9060_1061_0000_C002#64 = .ok (.get ⟨.i64, 0, 65, 66, 0, 0, 6, 0, 2⟩) ∧
    decodeWord 0x9200_1061_0000_0002#64 = .ok (.fcomp ⟨.i64, 0, 65, 66, 0, 0, 0, 0, 2⟩) ∧
    decodeWord 0x9210_1061_0000_2002#64 = .ok (.encf ⟨.i64, 0, 65, 66, 0, 0, 1, 0, 2⟩) ∧
    decodeWord 0x9100_1061_4388_A006#64 = .ok (.publish ⟨.i64, 0, 65, 66, 67, 68, 5, 0, 6⟩) ∧
    decodeWord 0x9110_1061_0000_A016#64 = .ok (.pin ⟨.i64, 0, 65, 66, 0, 0, 5, 2, 6⟩) ∧
    decodeWord 0x9120_1061_0000_A00E#64 = .ok (.vret ⟨.i64, 0, 65, 66, 0, 0, 5, 1, 6⟩) :=
  ⟨rfl, rfl, rfl, rfl, rfl, rfl, rfl, rfl, rfl, rfl, rfl, rfl⟩

theorem test_decode_class_18_b :
    decodeWord 0x9130_0021_0000_0070#64 = .ok (.viewset ⟨.i64, 0, 0, 66, 0, 0, 0, 14, 0⟩) ∧
    decodeWord 0x9140_0021_0000_0000#64 = .ok (.wverset ⟨.i64, 0, 0, 66, 0, 0, 0, 0, 0⟩) :=
  ⟨rfl, rfl⟩

theorem test_decode_class_19 :
    decodeWord 0x9808_2214_56B5_0000#64 = .ok (.mma ⟨.f64, 1, 8, 20, 21, 2, 1, 0, 1, 42, 0, 0, 0⟩) ∧
    decodeWord 0x981A_2214_56B5_0000#64 = .ok (.mmas ⟨.bf16, 1, 8, 20, 21, 2, 1, 0, 1, 42, 0, 0, 0⟩) ∧
    decodeWord 0x982F_2214_5675_0800#64 = .ok (.mmab ⟨.b1, 1, 8, 20, 21, 2, 0, 1, 1, 42, 1, 0, 0⟩) ∧
    decodeWord 0x9830_0017_0000_1000#64 = .ok (.mscale ⟨.i64, 0, 0, 23, 0, 0, 0, 0, 0, 0, 2, 0, 0⟩) ∧
    decodeWord 0x9880_0014_0000_0800#64 = .ok (.accclr ⟨.i64, 0, 0, 20, 0, 0, 0, 0, 0, 0, 1, 0, 0⟩) ∧
    decodeWord 0x9899_4314_0000_2401#64 = .ok (.accrd ⟨.f32, 2, 12, 20, 0, 0, 0, 0, 0, 0, 4, 1, 1⟩) ∧
    decodeWord 0x98A0_0014_0000_0000#64 = .ok (.accfl ⟨.i64, 0, 0, 20, 0, 0, 0, 0, 0, 0, 0, 0, 0⟩) ∧
    decodeWord 0x98B0_0014_5400_0800#64 = .ok (.accseq ⟨.i64, 0, 0, 20, 21, 0, 0, 0, 0, 0, 1, 0, 0⟩) :=
  ⟨rfl, rfl, rfl, rfl, rfl, rfl, rfl, rfl⟩

theorem test_decode_class_20 :
    decodeWord 0xA000_0024_8000_0000#64 = .ok (.bset ⟨.i64, 0, 0, 73, 0, 0, 0, 0, 0⟩) ∧
    decodeWord 0xA010_1262_0000_0009#64 = .ok (.bq ⟨.i64, 0, 73, 68, 0, 0, 0, 1, 1⟩) ∧
    decodeWord 0xA020_1262_0000_0011#64 = .ok (.bres ⟨.i64, 0, 73, 68, 0, 0, 0, 2, 1⟩) ∧
    decodeWord 0xA030_0024_C400_0008#64 = .ok (.bproc ⟨.i64, 0, 0, 73, 68, 0, 0, 1, 0⟩) ∧
    decodeWord 0xA040_1262_4500_0001#64 = .ok (.bsave ⟨.i64, 0, 73, 68, 69, 0, 0, 0, 1⟩) ∧
    decodeWord 0xA050_1262_0000_0001#64 = .ok (.bresume ⟨.i64, 0, 73, 68, 0, 0, 0, 0, 1⟩) ∧
    decodeWord 0xA060_0022_0000_0000#64 = .ok (.babort ⟨.i64, 0, 0, 68, 0, 0, 0, 0, 0⟩) :=
  ⟨rfl, rfl, rfl, rfl, rfl, rfl, rfl⟩

theorem test_decode_class_21 :
    decodeWord 0xA800_1262_4500_0001#64 = .ok (.launch ⟨.i64, 0, 73, 68, 69, 0, 0, 0, 1⟩) ∧
    decodeWord 0xA810_0022_458C_0000#64 = .ok (.enqr ⟨.i64, 0, 0, 68, 69, 70, 0, 0, 0⟩) ∧
    decodeWord 0xA820_0022_0500_0000#64 = .ok (.enqc ⟨.i64, 0, 0, 68, 5, 0, 0, 0, 0⟩) ∧
    decodeWord 0xA830_0000_0000_0000#64 = .ok (.yield ⟨.i64, 0, 0, 0, 0, 0, 0, 0, 0⟩) :=
  ⟨rfl, rfl, rfl, rfl⟩

theorem test_decode_class_22 :
    decodeWord 0xB000_0022_0000_07F8#64 = .ok (.trap ⟨.i64, 0, 0, 68, 0, 255, 0⟩) ∧
    decodeWord 0xB010_0000_0000_0000#64 = .ok (.tret ⟨.i64, 0, 0, 0, 0, 0, 0⟩) ∧
    decodeWord 0xB020_0140_0000_8000#64 = .ok (.sread ⟨.i64, 0, 5, 0, 1, 0, 0⟩) ∧
    decodeWord 0xB030_0021_8008_0000#64 = .ok (.swrite ⟨.i64, 0, 0, 67, 16, 0, 0⟩) ∧
    decodeWord 0xB040_0000_0000_0000#64 = .ok (.tack ⟨.i64, 0, 0, 0, 0, 0, 0⟩) :=
  ⟨rfl, rfl, rfl, rfl, rfl⟩

theorem test_decode_class_23 :
    decodeWord 0xB800_1061_0000_0000#64 = .ok (.tlbinv ⟨.i64, 0, 65, 66, 0, 0, 0⟩) ∧
    decodeWord 0xB810_1061_0000_0008#64 = .ok (.lflush ⟨.i64, 0, 65, 66, 0, 1, 0⟩) ∧
    decodeWord 0xB820_1061_0000_0000#64 = .ok (.linv ⟨.i64, 0, 65, 66, 0, 0, 0⟩) ∧
    decodeWord 0xB830_1061_0000_0002#64 = .ok (.ctxsave ⟨.i64, 0, 65, 66, 0, 0, 2⟩) ∧
    decodeWord 0xB840_1061_0000_0002#64 = .ok (.ctxload ⟨.i64, 0, 65, 66, 0, 0, 2⟩) ∧
    decodeWord 0xB850_0021_0000_0008#64 = .ok (.logreplay ⟨.i64, 0, 0, 66, 0, 1, 0⟩) ∧
    decodeWord 0xB860_1040_0000_000B#64 = .ok (.fqpop ⟨.i64, 0, 65, 0, 0, 1, 3⟩) ∧
    decodeWord 0xB870_0000_0000_0008#64 = .ok (.halt ⟨.i64, 0, 0, 0, 0, 1, 0⟩) :=
  ⟨rfl, rfl, rfl, rfl, rfl, rfl, rfl, rfl⟩

/-! ### WellFormed: for each check a term that it refuses -/

theorem test_ill_formed_A :
    (Instr.add ⟨.f64, 0, 1, 2, 3, 0, 0, 0, 0⟩).illegal? = some .badType ∧
    (Instr.add ⟨.i64, 0, 1, 2, 3, 4, 0, 0, 0⟩).illegal? = some .badRegister ∧
    (Instr.mand ⟨.i64, 0, 8, 2, 3, 0, 0, 0, 0⟩).illegal? = some .badRegister ∧
    (Instr.add ⟨.i64, 0, 0x41, 2, 0x43, 0, 0, 0, 0⟩).illegal? = some .badRegister ∧
    (Instr.add ⟨.i64, 1, 0x41, 0x42, 0x43, 0, 0, 0, 0⟩).illegal? = some .badMask ∧
    (Instr.mand ⟨.i64, 1, 1, 2, 3, 0, 0, 0, 0⟩).illegal? = some .badMask ∧
    (Instr.fadd ⟨.f64, 0, 1, 2, 3, 0, 5, 0, 0⟩).illegal? = some .badRounding ∧
    (Instr.add ⟨.i64, 0, 1, 2, 3, 0, 1, 0, 0⟩).illegal? = some .badRounding ∧
    (Instr.add ⟨.i64, 0, 1, 2, 3, 0, 0, 1, 0⟩).illegal? = some .badSlot ∧
    (Instr.add ⟨.i64, 0, 1, 2, 3, 0, 0, 0, 2⟩).illegal? = some .badModifier ∧
    (Instr.bfx ⟨.i16, 0, 1, 2, 12, 4, 0, 0, 0⟩).illegal? = some .badType ∧
    (Instr.vred ⟨.f64, 0, 0x41, 2, 0, 0, 0, 0, 6⟩).illegal? = some .badType := by decide

theorem test_ill_formed_immediates :
    (Instr.addImm ⟨.f32, 0, 1, 2, 3⟩).illegal? = some .badType ∧ (Instr.addImm ⟨.i64, 0, 0x41, 2, 3⟩).illegal? = some .badRegister ∧
    (Instr.addImm ⟨.i64, 1, 0x41, 0x42, 3⟩).illegal? = some .badMask ∧
    (Instr.shlImm ⟨.i64, 0, 1, 2, 64⟩).illegal? = some .badModifier ∧
    (Instr.movi ⟨.i32, 0, 1, 2⟩).illegal? = some .badType ∧ (Instr.movi ⟨.i64, 1, 0x41, 2⟩).illegal? = some .badMask ∧
    decodeWord 0x1200_0041_0000_0005#64 = .error .reservedBit := by
  refine ⟨?_, ?_, ?_, ?_, ?_, ?_, rfl⟩ <;> decide

theorem test_ill_formed_M :
    (Instr.ld ⟨.t2, 0, 1, 2, 0, 0, 0, 0, 1⟩).illegal? = some .badType ∧
    (Instr.ldsp ⟨.f64, 0, 1, 4, 0, 0, 0, 0, 1⟩).illegal? = some .badRegister ∧
    (Instr.ld ⟨.f64, 1, 0x41, 2, 0, 0, 0, 0, 1⟩).illegal? = some .badMask ∧
    (Instr.ldsp ⟨.f64, 0, 1, 3, 8, 0, 0, 0, 1⟩).illegal? = some .unusedField ∧
    (Instr.ld ⟨.f64, 0, 1, 2, 0, 0, 2, 0, 1⟩).illegal? = some .badClass ∧
    (Instr.ld ⟨.f64, 0, 1, 2, 0, 1, 1, 0, 1⟩).illegal? = some .badClass ∧
    (Instr.fence ⟨.i64, 0, 0, 0, 0, 0, 0, 7, 0⟩).illegal? = some .badClass ∧
    (Instr.ld ⟨.f64, 0, 1, 2, 0, 0, 0, 3, 1⟩).illegal? = some .badClass ∧
    (Instr.ld ⟨.f64, 0, 1, 2, 0, 0, 0, 0, 7⟩).illegal? = some .badSlot ∧
    (Instr.st ⟨.f64, 0, 1, 2, 0, 0, 0, 0, 1⟩).illegal? = some .badSlot := by decide

theorem test_ill_formed_MA :
    (Instr.atom ⟨.f32, 0, 1, 2, 3, 0, 1, 0, 0, 1⟩).illegal? = some .badType ∧
    (Instr.gath ⟨.f32, 0, 1, 0x42, 3, 0, 0, 0, 0, 1⟩).illegal? = some .badRegister ∧
    (Instr.atom ⟨.i32, 0, 0x41, 2, 3, 0, 1, 0, 0, 1⟩).illegal? = some .badRegister ∧
    (Instr.cadd ⟨.i64, 2, 0, 0x42, 3, 0, 0, 0, 0, 0⟩).illegal? = some .badMask ∧
    (Instr.atom ⟨.i32, 0, 1, 2, 3, 0, 6, 2, 0, 1⟩).illegal? = some .badClass ∧
    (Instr.cadd ⟨.i64, 0, 0, 0x42, 3, 0, 0, 0, 7, 0⟩).illegal? = some .badClass ∧
    (Instr.atom ⟨.i32, 0, 1, 2, 3, 0, 1, 0, 0, 0⟩).illegal? = some .badSlot ∧
    (Instr.scat ⟨.i32, 0, 1, 2, 3, 0, 0, 0, 0, 1⟩).illegal? = some .badSlot := by decide

theorem test_ill_formed_B :
    (Instr.bra ⟨.n64, 0, 0, 0, 0, 1⟩).illegal? = some .badType ∧ (Instr.bra ⟨.i64, 1, 0, 0, 0, 1⟩).illegal? = some .badMask ∧
    (Instr.bra ⟨.i64, 0, 0x41, 0, 0, 1⟩).illegal? = some .badRegister ∧ (Instr.jmpi ⟨.i64, 0, 1, 0, 0, 0⟩).illegal? = some .badRegister ∧
    (Instr.bra ⟨.i64, 0, 0, 1, 0, 1⟩).illegal? = some .unusedField ∧ (Instr.bra ⟨.i64, 0, 0, 0, 1, 1⟩).illegal? = some .unusedField ∧
    (Instr.ret ⟨.i64, 0, 0, 0, 0, 1⟩).illegal? = some .unusedField ∧ (Instr.bc ⟨.i64, 0, 0, 0, 0, 1⟩).illegal? = some .badModifier ∧
    (Instr.call ⟨.i64, 0, 0x41, 0, 0, 1⟩).illegal? = some .unusedField := by decide

theorem test_ill_formed_Q :
    (Instr.copy ⟨.n64, 0, 0x41, 0x42, 0x43, 0x44, 1, 0, 1⟩).illegal? = some .badType ∧
    (Instr.copy ⟨.i64, 1, 0x41, 0x42, 0x43, 0x44, 1, 0, 1⟩).illegal? = some .badMask ∧
    (Instr.copy ⟨.i64, 0, 1, 0x42, 0x43, 0x44, 1, 0, 1⟩).illegal? = some .badRegister ∧
    (Instr.yield ⟨.i64, 0, 0, 0, 0, 0, 1, 0, 0⟩).illegal? = some .unusedField ∧
    (Instr.copy ⟨.i64, 0, 0x41, 0x42, 0x43, 0x44, 1, 4, 1⟩).illegal? = some .badModifier ∧
    (Instr.copy ⟨.i64, 0, 0x41, 0x42, 0x43, 0x44, 1, 0, 0⟩).illegal? = some .badSlot := by decide

theorem test_ill_formed_X :
    (Instr.mma ⟨.i64, 0, 8, 20, 21, 0, 0, 0, 0, 0, 0, 0, 0⟩).illegal? = some .badType ∧
    (Instr.mma ⟨.f64, 0, 0x48, 20, 21, 0, 0, 0, 0, 0, 0, 0, 0⟩).illegal? = some .badRegister ∧
    (Instr.accclr ⟨.i64, 1, 0, 20, 0, 0, 0, 0, 0, 0, 0, 0, 0⟩).illegal? = some .badMask ∧
    (Instr.accclr ⟨.i64, 0, 0, 20, 1, 0, 0, 0, 0, 0, 0, 0, 0⟩).illegal? = some .unusedField ∧
    (Instr.accclr ⟨.i64, 0, 0, 20, 0, 1, 0, 0, 0, 0, 0, 0, 0⟩).illegal? = some .unusedField ∧
    (Instr.mma ⟨.f64, 0, 8, 20, 21, 0, 0, 0, 0, 1, 0, 0, 0⟩).illegal? = some .unusedField ∧
    (Instr.accclr ⟨.i64, 0, 0, 20, 0, 0, 0, 0, 0, 0, 2, 0, 0⟩).illegal? = some .badModifier ∧
    (Instr.accrd ⟨.f64, 0, 12, 20, 0, 0, 0, 0, 0, 0, 0, 0, 0⟩).illegal? = some .badSlot := by decide

theorem test_ill_formed_S :
    (Instr.tret ⟨.n64, 0, 0, 0, 0, 0, 0⟩).illegal? = some .badType ∧ (Instr.tret ⟨.i64, 1, 0, 0, 0, 0, 0⟩).illegal? = some .badMask ∧
    (Instr.tret ⟨.i64, 0, 0, 1, 0, 0, 0⟩).illegal? = some .badRegister ∧ (Instr.sread ⟨.i64, 0, 0x41, 0, 1, 0, 0⟩).illegal? = some .badRegister ∧
    (Instr.sread ⟨.i64, 0, 0x41, 0, 0x20, 0, 0⟩).illegal? = some .unusedField ∧
    (Instr.trap ⟨.i64, 0, 0, 0, 0, 256, 0⟩).illegal? = some .badModifier ∧ (Instr.halt ⟨.i64, 0, 0, 0, 0, 0, 1⟩).illegal? = some .badSlot := by
  decide

theorem test_no_word_is_an_event : (Instr.clauseIssue 0).illegal? = some .notAWord ∧ decodeWord 0#64 = .error .unlistedOpcode ∧
    decodeWord 0x0970_0000_0000_0000#64 = .error .unlistedOpcode ∧ decodeHeader 0xC1A0_0000_0000_4000#64 = none := by
  refine ⟨by decide, rfl, rfl, rfl⟩

/-- ADD names v8 at a budget of 8 (R37); of v7 it is within it. -/
theorem test_budget : (Instr.add ⟨.i64, 0, 1, 2, 8, 0, 0, 0, 0⟩).inBudget 8 = false ∧ (Instr.add ⟨.i64, 0, 1, 2, 7, 0, 0, 0, 0⟩).inBudget 8 = true := by
  decide

/-! ### A small state -/

/-- A clause of one word at 0x1_0000, whose header has issued. -/
def clause0 : Clause := { addr := 0x10000, header := ⟨0, false, false, 0, 0⟩, words := [0x6020000000000000#64], idx := 0, issued := true }

/-- A role of eight lanes on core 0, in gang 1 of VMID 1, outside handler mode. -/
def role0 : Role :=
  { gang := 1, vmid := 1, nlanes := 8, budget := 16, pc := 0x10000, clause := some clause0, masks := [(0, 0xFF), (1, 0x0F)], tvec := 0x18000,
    limit := 64, rsbase := 0x20000, sregs := [(4, 0x10000), (5, 7), (6, 3), (7, 0x20000)] }

/-- Pages of 64 KiB that die 0 has translated for VMID 1: 0x1_0000 and 0x2_0000 plain, 0x4_0000 of accumulator lines. -/
def tlb0 : List TlbEntry :=
  [ { vmid := 1, asid := 0, va := 1, shift := 16, w0 := 0x30073, w1 := 0, leafAddr := 0xA010 },
    { vmid := 1, asid := 0, va := 2, shift := 16, w0 := 0x40033, w1 := 0, leafAddr := 0xA020 },
    { vmid := 1, asid := 0, va := 4, shift := 16, w0 := 0x60133, w1 := 0, leafAddr := 0xA040 } ]

/-- The tables of VMID 1, from ABASE 0 on: the ASID table, the five levels, and the leaves of those pages. -/
def tables : List Host.Cell :=
  [(0, 1), (1, 0x20), (0x2000, 1), (0x2001, 0x40), (0x4000, 1), (0x4001, 0x60), (0x6000, 1), (0x6001, 0x80), (0x8000, 1), (0x8001, 0xA0),
   (0xA010, 0x73), (0xA012, 3), (0xA020, 0x33), (0xA022, 4), (0xA040, 0x33), (0xA041, 1), (0xA042, 6)]

/-- Die 0: 32 slices, LEASE 32, VMIDs 0 and 1 admitted, a fault ring of 16 records, a key for VMID 1. -/
def die0 : DieState :=
  { hashsel := 0x80, regs := [(0x1008, 1), (0x4000, 32), (0x4100, 3), (0x6000, 0x700004)], tlb := tlb0, keys := [(0, 5), (1, 9)], attrs := [(6, { acc := true })] }

def gang0 : Gang := { vmid := 1, cores := [0], sp := 0x10000 }

/-- Role 0 issues from core 0. -/
def st0 : State :=
  { dies := [(0, die0), (1, {}), (2, {}), (3, {})], roles := [(0, role0)], cores := [(0, { slots := [(0, 0)], phase := .run 0 })],
    gangs := [(1, gang0)], nextGang := 2, nextRole := 1, boot := 0x10008, mem := tables }

/-- The small state with another role 0. -/
def stOf (r : Role) : State := { st0 with roles := [(0, r)] }
/-- The small state with another core 0. -/
def stCore (k : Core) : State := { st0 with cores := [(0, k)] }
/-- The small state with another die 0. -/
def stDie (d : DieState) : State := { st0 with dies := [(0, d), (1, {}), (2, {}), (3, {})] }

/-- The role after an instruction of `r`. -/
def after (i : Instr) (r : Role) : Option Role :=
  match exec i (stOf r) with
  | .next t => t.role? 0
  | _ => none

/-! ### One instruction each, against the spec's worked values -/

/-- A scalar register, CC and FPSTAT after an instruction of `r`. -/
def sAfter (i : Instr) (r : Role) (n : Nat) : Option (Word × Word × Word) := (after i r).map fun q => (q.sreg n, q.cc, q.fpstat)
/-- A lane of a vector register. -/
def vAfter (i : Instr) (r : Role) (n l : Nat) : Option Word := (after i r).map fun q => q.vreg n l
/-- Role 0 with s1 and s3 (s2 is a destination), and with lanes of v1. -/
def rS (a b : Word) : Role := { role0 with sregs := [(1, a), (3, b)] }
def fa (ty : Ty) (rm : BitVec 3) (mod : BitVec 11) : FmtA := ⟨ty, 0, 0x42, 0x41, 0x43, 0, rm, 0, mod⟩

/-! 13 Table 5, with CC as E at bit 4 (R211): Z, N, C, V at bits 0 to 3. -/
theorem test_add_carries : sAfter (.addImm ⟨.n32, 0, 0x42, 0x41, 1⟩) (rS 0xFFFFFFFF 1) 2 = some (0, 5, 0) := by decide +kernel
theorem test_add_saturates : sAfter (.add (fa .n32 0 1)) (rS 0xFFFFFFFF 1) 2 = some (0xFFFFFFFF, 0xE, 0) := by decide +kernel
theorem test_add_i32 : sAfter (.add (fa .i32 0 0)) (rS 0xFFFFFFFF 1) 2 = some (0, 5, 0) := by decide +kernel
theorem test_cmp_i32 : sAfter (.cmp (fa .i32 0 2)) (rS 0xFFFFFFFF 1) 2 = some (1, 6, 0) := by decide +kernel
theorem test_cmp_n32 : sAfter (.cmp (fa .n32 0 2)) (rS 0xFFFFFFFF 1) 2 = some (0, 6, 0) := by decide +kernel
/-- R287: a quotient by 0 writes all ones, and V is set (R292). -/
theorem test_div_by_zero : sAfter (.div (fa .i64 0 0)) (rS 7 0) 2 = some (BitVec.allOnes 64, 0xA, 0) := by decide +kernel

/-! 12 Table 4 through FADD and FMUL. -/
theorem test_fadd_rne : sAfter (.fadd (fa .f32 1 0)) (rS 0x3F800000 0x33C00000) 2 = some (0x3F800001, 0, 1) := by decide +kernel
theorem test_fadd_rtz : sAfter (.fadd (fa .f32 2 0)) (rS 0x3F800000 0x33C00000) 2 = some (0x3F800000, 0, 1) := by decide +kernel
theorem test_fadd_rup : sAfter (.fadd (fa .f32 3 0)) (rS 0x3F800000 0x33800000) 2 = some (0x3F800001, 0, 1) := by decide +kernel
theorem test_fadd_rdn : sAfter (.fadd (fa .f32 4 0)) (rS 0xBF800000 0xB3C00000) 2 = some (0xBF800001, 0, 1) := by decide +kernel
/-- 3 × 2^−150 in rne: 2 with UF and NX. -/
theorem test_fmul_subnormal : sAfter (.fmul (fa .f32 1 0)) (rS 0x00000003 0x3F000000) 2 = some (0x00000002, 0, 3) := by decide +kernel
/-- R275: a finite value by zero is an infinity with DZ. -/
theorem test_fdiv_by_zero : sAfter (.fdiv (fa .f64 1 0)) (rS 0x3FF0000000000000 0) 2 = some (0x7FF0000000000000, 0, 8) := by decide +kernel
/-- R268: 0 / 0 is the canonical NaN with INV. -/
theorem test_fdiv_invalid : sAfter (.fdiv (fa .f64 1 0)) (rS 0 0) 2 = some (0x7FF8000000000000, 0, 16) := by decide +kernel
/-- R294: −0 is below +0. -/
theorem test_fmin_zeros : sAfter (.fmin (fa .f64 0 0)) (rS 0 0x8000000000000000) 2 = some (0x8000000000000000, 0, 0) := by decide +kernel
/-- R296: an unordered .lt sets INV, and CC has N and V. -/
theorem test_fcmp_unordered : sAfter (.fcmp (fa .f32 0 2)) (rS 0x7FC00000 0) 2 = some (0, 0xA, 16) := by decide +kernel

/-! The examples of R297 and R298. -/
theorem test_fclass_f32 : sAfter (.fclass (fa .f32 0 0)) (rS 0x80000001 0) 2 = some (4, 0, 0) := by decide +kernel
theorem test_fclass_e4m3 : sAfter (.fclass (fa .e4m3 0 0)) (rS 0x7F 0) 2 = some (0x200, 0, 0) := by decide +kernel
theorem test_frnd : sAfter (.frnd (fa .f64 1 0)) (rS 0xBFE0000000000000 0) 2 = some (0x8000000000000000, 0, 1) := by decide +kernel
theorem test_fgetexp : sAfter (.fgetexp (fa .f16 0 0)) (rS 1 0) 2 = some (0xCE00, 0, 0) := by decide +kernel

/-! 13 Table 7: CVT.e4m3.f32.amax of 300, −500, 1.5 and −0. -/
def cvtRole (sat : Bool) : Role :=
  { role0 with masks := [(0, 0xF)], fmt := if sat then 9 else 1,
               vregs := [(1024 * 11, 0x43960000), (1024 * 11 + 1, 0xC3FA0000), (1024 * 11 + 2, 0x3FC00000), (1024 * 11 + 3, 0x80000000)] }
def cvtWord : Instr := .cvt ⟨.e4m3, 0, 10, 11, 0, 0, 0, 0, 0x19⟩
theorem test_cvt : (after cvtWord (cvtRole false)).map (fun q => ((List.range 5).map (q.vreg 10), q.amax, q.fpstat)) =
    some ([0x79, 0x7F, 0x3C, 0x80, 0], 0x407F400000000000, 5) := by decide +kernel
theorem test_cvt_saturates : (after cvtWord (cvtRole true)).map (fun q => ((List.range 4).map (q.vreg 10), q.amax, q.fpstat)) =
    some ([0x79, 0xFE, 0x3C, 0x80], 0x407F400000000000, 5) := by decide +kernel
/-- R303: an i type that UNPACK extracts is sign-extended. -/
theorem test_unpack : sAfter (.unpack ⟨.i8, 0, 0x42, 0x41, 0, 0, 0, 0, 2⟩) (rS 0x0000000000FE0000 0) 2 = some (0xFFFFFFFFFFFFFFFE, 0, 0) := by decide +kernel

/-! Cross-lane instructions and masks (R306-R309, R371). -/
def laneRole : Role := { role0 with vregs := (List.range 8).map fun l => (1024 + l, BitVec.ofNat 64 (l + 1)), masks := [(0, 0xFF), (1, 0x0F)] }
/-- An integer sum of the active lanes, and E with none (R211). -/
theorem test_vred_sum : sAfter (.vred ⟨.i64, 1, 0x42, 1, 0, 0, 0, 0, 0⟩) laneRole 2 = some (10, 0, 0) := by decide +kernel
theorem test_vred_no_lane : (sAfter (.vred ⟨.i64, 2, 0x42, 1, 0, 0, 0, 0, 0⟩) laneRole 2).map (fun p => p.2.1.getLsbD 4) = some true := by decide +kernel
/-- A lane takes from a lower one with a positive distance. -/
theorem test_vscan_excl : vAfter (.vscan ⟨.i64, 0, 2, 1, 0, 0, 0, 0, 0x10⟩) laneRole 2 3 = some 6 := by decide +kernel

/-! The masks and FMT of 18 Table 4: SPLIT, ELSE and JOIN. -/
def splitRole : Role := { laneRole with pc := 0x10000, clause := some { clause0 with addr := 0x10000 } }
def fullRole : Role := { splitRole with masks := [(0, 0x0F)], stack := [{ kind := .split, pc := 0x50000, mask := 0xF0, fmt := 1 }], depth := 1, fmt := 3 }
theorem test_split : (after (.split ⟨.i64, 0, 0, 1, 0, 0x8000⟩) splitRole).map (fun q => (q.mask 0, q.depth, q.stack.map fun e => e.mask)) =
    some (0x0F, 1, [0xF0]) := by decide +kernel
theorem test_else : (after (.els ⟨.i64, 0, 0, 0, 0, 0x8000⟩) fullRole).map (fun q => (q.mask 0, q.fmt, q.stack.map fun e => (e.kind, e.mask))) =
    some (0xF0, 1, [(.els, 0x0F)]) := by decide +kernel

/-! Exceptions (20 R406, 21 R433, R434, 09 R210): TRAP with code 5, the return, and a privileged register in user mode. -/
theorem test_trap : (after (.trap ⟨.i64, 0, 0, 0, 0, 5, 0⟩) role0).map (fun q => (q.handler, q.tcause, q.pc, q.tpc)) = some (true, 0x85, 0x18000, 0x10010) := by decide +kernel
theorem test_tret : (after (.tret ⟨.i64, 0, 0, 0, 0, 0, 0⟩) { role0 with handler := true, tpc := 0x20000 }).map (fun q => (q.handler, q.pc)) = some (false, 0x20000) := by decide +kernel
theorem test_privileged_write : (after (.swrite ⟨.i64, 0, 0, 0x44, 0x30, 0, 0⟩) role0).map (fun q => (q.handler, q.tcause)) = some (true, 0x02) := by decide +kernel
/-- R215: the clause's word stands 8 bytes past its header. -/
theorem test_trap_pc : (after (.tret ⟨.i64, 0, 0, 0, 0, 0, 0⟩) role0).map (fun q => q.tpc) = some 0x10008 := by decide +kernel

/-! Physical addresses (02 R57-R60): the worked address, its alias, and its slice. -/
theorem test_slice : sliceOf 32 (lineOf 0x0012_3456_7880) = 25 ∧ sliceOf 31 (lineOf 0x0012_3456_7880) = 24 ∧ sliceOf 30 (lineOf 0x0012_3456_7880) = 23 := by decide +kernel
theorem test_alias : canonPA 0x0091_A2B3_E880 = 0x0012_3456_7880 := by decide +kernel

/-! The choices of 19 Table 6 (R404): A in slot 0 yields, B in slot 1, both of priority 2; C in slot 2 of priority 0. -/
def yielding : Role := { role0 with clause := some { clause0 with header := ⟨0, true, false, 0, 0⟩, issued := false } }
def choice (last a b c : Nat) : Option Nat :=
  let s : State := { stCore { slots := [(0, 0), (1, 1), (2, 2)], phase := .choose, last := some last } with
    roles := [(0, { yielding with count := a, prio := 2 }), (1, { role0 with slot := 1, count := b, prio := 2 }), (2, { role0 with slot := 2, count := c })] }
  match exec (.issueOpportunity 0) s with
  | .next t => (t.core 0).last
  | _ => none
theorem test_yield : choice 0 0 4 47 = some 1 := by decide +kernel
theorem test_urgent : choice 1 1 0 48 = some 2 := by decide +kernel
theorem test_larger_count : choice 2 2 1 0 = some 1 := by decide +kernel

/-! ### Witnesses: for each statement with hypotheses, states and operands that meet them -/

theorem pair_ex {α β : Type} {p : α × β} {a : α} (h : p.1 = a) : ∃ b, p = (a, b) := ⟨p.2, by rw [← h]⟩
theorem triple_ex {α β γ : Type} {p : α × β × γ} {b : β} (h : p.2.1 = b) : ∃ a c, p = (a, b, c) := ⟨p.1, p.2.2, by rw [← h]⟩
theorem first_ex {α β γ : Type} {p : α × β × γ} {a : α} (h : p.1 = a) : ∃ b c, p = (a, b, c) := ⟨p.2.1, p.2.2, by rw [← h]⟩
theorem cons_ex {α : Type} {l : List α} (h : l.isEmpty = false) : ∃ a rest, l = a :: rest := by
  cases l with
  | nil => simp at h
  | cons a rest => exact ⟨a, rest, rfl⟩
theorem ok_ex {ε α : Type} {p : Except ε α} (h : p.toOption.isSome = true) : ∃ a, p = .ok a := by
  cases p with
  | ok a => exact ⟨a, rfl⟩
  | error e => simp [Except.toOption] at h
theorem err_ex {ε α : Type} {p : Except ε α} (h : p.toOption.isSome = false) : ∃ e, p = .error e := by
  cases p with
  | ok a => simp [Except.toOption] at h
  | error e => exact ⟨e, rfl⟩

theorem okfst_ex {ε α β : Type} {p : Except ε α × β} (h : p.1.toOption.isSome = true) : ∃ a b, p = (.ok a, b) := by
  obtain ⟨a, ha⟩ := ok_ex h
  exact ⟨a, pair_ex ha⟩

theorem witness_issuing : Issuing st0 role0 := rfl

/-- IntegerArithmetic, IntegerOrderLogicAndShifts: an integer type, the last shift amount, a field that ends at bit 63. -/
theorem witness_integers : Issuing st0 role0 ∧ Ty.i64.isInt = true ∧ (63#31).toNat < 64 ∧ (60#7).toNat + ((3#7).toNat + 1) ≤ Ty.i64.width :=
  ⟨rfl, rfl, by decide, by decide⟩

/-- MovesSelectsAndComparisons: SEL and CMP in the scalar, the vector and the mask form. -/
theorem witness_moves : Issuing st0 role0 ∧ (Instr.sel ⟨.i64, 0, 0x41, 0x42, 0x43, 0, 0, 0, 4⟩).wf = true ∧
    (Instr.sel ⟨.i64, 0, 1, 2, 3, 4, 0, 0, 0⟩).wf = true ∧ (Instr.cmp ⟨.i64, 0, 2, 3, 4, 0, 0, 0, 0x0D⟩).wf = true ∧
    (Instr.cmp ⟨.n8, 0, 0x42, 0x43, 0x44, 0, 0, 0, 5⟩).wf = true := ⟨rfl, by decide, by decide, by decide, by decide⟩

/-- RoundingIsCorrect: 3 × 2^−150 in f32 rounds to a finite value in every mode (12 Table 4). -/
theorem witness_rounding : ∀ m : RMode, ∃ n k d, Fmt.decode .f32 (roundTo .f32 m false 3 (-150) false).1 = .fin n k d
  | .rne => ⟨_, _, _, rfl⟩
  | .rtz => ⟨_, _, _, rfl⟩
  | .rup => ⟨_, _, _, rfl⟩
  | .rdn => ⟨_, _, _, rfl⟩

/-- The floating-point statements: a type with a format, FCMP with and without MD, and elements of each order. -/
theorem witness_floats : Issuing st0 role0 ∧ Ty.bf16.fmt? = some .bf16 ∧ (Instr.fcmp ⟨.f64, 0, 2, 3, 4, 0, 0, 0, 15⟩).wf = true ∧
    (Instr.fcmp ⟨.f64, 0, 0x42, 0x43, 0x44, 0, 0, 0, 7⟩).wf = true ∧ (Fmt.decode .f64 0x7FF8000000000000).isNan = true ∧
    fCompare (Fmt.decode .f64 0) (Fmt.decode .f64 0x3FF0000000000000) = .lt ∧ fCompare (Fmt.decode .f64 0x3FF0000000000000) (Fmt.decode .f64 0) = .gt :=
  ⟨rfl, rfl, by decide, by decide, by decide +kernel, by decide +kernel, by decide +kernel⟩

/-- Conversions: .amax and packed modifiers, a PACK of the last element, and a product that CVTS scales. -/
theorem witness_conversions : Issuing st0 role0 ∧ (0x0F#11).toNat < 16 ∧ (0x20#11).getLsbD 5 = true ∧ (0x20#11).getLsbD 4 = false ∧
    (Instr.pack ⟨.i8, 0, 1, 2, 3, 0, 0, 0, 7⟩).wf = true ∧
    ∃ v, (Fmt.decode .f32 0x3F800000).mul (Fmt.decode .f32 0x40000000) = some v :=
  ⟨rfl, by decide, by decide, by decide, by decide, _, by rfl⟩

/-- LanesMoveReduceAndVote, MaskInstructions: vector and scalar destinations, a role with active lanes and one without. -/
theorem witness_lanes : Issuing st0 role0 ∧ RegName.isScalar 1 = false ∧ RegName.isScalar 0x41 = true ∧ 0 < role0.nlanes ∧
    role0.nlanes ≤ 1024 ∧ role0.active 1 = [0, 1, 2, 3] ∧ role0.active 2 = [] := ⟨rfl, rfl, rfl, by decide, by decide, by decide +kernel, by decide +kernel⟩

/-- WordsFollowOneAnother: a clause at its first word of two, and at its last. -/
theorem witness_words : ∀ k, k < 2 → ∃ c : Clause, c.header.count = 1 ∧ c.words.length = c.header.count.toNat + 1 ∧ c.idx = k :=
  fun k _ => ⟨⟨0, ⟨0, false, false, 0, 1⟩, [0, 0], k, true⟩, rfl, rfl, rfl⟩

/-- A stack entry that a CALL makes. -/
def call0 : StackEntry := { kind := .call, pc := 0x50000, mask := 0xF, fmt := 1 }
def path0 (k : EntryKind) (m : LaneMask) : StackEntry := { kind := k, pc := 0x50000, mask := m, fmt := 1 }

/-- BranchesCallsAndReturns: a target that may be taken, the three that may not (page 1 holds no header at 0x1_0000), a push, and a
RET with a CALL entry and with another on top. -/
theorem witness_branches : (∃ s1, Arrives st0 role0 0x50000 s1) ∧ canonical 0x0100000000000000 = false ∧ (0x50004#64).toNat % 8 ≠ 0 ∧
    (∃ s1, st0.targetHeader 0 role0 0x10000 = (false, s1)) ∧ (∃ p, st0.pushEntries 0 role0 [call0] = .ok p) ∧
    (∃ e, st0.pushEntries 0 { role0 with limit := 0 } [call0] = .error e) ∧
    (stOf { role0 with stack := [call0], depth := 1 }).fillTop 0 { role0 with stack := [call0], depth := 1 } 1 =
      .ok ({ role0 with stack := [call0], depth := 1 }, stOf { role0 with stack := [call0], depth := 1 }) ∧ role0.depth = 0 ∧ role0.stack = [] :=
  ⟨(pair_ex (p := st0.targetHeader 0 role0 0x50000) (by decide +kernel)).imp fun _ h => ⟨Or.inl (by decide), rfl, h⟩, by decide +kernel, by decide, pair_ex (by decide +kernel), ok_ex (by decide +kernel), err_ex (by decide +kernel), rfl, rfl, rfl⟩

/-- PathsAndLoops: SPLIT with lanes on both paths and with none on the first; every kind of entry on top, empty and not; a BRK and a
CONT that leave lanes and that leave none. -/
theorem witness_paths : role0.mask 0 &&& lowLanes 8 &&& role0.mask 1 = 0x0F ∧ role0.mask 0 &&& lowLanes 8 &&& role0.mask 2 = 0 ∧
    (∃ p, st0.pushEntries 0 role0 [path0 .split 0xF0] = .ok p) ∧ (∃ p, st0.pushEntries 0 role0 [path0 .loop 0xFF, path0 .loop 0xFF] = .ok p) ∧
    role0.mask 0 &&& ~~~0x0F#1024 ≠ 0 ∧ role0.mask 0 &&& ~~~(role0.mask 0) = 0 ∧
    ∀ k m, ∃ r : Role, Issuing (stOf r) r ∧ r.stack = [path0 .split 0, path0 k m, path0 .loop 0] :=
  ⟨by decide +kernel, by decide +kernel, ok_ex (by decide +kernel), ok_ex (by decide +kernel), by decide +kernel, by decide +kernel,
   fun k m => ⟨{ role0 with stack := [path0 .split 0, path0 k m, path0 .loop 0] }, rfl, rfl⟩⟩

/-- A role with a full hardware stack, one whose entries have all been spilled, and memory with a spilled LOOP entry at its RSBASE. -/
def deep : Role := { role0 with stack := List.replicate 32 call0, depth := 32 }
def spilled : Role := { role0 with depth := 1 }
def stLoop : State :=
  { st0 with mem := (path0 .loop 0xF).words.zipIdx.foldl (fun m p => writeBytes m (0x40000 + 8 * p.2) p.1.toNat 8) tables }

/-- The places of the lowest entry in the stack area. -/
def area0 : List Spot := (st0.spots spilled (.stack false) 8 8 ((List.range 20).map fun k => ((0x20000 + 8 * k : Nat) : Int))).1.toOption.getD []
/-- A role that has put a word there. -/
def marked : Role := { spilled with spilled := (area0.take 1).map fun x => (x.place, 1) }

/-- TheStack: a push at the limit and beyond it, a push that spills, a pop that fills, entries of each kind, and a word that another agent
has changed. -/
theorem witness_stack : (role0.limit < role0.depth + 65 ∧ role0.depth + 64 ≤ role0.limit ∧ deep.stack.length = 32 ∧ deep.depth + 1 ≤ deep.limit) ∧
    (∃ xs s1, st0.spots deep (.stack true) 8 8 ((List.range 20).map fun k => ((deep.rsbase.toNat + 160 * (deep.depth - 32) + 8 * k : Nat) : Int))
      = (.ok xs, s1)) ∧
    (∃ xs s1, st0.spots spilled (.stack false) 8 8 ((List.range 20).map fun k => ((spilled.rsbase.toNat + 160 * 0 + 8 * k : Nat) : Int))
      = (.ok xs, s1)) ∧
    (st0.windowOpen 0 deep = false ∧ st0.busyOps 0 deep = false ∧ spilled.stack = []) ∧ (∀ ws, spilled.areaChanged ws = false) ∧
    (let ws := area0.zip call0.words
     marked.areaChanged ws = true ∧ (entryOfWords 8 (marked.readBack ws 0)).isSome = true) ∧
    canonical call0.pc = true ∧ call0.fmt.toNat < 1024 ∧ call0.mask.toNat < 2 ^ 8 := by
  refine ⟨by decide +kernel, okfst_ex (by decide +kernel), okfst_ex (by decide +kernel), by decide +kernel, fun ws => ?_, by decide +kernel, by decide +kernel⟩
  exact List.any_eq_false.mpr fun _ _ => by simp [spilled, role0, Sparse.find]

/-- PathsAndLoops: a LOOP entry that stands in memory alone, and its mask written there. -/
theorem witness_spilled_loop : ∃ i s2 ws s3 x q s4, stLoop.findSpilled 0 spilled 1 = .ok (i, s2) ∧ s2.stackWords 0 spilled i 20 = .ok (ws, s3) ∧
    entryOfWords 8 ws = some x ∧ s3.stackWrite 0 spilled [(0x20010, x.words.getD 2 0)] = .ok (q, s4) := by
  let a := stLoop.findSpilled 0 spilled 1
  have h : ((a.toOption.bind fun p => (p.2.stackWords 0 spilled p.1 20).toOption).bind fun p => (entryOfWords 8 p.1).bind fun x =>
      (p.2.stackWrite 0 spilled [(0x20010, x.words.getD 2 0)]).toOption).isSome = true := by decide +kernel
  match ha : a with
  | .error e => simp [Except.toOption] at h
  | .ok (i, s2) => match hw : s2.stackWords 0 spilled i 20 with
    | .error e => simp [Except.toOption, hw] at h
    | .ok (ws, s3) => match hx : entryOfWords 8 ws with
      | none => simp [Except.toOption, hw, hx] at h
      | some x =>
        simp only [Except.toOption, hw, hx, Option.bind] at h
        obtain ⟨p, hp⟩ := ok_ex h
        exact ⟨i, s2, ws, s3, x, p.1, p.2, ha, hw, hx, hp⟩

/-- ModesNopAndExit: a legal RM, an illegal one, a closed window and an open one. -/
theorem witness_modes : (4#64).toNat % 8 ≤ 4 ∧ ¬(1 ≤ (5#64).toNat % 8 ∧ (5#64).toNat % 8 ≤ 4) ∧ st0.windowOpen 0 role0 = false ∧
    role0.ended = false ∧ role0.pend = [] := ⟨by decide, by decide, rfl, rfl, rfl⟩

/-- The elements of a vector store or load of f64 at an address. -/
def row (r : Role) (e : Int) : List ElemReq := inARow r 2 0 e 8 .load

/-- An operation with one element at 0x1_0008, of the given kind. -/
def op0 (k : OpKind) : Op :=
  { rid := 0, pc := 0x10000, kind := k, ty := .f64, dst := some 0x42, ws := 1,
    waiting := [{ lane := 0, va := 0x10008, target := .mem 0x600 8 ⟨0x200, 0, 1, none⟩ ⟨true, true, false, false, 0⟩ false false }] }

/-- OperationStarts: operations with a destination and without one. -/
theorem witness_operation : st0.role? 0 = some role0 ∧ (∀ p ∈ (st0.core role0.core).ops, p.2.sent ≠ 0 ∧ p.2.stop = .go) ∧
    (st0.core role0.core).weakL1 = [] ∧ ((op0 .load).kind ≠ .accRead ∧ (op0 .load).kind ≠ .accWrite ∧ (op0 .load).sent = 0 ∧ (op0 .load).stop = .go) ∧
    (∀ e ∈ (op0 .load).waiting, e.lane < 1024 ∧ ∀ pa, e.target ≠ .window pa) ∧ (∀ g ∈ (op0 .load).got, g.1 < 1024) ∧
    (op0 .load).dst = some 0x42 ∧ { op0 .store with dst := none, ws := 0 }.dst = none :=
  ⟨rfl, by decide, rfl, by decide, by simp [op0], by decide, rfl, rfl⟩

/-- A side-log entry of role 0 at 0x1_0000, and a core whose log holds `n` of them. -/
def log0 (n : Nat) : LogEntry :=
  { id := n, rid := 0, pc := 0x10000, addr := 0x10000, state := .logged cNOTPRESENT none, body := .elems .f64 .ordinary [(0, 0x10000, 0)], wver := 0 }
def stLog (n : Nat) : State := stCore { slots := [(0, 0)], phase := .run 0, log := (List.range n).map log0 }

/-- LoadsAndStoresIssue: elements that pass, one that fails a check of issue after one that passes, elements whose walks pass and one that
fails, an overlap with the log, an open window with room, without room and with 16 entries, and offsets at the bounds of the window. -/
theorem witness_loads_and_stores :
    (∀ e ∈ row role0 0x10000, st0.issueCause role0 .load e.ea 8 8 = none) ∧ (∀ e ∈ row role0 0x10000, st0.issueCause role0 .store e.ea 8 8 = none) ∧
    st0.issueCause role0 .load 0x10004 8 8 = some cALIGN ∧
    (∃ xs s1, st0.targetsOf role0 .load none true true 8 (row role0 0x10000) = (xs, none, s1)) ∧
    (∃ xs w e rest s1, st0.targetsOf role0 .store none true true 8 (row role0 0x2FFF8) = (xs, some (.fault w, e :: rest), s1)) ∧
    (∃ e ∈ row role0 0x10000, (stLog 1).overlapsLog 0 role0 e.ea.toNat 8 = true) ∧ (∀ e ∈ row role0 0x10000, st0.overlapsLog 0 role0 e.ea.toNat 8 = false) ∧
    (stLog 1).windowOpen 0 role0 = true ∧ st0.windowOpen 0 role0 = false ∧ 16 ≤ (((stLog 16).core 0).entriesOf 0).length ∧
    (((stLog 1).core 0).entriesOf 0).length < 16 ∧ ((stLog 1).core 0).logRoom (.elems .f64 .ordinary [(0, 0x10000, 0)]) = true ∧
    ((stCore { log := (List.range 64).map fun n => { log0 n with rid := n } }).core 0).logRoom (.elems .f64 .ordinary [(0, 0x10000, 0)]) = false ∧
    ¬(0 ≤ (2 ^ 40 : Int) ∧ (2 ^ 40 : Int) < 2 ^ 40) := by
  refine ⟨by decide +kernel, by decide +kernel, by decide +kernel, triple_ex (by decide +kernel), ?_, by and_intros <;> decide +kernel⟩
  have h : (st0.targetsOf role0 .store none true true 8 (row role0 0x2FFF8)).2.1 = some (.fault cNOTPRESENT, (row role0 0x2FFF8).tail) := by
    decide +kernel
  obtain ⟨e, rest, he⟩ := cons_ex (l := (row role0 0x2FFF8).tail) (by decide +kernel)
  obtain ⟨xs, s1, hx⟩ := triple_ex h
  exact ⟨xs, cNOTPRESENT, e, rest, s1, by rw [hx, he]⟩

/-- Bytes of page 1, which stands at physical address 0x3_0000. -/
def stMem (m : List Host.Cell) : State := { st0 with mem := tables ++ m }

/-- A line of page 1 in the L1 of core 0, with a lease up to `n`, beside a pts of 9. -/
def l1At (n : Nat) : L1Line := { tag := role0.tag 0x10000 none, line := 0x600, perm := ⟨true, true, false, false, 0⟩, data := 0, wts := 3, rts := n, pf := false }
def stHeld (n : Nat) : State := stCore { slots := [(0, 0)], phase := .run 0, pts := 9, l1 := [l1At n] }

/-- ScattersStreamsAndPrefetches: SCAT with and without a denied destination; STMC within the gang and beyond it; a stream record with a
reserved bit and without; a slot that is idle, one of the type and one of another direction; prefetches of a line that the L1 does not hold,
holds under its lease, and holds with a lease that has expired; one that is not made. -/
theorem witness_scatters :
    ((∀ e ∈ row role0 0x10000, st0.issueCause role0 .store e.ea 8 8 = none) ∧ (∀ e ∈ row role0 0x10004, st0.issueCause role0 .store e.ea 8 8 = some cALIGN) ∧
      st0.ringRoom 0 = true ∧ role0.ended = false ∧ (List.range 48).filter (fun k => (1#64).getLsbD k) = [0] ∧ (0 : Nat) < st0.gangCores 1 ∧
      (List.range 48).filter (fun k => (2#64).getLsbD k) = [1] ∧ st0.gangCores 1 ≤ 1 ∧ st0.gangSp 1 ≤ 2 ^ 20 ∧ (0 : Int) + ((8 * 7 + 8 : Nat) : Int) ≤ (st0.gangSp 1 : Int) ∧
      ((List.range 8).all fun l => st0.issueCause role0 .store (0xFFFFFD0000000000 + 8 * (l : Int)) 8 8 == none) = true) ∧
    (∃ ws s1, st0.loadRecord role0 .load 0x10000 8 64 = (.ok ws, s1)) ∧
    ((stMem [(0x30008, 0x10)]).loadRecord role0 .load 0x10000 8 64).1.toOption = some [0, 0x10, 0, 0, 0, 0, 0, 0] ∧
    (0x10#64 &&& 0xFFFFFFFF00FCFEF0#64) ≠ 0 ∧ role0.streams.find 0 = none ∧
    (∃ m s1, st0.walk { role0.walker none with core := none } .prefetch 0x10000 = (.ok m, s1)) ∧
    (canonRange 0x10000 1 = true ∧ onChip 0x10000 = false ∧ onChip 0xFFFFFE0000000000 = true) ∧
    ((st0.core 0).l1? (role0.tag 0x10000 none) = none ∧ ((stHeld 40).core 0).l1? (role0.tag 0x10000 none) = some (l1At 40) ∧ (stHeld 40).core 0 = { (stHeld 40).core 0 with pts := 9 } ∧
      ((stHeld 5).core 0).l1? (role0.tag 0x10000 none) = some (l1At 5)) := by
  refine ⟨by and_intros <;> decide +kernel, okfst_ex (by decide +kernel), by decide +kernel, by decide, rfl, ?_, by decide +kernel, by decide +kernel⟩
  have h : ∀ p : WalkRes × State, (match p.1 with | .ok _ => true | _ => false) = true → ∃ m s1, p = (.ok m, s1) := by
    intro p hp
    match p, hp with
    | (.ok m, s1), _ => exact ⟨m, s1, rfl⟩
  exact h _ (by decide +kernel)

/-- A stream of four f64 elements that loads. -/
def stream0 : Stream := { base := 0x10000, pfd := 0, ndim := 1, dir := false, ty := .f64, counts := [4, 1, 1, 1], strides := [8, 0, 0, 0], pos := 0 }

/-- ScattersStreamsAndPrefetches: an LDSP of the stream's type, and its elements; for STSP it has the wrong direction. -/
theorem witness_stream : { role0 with streams := [(0, stream0)] }.streams.find 0 = some stream0 ∧ stream0.ty = .f64 ∧ stream0.dir ≠ true ∧
    ∀ j, j < 4 → st0.issueCause role0 .load (stream0.addr j) 8 8 = none := by
  refine ⟨rfl, rfl, by decide, fun j h => ?_⟩
  match j, h with
  | 0, _ | 1, _ | 2, _ | 3, _ => decide +kernel

/-- AtomicsAndTheirElements: elements that pass and one that fails; an open window; an integer and a float type; a reduction to an
accumulator page. -/
theorem witness_atomics : (∀ e ∈ row role0 0x10000, st0.issueCause role0 .atomic e.ea 8 8 = none) ∧ st0.issueCause role0 .atomic 0x10004 8 8 = some cALIGN ∧
    (∃ xs s1, st0.targetsOf role0 .atomic none false false 8 (row role0 0x10000) = (xs, none, s1)) ∧
    ((st0.targetsOf role0 .atomic none false false 8 (row role0 0x50000)).2.1.isSome = true ∧ (stLog 1).windowOpen 0 role0 = true ∧
      (∀ e ∈ inARow role0 2 0 0x40000 16 .store, st0.issueCause role0 .reduction e.ea 16 16 = none) ∧ st0.issueCause role0 .reduction 0x40008 16 16 = some cALIGN) ∧
    (∃ us s1, st0.redElems role0 0 role0.ipc .add 0 .i64 [] ((inARow role0 2 0 0x40000 16 .store).map fun e => (e.lane, e.ea.toNat, e.data)) = (none, us, s1)) ∧
    (Ty.f32.fmt? = some .f32 ∧ Ty.n32.isInt = true ∧ 2 ^ 32 - 1 < 2 ^ Ty.n32.width) ∧ (st0.core role0.core).refused.length < 32 ∧
    ((stCore { log := [{ log0 0 with body := .accWrite 0x40000 false .clr }] }).loggedClear 0 role0 0x40010 16 = true) := by
  refine ⟨by decide +kernel, by decide +kernel, triple_ex (by decide +kernel), ⟨by decide +kernel, by decide +kernel, by decide +kernel, by decide +kernel⟩,
    first_ex (by decide +kernel), ⟨rfl, rfl, by decide⟩, by decide +kernel, by decide +kernel⟩

/-- CountersFencesAndTheScratchpad: a counter that passes its checks, at 0 and at 2^64 − 1; a release that may take its place and one that
waits for an earlier store; bindings of each kind; the gang's scratchpad. -/
theorem witness_counters : (∃ x s1, CounterAt st0 role0 0x10000 x s1) ∧
    (∃ x s1, CounterAt (stMem ((List.range 8).map fun k => (0x30000 + k, 255#8))) role0 0x10000 x s1 ∧ 2 ^ 64 ≤ s1.spotPeek role0 x 8 + 1) ∧
    st0.releaseReady 0 role0 4 = true ∧ (stCore { ops := [(0, op0 .store)] }).releaseReady 0 role0 4 = false ∧
    (stCore { ops := [(0, op0 .store)] }).windowOpen 0 role0 = false ∧ st0.fenceReady 0 role0 4 = true ∧
    (stCore { ops := [(0, op0 .store)] }).fenceReady 0 role0 4 = false ∧ role0.queues.find 3 = none ∧
    { role0 with queues := [(3, .localCtx)] }.queues.find 3 = some .localCtx ∧ st0.gang? role0.gang = some gang0 ∧ st0.spadCheck role0.gang 0 0 = (st0, false) := by
  have key : ∀ s : State, s.windowOpen s.cur role0 = false → s.issueCause role0 .counter 0x10000 8 8 = none →
      s.opsDue s.cur role0 (fun o e => decide (e.va < (0x10000 : Int).toNat + 8) && decide ((0x10000 : Int).toNat < e.va + o.ty.bytes)) = false →
      (s.spot role0 .counter none false 0x10000 8).1.toOption.isSome = true → ∃ x s1, CounterAt s role0 0x10000 x s1 := by
    intro s h1 h2 h3 h4
    obtain ⟨x, s1, h⟩ := okfst_ex h4
    exact ⟨x, s1, h1, h2, h3, h⟩
  refine ⟨key _ rfl (by decide +kernel) (by decide +kernel) (by decide +kernel), ?_, by decide +kernel, by decide +kernel, by decide +kernel, by decide +kernel,
    by decide +kernel, rfl, rfl, rfl, rfl⟩
  let s := stMem ((List.range 8).map fun k => (0x30000 + k, 255#8))
  have h : ((s.spot role0 .counter none false 0x10000 8).1.toOption.any fun x => decide (2 ^ 64 ≤ (s.spot role0 .counter none false 0x10000 8).2.spotPeek role0 x 8 + 1)) = true := by
    decide +kernel
  obtain ⟨x, s1, hx⟩ := okfst_ex (p := s.spot role0 .counter none false 0x10000 8) (by decide +kernel)
  rw [hx] at h
  exact ⟨x, s1, ⟨rfl, by decide +kernel, by decide +kernel, hx⟩, of_decide_eq_true h⟩

/-- ScattersStreamsAndPrefetches: a slot whose stream has the type and direction of LDSP, and counts and strides of four dimensions. -/
theorem witness_streams : { role0 with streams := [(0, stream0)] }.streams.find 0 = some stream0 ∧ stream0.dir = false ∧ stream0.ty = .f64 ∧
    stream0.pos ≤ stream0.len ∧ stream0.ndim = 1 ∧ { stream0 with dir := true }.dir = true ∧ stream0.counts = [4, 1, 1, 1] ∧
    stream0.strides = [8, 0, 0, 0] := ⟨rfl, rfl, rfl, by decide, rfl, rfl, rfl, rfl⟩

/-- Line 0x600 is at physical address 0x3_0000, whose home is die 0; line 2^30 has die 1 for its home. -/
def line0 (st : Moesi) (k : LineKind) (line : Nat) : SliceLine :=
  { line := line, kind := k, vmid := 1, st := st, wts := 3, rts := 20, dirty := false, data := 0 }
def stLine (l : SliceLine) : State :=
  { st0 with dies := [(0, { die0 with lines := [l] }), (1, { keys := [(1, 9)] }), (2, {}), (3, {})] }
/-- A line of host memory, whose proxy is die 0. -/
def hostLine0 : Nat := lineOf hostBase
def ldReq (old : Option Nat) : LdReqMsg :=
  { core := 0, op := some 0, line := 0x600, vmid := 1, tag := ⟨0x200, 0, 1, none⟩, perm := ⟨true, true, false, false, 0⟩, p := 1, oldWts := old,
    view := false, acc := false, l2only := false }
def stReq (line : Nat) : StReqMsg :=
  { core := 0, op := 0, lane := 0, line := line, vmid := 1, tag := ⟨0x200, 0, 1, none⟩, off := 120, ty := .f64, size := 8, data := 5, elem := .store,
    cls := .ordinary, p := 1 }

/-- SlicesServeLoadsAndStores: a readable line with the requester's wts and with another, and a line in M at its home, away from it, and of the
host's memory. -/
theorem witness_slices : (∀ w, (ldReq w).acc = false ∧ (ldReq w).view = false) ∧ (line0 .S .copy 0x600).st ≠ .I ∧
    (let s := stLine (line0 .S .copy 0x600)
     (s.die 0).copy? 0x600 = some (line0 .S .copy 0x600) ∧ s.homeLost 0x600 = false ∧ s.keyMissing 0x600 1 = false ∧ s.lineVmid? 0x600 = some 1 ∧
       (s.die 0).badL2 = [] ∧ (s.die 0).weakL2 = []) ∧
    (∀ n ∈ [0x600, 2 ^ 30, hostLine0], let s := stLine (line0 .M .copy n)
     (s.die 0).copy? n = some (line0 .M .copy n) ∧ s.homeLost n = false ∧ s.keyMissing n 1 = false ∧ s.lineVmid? n = some 1 ∧
       (stReq n).off + (stReq n).size ≤ 128) ∧
    [0x600, 2 ^ 30, hostLine0].map (fun n => (st0.homeOf n, isHostLine n)) = [(0, false), (1, false), (0, true)] := by
  refine ⟨fun _ => ⟨rfl, rfl⟩, by decide, ?_, ?_, by decide +kernel⟩
  · and_intros <;> decide +kernel
  · decide +kernel

/-- Replies to the operation of core 0: a load's, a store's, the scratchpad's, and one with an error. -/
def ldRep (err : Option Nat) : LdReply := { req := ldReq (some 3), data := 0, wts := 3, rts := 40, error := err }
def stRep : StReply := { req := stReq 0x600, wts := 21, prev := 3, old := 0, new := 5, bytes := 0, error := none }
def spadReq : SpadReq := { core := 0, op := 0, lane := 0, gang := 1, rank := 0, off := 8, ty := .f64, size := 8, data := 5, elem := .add, p := 1 }
def stOp (k : OpKind) : State := stCore { ops := [(0, op0 k)], l1 := [l1At 20] }

/-- RepliesCompleteOperations: a core whose one operation waits for one element of a line, or of the scratchpad, and the replies to it. -/
theorem witness_replies : (∀ k, ((stOp k).core 0).ops = [(0, op0 k)] ∧ (op0 k).rid = 0 ∧ (op0 k).got = [] ∧ (op0 k).stop = .go ∧
      (stOp k).role? 0 = some role0 ∧ ((stOp k).core 0).entriesOf 0 = []) ∧
    (∀ k, ∃ e, (op0 k).waiting = [e] ∧ e.target = .mem 0x600 8 ⟨0x200, 0, 1, none⟩ ⟨true, true, false, false, 0⟩ false false) ∧
    (RegName.isScalar 0x42 = true ∧ (ldRep none).req.op = some 0 ∧ max ((stOp .load).core 0).pts (ldRep none).wts ≤ (ldRep none).rts ∧
      ((stOp .load).core 0).l1? (ldRep none).req.tag = some (l1At 20) ∧ (ldRep none).req.oldWts = some (l1At 20).wts) ∧
    ((stOp .store).spadCheck 1 0 8 = (stOp .store, false) ∧ (stOp .store).gang? 1 = some gang0 ∧ (ldRep (some cDATA_ERROR)).error = some cDATA_ERROR ∧
      stRep.error = none ∧ spadReq.op = 0 ∧ role0.ended = false ∧ (stOp .load).ringRoom 0 = true ∧
      ({ stOp .load with dies := [(0, { die0 with regs := [] }), (1, {}), (2, {}), (3, {})] } : State).ringRoom 0 = false) := by
  refine ⟨fun k => ⟨rfl, rfl, rfl, rfl, rfl, rfl⟩, fun _ => ⟨_, rfl, rfl⟩, ?_, ?_⟩ <;> and_intros <;> decide +kernel

/-- LogicalTimeAges: a core that an L1 hit has used and one that none has. -/
theorem witness_ages : (st0.core 0).hitSince = false ∧ ((stCore { hitSince := true }).core 0).hitSince = true := ⟨rfl, rfl⟩

def entry0 (st : Moesi) (shr : BitVec 5) : DirEntry := { line := 0x600, st := st, shr := shr, own := 1, hts := 9 }
def stHome (e : DirEntry) (tx : List HomeTx) : State := stDie { die0 with t0 := [(hash0 0x600, e)], homeTx := tx }

/-- HomesAndTheirEntries: entries in each state, a busy line and a quiet one, a victim that one agent has still to answer, and a line without an
entry whose slot is free. -/
theorem witness_homes : (∀ st, ((stHome (entry0 st 0) []).die 0).entry? 0x600 = some (entry0 st 0) ∧ (stHome (entry0 st 0) []).homeCheck 0x600 = (stHome (entry0 st 0) [], false) ∧
      ((stHome (entry0 st 0) []).die 0).busy 0x600 = false) ∧
    (∀ st, NoneWait (stHome (entry0 st 0) []) 0) ∧
    ((stHome (entry0 .S 1) [{ line := 0x600, req := .getm, a := 1, acks := [2], forwarded := true, upgrade := false }]).die 0).busy 0x600 = true ∧
    ((entry0 .S (1#5 <<< 2)).shr = 1#5 <<< 2 ∧ (entry0 .S (1#5 <<< 1 ||| 1#5 <<< 2)).shr = (1#5 <<< 1) ||| (1#5 <<< 2)) ∧
    ((st0.die 0).entry? 0x600 = none ∧ (st0.die 0).t0.find (hash0 0x600) = none ∧ st0.homeOf 0x600 = 0 ∧ st0.homeCheck 0x600 = (st0, false)) ∧
    ((stDie { die0 with victims := [{ entry := entry0 .S 2, waiting := [1] }] }).die 0).victims = [{ entry := entry0 .S 2, waiting := [1] }] ∧
    ((stDie { die0 with homeQ := [(.gets, 0x600, 1)] }).die 0).homeQ = [(.gets, 0x600, 1)] ∧
    ((stDie { die0 with homeQ := [(.gets, 0x600, 1)] }).die 0).busy 0x600 = false ∧
    ((stDie { die0 with insertQ := [(.gets, 0x600, 1)] }).die 0).insertQ = [(.gets, 0x600, 1)] := by
  refine ⟨fun st => ?_, fun st => ⟨rfl, rfl, fun d _ => ?_⟩, by decide +kernel, by decide, by decide +kernel, rfl, rfl, by decide +kernel, rfl⟩
  · cases st <;> decide +kernel
  · match d with
    | 0 | 1 | 2 | 3 | _ + 4 => rfl

/-- Die 1 holds line 0x600, whose home is die 0, in a state. -/
def stAgent (st : Moesi) (x : DieState) : State :=
  { st0 with dies := [(0, { die0 with t0 := [(hash0 0x600, entry0 .M 0)], lines := [line0 .O .mirror 0x600] }), (1, { x with lines := [line0 st .copy 0x600] }), (2, {}), (3, {})] }
def tx0 (write : Bool) : AgentTx := { line := 0x600, vmid := 1, write := write, data := none, hts := 0, gnt := false, needGnt := false }

def stData (a : AgentTx) : State := { st0 with dies := [(0, die0), (1, { agentTx := [a] }), (2, {}), (3, {})] }
def mir0 (r : Option StReply) : MirWait := { line := 0x600, wts := 21, reply := r }

/-- AgentsInstallAndAnswer: an agent that holds a line in each state with nothing on its way, one with an upgrade, a load or a mirrored store in
flight, and a home whose mirror stands for an owner elsewhere. -/
theorem witness_agents : (∀ st, ((stAgent st {}).die 1).copy? 0x600 = some (line0 st .copy 0x600)) ∧ (∀ st, Settled (stAgent st {}) 1 0x600) ∧
    ((line0 .S .copy 0x600).kind = .copy ∧ (stAgent .S {}).homeOf 0x600 = 0) ∧
    (((stAgent .S { agentTx := [tx0 true] }).die 1).agentTx = [tx0 true] ∧ ((stData (tx0 false)).die 1).lines = [] ∧
      ((stData (tx0 false)).die 1).agentTx = [tx0 false] ∧ ((stData (tx0 false)).die 1).waitLd = []) ∧
    (∀ r, ((stAgent .M { mirWait := [mir0 r] }).die 1).mirWait = [mir0 r]) ∧
    (((stAgent .M {}).die 0).entry? 0x600 = some (entry0 .M 0) ∧ ((stAgent .M {}).die 0).copy? 0x600 = none ∧ isHostLine 0x600 = false ∧
      ((stAgent .M {}).die 0).find? 0x600 .mirror = some (line0 .O .mirror 0x600) ∧ (stAgent .M {}).pending.any (mirwBefore 0x600 1 9) = false) := by
  refine ⟨fun st => ?_, fun st => ⟨rfl, rfl, rfl, rfl⟩, by decide +kernel, by decide +kernel, fun _ => rfl, by decide +kernel⟩
  cases st <;> decide +kernel

/-- SeamsCarryMessages, SeamsAndDeadDies: a seam in each state. -/
theorem witness_seams : (0 : Die).val < (1 : Die).val ∧
    ∀ n : Fin 5, ({ st0 with seams := [(seamKey 0 1, { lstate := n })] } : State).seams.get {} (seamKey 0 1) = { lstate := n } := by
  refine ⟨by decide, fun n => ?_⟩
  revert n; decide

/-- A context that role 0 may use, one that is disabled, and one of another tenant. -/
def ctx0 : Ctx := { vmid := 1, en := true, tladdr := 0x10000 }
def stCtx (c : Ctx) (cs : List CmdEntry) : State := { st0 with ctxs := [(.shared 0 3, { c with cmds := cs })] }

/-- CommandsIssue, BindingsViewsAndVersions: bindings of each kind, an enabled context of the role's VMID, a disabled one and another tenant's. -/
theorem witness_commands : role0.queues.find 3 = none ∧ { role0 with queues := [(3, .shared 0 3)] }.queues.find 3 = some (.shared 0 3) ∧
    Takes (.shared 0 3) .ared ∧ ¬Takes .localCtx .ared ∧ Admits (stCtx ctx0 []) role0 (.shared 0 3) ∧ ¬Admits (stCtx { ctx0 with en := false } []) role0 (.shared 0 3) ∧
    ¬Admits (stCtx { ctx0 with vmid := 2 } []) role0 (.shared 0 3) ∧ (st0.ctx (contextOf st0 role0 .composer)).en = false ∧
    ({ st0 with ctxs := [(.composer 0, { en := true })] } : State).ctx (.composer 0) = { en := true } ∧ st0.windowOpen 0 role0 = false ∧
    (stCore { ops := [(0, op0 .store)] }).opsDue 0 role0 (fun p _ => p.kind == .store || p.kind == .atomic) = true ∧
    st0.opsDue 0 role0 (fun p _ => p.kind == .store || p.kind == .atomic) = false ∧
    ((2 ^ 61 + 2 ^ 58 : Nat)) / 2 ^ 60 = 2 ∧ ((2 ^ 61 + 2 ^ 58 : Nat)) / 2 ^ 58 % 4 = 1 ∧ (5 * 2 ^ 60 : Nat) / 2 ^ 60 = 5 := by
  refine ⟨rfl, rfl, by simp [Takes], by simp [Takes], ⟨rfl, rfl, rfl⟩, fun h => ?_, fun h => ?_, by decide +kernel, rfl, rfl, by decide +kernel, by decide +kernel, by decide, by decide, by decide⟩
  · exact absurd h.1 (by decide +kernel)
  · exact absurd h.2.1 (by decide +kernel)

def cmd0 (k : CmdKind) (a b c : Word) : Cmd :=
  { kind := k, a := a, b := b, c := c, qmod := 3, wver := 0, sat := false, vmid := 1, asid := 0, rid := 0, gang := 1, rank := 0, core := 0 }
def ent0 (st : CmdState) : CmdEntry := { n := 1, cmd := cmd0 .pin 0x10000 0 5, st := st }

/-- A leaf of page 1 whose page is being moved. -/
def stMoving (s : State) : State :=
  { s with dies := [(0, { die0 with tlb := [] }), (1, {}), (2, {}), (3, {})], mem := writeBytes s.mem 0xA010 0x872 2 }

/-- The version tables of VMID 1 from address 0x10_0000 on, with a region descriptor whose reserved bits are as given. -/
def stRegion (b : Byte) (lost : Bool) : State :=
  { st0 with dies := [(0, { die0 with regs := (0x1008, 1) :: (0x3010, 0x100001) :: die0.regs.drop 1 }), (1, { dead := if lost then 1 else 0 }), (2, {}), (3, {})],
             mem := tables ++ [(0x10000F, b)] }

/-- CommandsRunAndSettle: a command that its context may accept; one that an engine serves and one that none does; one that runs to its end and
one that fails; a timeline that can be written. -/
theorem witness_runs :
    (let q : IssuedCmd := { rid := 0, ctx := .shared 0 3, cmd := cmd0 .pin 0x10000 0 5, pc := 0x10008, dst := 0x42, ws := 1, after := 0 }
     ({ stCtx ctx0 [] with issued := [q] } : State).mayAccept q = true ∧ RegName.isScalar q.dst = true) ∧
    ((stCtx ctx0 [ent0 .accepted]).ctx (.shared 0 3)).cmds = [ent0 .accepted] ∧ ctx0.dueBy = none ∧
    ((stCtx ctx0 [ent0 .accepted]).served (.shared 0 3) (ent0 .accepted) = true ∧
      (let busy : State := { st0 with ctxs := [(.shared 0 3, { ctx0 with cmds := [{ ent0 .accepted with cmd := cmd0 .halo 0x10000 0 5 }] }),
          (.shared 0 4, { ctx0 with cmds := [{ ent0 .running with cmd := cmd0 .ared 0x10000 0 5 }] })] }
       busy.served (.shared 0 3) { ent0 .accepted with cmd := cmd0 .halo 0x10000 0 5 } = false)) ∧
    (∃ x, (stCtx ctx0 [ent0 .accepted]).runCmd (.shared 0 3) (cmd0 .copy 0x10000 0x20000 0) 1 = .ok x) ∧
    (∃ x, (stCtx ctx0 [ent0 .accepted]).runCmd (.shared 0 3) (cmd0 .copy 0x10000 0x20000 4) 1 = .error x) ∧
    (∀ g t, (CtxId.shared 0 3) ≠ .local g t) ∧ ((ent0 .running).sigs = [] ∧ (stCtx ctx0 [ent0 .running]).cmdOut (.shared 0 3) 1 = false) ∧
    (∃ x, (stCtx ctx0 [ent0 .done]).engStore (.shared 0 3) (ent0 .done).cmd .counter 8 1 0x10000 = .ok x ∧ (x.2.ctx (.shared 0 3)).cmds = [ent0 .done]) ∧
    (2 ^ 32 - 1 < 2 ^ 32 ∧ 2 ^ 64 - 1 < 2 ^ 64) := by
  refine ⟨by decide +kernel, rfl, rfl, by decide +kernel, ok_ex (by decide +kernel), err_ex (by decide +kernel), fun _ _ h => by simp at h, by decide +kernel,
    ?_, by decide⟩
  have h : ((stCtx ctx0 [ent0 .done]).engStore (.shared 0 3) (ent0 .done).cmd .counter 8 1 0x10000).toOption.any
      (fun x => decide ((x.2.ctx (.shared 0 3)).cmds = [ent0 .done])) = true := by decide +kernel
  obtain ⟨x, hx⟩ := ok_ex (p := (stCtx ctx0 [ent0 .done]).engStore (.shared 0 3) (ent0 .done).cmd .counter 8 1 0x10000) (by decide +kernel)
  rw [hx] at h
  exact ⟨x, hx, of_decide_eq_true h⟩

/-- CommandsRunAndSettle: a command that finds its page being moved. -/
theorem witness_held_command : ∃ s1, (stMoving (stCtx ctx0 [ent0 .accepted])).runCmd (.shared 0 3) (cmd0 .copy 0x10000 0x20000 8) 1 = .error (.wait, s1) := by
  have h : (match (stMoving (stCtx ctx0 [ent0 .accepted])).runCmd (.shared 0 3) (cmd0 .copy 0x10000 0x20000 8) 1 with
    | .error (.wait, _) => true
    | _ => false) = true := by decide +kernel
  match hr : (stMoving (stCtx ctx0 [ent0 .accepted])).runCmd (.shared 0 3) (cmd0 .copy 0x10000 0x20000 8) 1 with
  | .error (.wait, s1) => exact ⟨s1, rfl⟩
  | .error (.fail c a, s1) => rw [hr] at h; simp at h
  | .ok x => rw [hr] at h; simp at h

/-- CommandsRunAndSettle: a region's descriptor with its reserved bits clear and with one set, and one whose home is lost. -/
theorem witness_regions : ((stRegion 0 true).regionAddr? 0 1 0 = some 0x100000 ∧ (stRegion 1 false).regionAddr? 0 1 0 = some 0x100000 ∧ (stRegion 0 true).homeLost (lineOf 0x100000) = true) ∧ (stRegion 0 false).homeLost (lineOf 0x100000) = false ∧
    (stRegion 0 false).readBad 0 (lineOf 0x100000) = false ∧ ((stRegion 0 false).readIn 0 0x100008 8 0 0).1 < 2 ^ 33 ∧
    2 ^ 33 ≤ ((stRegion 1 false).readIn 0 0x100008 8 0 0).1 := by
  and_intros <;> decide +kernel

/-- TensorCopiesAndReductions: a size that the element divides and one that it does not, at the bound of 2^32 elements, and a tensor of two dimensions. -/
theorem witness_tensors : (cmd0 .copy 0 0 24).c.toNat % 2 ^ ((cmd0 .copy 0 0 24).qmod.toNat % 4) = 0 ∧ (cmd0 .copy 0 0 20).c.toNat % 8 ≠ 0 ∧
    2 ^ 32 ≤ (cmd0 .copy 0 0 0x800000000).c.toNat / 8 ∧ (cmd0 .copy 0 0 0x7FFFFFFF8).c.toNat / 8 < 2 ^ 32 ∧ Ty.i32.isInt = true := by decide

def flow0 (ahead : Nat) : FlowTransfer :=
  { die := 0, flow := 5, seq := 7 + ahead, vmid := 1, srcKind := 0, srcId := 0, pa := 0x30000, size := 8, data := 0, ctx := .shared 0 3, n := 1, addr := 0 }
/-- FlowsDeliver: an ordered flow that expects number 7, a transfer that its endpoint takes with the number expected, the next, and an older one, one
that the endpoint does not take, and one on flow 1. -/
theorem witness_flows :
    let w := 0xC400000000000007#64
    let x : State := stDie { die0 with flows := [(5, (w, 0))] }
    (x.die 0).flows.get (0, 0) 5 = (w, 0) ∧ w.toNat / 2 ^ 63 % 2 = 1 ∧ w.toNat / 2 ^ 58 % 16 = 1 ∧ w.toNat / 2 ^ 62 % 2 = 1 ∧ w.toNat / 2 ^ 56 % 4 = 0 ∧
    w.toNat / 2 ^ 46 % 1024 = 0 ∧ (∀ a, a < 2 → ((flow0 a).seq + 2 ^ 32 - w.toNat % 2 ^ 32) % 2 ^ 32 = a) ∧
    2 ^ 31 ≤ ((flow0 0).seq - 1 + 2 ^ 32 - w.toNat % 2 ^ 32) % 2 ^ 32 ∧ (x.die 0).flowHeld = [] ∧ (st0.die 0).flows.get (0, 0) 5 = (0, 0) := by
  refine ⟨rfl, by decide, by decide, by decide, by decide, by decide, by decide, by decide, rfl, rfl⟩

/-! #### The matrix engine -/

/-- A stream of 128 elements from the scratchpad's first byte, and one of bitmap words and indexes behind it. -/
def bStream (ty : Ty) : Stream := { base := 0xFFFFFE0000000000, pfd := 0, ndim := 1, dir := false, ty := ty, counts := [128, 1, 1, 1], strides := [8, 0, 0, 0], pos := 0 }
def iStream : Stream := { bStream .n64 with base := 0xFFFFFE0000002000 }
/-- A role of `n` lanes with its streams in slots 0 and 1 and the address of its accumulator block in s3. -/
def matRole (n : Nat) (ty : Ty) : Role :=
  { role0 with nlanes := n, streams := [(0, bStream ty), (1, iStream)], sregs := [(3, 0x40000), (4, 0x10000), (5, 7), (6, 3)] }
def matWord (ty : Ty) (cnt : BitVec 1) : FmtX :=
  { ty := ty, mask := 0, d := 8, sc := 3, sf := 5, sp := 0, reuse := 1, ord := 1, cnt := cnt, sn := 4, xmod := 0, xhi := 0, ws := 0 }

theorem mem_ex {p : Except WalkRes Spot × State} (h : (match p.1 with | .ok (.mem _) => true | _ => false) = true) : ∃ m s1, p = (.ok (.mem m), s1) := by
  match p, h with
  | (.ok (.mem m), s1), _ => exact ⟨m, s1, rfl⟩

/-- MatrixIssue: an instruction of each kind that passes every check, without a counter and with one, and what fails each of the first. -/
theorem witness_matrix_issue : Issuing (stOf (matRole 8 .f64)) (matRole 8 .f64) ∧ PairTaken 0 .f64 .f64 ∧ PairTaken 1 .bf16 .bf16 ∧ PairTaken 2 .b1 .b1 ∧
    ¬PairTaken 0 .f64 .f32 ∧ typeOfB (matRole 8 .f64) (matWord .f64 0) = .f64 ∧
    (∀ p ∈ [(8, Ty.f64, 0), (16, .bf16, 1), (8, .b1, 2)], let r := matRole p.1 p.2.1
      let k := r.nlanes / 8 * (64 / p.2.1.width)
      let x := bStream p.2.1
      let bitmap := iStream.elems iStream.pos (if p.2.2 = 1 then (k / 8 + 63) / 64 else 0)
      let vals := x.elems x.pos (if p.2.2 = 1 then 0 else (k + blockK p.2.1 - 1) / blockK p.2.1 * 16)
      r.streams.find 0 = some x ∧ r.streams.find 1 = some iStream ∧ r.nlanes % 8 = 0 ∧ (p.2.2 = 1 → k % 8 = 0) ∧ (r.sreg 3).toNat % 2048 = 0 ∧
      canonical (r.sreg 3) = true ∧ (stOf r).tileFail r 8 bitmap = none ∧ (stOf r).tileCheck r bitmap = (none, stOf r) ∧
      (stOf r).tileFail r p.2.1.bytes vals = none ∧ (stOf r).tileBusy 0 r 8 bitmap = false ∧ (stOf r).tileBusy 0 r p.2.1.bytes vals = false ∧
      (stOf r).loggedClear 0 r 0x40000 2048 = false ∧ ((stOf r).core 0).jobs.length < 4 ∧ ((stOf r).core 0).refused.length < 32) ∧
    (∀ p ∈ [(8, Ty.f64), (16, .bf16), (8, .b1)], ∃ m s2, (stOf (matRole p.1 p.2)).spot (matRole p.1 p.2) .reduction none false 0x40000 16 = (.ok (.mem m), s2)) ∧
    (stOf (matRole 8 .f64)).issueCause (matRole 8 .f64) .counter 0x10000 8 8 = none ∧
    (∃ m s1, (stOf (matRole 8 .f64)).spot (matRole 8 .f64) .counter none false 0x10000 8 = (.ok m, s1)) ∧
    (matRole 8 .f64).latch = none ∧ { matRole 8 .f64 with latch := some (8, []) }.latch = some (8, []) ∧
    (matRole 9 .f64).nlanes % 8 ≠ 0 ∧ canonical 0x0100000000000000 = false ∧ (0x40400#64).toNat % 2048 ≠ 0 := by
  refine ⟨rfl, ?_, ?_, ?_, ?_, by decide, by decide +kernel, ?_, by decide +kernel, okfst_ex (by decide +kernel), rfl, rfl, by decide, by decide, by decide⟩
  · unfold PairTaken; decide
  · unfold PairTaken; decide
  · unfold PairTaken; decide
  · unfold PairTaken; decide
  · intro p hp
    simp only [List.mem_cons, List.not_mem_nil, or_false] at hp
    rcases hp with rfl | rfl | rfl <;> exact mem_ex (by decide +kernel)

/-! #### Accumulator lines -/

def part0 : AccPart := { slot := 3, val := some (.ai 5), nx := false, ovf := false, inv := false }
/-- A line update to physical address 0x6_0000, which is a line of accumulator slots. -/
def upd0 (ord : Bool) (seq : BitVec 16) : LineUpdate :=
  { line := 0xC00, vmid := 1, core := 0, rid := 0, parts := [part0], op := .add, ord := ord, flow := 0, seq := seq, p := 4, pc := 0x10008, va := 0x40000 }
def job0 (done : Bool) (log : Option Nat) : MatJob :=
  { rid := 0, pc := 0x10008, inRegion := false, readsDone := done, counter := none, va := 0x40000, line := 0xC00, vmid := 1, asid := 0, ty := .i8, bt := .i8,
    binary := false, binAnd := false, sparse := false, bscale := false, w := 1, k := 8, a := [1, 2, 3, 4, 5, 6, 7, 8], active := 0xFF, scale := [],
    bAddrs := [some 0xFFFFFE0000000000], panels := [], bWords := [], flow := 0, logEntry := log }

/-- MatrixResults: a dense integer instruction with lanes that are active. -/
theorem witness_matrix_results : (job0 true none).isFloat = false ∧ (job0 true none).sparse = false ∧ 0 < (job0 true none).k ∧
    (job0 true none).active.getLsbD 0 = true := by decide +kernel

/-- SlotArithmetic: a cleared slot, and full slots of each kind at the bounds of their fields; parts of each kind, and sequences of each relation. -/
theorem witness_slots : (∀ tag, tag = 0 ∨ tag = 1 ∨ tag = 2 ∨ tag = 255 → ∃ x : Slot, x.tag = tag ∧ x.tag < 256 ∧ x.rsv < 16 ∧ x.nseq = 2 ^ 16 - 1 ∧ x.val = 2 ^ 96 - 1 ∧
      x.nseq < 2 ^ 16 ∧ x.val < 2 ^ 96) ∧
    (part0.nx = false ∧ part0.ovf = false ∧ part0.inv = false ∧ part0.val = some (.ai 5)) ∧ (Fmt.decode .af96 (0#96).toNat).isNan = false ∧
    (∀ d, d = 0 ∨ d = 1 ∨ d = 2 ^ 15 → ∃ seq nseq, seq < 2 ^ 16 ∧ nseq < 2 ^ 16 ∧ (seq + 2 ^ 16 - nseq) % 2 ^ 16 = d) := by
  refine ⟨fun tag h => ⟨{ tag := tag, rsv := 15, nx := false, ovf := false, inv := false, sat := false, nseq := 2 ^ 16 - 1, val := 2 ^ 96 - 1 }, ?_⟩,
    by decide, by decide +kernel, fun d h => ⟨d, 0, ?_⟩⟩
  · rcases h with rfl | rfl | rfl | rfl <;> decide
  · rcases h with rfl | rfl | rfl <;> decide

theorem acc_ex {p : Except Nat Opened × State} (h : (match p.1 with | .ok (.line l _) => l.line == 0xC00 && l.data == 0 | _ => false) = true) :
    ∃ l s0 s1, p = (.ok (.line l s1), s0) ∧ l.line = 0xC00 ∧ l.data = 0 := by
  match p, h with
  | (.ok (.line l s1), s0), h => simp only [Bool.and_eq_true, beq_iff_eq] at h; exact ⟨l, s0, s1, rfl, h.1, h.2⟩

/-- MatrixEngineAndLines: a line that an update reaches; one that comes early there; a reorder buffer with room and one without, beside a core of the
home's die and one of another; jobs of each kind at the head; a counter that takes its add, and one whose page is being moved. -/
theorem witness_engine : (∃ l s0 s1, st0.reachAcc 0xC00 1 = (.ok (.line l s1), s0) ∧ l.line = 0xC00 ∧ l.data = 0) ∧ (upd0 true 1).parts = [part0] ∧
    ((Slot.ofNat 0).accApply part0 .add true 1 = .early ∧ (st0.die 0).heldIn 0xC00 < 256 ∧
      256 ≤ (({ die0 with reorder := List.replicate 256 { update := upd0 true 1 } } : DieState).heldIn 0xC00) ∧
      st0.homeOf 0xC00 = dieOf (upd0 true 1).core ∧ (st0.core (upd0 true 1).core).refused.length < 32 ∧ st0.homeOf 0xC00 ≠ dieOf 192) ∧
    (∀ done log, ((stCore { jobs := [job0 done log] }).core 0).jobs = [job0 done log] ∧ (job0 done log).inRegion = false ∧ (job0 done log).counter = none) ∧
    ((stCore { jobs := [job0 false none] }).tileCheck role0 ((job0 false none).bAddrs.map fun a => a.map fun (x : Nat) => (x : Int)) =
        (none, stCore { jobs := [job0 false none] })) ∧
    (st0.matCount { job0 true none with counter := some 0x10000 } 0x10000).isSome = true ∧
    (stMoving st0).matCount { job0 true none with counter := some 0x10000 } 0x10000 = none := by
  refine ⟨acc_ex (by decide +kernel), rfl, ?_, fun _ _ => ⟨rfl, rfl, rfl⟩, ?_, ?_, ?_⟩ <;> decide +kernel

theorem then_ex {α β ε ε' : Type} {p : Except ε α × State} {f : α → State → Except ε' β × State} {n : Nat} {g : β → Nat}
    (h : (match p.1 with | .ok xs => (match (f xs p.2).1 with | .ok vs => g vs == n | .error _ => false) | .error _ => false) = true) :
    ∃ xs vs s1 s2, p = (.ok xs, s1) ∧ f xs s1 = (.ok vs, s2) ∧ g vs = n := by
  obtain ⟨p1, s1⟩ := p
  cases p1 with
  | error e => simp at h
  | ok xs =>
    simp only at h
    generalize hq : f xs s1 = q at h
    obtain ⟨q1, s2⟩ := q
    cases q1 with
    | error e => simp at h
    | ok vs => exact ⟨xs, vs, s1, s2, rfl, hq, by simpa using h⟩

/-- SlotsAndScale: the scale bytes at an aligned address, for each length, and at one that is not. -/
theorem witness_scale : st0.issueCause role0 .load 0x10000 8 64 = none ∧ st0.issueCause role0 .load 0x10008 8 64 = some cALIGN ∧
    st0.busyOps 0 role0 = false ∧ ∀ n, n = 96 ∨ n = 32 ∨ n = 64 → st0.overlapsLog 0 role0 0x10000 (8 * n) = false ∧
      ∃ xs vs s1 s2, st0.spots role0 .load 8 8 ((List.range n).map fun (i : Nat) => 0x10000 + 8 * (i : Int)) = (.ok xs, s1) ∧
        s1.readSpots role0 8 xs = (.ok vs, s2) ∧ vs.length = n := by
  refine ⟨by decide +kernel, by decide +kernel, by decide +kernel, fun n h => ⟨by rcases h with rfl | rfl | rfl <;> decide +kernel, ?_⟩⟩
  rcases h with rfl | rfl | rfl <;> exact then_ex (f := fun xs t => State.readSpots t role0 8 xs) (g := List.length) (by decide +kernel)

def accReq0 (a : AccAccess) : AccReq :=
  { line := 0xC00, vmid := 1, core := 0, rid := 0, op := 0, slots := allSlots, lanes := [], acc := a, p := 3, pc := 0x10008, va := 0x40000 }

/-- AccumulatorAccess: a block and a line that pass, one that is not aligned, a window that is open and one that is not; active lanes and none; a
reduction on its way to a slot that is read. -/
theorem witness_accumulator :
    (st0.issueCause role0 .accWrite 0x40000 2048 2048 = none ∧ st0.issueCause role0 .accWrite 0x40080 128 128 = none ∧
      st0.issueCause role0 .accWrite 0x40080 2048 2048 = some cALIGN ∧ (stLog 1).windowOpen 0 role0 = true ∧ st0.windowOpen 0 role0 = false ∧
      st0.jobAt 0 role0 0x40000 2048 = false ∧ st0.reductionOut 0 role0 (fun l => decide (0xC00 ≤ l)) = false ∧
      st0.issueCause role0 .accRead 0x40000 2048 2048 = none ∧ st0.issueCause role0 .accRead 0x40010 16 16 = none ∧
      st0.issueCause role0 .accRead 0x40010 128 128 = some cALIGN ∧ st0.overlapsLog 0 role0 0x40000 2048 = false ∧ st0.loggedRed 0 role0 0x40000 2048 = false) ∧
    (∃ m s1, st0.spot role0 .accWrite none false 0x40000 16 = (.ok (.mem m), s1)) ∧ (∃ m s1, st0.spot role0 .accRead none false 0x40000 16 = (.ok (.mem m), s1)) ∧
    ((role0.active 0).filter (fun l => decide (l < 8)) = [0, 1, 2, 3, 4, 5, 6, 7] ∧ role0.active 2 = [] ∧ RegName.isScalar 0x41 = true) ∧
    (let reads := fun (k : Nat) (js : List (Fin 8)) => k == 0xC00 && js.contains (3 : Fin 8)
     st0.reductionDue 0 role0 reads = false ∧ (st0.send (.accLineUpdate (upd0 false 0))).reductionDue 0 role0 reads = true) ∧
    (∀ a, (accReq0 a).slots = allSlots) ∧ (st0.core 0).ops.find 0 = none ∧ (st0.die (st0.homeOf 0xC00)).find? 0xC00 .acc = none := by
  refine ⟨?_, mem_ex (by decide +kernel), mem_ex (by decide +kernel), by decide +kernel, by decide +kernel, fun _ => rfl, rfl, by decide +kernel⟩
  and_intros <;> decide +kernel

/-! #### Beam queries -/

/-- A query record at VA 0x1_0000 of direction (1, 0, 0) and interval 0 to infinity, its structure of one node at address 0, and BUDGET 1. -/
def beamCells (tmin tmax : List Host.Cell) : List Host.Cell :=
  tmin ++ [(0x30012, 0x80), (0x30013, 0x3F)] ++ tmax ++ [(0x30060, 0x80), (0x30062, 0x01), (0x30088, 0x80), (0x30098, 1)]
def stBeam (tmin tmax : List Host.Cell) : State := { st0 with mem := tables ++ beamCells tmin tmax }
def tmaxInf : List Host.Cell := [(0x3001E, 0x80), (0x3001F, 0x7F)]
def tminOne : List Host.Cell := [(0x3000E, 0x80), (0x3000F, 0x3F)]
/-- The query that starts. -/
def qStart : Query := { rid := 0, handle := 0, gang := 1, vmid := 1, asid := 0, wver := 0, who := (st0.originOf role0).1, part := (st0.originOf role0).2 }
def loadAt (s : State) (a : Nat) : BeamLoad := (s.tick (s.core 0).pts).loadQuery 0 role0 false qStart a
def wordOf (a : RegName) : FmtQ := { ty := .i64, mask := 0, d := 0x50, a := a, b := 0x45, c := 0, q := 0, qmod := 0, ws := 1 }
/-- A query of role 0 under number 0. -/
def query0 (p : QPhase) : Query := { qStart with qrec := List.replicate 16 0, sdesc := List.replicate 8 0, phase := p, known := true }
def stQuery (e : BeamEvent) (q : Query) : State :=
  { stCore { slots := [(0, 0)], phase := .run 0, queries := [(3, q)] } with
    roles := [(0, { role0 with beamHeld := [(0, e)], beamGen := [(0, 1)], sregs := [(4, 16), (5, 0x10000), (6, 3), (7, 0x20000)] })] }
def beamRole (e : BeamEvent) : Role := { role0 with beamHeld := [(0, e)], beamGen := [(0, 1)], sregs := [(4, 16), (5, 0x10000), (6, 3), (7, 0x20000)] }

/-- BeamInstructions: a handle that is current and one that is not, each event that a handle can have, addresses that are canonical and aligned and
that are not, and a query that is live and one that is over. -/
theorem witness_beam_instructions : (∀ e q, Issuing (stQuery e q) (beamRole e) ∧ (beamRole e).ended = false ∧ Current (beamRole e) 16 0 ∧
      ((stQuery e q).windowOpen 0 (beamRole e) = false) ∧ (beamRole e).beamHeld.find 0 = some e) ∧
    ¬Current role0 16 0 ∧ (stLog 1).windowOpen 0 role0 = true ∧
    (stQuery (.proc 2 9) (query0 (.proc 9))).queryOf 0 (beamRole (.proc 2 9)) 0 = some (3, query0 (.proc 9)) ∧ (query0 (.proc 9)).phase = .proc 9 ∧
    (query0 .walking).saveTo = none ∧ (stOf (beamRole .running)).queryOf 0 (beamRole .running) 0 = none ∧
    ¬((0x0100000000000000#64).toNat < 2 ^ 56 ∨ 2 ^ 64 - 2 ^ 56 ≤ (0x0100000000000000#64).toNat) ∧ (0x10000#64).toNat + 512 ≤ 2 ^ 56 ∧
    (0x10000#64).toNat % 512 = 0 ∧ (0x10080#64).toNat % 512 ≠ 0 ∧ 15 < 16 ∧ 255 < 256 ∧ 65535 < 65536 ∧ 2 ^ 32 - 1 < 2 ^ 32 := by
  refine ⟨fun e q => ⟨rfl, rfl, ⟨by decide, by decide, rfl, rfl⟩, rfl, rfl⟩, fun h => absurd h.2.2.1 (by decide), by decide +kernel, rfl, rfl, rfl, rfl, ?_⟩
  decide

/-- QueriesStart: records that begin a walk, that end at once because TMAX is below TMIN, that are malformed and that fault; a unit with room and one
without. -/
theorem witness_queries_start : Issuing (stBeam [] tmaxInf) role0 ∧ (stBeam [] tmaxInf).windowOpen 0 role0 = false ∧
    ((∀ p ∈ (st0.core 0).opsOf 0, p.2.inOrder = false) ∧ (st0.core 0).queries.length < 16 ∧ role0.beamHeld.length < role0.beamLimit ∧ role0.beamLimit ≤ 16 ∧
      st0.beamAhead 0 role0 = false ∧ ¬({ role0 with beamLimit := 0 }.beamHeld.length < { role0 with beamLimit := 0 }.beamLimit)) ∧
    (let x := loadAt (stBeam [] tmaxInf) 0x10000
     x.2.1 = none ∧ (x.1.tmax.getD .ninf).lt (x.1.tmin.getD .pinf) = false ∧ x.1.pend = none) ∧
    (let x := loadAt (stBeam tminOne []) 0x10000
     x.2.1 = none ∧ (x.1.tmax.getD .ninf).lt (x.1.tmin.getD .pinf) = true) ∧
    (loadAt (stMem [(0x30060, 0x80), (0x30062, 0x01)]) 0x10000).2.1 = some .bad ∧ (loadAt st0 0x30000).2.1 = some (.cause cNOTPRESENT 0x30000) ∧
    ((0x10000 : Nat) + 128 ≤ 2 ^ 56 ∧ 0x10000 % 512 = 0 ∧ 0x10040 % 128 ≠ 0) := by
  refine ⟨rfl, rfl, by decide, ?_, ?_, ?_, ?_, by decide⟩ <;> decide +kernel

/-- A query of a grid of 4 by 4 rays under REGION 0x3300. -/
def grid0 : Query := { query0 .walking with qrec := List.replicate 5 0 ++ [0x0000033100000000] ++ List.replicate 10 0, ckind := 1, region := 0x3300 }

/-- SplitsPartitionTheRays. -/
theorem witness_splits : grid0.regionOk = true ∧ grid0.ckind = 1 ∧ grid0.rays.length = 16 ∧ grid0.parts.length ≤ grid0.quota ∧ grid0.quota ≤ 256 ∧
    grid0.depth < 8 ∧ grid0.stack.length ≤ 21 ∧ grid0.qid < 2 ^ 32 := by decide +kernel

/-- A spawn queue's descriptor at VA 0x1_1000: ring at 0x1_2000, depths at 0x1_3000, CAP 4, RSZ 4, BATCH 1. -/
def spawnCells : List Host.Cell := [(0x31009, 0x20), (0x3100A, 0x01), (0x31011, 0x30), (0x31012, 0x01), (0x31018, 4), (0x3101A, 4), (0x3101B, 1)]
def spawnWords : List Word := [0, 0x12000, 0x13000, 0x01040004, 0, 0, 0, 0]
/-- A query whose split awaits its push to that queue, or to one at another address. -/
def qPush (spawn : Word) : Query := { query0 .push with qrec := List.replicate 10 0 ++ [spawn] ++ List.replicate 5 0, children := [List.replicate 8 0] }
def frame0 : Frame := { node := 0, words := [0, 0x017F7F7F00000000, 0, 0, 0, 0, 0, 0, 0x0000020202000000, 0, 0, 0, 0, 0, 0, 0], next := 0 }
/-- A single ray that stands at a node whose first child it enters, with and without visits left, in a structure of `size` bytes at VA 0x1_0000. -/
def qWalk (size : Word) (budget : Word) : Query :=
  { query0 .walking with qrec := [0, 0, 0x3F800000, 0x7F80000000000000] ++ List.replicate 12 0, sdesc := [0x10000, size, 0, budget, 0, 0, 0, 0], stack := [frame0] }

theorem ok2_ex {ε α β : Type} {p : Except ε (α × β)} {a : α} (h : p.toOption.map (·.1) = some a) : ∃ b, p = .ok (a, b) := by
  cases p with
  | ok x => simp only [Except.toOption, Option.map_some, Option.some.injEq] at h; exact ⟨x.2, by rw [← h]⟩
  | error e => simp [Except.toOption] at h

/-- A query whose records go to VA 0x1_0000 and whose DONEC is the counter at 0x1_0100. -/
def qDone (donec : Word) : Query :=
  { query0 (.records 0 [0]) with qrec := List.replicate 9 0 ++ [donec] ++ List.replicate 6 0, sdesc := [0, 0, 0, 0, 0x10000, 0, 0, 0] }
def qStores (donec : Word) : List (Int × Nat × Nat) :=
  ((qDone donec).record 0 0).zipIdx.map fun p => (((qDone donec).result + 32 * ((qDone donec).raybase + 0) + 8 * p.2 : Nat), 8, p.1.toNat)

theorem seek_ex (q q1 : Query) (n : Nat) (h : (q.seek 256).1 = q1) (h2 : (match (q.seek 256).2 with | .node m => m == n | _ => false) = true) :
    q.seek 256 = (q1, .node n) := by
  generalize q.seek 256 = p at h h2
  obtain ⟨x, y⟩ := p
  cases y <;> simp_all

/-- QueriesRun: a query in each phase that it may stop in; a walk that is over, one that enters a node within the structure and within BUDGET, one beyond
each; a push that is refused, one without room, one that is made; a last record, with a counter and without. -/
theorem witness_queries_run : (∀ e q, ((stQuery e q).core 0).queries.find 3 = some q) ∧
    (query0 .walking).ending = false ∧ { query0 .walking with aborted := true }.aborted = true ∧ (∀ st l, (query0 .walking).phase ≠ .records st l) ∧
    (query0 .walking).seek 256 = (query0 .walking, .done) ∧ (query0 .walking).counted = true ∧
    ((qWalk 256 1).seek 256 = (qWalk 256 1, .node 0) ∧ (qWalk 0 1).seek 256 = (qWalk 0 1, .node 0) ∧ (qWalk 256 0).seek 256 = (qWalk 256 0, .node 0)) ∧ (qWalk 256 1).stack.length ≤ 20 ∧ (qWalk 256 1).phase = .walking ∧ (qWalk 256 1).counted = true ∧
    (qWalk 0 1).size < 128 * (0 + 1) ∧ 128 * (0 + 1) ≤ (qWalk 256 1).size ∧ (qWalk 256 0).budget ≤ (qWalk 256 0).visits ∧
    (qWalk 256 1).visits < (qWalk 256 1).budget ∧
    (∃ s1, st0.vaWords ((qWalk 256 1).viewer 0) .engRead (((qWalk 256 1).base + 128 * 0 : Nat) : Int) 16 = .ok (List.replicate 16 0, s1)) ∧
    (qPush 0x11000).phase = .push ∧ st0.queryParked 0 3 = false ∧ (qPush 0x11020).spawn.toNat % 64 ≠ 0 ∧ (qPush 0x11000).spawn.toNat % 64 = 0 ∧
    (∃ s1, (stMem spawnCells).vaWords ((qPush 0x11000).walker 0) .engRead ((qPush 0x11000).spawn.toNat : Int) 8 = .ok (spawnWords, s1)) ∧
    (let q : SpawnQ := { qva := 0x11000, w := spawnWords }
     let full : SpawnQ := { qva := 0x11000, w := [0, 0x12000, 0x13000, 0x01040004, 4 * 2 ^ 32, 0, 0, 0] }
     st0.pushRefused (qPush 0x11000).who q 1 0 1 = false ∧ st0.pushRefused (qPush 0x11000).who { q with w := [] } 1 0 1 = true ∧
     st0.pushFits q 1 0 1 = true ∧ st0.pushRefused (qPush 0x11000).who full 1 0 1 = false ∧ st0.pushFits full 1 0 1 = false ∧
     ∃ s2, (stMem spawnCells).writePush ((qPush 0x11000).walker 0) .engWrite q
       { rid := 0, query := some (0, 3), records := (qPush 0x11000).children, depth := 0, part := (qPush 0x11000).part } = .ok ((), s2)) ∧
    (∀ d, (qDone d).phase = .records 0 [0] ∧ (qDone d).serial = false ∧ (qDone d).saveTo = none ∧ (qDone d).toAdd = 0 ∧ (qDone d).maxStatus ≤ 0) ∧
    (qDone 0).donec = 0 ∧ (qDone 0x10100).donec ≠ 0 ∧ (∃ s1, st0.vaStores ((qDone 0).walker 0) .engWrite (qStores 0) = .ok ((), s1)) ∧
    (∃ s1 s2, st0.vaStores ((qDone 0x10100).walker 0) .engWrite (qStores 0x10100) = .ok ((), s1) ∧
      s1.vaAdd ((qDone 0x10100).walker 0) ((qDone 0x10100).donec.toNat : Int) 1 = .ok ((), s2)) := by
  refine ⟨fun _ _ => rfl, rfl, rfl, fun _ _ h => (by cases h), rfl, rfl, ⟨seek_ex _ _ _ (by decide +kernel) (by decide +kernel), seek_ex _ _ _ (by decide +kernel) (by decide +kernel), seek_ex _ _ _ (by decide +kernel) (by decide +kernel)⟩, by decide, rfl, rfl, by decide, by decide, by decide, by decide,
    ok2_ex (by decide +kernel), rfl, rfl, by decide, by decide, ok2_ex (by decide +kernel), ?_, fun _ => ⟨rfl, rfl, rfl, rfl, Nat.le_refl 0⟩, by decide, by decide,
    ok2_ex (by decide +kernel), ?_⟩
  · exact ⟨by decide +kernel, by decide +kernel, by decide +kernel, by decide +kernel, by decide +kernel, ok2_ex (by decide +kernel)⟩
  · obtain ⟨p, h⟩ := ok_ex (p := st0.vaStores ((qDone 0x10100).walker 0) .engWrite (qStores 0x10100)) (by decide +kernel)
    have e : ((st0.vaStores ((qDone 0x10100).walker 0) .engWrite (qStores 0x10100)).bind fun x =>
      x.2.vaAdd ((qDone 0x10100).walker 0) ((qDone 0x10100).donec.toNat : Int) 1).toOption.isSome = true := by decide +kernel
    rw [h] at e
    obtain ⟨q, h2⟩ := ok_ex e
    exact ⟨p.2, q.2, h, h2⟩

/-! #### Launching -/

/-- Queue 0's entry at physical address 0x40_0000: enabled, VMID 1, a ring of four packets at 0x50_0000. -/
def stLaunch (prod : Byte) : State :=
  { stDie { die0 with regs := [(0x1008, 1), (0x4000, 32), (0x4100, 3), (0x5000, 0x400000), (0x6000, 0x700004)] } with
    mem := tables ++ [(0x400002, 0x50), (0x400006, 0x20), (0x400007, 0x82), (0x40000C, prod)] }
def entryWords (prod : Word) : List Word := [0x8220000000500000, prod <<< 32, 0, 0]

/-- LaunchesAndPushes: a packet that is read and an address that is not aligned; an entry that is enabled and one that is not; a ring with a free place,
and one whose four are taken; a pushed packet. -/
theorem witness_launches :
    (st0.issueCause role0 .load 0x10000 128 128 = none ∧ st0.issueCause role0 .load 0x10040 128 128 = some cALIGN ∧
      st0.windowOpen 0 role0 = false ∧ (stLog 1).windowOpen 0 role0 = true ∧ st0.releaseReady 0 role0 4 = true ∧
      (stCore { ops := [(0, op0 .store)] }).releaseReady 0 role0 4 = false ∧ (stLaunch 0).physCause 0 ((stLaunch 0).queueAddr 0) 0 = none) ∧
    (∀ prod, prod = 0 ∨ prod = 4 → ∃ s1, (stLaunch prod).queueEntry 0 = (entryWords (prod.zeroExtend 64), s1)) ∧
    (∃ e s1, st0.queueEntry 0 = (e, s1) ∧ (e.getD 0 0).toNat < 2 ^ 63) ∧
    (2 ^ 63 ≤ ((entryWords 0).getD 0 0).toNat ∧ ((entryWords 0).getD 0 0).toNat / 2 ^ 52 % 32 = 2 ∧
      ((entryWords 0).getD 0 0).toNat / 2 ^ 57 % 16 = role0.vmid ∧ ((entryWords 4).getD 1 0).toNat / 2 ^ 32 = 4) ∧
    (∃ packet s2, (stLaunch 0).loadRecord role0 .load 0x10000 16 128 = (.ok packet, s2)) ∧ (stLaunch 0).physCause 0 (packetAddr (entryWords 0) 0) 1 = none ∧
    ((stLaunch 0).pushPacket role0 0 (entryWords 0) (List.replicate 16 0)).role? 0 = some role0 := by
  refine ⟨by and_intros <;> decide +kernel, ?_, ⟨_, _, rfl, by decide +kernel⟩, by decide, okfst_ex (by decide +kernel), by decide +kernel, by decide +kernel⟩
  rintro prod (rfl | rfl) <;> exact pair_ex (by decide +kernel)

/-- LaunchesAndPushes: a push with records and one without; a descriptor that breaks the rules; a lane with a record and none; registers of ENQC's record that no slot is bound to, one that a slot is, and one with an error. -/
theorem witness_pushes :
    (st0.issueCause role0 .load 0x11000 64 64 = none ∧ st0.issueCause role0 .load 0x11020 64 64 = some cALIGN) ∧
    (∃ s1, (stMem spawnCells).loadRecord role0 .load 0x11000 8 64 = (.ok spawnWords, s1)) ∧
    (({ qva := 0x11000, w := [] } : SpawnQ).bad = true ∧ ({ qva := 0x11000, w := spawnWords } : SpawnQ).bad = false ∧
      ({ qva := 0x11000, w := spawnWords } : SpawnQ).cap < 5) ∧
    (∃ recs s2, (stMem spawnCells).loadRecord role0 .load 0x10000 8 8 = (.ok recs, s2)) ∧
    (role0.budget = 16 ∧ (List.range 8).filter (fun l => (role0.mask 0 &&& role0.mask 0 &&& lowLanes 8).getLsbD l) = [0, 1, 2, 3, 4, 5, 6, 7] ∧
      (List.range 8).filter (fun l => ({ role0 with masks := [] }.mask 0 &&& { role0 with masks := [] }.mask 0 &&& lowLanes 8).getLsbD l) = []) ∧
    (let regs : List TrackReg := (List.range 8).map fun k => .v (5 + k)
     (¬∃ p ∈ role0.bound, trackOf p.1 ∈ regs) ∧ (∃ p ∈ { role0 with bound := [(6, 1)] }.bound, trackOf p.1 ∈ regs) ∧
       ∃ b ∈ ({ st0 with badRegs := [(0, 6)] } : State).badRegs, b.1 = 0 ∧ trackOf b.2 ∈ regs) := by
  refine ⟨by decide +kernel, ?_, by decide, okfst_ex (by decide +kernel), by decide +kernel, by decide⟩
  obtain ⟨a, s1, h⟩ := okfst_ex (p := (stMem spawnCells).loadRecord role0 .load 0x11000 8 64) (by decide +kernel)
  have e : ((stMem spawnCells).loadRecord role0 .load 0x11000 8 64).1.toOption = some spawnWords := by decide +kernel
  rw [h] at e
  exact ⟨s1, by rw [h]; simp only [Except.toOption, Option.some.injEq] at e; rw [e]⟩

/-! #### Exceptions, special registers and the system instructions -/

/-- The role in handler mode, and as the supervisor's handler (VMID 0). -/
def handler0 : Role := { role0 with handler := true }
def priv0 : Role := { handler0 with vmid := 0 }
def sysWord (a : RegName) (sreg : BitVec 16) (smod : BitVec 12) : FmtS := { ty := .i64, mask := 0, d := 0x50, a := a, sreg := sreg, smod := smod, ws := 0 }

/-- ExceptionsAndReturns: a role whose trap enters its handler; one in handler mode and one without a handler, where the fault ring has room and where it has none. -/
theorem witness_exceptions : (∀ r, Issuing (stOf r) r) ∧ role0.handler = false ∧ role0.tvec ≠ 0 ∧ handler0.handler = true ∧ { role0 with tvec := 0 }.tvec = 0 ∧
    255 < 256 ∧ (stOf handler0).ringRoom 0 = true ∧ ({ stDie { die0 with regs := [] } with roles := [(0, handler0)] } : State).ringRoom 0 = false ∧
    (stOf handler0).gang? 1 = some gang0 := by
  refine ⟨fun _ => rfl, rfl, by decide, rfl, rfl, by decide, by decide +kernel, by decide +kernel, rfl⟩

/-- SpecialRegisters: each class of register, well formed to read and to write, in every mode; an FMT that is legal and one that is not. -/
theorem witness_special_registers : (∀ r, Issuing (stOf r) r) ∧ (Instr.sread { sysWord 0 0x01 0 with d := 1 }).wf = true ∧
    ([0x02#16, 0x10, 0x2F, 0x33, 0x35, 0x40, 0x42].all fun n => (Instr.sread (sysWord 0 n 0)).wf) = true ∧
    ([0x02#16, 0x10, 0x11, 0x12, 0x13, 0x14, 0x15, 0x16, 0x17, 0x21, 0x2F, 0x30, 0x31, 0x32, 0x33, 0x34, 0x35, 0x40].all
      fun n => (Instr.swrite { sysWord 0x44 n 0 with d := 0 }).wf) = true ∧
    handler0.handler = true ∧ (priv0.handler = true ∧ priv0.vmid = 0) ∧ role0.handler = false ∧ fmtOk 1 = true ∧ fmtOk 0x105 = false := by
  refine ⟨fun _ => rfl, by decide, by decide +kernel, by decide +kernel, rfl, ⟨rfl, rfl⟩, rfl, by decide, by decide⟩

/-- A second gang with one role that is off its core, or is saved; the control block at VA 0x1_0000 names it, and its area is at 0x20_0000. -/
def gang1 (st : GangState) : Gang := { vmid := 1, cores := [1], state := st, ctxSaved := st == .saved }
def role1 : Role := { role0 with gang := 2, core := 1, nlanes := 1, budget := 1 }
def stCtl (r : Role) (st : GangState) (mem : List Host.Cell) : State :=
  { stDie { die0 with tlb := tlb0 ++ [{ vmid := 1, asid := 0, va := 1, shift := 21, w0 := 0x200033, w1 := 0, leafAddr := 0x8010 }],
                      regs := [(0x1008, 1), (0x4000, 32), (0x4100, 3), (0x6000, 0x700004), (0x6200, 0x8800_00FF_0000_0000)] } with
    roles := [(0, r), (1, role1)], gangs := [(1, gang0), (2, gang1 st)], mem := tables.take 10 ++ [(0x8010, 0x33), (0x8012, 0x20)] ++ tables.drop 10 ++ mem }
/-- The words of a CTXSAVE's control block (gang, area, size), and of a save area's header. -/
def ctlCells (gid : Byte) : List Host.Cell := [(0x30000, gid), (0x3000A, 0x20), (0x30013, 1)]
def areaCells : List Host.Cell := [(0x30000, 0x45), (0x30001, 0x56), (0x30002, 0x41), (0x30003, 0x53), (0x30008, 2), (0x30030, 1)]

theorem bind_ex {α β : Type} {p : Option α} {f : α → Option β} {b : β} (h : p.bind f = some b) : ∃ a, p = some a ∧ f a = some b := by
  cases p with
  | none => simp at h
  | some a => exact ⟨a, rfl, h⟩

theorem ctl_ex {ε α β : Type} (p : Except ε α × β) (a : α) (h : p.1.toOption = some a) : p = (.ok a, p.2) := by
  obtain ⟨x, y⟩ := p
  cases x with
  | ok x => simp only [Except.toOption, Option.some.injEq] at h; rw [h]
  | error e => simp [Except.toOption] at h

theorem bind_ex2 {α β γ δ : Type} {p : δ × α} {f : α → Option β} {g : β → Option γ} {d : δ} {c : γ} (h : (p.1, (f p.2).bind g) = (d, some c)) :
    ∃ b, p = (d, p.2) ∧ f p.2 = some b ∧ g b = some c := by
  obtain ⟨x, hx, hg⟩ := bind_ex (Prod.mk.inj h).2
  exact ⟨x, Prod.ext (Prod.mk.inj h).1 rfl, hx, hg⟩

/-- SystemInstructions: addresses and ranges that a TLBINV or an LFLUSH takes and one that it does not; something in flight and nothing; lines that are
quiet; the fault ring empty and with a record. -/
theorem witness_system : (∀ r, Issuing (stOf r) r) ∧ (priv0.handler = true ∧ priv0.vmid = 0) ∧ role0.handler = false ∧
    ¬((0x0100000000000000#64).toNat < 2 ^ 56 ∨ 2 ^ 64 - 2 ^ 56 ≤ (0x0100000000000000#64).toNat) ∧ rangeBad 0x10000 4096 = false ∧ st0.inFlight .all = false ∧
    (stCore { ops := [(0, op0 .load)] }).inFlight .all = true ∧ (∀ c, role0.clause = some c → c.issued = true) ∧
    st0.opsDue 0 role0 (fun p _ => p.kind == .store || p.kind == .atomic) = false ∧
    (∃ s2, (stLine (line0 .S .copy 0x600)).flushLines [(0x30000, 128)] = some s2 ∧ s2.role? 0 = some role0) ∧
    (∃ s1 s2, (stLine (line0 .S .copy 0x600)).flushRanges role0 0x10000 (0x10000 + 128 - 1) (128 / 2 ^ 16 + 2) = ([(0x30000, 128)], s1) ∧
      s1.flushLines [(0x30000, 128)] = some s2 ∧ s2.role? 0 = some role0) ∧
    ringProd st0 0 = ringCons st0 0 ∧ ringProd (stDie { die0 with regs := [(0x6000, 0x700004), (0x6008, 0x100000000)] }) 0 ≠
      ringCons (stDie { die0 with regs := [(0x6000, 0x700004), (0x6008, 0x100000000)] }) 0 ∧
    (handler0.handler = true ∧ (stOf handler0).windowOpen 0 handler0 = false ∧ (stOf handler0).busyOps 0 handler0 = false) :=
  ⟨fun _ => rfl, ⟨rfl, rfl⟩, rfl, by decide, by decide +kernel, by decide +kernel, by decide +kernel, fun c h => (by cases h; rfl), by decide +kernel,
    bind_ex (by decide +kernel), ⟨_, bind_ex2 (f := fun s => s.flushLines [(0x30000, 128)]) (g := fun s => s.role? 0) (d := [(0x30000, 128)]) (c := role0)
      (p := (stLine (line0 .S .copy 0x600)).flushRanges role0 0x10000 (0x10000 + 128 - 1) (128 / 2 ^ 16 + 2)) (by decide +kernel)⟩, by decide +kernel, by decide +kernel, ⟨rfl, rfl, by decide +kernel⟩⟩

/-- SystemInstructions, CTXSAVE: another gang that is resident, whose area is large enough and may be written, and a number that no gang has. -/
theorem witness_ctxsave : ∀ gid, gid = 2 ∨ gid = 9 → ∃ ws s1, (stCtl handler0 .resident (ctlCells gid)).loadRecord handler0 .load 0x10000 3 8 = (.ok ws, s1) ∧
    ws = [gid.zeroExtend 64, 0x200000, 0x1000000] ∧ s1.gang? 2 = some (gang1 .resident) ∧ s1.gang? 9 = none ∧ s1.role? 1 = some role1 ∧ s1.role? 0 = some handler0 ∧
    s1.saveSize 2 (gang1 .resident) = 262408 ∧ ∃ s2, s1.areaOk (handler0.walker none) 0x200000 262408 = .ok ((), s2) := by
  rintro gid (rfl | rfl)
  · refine ⟨_, _, ctl_ex _ [2, 0x200000, 0x1000000] (by decide +kernel), by decide, by decide +kernel, by decide +kernel, by decide +kernel, by decide +kernel,
      by decide +kernel, ok2_ex (by decide +kernel)⟩
  · refine ⟨_, _, ctl_ex _ [9, 0x200000, 0x1000000] (by decide +kernel), by decide, by decide +kernel, by decide +kernel, by decide +kernel, by decide +kernel,
      by decide +kernel, ok2_ex (by decide +kernel)⟩

/-- SystemInstructions, CTXLOAD: a saved gang with a partition for VMID 1, and none for VMID 5. -/
theorem witness_ctxload : ∃ ws s1, (stCtl priv0 .saved areaCells).loadRecord handler0 .load 0x10000 7 8 = (.ok ws, s1) ∧ ws = [0x53415645, 2, 0, 0, 0, 0, 1] ∧
    s1.gang? 2 = some (gang1 .saved) ∧ s1.loadPart priv0 1 = some 0 ∧ s1.loadPart priv0 5 = none ∧ s1.couldRestore 2 (gang1 .saved) 0 = true ∧ s1.role? 0 = some priv0 :=
  ⟨_, _, ctl_ex _ [0x53415645, 2, 0, 0, 0, 0, 1] (by decide +kernel), rfl, by decide +kernel, by decide +kernel, by decide +kernel, by decide +kernel, by decide +kernel⟩

/-! #### Clauses and opportunities -/

/-- A header that waits for slot 2, and a word after it, at VA 0x1_0000; the header alone. -/
def clauseCells : List Host.Cell := [(0x30000, 0x20), (0x30006, 0xA0), (0x30007, 0xC1), (0x3000E, 0x20), (0x3000F, 0x60)]
def fetching : Role := { role0 with clause := none }
def stFetch (m : List Host.Cell) : State := { stOf fetching with mem := tables ++ m }
def header0 : Header := { hint := 0, yield := false, tack := false, wait := 2, count := 0 }
def waitingRole (n : Nat) : Role := { role0 with clause := some { clause0 with header := header0, issued := false }, waits := [(2, n)] }
def stHeader (n : Nat) : State := { stCore { slots := [(0, 0)], phase := .header 0 } with roles := [(0, waitingRole n)] }
def stChoose (r : Role) : State := { stCore { slots := [(0, 0), (1, 1)], phase := .choose } with roles := [(0, role0), (1, r)] }

/-- ClausesAndOpportunities: a role that fetches a header that is none, one that fetches a clause that is good, and one whose word is bad; a header whose
slot is 0 and one whose slot is not; a core with ready roles, of which one is urgent, and one with none. -/
theorem witness_clauses : (stFetch []).role? 0 = some fetching ∧ fetching.ended = false ∧ fetching.clause = none ∧ fetching.hold = .ready ∧ fetching.resume = false ∧ fetching.topped = false ∧
    (stFetch []).resident fetching = true ∧ (∀ m, (stFetch m).keptClause fetching fetching.pc = none) ∧ (∃ s1, (stFetch []).fetchPart fetching none 0x10000 1 = (.ok [0], s1)) ∧ decodeHeader 0 = none ∧
    (∀ m, m = clauseCells ∨ m = clauseCells.take 3 → ∃ s1, (stFetch m).fetchPart fetching none 0x10000 1 = (.ok [0xC1A0000000000020], s1) ∧
      ∃ s2, s1.fetchPart fetching none (0x10000 + 8) 1 = (.ok [if m = clauseCells then 0x6020000000000000 else 0], s2) ∧ s2.role? 0 = some fetching) ∧
    decodeHeader 0xC1A0000000000020 = some header0 ∧ (0x10000#64).toNat % 2 ^ 16 + 8 * (header0.count.toNat + 2) ≤ 2 ^ 16 ∧
    badWord 16 0 [0x6020000000000000] = none ∧ badWord 16 0 [0] = some 0 ∧
    (∀ n, (stHeader n).role? 0 = some (waitingRole n) ∧ ((stHeader n).core 0).phase = .header 0) ∧ (waitingRole 0).waitCount 2 = 0 ∧ (waitingRole 1).waitCount 2 ≠ 0 ∧
    header0.wait.getLsbD 1 = true ∧ ((stChoose role0).core 0).phase = .choose ∧ ((stChoose role0).core 0).ops = [] ∧ (((stChoose role0).core 0).slots.map (·.2)).Nodup ∧
    (∀ p ∈ (stChoose { role0 with count := 50 }).coreRoles 0, p.2.2.halting = false ∧ p.2.2.pend = []) ∧
    ((stChoose { role0 with count := 50 }).readyRoles 0).map (fun p => (p.2.1, p.2.2.count)) = [(0, 0), (1, 50)] ∧
    ({ stChoose role0 with roles := [] } : State).readyRoles 0 = [] := by
  refine ⟨rfl, rfl, rfl, rfl, rfl, rfl, by decide +kernel, fun _ => rfl, ⟨_, ctl_ex _ [0] (by decide +kernel)⟩, by decide +kernel, ?_, ?_⟩
  · rintro m (rfl | rfl) <;> refine ⟨_, ctl_ex _ [0xC1A0000000000020] (by decide +kernel), _, ctl_ex _ [_] (by decide +kernel), by decide +kernel⟩
  · and_intros <;> first | decide +kernel | exact fun _ => ⟨rfl, rfl⟩

/-! #### The scheduler -/

/-- The words of a launch descriptor of one team of one role of eight lanes, on `cores` cores of `sp` shares of 64 KiB. -/
def descWords (cores sp : Nat) : List Word := [BitVec.ofNat 64 (cores + 64 + sp * 2 ^ 13), 0, 0, 0, 0, 0, 0, 0, 8, 0, 0x10000, 8, 0, 0, 0, 0, 0, 0]
def shape0 (cores sp : Nat) : Shape :=
  { cores := cores, sp := 65536 * sp, stkbase := 0, stride := 0, limit := 0, tlbase := 0, teams := [[{ entry := 0x10000, budget := 8, lanes := 8 }]] }
/-- A head of three gangs with one dependence, on the counter at `a` with target `target`. -/
def head0 (a target : Word) (deps : Bool) (cores sp : Nat) : Head :=
  { cons := 0, packet := [0, 3, 2, 0, a, target, 0, 0, 0, 0, 0, 0, 0, 0, 0, 0], desc := descWords cores sp, deps := deps }
/-- Queue 0 is enabled, under the default partition of VMID 1, with a head; one gang has a core of every cluster. -/
def busyGang : Gang := { gang0 with cores := (List.range 16).map fun c => 48 * c }
def stQueue (h : Head) (g : Gang) : State :=
  { stLaunch 0 with dies := [(0, { die0 with regs := [(0x1008, 1), (0x4000, 32), (0x4100, 3), (0x5000, 0x400001), (0x6000, 0x700004), (0x6200, 0x8800_00FF_0000_0000)] }), (1, {}), (2, {}), (3, {})],
                    queues := [(0, { head := some h })], gangs := [(1, g)] }

theorem isok_ex {p : Except VStop Bool} {b : Bool} (h : (match p with | .ok x => x == b | .error _ => false) = true) : p = .ok b := by
  match p, h with
  | .ok x, h => rw [beq_iff_eq.mp h]

theorem iscause_ex {p : Except VStop Bool} (h : (match p with | .error (.cause _ _) => true | _ => false) = true) : ∃ c a, p = .error (.cause c a) := by
  match p, h with
  | .error (.cause c a), _ => exact ⟨c, a, rfl⟩

/-- GangsStartWhole, SchedulerSteps: heads whose dependence is met, is not met, and faults; a gang that has a place and one that has none. -/
theorem witness_launch : (shape0 1 1).teams[0]? = some [{ entry := 0x10000, budget := 8, lanes := 8 }] ∧
    (∀ h g, (stQueue h g).queueState 0 = { head := some h }) ∧ (stQueue (head0 0x10000 0 false 1 1) gang0).served? 0 = some [0x8220000000500000, 0, 0, 0] ∧
    (head0 0x10000 0 false 1 1).depList = [(0x10000, 0)] ∧ qCons [0x8220000000500000, 0, 0, 0] = 0 ∧
    (let met := fun (d : Word × Nat) => (stQueue (head0 0x10000 0 false 1 1) gang0).depMet (agentWalker 0 1 0 0) d
     met (0x10000, 0) = .ok true ∧ met (0x10000, 1) = .ok false ∧ ∃ c a, met (0x30000, 0) = .error (.cause c a)) ∧
    (∀ g, g = gang0 ∨ g = busyGang → (stQueue (head0 0 0 true 48 5) g).loadHeads? = none ∧ (stQueue (head0 0 0 true 48 5) g).serveSaved? = none ∧
      (stQueue (head0 0 0 true 48 5) g).serveSpawns? = none ∧ (stQueue (head0 0 0 true 48 5) g).partOfQueue 0 1 = some 0 ∧
      let s := stQueue (head0 0 0 true 48 5) g
      let fits := fun (c k : Nat) => !(s.reservedFrom 0 0 c (some 0)) && s.coreFits c 0 ((shape0 48 5).need k) (shape0 48 5).sp {} (Need.zero, 0) false
      (placeOn fits 48 (s.clustersOf 0)).isSome = decide (g = gang0)) ∧
    (head0 0 0 true 48 5).shape = some (shape0 48 5) ∧ (head0 0 0 true 48 5).coop = false ∧ (head0 0 0 true 48 5).ngangs = 3 ∧
    (∀ done, (stOf { role0 with ended := true }).retireReady 1 { gang0 with done := done } = true) ∧
    ∃ s1, (st0.tick (st0.gangPts gang0)).vaAdd (agentWalker 0 1 0 0) 0x10000 1 = .ok ((), s1) := by
  refine ⟨rfl, fun h g => rfl, by decide +kernel, by decide +kernel, by decide, ⟨isok_ex (by decide +kernel), isok_ex (by decide +kernel), iscause_ex (by decide +kernel)⟩, ?_, by decide +kernel,
    by decide, by decide, fun _ => rfl, ok2_ex (by decide +kernel)⟩
  rintro g (rfl | rfl)
  · exact ⟨by decide +kernel, by decide +kernel, by decide +kernel, by decide +kernel, by decide +kernel⟩
  · exact ⟨by decide +kernel, by decide +kernel, by decide +kernel, by decide +kernel, by decide +kernel⟩

/-- The queue of `spawnCells` with one record and LDESC at VA 0x1_4000, or elsewhere; a parked push. -/
def queueCells (tail : Byte) (ldesc : List Host.Cell) : List Host.Cell :=
  ldesc ++ spawnCells ++ [(0x31024, tail), (0x34000, 0x41), (0x34040, 8), (0x34052, 1), (0x34058, 8)]
def push0 : Push := { rid := 0, query := none, records := [List.replicate 8 0], depth := 0, part := 0 }
def spawn0 : Spawn := { qva := 0x11000, vmid := 1, asid := 0, rank := 0, parked := [push0] }
def stSpawn (x : Spawn) (m : List Host.Cell) : State := { stOf role0 with spawns := [x], mem := tables ++ m }
def qOf (ldesc tail : Word) : SpawnQ := { qva := 0x11000, w := [ldesc, 0x12000, 0x13000, 0x01040004, tail <<< 32, 0, 0, 0] }
def ldescAt (b0 b1 b2 : Byte) : List Host.Cell := [(0x31000, b0), (0x31001, b1), (0x31002, b2)].filter fun c => c.2 != 0
/-- A ready batch that asks for 48 cores of 320 KiB, a gang on a core of every cluster, and its role, parked on the queue. -/
def batch0 : Batch := { first := 0, count := 1, depth := 0, gang := none, retired := false }
def stFull : State :=
  { stSpawn { spawn0 with ready := some (batch0, descWords 48 5) } (queueCells 1 (ldescAt 0 0x40 1)) with
    gangs := [(1, { busyGang with part := 0 })], roles := [(0, { role0 with hold := .parked 0x11000 1 0 })] }

/-- The state that a read leaves. -/
def leaves {α ε : Type} (p : Except ε (α × State)) : State := match p with
  | .ok x => x.2
  | .error _ => {}

theorem ok_at {α ε : Type} {p : Except ε (α × State)} (a : α) (h : p.toOption.map (·.1) = some a) : p = .ok (a, leaves p) := by
  cases p with
  | ok x => simp only [Except.toOption, Option.map_some, Option.some.injEq] at h; simp only [leaves, ← h]
  | error e => simp [Except.toOption] at h

theorem bad_ex {α : Type} {p : Except VStopped α} (h : (match p with | .error (.bad, _) => true | _ => false) = true) : ∃ s2, p = .error (.bad, s2) := by
  match p, h with
  | .error (.bad, s2), _ => exact ⟨s2, rfl⟩

theorem cause_ex {α : Type} {p : Except VStopped α} (h : (match p with | .error (.cause _ _, _) => true | _ => false) = true) : ∃ c a s2, p = .error (.cause c a, s2) := by
  match p, h with
  | .error (.cause c a, s2), _ => exact ⟨c, a, s2, rfl⟩

/-- SchedulerSteps, spawn queues: a parked push that has room; batches that are formed, whose descriptor is malformed, and faults; a full queue whose batch
has no place and a gang whose save makes one. -/
theorem witness_spawn : (∀ m, (stSpawn spawn0 m).spawn? 0x11000 1 0 = some spawn0) ∧ spawn0.parked = [push0] ∧
    (∃ s1 s2 y, (stSpawn spawn0 (queueCells 0 [])).vaWords (role0.walker none) .load 0x11000 8 = .ok ((qOf 0 0).w, s1) ∧
      (s1.tick (s1.core role0.core).pts).writePush (role0.walker none) .store (qOf 0 0) push0 = .ok ((), s2) ∧ s2.role? 0 = some y) ∧
    (qOf 0 0).bad = false ∧ (qOf 0 0).room 1 = true ∧ spawn0.ready = none ∧
    batchOf (qOf 0x14000 1) spawn0 = some batch0 ∧
    (∃ s1 s2, (stSpawn spawn0 (queueCells 1 (ldescAt 0 0x40 1))).readSpawn spawn0 = .ok (qOf 0x14000 1, s1) ∧
      s1.readShape spawn0.walker 0x14000 = .ok (descWords 1 0, s2) ∧ s2.spawn? 0x11000 1 0 = some spawn0) ∧
    (∃ s1, (stSpawn spawn0 (queueCells 1 (ldescAt 0x20 0x40 1))).readSpawn spawn0 = .ok (qOf 0x14020 1, s1) ∧ ∃ s2, s1.readShape spawn0.walker 0x14020 = .error (.bad, s2)) ∧
    (∃ s1, (stSpawn spawn0 (queueCells 1 (ldescAt 0 0 3))).readSpawn spawn0 = .ok (qOf 0x30000 1, s1) ∧
      ∃ c a s2, s1.readShape spawn0.walker 0x30000 = .error (.cause c a, s2)) ∧
    (let x : Spawn := { spawn0 with ready := some (batch0, descWords 48 5) }
     (stFull.gangs.map (·.1)).Nodup ∧ stFull.fullOrder = [x] ∧ (∃ s1, stFull.readSpawn x = .ok (qOf 0x14000 1, s1)) ∧ shapeOf (descWords 48 5) = some (shape0 48 5) ∧
     (∀ p ∈ stFull.gangs, p.2.state ≠ .saving) ∧ stFull.batchPlace x (qOf 0x14000 1) batch0 (shape0 48 5) = none ∧
     stFull.makesRoom x (qOf 0x14000 1) batch0 (shape0 48 5) = some 1 ∧ stFull.gang? 1 = some { busyGang with part := 0 }) := by
  refine ⟨fun _ => rfl, rfl, ⟨_, _, role0, ok_at _ (by decide +kernel), ok_at () (by decide +kernel), by decide +kernel⟩, by decide, by decide, rfl, by decide +kernel,
    ⟨_, _, ok_at _ (by decide +kernel), ok_at _ (by decide +kernel), by decide +kernel⟩, ⟨_, ok_at _ (by decide +kernel), bad_ex (by decide +kernel)⟩,
    ⟨_, ok_at _ (by decide +kernel), cause_ex (by decide +kernel)⟩, ?_⟩
  exact ⟨by decide, by decide +kernel, ⟨_, ok_at _ (by decide +kernel)⟩, by decide +kernel, by decide, by decide +kernel, by decide +kernel, rfl⟩

/-! #### Saving, pending traps, the fault ring and the side log -/

def pend0 : PendTrap := { cause := cPERM, addr := 0x10000, pc := 0x10008, final := true, wr := true }
def stRingFull (r : Role) : State :=
  { stOf r with dies := [(0, { die0 with regs := [(0x1008, 1), (0x4000, 32), (0x4100, 3), (0x6000, 0x700004), (0x6008, 0x10_0000_0000)] }), (1, {}), (2, {}), (3, {})] }
def pendRole : Role := { role0 with clause := none, pend := [pend0] }
def saveReq0 : SaveReq := { rid := 1, area := 0x10000, size := 0x1000000, dst := 0x50, ws := 1 }
/-- Gang 1 is being saved, for CTXSAVE or not; role 1 of another gang asks. -/
def stSaving (r : Role) (q : Option SaveReq) : State :=
  { stOf r with gangs := [(1, { gang0 with state := .saving, saveArea := q }), (2, gang1 .resident)], roles := [(0, r), (1, { role1 with vmid := 1 })] }
/-- Gang 2 is to come back for the CTXLOAD of role 0. -/
def loadReq0 : SaveReq := { rid := 0, area := 0x10000, size := 0, dst := 0x50, ws := 1 }
def stLoading : State :=
  { stCtl { role0 with hold := .place } .loading [] with saveOrder := [2], gangs := [(1, gang0), (2, { gang1 .loading with saveArea := some loadReq0 })] }

/-- SchedulerSteps: a pending trap at a boundary and within a clause; a gang that is saved at once, for CTXSAVE, once its role stands, or not at all; a gang
that comes back; a role held at a counter. -/
theorem witness_saves : (stOf pendRole).role? 0 = some pendRole ∧ pendRole.atBoundary = true ∧ (stOf pendRole).ringRoom 0 = true ∧ pendRole.tvec ≠ 0 ∧ cPERM < 256 ∧
    (let r : Role := { pendRole with clause := some clause0 }
     r.atBoundary = false ∧ (stOf r).stoppedOp 0 r = none) ∧ (stRingFull pendRole).ringRoom 0 = false ∧
    (∀ r q, (stSaving r q).gang? 1 = some { gang0 with state := .saving, saveArea := q }) ∧
    (stSaving role0 none).saveReady 1 { gang0 with state := .saving } = false ∧ (stSaving pendRole none).saveReady 1 { gang0 with state := .saving } = true ∧
    (∃ p ∈ (stSaving role0 none).roles, p.2.gang = 1 ∧ p.2.ended = false) ∧
    (∀ p ∈ (stSaving { role0 with ended := true } none).roles, p.2.gang = 1 → p.2.ended = true) ∧
    (let g : Gang := { gang0 with state := .saving, saveArea := some saveReq0 }
     (stSaving pendRole (some saveReq0)).saveReady 1 g = true ∧ (stSaving pendRole (some saveReq0)).role? 1 = some { role1 with vmid := 1 } ∧
     ∃ s1, (stSaving pendRole (some saveReq0)).vaStores { ({ role1 with vmid := 1 } : Role).walker none with handler := true } .store
       ((saveHeader 1 g ((stSaving pendRole (some saveReq0)).gangPts g) ((stSaving pendRole (some saveReq0)).saveSize 1 g)).zipIdx.map
         (fun p => (((saveReq0.area + 8 * p.2 : Nat) : Int), 8, p.1.toNat)) ++ (stSaving pendRole (some saveReq0)).spillWrites 1 g saveReq0.area) = .ok ((), s1)) ∧
    (let g : Gang := { gang1 .loading with saveArea := some loadReq0 }
     stLoading.loadHeads? = none ∧ stLoading.gang? 2 = some g ∧ g.prio < 4 ∧ stLoading.loadAlive loadReq0 = true ∧ stLoading.restorePlace 2 g = some [0] ∧
     let s1 := stLoading.restoreGang 2 g [0]
     s1.role? 0 = some { role0 with hold := .place } ∧ ∃ s2, s1.vaStores { ({ role0 with hold := .place } : Role).walker none with handler := true } .store
       [((loadReq0.area : Nat), 8, 0)] = .ok ((), s2) ∧ s2.role? 0 = some { role0 with hold := .place }) ∧ loadReq0.ws < 8 ∧
    (∀ a, (stOf { role0 with hold := .counter a }).role? 0 = some { role0 with hold := .counter a }) ∧ ∀ a, role0.hold ≠ .counter a := by
  refine ⟨rfl, rfl, by decide +kernel, by decide, by decide, by decide +kernel, by decide +kernel, fun _ _ => rfl, by decide +kernel, by decide +kernel,
    ⟨_, List.mem_cons_self, rfl, rfl⟩, by decide +kernel, ?_, ?_, by decide, fun _ => rfl, fun _ h => by cases h⟩
  · exact ⟨by decide +kernel, by decide +kernel, ok2_ex (by decide +kernel)⟩
  · refine ⟨?_, rfl, ?_, ?_, ?_, ?_, _, ok_at () ?_, ?_⟩ <;> decide +kernel

/-- The record of index 0 in die 0's ring, of gang 1, complete, of KIND 0 or 1. -/
def recordCells (kind done : Byte) : List Host.Cell := [(0x700018, 1), (0x700020, 3)] ++ (if kind = 0 then [] else [(0x700021, 4 * kind)]) ++ [(0x700028, 1 + 2 * done)]
def stRecord (kind done : Byte) (r : Role) (k : Core) (g : GangState) : State :=
  { stCore k with roles := [(0, r)], mem := tables ++ recordCells kind done, gangs := [(1, { gang0 with state := g })] }
def entryR : LogEntry := { log0 0 with state := .logged cNOTPRESENT (some (0, 0)) }
def entryFar : LogEntry := { log0 0 with body := .elems .f64 .ordinary [(0, 0x30000, 0)] }
def storeOp : Op := { op0 .store with dst := none, ws := 0 }
def refused0 : StReqMsg := { stReq 0x600 with op := 0 }
def stRefused : State := stCore { ops := [(0, storeOp)] }
def stoppedLoad : Op := { op0 .load with stop := .record 0 0 }
def replayRole : Role := { role0 with wver := (log0 0).wver, asid := (log0 0).asid, handler := (log0 0).handler }

theorem pair3_at {α β γ : Type} {P : γ → Prop} [DecidablePred P] {p : Option (α × β × γ)} (h : p.any (fun x => decide (P x.2.2)) = true) :
    ∃ a b c, p = some (a, b, c) ∧ P c := by
  match p, h with
  | some (a, b, c), h => exact ⟨a, b, c, rfl, of_decide_eq_true h⟩

/-- FaultRingLogAndReclaim: records that are done, complete and of each kind, of a gang that is resident and one that is saved; entries whose replay is
performed and whose replay faults again; a refused store with room for its record; slots of which one may go, and none. -/
theorem witness_fault_ring :
    (∀ kind done, (kind = 0 ∨ kind = 1 ∨ kind = 2) → (done = 0 ∨ done = 1) → ∀ r k g, (stRecord kind done r k g).gangs = [(1, { gang0 with state := g })] ∧
      (stRecord kind done r k g).roles = [(0, r)]) ∧
    (∃ ws s0, (stRecord 0 1 role0 {} .resident).recordWords 0 0 = (ws, s0) ∧ (ws.getD 5 0).toNat / 2 % 2 = 1) ∧
    (∀ kind, kind = 0 ∨ kind = 1 → ∀ g, g = .saved ∨ g = .resident → ∃ ws s0, (stRecord kind 0 { role0 with hold := .service 0 0 } { log := [entryR] } g).recordWords 0 0 = (ws, s0) ∧
      (ws.getD 5 0).toNat = 1 ∧ (ws.getD 4 0).toNat / 2 ^ 10 % 4 = kind.toNat ∧ (ws.getD 3 0).toNat % 2 ^ 32 = 1 ∧
      let s1 := (s0.markDone 0 0).send (.faultRingSpace 0)
      s1.gang? 1 = some { gang0 with state := g } ∧ s1.roles = [(0, { role0 with hold := .service 0 0 })] ∧ s1.cores.map (fun p => (p.1, p.2.log)) = [(0, [entryR])]) ∧
    (∃ ws s0, (stRecord 0 0 role0 { ops := [(0, stoppedLoad)] } .resident).recordWords 0 0 = (ws, s0) ∧
      let s1 := (s0.markDone 0 0).send (.faultRingSpace 0)
      (∀ p ∈ s1.roles, p.2.hold ≠ .service 0 0) ∧ s1.cores = [(0, { ops := [(0, stoppedLoad)] })] ∧ stoppedLoad.stop = .record 0 0) ∧
    ((stLog 1).core 0).log.find? (fun x => x.id == (log0 0).id) = some (log0 0) ∧ (log0 0).state ≠ .lost ∧ (log0 0).state.awaits = false ∧
    (((stLog 1).core 0).entriesOf 0).head? = some (log0 0) ∧ (stLog 1).role? 0 = some role0 ∧
    (∀ p ∈ ((stLog 1).core 0).opsOf 0, p.1 < (log0 0).after → p.2.kind ≠ .store ∧ p.2.kind ≠ .atomic ∧ p.2.kind ≠ .load) ∧
    (∃ s1, (stLog 1).storeElems replayRole .f64 .ordinary [(0, 0x10000, 0)] = (none, s1)) ∧
    (∃ w left s1, (stLog 1).storeElems replayRole .f64 .ordinary [(0, 0x30000, 0)] = (some (w, left), s1)) ∧
    (stRefused.core 0).ops.find refused0.op = some storeOp ∧ stRefused.role? storeOp.rid = some role0 ∧ storeOp.kind = .store ∧
    (let s1 := stRefused.updCore 0 fun k => { k with ops := k.ops.del 0 }
     (s1.core 0).logRoom (storeOp.entry 0).body = true ∧ ∃ d idx s2, s1.writeRecord { role0 with asid := storeOp.asid }
       { addr := BitVec.ofNat 64 (storeOp.entry 0).addr, pc := storeOp.pc, entry := (s1.core 0).freeEntry, kind := 1, wr := true, cause := cPERM } = some (d, idx, s2) ∧
       ∀ p ∈ (s2.core 0).ops, p.1 ≤ refused0.op) ∧ role0.core = 0 ∧ role0.ended = false ∧
    (let c : Chain := { addr := 0x600000, busy := false, region := 0, leafAddr := 0x610000, slots := [⟨true, 0x10, 1⟩, ⟨true, 0x11, 0⟩, ⟨false, 0, 0⟩], raddr := 0, pubv := 5,
                        floor := 5, hen := false, hold := 0 }
     c.reclaimable 3 = some (2, ⟨true, 0x11, 0⟩) ∧ { c with floor := 0 }.reclaimable 3 = none) := by
  refine ⟨fun _ _ _ _ _ _ _ => ⟨rfl, rfl⟩, ⟨_, _, rfl, by decide +kernel⟩, ?_, ⟨_, _, rfl, by decide +kernel⟩, by decide +kernel, by decide, by decide, by decide +kernel, rfl,
    by decide +kernel, pair_ex (by decide +kernel), ?_, rfl, rfl, rfl, ?_, rfl, rfl, by decide, by decide⟩
  · rintro kind (rfl | rfl) g (rfl | rfl) <;> exact ⟨_, _, rfl, by decide +kernel⟩
  · have h : ((stLog 1).storeElems replayRole .f64 .ordinary [(0, 0x30000, 0)]).1.isSome = true := by decide +kernel
    obtain ⟨x, hx⟩ := Option.isSome_iff_exists.mp h
    exact ⟨x.1, x.2, pair_ex hx⟩
  · exact ⟨by decide +kernel, pair3_at (by decide +kernel)⟩

/-! #### Pages, the life of the package, the outside, and the whole machine -/

/-- Die 0 with the version tables of VMID 0 at 0x60_0000 (one record) and 0x70_0000 (regions), a free ring of 64 frames at 0x80_0000 with one frame in each
tier, and an engine that is enabled with LOW and HIGH as given. -/
def dieP : DieState :=
  { die0 with regs := [(0x1008, 1), (0x2000, 1), (0x2008, 0x0000000400000002), (0x2010, 0x800006), (0x2018, 0x100000000), (0x2208, 2), (0x2210, 0x900006), (0x3000, 0x700001),
                       (0x3008, 0x600000), (0x4000, 32), (0x6000, 0x700004)] }
def stPages (d : DieState) : State :=
  { stDie d with mem := tables ++ [(0x60000A, 0x61), (0x600010, 1), (0x600012, 0x10), (0x600018, 1), (0x610000, 1), (0x610001, 2), (0x610002, 0x20), (0x610008, 3), (0x700000, 5), (0x700004, 5)] }
def cow0 (st : CowStage) : CowJob := { leafAddr := 0x610000, vmid := 0, va := 0x10000, chainAddr := 0x600000, w := 6, oldFrame := 0x20, stage := st }
def mig0 (st : MigStage) : MigJob := { victim := 0x20, leafAddr := 0x610000, va := 0x10000, asid := 0, vmid := 1, stage := st }
def stCow (st : CowStage) : State := stPages { dieP with cow := [cow0 st] }
def stMig (st : MigStage) : State := stPages { dieP with mig := [(0, mig0 st)] }
def ret0 : Return := { die := 0, tier := 0, frame := 0x30 }
def busyOp (line : Nat) : Op :=
  { op0 .load with waiting := [{ lane := 0, va := 0x10008, target := .mem line 8 ⟨0x200, 0, 1, none⟩ ⟨true, true, false, false, 0⟩ false false }] }

/-- PagesMove: a copy in each of its stages, with its frame quiet and not; a record that the sweep reclaims and a table that ends; a low ring, an engine that
begins, a migration in each stage, and a return with room and without. -/
theorem witness_pages : (∀ st, ((stCow st).die 0).cow = [cow0 st] ∧ (cow0 st).owes = none) ∧ (stCow .request).peek 0x600000 8 0 / 2 ^ 16 % 2 = 0 ∧
    (stCow .request).peek 0x600000 8 0 < 2 ^ 64 ∧ ((stCow .frame).freePeek 0 (ringOf 0 0x20).tier).isSome = true ∧
    (stCow (.copying 0x40)).frameQuiet 0x20 = true ∧ (stCow (.copying 0x40)).frameQuiet 0x40 = true ∧
    (∀ l f, (l = 0x4000 ∧ f = 0x20) ∨ (l = 0x8000 ∧ f = 0x40) → ({ stCow (.copying 0x40) with cores := [(0, { ops := [(0, busyOp l)] })] } : State).frameQuiet f = false) ∧
    (((stCow (.copying 0x40)).dropPage 0x610000 0x20).flushFrame 0x20).frameBad 0x20 = false ∧
    ((stPages dieP).die 0).cow = [] ∧ ((stPages dieP).die 0).sweepOwes = none ∧ (stPages dieP).chainAddr? 0 0 0 = some 0x600000 ∧ (stPages dieP).chainAddr? 0 1 0 = none ∧
    (∃ c s1, (stPages dieP).readChain 0 0 0x600000 = (some c, s1) ∧ c.busy = false ∧ (BitVec.ofNat 64 (s1.peek c.leafAddr 8 0)).getLsbD 0 = true ∧
      (BitVec.ofNat 64 (s1.peek c.leafAddr 8 0)).getLsbD 9 = true ∧
      s1.homeOf (lineOf (framePA ((BitVec.ofNat 64 (s1.peek c.leafAddr 8 0)).toNat / 2 ^ 16 % 2 ^ 36))) = 0 ∧ ∃ k x, c.reclaimable (s1.leafVer c.leafAddr) = some (k, x) ∧ s1.frameQuiet x.frame = true) ∧
    (stPages dieP).lowf 0 = true ∧ (stPages dieP).migBit 0 2 3 = false ∧ (stPages {}).lowf 0 = (stPages {}).migBit 0 2 3 ∧
    ((stPages dieP).die 0).mig.find 0 = none ∧ (stPages dieP).migBit 0 0 2 = false ∧ (stPages dieP).migActive 0 0 = true ∧
    (∀ st, ((stMig st).die 0).mig.find 0 = some (mig0 st) ∧ (mig0 st).owes = none) ∧ (stMig (.copying 0x40)).frameQuiet 0x20 = true ∧ (stMig (.copying 0x40)).frameQuiet 0x40 = true ∧
    (stPages dieP).migBit 0 1 4 = false ∧
    ({ stMig (.copying 0x40) with cores := [(0, { ops := [(0, busyOp 0x4000)] })] } : State).frameQuiet 0x20 = false ∧
    ((stPages { dieP with returns := [ret0] }).die 0).returns = [ret0] ∧ (stPages { dieP with returns := [ret0] }).freeRoom 0 0 = true ∧
    (stPages { die0 with returns := [ret0] }).freeRoom 0 0 = false := by
  refine ⟨fun _ => ⟨rfl, rfl⟩, by decide +kernel, by decide +kernel, by decide +kernel, by decide +kernel, by decide +kernel, ?_, by decide +kernel, rfl, rfl,
    by decide +kernel, by decide +kernel, ?_, by decide +kernel, by decide +kernel, by decide +kernel, rfl, by decide +kernel, by decide +kernel, fun _ => ⟨rfl, rfl⟩, ?_⟩
  · rintro l f (⟨rfl, rfl⟩ | ⟨rfl, rfl⟩) <;> decide +kernel
  · have h : ((stPages dieP).readChain 0 0 0x600000).1.any (fun c =>
        let s1 := ((stPages dieP).readChain 0 0 0x600000).2
        let w := BitVec.ofNat 64 (s1.peek c.leafAddr 8 0)
        decide (c.busy = false ∧ w.getLsbD 0 = true ∧ w.getLsbD 9 = true ∧ s1.homeOf (lineOf (framePA (w.toNat / 2 ^ 16 % 2 ^ 36))) = 0) &&
          (c.reclaimable (s1.leafVer c.leafAddr)).any fun x => s1.frameQuiet x.2.frame) = true := by decide +kernel
    rw [Option.any_eq_true] at h
    obtain ⟨c, hc, h⟩ := h
    rw [Bool.and_eq_true, decide_eq_true_eq, Option.any_eq_true] at h
    obtain ⟨⟨h1, h2, h3, h4⟩, ⟨k, x⟩, hx, hq⟩ := h
    exact ⟨c, _, Prod.ext hc rfl, h1, h2, h3, h4, k, x, hx, hq⟩
  · and_intros <;> decide +kernel

/-- Every die lets its seams sleep after `n` microseconds; the seam between dies 0 and 1 is in state `l`. -/
def stSeam (n : Nat) (l : Fin 5) : State :=
  let die : DieState := { regs := [(0x4000, BitVec.ofNat 64 (32 + n * 2 ^ 32))] }
  { dies := [(0, die), (1, die), (2, die), (3, die)], seams := [(seamKey 0 1, { lstate := l })] }

/-- SeamsAndDeadDies: a seam that may sleep and one that may not, and one in each of the other states; fewer than three periods without a heartbeat and three, and a die that is dead and one that is not. -/
theorem witness_dead_dies : (∀ n, ((stSeam n 0).seams.get {} (seamKey 0 1)).lstate = 0 ∧ ((stSeam n 0).seams.get {} (seamKey 0 1)).held = []) ∧
    (∀ d : Die, d < 2 → 0 < ((stSeam 100 0).reg d 0x4000).toNat / 2 ^ 32 % 2 ^ 16 ∧ ((stSeam 0 0).reg d 0x4000).toNat / 2 ^ 32 % 2 ^ 16 = 0) ∧
    ((stSeam 0 2).seams.get {} (seamKey 0 1)).lstate = 2 ∧ ((stSeam 0 3).seams.get {} (seamKey 0 1)).lstate = 3 ∧
    ({ st0 with hearts := [(1, 3)] } : State).hearts.get 0 (4 * 0 + 1) = 3 ∧ st0.hearts.get 0 (4 * 0 + 1) < 3 ∧ (st0.die 0).dead.getLsbD 1 = false ∧
    ((stDie { die0 with dead := 2 }).die 0).dead.getLsbD 1 = true ∧ st0.isDead 0 = false ∧ st0.isDead 1 = false ∧
    ({ stDie { die0 with dead := 2 } with dies := [(0, die0), (1, {}), (2, { dead := 2 }), (3, {})] } : State).isDead 1 = true ∧
    (({ stDie { die0 with dead := 2 } with dies := [(0, die0), (1, {}), (2, { dead := 2 }), (3, {})] } : State).die 0).dead.getLsbD 1 = false := by
  refine ⟨fun _ => ⟨rfl, rfl⟩, ?_⟩
  decide +kernel

/-- RegistersTakeWrites: a context with ERR and without, with commands accepted and all complete; frames of both tiers; caches without lines and with; a legal
stripe; a migration engine whose HIGH is not above LOW; partitions that are idle and one that is not; no line of a VMID. -/
theorem witness_registers : ({ stCtx ctx0 [] with ctxs := [(.shared 0 3, { ctx0 with err := true })] } : State).ctx (.shared 0 3) = { ctx0 with err := true } ∧ ((stCtx ctx0 []).ctx (.shared 0 3)).err = false ∧
    ({ ctx0 with accepted := 1 } : Ctx).accepted ≠ ({ ctx0 with accepted := 1 } : Ctx).completed ∧ ctx0.accepted = ctx0.completed ∧
    (0x8000000000000005#64).toNat % 2 ^ 23 < 2 ^ 22 ∧ (0x8000000000000005#64).toNat / 2 ^ 23 % 2 ^ 40 = 0 ∧ (0x8000000000000005#64).getLsbD 63 = true ∧ (5#64).toNat % 2 ^ 23 < 2 ^ 21 ∧
    (st0.die 0).lines = [] ∧ (1#64).toNat % 4 ≠ 3 ∧ 32 ≤ (st0.die 0).hashsel.toNat / 4 % 64 + (1#64).toNat % 4 ∧ ((stLine (line0 .S .copy 0x600)).die 0).lines ≠ [] ∧
    0x0100_0000 ≤ 0x0100_0008 ∧ 0x0100_0008 % 8 = 0 ∧ 0x0100_0008 < 0x0120_0000 ∧ 0x6328 % 8 = 0 ∧ ((7#64).getLsbD 0 = true) ∧
    ({ st0 with roles := [], gangs := [] } : State).partsIdle ([0].filter fun p => p < ({ st0 with roles := [], gangs := [] } : State).partitions) = true ∧
    st0.partsIdle ([0].filter fun p => p < st0.partitions) = false ∧ (∀ x : Die, ∀ l ∈ (st0.die x).lines, l.vmid ≠ 5) := by decide +kernel

def hostRead : HostReq := { kind := .read, pa := hostBase, size := 8, data := 0, vmid := 0 }
def podRead : PodReq := { kind := .read, exp := 0, off := 0, size := 8, data := 0, vmid := 1, src := 0 }
def stExport (w1 : Word) : State :=
  { stDie { die0 with regs := [(0x1008, 1), (0x4000, 32), (0x4100, 3), (0x6000, 0x700004), (0x7000, 0xE100_0000_0040_0000), (0x7008, w1)] } with boot := 0x10008 }

/-- The export of `stExport 1`, with flow 2 bound to VMID 1 and the pod's source 5, ordered, next sequence number 10, and `n` requests held. -/
def stFlow (n : Nat) : State :=
  { stExport 1 with dies := [(0, { (stExport 1).die 0 with flows := [(2, (BitVec.ofNat 64 (2 ^ 63 + 2 ^ 62 + 2 ^ 58 + 2 * 2 ^ 56 + 5 * 2 ^ 46 + 10), 0))],
                                                           podHeld := List.replicate n podRead }), (1, {}), (2, {}), (3, {})] }

/-- OutsideRequests: a pod request on a flow whose entry takes it or does not, that comes again, early, too early with the buffer full, and in turn. -/
theorem witness_flow :
    ((stFlow 0).homeOf (lineOf 0x400000) = 0 ∧ ((stFlow 0).die 0).takesFrom 2 1 2 5 = true ∧ ((stFlow 0).die 0).takesFrom 2 1 2 6 = false) ∧
    ((stFlow 0).die 0).arrival 2 9 = .duplicate ∧ ((stFlow 0).die 0).arrival 2 11 = .held ∧ ((stFlow 511).die 0).arrival 2 11 = .full ∧
    ((stFlow 0).die 0).arrival 1 0 = .deliver false ∧ ((stFlow 0).die 0).takesFrom 1 1 2 0 = true := by decide +kernel

/-- OutsideRequests: a doorbell to an enabled queue, with the mark and without, within its size and beyond it; a request before bring-up, of every shape, in a
window and outside; a pod request that is refused and one that is served. -/
theorem witness_outside : (∃ s1, (stLaunch 0).queueEntry 0 = (entryWords 0, s1) ∧ (s1.queueState 0).mark = false) ∧ (2 + 2 ^ 32 - 0) % 2 ^ 32 ≤ 2 ^ 2 ∧ ¬((5 + 2 ^ 32 - 0) % 2 ^ 32 ≤ 2 ^ 2) ∧
    ({ stLaunch 0 with queues := [(0, { mark := true })] } : State).queueState 0 = { mark := true } ∧ (0x3000#64).toNat % 4096 = 0 ∧ regionOf 0x3000 ≠ .reserved ∧ regionOf 0x3000 ≠ .window ∧
    st0.boot.getLsbD 16 = true ∧ State.reset.boot.getLsbD 16 = false ∧ regionOf (windowBase + 0x100) = .window ∧ regionOf hostRead.pa = .host ∧ reqShape hostRead.kind hostRead.pa hostRead.size = true ∧
    (st0.reg (st0.homeOf (lineOf hostRead.pa)) 0x4100).getLsbD 0 = true ∧ st0.quiet (lineOf hostRead.pa) = true ∧
    (stExport 1).podRefuses podRead = false ∧ (stExport 1).readBad 0 (lineOf 0x400000) = false ∧ (0#64).toNat % 2 ^ 24 * 2 ^ 16 < podRead.off + podRead.size ∧
    { podRead with kind := .write }.kind = .write ∧ (stExport 1).podRefuses { podRead with kind := .write } = false := by
  refine ⟨⟨(stLaunch 0).queueEntry 0 |>.2, Prod.ext ?_ rfl, by decide +kernel⟩, by decide, by decide, rfl, ?_⟩
  · decide +kernel
  · decide +kernel

def pub0 (target : Nat) : Pub := { ctx := .shared 0 3, n := 1, addr := 0x10000, vmid := 1, asid := 0, target := target, region := 0, version := 2 }
def stPub (target : Nat) : State :=
  { stDie { die0 with regs := [(0x1008, 1), (0x3010, 0x700001), (0x4000, 32), (0x4100, 3), (0x6000, 0x700004)], pubs := [pub0 target] } with ctxs := [(.shared 0 3, { ctx0 with cmds := [ent0 .running] })] }

/-- The `n` bytes of a number, least significant first; an image (22 R453): its header, signed by the key of modulus `keyN`, and its body. -/
def bytesOf (x n : Nat) : List Byte := (List.range n).map fun i => BitVec.ofNat 8 (x / 256 ^ i)
def keyN : Nat := 0xe58c2e072c94292afbeae73f99506e981fd0e8ba4c35db7335e65ee1d479f78d1d4cd35cd58a41e1a5719684f1d139632cd034ebc10cf0777099af3788c617ef0a4bd2fab831a431fba633b8bf1c1abdfab2719b5131b431c968acc9502e713a32567f18fd9781fc926863fbc509ea45abd2d373e6ffbe5602a80bec71b7dd4db96743f33a0fe3328a2ee92ea8fcce6395ba8a118201ae5b6e7e0df84a4601d842bf8f36e6e49e4f79b8189cb693ef7b8a1d95e930dfdc5bb72735ab884e13346f34f2092176d289fde8ee543064116fe0a34122469a9a9e4b2030af4ef2b0acb2f0d8324c3aa79496c6b8009175689b5ee68b3c30386f5db46df0e54e3241338ca582c91a0f12d874f2c598bf3fa009a4abc43f7684506a8ebdb5ac481c602407a5d5fe318b47492c5ffc82e94fcf10c5d1a2991b09978a8da9aa75596084b8ced511c16176f0b4d691a159b370d31b139f3863a58d6917c9e6590a35d44e1587b6f1f28f95a040a78770c45b947fa8d78bc55f702e137b97defc9902cfc3a9
def imageOf (magic sig : Nat) (body : List Byte) : List Byte :=
  bytesOf magic 8 ++ bytesOf 1 8 ++ bytesOf body.length 8 ++ sha256 body ++ bytesOf 0 8 ++ bytesOf keyN 384 ++ bytesOf 65537 64 ++ bytesOf sig 384 ++ bytesOf 0 128 ++ body
def fwSig : Nat := 0x5a98a4c191bb6816f264b80e745e0e40bfcf667060d9553a8a13ee9195bb94426dfc0d02960d5f96b51584970faf241350a138571c737eb4ce68e207c3efcb8730d7da8e5831a5f8e40ccb1e837d384a1b364ee9a5e3d3f3026c1058c0f22065cf4d47a830c4a4e695e77f5eac4b02e86142f5aeafbbf92018d80b327a26c9f87d397831004675f098067580fd4f2e9b7b2029f392816bb670cee3d92672ef8ad848315b06483a1909a19c85a29cd84945de92410ee61da11f327e815f2198c79b7475057d3f3e56b486509bb3e80bc3ab64a74bfb5736debbe10bd469dd7838a818ac5901efe0a74a986f6f4a4ca03cf5ea340c218de10f9fa134390eca979e0367207a04cea38b0cfa62a56ac1766bbff382d186b8b8d38651dcf88e21271a3a0095f8077bc7ef0250f55b54041bf14b2642d8c263695324f6629c55325b6bf5f50732b4c9dde00394b53887f063ba07873eb1003e585b7ce3182866489a71437baca9df112ee86bfb22e7f80c6ed3491464b91da0ed5ed6e5443342fa8895
def blobSig : Nat := 0x6be7cdff930b5fb86dee56f2ae48b42f0906ebab84c7ade70d9e0ea76afa0c043b492b0fd485e4107e54d9f66385e33db4b283b57ae725824ce9556d555e56b5258ae872025d80f17c926e69262c56eba01d23742456f6f0d82b7d597604a674ad58ca61e8b333a2eed755f59d54512dc439635fec213264c628103509403727f38d279fc9da3af34de7da9b88868ce3b83ab04ff04efb01e5795c6457fcfaaf95bcabffa658fc66d4f5c9389cb76c416a8db6a4528f3ecf00793f78644bf655d70fb9022b00499d15e3b9670cfb4e57d8b4be31acd4f082f9e4ad2f4c39793149887d36d8c2a3533ab05d8c202624508ae97d087aaba9ffd713221c7c662ddea4b326b256b9dab1f951a421f1d956516aa0e03bca0963c54fac6bb00dad90855f86026d8cb5daa79acb6461485115aeb2d9c7f5465923ce5ed310579030fef060fb1bdfbee5def115013a8ad52ca0e70dfcec4d1c3eb2565db6d405e1dafa22dd9100fa821321a7fddf0953318fadec4059552b5f2ecbb632f7c0141cb235f8
def stFlash : State :=
  { State.reset with romHash := 0xd8e8fd885fa5273c49a642e71467002bcc80c9adfe732c336838956aad75c63e, fwImage := imageOf 0x4A584657 fwSig [0x66, 0x77], blobImage := imageOf 0x4A584342 blobSig [0x63, 0x66, 0x67] }

/-- BringUpPowerAndScrub: two images that an RSA key of 3,072 bits has signed, outside the model, are accepted; one of the other magic is not. -/
theorem witness_firmware : imageAccepted stFlash.romHash 0x4A584657 stFlash.fwImage = true := by decide +kernel
theorem witness_blob : imageAccepted stFlash.romHash 0x4A584342 stFlash.blobImage = true := by decide +kernel
theorem witness_images : stFlash.boot = 0 ∧ stFlash.stopped = false ∧ imageAccepted stFlash.romHash 0x4A584342 stFlash.fwImage = false ∧ State.reset.fwImage.length < 0x400 := by
  and_intros <;> decide +kernel

/-- BringUpPowerAndScrub: reset, and a state that is up; a clock that can step up and down; a frame with an error waiting; a publication whose target is met and one that is not; frames of both tiers. -/
theorem witness_life : (State.reset.boot = 0 ∧ State.reset.stopped = false) ∧ (st0.boot ≠ 0 ∧ st0.bad = [] ∧ 600 ≤ st0.mhz ∧ st0.mhz ≤ 1800) ∧ (2 ^ 21 - 1 < 2 ^ 21 ∧ 2 ^ 22 - 1 < 2 ^ 22) ∧
    inFrame 3 (0x2000 / 4) = false ∧ inFrame 3 (0x1803 / 4) = true ∧ (∀ t, ((stPub t).die 0).pubs = [pub0 t]) ∧ (stPub 1).pubMet (pub0 1) = false ∧
    (stPub 0).pubMet (pub0 0) = true ∧ ((stPub 0).ctx (.shared 0 3)).entry? 1 = some (ent0 .running) ∧
    (let s0 := (stPub 0).setDie 0 { (stPub 0).die 0 with pubs := [] }
     ∃ s1 s2, s0.engAdd (.shared 0 3) (ent0 .running).cmd { face := 0, addr := 0x10000, inc := 0, pod := false, flow := 1 } = .ok ((), s1) ∧
       s1.regionRmw (.shared 0 3) (ent0 .running).cmd 0 (fun x => x / 2 ^ 32 * 2 ^ 32 + max (x % 2 ^ 32) 2) = .ok ((), s2)) := by
  refine ⟨⟨rfl, rfl⟩, by decide, by decide, by decide, by decide, fun _ => rfl, by decide +kernel, by decide +kernel, rfl, _, _, ok_at () (by decide +kernel), ok_at () (by decide +kernel)⟩

/-- Core 0 stands at the word of role 0's clause. -/
def stStep (r : Role) : State := { stOf r with sched := [.core 0] }

/-- StepRunsTheDecodedInstruction: the core stands at a word that decodes, with a wait slot that has room, one that is full with a lane to act on, and a register that is bound. -/
theorem witness_step : (∃ w i, StandsAt (stStep role0) 0 0 role0 w ∧ decodeWord w = .ok i) ∧ (stStep role0).sched = .core 0 :: [] ∧ role0.boundIn [] = false ∧
    (stStep role0).weakRegs = [] ∧ { role0 with bound := [(0x41, 1)] }.boundIn [.s 1] = true ∧ role0.waitCount 1 < 32 ∧ (stStep role0).badRegs = [] ∧
    (let i : Instr := .ld ⟨.f64, 0, 0x42, 0x44, 0, 0, 0, 0, 1⟩
     slotOfInstr i = 1 ∧ { role0 with waits := [(1, 32)] }.waitCount 1 = 32 ∧ { role0 with waits := [(1, 32)] }.idle i = false ∧
       { role0 with waits := [(1, 32)], masks := [] }.idle (.ld ⟨.f64, 0, 2, 0x44, 0, 0, 0, 0, 1⟩) = true) ∧ role0.tack = none ∧ role0.tackNext = false := by
  refine ⟨⟨0x6020000000000000, _, ⟨by decide +kernel, rfl, rfl, rfl, rfl, by decide +kernel, _, rfl, rfl, rfl⟩, rfl⟩, rfl, rfl, rfl, by decide, by decide, rfl, ?_, rfl, rfl⟩
  decide +kernel

/-- MemoryStaysCanonical and RightsStayWithHandlers. -/
theorem witness_memory : MemoryInv st0 ∧ (∃ t, step (stStep role0) = .next t) ∧ (∀ i, Issuing st0 role0 ∧ role0.handler = false ∧ ((encode i).isSome = true → (encode i).isSome = true)) ∧
    (encode (.nop ⟨.i64, 0, 0, 0, 0, 0, 0, 0, 0⟩)).isSome = true ∧ ∃ t q, exec (.nop ⟨.i64, 0, 0, 0, 0, 0, 0, 0, 0⟩) st0 = .next t ∧ t.role? st0.cur = some q := by
  exact ⟨⟨by decide, by decide⟩, ⟨_, rfl⟩, fun _ => ⟨rfl, rfl, id⟩, by decide, ⟨_, role0.advance, rfl, rfl⟩⟩

end Sys2Proof.Tests
end

section
/-! SUPPORT. Every step goes on (00 R8): a device step answers a next state in every state, a word wherever a role issues it, and what is chosen for the
next step is always one of the two. -/
namespace Sys2Proof.Claim
open Sys2Proof.Machine

/-! ### The meanings -/

/-- Every event of the opcode table answers a next state, whatever the state. -/
theorem exec_deviceStep (i : Instr) (s : State) (h : DeviceStep i) : ∃ t, exec i s = .next t := by
  unfold DeviceStep at h
  cases i <;> simp only [encode, reduceCtorEq] at h
  all_goals exact ⟨_, rfl⟩

/-- The outcome is that of a meaning on the issuing role, so that it lacks a next state only where no role issues. -/
def OnIssuer (s : State) (x : Out) : Prop := ∃ f : Role → State, x = onRole s fun _ r => f r

theorem onIssuer_onRole (s : State) (f : Nat → Role → State) : OnIssuer s (onRole s f) := ⟨f s.cur, rfl⟩

theorem OnIssuer.next {s : State} {x : Out} {r : Role} (h : OnIssuer s x) (hr : Issuing s r) : ∃ t, x = .next t := by
  obtain ⟨f, rfl⟩ := h
  exact ⟨_, onRole_next s _ r hr⟩

/-- CMP is the one word whose meaning has two forms (R289). -/
theorem execCmp_onIssuer (o : FmtA) (s : State) : OnIssuer s (execCmp o s) := by
  unfold execCmp
  split
  · exact onIssuer_onRole s _
  · exact ⟨_, rfl⟩

/-- LAUNCH's meaning is too deep for `rfl` to reach through `exec`. -/
theorem execLaunch_onIssuer (o : FmtQ) (s : State) : OnIssuer s (execLaunch o s) := by
  unfold execLaunch
  exact onIssuer_onRole s _

/-- Every instruction word's meaning runs on the issuing role. -/
theorem exec_word_onIssuer (i : Instr) (s : State) (h : (encode i).isSome = true) : OnIssuer s (exec i s) := by
  cases i
  case cmp o => exact execCmp_onIssuer o s
  case launch o => exact execLaunch_onIssuer o s
  all_goals simp only [encode, Option.isSome_none, Bool.false_eq_true] at h
  all_goals exact ⟨_, rfl⟩

/-- An event goes on in every state, and a word wherever a role issues it. -/
theorem exec_goesOn (i : Instr) (s : State) (h : DeviceStep i ∨ ∃ r, Issuing s r) : ∃ t, exec i s = .next t := by
  cases hi : encode i with
  | none => exact exec_deviceStep i s hi
  | some w =>
    obtain hd | ⟨r, hr⟩ := h
    · exact absurd hd (by simp [DeviceStep, hi])
    · exact (exec_word_onIssuer i s (by simp [hi])).next hr

/-! ### What the agents of the device ask for -/

/-- A list that names device steps alone. -/
def DeviceSteps (l : List Instr) : Prop := ∀ i ∈ l, DeviceStep i

namespace DeviceSteps
variable {α : Type} {l : List α} {a b : List Instr}

theorem nil : DeviceSteps [] := List.forall_mem_nil _

theorem single {i : Instr} (h : DeviceStep i) : DeviceSteps [i] := List.forall_mem_singleton.mpr h

theorem append (ha : DeviceSteps a) (hb : DeviceSteps b) : DeviceSteps (a ++ b) := List.forall_mem_append.mpr ⟨ha, hb⟩

theorem map {f : α → Instr} (h : ∀ x, DeviceStep (f x)) : DeviceSteps (l.map f) := List.forall_mem_map.mpr fun x _ => h x

theorem flatMap {f : α → List Instr} (h : ∀ x, DeviceSteps (f x)) : DeviceSteps (l.flatMap f) := by
  intro i hi
  obtain ⟨x, -, hx⟩ := List.mem_flatMap.mp hi
  exact h x i hx

theorem filterMap {f : α → Option Instr} (h : ∀ x i, f x = some i → DeviceStep i) : DeviceSteps (l.filterMap f) := by
  intro i hi
  obtain ⟨x, -, hx⟩ := List.mem_filterMap.mp hi
  exact h x i hx

theorem ite {c : Prop} [Decidable c] (ha : DeviceSteps a) (hb : DeviceSteps b) : DeviceSteps (if c then a else b) := by
  split
  · exact ha
  · exact hb

/-- A step that is asked for on a condition. -/
theorem when {c : Prop} [Decidable c] {i : Instr} (h : DeviceStep i) : DeviceSteps (if c then [i] else []) := ite (single h) nil

end DeviceSteps

theorem deviceSteps_engineDue (s : State) : DeviceSteps s.engineDue := by
  unfold State.engineDue
  exact .append (.map fun _ => rfl) (.flatMap fun _ => .append (.when rfl) (.map fun _ => rfl))

theorem deviceSteps_queryDue (s : State) (core n : Nat) (q : Query) : DeviceSteps (s.queryDue core n q) := by
  unfold State.queryDue
  cases q.phase with
  | path | walking | records => exact .single rfl
  | push => exact .ite (.single rfl) (.ite .nil (.single rfl))
  | proc => exact .when rfl

theorem deviceSteps_coreDue (s : State) (core : Nat) (k : Core) : DeviceSteps (s.coreDue core k) := by
  unfold State.coreDue
  exact .ite .nil (.append (.ite .nil (.single rfl)) (.flatMap fun p => deviceSteps_queryDue s core p.1 p.2))

theorem deviceSteps_schedulerDue (s : State) : DeviceSteps s.schedulerDue := by
  unfold State.schedulerDue
  exact .append (.append (.append (.map fun _ => rfl) (.flatMap fun _ => .append (.when rfl) (.when rfl))) (.when rfl))
    (.flatMap fun _ => .append (.when rfl) (.when rfl))

theorem deviceSteps_dieDue (s : State) (d : Die) : DeviceSteps (s.dieDue d) := by
  unfold State.dieDue
  refine .ite .nil (.append (.append (.append (.append (.append (.append ?_ ?_) ?_) ?_) ?_) ?_) ?_)
  · exact .when rfl
  · exact .ite .nil (.single rfl)
  · exact .when rfl
  · exact .when rfl
  · exact .ite .nil (.single rfl)
  · exact .flatMap fun _ => .append (.append (.append (.when rfl) (.when rfl)) (.when rfl)) (.when rfl)
  · exact .map fun _ => rfl

/-- The agents of the device ask for device steps alone. -/
theorem deviceSteps_dueEvents (s : State) : DeviceSteps s.dueEvents := by
  unfold State.dueEvents
  refine .ite .nil (.append (.append (.append (.append ?_ ?_) ?_) ?_) ?_)
  · exact deviceSteps_engineDue s
  · exact .flatMap fun p => deviceSteps_coreDue s p.1 p.2
  · exact .flatMap fun d => deviceSteps_dieDue s d
  · exact deviceSteps_schedulerDue s
  · exact .when rfl

/-- Time brings device steps alone. -/
theorem deviceSteps_timeEvents (s : State) : DeviceSteps s.timeEvents := by
  unfold State.timeEvents
  refine .ite .nil (.append (.append (.filterMap fun x i hi => ?_) (.filterMap fun p i hi => ?_)) (.map fun _ => rfl))
  · split at hi
    · obtain ⟨-, ⟨⟩⟩ := Option.ite_none_right_eq_some.mp hi
      rfl
    · cases hi
  · obtain ⟨-, ⟨⟩⟩ := Option.ite_none_right_eq_some.mp hi
    rfl

/-! ### The choice of the next step -/

/-- What the next step can execute: it has its state already, or it runs a device step, or a word at a state with an issuing role. -/
def PickGoesOn : Pick → Prop
  | .done _ => True
  | .run i s => DeviceStep i ∨ ∃ r, Issuing s r

theorem listed_goesOn {l : List Instr} (hl : DeviceSteps l) {n : Nat} {s : State} {p : Pick} (h : (l[n]?.map fun i => Pick.run i s) = some p) :
    PickGoesOn p := by
  obtain ⟨i, hi, rfl⟩ := Option.map_eq_some_iff.mp h
  exact .inl (hl i (List.mem_of_getElem? hi))

/-- A word that is prepared for its meaning has its role as the issuing one. -/
theorem prepare_run_issuing {s t : State} {rid : Nat} {r : Role} {i : Instr} (h : s.prepare rid r i = .run t) : ∃ q, Issuing t q := by
  unfold State.prepare at h
  extract_lets u at h
  split at h
  · cases h
  split at h
  · cases h
  split at h
  · cases h
  · cases h
    exact ⟨r.trackTack i, State.role?_setRole_same _ _ _⟩

theorem wordStep_goesOn (s : State) (rid : Nat) (r : Role) : PickGoesOn (s.wordStep rid r) := by
  unfold State.wordStep
  split
  · trivial
  · split
    · trivial
    · split
      · trivial
      · next hp => exact .inr (prepare_run_issuing hp)

theorem coreChoose_goesOn {s : State} {core : Nat} {p : Pick} (h : s.coreChoose core = some p) : PickGoesOn p := by
  unfold State.coreChoose at h
  extract_lets s1 at h
  split at h
  · cases h
    exact .inl rfl
  · split at h
    · cases h
      exact .inl rfl
    · obtain ⟨-, ⟨⟩⟩ := Option.ite_none_right_eq_some.mp h
      exact .inl rfl

theorem coreStep_goesOn {s : State} {core : Nat} {p : Pick} (h : s.coreStep core = some p) : PickGoesOn p := by
  unfold State.coreStep at h
  obtain ⟨-, h⟩ := Option.ite_none_left_eq_some.mp h
  extract_lets k idle at h
  split at h
  · split at h
    · split at h
      · cases h
        exact wordStep_goesOn _ _ _
      · exact coreChoose_goesOn h
    · exact coreChoose_goesOn h
  · split at h
    · split at h
      · cases h
        exact .inl rfl
      · exact coreChoose_goesOn h
    · exact coreChoose_goesOn h
  · exact coreChoose_goesOn h

theorem someCore_goesOn {s : State} {n : Nat} {p : Pick} (h : s.someCore n = some p) : PickGoesOn p := by
  obtain ⟨c, -, hc⟩ := List.exists_of_findSome?_eq_some h
  exact coreStep_goesOn hc

/-- Of the steps that are due, a word is dropped and never run. -/
theorem takeDue_goesOn {s : State} {n : Nat} {p : Pick} (h : s.takeDue n = some p) : PickGoesOn p := by
  obtain ⟨i, -, rfl⟩ := Option.map_eq_some_iff.mp h
  split
  · trivial
  · next hi => exact .inl (by simpa [DeviceStep] using hi)

theorem byDefault_goesOn (s : State) : PickGoesOn s.byDefault := by
  unfold State.byDefault
  extract_lets t due core agent time first
  have hdue : ∀ p, due () = some p → PickGoesOn p := fun _ => takeDue_goesOn
  have hcore : ∀ p, core () = some p → PickGoesOn p := fun _ => someCore_goesOn
  have hagent : ∀ p, agent () = some p → PickGoesOn p := fun _ => listed_goesOn (deviceSteps_dueEvents t)
  have htime : ∀ n p, time n = some p → PickGoesOn p := fun _ _ => listed_goesOn (deviceSteps_timeEvents t)
  have hfirst : ∀ f ∈ first, ∀ p, f () = some p → PickGoesOn p := by
    unfold first
    split
    · simpa using ⟨htime _, hdue, hcore, hagent⟩
    · split
      · simpa using ⟨hdue, hcore, hagent⟩
      · split
        · simpa using ⟨hcore, hagent, hdue⟩
        · simpa using ⟨hagent, hdue, hcore⟩
  split
  · next p hp =>
    obtain ⟨f, hf, hfp⟩ := List.exists_of_findSome?_eq_some hp
    exact hfirst f hf p hfp
  · cases ht : time (s.turn / 3) with
    | none => trivial
    | some p => exact htime _ p ht

/-- Whatever is chosen, the next step can execute it. -/
theorem pick_goesOn (s : State) : PickGoesOn s.pick := by
  unfold State.pick
  split
  · exact byDefault_goesOn s
  · next c rest hs =>
    extract_lets s1 asked
    have hasked : ∀ p, asked = some p → PickGoesOn p := by
      intro p hp
      cases c with
      | event n => exact takeDue_goesOn hp
      | core k => exact coreStep_goesOn hp
      | poll n => exact listed_goesOn (.append (deviceSteps_dueEvents s1) (deviceSteps_timeEvents s1)) hp
      | default => cases (show none = some p from hp)
    clear_value asked
    split
    · next p => exact hasked p rfl
    · exact byDefault_goesOn s1

/-! ### The step and the run -/

theorem step_goesOn (s : State) : ∃ t, step s = .next t := by
  have hp := pick_goesOn s
  unfold step
  split
  · exact ⟨_, rfl⟩
  · next i s1 hs => exact exec_goesOn i s1 (by rw [hs] at hp; exact hp)

theorem state_safe (s : State) : Safe s := by
  intro n
  induction n generalizing s with
  | zero => exact ⟨s, rfl⟩
  | succ n ih =>
    obtain ⟨t, ht⟩ := step_goesOn s
    obtain ⟨u, hu⟩ := ih t
    refine ⟨u, ?_⟩
    simp only [Runs, Host.Core.run, Host.Check.core_step, ht]
    exact hu

/-- Settles O56: the meanings never end in a fault where their role issues, and the choice of the next step keeps to that. -/
theorem everyStepGoesOn : Obligations.EveryStepGoesOn := fun s =>
  ⟨step_goesOn s, state_safe s, fun i => exec_goesOn i s⟩

end Sys2Proof.Claim
end

section
/-! SUPPORT. The decoder and the encoder are inverse to each other (01 R19-R48). A word is the concatenation of the fields that its format names, so that
what a format reads from a word determines the word; and concatenation is injective, so that the word determines the operands. -/
namespace Sys2Proof

/-! ### Fields of a word -/

theorem append_eq_append_iff {m n : Nat} {x x' : BitVec m} {y y' : BitVec n} : x ++ y = x' ++ y' ↔ x = x' ∧ y = y' := by
  constructor
  · intro h
    have hx := congrArg (BitVec.extractLsb' n m) h
    have hy := congrArg (BitVec.extractLsb' 0 n) h
    rw [BitVec.extractLsb'_append_eq_left, BitVec.extractLsb'_append_eq_left] at hx
    rw [BitVec.extractLsb'_append_eq_right, BitVec.extractLsb'_append_eq_right] at hy
    exact ⟨hx, hy⟩
  · rintro ⟨rfl, rfl⟩
    rfl

/-- Two fields side by side are one. -/
theorem field_append_field (w : Word) {hi lo m n : Nat} (h : hi = lo + n) : field w hi m ++ field w lo n = field w lo (m + n) :=
  BitVec.extractLsb'_append_extractLsb'_eq_extractLsb' h

theorem field_whole (w : Word) : field w 0 64 = w := BitVec.extractLsb'_eq_self

theorem field_one (w : Word) (i : Nat) : field w i 1 = BitVec.ofBool (w.getLsbD i) := by
  refine BitVec.eq_of_getLsbD_eq fun j hj => ?_
  obtain rfl : j = 0 := by omega
  simp [field]

theorem Ty.code_ofCode (c : BitVec 4) : (Ty.ofCode c).code = c := by revert c; decide

theorem Ty.code_inj {t u : Ty} : t.code = u.code ↔ t = u := by cases t <;> cases u <;> decide

/-- CLASS, FUNC, TYPE and MASK of a word, which every format has (R33). -/
theorem encHead_of_word (w : Word) : encHead (field w 59 5) (field w 52 7) (tyOf w) (maskOf w) = field w 45 19 := by
  rw [encHead, tyOf, maskOf, Ty.code_ofCode]
  simp only [field_append_field]

theorem encHead_inj {k k' : BitVec 5} {f f' : BitVec 7} {t t' : Ty} {m m' : BitVec 3} :
    encHead k f t m = encHead k' f' t' m' ↔ k = k' ∧ f = f' ∧ t = t' ∧ m = m' := by
  rw [encHead, encHead, append_eq_append_iff]
  simp only [append_eq_append_iff, Ty.code_inj, and_assoc]

/-! ### A word is made up of the fields of each format -/

theorem encA_decA (w : Word) : encA (field w 59 5) (field w 52 7) (decA w) = w := by
  simp only [encA, decA, encHead_of_word, field_append_field]
  exact field_whole w

theorem encI2_decI2 (w : Word) : encI2 (field w 59 5) (field w 52 7) (decI2 w) = w := by
  simp only [encI2, decI2, encHead_of_word, field_append_field]
  exact field_whole w

theorem encM_decM (w : Word) : encM (field w 59 5) (field w 52 7) (decM w) = w := by
  simp only [encM, decM, encHead_of_word, field_append_field]
  exact field_whole w

theorem encMA_decMA (w : Word) : encMA (field w 59 5) (field w 52 7) (decMA w) = w := by
  simp only [encMA, decMA, encHead_of_word, field_append_field]
  exact field_whole w

theorem encB_decB (w : Word) : encB (field w 59 5) (field w 52 7) (decB w) = w := by
  simp only [encB, decB, encHead_of_word, field_append_field]
  exact field_whole w

theorem encQ_decQ (w : Word) : encQ (field w 59 5) (field w 52 7) (decQ w) = w := by
  simp only [encQ, decQ, encHead_of_word, field_append_field]
  exact field_whole w

theorem encS_decS (w : Word) : encS (field w 59 5) (field w 52 7) (decS w) = w := by
  simp only [encS, decS, encHead_of_word, field_append_field]
  exact field_whole w

/-- Format I1 with its reserved bits [37:32] as they stand in the word (R39). -/
theorem fieldsI1 (w : Word) : encHead (field w 59 5) (field w 52 7) (decI1 w).ty (decI1 w).mask ++ (decI1 w).d ++ field w 32 6 ++
    (decI1 w).imm = w := by
  simp only [decI1, encHead_of_word, field_append_field]
  exact field_whole w

/-- Format X with its reserved bits [9:3] as they stand in the word (R45). -/
theorem fieldsX (w : Word) : encHead (field w 59 5) (field w 52 7) (decX w).ty (decX w).mask ++ (decX w).d ++ (decX w).sc ++ (decX w).sf ++
    (decX w).sp ++ (decX w).reuse ++ (decX w).ord ++ (decX w).cnt ++ (decX w).sn ++ (decX w).xmod ++ (decX w).xhi ++ field w 3 7 ++
    (decX w).ws = w := by
  simp only [decX, encHead_of_word, field_append_field]
  exact field_whole w

/-! ### A word is the encoding of operands exactly when its fields are those operands -/

section
variable {k : BitVec 5} {f : BitVec 7} {w : Word}

theorem encA_eq_iff {o : FmtA} : encA k f o = w ↔ k = field w 59 5 ∧ f = field w 52 7 ∧ o = decA w := by
  obtain ⟨⟩ := o
  conv_lhs => rw [← encA_decA w]
  rw [encA, encA, append_eq_append_iff]
  simp only [append_eq_append_iff, encHead_inj, and_assoc, decA, FmtA.mk.injEq]

theorem encI2_eq_iff {o : FmtI2} : encI2 k f o = w ↔ k = field w 59 5 ∧ f = field w 52 7 ∧ o = decI2 w := by
  obtain ⟨⟩ := o
  conv_lhs => rw [← encI2_decI2 w]
  rw [encI2, encI2, append_eq_append_iff]
  simp only [append_eq_append_iff, encHead_inj, and_assoc, decI2, FmtI2.mk.injEq]

theorem encM_eq_iff {o : FmtM} : encM k f o = w ↔ k = field w 59 5 ∧ f = field w 52 7 ∧ o = decM w := by
  obtain ⟨⟩ := o
  conv_lhs => rw [← encM_decM w]
  rw [encM, encM, append_eq_append_iff]
  simp only [append_eq_append_iff, encHead_inj, and_assoc, decM, FmtM.mk.injEq]

theorem encMA_eq_iff {o : FmtMA} : encMA k f o = w ↔ k = field w 59 5 ∧ f = field w 52 7 ∧ o = decMA w := by
  obtain ⟨⟩ := o
  conv_lhs => rw [← encMA_decMA w]
  rw [encMA, encMA, append_eq_append_iff]
  simp only [append_eq_append_iff, encHead_inj, and_assoc, decMA, FmtMA.mk.injEq]

theorem encB_eq_iff {o : FmtB} : encB k f o = w ↔ k = field w 59 5 ∧ f = field w 52 7 ∧ o = decB w := by
  obtain ⟨⟩ := o
  conv_lhs => rw [← encB_decB w]
  rw [encB, encB, append_eq_append_iff]
  simp only [append_eq_append_iff, encHead_inj, and_assoc, decB, FmtB.mk.injEq]

theorem encQ_eq_iff {o : FmtQ} : encQ k f o = w ↔ k = field w 59 5 ∧ f = field w 52 7 ∧ o = decQ w := by
  obtain ⟨⟩ := o
  conv_lhs => rw [← encQ_decQ w]
  rw [encQ, encQ, append_eq_append_iff]
  simp only [append_eq_append_iff, encHead_inj, and_assoc, decQ, FmtQ.mk.injEq]

theorem encS_eq_iff {o : FmtS} : encS k f o = w ↔ k = field w 59 5 ∧ f = field w 52 7 ∧ o = decS w := by
  obtain ⟨⟩ := o
  conv_lhs => rw [← encS_decS w]
  rw [encS, encS, append_eq_append_iff]
  simp only [append_eq_append_iff, encHead_inj, and_assoc, decS, FmtS.mk.injEq]

theorem encI1_eq_iff {o : FmtI1} :
    encI1 k f o = w ↔ k = field w 59 5 ∧ f = field w 52 7 ∧ o = decI1 w ∧ field w 32 6 = 0#6 := by
  obtain ⟨⟩ := o
  conv_lhs => rw [← fieldsI1 w]
  rw [encI1, append_eq_append_iff]
  simp only [append_eq_append_iff, encHead_inj, and_assoc, decI1, FmtI1.mk.injEq, eq_comm (a := 0#6)]
  tauto

theorem encX_eq_iff {o : FmtX} :
    encX k f o = w ↔ k = field w 59 5 ∧ f = field w 52 7 ∧ o = decX w ∧ field w 3 7 = 0#7 := by
  obtain ⟨⟩ := o
  conv_lhs => rw [← fieldsX w]
  rw [encX, append_eq_append_iff]
  simp only [append_eq_append_iff, encHead_inj, and_assoc, decX, FmtX.mk.injEq, eq_comm (a := 0#7)]
  tauto

end

/-! ### The opcode table -/

/-- The row of the opcode table that the CLASS and FUNC of `w` name reads `w` as `i`, and the reserved bits of its format are 0. -/
def RowReads (w : Word) (i : Instr) : Prop :=
  opcodeRow (classOf w) (funcOf w) w = some i ∧ reservedClear (classOf w) (funcOf w) w = true

theorem decodeWord_eq_ok_iff (w : Word) (i : Instr) : decodeWord w = .ok i ↔ RowReads w i ∧ i.wf = true := by
  constructor
  · intro h
    unfold decodeWord at h
    split at h
    · cases h
    next j hrow =>
    split at h
    · cases h
    next hclear =>
    split at h
    · cases h
    next hlegal =>
    cases h
    exact ⟨⟨hrow, by simpa using hclear⟩, by simp [Instr.wf, hlegal]⟩
  · rintro ⟨⟨hrow, hclear⟩, hwf⟩
    have hlegal : i.illegal? = none := by simpa [Instr.wf] using hwf
    simp [decodeWord, hrow, hclear, hlegal]

section
variable {k : BitVec 5} {f : BitVec 7} {w : Word}

/-- A format without reserved bits: what its row reads from the word of given operands. -/
theorem rowReads_of_fields {Fmt : Type} {dec : Word → Fmt} {o : Fmt} {x : Fmt → Instr}
    (h : k = field w 59 5 ∧ f = field w 52 7 ∧ o = dec w) (hrow : ∀ v, opcodeRow k.toNat f.toNat v = some (x (dec v)))
    (hclear : ∀ v, reservedClear k.toNat f.toNat v = true) : RowReads w (x o) := by
  obtain ⟨rfl, rfl, rfl⟩ := h
  exact ⟨hrow w, hclear w⟩

theorem rowReads_encI1 {o : FmtI1} {x : FmtI1 → Instr} (h : encI1 k f o = w)
    (hrow : ∀ v, opcodeRow k.toNat f.toNat v = some (x (decI1 v)))
    (hclear : ∀ v, reservedClear k.toNat f.toNat v = (field v 32 6 == 0#6)) : RowReads w (x o) := by
  obtain ⟨rfl, rfl, rfl, hz⟩ := encI1_eq_iff.mp h
  exact ⟨hrow w, (hclear w).trans (beq_iff_eq.mpr hz)⟩

theorem rowReads_encX {o : FmtX} {x : FmtX → Instr} (h : encX k f o = w)
    (hrow : ∀ v, opcodeRow k.toNat f.toNat v = some (x (decX v)))
    (hclear : ∀ v, reservedClear k.toNat f.toNat v = (field v 3 7 == 0#7)) : RowReads w (x o) := by
  obtain ⟨rfl, rfl, rfl, hz⟩ := encX_eq_iff.mp h
  exact ⟨hrow w, (hclear w).trans (beq_iff_eq.mpr hz)⟩
end

/-- The table reads an instruction's own word as that instruction: one row for each constructor, by its format. -/
theorem rowReads_of_encode {i : Instr} {w : Word} (h : encode i = some w) : RowReads w i := by
  cases i with
  | add o | sub o | mul o | mulhi o | mad o | div o | rem o | neg o | abs o | min o | max o | and o | or o | xor o | not o | andn o
  | shl o | shr o | sar o | rol o | sel o | mov o | cmp o | clz o | ctz o | popc o | brev o | bfx o | bfi o | fadd o | fsub o | fmul o
  | fma o | fms o | fnma o | fmin o | fmax o | fabs o | fneg o | fcpys o | fcmp o | fclass o | fscale o | fgetexp o | frnd o | fdiv o
  | fsqrt o | frcpe o | frsqe o | fexp2 o | flog2 o | cvt o | cvts o | pack o | unpack o | amaxrd o | amaxclr o | vbcast o | vshfl o
  | vshift o | vrot o | vred o | vscan o | vballot o | vcount o | vfirst o | mand o | mor o | mxor o | mnot o | mmove o | mfroms o
  | mtos o | setfmt o | getfmt o | nop o =>
    exact rowReads_of_fields (encA_eq_iff.mp (Option.some.inj h)) (fun _ => rfl) (fun _ => rfl)
  | addImm o | subImm o | mulImm o | minImm o | maxImm o | andImm o | orImm o | xorImm o | shlImm o | shrImm o | sarImm o | rolImm o
  | cmpImm o =>
    exact rowReads_of_fields (encI2_eq_iff.mp (Option.some.inj h)) (fun _ => rfl) (fun _ => rfl)
  | movi o | movh o =>
    exact rowReads_encI1 (Option.some.inj h) (fun _ => rfl) (fun _ => rfl)
  | bra o | bc o | call o | ret o | jmpi o | split o | els o | join o | loop o | brk o | cont o | exit o =>
    exact rowReads_of_fields (encB_eq_iff.mp (Option.some.inj h)) (fun _ => rfl) (fun _ => rfl)
  | ld o | st o | ldsp o | stsp o | spset o | pref o | ldsc o | stsc o | ldcl o | stcl o | fence o =>
    exact rowReads_of_fields (encM_eq_iff.mp (Option.some.inj h)) (fun _ => rfl) (fun _ => rfl)
  | stmc o | gath o | scat o | atom o | cas o | red o | cadd o | cwait o | cread o =>
    exact rowReads_of_fields (encMA_eq_iff.mp (Option.some.inj h)) (fun _ => rfl) (fun _ => rfl)
  | tlwait o | close o | qbind o | copy o | tcopy o | halo o | ared o | put o | get o | publish o | pin o | vret o | viewset o
  | wverset o | fcomp o | encf o | bset o | bq o | bres o | bproc o | bsave o | bresume o | babort o | launch o | enqr o | enqc o
  | yield o =>
    exact rowReads_of_fields (encQ_eq_iff.mp (Option.some.inj h)) (fun _ => rfl) (fun _ => rfl)
  | mma o | mmas o | mmab o | mscale o | accclr o | accrd o | accfl o | accseq o =>
    exact rowReads_encX (Option.some.inj h) (fun _ => rfl) (fun _ => rfl)
  | trap o | tret o | sread o | swrite o | tack o | tlbinv o | lflush o | linv o | ctxsave o | ctxload o | logreplay o | fqpop o
  | halt o =>
    exact rowReads_of_fields (encS_eq_iff.mp (Option.some.inj h)) (fun _ => rfl) (fun _ => rfl)
  | _ => cases h

/-! What each part of the table names, the encoder puts back under that CLASS and FUNC. -/

section
variable {k f : Nat} {i : Instr}

theorem encode_of_class1 {o : FmtA} (h : class1 f o = some i) : encode i = some (encA (BitVec.ofNat 5 1) (BitVec.ofNat 7 f) o) := by
  unfold class1 at h
  split at h <;> cases h <;> rfl

theorem encode_of_class2 {o : FmtI2} {p : FmtI1} (h : class2 f o p = some i) :
    encode i = some (if f = 0x20 || f = 0x21 then encI1 (BitVec.ofNat 5 2) (BitVec.ofNat 7 f) p
      else encI2 (BitVec.ofNat 5 2) (BitVec.ofNat 7 f) o) := by
  unfold class2 at h
  split at h <;> cases h <;> rfl

theorem encode_of_classA {o : FmtA} (h : classA k f o = some i) : encode i = some (encA (BitVec.ofNat 5 k) (BitVec.ofNat 7 f) o) := by
  unfold classA at h
  split at h <;> cases h <;> rfl

theorem encode_of_class11 {o : FmtB} (h : class11 f o = some i) : encode i = some (encB (BitVec.ofNat 5 11) (BitVec.ofNat 7 f) o) := by
  unfold class11 at h
  split at h <;> cases h <;> rfl

theorem encode_of_classM {o : FmtM} (h : classM k f o = some i) : encode i = some (encM (BitVec.ofNat 5 k) (BitVec.ofNat 7 f) o) := by
  unfold classM at h
  split at h <;> cases h <;> rfl

theorem encode_of_classMA {o : FmtMA} (h : classMA k f o = some i) : encode i = some (encMA (BitVec.ofNat 5 k) (BitVec.ofNat 7 f) o) := by
  unfold classMA at h
  split at h <;> cases h <;> rfl

theorem encode_of_classQ {o : FmtQ} (h : classQ k f o = some i) : encode i = some (encQ (BitVec.ofNat 5 k) (BitVec.ofNat 7 f) o) := by
  unfold classQ at h
  split at h <;> cases h <;> rfl

theorem encode_of_class19 {o : FmtX} (h : class19 f o = some i) : encode i = some (encX (BitVec.ofNat 5 19) (BitVec.ofNat 7 f) o) := by
  unfold class19 at h
  split at h <;> cases h <;> rfl

theorem encode_of_classS {o : FmtS} (h : classS k f o = some i) : encode i = some (encS (BitVec.ofNat 5 k) (BitVec.ofNat 7 f) o) := by
  unfold classS at h
  split at h <;> cases h <;> rfl
end

/-- The word that a row reads is that row's encoding of what it reads: class by class, in the order of Table 14. -/
theorem encode_of_opcodeRow {k f : Nat} {w : Word} {i : Instr} (hk : BitVec.ofNat 5 k = field w 59 5) (hf : BitVec.ofNat 7 f = field w 52 7)
    (h : opcodeRow k f w = some i) (hclear : reservedClear k f w = true) : encode i = some w := by
  have ofA (h : classA k f (decA w) = some i) : encode i = some w := by rw [encode_of_classA h, hk, hf, encA_decA]
  have ofM (h : classM k f (decM w) = some i) : encode i = some w := by rw [encode_of_classM h, hk, hf, encM_decM]
  have ofMA (h : classMA k f (decMA w) = some i) : encode i = some w := by rw [encode_of_classMA h, hk, hf, encMA_decMA]
  have ofQ (h : classQ k f (decQ w) = some i) : encode i = some w := by rw [encode_of_classQ h, hk, hf, encQ_decQ]
  have ofS (h : classS k f (decS w) = some i) : encode i = some w := by rw [encode_of_classS h, hk, hf, encS_decS]
  unfold opcodeRow at h
  split at h
  case h_1 => rw [encode_of_class1 h, hk, hf, encA_decA]
  case h_2 =>
    rw [encode_of_class2 h, hk, hf]
    split
    next himm =>
      have hz : field w 32 6 = 0#6 := by simpa [reservedClear, himm] using hclear
      rw [encI1_eq_iff.mpr ⟨rfl, rfl, rfl, hz⟩]
    next => rw [encI2_decI2]
  case h_3 | h_4 | h_5 | h_6 | h_7 | h_8 | h_9 | h_10 => exact ofA h
  case h_11 => rw [encode_of_class11 h, hk, hf, encB_decB]
  case h_12 | h_13 => exact ofM h
  case h_14 =>
    split at h
    next hM =>
      cases h
      exact ofM hM
    next => exact ofMA h
  case h_15 => exact ofMA h
  case h_16 =>
    split at h
    next hMA =>
      cases h
      exact ofMA hMA
    next => exact ofQ h
  case h_17 | h_18 | h_19 => exact ofQ h
  case h_20 =>
    have hz : field w 3 7 = 0#7 := by simpa [reservedClear] using hclear
    rw [encode_of_class19 h, hk, hf, encX_eq_iff.mpr ⟨rfl, rfl, rfl, hz⟩]
  case h_21 | h_22 => exact ofS h
  case h_23 => cases h

theorem rowReads_iff_encode (w : Word) (i : Instr) : RowReads w i ↔ encode i = some w := by
  constructor
  · rintro ⟨hrow, hclear⟩
    exact encode_of_opcodeRow (by simp [classOf]) (by simp [funcOf]) hrow hclear
  · exact rowReads_of_encode

/-! ### Headers and bytes -/

/-- A header word is made up of its fields, the fixed bits [63:52] and the reserved bits [51:14] among them (R20). -/
theorem fieldsHeader (w : Word) : field w 52 12 ++ field w 14 38 ++ field w 12 2 ++ BitVec.ofBool (w.getLsbD 11) ++
    BitVec.ofBool (w.getLsbD 10) ++ field w 4 6 ++ field w 0 4 = w := by
  simp only [← field_one, field_append_field]
  exact field_whole w

theorem decodeHeader_eq_some_iff (w : Word) (h : Header) : decodeHeader w = some h ↔ encodeHeader h = w := by
  obtain ⟨hint, yield, tack, wait, count⟩ := h
  conv_rhs => rw [← fieldsHeader w]
  rw [encodeHeader, append_eq_append_iff]
  simp only [append_eq_append_iff, BitVec.ofBool_eq_iff_eq, and_assoc, decodeHeader, Option.ite_none_right_eq_some, Bool.and_eq_true, beq_iff_eq,
    Option.some.injEq, Header.mk.injEq]
  simp only [eq_comm]

/-- The bytes of a word are read back as the word (R12). -/
theorem takeWord_wordBytes (w : Word) (rest : List Byte) : takeWord (wordBytes w ++ rest) = some (w, rest) := by
  simp only [wordBytes, List.cons_append, List.nil_append, takeWord, field_append_field]
  rw [field_whole]

/-- Settles O53: the table reads a word exactly as the instruction whose encoding it is, and the checks of R48 are those of `wf`; a header and
the bytes of a word are made up of their fields. -/
theorem decodingInvertsEncoding : Obligations.DecodingInvertsEncoding := by
  refine ⟨fun w i => ?_, decodeHeader_eq_some_iff, fun w rest => ?_⟩
  · rw [decodeWord_eq_ok_iff, rowReads_iff_encode, and_comm]
  · rw [decodeBytes, takeWord_wordBytes]

end Sys2Proof
end

section
/-! SUPPORT. The move past a word (01 R26), and a step of a core that stands at a word (01 R23, R27, R31, R32): the word is prepared, and then runs. -/
namespace Sys2Proof.Claim
open Sys2Proof.Machine

/-- Settles O10, by the two cases of the move past a word. -/
theorem wordsFollowOneAnother : Obligations.WordsFollowOneAnother := by
  intro r c hc hlen
  rw [Role.advance_eq]
  refine ⟨fun hi => ?_, fun hi => ?_, rfl, rfl⟩
  · have hmore : c.idx + 1 < c.words.length := by omega
    simp [hc, nextPc, nextTopped, nextClause, hmore]
  · have hlast : ¬c.idx + 1 < c.words.length := by omega
    simp [hc, nextPc, nextTopped, nextClause, hlast, Clause.nextHeader, Clause.tops]

/-! ### A step at a word -/

theorem coreStep_of_standsAt {s : State} {c rid : Nat} {r : Role} {w : Word} (h : StandsAt s c rid r w) :
    s.coreStep c = some (s.wordStep rid r) := by
  obtain ⟨halive, hphase, hrole, hended, hhold, hstop, k, hk, hissued, -⟩ := h
  have hissuing : s.issuing rid r = true := by simp [State.issuing, hended, hhold, hstop, hk, hissued]
  simp [State.coreStep, halive, hphase, hrole, hissuing]

/-- The core that the schedule names first attempts the word at which it stands. -/
theorem step_of_standsAt {s : State} {c rid : Nat} {r : Role} {w : Word} {rest : List Choice} (h : StandsAt s c rid r w)
    (hs : s.sched = .core c :: rest) : step s = ({ s with sched := rest } : State).attempt rid r := by
  have h0 : StandsAt { s with sched := rest } c rid r w := h
  have hpick : s.pick = ({ s with sched := rest } : State).wordStep rid r := by simp [State.pick, hs, coreStep_of_standsAt h0]
  cases hword : ({ s with sched := rest } : State).wordStep rid r with
  | run i t => simp only [step, State.attempt, hpick, hword]
  | done t => simp only [step, State.attempt, hpick, hword]

/-- A word for which its preparation does all. -/
theorem attempt_of_prepare_done {s t : State} {c rid : Nat} {r : Role} {w : Word} {i : Instr} (h : StandsAt s c rid r w)
    (hi : decodeWord w = .ok i) (hp : s.prepare rid r i = .done t) : s.attempt rid r = .next t := by
  obtain ⟨-, -, -, -, -, -, k, hk, -, rfl⟩ := h
  simp only [State.attempt, State.wordStep, hk, hi, hp]

/-- A word that goes on to its meaning. -/
theorem attempt_of_prepare_run {s t : State} {c rid : Nat} {r : Role} {w : Word} {i : Instr} (h : StandsAt s c rid r w)
    (hi : decodeWord w = .ok i) (hp : s.prepare rid r i = .run t) : s.attempt rid r = exec i t := by
  obtain ⟨-, -, -, -, -, -, k, hk, -, rfl⟩ := h
  simp only [State.attempt, State.wordStep, hk, hi, hp]

/-! What the preparation of a word makes of it (R31, R32), in the order in which it looks. -/

section
variable {s : State} {rid : Nat} {r : Role} {i : Instr}

theorem prepare_of_bound (hbound : r.boundIn ((r.usesOf i).reads ++ (r.usesOf i).writes) = true) :
    s.prepare rid r i = .done (s.trap rid cILLEGAL 0) := by
  simp [State.prepare, hbound]

variable (hfree : r.boundIn ((r.usesOf i).reads ++ (r.usesOf i).writes) = false) (hbad : s.badRegs = [])
include hfree hbad

theorem prepare_of_slotFull (hslot : slotOfInstr i ≠ 0) (hfull : 32 ≤ r.waitCount (slotOfInstr i)) (hidle : r.idle i = false) :
    s.prepare rid r i = .done (s.setRole rid { r with hold := .slotFull }) := by
  simp [State.prepare, hfree, hbad, Role.entryIn, hslot, hfull, hidle, Role.holdAt]

theorem prepare_of_ready (hgo : slotOfInstr i = 0 ∨ r.waitCount (slotOfInstr i) < 32 ∨ r.idle i = true) :
    s.prepare rid r i = .run { (s.readEntries rid r (r.usesOf i).reads).setRole rid (r.trackTack i) with cur := rid } := by
  have hnot : (decide (slotOfInstr i ≠ 0) && decide (32 ≤ r.waitCount (slotOfInstr i)) && !(r.idle i)) = false := by
    rcases hgo with h | h | h <;> simp [h]
  simp only [State.prepare, hfree, hbad, Role.entryIn, List.any_nil, hnot, Bool.false_eq_true, if_false]
end

/-- A register that is written with its own value reads as before, and so does every other. -/
theorem reg_setReg_self (s : State) (d off d' off' : Nat) : (s.setReg d off (s.reg d off)).reg d' off' = s.reg d' off' := by
  simp only [State.setReg, State.reg, State.updDie, State.die, State.setDie_dies]
  by_cases hd : d' = d
  · subst hd
    rw [Sparse.get_put_same, Sparse.get_set]
    split
    next hoff => rw [hoff]
    next => rfl
  · rw [Sparse.get_put_other _ _ _ _ _ hd]

/-- Where no register entry has an error that ECC corrects, none is counted. -/
theorem reg_readEntries (s : State) (rid : Nat) (r : Role) (l : List TrackReg) (h : s.weakRegs = []) (d off : Nat) :
    (s.readEntries rid r l).reg d off = s.reg d off := by
  have hnone : ∀ t : State, (t.countErrors (dieOf r.core) 0x6310 0).reg d off = t.reg d off := by
    intro t
    rw [State.countErrors, BitVec.add_zero]
    exact reg_setReg_self t _ _ d off
  simp only [State.readEntries, h, List.filter_nil, List.length_nil]
  exact hnone _

theorem trackTack_of_noRegion (r : Role) (i : Instr) (ht : r.tack = none) (hn : r.tackNext = false) :
    r.trackTack i = { r with tackLast := false } := by
  simp [Role.trackTack, ht, hn]

/-- Settles O55: the core attempts its word, and the preparation of the word is one of three. -/
theorem stepRunsTheDecodedInstruction : Obligations.StepRunsTheDecodedInstruction := by
  intro s c rid r w i rest hstands hsched hi s0 u s1
  have h0 : StandsAt s0 c rid r w := hstands
  rw [step_of_standsAt hstands hsched]
  refine ⟨fun hbound => ?_, fun hfree hbad => ⟨fun hslot hfull hidle => ?_, ⟨fun hgo => ?_, rfl, rfl, rfl, fun hweak => ?_⟩, ?_⟩⟩
  · exact attempt_of_prepare_done h0 hi (prepare_of_bound hbound)
  · exact attempt_of_prepare_done h0 hi (prepare_of_slotFull hfree hbad hslot hfull hidle)
  · exact attempt_of_prepare_run h0 hi (prepare_of_ready hfree hbad hgo)
  · exact reg_readEntries s0 rid r u.reads hweak
  · exact trackTack_of_noRegion r i

end Sys2Proof.Claim
end

section
/-! SUPPORT. Fetching a clause, issuing its header, and the choice of a role (01 R22-R32, 19 R403, R404). -/
namespace Sys2Proof.Claim
open Sys2Proof.Machine

/-! ### The words of a clause (R23) -/

theorem badWord_cons (b i : Nat) (w : Word) (ws : List Word) : badWord b i (w :: ws) = none ↔
    (∃ x, decodeWord w = .ok x ∧ x.inBudget b = true ∧ (x.isTransfer = true → ws = [])) ∧ badWord b (i + 1) ws = none := by
  cases hw : decodeWord w with
  | error e => simp [badWord, hw]
  | ok x =>
    have hok : (x.inBudget b && (!x.isTransfer || ws.isEmpty)) = true ↔ x.inBudget b = true ∧ (x.isTransfer = true → ws = []) := by
      cases x.isTransfer <;> simp
    simp only [badWord, hw, Except.ok.injEq, exists_eq_left']
    rw [← hok]
    split
    next h => simp [h]
    next h => simp [h]

/-- A word of the list is its first, or a word of the rest. -/
theorem badWord_eq_none_iff (b i : Nat) (ws : List Word) : badWord b i ws = none ↔ ∀ k w, ws[k]? = some w →
    ∃ x, decodeWord w = .ok x ∧ x.inBudget b = true ∧ (x.isTransfer = true → k + 1 = ws.length) := by
  induction ws generalizing i with
  | nil => simp [badWord]
  | cons v vs ih =>
    rw [badWord_cons, ih]
    constructor
    · rintro ⟨⟨x, hx, hb, hlast⟩, hrest⟩ (_ | k) w hw
      · obtain rfl : v = w := by simpa using hw
        exact ⟨x, hx, hb, fun ht => by simp [hlast ht]⟩
      · obtain ⟨y, hy, hyb, hylast⟩ := hrest k w (by simpa using hw)
        exact ⟨y, hy, hyb, fun ht => by simp [← hylast ht]⟩
    · intro h
      refine ⟨?_, fun k w hw => ?_⟩
      · obtain ⟨x, hx, hb, hlast⟩ := h 0 v rfl
        exact ⟨x, hx, hb, fun ht => by simpa using hlast ht⟩
      · obtain ⟨x, hx, hb, hlast⟩ := h (k + 1) w (by simpa using hw)
        exact ⟨x, hx, hb, fun ht => by simpa using hlast ht⟩

/-! ### A clause is fetched whole (R22) -/

/-- The role fetches the clause at its pc, rather than resume within one or run past the last address. -/
structure Fetches (s : State) (rid : Nat) (r : Role) : Prop where
  role : s.role? rid = some r
  ended : r.ended = false
  clause : r.clause = none
  hold : r.hold = .ready
  resident : s.resident r = true
  topped : r.topped = false

theorem gang_of_resident {s : State} {r : Role} (h : s.resident r = true) : ∃ g, s.gang? r.gang = some g ∧ g.state = .resident := by
  unfold State.resident at h
  cases hg : s.gang? r.gang with
  | none => simp [hg] at h
  | some g => exact ⟨g, rfl, by simpa [hg] using h⟩

section
variable {s s1 s2 : State} {rid : Nat} {r : Role} {f : Option KeptClause} {hw ws : List Word} {hd : Header}

theorem fetchClause_of_badHeader (hf : Fetches s rid r) (hfetch : s.fetchPart r f (r.pc.toNat : Int) 1 = (.ok hw, s1))
    (hbad : decodeHeader (hw.headD 0) = none) : s.fetchClause f rid = s1.trapWith rid cILLEGAL false false false 0 0 r.pc r.pc := by
  obtain ⟨g, hg, hstate⟩ := gang_of_resident hf.resident
  simp only [State.fetchClause, hf.role, hf.ended, hf.clause, hf.hold, hf.topped, hg, hstate, Option.isSome_none, bne_self_eq_false,
    beq_self_eq_true, Bool.or_self, Bool.not_true, Bool.false_eq_true, if_false, hfetch, hbad]

/-- A clause that lies in one page is read in one part, after its header. -/
theorem fetchClause_of_header (hf : Fetches s rid r) (hfetch : s.fetchPart r f (r.pc.toNat : Int) 1 = (.ok hw, s1))
    (hhd : decodeHeader (hw.headD 0) = some hd) (hpage : r.pc.toNat % 2 ^ 16 + 8 * (hd.count.toNat + 2) ≤ 2 ^ 16)
    (hwords : s1.fetchPart r f ((r.pc.toNat : Int) + 8) (hd.count.toNat + 1) = (.ok ws, s2)) :
    (∀ i, badWord r.budget 0 ws = some i →
      s.fetchClause f rid = s2.trapWith rid cILLEGAL false false false 0 0 r.pc (r.pc + BitVec.ofNat 64 (8 * (i + 1)))) ∧
    (badWord r.budget 0 ws = none → s.fetchClause f rid = s2.updRole rid fun q =>
      { q with clause := some { addr := r.pc, header := hd, words := ws, idx := 0, issued := false } }) := by
  obtain ⟨g, hg, hstate⟩ := gang_of_resident hf.resident
  have hroom : min (hd.count.toNat + 1) ((2 ^ 16 - r.pc.toNat % 2 ^ 16) / 8 - 1) = hd.count.toNat + 1 := by omega
  constructor
  · intro i hi
    simp only [State.fetchClause, hf.role, hf.ended, hf.clause, hf.hold, hf.topped, hg, hstate, Option.isSome_none, bne_self_eq_false,
      beq_self_eq_true, Bool.or_self, Bool.not_true, Bool.false_eq_true, if_false, hfetch, hhd, hroom, Nat.add_one_ne_zero, hwords, if_true,
      List.append_nil, hi]
  · intro hnone
    simp only [State.fetchClause, hf.role, hf.ended, hf.clause, hf.hold, hf.topped, hg, hstate, Option.isSome_none, bne_self_eq_false,
      beq_self_eq_true, Bool.or_self, Bool.not_true, Bool.false_eq_true, if_false, hfetch, hhd, hroom, Nat.add_one_ne_zero, hwords, if_true,
      List.append_nil, hnone]

/-- A role that does not resume fetches the clause at its pc. -/
theorem fetchFrom_of_start (hresume : r.resume = false) : s.fetchFrom f rid r = s.fetchClause f rid := by
  simp [State.fetchFrom, hresume]
end

/-- A fetch reads the newest bytes or the clause that the core keeps, and draws at most which of the two (R28). -/
theorem fetchAny_cases (s : State) (rid : Nat) (r : Role) : ∃ s0 f, (s0 = s ∨ s0 = s.fresh.2) ∧ (f = none ∨ f = s.keptClause r r.pc) ∧
    s.fetchAny rid r = s0.fetchFrom f rid r := by
  unfold State.fetchAny
  cases hk : s.keptClause r r.pc with
  | none => exact ⟨s, none, .inl rfl, .inl rfl, rfl⟩
  | some f =>
    have hchoice (b : Bool) : (if b then some f else none) = none ∨ (if b then some f else none) = some f := by cases b <;> simp
    simp only
    split
    next p _ => exact ⟨s, _, .inl rfl, hchoice p.2.2, rfl⟩
    next =>
      split
      · exact ⟨s, none, .inl rfl, .inl rfl, rfl⟩
      · exact ⟨s.fresh.2, _, .inr rfl, hchoice _, rfl⟩

theorem fetchAny_of_unkept {s : State} {r : Role} (rid : Nat) (h : s.keptClause r r.pc = none) : s.fetchAny rid r = s.fetchFrom none rid r := by
  simp only [State.fetchAny, h]

theorem exec_clauseFetch {s : State} {rid : Nat} {r : Role} (hr : s.role? rid = some r) (hc : r.clause = none) :
    exec (.clauseFetch rid) s = .next ((s.fetchAny rid r).keepClause rid) := by
  change execClauseFetch rid s = _
  simp [execClauseFetch, hr, hc]

theorem core_updCore_same (s : State) (c : Nat) (g : Core → Core) : (s.updCore c g).core c = g (s.core c) :=
  Sparse.get_put_same _ _ _ _

/-- The clause that a role has fetched is the one that its core then keeps. -/
theorem keptClause_keepClause {s : State} {rid : Nat} {q : Role} {c : Clause} (hq : s.role? rid = some q) (hc : q.clause = some c) :
    (s.keepClause rid).keptClause q c.addr =
      some { vmid := q.vmid, asid := q.asid, addr := c.addr, words := encodeHeader c.header :: c.words } := by
  simp only [State.keepClause, hq, hc, State.keptClause, core_updCore_same, List.find?_cons]
  simp

/-! ### A header issues (R30, R32) -/

/-- The slots that the header of `c` waits for count 0. -/
theorem slotsClear_iff (c : Clause) (r : Role) :
    ((List.range 6).all fun i => !(c.header.wait.getLsbD i) || r.waitCount (i + 1) = 0) = true ↔
      ∀ i, i < 6 → c.header.wait.getLsbD i = true → r.waitCount (i + 1) = 0 := by
  simp only [List.all_eq_true, List.mem_range, Bool.or_eq_true, Bool.not_eq_true', decide_eq_true_eq]
  refine forall₂_congr fun i _ => ?_
  cases c.header.wait.getLsbD i <;> simp

/-- The role whose header has issued: its slots' bindings end, and a region may open. -/
def headerIssued (r : Role) (c : Clause) : Role :=
  let r1 := r.unbind c.header.wait
  { (if c.header.tack then r1.openTack c.addr (some c) else r1) with clause := some { c with issued := true }, yielded := false }

theorem exec_clauseIssue_of_clear {s : State} {rid : Nat} {r : Role} {c : Clause} (hr : s.role? rid = some r) (hended : r.ended = false)
    (hhold : r.hold = .ready) (hc : r.clause = some c) (hissued : c.issued = false) (hphase : (s.core r.core).phase = .header rid)
    (hclear : ∀ i, i < 6 → c.header.wait.getLsbD i = true → r.waitCount (i + 1) = 0) :
    exec (.clauseIssue rid) s = .next ((s.setRole rid (headerIssued r c)).updCore r.core fun k => { k with phase := .run rid }) := by
  have hready := (slotsClear_iff c r).mpr hclear
  change Host.Outcome.next (s.issueHeader rid) = _
  simp only [State.issueHeader, hr, hc, hissued, hended, hhold, hready, hphase, bne_self_eq_false, Bool.or_self, Bool.not_true,
    Bool.false_eq_true, if_false]
  rfl

theorem exec_clauseIssue_of_waiting {s : State} {rid : Nat} {r : Role} {c : Clause} (hr : s.role? rid = some r) (hc : r.clause = some c)
    (hwait : ∃ i, i < 6 ∧ c.header.wait.getLsbD i = true ∧ r.waitCount (i + 1) ≠ 0) : exec (.clauseIssue rid) s = .next s := by
  obtain ⟨i, hi, hbit, hcount⟩ := hwait
  have hnot : ((List.range 6).all fun i => !(c.header.wait.getLsbD i) || r.waitCount (i + 1) = 0) = false := by
    rw [← Bool.not_eq_true, slotsClear_iff]
    exact fun h => hcount (h i hi hbit)
  change Host.Outcome.next (s.issueHeader rid) = _
  simp only [State.issueHeader, hr, hc, hnot, Bool.not_false, Bool.or_true, Bool.true_or, if_true]

theorem headerIssued_facts (r : Role) (c : Clause) : (headerIssued r c).clause = some { c with issued := true } ∧ (headerIssued r c).yielded = false ∧
    RegsKept r (headerIssued r c) ∧ (headerIssued r c).waits = r.waits ∧ (headerIssued r c).bound = (r.unbind c.header.wait).bound ∧
    (c.header.tack = true → (headerIssued r c).tack.isSome = true) ∧ (c.header.tack = false → (headerIssued r c).tack = r.tack) := by
  unfold headerIssued
  cases c.header.tack with
  | false => exact ⟨rfl, rfl, ⟨fun _ => rfl, fun _ _ _ => rfl⟩, rfl, rfl, nofun, fun _ => rfl⟩
  | true => exact ⟨rfl, rfl, ⟨fun _ => rfl, fun _ _ _ => rfl⟩, rfl, rfl, fun _ => rfl, nofun⟩

theorem mem_unbind (r : Role) (wait : BitVec 6) (p : RegName × Nat) :
    p ∈ (r.unbind wait).bound ↔ p ∈ r.bound ∧ wait.getLsbD (p.2 - 1) = false := by
  simp [Role.unbind]

theorem clausesIssue : ClausesIssue := by
  refine ⟨fun s rid r hr hended hclause hhold hres hresume htop hkept hw s1 hfetch => ?_, fun s rid r hr hclause => ?_,
    fun b ws => badWord_eq_none_iff b 0 ws, fun s rid r c hr hended hhold hc hissued hphase => ⟨fun hclear => ?_, fun hwait => ?_⟩⟩
  · have hf : Fetches s rid r := ⟨hr, hended, hclause, hhold, hres, htop⟩
    rw [exec_clauseFetch hr hclause, fetchAny_of_unkept rid hkept, fetchFrom_of_start hresume]
    refine ⟨fun hbad => by rw [fetchClause_of_badHeader hf hfetch hbad], fun hd hhd hpage ws s2 hwords => ?_⟩
    obtain ⟨hill, hgood⟩ := fetchClause_of_header hf hfetch hhd hpage hwords
    refine ⟨fun hnone hr2 => ?_, fun i hi => by rw [hill i hi]⟩
    intro q
    rw [hgood hnone, State.updRole_some s2 rid _ r hr2]
    exact ⟨rfl, _, keptClause_keepClause (State.role?_setRole_same s2 rid q) rfl, rfl⟩
  · obtain ⟨s0, f, hs0, hf, heq⟩ := fetchAny_cases s rid r
    exact ⟨s0, f, hs0, hf, by rw [exec_clauseFetch hr hclause, heq]⟩
  · obtain ⟨hcl, hy, hregs, hwaits, hbound, htack, hnotack⟩ := headerIssued_facts r c
    refine ⟨_, headerIssued r c, exec_clauseIssue_of_clear hr hended hhold hc hissued hphase hclear, State.role?_setRole_same s rid _, hcl, hy,
      hregs, hwaits, fun p => ?_, ?_, htack, hnotack, rfl, fun k hk => State.role?_setRole_other s rid k _ hk⟩
    · rw [hbound]
      exact mem_unbind r c.header.wait p
    · rw [core_updCore_same]
  · exact exec_clauseIssue_of_waiting hr hc hwait

/-! ### The choice of a role (R404) -/

/-- The last part of the order: the larger issue count, then the lower slot. -/
def countKey (a : Nat × Nat × Role) : Nat ×ₗ Natᵒᵈ := toLex (a.2.2.count, OrderDual.toDual a.1)

/-- Whose turn it is among roles of one priority: the last issuer's that does not yield (2), then theirs that do not yield (1), then theirs that do (0). -/
def turnOf (last : Option Nat) (a : Nat × Nat × Role) : Nat :=
  if a.2.2.yields then 0 else if last = some a.2.1 then 2 else 1

theorem turnOf_le (last : Option Nat) (a : Nat × Nat × Role) : turnOf last a ≤ 2 := by
  unfold turnOf
  split_ifs <;> omega

theorem turnOf_eq_two_iff (last : Option Nat) (a : Nat × Nat × Role) : turnOf last a = 2 ↔ a.2.2.yields = false ∧ last = some a.2.1 := by
  unfold turnOf
  split_ifs <;> simp_all

theorem turnOf_eq_zero_iff (last : Option Nat) (a : Nat × Nat × Role) : turnOf last a = 0 ↔ a.2.2.yields = true := by
  unfold turnOf
  split_ifs <;> simp_all

/-- What R404 orders ready roles by, the better the larger: urgency; of urgent roles the count and slot; of the others priority and turn, and then, the
last issuer apart, the count and slot. -/
def precedence (last : Option Nat) (a : Nat × Nat × Role) : Nat ×ₗ Nat ×ₗ Nat ×ₗ Nat ×ₗ Natᵒᵈ :=
  if 48 ≤ a.2.2.count then toLex (1, toLex (0, toLex (0, countKey a)))
  else toLex (0, toLex (a.2.2.prio, toLex (turnOf last a, if turnOf last a = 2 then toLex (0, OrderDual.toDual 0) else countKey a)))

theorem countKey_lt_iff (a b : Nat × Nat × Role) : countKey a < countKey b ↔ a.2.2.count < b.2.2.count ∨ a.2.2.count = b.2.2.count ∧ b.1 < a.1 := by
  simp [countKey, Prod.Lex.toLex_lt_toLex]

/-- `better` on the last part of the order. -/
theorem tie_eq (a b : Nat × Nat × Role) : (if b.2.2.count > a.2.2.count then b else if a.2.2.count > b.2.2.count then a else if b.1 < a.1 then b else a) =
    if countKey a < countKey b then b else a := by
  simp only [countKey_lt_iff]
  grind

/-- `better` on roles that are not urgent and have one priority. -/
theorem turn_eq (last : Option Nat) (a b c : Nat × Nat × Role) :
    (if last == some a.2.1 && !a.2.2.yields then a else if last == some b.2.1 && !b.2.2.yields then b
      else if a.2.2.yields && !b.2.2.yields then b else if b.2.2.yields && !a.2.2.yields then a else c) =
    if turnOf last a = 2 then a else if turnOf last a < turnOf last b then b else if turnOf last b < turnOf last a then a else c := by
  unfold turnOf
  grind

/-- The better of two roles is the one of the higher precedence, the first where they are equal. -/
theorem better_eq (last : Option Nat) (a b : Nat × Nat × Role) : better last a b = if precedence last a < precedence last b then b else a := by
  unfold better
  simp only [tie_eq, turn_eq]
  by_cases ha : 48 ≤ a.2.2.count
  · by_cases hb : 48 ≤ b.2.2.count
    · simp [precedence, ha, hb, Prod.Lex.toLex_lt_toLex]
    · simp [precedence, ha, hb, Prod.Lex.toLex_lt_toLex]
  · by_cases hb : 48 ≤ b.2.2.count
    · simp [precedence, ha, hb, Prod.Lex.toLex_lt_toLex]
    · rcases lt_trichotomy a.2.2.prio b.2.2.prio with hp | hp | hp
      · simp [precedence, ha, hb, Prod.Lex.toLex_lt_toLex, hp, hp.not_gt]
      · have hle := turnOf_le last b
        rcases lt_trichotomy (turnOf last a) (turnOf last b) with ht | ht | ht
        · have h2 : turnOf last a ≠ 2 := by omega
          simp [precedence, ha, hb, Prod.Lex.toLex_lt_toLex, hp, ht, h2]
        · by_cases h2 : turnOf last b = 2
          · simp [precedence, ha, hb, hp, ht, h2]
          · simp [precedence, ha, hb, Prod.Lex.toLex_lt_toLex, hp, ht, h2]
        · simp [precedence, ha, hb, Prod.Lex.toLex_lt_toLex, hp, ht, ht.not_gt, ht.ne']
      · simp [precedence, ha, hb, Prod.Lex.toLex_lt_toLex, hp, hp.not_gt, hp.ne']

theorem le_better (last : Option Nat) (a b : Nat × Nat × Role) :
    precedence last a ≤ precedence last (better last a b) ∧ precedence last b ≤ precedence last (better last a b) := by
  rw [better_eq]
  split
  next h => exact ⟨h.le, le_rfl⟩
  next h => exact ⟨le_rfl, not_lt.mp h⟩

/-- What is chosen is one of the ready roles, and none precedes it. -/
theorem foldl_better (last : Option Nat) (l : List (Nat × Nat × Role)) (a : Nat × Nat × Role) :
    l.foldl (better last) a ∈ a :: l ∧ ∀ x ∈ a :: l, precedence last x ≤ precedence last (l.foldl (better last) a) := by
  induction l generalizing a with
  | nil => simp
  | cons b l ih =>
    obtain ⟨hmem, hle⟩ := ih (better last a b)
    obtain ⟨hla, hlb⟩ := le_better last a b
    have hbest := hle _ List.mem_cons_self
    constructor
    · have hone : better last a b = a ∨ better last a b = b := by
        rw [better_eq]
        split <;> simp
      rcases List.mem_cons.mp hmem with h | h
      · rw [List.foldl_cons, h]
        rcases hone with h | h <;> simp [h]
      · exact List.mem_cons_of_mem _ (List.mem_cons_of_mem _ h)
    · intro x hx
      rcases List.mem_cons.mp hx with rfl | hx
      · exact hla.trans hbest
      rcases List.mem_cons.mp hx with rfl | hx
      · exact hlb.trans hbest
      · exact hle x (List.mem_cons_of_mem _ hx)

/-- What the order says of a ready role `x` beside the chosen `p`, in the words of R404. -/
theorem chosen_of_precedence_le {last : Option Nat} {x p : Nat × Nat × Role} (h : precedence last x ≤ precedence last p) :
    (48 ≤ x.2.2.count → 48 ≤ p.2.2.count ∧ x.2.2.count ≤ p.2.2.count) ∧
    (p.2.2.count < 48 → x.2.2.prio ≤ p.2.2.prio ∧ (x.2.2.prio = p.2.2.prio →
      (last = some x.2.1 → x.2.2.yields = false → p.2.1 = x.2.1) ∧ (x.2.2.yields = false → p.2.2.yields = false) ∧
      (last ≠ some p.2.1 → x.2.2.yields = p.2.2.yields → x.2.2.count ≤ p.2.2.count ∧ (x.2.2.count = p.2.2.count → p.1 ≤ x.1)))) := by
  by_cases hx : 48 ≤ x.2.2.count
  · by_cases hp : 48 ≤ p.2.2.count
    · simp [precedence, hx, hp, countKey, Prod.Lex.toLex_le_toLex] at h
      omega
    · simp [precedence, hx, hp, Prod.Lex.toLex_le_toLex] at h
  · refine ⟨fun h48 => absurd h48 hx, fun hp => ?_⟩
    have horder : x.2.2.prio < p.2.2.prio ∨ x.2.2.prio = p.2.2.prio ∧ (turnOf last x < turnOf last p ∨
        turnOf last x = turnOf last p ∧ (turnOf last p ≠ 2 → countKey x ≤ countKey p)) := by
      simp only [precedence, hx, hp.not_ge, if_false, Prod.Lex.toLex_le_toLex, lt_self_iff_false, false_or, true_and] at h
      refine h.imp_right (And.imp_right (Or.imp_right fun ⟨ht, hk⟩ => ⟨ht, fun h2 => ?_⟩))
      simpa only [ht, h2, if_false] using hk
    rcases horder with hlt | ⟨heq, hturn⟩
    · exact ⟨hlt.le, fun heq => absurd heq hlt.ne⟩
    have hx2 := turnOf_eq_two_iff last x
    have hx0 := turnOf_eq_zero_iff last x
    have hp2 := turnOf_eq_two_iff last p
    have hp0 := turnOf_eq_zero_iff last p
    have hple := turnOf_le last p
    have hxle := turnOf_le last x
    refine ⟨heq.le, fun _ => ⟨fun hlast hy => ?_, fun hy => ?_, fun hlast hy => ?_⟩⟩
    · obtain ⟨-, hp1⟩ := hp2.mp (by have := hx2.mpr ⟨hy, hlast⟩; omega)
      exact Option.some.inj (hp1.symm.trans hlast)
    · have hpos : turnOf last x ≠ 0 := fun h0 => by simp [hx0.mp h0] at hy
      exact Bool.eq_false_iff.mpr fun hpy => hpos (by have := hp0.mpr hpy; omega)
    · have hnot : turnOf last p ≠ 2 := fun h2 => hlast (hp2.mp h2).2
      have hsame : turnOf last x = turnOf last p := by
        rw [hy] at hx0
        have := hx0.trans hp0.symm
        omega
      have hkey := (hturn.resolve_left hsame.not_lt).2 hnot
      simp only [countKey, Prod.Lex.toLex_le_toLex, OrderDual.toDual_le_toDual] at hkey
      omega

/-! ### An issue opportunity (R403, R404) -/

/-- An update of one role after another changes the roles alone. -/
theorem foldl_updRole_eq (g : Nat × Nat × Role → Role → Role) (l : List (Nat × Nat × Role)) (s : State) :
    l.foldl (fun t p => t.updRole p.2.1 (g p)) s = { s with roles := (l.foldl (fun t p => t.updRole p.2.1 (g p)) s).roles } := by
  induction l generalizing s with
  | nil => rfl
  | cons p l ih =>
    have hone : s.updRole p.2.1 (g p) = { s with roles := (s.updRole p.2.1 (g p)).roles } := by
      unfold State.updRole
      split <;> rfl
    rw [List.foldl_cons, ih, hone]

theorem role?_updRole_other (s : State) {rid k : Nat} (g : Role → Role) (h : k ≠ rid) : (s.updRole rid g).role? k = s.role? k := by
  unfold State.updRole
  split
  · rfl
  · exact State.role?_setRole_other s rid k _ h

/-- A role that no update of the list names stays as it is. -/
theorem role?_foldl_updRole_other (g : Nat × Nat × Role → Role → Role) (l : List (Nat × Nat × Role)) (s : State) {k : Nat}
    (h : k ∉ l.map (·.2.1)) : (l.foldl (fun t p => t.updRole p.2.1 (g p)) s).role? k = s.role? k := by
  induction l generalizing s with
  | nil => rfl
  | cons p l ih =>
    obtain ⟨hp, hl⟩ := not_or.mp (mt List.mem_cons.mpr h)
    rw [List.foldl_cons, ih _ hl, role?_updRole_other s _ hp]

/-- Each role of the list takes its own update, once. -/
theorem role?_foldl_updRole_mem (g : Nat × Nat × Role → Role → Role) (l : List (Nat × Nat × Role)) (s : State) (hnodup : (l.map (·.2.1)).Nodup)
    (hrole : ∀ x ∈ l, s.role? x.2.1 = some x.2.2) {x : Nat × Nat × Role} (hx : x ∈ l) :
    (l.foldl (fun t p => t.updRole p.2.1 (g p)) s).role? x.2.1 = some (g x x.2.2) := by
  induction l generalizing s with
  | nil => cases hx
  | cons p l ih =>
    obtain ⟨hp, hl⟩ := List.nodup_cons.mp hnodup
    rw [List.foldl_cons]
    rcases List.mem_cons.mp hx with rfl | hx
    · rw [role?_foldl_updRole_other g l _ hp, State.updRole_some s _ _ _ (hrole x List.mem_cons_self), State.role?_setRole_same]
    · refine ih _ hl (fun y hy => ?_) hx
      have hne : y.2.1 ≠ p.2.1 := fun h => hp (List.mem_map.mpr ⟨y, hy, h⟩)
      rw [role?_updRole_other s _ hne, hrole y (List.mem_cons_of_mem _ hy)]

/-- A fold whose steps all leave the state is that state. -/
theorem foldl_eq_self {α : Type} (f : State → α → State) (l : List α) (s : State) (h : ∀ x ∈ l, f s x = s) : l.foldl f s = s := by
  induction l with
  | nil => rfl
  | cons a l ih => rw [List.foldl_cons, h a List.mem_cons_self, ih fun x hx => h x (List.mem_cons_of_mem _ hx)]

theorem mem_coreRoles {s : State} {c : Nat} {x : Nat × Nat × Role} (h : x ∈ s.coreRoles c) : s.role? x.2.1 = some x.2.2 := by
  obtain ⟨p, -, hp⟩ := List.mem_filterMap.mp h
  obtain ⟨r, hr, rfl⟩ := Option.map_eq_some_iff.mp hp
  exact hr

theorem nodup_coreRoles {s : State} {c : Nat} (h : ((s.core c).slots.map (·.2)).Nodup) : ((s.coreRoles c).map (·.2.1)).Nodup := by
  refine h.sublist ?_
  unfold State.coreRoles
  induction (s.core c).slots with
  | nil => simp
  | cons p l ih =>
    cases hr : s.role? p.2 with
    | none => simpa [List.filterMap_cons, hr] using ih.cons _
    | some r => simpa [List.filterMap_cons, hr] using ih

/-- The count of a role after an opportunity that `pick` has won among the roles `ready`. -/
def countAfter (pick : Nat) (ready : List Nat) (p : Nat × Nat × Role) (r : Role) : Role :=
  { r with count := if p.2.1 = pick then 0 else if ready.contains p.2.1 then r.count + 1 else 0 }

/-- The state after an opportunity that `pick` has won: the counts of the core's roles, its last issuer and its phase. -/
def chosen (s : State) (c : Nat) (pick : Nat) (ready : List Nat) (ph : Phase) : State :=
  ((s.coreRoles c).foldl (fun t p => t.updRole p.2.1 (countAfter pick ready p)) s).updCore c fun k => { k with last := some pick, phase := ph }

theorem chosen_facts (s : State) (c pick : Nat) (ready : List Nat) (ph : Phase) : (chosen s c pick ready ph).mem = s.mem ∧
    ((chosen s c pick ready ph).core c).last = some pick ∧ ((chosen s c pick ready ph).core c).phase = ph := by
  unfold chosen
  rw [foldl_updRole_eq, core_updCore_same]
  exact ⟨rfl, rfl, rfl⟩

theorem role?_chosen {s : State} {c : Nat} (pick : Nat) (ready : List Nat) (ph : Phase) (hnodup : ((s.core c).slots.map (·.2)).Nodup)
    {x : Nat × Nat × Role} (hx : x ∈ s.coreRoles c) : (chosen s c pick ready ph).role? x.2.1 = some (countAfter pick ready x x.2.2) :=
  role?_foldl_updRole_mem _ _ s (nodup_coreRoles hnodup) (fun _ => mem_coreRoles) hx

/-- With no operation to go on with, no role to end and no trap to take, an opportunity only chooses. -/
theorem opportunity_of_quiet {s : State} {c : Nat} (hphase : (s.core c).phase = .choose) (hops : (s.core c).ops = [])
    (hquiet : ∀ p ∈ s.coreRoles c, p.2.2.halting = false ∧ p.2.2.pend = []) :
    (s.readyRoles c = [] → s.opportunity c = s) ∧
    ∀ a l, s.readyRoles c = a :: l → ∃ ph,
      (ph = .run (l.foldl (better (s.core c).last) a).2.1 ∨ ph = .header (l.foldl (better (s.core c).last) a).2.1) ∧
      s.opportunity c = chosen s c (l.foldl (better (s.core c).last) a).2.1 ((a :: l).map (·.2.1)) ph := by
  have hpump : s.pump c = s := by simp [State.pump, hops]
  have hhalt : (s.coreRoles c).foldl (fun s p => if p.2.2.halting then (s.discardLog p.2.1 c).endRole p.2.1 else s) s = s :=
    foldl_eq_self _ _ s fun p hp => by simp [(hquiet p hp).1]
  have hpend : (s.coreRoles c).foldl (fun s p => if p.2.2.pend.isEmpty then s else s.takePending p.2.1) s = s :=
    foldl_eq_self _ _ s fun p hp => by simp [(hquiet p hp).2]
  constructor
  · intro hnone
    simp only [State.opportunity, hphase, bne_self_eq_false, Bool.false_eq_true, if_false, hpump, hhalt, hpend, hnone]
  · intro a l hready
    refine ⟨_, ?_, by simp only [State.opportunity, hphase, bne_self_eq_false, Bool.false_eq_true, if_false, hpump, hhalt, hpend, hready]; rfl⟩
    cases (l.foldl (better (s.core c).last) a).2.2.clause with
    | none => exact .inr rfl
    | some k => cases k.issued <;> simp

/-- The roles of a core have each its own number, so that a ready role is known by it. -/
theorem ready_contains_iff {s : State} {c : Nat} (hnodup : ((s.core c).slots.map (·.2)).Nodup) {x : Nat × Nat × Role} (hx : x ∈ s.coreRoles c) :
    ((s.readyRoles c).map (·.2.1)).contains x.2.1 = true ↔ x ∈ s.readyRoles c := by
  rw [List.contains_iff_mem, List.mem_map]
  constructor
  · rintro ⟨y, hy, heq⟩
    rwa [← List.inj_on_of_nodup_map (nodup_coreRoles hnodup) (List.mem_of_mem_filter hy) hx heq]
  · exact fun h => ⟨x, h, rfl⟩

theorem opportunitiesChoose : OpportunitiesChoose := by
  intro s c hphase hops hnodup hquiet ready i
  obtain ⟨hidle, hchoose⟩ := opportunity_of_quiet hphase hops hquiet
  refine ⟨fun hnone => congrArg Host.Outcome.next (hidle hnone), fun hsome => ?_⟩
  obtain ⟨a, l, hready⟩ := List.exists_cons_of_ne_nil hsome
  obtain ⟨hmem, hbest⟩ := foldl_better (s.core c).last l a
  obtain ⟨ph, hph, hnext⟩ := hchoose a l hready
  rw [← hready] at hmem hbest hnext
  generalize l.foldl (better (s.core c).last) a = p at hmem hbest hph hnext
  obtain ⟨hm, hlast, hphase'⟩ := chosen_facts s c p.2.1 ((s.readyRoles c).map (·.2.1)) ph
  refine ⟨_, p, congrArg Host.Outcome.next hnext, hmem, hlast, by rw [hphase']; exact hph, hm,
    fun x hx => (chosen_of_precedence_le (hbest x hx)).1, fun hp x hx => (chosen_of_precedence_le (hbest x hx)).2 hp, fun x hx => ?_⟩
  have hin : (ready.map (·.2.1)).contains x.2.1 = true ↔ x ∈ ready := ready_contains_iff hnodup hx
  rw [role?_chosen _ _ _ hnodup hx, countAfter]
  simp only [hin]

/-- Settles O44: a fetch by its parts, a header by its slots, and the choice by the order that `better` follows. -/
theorem clausesAndOpportunities : Obligations.ClausesAndOpportunities := ⟨clausesIssue, opportunitiesChoose⟩

end Sys2Proof.Claim
end

section
/-! SUPPORT. Memory keeps its canonical form (02 R56-R60) at every step. One lemma for each operation of the model, named after it: `MemOk.f` says
that `f` keeps canonical memory canonical. Where `f` answers more than a state, or may answer none, the lemma speaks of any `x` that the answer is
equal to, so that it takes the equation that a case split leaves, or `rfl`. -/
namespace Sys2Proof.Machine

/-! ### Canonical memory of a state -/

/-- The memory of the package and that of the pod's peers are canonical: `MemoryInv` with its two parts named. -/
structure MemOk (s : State) : Prop where
  mem : Memory.wf s.mem
  podMem : Memory.wf s.podMem

theorem memOk_iff {s : State} : MemOk s ↔ MemoryInv s := ⟨fun h => ⟨h.mem, h.podMem⟩, fun h => ⟨h.1, h.2⟩⟩

/-- A change that leaves both memories alone. -/
theorem MemOk.frame {s t : State} (h : MemOk s) (hm : t.mem = s.mem) (hp : t.podMem = s.podMem) : MemOk t :=
  ⟨hm ▸ h.mem, hp ▸ h.podMem⟩

/-! ### What an answer carries -/

/-- What an option holds, where it holds anything, has the property. -/
def Maybe {α : Type} (p : α → Prop) : Option α → Prop
  | none => True
  | some a => p a

/-- The error or the result has the property of its kind. -/
def Ends {ε α : Type} (p : ε → Prop) (q : α → Prop) : Except ε α → Prop
  | .error e => p e
  | .ok a => q a

/-- The next state, where there is one, has canonical memory. -/
def OutOk : Out → Prop
  | .next t => MemOk t
  | _ => True

/-- The state that holds an opened line, or in which it cannot be opened, has canonical memory. -/
def OpenedOk : Opened → Prop
  | .line _ t | .failed t | .noWay t => MemOk t
  | .rest => True

/-- The state of a word that is prepared, or that is not to run, has canonical memory. -/
def ReadyOk : Ready → Prop
  | .done t | .run t => MemOk t

/-- The state in which the chosen step runs, or that it has left, has canonical memory. -/
def PickOk : Pick → Prop
  | .done t | .run _ t => MemOk t

namespace Maybe
variable {α β : Type} {p : α → Prop} {q : β → Prop} {o : Option α}

theorem map {f : α → β} (ho : Maybe p o) (hf : ∀ a, p a → q (f a)) : Maybe q (o.map f) := by
  cases o with
  | none => trivial
  | some a => exact hf a ho

theorem map_any {f : α → β} (hf : ∀ a, q (f a)) : Maybe q (o.map f) := by
  cases o with
  | none => trivial
  | some a => exact hf a

theorem getD {d : α} (ho : Maybe p o) (hd : p d) : p (o.getD d) := by
  cases o with
  | none => exact hd
  | some a => exact ho

theorem findSome {f : β → Option α} (l : List β) (hf : ∀ b, Maybe p (f b)) : Maybe p (l.findSome? f) := by
  cases hl : l.findSome? f with
  | none => trivial
  | some a =>
    obtain ⟨b, -, hb⟩ := List.exists_of_findSome?_eq_some hl
    simpa only [hb] using hf b

end Maybe

theorem Ends.bind {ε α β : Type} {p : ε → Prop} {q : α → Prop} {q' : β → Prop} {x : Except ε α} {f : α → Except ε β}
    (hx : Ends p q x) (hf : ∀ a, q a → Ends p q' (f a)) : Ends p q' (x >>= f) := by
  cases x with
  | error e => exact hx
  | ok a => exact hf a hx

theorem MemOk.foldl {α : Type} {f : State → α → State} {l : List α} {s : State} (h : MemOk s) (hf : ∀ t a, MemOk t → MemOk (f t a)) :
    MemOk (l.foldl f s) := by
  induction l generalizing s with
  | nil => exact h
  | cons a l ih => exact ih (hf s a h)

/-- A memory into which values are put one after another stays canonical. -/
theorem foldl_writeBytes_wf {α : Type} {f g : α → Nat} {z : Nat} (l : List α) {m : List Host.Cell} (h : Memory.wf m) :
    Memory.wf (l.foldl (fun m p => writeBytes m (f p) (g p) z) m) := by
  induction l generalizing m with
  | nil => exact h
  | cons p l ih => exact ih (writeBytes_wf m _ _ _ h)

/-- A fold that carries a state along with its value. -/
theorem MemOk.foldl_snd {α β : Type} {f : β × State → α → β × State} {l : List α} {s : State} {b : β} {x : β × State} (h : MemOk s)
    (hf : ∀ y a, MemOk y.2 → MemOk (f y a).2) (e : l.foldl f (b, s) = x) : MemOk x.2 := by
  subst e
  induction l generalizing s b with
  | nil => exact h
  | cons a l ih => exact ih (hf (b, s) a h)

theorem Ends.ok_of {ε α : Type} {p : ε → Prop} {q : α → Prop} {x : Except ε α} {a : α} (hx : Ends p q x) (e : x = .ok a) : q a := by
  subst e
  exact hx

theorem Ends.error_of {ε α : Type} {p : ε → Prop} {q : α → Prop} {x : Except ε α} {a : ε} (hx : Ends p q x) (e : x = .error a) : p a := by
  subst e
  exact hx

theorem MemOk.ite {c : Prop} [Decidable c] {s t : State} (hs : MemOk s) (ht : MemOk t) : MemOk (if c then s else t) := by
  split
  · exact hs
  · exact ht

theorem Ends.ite {ε α : Type} {p : ε → Prop} {q : α → Prop} {c : Prop} [Decidable c] {x y : Except ε α}
    (hx : Ends p q x) (hy : Ends p q y) : Ends p q (if c then x else y) := by
  split
  · exact hx
  · exact hy

end Sys2Proof.Machine
end

section
/-! SUPPORT. Canonical memory is kept by the operations on roles, signals, bytes and lines. -/
namespace Sys2Proof.Machine

theorem MemOk.setRole {s rid r} (h : MemOk s) : MemOk (s.setRole rid r) := h.frame rfl rfl

theorem MemOk.updRole {s rid f} (h : MemOk s) : MemOk (s.updRole rid f) := by
  unfold State.updRole
  split
  · exact h
  · exact h.setRole

theorem MemOk.setCore {s c k} (h : MemOk s) : MemOk (s.setCore c k) := h.frame rfl rfl

theorem MemOk.updCore {s c f} (h : MemOk s) : MemOk (s.updCore c f) := h.setCore

theorem MemOk.raisePts {s core t} (h : MemOk s) : MemOk (s.raisePts core t) := h.updCore

theorem MemOk.setDie {s d x'} (h : MemOk s) : MemOk (s.setDie d x') := h.frame rfl rfl

theorem MemOk.updDie {s d f} (h : MemOk s) : MemOk (s.updDie d f) := h.setDie

theorem MemOk.setGang {s g x'} (h : MemOk s) : MemOk (s.setGang g x') := h.frame rfl rfl

theorem MemOk.updGang {s g f} (h : MemOk s) : MemOk (s.updGang g f) := by
  unfold State.updGang
  split
  · exact h
  · exact h.setGang

theorem MemOk.tick {s t} (h : MemOk s) : MemOk (s.tick t) := h.frame rfl rfl

theorem MemOk.tickSnap {s d t} (h : MemOk s) : MemOk (s.tickSnap d t) := h.updDie

theorem MemOk.tickOf {s a n} (h : MemOk s) : MemOk (s.tickOf a n) := by
  unfold State.tickOf
  split
  · exact h.tickSnap
  · exact h.tick

theorem MemOk.send {s i} (h : MemOk s) : MemOk (s.send i) := h.frame rfl rfl

theorem MemOk.sendAll {s l} (h : MemOk s) : MemOk (s.sendAll l) := h.frame rfl rfl

theorem MemOk.signal {s x'} (h : MemOk s) : MemOk (s.signal x') := h.frame rfl rfl

theorem MemOk.fresh {s x} (h : MemOk s) (e : s.fresh = x) : MemOk x.2 := by
  subst e
  exact h.frame rfl rfl

theorem MemOk.onRole {s f} (hf : ∀ rid r, MemOk (f rid r)) : OutOk (onRole s f) := by
  unfold Machine.onRole
  split
  · trivial
  · exact hf _ _

theorem MemOk.wordStep {s f} (h : MemOk s) : OutOk (wordStep s f) := MemOk.onRole (fun _ _ => h.setRole)

theorem MemOk.storeLine {s line vmid d} (h : MemOk s) : MemOk (s.storeLine line vmid d) :=
  ⟨State.storeLine_wf s line vmid d h.mem, h.podMem⟩

theorem MemOk.hostStore {s line d} (h : MemOk s) : MemOk (s.hostStore line d) := ⟨State.hostStore_wf s line d h.mem, h.podMem⟩

theorem MemOk.setReg {s d off x'} (h : MemOk s) : MemOk (s.setReg d off x') := h.updDie

theorem MemOk.setRegField {s d off lo n v} (h : MemOk s) : MemOk (s.setRegField d off lo n v) := h.setReg

theorem MemOk.countErrors {s d off n} (h : MemOk s) : MemOk (s.countErrors d off n) := h.setReg

theorem MemOk.countError {s d off} (h : MemOk s) : MemOk (s.countError d off) := h.countErrors

theorem MemOk.countWeak {s line} (h : MemOk s) : MemOk (s.countWeak line) := by
  unfold State.countWeak
  split
  · exact h
  · exact h.countErrors

theorem MemOk.retireFrame {s pa} (h : MemOk s) : MemOk (s.retireFrame pa) := by
  unfold State.retireFrame
  split
  · exact h.updDie.countError
  · exact h

theorem MemOk.memCheck {s line x} (h : MemOk s) (e : s.memCheck line = x) : MemOk x.1 := by
  subst e
  unfold State.memCheck
  split
  · exact h.retireFrame
  · split
    · exact h
    · exact h.countWeak

theorem MemOk.touchFrame {s pa} (h : MemOk s) : MemOk (s.touchFrame pa) := by
  unfold State.touchFrame
  split
  · exact h.updDie
  · exact h

theorem MemOk.noteFill {s line} (h : MemOk s) : MemOk (s.noteFill line) := by
  unfold State.noteFill
  split
  · exact h
  · extract_lets hbm n s1
    have hs1 : MemOk s1 := h.updDie
    split
    · exact hs1.touchFrame
    · exact hs1

theorem MemOk.countDeny {s d vmid} (h : MemOk s) : MemOk (s.countDeny d vmid) := h.setRegField.setRegField

end Sys2Proof.Machine
end

section
/-! SUPPORT. Canonical memory is kept by the messages of coherence, the directory and the slices. -/
namespace Sys2Proof.Machine

theorem MemOk.sendMsg {s x' y i} (h : MemOk s) : MemOk (s.sendMsg x' y i) := by
  unfold State.sendMsg
  split
  · exact h.send
  · extract_lets m held
    have hheld : MemOk held := h.frame rfl rfl
    split
    · exact h.send
    · exact hheld.send
    · split
      · exact h
      · exact h.send
    · exact hheld

theorem MemOk.sendUpdates {s x' us} (h : MemOk s) : MemOk (s.sendUpdates x' us) := h.foldl (fun _ _ ht => ht.sendMsg)

theorem MemOk.putHeld {s a l} (h : MemOk s) : MemOk (s.putHeld a l) := by
  unfold State.putHeld
  split
  · exact h.frame rfl rfl
  · exact h.updDie

theorem MemOk.writeBack {s d l} (h : MemOk s) : MemOk (s.writeBack d l) := by
  unfold State.writeBack
  split
  · exact h
  · split
    · exact h.retireFrame
    · exact h.storeLine

theorem MemOk.evict {s d l} (h : MemOk s) : MemOk (s.evict d l) := by
  unfold State.evict
  extract_lets h' top home gone
  have hgone : MemOk gone := by
    unfold gone
    refine MemOk.updDie ?_
    split
    · exact h.writeBack
    · exact h
  split
  · exact hgone
  · exact hgone.updDie
  · exact hgone.updDie
  · exact hgone.sendMsg

theorem MemOk.fill {s d l x} (h : MemOk s) (e : s.fill d l = x) : Maybe MemOk x := by
  subst e
  unfold State.fill
  extract_lets x n same accs from_
  split
  · exact h.updDie
  · clear_value from_
    split
    · exact h.updDie.noteFill
    · split
      · exact h.evict.updDie.noteFill
      · trivial

theorem MemOk.dropLine {s line l1} (h : MemOk s) : MemOk (s.dropLine line l1) := by
  unfold State.dropLine
  extract_lets h' top s1 s2 base s3
  have hs1 : MemOk s1 := by
    unfold s1
    split
    · exact h.writeBack
    · exact h
  have hs2 : MemOk s2 := hs1.foldl (fun _ _ ht => ht.updDie)
  have hbase : MemOk base := hs2.updDie
  have hs3 : MemOk s3 := hbase.frame rfl rfl
  split
  · exact hs3.frame rfl rfl
  · exact hs3

theorem MemOk.claim {s line vmid} (h : MemOk s) : MemOk (s.claim line vmid) := by
  unfold State.claim
  split
  · split
    · exact h.dropLine
    · exact h
  · exact h

theorem MemOk.l2Error {s d line x} (h : MemOk s) (e : s.l2Error d line = x) : MemOk x.1 := by
  subst e
  unfold State.l2Error
  extract_lets x held
  split
  · exact h
  · split
    · split
      · exact h.retireFrame
      · exact h.foldl (fun _ _ ht => ht.evict)
    · split
      · exact h.updDie.countError
      · exact h

theorem MemOk.homeCheck {s line x} (h : MemOk s) (e : s.homeCheck line = x) : MemOk x.1 := by
  subst e
  unfold State.homeCheck
  extract_lets h'
  split
  next t _ e =>
    have ht : MemOk t := h.l2Error e
    split
    · exact ht
    · exact ht.memCheck rfl

theorem MemOk.readCheck {s d line x} (h : MemOk s) (e : s.readCheck d line = x) : MemOk x.1 := by
  subst e
  unfold State.readCheck
  split
  next t _ e =>
    have ht : MemOk t := h.l2Error e
    split
    · exact ht
    · exact ht.homeCheck rfl

theorem MemOk.wakeFills {s} (h : MemOk s) : MemOk s.wakeFills := h.sendAll

theorem MemOk.wake {s h' line} (h : MemOk s) : MemOk (s.wake h' line) := h.sendAll.wakeFills

theorem MemOk.refuseData {s h' line a} (h : MemOk s) : MemOk (s.refuseData h' line a) := by
  unfold State.refuseData
  extract_lets s1 s2 x
  have hs1 : MemOk s1 := h.updDie
  have hs2 : MemOk s2 := by
    unfold s2
    split
    · split
      · exact hs1.updDie
      · exact hs1
    · exact hs1
  split
  · exact hs2
  · exact hs2.setDie.sendAll

theorem MemOk.homeReply {s h' line a k} (h : MemOk s) : MemOk (s.homeReply h' line a k) := by
  unfold State.homeReply
  split
  · exact h
  · split
    next t _ e2 =>
      have ht : MemOk t := h.homeCheck e2
      split
      · exact ht.refuseData
      · extract_lets d s2
        have hs2 : MemOk s2 := by
          unfold s2
          split
          · exact ht.updDie
          · exact ht
        exact hs2.sendMsg

theorem MemOk.grant {s h' line a forwarded upgrade} (h : MemOk s) : MemOk (s.grant h' line a forwarded upgrade) := by
  unfold State.grant
  extract_lets s1 s2
  have hs1 : MemOk s1 := h.updDie
  have hs2 : MemOk s2 := by
    unfold s2
    split
    · split
      · exact hs1.sendMsg
      · exact hs1
    · exact hs1.homeReply
  split
  · exact hs2
  · exact hs2.wake

theorem MemOk.txDone {s a line} (h : MemOk s) : MemOk (s.txDone a line) := by
  unfold State.txDone
  extract_lets h'
  split
  · split
    · exact h.updDie.wake
    · exact h
  · exact h

theorem MemOk.startWrite {s h' e' req a} (h : MemOk s) : MemOk (s.startWrite h' e' req a) := by
  unfold State.startWrite
  extract_lets others own upgrade inv fwd acks s1 s2
  have hs1 : MemOk s1 := h.updDie
  have hs2 : MemOk s2 := by
    unfold s2
    split
    · exact hs1.sendMsg
    · exact hs1
  split
  · exact h.grant
  · exact hs2.foldl (fun _ _ ht => ht.sendMsg)

theorem MemOk.forwardRead {s h' e' a} (h : MemOk s) : MemOk (s.forwardRead h' e' a) := h.updDie.sendMsg

theorem MemOk.startRead {s h' e' a} (h : MemOk s) : MemOk (s.startRead h' e' a) := by
  unfold State.startRead
  split
  · exact h.updDie.homeReply
  · exact h.updDie.homeReply
  · split
    · exact h.homeReply
    · exact h.forwardRead
  · split
    · exact h.homeReply
    · exact h.forwardRead
  · split
    · exact h.homeReply
    · exact h.forwardRead

theorem MemOk.startReq {s h' e' req a} (h : MemOk s) : MemOk (s.startReq h' e' req a) := by
  unfold State.startReq
  split
  · exact h.startRead
  · exact h.startWrite

theorem MemOk.addVictim {s h' v} (h : MemOk s) : MemOk (s.addVictim h' v) := by
  unfold State.addVictim
  extract_lets hs s1
  have hs1 : MemOk s1 := h.updDie
  exact hs1.foldl (fun _ _ ht => ht.sendMsg)

theorem MemOk.homeRequest {s h' req line a} (h : MemOk s) : MemOk (s.homeRequest h' req line a) := by
  unfold State.homeRequest
  extract_lets x e
  split
  · exact h.setDie
  · split
    · exact h.startReq
    · split
      · exact h.setDie.startReq
      · split
        · exact h.setDie
        · exact h.setDie.addVictim.startReq

theorem MemOk.homeInvack {s h' line a hh} (h : MemOk s) : MemOk (s.homeInvack h' line a hh) := by
  unfold State.homeInvack
  extract_lets s1
  have hs1 : MemOk s1 := h.updDie
  split
  · exact hs1
  · extract_lets left
    split
    · exact hs1
    · split
      · exact hs1.grant
      · exact hs1.updDie

theorem MemOk.homeBack {s h' line a hh} (h : MemOk s) : MemOk (s.homeBack h' line a hh) := by
  unfold State.homeBack
  split
  · exact h
  · extract_lets base v1
    split
    · exact h.updDie
    · exact h.updDie.wake

theorem MemOk.homeEvc {s h' line a hh} (h : MemOk s) : MemOk (s.homeEvc h' line a hh) := by
  unfold State.homeEvc
  split
  · exact h.updDie
  · extract_lets e1' s1
    have hs1 : MemOk s1 := h.updDie
    split
    · exact hs1.updDie
    · exact hs1

theorem MemOk.homeMirror {s h' line a bytes mask wts x} (h : MemOk s) (e : s.homeMirror h' line a bytes mask wts = x) : Maybe MemOk x := by
  subst e
  unfold State.homeMirror
  extract_lets hts t s1 s2 vmid merge s3
  have hs1 : MemOk s1 := h.updDie
  have hs2 : MemOk s2 := by
    unfold s2
    split
    · exact hs1.frame rfl rfl
    · exact hs1
  have hmerge : ∀ (s : State) (l : SliceLine) (dirty : Bool), MemOk s → MemOk (merge s l dirty) := by
    intro s4 l dirty ht
    unfold merge
    exact ht.updDie
  have hs3 : MemOk s3 := hs2.storeLine
  split
  · split
    · exact hmerge _ _ _ hs3
    · exact hs3
  · split
    · exact hmerge _ _ _ hs2
    · split
      next t1 _ e1 =>
        have ht1 : MemOk t1 := hs2.memCheck e1
        split
        · exact ht1
        · exact ht1.fill rfl

theorem MemOk.request {s d line vmid write} (h : MemOk s) : MemOk (s.request d line vmid write) := by
  unfold State.request
  split
  · exact h
  · exact h.updDie.sendMsg

theorem MemOk.askFor {s d line} (h : MemOk s) : MemOk (s.askFor d line) := by
  unfold State.askFor
  split
  · exact h.request
  · split
    · exact h.request
    · exact h

theorem MemOk.giveUp {s a line} (h : MemOk s) : MemOk (s.giveUp a line) := by
  unfold State.giveUp
  split
  · exact h.frame rfl rfl
  · split
    · exact h
    · exact h.updDie

theorem MemOk.takeBack {s a line} (h : MemOk s) : MemOk (s.takeBack a line) := by
  unfold State.takeBack
  split
  · exact h
  · extract_lets tx s1
    have hs1 : MemOk s1 := MemOk.updDie (h.frame rfl rfl)
    clear_value tx
    split
    · exact hs1.request
    · exact hs1

theorem MemOk.agentInv {s h' a line} (h : MemOk s) : MemOk (s.agentInv h' a line) := h.giveUp.sendMsg.takeBack

theorem MemOk.agentBinv {s h' a line} (h : MemOk s) : MemOk (s.agentBinv h' a line) := h.giveUp.sendMsg.takeBack

theorem MemOk.serveRead {s h' o line a} (h : MemOk s) : MemOk (s.serveRead h' o line a) := h.updDie.homeReply.wake

theorem MemOk.ownerCheck {s o line x} (h : MemOk s) (e : s.ownerCheck o line = x) : MemOk x.1 := by
  subst e
  unfold State.ownerCheck
  split
  · exact h
  · exact h.l2Error rfl

theorem MemOk.agentFwds {s h' o line a} (h : MemOk s) : MemOk (s.agentFwds h' o line a) := by
  unfold State.agentFwds
  split
  next t _ e =>
    have ht : MemOk t := h.ownerCheck e
    split
    · exact ht.updDie.refuseData.wake.takeBack
    · split
      · extract_lets st s1
        have hs1 : MemOk s1 := ht.putHeld.updDie
        exact hs1.sendMsg.takeBack
      · exact ht.serveRead.takeBack

theorem MemOk.agentFwdm {s h' o line a} (h : MemOk s) : MemOk (s.agentFwdm h' o line a) := by
  unfold State.agentFwdm
  extract_lets hh
  split
  next t _ e =>
    have ht : MemOk t := h.ownerCheck e
    extract_lets s1
    have hs1 : MemOk s1 := by
      unfold s1
      split
      · exact ht.refuseData
      · split
        · exact ht.sendMsg
        · split
          next t1 _ e2 =>
            have ht1 : MemOk t1 := ht.homeCheck e2
            split
            · exact ht1.refuseData
            · exact ht1.sendMsg
    exact hs1.giveUp.sendMsg.takeBack

theorem MemOk.answerLoad {s d l m} (h : MemOk s) : MemOk (s.answerLoad d l m) := by
  unfold State.answerLoad
  extract_lets l1 s1 r
  have hs1 : MemOk s1 := h.updDie
  exact hs1.send

theorem MemOk.writeAt {s d l off n new wts reply} (h : MemOk s) : MemOk (s.writeAt d l off n new wts reply) := by
  unfold State.writeAt
  extract_lets home host data s1 waits
  have hs1 : MemOk s1 := h.updDie
  have hwaits : MemOk waits := hs1.updDie
  split
  · exact hwaits.sendMsg
  · split
    · exact hwaits.updDie.storeLine.send
    · exact hs1.updDie.sendAll

theorem MemOk.performStore {s d l m} (h : MemOk s) : MemOk (s.performStore d l m) := h.writeAt

theorem MemOk.serveWaiters {s d line} (h : MemOk s) : MemOk (s.serveWaiters d line) := by
  unfold State.serveWaiters
  split
  · exact h.askFor
  · extract_lets ld s1 s2 st s3
    have hs1 : MemOk s1 := h.updDie
    have hs2 : MemOk s2 := by
      unfold s2
      refine hs1.foldl (fun _ a ht => ?_)
      split
      · exact ht.answerLoad
      · exact ht
    have hs3 : MemOk s3 := hs2.updDie
    split
    · exact hs2
    · split
      · refine hs3.foldl (fun _ a ht => ?_)
        split
        · exact ht.performStore
        · exact ht
      · exact hs2.request

theorem MemOk.dropFill {s d line top} (h : MemOk s) : MemOk (s.dropFill d line top) := h.setDie.sendAll.sendMsg

theorem MemOk.completeTx {s d t st msg} (h : MemOk s) : MemOk (s.completeTx d t st msg) := by
  unfold State.completeTx
  extract_lets close done dirty s0
  have hclose : ∀ (s : State), MemOk s → MemOk (close s) := by
    intro s1 ht
    unfold close
    exact ht.updDie
  have hdone : ∀ (s : State), MemOk s → MemOk (done s) := by
    intro s1 ht
    unfold done
    exact ht.serveWaiters.txDone.wakeFills
  have hs0 : MemOk s0 := h.updDie
  split
  · split
    · exact hdone _ ((hclose _ h).updDie)
    · exact hdone _ (hclose _ h)
  · extract_lets l
    split
    next t1 e1 =>
      have ht1 : MemOk t1 := hs0.fill e1
      exact hdone _ (hclose _ ht1)
    · split
      · exact (((hclose _ h).dropFill).txDone).wakeFills
      · exact h.updDie

theorem MemOk.agentData {s a line k bytes wts hts fromOwner} (h : MemOk s) : MemOk (s.agentData a line k bytes wts hts fromOwner) := by
  unfold State.agentData
  split
  · extract_lets granted waits s1
    have hs1 : MemOk s1 := h.putHeld
    split
    · exact hs1.txDone
    · exact hs1
  · split
    · exact h.txDone
    · extract_lets msg t1
      split
      · exact h.updDie
      · exact h.completeTx

theorem MemOk.agentGnt {s a line hts forwarded} (h : MemOk s) : MemOk (s.agentGnt a line hts forwarded) := by
  unfold State.agentGnt
  split
  · split
    · exact h
    · exact MemOk.txDone (h.frame rfl rfl)
  · split
    · exact h.txDone
    · extract_lets t1
      split
      · exact h.updDie
      · exact h.completeTx

theorem MemOk.agentMack {s a line wts} (h : MemOk s) : MemOk (s.agentMack a line wts) := by
  unfold State.agentMack
  split
  · exact h
  · split
    · exact h
    · exact h.updDie.sendAll

theorem MemOk.homeStart {s h' line} (h : MemOk s) : MemOk (s.homeStart h' line) := by
  unfold State.homeStart
  extract_lets x
  split
  · exact h
  · split
    · exact h
    · split
      · exact h
      · extract_lets s1
        have hs1 : MemOk s1 := h.setDie.homeRequest
        split
        · exact hs1.send
        · exact hs1

theorem MemOk.insertStart {s h'} (h : MemOk s) : MemOk (s.insertStart h') := by
  unfold State.insertStart
  split
  · exact h
  · extract_lets s1 left
    have hs1 : MemOk s1 := h.updDie.homeRequest
    split
    · exact hs1.send
    · exact hs1

theorem MemOk.homeMirw {s h' line a bytes mask wts} (h : MemOk s) : MemOk (s.homeMirw h' line a bytes mask wts) := by
  unfold State.homeMirw
  extract_lets later
  have hlater : MemOk later := h.updDie
  split
  · exact hlater
  · split
    next t e =>
      have ht : MemOk t := h.homeMirror e
      extract_lets s2
      have hs2 : MemOk s2 := ht.sendMsg
      split
      · exact hs2
      · exact hs2.wakeFills
    · exact hlater

theorem MemOk.seamUp {s a b from_} (h : MemOk s) : MemOk (s.seamUp a b from_) := by
  unfold State.seamUp
  extract_lets m
  split
  · exact h
  · exact h.frame rfl rfl

theorem MemOk.seamWaking {s a b} (h : MemOk s) : MemOk (s.seamWaking a b) := by
  unfold State.seamWaking
  extract_lets m
  split
  · exact MemOk.send (h.frame rfl rfl)
  · exact h

theorem MemOk.runMsg {s i} (h : MemOk s) : MemOk (s.runMsg i) := by
  unfold State.runMsg
  split
  · exact h.homeRequest
  · exact h.homeRequest
  · exact h.homeRequest
  · exact h.agentFwds
  · exact h.agentFwdm
  · exact h.agentData
  · exact h.agentGnt
  · exact h.agentInv
  · exact h.homeInvack
  · exact h.agentBinv
  · exact h.homeBack
  · exact h.homeMirw
  · exact h.agentMack
  · exact h.homeEvc
  · exact h.homeStart
  · exact h.insertStart
  · extract_lets x' base
    have hbase : MemOk base := h.setDie
    exact hbase.frame rfl rfl
  · exact h.seamWaking
  · exact h.seamUp
  · exact h.seamUp
  · exact h

theorem MemOk.openFill {s d line k vmid t x} (h : MemOk s) (e : s.openFill d line k vmid t = x) : OpenedOk x := by
  subst e
  unfold State.openFill
  split
  next t1 _ e =>
    have ht1 : MemOk t1 := h.homeCheck e
    split
    · exact ht1
    · extract_lets l
      split
      next e1 => exact ht1.fill e1
      · exact ht1

theorem MemOk.accOpen {s line vmid x} (h : MemOk s) (e : s.accOpen line vmid = x) : OpenedOk x := by
  subst e
  unfold State.accOpen
  split
  · trivial
  · extract_lets h'
    split
    next t _ e =>
      have ht : MemOk t := h.claim.l2Error e
      split
      · exact ht
      · split
        · exact ht
        · exact ht.openFill rfl

theorem MemOk.readAcc {s line vmid p x} (h : MemOk s) (e : s.readAcc line vmid p = x) : OpenedOk x := by
  subst e
  unfold State.readAcc
  split
  next t e =>
    have ht : MemOk t := h.accOpen e
    exact ht.updDie
  · exact h.accOpen rfl

theorem MemOk.viewOpen {s d line vmid x} (h : MemOk s) (e : s.viewOpen d line vmid = x) : OpenedOk x := by
  subst e
  unfold State.viewOpen
  split
  · trivial
  · split
    next t _ e =>
      have ht : MemOk t := h.claim.l2Error e
      split
      · exact ht
      · split
        · exact ht.updDie
        · exact ht.openFill rfl

theorem MemOk.sliceLoad {s m} (h : MemOk s) : MemOk (s.sliceLoad m) := by
  unfold State.sliceLoad
  extract_lets d
  split
  · exact h.send
  · split
    · refine MemOk.send ?_
      split
      · exact h
      · exact h.countDeny
    · split
      · have hd : OpenedOk (if m.acc = true then s.readAcc m.line m.vmid m.p else s.viewOpen d m.line m.vmid) := by
          split
          · exact h.readAcc rfl
          · exact h.viewOpen rfl
        split
        next t e1 =>
          have ht : MemOk t := by rw [e1] at hd; exact hd
          extract_lets reply
          split
          · exact ht.sendMsg
          · exact ht.send
        next t e1 =>
          have ht : MemOk t := by rw [e1] at hd; exact hd
          exact ht.send
        · exact h.send
        next t e1 =>
          have ht : MemOk t := by rw [e1] at hd; exact hd
          split
          · exact ht.send
          · exact ht.updDie
      · split
        · exact h.send
        · split
          next t _ e =>
            have ht : MemOk t := h.claim.readCheck e
            extract_lets wait
            have hwait : MemOk wait := ht.updDie.request
            split
            · exact ht.send
            · split
              · split
                · exact ht.answerLoad
                · exact hwait
              · exact hwait

theorem MemOk.sliceStore {s m} (h : MemOk s) : MemOk (s.sliceStore m) := by
  unfold State.sliceStore
  extract_lets d
  split
  · exact h.send
  · split
    · exact h.countDeny.send
    · split
      · exact h.send
      · split
        next t _ e =>
          have ht : MemOk t := h.claim.readCheck e
          extract_lets wait
          have hwait : MemOk wait := ht.updDie.request
          split
          · exact ht.send
          · split
            · split
              · exact ht.performStore
              · exact hwait
            · exact hwait

theorem MemOk.runFirst? {s x} (h : MemOk s) (e : s.runFirst? = x) : Maybe MemOk x := by
  subst e
  unfold State.runFirst?
  split
  · trivial
  · exact Maybe.map_any (fun _ => MemOk.runMsg (h.frame rfl rfl))

theorem MemOk.obtain {s d line vmid write n x} (h : MemOk s) (e : s.obtain d line vmid write n = x) : Maybe MemOk x := by
  subst e
  induction n generalizing s d line vmid write with
    | zero => trivial
    | succ n ih =>
      rw [State.obtain]
      split
      · exact h
      · extract_lets other s1
        have hs1 : MemOk s1 := by
          unfold s1
          split
          · exact h
          · exact h.claim.request
        split
        · trivial
        next t e =>
          have ht : MemOk t := hs1.runFirst? e
          exact ih ht

theorem MemOk.settle {s d line wts n} (h : MemOk s) : MemOk (s.settle d line wts n) := by
  induction n generalizing s d line wts with
    | zero => exact h
    | succ n ih =>
      rw [State.settle]
      split
      · split
        · exact h
        next t e1 =>
          have ht : MemOk t := h.runFirst? e1
          exact ih ht
      · exact h

theorem MemOk.readIn {s d pa n vmid p x} (h : MemOk s) (e : s.readIn d pa n vmid p = x) : MemOk x.2.2 := by
  subst e
  unfold State.readIn
  extract_lets line off stale
  have hstale : ∀ (s : State), MemOk s → MemOk (stale s).2.2 := by
    intro s1 ht
    unfold stale
    exact ht
  split
  · split
    next e1 => exact h.readAcc e1
    next e1 => exact h.readAcc e1
    next e1 => exact h.readAcc e1
    · exact hstale _ h
  · split
    next t _ e =>
      have ht : MemOk t := h.readCheck e
      split
      · exact ht
      · split
        next t1 e1 =>
          have ht1 : MemOk t1 := ht.obtain e1
          split
          · extract_lets l1
            dsimp -zeta only
            exact ht1.updDie
          · exact ht1
        · exact ht

theorem MemOk.viewIn {s d pa n vmid x} (h : MemOk s) (e : s.viewIn d pa n vmid = x) : MemOk x.2 := by
  subst e
  unfold State.viewIn
  extract_lets line field
  split
  next e => exact h.viewOpen e
  next e => exact h.viewOpen e
  next e => exact h.viewOpen e
  · exact h

theorem MemOk.rmwIn {s d pa n vmid p f x} (h : MemOk s) (e : s.rmwIn d pa n vmid p f = x) : MemOk x.2.2 := by
  subst e
  unfold State.rmwIn
  extract_lets line off
  split
  next t _ e =>
    have ht : MemOk t := h.readCheck e
    split
    · exact ht
    · split
      next t1 e1 =>
        have ht1 : MemOk t1 := ht.obtain e1
        split
        · exact ht1.writeAt.settle
        · exact ht1
      · extract_lets s1 x' h' t' old
        have hs1 : MemOk s1 := ht.dropLine
        dsimp -zeta only
        exact hs1.storeLine.updDie

theorem MemOk.readWords {s d pa vmid p n x} (h : MemOk s) (e : s.readWords d pa vmid p n = x) : MemOk x.2.2 := by
  subst e
  induction n generalizing s d pa vmid p with
    | zero => exact h
    | succ n ih =>
      rw [State.readWords]
      exact ih (h.readIn rfl)

theorem MemOk.writeWords {s d pa vmid l} (h : MemOk s) : MemOk (s.writeWords d pa vmid l) := by
  induction l generalizing s pa with
  | nil => exact h
  | cons x rest ih =>
    rw [State.writeWords]
    split
    next t e =>
      have ht : MemOk t := h.rmwIn e
      exact ih ht.tick

end Sys2Proof.Machine
end

section
/-! SUPPORT. Canonical memory is kept by the walk, faults and traps, and the accesses of a role. -/
namespace Sys2Proof.Machine

theorem MemOk.readPair {s d pa p x} (h : MemOk s) (e : s.readPair d pa p = x) : MemOk x.2 := by
  subst e
  unfold State.readPair
  split
  next t e =>
    have ht : MemOk t := h.readIn e
    split
    · exact ht
    · exact ht

theorem MemOk.keepEntry {s d t} (h : MemOk s) : MemOk (s.keepEntry d t) := h.updDie

theorem MemOk.useEntry {s d vmid asid va k w x} (h : MemOk s) (e : s.useEntry d vmid asid va k w = x) : MemOk x.2 := by
  subst e
  unfold State.useEntry
  extract_lets sh
  split
  · exact h
  · split
    · exact h
    · split
      next t1 e1 =>
        have ht1 : MemOk t1 := h.fresh e1
        split
        · exact ht1
        · dsimp -zeta only
          exact ht1.updDie

theorem MemOk.walkFrom {s d vmid asid va p table n n1 x} (h : MemOk s) (e : s.walkFrom d vmid asid va p table n n1 = x) : MemOk x.2 := by
  subst e
  induction n generalizing s d vmid asid va p table n1 with
    | zero => exact h
    | succ n ih =>
      rw [State.walkFrom]
      split
      next e => exact h.readPair e
      next t1 e =>
        have ht1 : MemOk t1 := h.readPair e
        split
        next t2 e1 =>
          have ht2 : MemOk t2 := ht1.useEntry e1
          extract_lets leaf next kept
          split
          · split
            · exact ht2
            · exact ht2
          · split
            · split
              · exact ht2
              · exact ht2
            · split
              · exact ht2
              · split
                · exact ht2
                · exact ih ht2.keepEntry

theorem MemOk.leafWalk {s d vmid asid va p x} (h : MemOk s) (e : s.leafWalk d vmid asid va p = x) : MemOk x.2 := by
  subst e
  unfold State.leafWalk
  extract_lets root
  split
  · exact h
  · split
    next e => exact h.readPair e
    next t1 e =>
      have ht1 : MemOk t1 := h.readPair e
      split
      · exact ht1
      · split
        next e1 => exact ht1.walkFrom e1
        next t3 e1 =>
          have ht3 : MemOk t3 := ht1.walkFrom e1
          exact ht3.keepEntry.touchFrame

theorem MemOk.leafOf {s d vmid asid va p x} (h : MemOk s) (e : s.leafOf d vmid asid va p = x) : MemOk x.2 := by
  subst e
  unfold State.leafOf
  split
  · extract_lets old
    split
    · exact h
    · split
      next t1 e1 =>
        have ht1 : MemOk t1 := h.fresh e1
        split
        · exact ht1
        · exact ht1.updDie.leafWalk rfl
  · exact h.leafWalk rfl

/-- The state in which the reads of a chain end has canonical memory. -/
def ChainReadOk (x : Except Nat Chain × Nat × State) : Prop := MemOk x.2.2

theorem MemOk.thenPair {s d pa p k} (h : MemOk s) (hk : ∀ y z t n, MemOk t → ChainReadOk (k y z t n)) : ChainReadOk (s.thenPair d pa p k) := by
  unfold State.thenPair
  split
  next e => exact h.readPair e
  next t1 e =>
    have ht1 : MemOk t1 := h.readPair e
    exact hk _ _ _ _ ht1

theorem MemOk.chainReadOk {s d vmid pa p} (h : MemOk s) : ChainReadOk (s.readChainAt d vmid pa p) := by
  unfold State.readChainAt
  refine h.thenPair (fun _ _ _ _ ht => ht.thenPair (fun _ _ _ _ ht1 => ht1.thenPair (fun _ _ _ _ ht2 => ht2.thenPair (fun _ _ _ _ ht3 => ?_))))
  extract_lets ra slotBad mk
  refine ht3.thenPair (fun _ _ _ _ ht4 => ?_)
  extract_lets t
  split
  · exact ht4
  · exact ht4

theorem MemOk.readChainAt {s d vmid pa p x} (h : MemOk s) (e : s.readChainAt d vmid pa p = x) : MemOk x.2.2 := by
  subst e
  exact h.chainReadOk

theorem MemOk.readChain {s d vmid pa x} (h : MemOk s) (e : s.readChain d vmid pa = x) : MemOk x.2 := by
  subst e
  unfold State.readChain
  split
  next t1 e =>
    have ht1 : MemOk t1 := h.readChainAt e
    exact ht1.tickSnap
  next e => exact h.readChainAt e

theorem MemOk.homeChecks {s d vmid l pa writes x} (h : MemOk s) (e : s.homeChecks d vmid l pa writes = x) : MemOk x.2 := by
  subst e
  unfold State.homeChecks
  extract_lets line ok
  split
  · exact h
  · dsimp -zeta only
    split
    · exact h
    · exact h.countDeny

theorem MemOk.retainedCause {s d vmid pa x} (h : MemOk s) (e : s.retainedCause d vmid pa = x) : MemOk x.2 := by
  subst e
  unfold State.retainedCause
  extract_lets line
  split
  · exact h
  · split
    · exact h
    · split
      · dsimp -zeta only
        split
        · exact h
        · exact h.countDeny
      · split
        · exact h
        · exact h

theorem MemOk.placeWalk {s w t} (h : MemOk s) : MemOk (s.placeWalk w t) := by
  unfold State.placeWalk
  split
  · exact h.raisePts
  · exact h

theorem MemOk.walk {s w a va x} (h : MemOk s) (e : s.walk w a va = x) : MemOk x.2 := by
  subst e
  unfold State.walk
  extract_lets p
  split
  next e => exact h.leafOf e
  next t1 e =>
    have ht1 : MemOk t1 := h.leafOf e
    extract_lets needChain chain pa perm
    have hchain : MemOk chain.2 := by
      unfold chain
      split
      · exact ht1
      · split
        · exact ht1
        · split
          · split
            next t3 e3 =>
              have ht3 : MemOk t3 := ht1.readChainAt e3
              exact ht3.placeWalk
            next t2 e3 =>
              have ht2 : MemOk t2 := ht1.readChainAt e3
              exact ht2.placeWalk
          · exact ht1
    clear_value chain
    split
    next t2 =>
      have ht2 : MemOk t2 := hchain
      exact ht2
    next t2 =>
      have ht2 : MemOk t2 := hchain
      split
      · exact ht2
      · split
        · exact ht2
        · split
          next t3 e2 =>
            have ht3 : MemOk t3 := ht2.homeChecks e2
            split
            · exact ht3
            · extract_lets here
              split
              · split
                · exact ht3
                · extract_lets pa'
                  split
                  next e6 => exact ht3.retainedCause e6
                  next e5 => exact ht3.retainedCause e5
              · split
                · exact ht3
                · split
                  · split
                    · exact ht3
                    · split
                      · exact ht3
                      · exact ht3
                      · exact ht3
                  · exact ht3

theorem MemOk.writeRecord {s r f x} (h : MemOk s) (e : s.writeRecord r f = x) : Maybe (MemOk ·.2.2) x := by
  subst e
  unfold State.writeRecord
  extract_lets d idx pa w20 mask dm s1 s2 s3 empty s4
  have hs1 : MemOk s1 := h.writeWords
  have hs2 : MemOk s2 := hs1.writeWords
  have hs3 : MemOk s3 := hs2.writeWords
  have hs4 : MemOk s4 := hs3.setRegField
  split
  · trivial
  · show MemOk (if empty then s4.signal (.faultRing d) else s4)
    split
    · exact hs4.signal
    · exact hs4

theorem MemOk.markDone {s d idx} (h : MemOk s) : MemOk (s.markDone d idx) := h.writeWords

theorem MemOk.dropLost {s rid r} (h : MemOk s) : MemOk (s.dropLost rid r) := by
  unfold State.dropLost
  split
  · exact h.updCore
  · exact h

theorem MemOk.dropPending {s r} (h : MemOk s) : MemOk (s.dropPending r) := by
  unfold State.dropPending
  refine h.foldl (fun _ a ht => ?_)
  split
  next e =>
    exact ht.writeRecord e
  · exact ht

theorem MemOk.endRole {s rid} (h : MemOk s) : MemOk (s.endRole rid) := by
  unfold State.endRole
  split
  · exact h
  · split
    · exact h
    · extract_lets s1
      have hs1 : MemOk s1 := h.dropPending.setRole
      split
      · exact hs1.send
      · exact hs1

theorem MemOk.discardLog {s rid core} (h : MemOk s) : MemOk (s.discardLog rid core) := h.updCore

theorem MemOk.endRoles {s l} (h : MemOk s) : MemOk (s.endRoles l) := h.foldl (fun _ _ ht => ht.discardLog.endRole)

theorem MemOk.abortGang {s rid cause addr pc} (h : MemOk s) : MemOk (s.abortGang rid cause addr pc) := by
  unfold State.abortGang
  split
  · exact h
  · split
    · exact h.setRole
    next t e1 =>
      have ht : MemOk t := h.writeRecord e1
      exact ht.updGang.endRoles.signal

theorem MemOk.trapWith {s rid cause logged final rec die ridx addr pc} (h : MemOk s) :
    MemOk (s.trapWith rid cause logged final rec die ridx addr pc) := by
  unfold State.trapWith
  split
  · exact h
  · split
    · exact h.abortGang
    · exact h.dropLost.setRole

theorem MemOk.trap {s rid cause addr} (h : MemOk s) : MemOk (s.trap rid cause addr) := by
  unfold State.trap
  split
  · exact h
  · exact h.trapWith

theorem MemOk.loadFault {s rid cause addr pc wr} (h : MemOk s) : MemOk (s.loadFault rid cause addr pc wr) := by
  unfold State.loadFault
  split
  · exact h
  · split
    · exact h.trapWith
    · exact h.abortGang
    · split
      · exact h.setRole
      next t e2 =>
        have ht : MemOk t := h.writeRecord e2
        exact ht.setRole

theorem MemOk.loadStop {s rid res addr pc wr} (h : MemOk s) : MemOk (s.loadStop rid res addr pc wr) := by
  unfold State.loadStop
  split
  · exact h.updRole
  · exact h.loadFault
  · exact h.updRole

theorem MemOk.addPending {s rid p} (h : MemOk s) : MemOk (s.addPending rid p) := h.updRole

theorem MemOk.dropLoad {s core n o} (h : MemOk s) : MemOk (s.dropLoad core n o) := h.updCore.updRole

theorem MemOk.takePending {s rid} (h : MemOk s) : MemOk (s.takePending rid) := by
  unfold State.takePending
  split
  · exact h
  · split
    · exact h
    · extract_lets held rpc
      split
      · exact h
      · split
        · exact h
        next t e2 =>
          have ht : MemOk t := h.writeRecord e2
          extract_lets s2
          have hs2 : MemOk s2 := by
            unfold s2
            clear_value held
            split
            · exact ht.dropLoad
            · exact ht
          exact hs2.updRole.trapWith

theorem MemOk.spadPut {s g rank off n x'} (h : MemOk s) : MemOk (s.spadPut g rank off n x') := h.updGang

theorem MemOk.spadCheck {s g rank off x} (h : MemOk s) (e : s.spadCheck g rank off = x) : MemOk x.1 := by
  subst e
  unfold State.spadCheck
  extract_lets u core
  split
  · exact h
  · split
    · exact MemOk.countError (h.frame rfl rfl)
    · exact h

theorem MemOk.spadTime {s g rank p write x} (h : MemOk s) (e : s.spadTime g rank p write = x) : MemOk x.2 := by
  subst e
  unfold State.spadTime
  extract_lets sp t
  dsimp -zeta only
  exact h.updGang

theorem MemOk.spot {s r a view plain va z x} (h : MemOk s) (e : s.spot r a view plain va z = x) : MemOk x.2 := by
  subst e
  unfold State.spot
  split
  · split
    · exact h
    · exact h
  · split
    next t e =>
      have ht : MemOk t := h.walk e
      split
      · split
        · exact ht
        · exact ht
      · exact ht
    next e => exact h.walk e

theorem MemOk.spotRead {s r x' n x} (h : MemOk s) (e : s.spotRead r x' n = x) : MemOk x.2 := by
  subst e
  unfold State.spotRead
  extract_lets p
  split
  · exact h
  · split
    next t _ e =>
      have ht : MemOk t := h.spadCheck e
      split
      · exact ht
      · split
        next t2 e1 =>
          have ht2 : MemOk t2 := ht.spadTime e1
          exact ht2.raisePts
  · extract_lets bad
    split
    · split
      next e1 => exact h.viewIn e1
    · split
      next t e =>
        have ht : MemOk t := h.readIn e
        split
        · exact ht
        · exact ht.raisePts

theorem MemOk.spotRmw {s r x' n f x} (h : MemOk s) (e : s.spotRmw r x' n f = x) : MemOk x.2 := by
  subst e
  unfold State.spotRmw
  extract_lets p
  split
  · exact h
  · split
    next t _ e =>
      have ht : MemOk t := h.spadCheck e
      split
      · exact ht
      · split
        next t2 e1 =>
          have ht2 : MemOk t2 := ht.spadTime e1
          exact ht2.spadPut.raisePts
  · extract_lets line
    split
    next t e =>
      have ht : MemOk t := h.rmwIn e
      split
      · exact ht
      · exact ht.updCore.raisePts

theorem MemOk.walkSpots {s r a n l x} (h : MemOk s) (e : s.walkSpots r a n l = x) : MemOk x.2 := by
  subst e
  induction l generalizing s r a n with
    | nil => exact h
    | cons a l ih =>
      rw [State.walkSpots]
      split
      next e => exact h.spot e
      next t e =>
        have ht : MemOk t := h.spot e
        have hd : MemOk (t.walkSpots r a n l).2 := ih ht
        split
        next t1 e1 =>
          have ht1 : MemOk t1 := by rw [e1] at hd; exact hd
          exact ht1
        next t1 e2 =>
          have ht1 : MemOk t1 := by rw [e2] at hd; exact hd
          exact ht1

theorem MemOk.spots {s r a n align eas x} (h : MemOk s) (e : s.spots r a n align eas = x) : MemOk x.2 := by
  subst e
  unfold State.spots
  split
  · exact h
  · exact h.walkSpots rfl

theorem MemOk.readSpots {s r n l x} (h : MemOk s) (e : s.readSpots r n l = x) : MemOk x.2 := by
  subst e
  induction l generalizing s r n with
    | nil => exact h
    | cons a l ih =>
      rw [State.readSpots]
      split
      next e => exact h.spotRead e
      next t e =>
        have ht : MemOk t := h.spotRead e
        have hd : MemOk (t.readSpots r n l).2 := ih ht
        split
        next t1 e1 =>
          have ht1 : MemOk t1 := by rw [e1] at hd; exact hd
          exact ht1
        next t1 e1 =>
          have ht1 : MemOk t1 := by rw [e1] at hd; exact hd
          exact ht1

theorem MemOk.writeSpots {s r n l x} (h : MemOk s) (e : s.writeSpots r n l = x) : MemOk x.2 := by
  subst e
  induction l generalizing s r n with
    | nil => exact h
    | cons a l ih =>
      rw [State.writeSpots]
      split
      next e => exact h.spotRmw e
      next t e =>
        have ht : MemOk t := h.spotRmw e
        have hd : MemOk (t.writeSpots r n l).2 := ih ht
        split
        next t1 e1 =>
          have ht1 : MemOk t1 := by rw [e1] at hd; exact hd
          exact ht1
        next t1 e1 =>
          have ht1 : MemOk t1 := by rw [e1] at hd; exact hd
          exact ht1

theorem MemOk.loadRecord {s r a va k align x} (h : MemOk s) (e : s.loadRecord r a va k align = x) : MemOk x.2 := by
  subst e
  unfold State.loadRecord
  split
  · exact h
  · split
    next e2 => exact h.spots e2
    next t e1 =>
      have ht : MemOk t := h.spots e1
      split
      next e2 => exact ht.readSpots e2
      next e2 => exact ht.readSpots e2

theorem MemOk.stopRole {s rid e' wr} (h : MemOk s) : MemOk (s.stopRole rid e' wr) := by
  unfold State.stopRole
  split
  · exact h
  · split
    · exact h.trap
    · exact h.loadStop

theorem MemOk.holdRole {s rid h'} (h : MemOk s) : MemOk (s.holdRole rid h') := h.updRole

end Sys2Proof.Machine
end

section
/-! SUPPORT. Canonical memory is kept by the device register windows. -/
namespace Sys2Proof.Machine

theorem MemOk.setCtx {s c x'} (h : MemOk s) : MemOk (s.setCtx c x') := by
  unfold State.setCtx
  split
  · exact h.frame rfl rfl
  · exact h.frame rfl rfl

theorem MemOk.tickCtx {s c t} (h : MemOk s) : MemOk (s.tickCtx c t) := h.setCtx

theorem MemOk.voidTransfers {s p} (h : MemOk s) : MemOk (s.voidTransfers p) := h.frame rfl rfl

theorem MemOk.ctxResume {s id skip} (h : MemOk s) : MemOk (s.ctxResume id skip) := by
  unfold State.ctxResume
  extract_lets c failed cmds s1
  have hs1 : MemOk s1 := h.voidTransfers.setCtx
  split
  · exact h
  · exact hs1.send.send

theorem MemOk.writeCtx {s id off v} (h : MemOk s) : MemOk (s.writeCtx id off v) := by
  unfold State.writeCtx
  extract_lets c
  split
  · exact h.setCtx.send
  · split
    · exact h.setCtx
    · exact h
  · split
    · exact h.ctxResume
    · exact h
  · exact h

theorem MemOk.writeAttrs {s d off v} (h : MemOk s) : MemOk (s.writeAttrs d off v) := by
  unfold State.writeAttrs
  refine h.foldl (fun _ a ht => ?_)
  split
  · exact ht.updDie
  · exact ht

theorem MemOk.rclear {s d v} (h : MemOk s) : MemOk (s.rclear d v) := by
  unfold State.rclear
  extract_lets f
  split
  · exact h
  · split
    · split
      · exact h
      · exact h.updDie
    · split
      · exact h
      · exact h.updDie

theorem MemOk.writeHashsel {s d v} (h : MemOk s) : MemOk (s.writeHashsel d v) := by
  unfold State.writeHashsel
  extract_lets x nsel nen
  split
  · exact h
  · exact h.setDie

theorem MemOk.writePartition {s d off v} (h : MemOk s) : MemOk (s.writePartition d off v) := by
  unfold State.writePartition
  extract_lets keep new ps live
  split
  · exact h
  · split
    · exact h.setReg
    · exact h.countError

theorem MemOk.execPartitionWrite {die off v s} (h : MemOk s) : OutOk (execPartitionWrite die off v s) := by
  unfold Machine.execPartitionWrite
  split
  · exact h.writePartition
  · exact h

theorem MemOk.dropVmid {s vmid} (h : MemOk s) : MemOk (s.dropVmid vmid) := h.foldl (fun _ _ ht => ht.dropLine)

theorem MemOk.keyCommand {s d v} (h : MemOk s) : MemOk (s.keyCommand d v) := by
  unfold State.keyCommand
  split
  · exact h
  · exact h.dropVmid.updDie

theorem MemOk.clearCounter {s d off} (h : MemOk s) : MemOk (s.clearCounter d off) := by
  unfold State.clearCounter
  split
  · exact h.setReg
  · exact h

/-- An entry is what the read of its four words gives. The body is put in the place of the function itself, not of its application: comparing the
two applications, the kernel would unfold the read of the words. -/
theorem State.queueEntry_cases {P : List Word × State → Prop} {s : State} {q : Nat}
    (h : ∀ ws w t, s.readWords 0 (s.queueAddr q) 0 s.clock 4 = (ws, w, t) → P (ws, t)) : P (s.queueEntry q) := by
  have e : State.queueEntry = State.queueEntry := rfl
  conv_rhs at e => delta State.queueEntry
  rw [e]
  beta_reduce
  split
  next e => exact h _ _ _ e

theorem MemOk.queueEntry {s q x} (h : MemOk s) (e : s.queueEntry q = x) : MemOk x.2 := by
  subst e
  exact State.queueEntry_cases (P := fun y => MemOk y.2) (fun _ _ _ e => h.readWords e)

theorem MemOk.writeQueueWord {s q k v} (h : MemOk s) : MemOk (s.writeQueueWord q k v) := h.writeWords

/-- The function itself, for the reason that `queueEntry_cases` gives. -/
theorem State.queueError_eq : State.queueError = fun s q code =>
    let (ws, s1) := s.queueEntry q
    (s1.writeQueueWord q 3 ((ws.getD 3 0 &&& 0x8000_0000_0000_0000#64) ||| 0x4000_0000_0000_0000#64 ||| BitVec.ofNat 64 code)).signal
      (.queueErr q) := rfl

theorem MemOk.queueError {s q code} (h : MemOk s) : MemOk (s.queueError q code) := by
  rw [State.queueError_eq]
  beta_reduce
  split
  next t e =>
    have ht : MemOk t := h.queueEntry e
    exact ht.writeQueueWord.signal

theorem MemOk.setQueueState {s q x'} (h : MemOk s) : MemOk (s.setQueueState q x') := h.frame rfl rfl

theorem MemOk.doorbell {s v} (h : MemOk s) : MemOk (s.doorbell v) := by
  -- the function itself is unfolded, for the reason that `queueEntry_cases` gives
  have e : State.doorbell = State.doorbell := rfl
  conv_rhs at e => delta State.doorbell
  rw [e]
  beta_reduce
  extract_lets q
  split
  next t e =>
    have ht : MemOk t := h.queueEntry e
    extract_lets w0 qs w1
    split
    · exact ht.setQueueState
    · split
      · exact ht.queueError
      · split
        · exact ht.queueError
        · exact ht.writeQueueWord.setQueueState

theorem MemOk.writeCons {s d v} (h : MemOk s) : MemOk (s.writeCons d v) := h.setRegField.send

theorem MemOk.giveVerdict {s d final idx} (h : MemOk s) : MemOk (s.giveVerdict d final idx) := h.send

theorem MemOk.writeMigration {s d t v} (h : MemOk s) : MemOk (s.writeMigration d t v) := by
  unfold State.writeMigration
  extract_lets off hl x x1 x2 x3 s1
  have hs1 : MemOk s1 := h.setReg
  split
  · exact hs1.send
  · exact hs1

theorem MemOk.attestation {s v} (h : MemOk s) : MemOk (s.attestation v) := by
  unfold State.attestation
  extract_lets a
  split
  · exact h
  · split
    next t e =>
      have ht : MemOk t := h.readWords e
      extract_lets nonce rep words
      clear_value words
      exact MemOk.frame (s := t.writeWords 0 (a + 0x100) 0 words) ht.writeWords rfl rfl

theorem MemOk.writeReg {s d off v} (h : MemOk s) : MemOk (s.writeReg d off v) := by
  unfold State.writeReg
  match ctxAt d off with
  | some (_, _) => exact h.writeCtx
  | none =>
    refine .ite (.ite h.attestation h) <| .ite h.writeMigration <| .ite (.ite h.updDie h) <| .ite ?_ <| .ite h.rclear <|
      .ite h.doorbell <| .ite h.writeCons <| .ite h.giveVerdict <| .ite h.setReg <| .ite h.writePartition <|
      .ite h.clearCounter <| .ite h.updDie <| .ite h.keyCommand <| .ite ?_ <| .ite h.updDie <| .ite h.writeAttrs ?_
    · exact h.setReg
    · exact .ite h h.updDie
    · exact .ite h (.ite h.setReg.send h.setReg)

theorem MemOk.execRegisterWrite {die off v s} (h : MemOk s) : OutOk (execRegisterWrite die off v s) := by
  unfold Machine.execRegisterWrite
  split
  · exact h.writeReg
  · exact h

end Sys2Proof.Machine
end

section
/-! SUPPORT. Canonical memory is kept by the side log. -/
namespace Sys2Proof.Machine

theorem MemOk.requestCopy {s vmid va w l d} (h : MemOk s) : MemOk (s.requestCopy vmid va w l d) := by
  unfold State.requestCopy
  extract_lets home job
  split
  · exact h
  · exact h.updDie.send

theorem MemOk.addEntry {s core e'} (h : MemOk s) : MemOk (s.addEntry core e') := h.updCore

theorem MemOk.discardFrom {s core rid id} (h : MemOk s) : MemOk (s.discardFrom core rid id) := h.updCore

theorem MemOk.finalReport {s core e' cause} (h : MemOk s) : MemOk (s.finalReport core e' cause) := by
  unfold State.finalReport
  extract_lets s1
  have hs1 : MemOk s1 := h.discardFrom.addPending
  exact hs1.send.send

theorem MemOk.logFault {s r cause q} (h : MemOk s) : MemOk (s.logFault r cause q) := by
  unfold State.logFault
  extract_lets k e addr
  split
  · exact h.setRole
  · split
    · exact h.addEntry
    · exact h.addEntry.finalReport
    · exact h.abortGang
    · split
      · exact h.setRole
      next t e2 =>
        have ht : MemOk t := h.writeRecord e2
        exact ht.addEntry

theorem MemOk.logQueued {s r q} (h : MemOk s) : MemOk (s.logQueued r q) := h.addEntry

theorem MemOk.storeElems {s r ty cls l x} (h : MemOk s) (e : s.storeElems r ty cls l = x) : MemOk x.2 := by
  subst e
  induction l generalizing s r ty cls with
    | nil => exact h
    | cons a l ih =>
      rw [State.storeElems]
      split
      next e => exact h.spot e
      next t e =>
        have ht : MemOk t := h.spot e
        exact ih ht.writeReg
      next t _ e =>
        have ht : MemOk t := h.spot e
        split
        next t1 e1 =>
          have ht1 : MemOk t1 := ht.spotRmw e1
          exact ih ht1
        next e1 => exact ht.spotRmw e1

theorem MemOk.ownStores {s rid r ty xs} (h : MemOk s) : MemOk (s.ownStores rid r ty xs) := by
  unfold State.ownStores
  split
  · exact h
  · exact h.updRole

theorem MemOk.redElems {s r rid pc op flow ty l l1 x} (h : MemOk s) (e : s.redElems r rid pc op flow ty l l1 = x) : MemOk x.2.2 := by
  subst e
  induction l1 generalizing s r rid pc op flow ty l with
    | nil => exact h
    | cons a l1 ih =>
      rw [State.redElems]
      split
      next e => exact h.spot e
      next t e =>
        have ht : MemOk t := h.spot e
        exact ih ht
      next e => exact h.spot e

theorem MemOk.replayFault {s core r e' w addr body} (h : MemOk s) : MemOk (s.replayFault core r e' w addr body) := by
  unfold State.replayFault
  extract_lets cause s0 put
  have hs0 : MemOk s0 := by
    unfold s0
    split
    · exact h.requestCopy
    · exact h
  have hput : ∀ (s : State) (st : LogState), MemOk s → MemOk (put s st) := by
    intro s1 st ht
    unfold put
    exact ht.updCore
  split
  · exact hput _ _ hs0
  · exact (hput _ _ hs0).finalReport
  · exact hs0.abortGang
  · split
    · exact hput _ _ hs0
    next t e1 =>
      have ht : MemOk t := hs0.writeRecord e1
      exact hput _ _ ht

theorem MemOk.entryDone {s core rid id} (h : MemOk s) : MemOk (s.entryDone core rid id) := by
  unfold State.entryDone
  extract_lets s1 s2
  have hs1 : MemOk s1 := h.updCore
  have hs2 : MemOk s2 := by
    unfold s2
    split
    · split
      · exact hs1.send
      · exact hs1.send
      · exact hs1
    · exact hs1
  exact hs2.send

theorem MemOk.replay {s core id} (h : MemOk s) : MemOk (s.replay core id) := by
  unfold State.replay
  split
  · exact h
  · extract_lets r0 r
    split
    · exact h
    · split
      · exact h.updCore
      · split
        · exact h.send
        · split
          · split
            next t e3 =>
              have ht : MemOk t := h.storeElems e3
              exact ht.ownStores.entryDone
            next t e3 =>
              have ht : MemOk t := h.storeElems e3
              exact ht.ownStores.replayFault
          · split
            next t e3 =>
              have ht : MemOk t := h.redElems e3
              exact ht.sendUpdates.entryDone
            next t e3 =>
              have ht : MemOk t := h.redElems e3
              exact ht.sendUpdates.replayFault
          · split
            · exact h.send
            · split
              next t e3 =>
                have ht : MemOk t := h.spot e3
                exact ht.sendUpdates.entryDone
              next t _ e3 =>
                have ht : MemOk t := h.spot e3
                exact ht.replayFault
              next t e3 =>
                have ht : MemOk t := h.spot e3
                exact ht.replayFault
          · split
            next t e3 =>
              have ht : MemOk t := h.spot e3
              exact (ht.foldl (fun _ _ ht1 => ht1.sendMsg)).entryDone
            next t _ e3 =>
              have ht : MemOk t := h.spot e3
              exact ht.replayFault
            next t e3 =>
              have ht : MemOk t := h.spot e3
              exact ht.replayFault

theorem MemOk.replayWaiting {s t} (h : MemOk s) : MemOk (s.replayWaiting t) := by
  unfold State.replayWaiting
  refine h.foldl (fun _ a ht => ht.foldl (fun _ a1 ht1 => ?_))
  split
  · split
    · exact ht1.raisePts.send
    · exact ht1
  · exact ht1

theorem MemOk.wakeWalks {s} (h : MemOk s) : MemOk s.wakeWalks := h.frame rfl rfl

theorem MemOk.execFaultRingSpace {die s} (h : MemOk s) : OutOk (execFaultRingSpace die s) := by
  unfold Machine.execFaultRingSpace
  extract_lets s1
  have hs1 : MemOk s1 := h.frame rfl rfl
  refine hs1.foldl (fun _ a ht => ?_)
  split
  · refine ht.foldl (fun _ a1 ht1 => ?_)
    split
    · split
      · exact ht1
      · exact ht1.send
    · exact ht1
  · exact ht

theorem MemOk.recordWords {s d idx x} (h : MemOk s) (e : s.recordWords d idx = x) : MemOk x.2 := by
  subst e
  unfold State.recordWords
  split
  next e => exact h.readWords e

theorem MemOk.verdictHeld {s d idx ws final} (h : MemOk s) : MemOk (s.verdictHeld d idx ws final) := by
  unfold State.verdictHeld
  extract_lets trap
  have htrap : ∀ (s : State) (rid : ℕ), MemOk s → MemOk (trap s rid) := by
    intro s1 rid ht
    unfold trap
    exact ht.trapWith
  split
  · extract_lets s1
    have hs1 : MemOk s1 := h.setRole
    split
    · exact htrap _ _ hs1
    · exact hs1
  · split
    · exact h
    · split
      · exact htrap _ _ h.dropLoad
      · exact h.updCore

theorem MemOk.verdictLogged {s d idx final} (h : MemOk s) : MemOk (s.verdictLogged d idx final) := by
  unfold State.verdictLogged
  extract_lets hit
  clear_value hit
  split
  · exact h
  · extract_lets cause
    split
    · exact h.finalReport
    · exact h.updCore.send

theorem MemOk.verdict {s d idx final} (h : MemOk s) : MemOk (s.verdict d idx final) := by
  unfold State.verdict
  split
  next t e =>
    have ht : MemOk t := h.recordWords e
    extract_lets w20 st kind s1 g
    have hs1 : MemOk s1 := ht.markDone.send
    split
    · exact ht
    · split
      · split
        · exact hs1.setGang
        · split
          · exact hs1.verdictHeld
          · exact hs1.verdictLogged
      · exact hs1

theorem MemOk.failOp {s core n o cause addr} (h : MemOk s) : MemOk (s.failOp core n o cause addr) := by
  unfold State.failOp
  split
  · exact h.dropLoad
  next x _ _ =>
    split
    · exact h.dropLoad
    · split
      · split
        · exact h.updCore
        · exact h.dropLoad.abortGang
      · exact h.dropLoad.trapWith
      · extract_lets put
        have hput : ∀ (s : State) (x : OpStop), MemOk s → MemOk (put s x) := by
          intro s1 x2 ht
          unfold put
          exact ht.updCore
        split
        · exact hput _ _ h
        next t e2 =>
          have ht : MemOk t := h.writeRecord e2
          exact hput _ _ ht

theorem MemOk.refuse {s m cause} (h : MemOk s) : MemOk (s.refuse m cause) := by
  unfold State.refuse
  split
  · exact h
  · extract_lets gone q
    have hgone : MemOk gone := h.updCore
    split
    · exact hgone
    · split
      · exact h.failOp
      · split
        · exact hgone
        · split
          · exact h.send
          · extract_lets s2 later
            have hs2 : MemOk s2 := hgone.logFault
            split
            · exact h.send
            · refine hs2.foldl (fun _ a ht => ?_)
              split
              · exact ht
              · exact ht.updCore.logQueued

end Sys2Proof.Machine
end

section
/-! SUPPORT. Canonical memory is kept by loads, stores and synchronisation. -/
namespace Sys2Proof.Machine

theorem MemOk.trimL1 {s core} (h : MemOk s) : MemOk (s.trimL1 core) := by
  unfold State.trimL1
  exact h.updCore

theorem MemOk.installL1 {s core x'} (h : MemOk s) : MemOk (s.installL1 core x') := by
  unfold State.installL1
  exact h.updCore

theorem MemOk.walkElem {s r a view plain va z x} (h : MemOk s) (e : s.walkElem r a view plain va z = x) : MemOk x.2 := by
  subst e
  unfold State.walkElem
  split
  next t _ e =>
    have ht : MemOk t := h.spot e
    extract_lets keep
    have hkeep : ∀ (ver : ℕ), MemOk (keep ver) := by
      intro ver
      unfold keep
      exact ht.updCore
    dsimp -zeta only
    split
    · exact hkeep _
    · exact ht
  · exact h.spot rfl

theorem MemOk.targetsFrom {s r a view plain z viaL1 l l1 x} (h : MemOk s) (e : s.targetsFrom r a view plain z viaL1 l l1 = x) : MemOk x.2.2 := by
  subst e
  induction l1 generalizing s r a view plain z viaL1 l with
    | nil => exact h
    | cons a l1 ih =>
      rw [State.targetsFrom]
      split
      · exact ih h
      · split
        · exact ih h
        · split
          next e2 => exact h.walkElem e2
          next t e2 =>
            have ht : MemOk t := h.walkElem e2
            exact ih ht
          next t e2 =>
            have ht : MemOk t := h.walkElem e2
            exact ih ht
          next t e2 =>
            have ht : MemOk t := h.walkElem e2
            exact ih ht

theorem MemOk.targetsOf {s r a view plain l1 z es x} (h : MemOk s) (e : s.targetsOf r a view plain l1 z es = x) : MemOk x.2.2 := by
  subst e
  exact h.targetsFrom rfl

theorem MemOk.finishOp {s core n o} (h : MemOk s) : MemOk (s.finishOp core n o) := by
  unfold State.finishOp
  extract_lets s1
  have hs1 : MemOk s1 := h.updCore
  exact hs1.updRole

theorem MemOk.l1Check {s core line x} (h : MemOk s) (e : s.l1Check core line = x) : MemOk x.1 := by
  subst e
  unfold State.l1Check
  extract_lets k
  split
  · exact h
  · split
    · exact h.updCore.countError
    · exact h

theorem MemOk.l1Load {s core o tag off x} (h : MemOk s) (e : s.l1Load core o tag off = x) : MemOk x.2 := by
  subst e
  unfold State.l1Load
  split
  · exact h
  · split
    next t _ e1 =>
      have ht : MemOk t := h.l1Check e1
      split
      · exact ht
      · extract_lets s1 k sf hit k1
        have hs1 : MemOk s1 := by
          unfold s1
          refine MemOk.updCore ?_
          split
          · exact ht.raisePts
          · exact ht
        split
        · exact hs1
        · exact hs1.setCore

theorem MemOk.pumpOp {s core n n1 a} (h : MemOk s) : MemOk (s.pumpOp core n n1 a) := by
  induction n1 generalizing s core n a with
    | zero => exact h.updCore
    | succ n1 ih =>
      rw [State.pumpOp]
      split
      · exact h.finishOp
      · extract_lets keep write g
        have hkeep : ∀ (s : State) (o : Op), MemOk s → MemOk (keep s o) := by
          intro s1 o ht
          unfold keep
          exact ht.updCore
        split
        · split
          · exact ih h.writeReg
          · exact ih h
        · exact (hkeep _ _ h).send
        next off tag _ _ acc _ =>
          split
          · exact (hkeep _ _ h).send
          · have hd : MemOk (if acc = true then (none, s) else s.l1Load core a tag off).2 := by
              split
              · exact h
              · exact h.l1Load rfl
            split
            next t e3 =>
              have ht : MemOk t := by rw [e3] at hd; exact hd
              exact ih ht
            next t e3 =>
              have ht : MemOk t := by rw [e3] at hd; exact hd
              extract_lets bad old s1
              have hs1 : MemOk s1 := by
                unfold s1
                split
                · exact ht.updCore
                · exact ht
              exact (hkeep _ _ hs1).send

theorem MemOk.askSlots {s core n o vmid} (h : MemOk s) : MemOk (s.askSlots core n o vmid) := by
  unfold State.askSlots
  split
  · exact h.sendMsg
  · exact h

theorem MemOk.rewalkSlots {s core n o r} (h : MemOk s) : MemOk (s.rewalkSlots core n o r) := by
  unfold State.rewalkSlots
  extract_lets va put
  have hput : ∀ (s : State) (o : Op), MemOk s → MemOk (put s o) := by
    intro s1 o1 ht
    unfold put
    exact ht.updCore
  split
  next t e =>
    have ht : MemOk t := h.spot e
    exact (hput _ _ ht).askSlots
  next t _ e =>
    have ht : MemOk t := h.spot e
    exact ht.failOp
  next t e =>
    have ht : MemOk t := h.spot e
    exact ht.failOp
  next t _ e =>
    have ht : MemOk t := h.spot e
    exact hput _ _ ht

theorem MemOk.rewalk {s core n o} (h : MemOk s) : MemOk (s.rewalk core n o) := by
  unfold State.rewalk
  split
  · exact h
  · extract_lets r' es put
    have hput : ∀ (s : State) (o : Op), MemOk s → MemOk (put s o) := by
      intro s1 o1 ht
      unfold put
      exact ht.updCore
    split
    · exact h.rewalkSlots
    · split
      next t e1 =>
        have ht : MemOk t := h.targetsOf e1
        exact hput _ _ ht
      next t e1 =>
        have ht : MemOk t := h.targetsOf e1
        extract_lets va
        split
        · exact ht.failOp
        · exact hput _ _ ht.requestCopy
        · exact hput _ _ ht

theorem MemOk.pump {s core} (h : MemOk s) : MemOk (s.pump core) := by
  unfold State.pump
  refine h.foldl (fun _ a ht => ?_)
  split
  · split
    · exact ht.rewalk
    · split
      · exact ht.pumpOp
      · exact ht
  · exact ht

theorem MemOk.startOp {s rid r o} (h : MemOk s) : MemOk (s.startOp rid r o) := by
  unfold State.startOp
  extract_lets n s1 r1
  have hs1 : MemOk s1 := h.updCore
  exact hs1.setRole.pump

theorem MemOk.fillL1 {s m renew} (h : MemOk s) : MemOk (s.fillL1 m renew) := by
  unfold State.fillL1
  extract_lets q
  split
  · exact h
  · split
    · exact h.updCore
    · split
      · exact h.installL1
      · exact h

theorem MemOk.takeLine {s m renew} (h : MemOk s) : MemOk (s.takeLine m renew) := by
  unfold State.takeLine
  extract_lets q s0 s1 data
  have hs0 : MemOk s0 := by
    unfold s0
    split
    · exact h.updCore
    · exact h
  have hs1 : MemOk s1 := by
    unfold s1
    refine MemOk.fillL1 ?_
    split
    · exact hs0
    · exact hs0.raisePts
  split
  · split
    · exact hs0
    · exact hs0.fillL1
  · split
    · split
      · exact hs0.failOp.pump
      · exact hs0
    · split
      · exact hs1
      · exact hs1.updCore.pump

theorem MemOk.takeStdone {s m} (h : MemOk s) : MemOk (s.takeStdone m) := by
  unfold State.takeStdone
  extract_lets q
  split
  · exact h
  · split
    · exact h.failOp.pump
    · extract_lets s1
      have hs1 : MemOk s1 := h.raisePts.updCore
      exact hs1.updRole.pump

theorem MemOk.spadAccess {s m} (h : MemOk s) : MemOk (s.spadAccess m) := by
  unfold State.spadAccess
  split
  · exact h
  · split
    next t _ e1 =>
      have ht : MemOk t := h.spadCheck e1
      split
      · exact ht.failOp.pump
      · extract_lets write
        split
        next t2 e2 =>
          have ht2 : MemOk t2 := ht.spadTime e2
          extract_lets old new s2
          have hs2 : MemOk s2 := by
            unfold s2
            split
            · exact ht2.spadPut.updRole
            · exact ht2
          exact hs2.raisePts.updCore.pump

theorem MemOk.issueLoad {s rid r ty cls view d ws es got undo fix} (h : MemOk s) :
    MemOk (s.issueLoad rid r ty cls view d ws es got undo fix) := by
  unfold State.issueLoad
  extract_lets z
  split
  · exact h.trap
  · split
    · exact h.setRole
    · split
      · exact h.setRole
      · split
        · exact h.setRole
        · split
          next t e1 =>
            have ht : MemOk t := h.targetsOf e1
            exact ht.loadStop
          next t e1 =>
            have ht : MemOk t := h.targetsOf e1
            exact ht.startOp

theorem MemOk.issueStore {s rid r ty cls es fix} (h : MemOk s) : MemOk (s.issueStore rid r ty cls es fix) := by
  unfold State.issueStore
  extract_lets z raw body
  split
  · exact h.setRole
  · split
    · split
      · exact h.trap
      · split
        · exact h.setRole
        · exact h.logQueued.updRole
    · split
      next t e =>
        have ht : MemOk t := h.targetsOf e
        exact ht.startOp
      next t e =>
        have ht : MemOk t := h.targetsOf e
        extract_lets addr s2 n base s3
        have hs2 : MemOk s2 := by
          unfold s2
          split
          · exact ht.requestCopy
          · exact ht
        have hs3 : MemOk s3 := hs2.logFault
        split
        · exact hs3
        · split
          · split
            · exact hs3.setRole
            · exact hs3.startOp
          · exact hs3

theorem MemOk.loadM {o ea s} (h : MemOk s) : OutOk (loadM o ea s) := by
  unfold Machine.loadM
  refine MemOk.onRole (fun rid r => ?_)
  split
  · exact h.trap
  · exact h.issueLoad

theorem MemOk.storeM {o ea s} (h : MemOk s) : OutOk (storeM o ea s) := by
  unfold Machine.storeM
  refine MemOk.onRole (fun rid r => ?_)
  split
  · exact h.trap
  · extract_lets es
    split
    · exact h.trap
    · exact h.issueStore

theorem MemOk.execSpset {o s} (h : MemOk s) : OutOk (execSpset o s) := by
  unfold Machine.execSpset
  refine MemOk.onRole (fun rid r => ?_)
  extract_lets ea
  split
  · exact h.trap
  · split
    · exact h.setRole
    · split
      · exact h.setRole
      · split
        next t e2 =>
          have ht : MemOk t := h.loadRecord e2
          exact ht.stopRole
        next t e1 =>
          have ht : MemOk t := h.loadRecord e1
          split
          · exact ht.trap
          · exact ht.setRole

theorem MemOk.prefetch {s r ea view l2only} (h : MemOk s) : MemOk (s.prefetch r ea view l2only) := by
  unfold State.prefetch
  split
  · exact h
  · extract_lets va base
    split
    next t e =>
      have ht : MemOk t := h.walk e
      split
      · exact h
      · extract_lets tag k held
        split
        · exact ht
        · exact ht.updCore.send
    · exact h

theorem MemOk.streamAhead {s rid slot pos view} (h : MemOk s) : MemOk (s.streamAhead rid slot pos view) := by
  unfold State.streamAhead
  split
  · exact h
  · split
    · exact h
    · split
      · exact h
      · exact h.foldl (fun _ _ ht => ht.prefetch)

theorem MemOk.streamWord {o acc op f s} (h : MemOk s) (hf : ∀ rid r y es past pos, MemOk (f s rid r y es past pos)) :
    OutOk (streamWord o acc op f s) := by
  unfold Machine.streamWord
  refine MemOk.onRole (fun rid r => ?_)
  extract_lets ls
  split
  · exact h.setRole
  · split
    · exact h.trap
    · split
      · split
        · exact h.trap
        · split
          · exact hf _ _ _ _ _ _
          · exact h.trap

theorem MemOk.deniedTrap {s rid pc cause addr mask} (h : MemOk s) : MemOk (s.deniedTrap rid pc cause addr mask) := by
  unfold State.deniedTrap
  split
  · exact h
  · split
    · exact h
    next t e1 =>
      have ht : MemOk t := h.writeRecord e1
      exact ht.trapWith

theorem MemOk.storeSome {s rid r ty cls es denied} (h : MemOk s) : MemOk (s.storeSome rid r ty cls es denied) := by
  unfold State.storeSome
  split
  · exact h.issueStore
  · split
    · exact h.setRole
    · extract_lets s1
      have hs1 : MemOk s1 := h.issueStore
      split
      · exact hs1
      · exact hs1.deniedTrap

theorem MemOk.execScat {o s} (h : MemOk s) : OutOk (execScat o s) := by
  unfold Machine.execScat
  refine MemOk.onRole (fun rid r => ?_)
  exact h.storeSome

theorem MemOk.execStmc {o s} (h : MemOk s) : OutOk (execStmc o s) := by
  unfold Machine.execStmc
  refine MemOk.onRole (fun rid r => ?_)
  exact h.storeSome

theorem MemOk.atomMA {o op s} (h : MemOk s) : OutOk (atomMA o op s) := by
  unfold Machine.atomMA
  refine MemOk.onRole (fun rid r => ?_)
  extract_lets z es
  split
  · exact h.setRole
  · split
    · exact h.setRole
    · split
      · exact h.trap
      · split
        next t e1 =>
          have ht : MemOk t := h.targetsOf e1
          extract_lets a s2
          have hs2 : MemOk s2 := by
            unfold s2
            split
            · exact ht.requestCopy
            · exact ht
          exact hs2.loadStop
        next t e1 =>
          have ht : MemOk t := h.targetsOf e1
          exact ht.startOp

theorem MemOk.execRed {o s} (h : MemOk s) : OutOk (execRed o s) := by
  unfold Machine.execRed
  refine MemOk.onRole (fun rid r => ?_)
  extract_lets flow es raw
  split
  · exact h.trap
  · split
    · exact h.setRole
    · split
      · exact h.setRole
      · split
        next t e1 =>
          have ht : MemOk t := h.redElems e1
          exact ht.sendUpdates.setRole
        next t e1 =>
          have ht : MemOk t := h.redElems e1
          extract_lets s2
          have hs2 : MemOk s2 := ht.logFault
          split
          · exact hs2
          · exact hs2.sendUpdates.updRole

theorem MemOk.counterSpot {s rid r ea wr x} (h : MemOk s) (e : s.counterSpot rid r ea wr = x) : Ends MemOk (MemOk ·.2) x := by
  subst e
  unfold State.counterSpot
  split
  · exact h.setRole
  · split
    · exact h.trap
    · split
      · exact h.setRole
      · split
        next t e1 =>
          have ht : MemOk t := h.spot e1
          exact ht.loadStop
        next e1 => exact h.spot e1

theorem MemOk.control' {s f} (hf : ∀ rid r, Ends MemOk MemOk (f rid r)) : OutOk (execCadd.control' s f) := by
  unfold Machine.execCadd.control'
  refine MemOk.onRole (fun rid r => ?_)
  have hd : Ends MemOk MemOk (f rid r) := hf _ _
  split
  next e =>
    exact by rw [e] at hd; exact hd
  next e =>
    exact by rw [e] at hd; exact hd

theorem MemOk.execCadd {o s} (h : MemOk s) : OutOk (execCadd o s) := by
  unfold Machine.execCadd
  refine MemOk.control' (fun rid r => ?_)
  extract_lets ea inc
  split
  · exact h.setRole
  · refine (h.counterSpot rfl).bind (fun ⟨_, _⟩ ht => ?_)
    dsimp -zeta only
    split
    · exact ht.trap
    · split
      next t e =>
        have ht1 : MemOk t := ht.spotRmw e
        exact ht1.setRole
      next t e =>
        have ht1 : MemOk t := ht.spotRmw e
        exact ht1.loadFault

theorem MemOk.acquire {s rid r d ws v} (h : MemOk s) : MemOk (s.acquire rid r d ws v) := h.setRole

theorem MemOk.readCounter {s rid r x' ea d ws} (h : MemOk s) : MemOk (s.readCounter rid r x' ea d ws) := by
  unfold State.readCounter
  split
  next t e =>
    have ht : MemOk t := h.spotRmw e
    exact ht.acquire
  next t e =>
    have ht : MemOk t := h.spotRmw e
    exact ht.loadFault

theorem MemOk.waitCounter {s rid r ea target d ws} (h : MemOk s) : MemOk (s.waitCounter rid r ea target d ws) := by
  unfold State.waitCounter
  split
  next e =>
    exact h.counterSpot e
  next t e =>
    have ht : MemOk t := h.counterSpot e
    split
    · exact ht.setRole
    · exact ht.readCounter

theorem MemOk.execCread {o s} (h : MemOk s) : OutOk (execCread o s) := by
  unfold Machine.execCread
  refine MemOk.onRole (fun rid r => ?_)
  extract_lets ea
  split
  next e =>
    exact h.counterSpot e
  next t e =>
    have ht : MemOk t := h.counterSpot e
    split
    next t1 e1 =>
      have ht1 : MemOk t1 := ht.spotRead e1
      exact ht1.acquire
    next t1 e1 =>
      have ht1 : MemOk t1 := ht.spotRead e1
      exact ht1.loadFault

theorem MemOk.execTlwait {o s} (h : MemOk s) : OutOk (execTlwait o s) := by
  refine MemOk.onRole (s := s) (fun rid r => ?_)
  generalize r.queues.find o.q.toNat = x
  match x with
  | some (.shared _ _) | some .localCtx => exact h.waitCounter
  | some .composer | some .encoder | none => exact h.trap

theorem MemOk.execFence {o s} (h : MemOk s) : OutOk (execFence o s) := by
  unfold Machine.execFence
  refine MemOk.onRole (fun rid r => ?_)
  split
  · exact h.setRole
  · split
    · exact h.setRole
    · exact h.setRole

end Sys2Proof.Machine
end

section
/-! SUPPORT. Canonical memory is kept by accumulator lines. -/
namespace Sys2Proof.Machine

theorem MemOk.countDrops {s d n} (h : MemOk s) : MemOk (s.countDrops d n) := h.setReg

theorem MemOk.freeNotice {s before after} (h : MemOk s) : MemOk (s.freeNotice before after) := by
  unfold State.freeNotice
  split
  · exact h
  · exact h.sendAll

theorem MemOk.accLost {s rid cause va pc} (h : MemOk s) : MemOk (s.accLost rid cause va pc) := by
  unfold State.accLost
  split
  · exact h.addPending.send
  · split
    · split
      · exact h
      · exact h.abortGang
    · exact h

theorem MemOk.accRefused {s rid va pc body again} (h : MemOk s) : MemOk (s.accRefused rid va pc body again) := by
  unfold State.accRefused
  split
  · exact h
  · extract_lets base s1
    have hs1 : MemOk s1 := h.logFault
    split
    · exact h
    · split
      · exact h.send
      · exact hs1

theorem MemOk.reachAcc {s line vmid x} (h : MemOk s) (e : s.reachAcc line vmid = x) :
    Ends (fun _ => True) OpenedOk x.1 ∧ MemOk x.2 := by
  subst e
  unfold State.reachAcc
  split
  · exact ⟨trivial, h⟩
  · split
    · exact ⟨trivial, h.countDeny⟩
    · exact ⟨h.accOpen rfl, h⟩

theorem MemOk.waitAcc {s i mine} (h : MemOk s) : MemOk (s.waitAcc i mine) := h.frame rfl rfl

theorem MemOk.keepRefused {s h' u} (h : MemOk s) : MemOk (s.keepRefused h' u) := by
  unfold State.keepRefused
  split
  · exact h.updDie
  · split
    · exact h.updCore
    · exact h.send

theorem MemOk.updateLine {s u l} (h : MemOk s) : MemOk (s.updateLine u l) := by
  unfold State.updateLine
  extract_lets h' x
  split
  · extract_lets rest room buf1 l1' s2 s3
    have hs2 : MemOk s2 := h.updDie
    have hs3 : MemOk s3 := by
      unfold s3
      split
      · exact hs2
      · exact hs2.keepRefused
    exact hs3.countDrops.freeNotice

theorem MemOk.applyUpdate {s u} (h : MemOk s) : MemOk (s.applyUpdate u) := by
  unfold State.applyUpdate
  extract_lets again
  have hagain : ∀ t, MemOk t → MemOk (again t) := fun _ ht => ht.waitAcc
  split
  next e =>
    have ht := (h.reachAcc e).2
    split
    · exact MemOk.accRefused ht
    · exact MemOk.accLost ht
  next t _ e =>
    have ht : MemOk t := (h.reachAcc e).1
    split
    · exact hagain _ ht
    · exact ht.accLost
  next e => exact hagain _ (h.reachAcc e).2
  next t _ e => exact hagain _ (h.reachAcc e).1
  next t _ e =>
    have ht : MemOk t := (h.reachAcc e).1
    exact ht.updateLine

theorem MemOk.execReductionResend {core s} (h : MemOk s) : OutOk (execReductionResend core s) := by
  unfold Machine.execReductionResend
  extract_lets us port s1
  have hs1 : MemOk s1 := h.frame rfl rfl
  exact hs1.updCore.sendUpdates.sendAll

theorem MemOk.accAnswer {s m wts got fl} (h : MemOk s) : MemOk (s.accAnswer m wts got fl) := by
  unfold State.accAnswer
  extract_lets s1 s2
  have hs1 : MemOk s1 := h.raisePts
  have hs2 : MemOk s2 := hs1.updRole
  split
  · exact hs1
  · extract_lets left o1 s3
    have hs3 : MemOk s3 := hs2.updCore
    split
    · exact hs2.finishOp.pump
    · split
      · exact hs3.askSlots
      · exact hs3

theorem MemOk.dropAccLine {s m} (h : MemOk s) : MemOk (s.dropAccLine m) := h.accAnswer

theorem MemOk.readSlots {s m l} (h : MemOk s) : MemOk (s.readSlots m l) := by
  unfold State.readSlots
  extract_lets o
  split
  · exact h.updDie.accAnswer

theorem MemOk.clearSlots {s m l} (h : MemOk s) : MemOk (s.clearSlots m l) := by
  unfold State.clearSlots
  extract_lets h' t data
  split
  · extract_lets s1
    have hs1 : MemOk s1 := h.setDie
    exact hs1.countDrops.freeNotice.accAnswer

theorem MemOk.accAccess {s m} (h : MemOk s) : MemOk (s.accAccess m) := by
  unfold State.accAccess
  extract_lets op again lost h' s1
  clear_value op
  have hagain : ∀ t, MemOk t → MemOk (again t) := fun _ ht => ht.waitAcc
  have hlost : ∀ t c, MemOk t → MemOk (lost t c) := by
    intro t c ht
    unfold lost
    split
    · split
      · exact ht.failOp.pump
      · exact ht.updCore.accLost.pump
    · exact ht.accLost
  have hs1 : MemOk s1 := by
    unfold s1
    split
    · exact h.evict
    · exact h
  split
  · exact hs1.accAnswer
  · split
    next e =>
      have ht := (h.reachAcc e).2
      split
      · exact MemOk.dropAccLine (MemOk.accRefused ht)
      · exact hlost _ _ ht
    next t _ e =>
      have ht : MemOk t := (h.reachAcc e).1
      split
      · exact hagain _ ht
      · exact hlost _ _ ht
    next e => exact hagain _ (h.reachAcc e).2
    next t _ e => exact hagain _ (h.reachAcc e).1
    next t _ e =>
      have ht : MemOk t := (h.reachAcc e).1
      split
      · exact ht.readSlots
      · exact ht.clearSlots

theorem MemOk.accWrite {o acc s} (h : MemOk s) : OutOk (accWrite o acc s) := by
  unfold Machine.accWrite
  refine MemOk.onRole (fun rid r => ?_)
  extract_lets ea line n
  split
  · exact h.trap
  · split
    · exact h.setRole
    · split
      · exact h.setRole
      · split
        next t e1 =>
          have ht : MemOk t := h.spot e1
          extract_lets s2 s3
          have hs2 : MemOk s2 := by
            unfold s2
            split
            · exact ht.requestCopy
            · exact ht
          have hs3 : MemOk s3 := hs2.logFault
          split
          · exact hs3
          · exact hs3.updRole
        next t e1 =>
          have ht : MemOk t := h.spot e1
          extract_lets first k op s2
          have hs2 : MemOk s2 := ht.setCore.setRole
          split
          · exact ht.setRole
          · exact hs2.foldl (fun _ _ ht1 => ht1.sendMsg)
        next t _ e1 =>
          have ht : MemOk t := h.spot e1
          exact ht.trap

theorem MemOk.execAccrd {o s} (h : MemOk s) : OutOk (execAccrd o s) := by
  unfold Machine.execAccrd
  refine MemOk.onRole (fun rid r => ?_)
  extract_lets ea line n lanes sent va first
  split
  · exact h.trap
  · split
    · exact h.setRole
    · split
      · exact h.setRole
      · split
        · exact h.setRole
        · split
          next t e1 =>
            have ht : MemOk t := h.spot e1
            exact ht.loadStop
          next t e1 =>
            have ht : MemOk t := h.spot e1
            extract_lets es touched k op s2
            have hs2 : MemOk s2 := ht.setCore.setRole
            split
            · exact ht.setRole
            · exact hs2.askSlots
          next t _ e1 =>
            have ht : MemOk t := h.spot e1
            exact ht.trap

end Sys2Proof.Machine
end

section
/-! SUPPORT. Canonical memory is kept by the shared form of the integer words, and control flow. -/
namespace Sys2Proof.Machine

theorem MemOk.intA {o f s} (h : MemOk s) : OutOk (intA o f s) := h.wordStep

theorem MemOk.intI {o f s} (h : MemOk s) : OutOk (intI o f s) := h.wordStep

theorem MemOk.execCmp {o s} (h : MemOk s) : OutOk (execCmp o s) := by
  unfold Machine.execCmp
  split
  · exact h.wordStep
  · exact h.intA

theorem MemOk.maskOp {o f s} (h : MemOk s) : OutOk (maskOp o f s) := h.wordStep

theorem MemOk.targetHeader {s rid r t x} (h : MemOk s) (e : s.targetHeader rid r t = x) : MemOk x.2 := by
  subst e
  unfold State.targetHeader
  split
  · exact h
  · split
    next t1 e =>
      have ht1 : MemOk t1 := h.walk e
      extract_lets bad
      split
      · exact ht1
      · split
        next t2 e1 =>
          have ht2 : MemOk t2 := ht1.readIn e1
          extract_lets w' old
          split
          · exact ht2
          · split
            · exact ht2
            · split
              next t3 e2 =>
                have ht3 : MemOk t3 := ht2.fresh e2
                dsimp -zeta only
                exact ht3.updCore
    next e => exact h.walk e

theorem MemOk.checkTarget {s rid r ea x} (h : MemOk s) (e : s.checkTarget rid r ea = x) : Ends MemOk MemOk x := by
  subst e
  unfold State.checkTarget
  extract_lets t
  split
  · exact h.trap
  · split
    · exact h.trap
    · split
      next e => exact h.targetHeader e
      next t1 e =>
        have ht1 : MemOk t1 := h.targetHeader e
        exact ht1.trap

theorem MemOk.transfer {s rid r q ea} (h : MemOk s) : MemOk (s.transfer rid r q ea) := by
  unfold State.transfer
  split
  next t e =>
    have ht : MemOk t := h.checkTarget e
    exact ht.setRole
  next e =>
    exact h.checkTarget e

theorem MemOk.stackStop {s rid e'} (h : MemOk s) : MemOk (s.stackStop rid e') := by
  unfold State.stackStop
  split
  · exact h.trap
  · split
    · split
      · exact h.abortGang
      · exact h
    · exact h.trap
  · exact h.holdRole

theorem MemOk.stackReady {s rid r x} (h : MemOk s) (e : s.stackReady rid r = x) : Ends MemOk (fun _ => True) x := by
  subst e
  unfold State.stackReady
  split
  · exact h.holdRole
  · split
    · exact h.holdRole
    · trivial

theorem MemOk.stackWrite {s rid r ws x} (h : MemOk s) (e : s.stackWrite rid r ws = x) : Ends MemOk (MemOk ·.2) x := by
  subst e
  unfold State.stackWrite
  split
  · exact h
  · refine (h.stackReady rfl).bind (fun a ht => ?_)
    split
    next t e1 =>
      have ht1 : MemOk t := h.spots e1
      exact ht1.stackStop
    next t e =>
      have ht1 : MemOk t := h.spots e
      split
      next e1 => exact ht1.writeSpots e1
      next t1 e1 =>
        have ht11 : MemOk t1 := ht1.writeSpots e1
        exact ht11.stackStop

theorem MemOk.stackWords {s rid r i n x} (h : MemOk s) (e : s.stackWords rid r i n = x) : Ends MemOk (MemOk ·.2) x := by
  subst e
  unfold State.stackWords
  refine (h.stackReady rfl).bind (fun a ht => ?_)
  extract_lets addrs
  split
  next t e1 =>
    have ht1 : MemOk t := h.spots e1
    exact ht1.stackStop
  next t e =>
    have ht1 : MemOk t := h.spots e
    split
    next t1 e1 =>
      have ht11 : MemOk t1 := ht1.readSpots e1
      extract_lets ws
      split
      · split
        next e3 => exact ht11.fresh e3
      · exact ht11
    next t1 e1 =>
      have ht11 : MemOk t1 := ht1.readSpots e1
      exact ht11.stackStop

theorem MemOk.fillTop {s rid r n x} (h : MemOk s) (e : s.fillTop rid r n = x) : Ends MemOk (MemOk ·.2) x := by
  subst e
  induction n generalizing s rid r with
    | zero => exact h
    | succ n ih =>
      rw [State.fillTop]
      split
      · exact h
      · refine (ih h).bind (fun ⟨_, _⟩ ht => ?_)
        dsimp -zeta only
        split
        · exact ht
        · refine (ht.stackWords rfl).bind (fun ⟨_, _⟩ ht1 => ?_)
          split
          · exact ht1.trap
          · exact ht1

theorem MemOk.pushEntries {s rid r es x} (h : MemOk s) (e : s.pushEntries rid r es = x) : Ends MemOk (MemOk ·.2) x := by
  subst e
  unfold State.pushEntries
  split
  · exact h.trap
  · extract_lets out low
    split
    next t e =>
      have ht : MemOk t := h.stackWrite e
      exact ht
    next t e =>
      have ht : MemOk t := h.stackWrite e
      exact ht

theorem MemOk.control {s f} (hf : ∀ rid r, Ends MemOk MemOk (f rid r)) : OutOk (control s f) := by
  unfold Machine.control
  refine MemOk.onRole (fun rid r => ?_)
  have hd : Ends MemOk MemOk (f rid r) := hf _ _
  split
  next e =>
    exact by rw [e] at hd; exact hd
  next e =>
    exact by rw [e] at hd; exact hd

theorem MemOk.badStack {s rid x} (h : MemOk s) (e : s.badStack rid = x) : Ends MemOk MemOk x := by
  subst e
  exact h.trap

theorem MemOk.execBc {o s} (h : MemOk s) : OutOk (execBc o s) := by
  unfold Machine.execBc
  refine MemOk.onRole (fun rid r => ?_)
  split
  · exact h.transfer
  · exact h.setRole

theorem MemOk.execCall {o s} (h : MemOk s) : OutOk (execCall o s) := by
  unfold Machine.execCall
  refine MemOk.control (fun rid r => ?_)
  exact (h.checkTarget rfl).bind (fun _ ht => (ht.pushEntries rfl).bind (fun ⟨_, _⟩ ht1 => ht1.setRole))

theorem MemOk.execRet {a s} (h : MemOk s) : OutOk (execRet a s) := by
  unfold Machine.execRet
  refine MemOk.control (fun rid r => (h.fillTop rfl).bind (fun ⟨_, _⟩ ht => ?_))
  dsimp -zeta only
  split
  · split
    · exact ht.badStack rfl
    · exact (ht.checkTarget rfl).bind (fun _ ht1 => ht1.setRole)
  · exact ht.badStack rfl

theorem MemOk.execSplit {o s} (h : MemOk s) : OutOk (execSplit o s) := by
  unfold Machine.execSplit
  refine MemOk.control (fun rid r => ?_)
  extract_lets a t f target
  split
  · exact h.trap
  · split
    · exact (h.checkTarget rfl).bind (fun _ ht => (ht.pushEntries rfl).bind (fun ⟨_, _⟩ ht1 => ht1.setRole))
    · exact (h.pushEntries rfl).bind (fun ⟨_, _⟩ ht => ht.setRole)

theorem MemOk.execEls {o s} (h : MemOk s) : OutOk (execEls o s) := by
  unfold Machine.execEls
  refine MemOk.control (fun rid r => (h.fillTop rfl).bind (fun ⟨_, _⟩ ht => ?_))
  dsimp -zeta only
  split
  next x _ _ _ =>
    extract_lets target q base jp
    have hjp : ∀ (x : State), MemOk x → Ends MemOk MemOk (jp x) := by
      intro x1 ht1
      unfold jp
      exact ht1.setRole
    split
    · exact ht.badStack rfl
    · split
      · exact (ht.checkTarget rfl).bind (fun _ ht1 => ht1.setRole)
      · split
        · exact (ht.checkTarget rfl).bind (fun _ ht1 => hjp _ ht1)
        · exact ht.trap
  · exact ht.badStack rfl

theorem MemOk.execLoop {a s} (h : MemOk s) : OutOk (execLoop a s) := by
  unfold Machine.execLoop
  refine MemOk.control (fun rid r => ?_)
  exact (h.pushEntries rfl).bind (fun ⟨_, _⟩ ht => ht.setRole)

theorem MemOk.execJoin {a s} (h : MemOk s) : OutOk (execJoin a s) := by
  unfold Machine.execJoin
  refine MemOk.control (fun rid r => (h.fillTop rfl).bind (fun ⟨_, _⟩ ht => ?_))
  dsimp -zeta only
  split
  · exact ht.badStack rfl
  · split
    · exact ht.setRole
    · split
      · exact (ht.checkTarget rfl).bind (fun _ ht1 => ht1.setRole)
      · refine (ht.fillTop rfl).bind (fun ⟨_, _⟩ ht1 => ?_)
        split
        · split
          · exact ht1.badStack rfl
          · exact ht1.setRole
        · exact ht1.badStack rfl
    · exact ht.badStack rfl

theorem MemOk.findSpilled {s rid r n x} (h : MemOk s) (e : s.findSpilled rid r n = x) : Ends MemOk (MemOk ·.2) x := by
  subst e
  induction n generalizing s rid r with
    | zero => exact h.trap
    | succ n ih =>
      rw [State.findSpilled]
      refine (h.stackWords rfl).bind (fun ⟨_, _⟩ ht => ?_)
      dsimp -zeta only
      extract_lets w
      split
      · split
        · exact ht
        · exact ht.trap
      · exact ht.trap
      · exact ht.trap
      · split
        · exact ih ht
        · exact ht.trap

theorem MemOk.breakEntry {s rid r b x} (h : MemOk s) (e : s.breakEntry rid r b = x) : Ends MemOk (MemOk ·.2) x := by
  subst e
  unfold State.breakEntry
  split
  · exact h.trap
  · exact h
  · refine (h.findSpilled rfl).bind (fun ⟨_, _⟩ ht => (ht.stackWords rfl).bind (fun ⟨_, _⟩ ht1 => ?_))
    dsimp -zeta only
    split
    · exact ht1.trap
    · exact ht1.stackWrite rfl

theorem MemOk.leaveLanes {s rid r b o entry x} (h : MemOk s) (hentry : ∀ t, MemOk t → Ends MemOk (MemOk ·.2) (entry t))
    (e : s.leaveLanes rid r b o entry = x) : Ends MemOk MemOk x := by
  subst e
  unfold State.leaveLanes
  extract_lets m
  split
  · exact (h.checkTarget rfl).bind (fun _ ht => (hentry _ ht).bind (fun ⟨_, _⟩ ht1 => ht1.setRole))
  · exact (hentry _ h).bind (fun ⟨_, _⟩ ht => ht.setRole)

theorem MemOk.execBrk {o s} (h : MemOk s) : OutOk (execBrk o s) := by
  unfold Machine.execBrk
  refine MemOk.control (fun rid r => ?_)
  exact h.leaveLanes (fun _ ht => ht.breakEntry rfl) rfl

theorem MemOk.execCont {o s} (h : MemOk s) : OutOk (execCont o s) := by
  unfold Machine.execCont
  refine MemOk.control (fun rid r => ?_)
  exact h.leaveLanes (entry := fun t => .ok (r, t)) (fun _ ht => ht) rfl

theorem MemOk.execExit {a s} (h : MemOk s) : OutOk (execExit a s) := by
  unfold Machine.execExit
  refine MemOk.onRole (fun rid r => ?_)
  split
  · exact h.setRole
  · exact h.endRole

theorem MemOk.execSetfmt {o s} (h : MemOk s) : OutOk (execSetfmt o s) := by
  unfold Machine.execSetfmt
  refine MemOk.onRole (fun rid r => ?_)
  extract_lets x
  split
  · exact h.setRole
  · exact h.trap

end Sys2Proof.Machine
end

section
/-! SUPPORT. Canonical memory is kept by the matrix words. -/
namespace Sys2Proof.Machine

theorem MemOk.tileCheck {s r l x} (h : MemOk s) (e : s.tileCheck r l = x) : MemOk x.2 := by
  subst e
  induction l generalizing s r with
    | nil => exact h
    | cons a l ih =>
      rw [State.tileCheck]
      split
      · exact ih h
      · split
        next t _ e1 =>
          have ht : MemOk t := h.spadCheck e1
          split
          · exact ht
          · exact ih ht

theorem MemOk.matIssue {s rid r o kind x} (h : MemOk s) (e : s.matIssue rid r o kind = x) : Ends MemOk MemOk x := by
  subst e
  unfold State.matIssue
  extract_lets bt w k sp c illegal z panels words fail sn a flow bscale latch adv
  have hill : Ends MemOk MemOk illegal := h.trap
  have hfail : ∀ e, Ends MemOk (fun _ => True) (fail e) := by
    intro e
    unfold fail
    split
    · exact h.trap
    · trivial
  clear_value bt w k sp c illegal fail
  refine .ite hill <| .ite hill <| .ite hill ?_
  generalize r.streams.find sp = x, r.streams.find ((sp + 1) % 4) = m
  match x, m with
  | none, _ => exact hill
  | some x, m =>
    dsimp -zeta only
    extract_lets mOk y bitmap bits live idx n vals job streams streams1 r1 start jp
    have ht : MemOk (s.tileCheck r bitmap).2 := h.tileCheck rfl
    have hstart : ∀ t line e, MemOk t → MemOk (start t line e) := fun _ _ _ ht => ht.updCore.send
    have hjp : ∀ u, Ends MemOk MemOk (jp u) := by
      intro u
      unfold jp
      refine (hfail _).bind (fun _ _ => (hfail _).bind (fun _ _ => .ite ht.setRole (Ends.bind (q := MemOk) ?_ (fun t ht1 => ?_))))
      · refine .ite ?_ ht
        split
        · exact ht.trap
        · split
          next t1 e =>
            have ht1 : MemOk t1 := ht.spot e
            exact ht1.loadStop
          next e => exact ht.spot e
      · extract_lets kc
        refine .ite ht1.setRole <| .ite ht1.setRole ?_
        split
        next t2 e =>
          have ht2 : MemOk t2 := ht1.spot e
          exact (hstart _ _ _ ht2).setRole
        next t2 _ e =>
          have ht2 : MemOk t2 := ht1.spot e
          extract_lets wr s3 id s4 kept
          clear_value wr
          have hs3 : MemOk s3 := by
            unfold s3
            split
            · exact ht2.requestCopy
            · exact ht2
          have hs4 : MemOk s4 := hs3.logFault
          exact .ite hs4 (hstart _ _ _ hs4).updRole
    clear_value mOk jp
    refine .ite hill <| .ite h.trap <| .ite h.trap <| (hfail _).bind (fun _ _ => .ite h.setRole ?_)
    split
    · exact MemOk.abortGang ht
    · exact hjp ()

theorem MemOk.matWord {o kind s} (h : MemOk s) : OutOk (matWord o kind s) := MemOk.control (fun _ _ => h.matIssue rfl)

theorem MemOk.regionDone {s j} (h : MemOk s) : MemOk (s.regionDone j) := by
  unfold State.regionDone
  split
  · exact h.updRole
  · exact h

theorem MemOk.matCount {s j a x} (h : MemOk s) (e : s.matCount j a = x) : Maybe (fun x => MemOk x.1) x := by
  subst e
  unfold State.matCount
  split
  · exact h
  next x _ _ =>
    extract_lets late
    have hlate : ∀ (s : State) (c : ℕ), MemOk s → Maybe (fun x => MemOk x.1) (late s c) := by
      intro s1 c ht
      unfold late
      exact ht.addPending.send
    split
    next t e1 =>
      have ht : MemOk t := h.spot e1
      exact hlate _ _ ht
    · trivial
    next t e1 =>
      have ht : MemOk t := h.spot e1
      split
      · exact hlate _ _ ht
      · split
        next e2 => exact ht.spotRmw e2
        next t1 e2 =>
          have ht1 : MemOk t1 := ht.spotRmw e2
          exact hlate _ _ ht1

theorem MemOk.readTile {s core i j} (h : MemOk s) : MemOk (s.readTile core i j) := by
  unfold State.readTile
  extract_lets r z
  split
  next t e =>
    have ht : MemOk t := h.tileCheck e
    split
    · exact h.send
    · exact ht.updCore.abortGang
  next t e =>
    have ht : MemOk t := h.tileCheck e
    extract_lets spots words s2
    have hs2 : MemOk s2 := by
      unfold s2
      refine ht.foldl (fun _ a ht1 => ?_)
      split
      · split
        next t2 e1 =>
          have ht2 : MemOk t2 := ht1.spadTime e1
          exact ht2.raisePts
      · exact ht1
    exact hs2.updCore

theorem MemOk.countTile {s core i j a} (h : MemOk s) : MemOk (s.countTile core i j a) := by
  unfold State.countTile
  split
  · exact h.send
  next t _ e =>
    have ht : MemOk t := h.matCount e
    extract_lets s2
    have hs2 : MemOk s2 := ht.updCore
    split
    · exact hs2.regionDone
    · exact hs2

theorem MemOk.matReads {s core} (h : MemOk s) : MemOk (s.matReads core) := by
  unfold State.matReads
  extract_lets s1 s2
  have hs1 : MemOk s1 := by
    unfold s1
    split
    · exact h
    · exact h.readTile
  have hs2 : MemOk s2 := by
    unfold s2
    split
    · exact hs1
    · split
      · exact hs1.countTile
      · exact hs1
  exact hs2.send

theorem MemOk.matSend {s core} (h : MemOk s) : MemOk (s.matSend core) := by
  unfold State.matSend
  split
  · exact h
  · split
    · exact h
    · extract_lets s0 s1
      have hs0 : MemOk s0 := h.updCore.regionDone
      have hs1 : MemOk s1 := by
        unfold s1
        split
        · exact hs0.send
        · exact hs0
      split
      · exact hs1.updCore
      · exact hs1.sendUpdates

theorem MemOk.execMscale {o s} (h : MemOk s) : OutOk (execMscale o s) := by
  unfold Machine.execMscale
  refine MemOk.onRole (fun rid r => ?_)
  extract_lets m ea n at_
  split
  · exact h.setRole
  · split
    · exact h.trap
    · split
      · exact h.setRole
      · split
        · exact h.setRole
        · split
          next t e2 =>
            have ht : MemOk t := h.spots e2
            exact ht.stopRole
          next t e1 =>
            have ht : MemOk t := h.spots e1
            split
            next t1 e2 =>
              have ht1 : MemOk t1 := ht.readSpots e2
              exact ht1.stopRole
            next t1 e2 =>
              have ht1 : MemOk t1 := ht.readSpots e2
              exact ht1.setRole

end Sys2Proof.Machine
end

section
/-! SUPPORT. Canonical memory is kept by binding, windows and the issue of commands. -/
namespace Sys2Proof.Machine

theorem MemOk.fetchWords {s r f va n x} (h : MemOk s) (e : s.fetchWords r f va n = x) : MemOk x.2 := by
  subst e
  unfold State.fetchWords
  split
  next e => exact h.spot e
  next t e =>
    have ht : MemOk t := h.spot e
    extract_lets bad
    split
    next t1 e1 =>
      have ht1 : MemOk t1 := ht.readWords e1
      split
      · exact ht1
      · exact ht1
  next e => exact h.spot e

theorem MemOk.fetchPart {s r f ea n x} (h : MemOk s) (e : s.fetchPart r f ea n = x) : MemOk x.2 := by
  subst e
  unfold State.fetchPart
  split
  · exact h
  · split
    next e1 => exact h.fetchWords e1
    next e1 => exact h.fetchWords e1

theorem MemOk.fetchClause {s f rid} (h : MemOk s) : MemOk (s.fetchClause f rid) := by
  unfold State.fetchClause
  split
  · exact h
  next e =>
    extract_lets live h' stop room
    have hstop : ∀ (s : State) (e : Stop) (a : Word), MemOk s → MemOk (stop s e a) := by
      intro s1 e1 a ht
      unfold stop
      split
      · exact ht.trapWith
      · exact ht.loadStop
    split
    · exact h
    · split
      next t e2 =>
        have ht : MemOk t := h.fetchPart e2
        exact hstop _ _ _ ht
      next t e1 =>
        have ht : MemOk t := h.fetchPart e1
        split
        · exact ht.trapWith
        · extract_lets n n1 first
          have hfirst : MemOk first.2 := by
            unfold first
            split
            · exact ht
            · exact ht.fetchPart rfl
          clear_value first
          split
          next t1 =>
            have ht1 : MemOk t1 := hfirst
            exact hstop _ _ _ ht1
          next t1 =>
            have ht1 : MemOk t1 := hfirst
            extract_lets second'
            have hsecond' : MemOk second'.2 := by
              unfold second'
              split
              · exact ht1
              · exact ht1.fetchPart rfl
            clear_value second'
            split
            next t2 =>
              have ht2 : MemOk t2 := hsecond'
              exact hstop _ _ _ ht2
            next t2 =>
              have ht2 : MemOk t2 := hsecond'
              extract_lets ws
              split
              · exact ht2.trapWith
              · exact ht2.updRole

theorem MemOk.readBack {s r f n n1 x} (h : MemOk s) (e : s.readBack r f n n1 = x) : MemOk x.2 := by
  subst e
  induction n1 generalizing s r f n with
    | zero => exact h
    | succ n1 ih =>
      rw [State.readBack]
      split
      next e1 => exact h.fetchPart e1
      next t e =>
        have ht : MemOk t := h.fetchPart e
        split
        · exact ht
        · exact ih ht

theorem MemOk.resumeClause {s f rid r} (h : MemOk s) : MemOk (s.resumeClause f rid r) := by
  unfold State.resumeClause
  extract_lets tpc illegal stop
  have hillegal : ∀ (s : State), MemOk s → MemOk (illegal s) := by
    intro s1 ht
    unfold illegal
    exact ht.trapWith
  have hstop : ∀ (s : State) (e : Stop) (a : Word), MemOk s → MemOk (stop s e a) := by
    intro s1 e a ht
    unfold stop
    split
    · exact ht.trapWith
    · exact ht.loadStop
  split
  · exact h.trapWith
  · split
    next t e1 =>
      have ht : MemOk t := h.fetchPart e1
      exact hstop _ _ _ ht
    next t e =>
      have ht : MemOk t := h.fetchPart e
      split
      · exact ht.updRole.fetchClause
      · split
        next t1 e2 =>
          have ht1 : MemOk t1 := ht.readBack e2
          exact hstop _ _ _ ht1
        next t1 e1 =>
          have ht1 : MemOk t1 := ht.readBack e1
          exact hillegal _ ht1
        next t1 e1 =>
          have ht1 : MemOk t1 := ht.readBack e1
          split
          · exact hillegal _ ht1
          · extract_lets h'
            split
            · exact hillegal _ ht1
            · split
              next t2 e4 =>
                have ht2 : MemOk t2 := ht1.fetchPart e4
                exact hstop _ _ _ ht2
              next t2 e3 =>
                have ht2 : MemOk t2 := ht1.fetchPart e3
                split
                · exact hillegal _ ht2
                · exact ht2.updRole

theorem MemOk.fetchFrom {s f rid r} (h : MemOk s) : MemOk (s.fetchFrom f rid r) := by
  unfold State.fetchFrom
  split
  · split
    · exact h.resumeClause
    · exact h.fetchClause
  · split
    · exact h.resumeClause
    · exact h.fetchClause

theorem MemOk.keepClause {s rid} (h : MemOk s) : MemOk (s.keepClause rid) := by
  unfold State.keepClause
  split
  · split
    · exact h.updCore
    · exact h
  · exact h

theorem MemOk.fetchAny {s rid r} (h : MemOk s) : MemOk (s.fetchAny rid r) := by
  unfold State.fetchAny
  extract_lets new
  have hnew : MemOk new := h.fetchFrom
  split
  · exact hnew
  · split
    · exact h.fetchFrom
    · split
      · exact hnew
      · split
        next t e2 =>
          have ht : MemOk t := h.fresh e2
          exact ht.fetchFrom

theorem MemOk.execClauseFetch {rid s} (h : MemOk s) : OutOk (execClauseFetch rid s) := by
  unfold Machine.execClauseFetch
  split
  · split
    · exact h
    · exact h.fetchAny.keepClause
  · exact h

theorem MemOk.issueHeader {s rid} (h : MemOk s) : MemOk (s.issueHeader rid) := by
  unfold State.issueHeader
  split
  · exact h
  · split
    · exact h
    · extract_lets ready r1 r2
      split
      · exact h
      · exact h.setRole.updCore

theorem MemOk.readEntries {s rid r l} (h : MemOk s) : MemOk (s.readEntries rid r l) := MemOk.countErrors (h.frame rfl rfl)

theorem MemOk.prepare {s rid r i x} (h : MemOk s) (e : s.prepare rid r i = x) : ReadyOk x := by
  subst e
  unfold State.prepare
  extract_lets u base
  have hbase : MemOk base := h.readEntries.setRole
  split
  · exact h.trap
  · split
    · exact h.abortGang
    · split
      · exact h.setRole
      · exact hbase.frame rfl rfl

theorem MemOk.opportunity {s0 core} (h : MemOk s0) : MemOk (s0.opportunity core) := by
  unfold State.opportunity
  split
  · exact h
  · extract_lets s1 s2 s
    have hs1 : MemOk s1 := h.pump
    have hs2 : MemOk s2 := by
      unfold s2
      refine hs1.foldl (fun _ a ht => ?_)
      split
      · exact ht.discardLog.endRole
      · exact ht
    have hs : MemOk s := by
      unfold s
      refine hs2.foldl (fun _ a ht => ?_)
      split
      · exact ht
      · exact ht.takePending
    split
    · exact hs
    · extract_lets pick ready s2' run
      have hs2' : MemOk s2' := hs.foldl (fun _ _ ht => ht.updRole)
      exact hs2'.updCore

end Sys2Proof.Machine
end

section
/-! SUPPORT. Canonical memory is kept by the engines and their commands. -/
namespace Sys2Proof.Machine

theorem MemOk.failWith {α : Type} {s code addr} {x : Except Stopped (α × State)} (h : MemOk s) (e : failWith s code addr = x) :
    Ends (MemOk ·.2) (MemOk ·.2) x := by
  subst e
  exact h

theorem MemOk.engSpot {s id c a view z ea x} (h : MemOk s) (e : s.engSpot id c a view z ea = x) : Ends (MemOk ·.2) (MemOk ·.2) x := by
  subst e
  unfold State.engSpot
  split
  · exact h.failWith rfl
  · extract_lets va
    split
    · exact h.failWith rfl
    · split
      · split
        · split
          · exact h
          · exact h.failWith rfl
        · exact h.failWith rfl
      · split
        next t e =>
          have ht : MemOk t := h.walk e
          split
          · exact ht.failWith rfl
          · exact ht
        next t e1 =>
          have ht : MemOk t := h.walk e1
          exact ht.failWith rfl
        next e => exact h.walk e
        next t e =>
          have ht : MemOk t := h.walk e
          exact ht.requestCopy

theorem MemOk.engRead {s id c x' z addr x} (h : MemOk s) (e : s.engRead id c x' z addr = x) : Ends (MemOk ·.2) (MemOk ·.2) x := by
  subst e
  unfold State.engRead
  split
  · split
    next t _ e =>
      have ht : MemOk t := h.spadCheck e
      split
      · exact ht.failWith rfl
      · split
        next t2 e1 =>
          have ht2 : MemOk t2 := ht.spadTime e1
          exact ht2.tickCtx
  · exact h
  next pa view =>
    extract_lets d
    have hd : MemOk
            (if view = true then
                  match s.viewIn d pa z c.vmid with
                  | (v, t) => (v, 0, t)
                else s.readIn d pa z c.vmid (s.ctx id).pts).2.2 := by
      split
      · split
        next t1 e1 =>
          have ht1 : MemOk t1 := h.viewIn e1
          exact ht1
      · exact h.readIn rfl
    split
    next t e =>
      have ht : MemOk t := by rw [e] at hd; exact hd
      split
      · exact ht.failWith rfl
      · exact ht.tickCtx

theorem MemOk.engWrite {s id c x' z v addr x} (h : MemOk s) (e : s.engWrite id c x' z v addr = x) : Ends (MemOk ·.2) (MemOk ·.2) x := by
  subst e
  unfold State.engWrite
  split
  · split
    next t _ e =>
      have ht : MemOk t := h.spadCheck e
      split
      · exact ht.failWith rfl
      · split
        next t1 e1 =>
          have ht1 : MemOk t1 := ht.spadTime e1
          exact MemOk.tickCtx ht1.spadPut
  · exact ⟨h.mem, writeBytes_wf _ _ _ _ h.podMem⟩
  · split
    next t e =>
      have ht : MemOk t := h.rmwIn e
      split
      · exact ht.failWith rfl
      · exact MemOk.tickCtx ht

theorem MemOk.engLoad {s id c view z ea x} (h : MemOk s) (e : s.engLoad id c view z ea = x) : Ends (MemOk ·.2) (MemOk ·.2) x := by
  subst e
  exact (h.engSpot rfl).bind (fun ⟨_, _⟩ ht => ht.engRead rfl)

theorem MemOk.engStore {s id c a z v ea x} (h : MemOk s) (e : s.engStore id c a z v ea = x) : Ends (MemOk ·.2) (MemOk ·.2) x := by
  subst e
  exact (h.engSpot rfl).bind (fun ⟨_, _⟩ ht => ht.engWrite rfl)

theorem MemOk.engWords {s id c va n x} (h : MemOk s) (e : s.engWords id c va n = x) : Ends (MemOk ·.2) (MemOk ·.2) x := by
  subst e
  induction n generalizing s id c va with
    | zero => exact h
    | succ n ih =>
      rw [State.engWords]
      exact (h.engSpot rfl).bind (fun ⟨_, _⟩ ht => (ht.engRead rfl).bind (fun ⟨_, _⟩ ht1 => (ih ht1).bind (fun ⟨_, _⟩ ht2 => ht2)))

theorem MemOk.setEntry {s id n f} (h : MemOk s) : MemOk (s.setEntry id n f) := h.setCtx

theorem MemOk.record {s id c n k va m x} (h : MemOk s) (e : s.record id c n k va m = x) : Ends (MemOk ·.2) (MemOk ·.2) x := by
  subst e
  unfold State.record
  split
  · exact h
  · exact (h.engWords rfl).bind (fun ⟨_, _⟩ ht => ht.setEntry)

theorem MemOk.podSpot {s id c z a x} (h : MemOk s) (e : s.podSpot id c z a = x) : Ends (MemOk ·.2) (MemOk ·.2) x := by
  subst e
  unfold State.podSpot
  extract_lets n route
  split
  · exact h.failWith rfl
  · split
    · exact h.failWith rfl
    · split
      · exact h.failWith rfl
      · split
        · exact h.failWith rfl
        · exact h

theorem MemOk.setFlow {s d f e'} (h : MemOk s) : MemOk (s.setFlow d f e') := h.updDie

theorem MemOk.stamp {s d f k x} (h : MemOk s) (e : s.stamp d f k = x) : MemOk x.2 := by
  subst e
  unfold State.stamp
  split
  · exact h
  · exact h.setFlow

theorem MemOk.passPort {s d f port a z l x} (h : MemOk s) (e : s.passPort d f port a z l = x) : MemOk x.2 := by
  subst e
  unfold State.passPort
  extract_lets l1
  split
  · exact h
  · exact h.stamp rfl

theorem MemOk.sendTransfers {s d l} (h : MemOk s) : MemOk (s.sendTransfers d l) := by
  unfold State.sendTransfers
  refine h.foldl (fun _ a ht => ?_)
  split
  next t1 e =>
    have ht1 : MemOk t1 := ht.stamp e
    exact ht1.sendMsg

theorem MemOk.engTake {s id c f x' z addr l x} (h : MemOk s) (e : s.engTake id c f x' z addr l = x) : Ends (MemOk ·.2) (MemOk ·.2) x := by
  subst e
  unfold State.engTake
  refine (h.engRead rfl).bind (fun ⟨_, _⟩ ht => ?_)
  dsimp -zeta only
  split
  · exact ht.passPort rfl
  · exact ht

theorem MemOk.engPut {s id c n face f x' z v addr l x} (h : MemOk s) (e : s.engPut id c n face f x' z v addr l = x) :
    Ends (MemOk ·.2) (MemOk ·.2) x := by
  subst e
  unfold State.engPut
  extract_lets d through
  have hthrough : ∀ (port a : ℕ), Ends (MemOk ·.2) (MemOk ·.2) (through port a) := by
    intro port a
    unfold through
    exact (h.engWrite rfl).bind (fun ⟨_, _⟩ ht => ht.passPort rfl)
  split
  · exact h.failWith rfl
  · split
    · exact hthrough _ _
    · extract_lets h' t
      split
      · exact hthrough _ _
      · split
        · exact (h.engWrite rfl).bind (fun ⟨_, _⟩ ht => ht)
        · exact h
    · exact (h.engWrite rfl).bind (fun ⟨_, _⟩ ht => ht)

theorem MemOk.tensorSpots {s id c t l x} (h : MemOk s) (e : s.tensorSpots id c t l = x) : Ends (MemOk ·.2) (MemOk ·.2) x := by
  subst e
  induction l generalizing s with
  | nil => exact h
  | cons i rest ih =>
    rw [State.tensorSpots]
    split
    next a b _ =>
      extract_lets jp
      have hjp : ∀ y, MemOk y.2 → Ends (MemOk ·.2) (MemOk ·.2) (jp y) := by
        intro y hy
        unfold jp
        split
        next t1 =>
          have ht1 : MemOk t1 := hy
          extract_lets jp2
          have hjp2 : ∀ y, MemOk y.2 → Ends (MemOk ·.2) (MemOk ·.2) (jp2 y) := by
            intro y hy
            unfold jp2
            split
            next t2 =>
              have ht2 : MemOk t2 := hy
              exact (ih ht2).bind (fun _ ht => ht)
          clear_value jp2
          split
          · exact Ends.bind (ht1.podSpot rfl) hjp2
          · exact Ends.bind (ht1.engSpot rfl) hjp2
      clear_value jp
      split
      · exact Ends.bind (h.podSpot rfl) hjp
      · exact Ends.bind (h.engSpot rfl) hjp

theorem MemOk.tensorMove {s id c n face t l a x} (h : MemOk s) (e : s.tensorMove id c n face t l a = x) : Ends (MemOk ·.2) (MemOk ·.2) x := by
  subst e
  induction l generalizing s id c n face t a with
    | nil => exact h
    | cons a l ih =>
      rw [State.tensorMove]
      exact (h.engTake rfl).bind (fun ⟨⟨_, _⟩, _⟩ ht => (ht.engPut rfl).bind (fun ⟨_, _⟩ ht1 => ih ht1))

theorem MemOk.planTensor {s id c face t at_ x} (h : MemOk s) (e : s.planTensor id c face t at_ = x) : Ends (MemOk ·.2) (MemOk ·.2) x := by
  subst e
  unfold State.planTensor
  refine (h.tensorSpots rfl).bind (fun ⟨_, _⟩ ht => ?_)
  dsimp -zeta only
  extract_lets fits
  split
  · exact ht.failWith rfl
  · exact ht

theorem MemOk.movePlans {s id c n l x} (h : MemOk s) (e : s.movePlans id c n l = x) : Ends (MemOk ·.2) (MemOk ·.2) x := by
  subst e
  induction l generalizing s id c n with
    | nil => exact h
    | cons a l ih =>
      rw [State.movePlans]
      exact (h.tensorMove rfl).bind (fun ⟨_, _⟩ ht => ih ht.sendTransfers)

theorem MemOk.moveAny {s id c n n1 l l1 a x} (h : MemOk s) (e : s.moveAny id c n n1 l l1 a = x) : Ends (MemOk ·.2) (MemOk ·.2) x := by
  subst e
  induction n1 generalizing s id c n l l1 a with
    | zero => exact h
    | succ n1 ih =>
      rw [State.moveAny]
      split
      · exact h
      · split
        next t e =>
          have ht : MemOk t := h.fresh e
          extract_lets p first free i
          split
          · exact (ht.engTake rfl).bind (fun ⟨⟨_, _⟩, _⟩ ht1 => ih ht1)
          · exact (ht.engPut rfl).bind (fun ⟨_, _⟩ ht1 => ih ht1)
          · exact ht

theorem MemOk.runPlans {s id c n ps x} (h : MemOk s) (e : s.runPlans id c n ps = x) : Ends (MemOk ·.2) (MemOk ·.2) x := by
  subst e
  unfold State.runPlans
  extract_lets es
  split
  · exact (h.movePlans rfl).bind (fun ⟨_, _⟩ ht => ht.setEntry)
  · exact (h.moveAny rfl).bind (fun ⟨_, _⟩ ht => ht.sendTransfers)

theorem MemOk.someMoves {s id c n face t} (h : MemOk s) : MemOk (s.someMoves id c n face t) := by
  unfold State.someMoves
  extract_lets one
  have hone : ∀ p i, MemOk p.2 → MemOk (one p i).2 := by
    intro p i hp
    unfold one
    split
    next t1 e1 =>
      have ht1 : MemOk t1 := hp.fresh e1
      split
      · exact ht1
      · split
        · exact ht1
        next t2 e2 =>
          have ht2 : MemOk t2 := ht1.tensorSpots e2
          split
          next e3 => exact ht2.tensorMove e3
          next e3 => exact ht2.tensorMove e3
  split
  next t1 e =>
    have ht1 : MemOk t1 := h.foldl_snd hone e
    exact ht1.sendTransfers

theorem MemOk.checkTensors {s id c ts x} (h : MemOk s) (e : s.checkTensors id c ts = x) : Ends (MemOk ·.2) (MemOk ·.2) x := by
  subst e
  unfold State.checkTensors
  split
  · exact h.failWith rfl
  · exact h.failWith rfl
  · exact h

theorem MemOk.runTensor {s id c n t at_ x} (h : MemOk s) (e : s.runTensor id c n t at_ = x) : Ends (MemOk ·.2) (MemOk ·.2) x := by
  subst e
  unfold State.runTensor
  refine (h.checkTensors rfl).bind (fun ⟨_, _⟩ ht => ?_)
  dsimp -zeta only
  split
  next t1 e =>
    have ht1 : MemOk t1 := ht.planTensor e
    exact ht1.runPlans rfl
  next e => exact ht.planTensor e
  next t1 e =>
    have ht1 : MemOk t1 := ht.planTensor e
    exact ht1.someMoves

theorem MemOk.readTensor {s id c n k va ok x} (h : MemOk s) (e : s.readTensor id c n k va ok = x) : Ends (MemOk ·.2) (MemOk ·.2) x := by
  subst e
  unfold State.readTensor
  split
  · exact h.failWith rfl
  · refine (h.record rfl).bind (fun ⟨_, _⟩ ht => ?_)
    dsimp -zeta only
    split
    · exact ht.failWith rfl
    · split
      · exact ht
      · exact ht.failWith rfl

theorem MemOk.readFaces {s id c n k l x} (h : MemOk s) (e : s.readFaces id c n k l = x) : Ends (MemOk ·.2) (MemOk ·.2) x := by
  subst e
  induction l generalizing s id c n k with
    | nil => exact h
    | cons a l ih =>
      rw [State.readFaces]
      exact (h.readTensor rfl).bind (fun ⟨_, _⟩ ht => (ih ht).bind (fun ⟨_, _⟩ ht1 => ht1))

theorem MemOk.planFaces {s id c l x} (h : MemOk s) (e : s.planFaces id c l = x) : Ends (MemOk ·.2) (MemOk ·.2) x := by
  subst e
  induction l generalizing s id c with
    | nil => exact h
    | cons a l ih =>
      rw [State.planFaces]
      split
      next t e =>
        have ht : MemOk t := h.planTensor e
        exact (ih ht).bind (fun ⟨⟨_, _⟩, _⟩ ht1 => ht1)
      next t e =>
        have ht : MemOk t := h.planTensor e
        exact (ih ht).bind (fun ⟨⟨_, _⟩, _⟩ ht1 => ht1)
      next e => exact h.planTensor e

theorem MemOk.runHalo {s id c n x} (h : MemOk s) (e : s.runHalo id c n = x) : Ends (MemOk ·.2) (MemOk ·.2) x := by
  subst e
  unfold State.runHalo
  split
  · exact h.failWith rfl
  · refine (h.record rfl).bind (fun ⟨_, _⟩ ht => ?_)
    dsimp -zeta only
    extract_lets w nf
    split
    · exact ht.failWith rfl
    · refine (ht.record rfl).bind (fun ⟨_, _⟩ ht1 => (ht1.readFaces rfl).bind (fun ⟨_, _⟩ ht2 =>
        (ht2.checkTensors rfl).bind (fun ⟨_, _⟩ ht3 => ?_)))
      extract_lets due
      split
      next t e =>
        have ht4 : MemOk t := ht3.planFaces e
        refine (ht4.runPlans rfl).bind (fun ⟨_, _⟩ ht5 => ?_)
        split
        · exact ht5
        · exact ht5
      next e => exact ht3.planFaces e
      next t e =>
        have ht4 : MemOk t := ht3.planFaces e
        exact ht4.foldl (fun _ _ ht5 => ht5.someMoves)

theorem MemOk.exchange {s id c n r group x} (h : MemOk s) (e : s.exchange id c n r group = x) : Ends (MemOk ·.2) (MemOk ·.2) x := by
  subst e
  unfold State.exchange
  extract_lets mates differs s1 near far said s2 met
  have hs1 : MemOk s1 := h.foldl (fun _ _ ht => ht.setEntry)
  have hs2 : MemOk s2 := hs1.frame rfl rfl
  split
  · exact h.send.failWith rfl
  · split
    · exact hs2.failWith rfl
    · exact hs2.setEntry

theorem MemOk.engLoads {s id c z l x} (h : MemOk s) (e : s.engLoads id c z l = x) : Ends (MemOk ·.2) (MemOk ·.2) x := by
  subst e
  induction l generalizing s id c z with
    | nil => exact h
    | cons a l ih =>
      rw [State.engLoads]
      exact (h.engLoad rfl).bind (fun ⟨_, _⟩ ht => (ih ht).bind (fun ⟨_, _⟩ ht1 => ht1))

theorem MemOk.memberSpots {s id c f z l x} (h : MemOk s) (e : s.memberSpots id c f z l = x) : Ends (MemOk ·.2) (MemOk ·.2) x := by
  subst e
  induction l generalizing s id c f z with
    | nil => exact h
    | cons a l ih =>
      rw [State.memberSpots]
      refine (h.podSpot rfl).bind (fun ⟨_, _⟩ ht => ?_)
      dsimp -zeta only
      split
      · exact ht.failWith rfl
      · exact ih ht

theorem MemOk.memberInput {s own mates r group k x} (h : MemOk s) (e : s.memberInput own mates r group k = x) :
    Ends (MemOk ·.2) (MemOk ·.2) x := by
  subst e
  unfold State.memberInput
  split
  · exact h
  · split
    · split
      next e1 =>
        exact h.engLoads e1
      next t e1 =>
        have ht : MemOk t := h.engLoads e1
        exact ht
    · exact h

theorem MemOk.memberInputs {s own mates r group l x} (h : MemOk s) (e : s.memberInputs own mates r group l = x) :
    Ends (MemOk ·.2) (MemOk ·.2) x := by
  subst e
  induction l generalizing s own mates r group with
    | nil => exact h
    | cons a l ih =>
      rw [State.memberInputs]
      exact (h.memberInput rfl).bind (fun ⟨_, _⟩ ht => (ih ht).bind (fun ⟨_, _⟩ ht1 => ht1))

theorem MemOk.postInput {s d r base own} (h : MemOk s) : MemOk (s.postInput d r base own) := by
  unfold State.postInput
  extract_lets z lines mem
  have hmem : Memory.wf mem := by
    unfold mem
    exact foldl_writeBytes_wf _ h.podMem
  exact ⟨(h.stamp rfl).mem, hmem⟩

theorem MemOk.outSpots {s id c z l x} (h : MemOk s) (e : s.outSpots id c z l = x) : Ends (MemOk ·.2) (MemOk ·.2) x := by
  subst e
  induction l generalizing s id c z with
    | nil => exact h
    | cons a l ih =>
      rw [State.outSpots]
      exact (h.engSpot rfl).bind (fun ⟨_, _⟩ ht => (ih ht).bind (fun ⟨_, _⟩ ht1 => ht1))

theorem MemOk.writeRun {s id c n z l a x} (h : MemOk s) (e : s.writeRun id c n z l a = x) : Ends (MemOk ·.2) (MemOk ·.2) x := by
  subst e
  induction l generalizing s id c n z a with
    | nil => exact h
    | cons a l ih =>
      rw [State.writeRun]
      exact (h.engPut rfl).bind (fun ⟨_, _⟩ ht => ih ht)

theorem MemOk.someOuts {s id c n z l} (h : MemOk s) : MemOk (s.someOuts id c n z l) := by
  unfold State.someOuts
  split
  next t e =>
    have ht : MemOk t := by
      refine h.foldl_snd (fun y a hy => ?_) e
      split
      next t1 e1 =>
        have ht1 : MemOk t1 := hy.fresh e1
        split
        · exact ht1
        · split
          next e2 => exact ht1.engPut e2
          next e2 => exact ht1.engPut e2
    exact ht.sendTransfers

theorem MemOk.runAred {s id c n x} (h : MemOk s) (e : s.runAred id c n = x) : Ends (MemOk ·.2) (MemOk ·.2) x := by
  subst e
  unfold State.runAred
  split
  · exact h.failWith rfl
  · refine (h.record rfl).bind (fun ⟨_, _⟩ ht => ?_)
    dsimp -zeta only
    split
    · exact ht.failWith rfl
    · extract_lets d z
      split
      · exact ht.failWith rfl
      · refine (ht.record rfl).bind (fun ⟨_, _⟩ ht1 => ?_)
        extract_lets others
        split
        · exact ht1.failWith rfl
        · refine (ht1.engLoads rfl).bind (fun ⟨_, _⟩ ht2 => (ht2.outSpots rfl).bind (fun ⟨_, _⟩ ht3 =>
            (ht3.memberSpots rfl).bind (fun ⟨_, _⟩ ht4 => ?_)))
          extract_lets mates
          refine (ht4.exchange rfl).bind (fun ⟨_, _⟩ ht5 => ?_)
          split
          · exact ht5
          · refine (ht5.memberInputs rfl).bind (fun ⟨_, _⟩ ht6 => ?_)
            extract_lets s8 res
            have hs8 : MemOk s8 := ht6.postInput
            split
            next t e1 =>
              have ht7 : MemOk t := hs8.writeRun e1
              exact ht7.sendTransfers
            next e1 => exact hs8.writeRun e1
            · exact hs8.someOuts

theorem MemOk.blendAll {s id c px py l a x} (h : MemOk s) (e : s.blendAll id c px py l a = x) : Ends (MemOk ·.2) (MemOk ·.2) x := by
  subst e
  induction l generalizing s id c px py a with
    | nil => exact h
    | cons a l ih =>
      rw [State.blendAll]
      exact (h.engLoad rfl).bind (fun ⟨_, _⟩ ht => ih ht)

theorem MemOk.compRgb {s id c k l x} (h : MemOk s) (e : s.compRgb id c k l = x) : Ends (MemOk ·.2) (MemOk ·.2) x := by
  subst e
  induction l generalizing s id c k with
    | nil => exact h
    | cons a l ih =>
      rw [State.compRgb]
      split
      · exact ih h
      · exact (h.engLoad rfl).bind (fun ⟨_, _⟩ ht => (ht.blendAll rfl).bind (fun ⟨_, _⟩ ht1 => (ih ht1).bind (fun ⟨_, _⟩ ht2 => ht2)))

theorem MemOk.compPixels {s id c k cb cr l x} (h : MemOk s) (e : s.compPixels id c k cb cr l = x) : Ends (MemOk ·.2) (MemOk ·.2) x := by
  subst e
  induction l generalizing s id c k cb cr with
    | nil => exact h
    | cons a l ih =>
      rw [State.compPixels]
      exact (h.engLoad rfl).bind (fun ⟨_, _⟩ ht => (ht.blendAll rfl).bind (fun ⟨_, _⟩ ht1 => (ih ht1).bind (fun ⟨_, _⟩ ht2 => ht2)))

theorem MemOk.compYuv {s id c k l x} (h : MemOk s) (e : s.compYuv id c k l = x) : Ends (MemOk ·.2) (MemOk ·.2) x := by
  subst e
  induction l generalizing s id c k with
    | nil => exact h
    | cons a l ih =>
      rw [State.compYuv]
      refine (h.engLoad rfl).bind (fun ⟨_, _⟩ ht => (ht.engLoad rfl).bind (fun ⟨_, _⟩ ht1 =>
        (ht1.compPixels rfl).bind (fun ⟨_, _⟩ ht2 => (ih ht2).bind (fun ⟨_, _⟩ ht3 => ?_))))
      dsimp -zeta only
      exact ht3

theorem MemOk.storeSpots {s id c l x} (h : MemOk s) (e : s.storeSpots id c l = x) : Ends (MemOk ·.2) (MemOk ·.2) x := by
  subst e
  induction l generalizing s id c with
    | nil => exact h
    | cons a l ih =>
      rw [State.storeSpots]
      exact (h.engSpot rfl).bind (fun ⟨_, _⟩ ht => (ih ht).bind (fun ⟨_, _⟩ ht1 => ht1))

theorem MemOk.storeAt {s id c l x} (h : MemOk s) (e : s.storeAt id c l = x) : Ends (MemOk ·.2) (MemOk ·.2) x := by
  subst e
  induction l generalizing s id c with
    | nil => exact h
    | cons a l ih =>
      rw [State.storeAt]
      exact (h.engWrite rfl).bind (fun ⟨_, _⟩ ht => ih ht)

theorem MemOk.someStores {s id c l} (h : MemOk s) : MemOk (s.someStores id c l) := by
  unfold State.someStores
  refine h.foldl (fun _ a ht => ?_)
  split
  next t e =>
    have ht1 : MemOk t := ht.fresh e
    split
    · exact ht1
    · split
      next e1 =>
        exact ht1.engStore e1
      · exact ht1

theorem MemOk.meetSpot {s d a} (h : MemOk s) : MemOk (s.meetSpot d a) := by
  unfold State.meetSpot
  split
  · split
    · exact h.readCheck rfl
    · exact h
  · exact h

theorem MemOk.engStores {s id c l x} (h : MemOk s) (e : s.engStores id c l = x) : Ends (MemOk ·.2) (MemOk ·.2) x := by
  subst e
  unfold State.engStores
  split
  next e => exact h.storeSpots e
  next t e =>
    have ht : MemOk t := h.storeSpots e
    exact ht.someStores
  next t e =>
    have ht : MemOk t := h.storeSpots e
    split
    · exact (ht.foldl (fun _ _ ht2 => ht2.meetSpot)).someStores
    · exact ht.storeAt rfl

theorem MemOk.runFcomp {s id c n x} (h : MemOk s) (e : s.runFcomp id c n = x) : Ends (MemOk ·.2) (MemOk ·.2) x := by
  subst e
  unfold State.runFcomp
  split
  · exact h.failWith rfl
  · refine (h.record rfl).bind (fun ⟨_, _⟩ ht => ?_)
    dsimp -zeta only
    extract_lets nl jp
    have hjp : ∀ (x : List (ℤ × ℕ × ℕ) × State), MemOk x.2 → Ends (MemOk ·.2) (MemOk ·.2) (jp x) := by
      intro x ht1
      unfold jp
      exact ht1.engStores rfl
    refine (ht.record rfl).bind (fun ⟨_, _⟩ ht1 => ?_)
    split
    · exact ht1.failWith rfl
    · split
      · exact (ht1.compRgb rfl).bind (fun ⟨_, _⟩ ht2 => hjp _ ht2)
      · exact (ht1.compYuv rfl).bind (fun ⟨_, _⟩ ht2 => hjp _ ht2)

theorem MemOk.runEncf {s id c n x} (h : MemOk s) (e : s.runEncf id c n = x) : Ends (MemOk ·.2) (MemOk ·.2) x := by
  subst e
  unfold State.runEncf
  split
  · exact h.failWith rfl
  · refine (h.record rfl).bind (fun ⟨_, _⟩ ht => ?_)
    dsimp -zeta only
    split
    · exact ht.failWith rfl
    next x _ _ =>
      extract_lets cw ch places session
      refine (ht.engWords rfl).bind (fun ⟨_, _⟩ ht1 => ?_)
      extract_lets count key flag
      refine (ht1.engLoads rfl).bind (fun ⟨_, _⟩ ht2 => ?_)
      extract_lets jp
      have hjp : ∀ (x : List ℕ × State), MemOk x.2 → Ends (MemOk ·.2) (MemOk ·.2) (jp x) := by
        intro x1 ht3
        unfold jp
        extract_lets k
        split
        · exact ht3.engStores rfl
        · exact MemOk.engStores (ht3.fresh rfl) rfl
      split
      · exact hjp _ ht2
      · exact (ht2.engLoads rfl).bind (fun ⟨_, _⟩ ht3 => hjp _ ht3)

theorem MemOk.cmdWord {kind o s} (h : MemOk s) : OutOk (cmdWord kind o s) := by
  unfold Machine.cmdWord
  refine MemOk.onRole (fun rid r => ?_)
  split
  · exact h.setRole
  · split
    · exact h.trap
    · extract_lets id bad q s1
      have hs1 : MemOk s1 := h.setRole
      split
      · exact h.trap
      · exact MemOk.send (hs1.frame rfl rfl)

theorem MemOk.execWverset {o s} (h : MemOk s) : OutOk (execWverset o s) := by
  unfold Machine.execWverset
  refine MemOk.onRole (fun rid r => ?_)
  split
  · exact h.setRole
  · split
    · exact h.setRole
    · exact h.setRole

theorem MemOk.flushDue {s id} (h : MemOk s) : MemOk (s.flushDue id) := by
  unfold State.flushDue
  extract_lets x
  split
  · exact h
  next c _ =>
    extract_lets put
    have hput : ∀ p w, MemOk p.2 → MemOk (put p w).2 := by
      intro p w hp
      unfold put
      split
      · exact hp
      · split
        next e => exact hp.engStore e
        next e => exact hp.engStore e
        next e => exact hp.engStore e
    
    split
    next left s1 e =>
      have hs1 : MemOk s1 := h.foldl_snd hput e
      extract_lets y s2
      have hs2 : MemOk s2 := hs1.setCtx
      split
      · exact hs1.setCtx
      · split
        · split
          · exact hs2.signal
          · exact hs2
        · exact hs2

theorem MemOk.tlWords {s id c ws signal} (h : MemOk s) : MemOk (s.tlWords id c ws signal) := h.setCtx.flushDue

theorem MemOk.stopCtx {s id c n code addr retry} (h : MemOk s) : MemOk (s.stopCtx id c n code addr retry) := by
  unfold State.stopCtx
  extract_lets x s1
  have hs1 : MemOk s1 := h.setCtx
  split
  · exact h.setCtx
  · split
    · exact hs1.tlWords
    · exact hs1

theorem MemOk.failCmd {s id n code addr} (h : MemOk s) : MemOk (s.failCmd id n code addr) := by
  unfold State.failCmd
  split
  · exact h
  · split
    · exact h
    · exact h.setEntry.stopCtx

theorem MemOk.advanceCtx {s id} (h : MemOk s) : MemOk (s.advanceCtx id) := by
  unfold State.advanceCtx
  extract_lets c ea
  split
  · exact h
  · split
    · exact h
    · split
      next t e1 =>
        have ht : MemOk t := h.engStore e1
        exact ht.setCtx
      next e1 =>
        exact h.engStore e1
      next t e1 =>
        have ht : MemOk t := h.engStore e1
        exact ht.stopCtx

theorem MemOk.engAdd {s id c a x} (h : MemOk s) (e : s.engAdd id c a = x) : Ends (MemOk ·.2) (MemOk ·.2) x := by
  subst e
  unfold State.engAdd
  extract_lets d jp
  have hjp : ∀ y, MemOk y.2 → Ends (MemOk ·.2) (MemOk ·.2) (jp y) := by
    intro y hy
    unfold jp
    split
    next t =>
      have ht : MemOk t := hy
      split
      · exact ht.failWith rfl
      · refine (ht.engRead rfl).bind (fun y ht1 => ?_)
        obtain ⟨v, t1⟩ := y
        have ht1 : MemOk t1 := ht1
        dsimp -zeta only
        have hs : MemOk (if a.pod then (t1.stamp d a.flow 1).2 else t1) := by
          split
          · exact ht1.stamp rfl
          · exact ht1
        split
        · exact ht1.failWith rfl
        · exact hs.engWrite rfl
  clear_value jp
  generalize (a.addr.toNat : Int) = ea
  split
  · exact Ends.bind (h.podSpot rfl) hjp
  · exact Ends.bind (h.engSpot rfl) hjp

theorem MemOk.runSigs {s id c n l x} (h : MemOk s) (e : s.runSigs id c n l = x) : MemOk x.2.2 := by
  subst e
  induction l generalizing s id c n with
    | nil => exact h
    | cons a l ih =>
      rw [State.runSigs]
      split
      · exact ih h
      · split
        next t e =>
          have ht : MemOk t := h.engAdd e
          exact ih ht
        next t e =>
          have ht : MemOk t := h.engAdd e
          exact ih ht
        next e => exact h.engAdd e

theorem MemOk.completeCmd {s id n} (h : MemOk s) : MemOk (s.completeCmd id n) := by
  unfold State.completeCmd
  split
  · exact h.advanceCtx
  · split
    · exact h.advanceCtx
    · split
      next t e1 =>
        have ht : MemOk t := h.runSigs e1
        exact ht.failCmd
      next t e1 =>
        have ht : MemOk t := h.runSigs e1
        exact ht.setEntry.advanceCtx

theorem MemOk.accept {s id} (h : MemOk s) : MemOk (s.accept id) := by
  unfold State.accept
  split
  · exact h
  · split
    · exact h
    · extract_lets c n r base s1
      have hs1 : MemOk s1 := h.frame rfl rfl
      split
      · extract_lets s2 s3
        have hs2 : MemOk s2 := hs1.setCtx.tickCtx
        have hs3 : MemOk s3 := hs2.updRole
        exact hs3.send

theorem MemOk.failNoAddr {α : Type} {s code} {x : Except Stopped (α × State)} (h : MemOk s) (e : failNoAddr s code = x) :
    Ends (MemOk ·.2) (MemOk ·.2) x := by
  subst e
  unfold Machine.failNoAddr
  split
  next t e =>
    have ht : MemOk t := h.fresh e
    exact ht.failWith rfl

theorem MemOk.regionRmw {s id c word f x} (h : MemOk s) (e : s.regionRmw id c word f = x) : Ends (MemOk ·.2) (MemOk ·.2) x := by
  subst e
  unfold State.regionRmw
  extract_lets d p
  split
  · exact h.failNoAddr rfl
  · extract_lets addr
    split
    · exact h.failWith rfl
    · split
      next t e1 =>
        have ht : MemOk t := h.readIn e1
        split
        · exact ht.failWith rfl
        · split
          · exact ht.tickSnap.failWith rfl
          · split
            next t1 e2 =>
              have ht1 : MemOk t1 := ht.rmwIn e2
              exact ht1.tickSnap.tickCtx

theorem MemOk.startPublish {s id c n x} (h : MemOk s) (e : s.startPublish id c n = x) : Ends (MemOk ·.2) (MemOk ·.2) x := by
  subst e
  unfold State.startPublish
  extract_lets d
  split
  · exact h.failNoAddr rfl
  · split
    next e => exact h.engSpot e
    next t e =>
      have ht : MemOk t := h.engSpot e
      split
      · exact ht
      · dsimp -zeta only [Ends]
        exact ht.updDie

theorem MemOk.runCmd {s id c n x} (h : MemOk s) (e : s.runCmd id c n = x) : Ends (MemOk ·.2) (MemOk ·.2) x := by
  subst e
  unfold State.runCmd
  extract_lets one
  have hone : ∀ (ok : Tensor → Bool), Ends (MemOk ·.2) (MemOk ·.2) (one ok) := by
    intro ok
    unfold one
    exact (h.readTensor rfl).bind (fun ⟨_, _⟩ ht => ht.runTensor rfl)
  split
  · exact h
  · split
    · exact h.failNoAddr rfl
    · exact h.runTensor rfl
  · exact hone _
  · exact hone _
  · exact hone _
  · exact h.runHalo rfl
  · exact h.runAred rfl
  · exact h.startPublish rfl
  · exact h.regionRmw rfl
  · exact h.regionRmw rfl
  · exact h.runFcomp rfl
  · exact h.runEncf rfl

theorem MemOk.startCmd {s id q} (h : MemOk s) : MemOk (s.startCmd id q) := by
  unfold State.startCmd
  split
  next t e =>
    have ht : MemOk t := h.runCmd e
    exact ht.setEntry.send
  next t e =>
    have ht : MemOk t := h.runCmd e
    exact ht.setEntry
  next t e =>
    have ht : MemOk t := h.runCmd e
    exact ht.setEntry.send

theorem MemOk.startCtx {s id} (h : MemOk s) : MemOk (s.startCtx id) := by
  unfold State.startCtx
  extract_lets s1
  have hs1 : MemOk s1 := by
    unfold s1
    refine h.flushDue.foldl (fun _ a ht => ?_)
    split
    · exact ht.startCmd
    · exact ht
  split
  · split
    · refine MemOk.startCmd ?_
      split
      · exact hs1.updDie
      · exact hs1
    · exact hs1
  · exact hs1

theorem MemOk.execQbind {o s} (h : MemOk s) : OutOk (execQbind o s) := by
  unfold Machine.execQbind
  refine MemOk.onRole (fun rid r => ?_)
  extract_lets w kind act k bind id s1 tl base s2 t t'
  have hbind : ∀ (t : Option QTarget), MemOk (bind t) := by
    intro t1
    unfold bind
    exact h.setRole
  have hs1 : MemOk s1 := h.ctxResume
  have hs2 : MemOk s2 := hs1.setCtx
  split
  · exact h.trap
  · split
    · split
      · exact h.trap
      · exact hs2.tlWords.setRole
    · split
      · exact hbind _
      · split
        · split
          · exact hbind _
          · exact h.trap
        · split
          · exact hbind _
          · split
            · exact hbind _
            · exact h.trap

theorem MemOk.firePub {s d p} (h : MemOk s) : MemOk (s.firePub d p) := by
  unfold State.firePub
  extract_lets s0
  have hs0 : MemOk s0 := h.updDie
  clear_value s0
  split
  · exact hs0
  next q _ =>
    extract_lets c
    have hx : ∀ (a : SigAdd) (f : Nat → Nat), Ends (MemOk ·.2) (MemOk ·.2) (s0.engAdd p.ctx c a >>= fun y => y.2.regionRmw p.ctx c 0 f) :=
      fun a f => (hs0.engAdd rfl).bind (fun _ ht => MemOk.regionRmw ht rfl)
    split
    next t e =>
      have ht : MemOk t := Ends.ok_of (q := (MemOk ·.2)) (hx _ _) e
      exact ht.send
    · exact h
    next t e =>
      have ht : MemOk t := Ends.error_of (p := (MemOk ·.2)) (hx _ _) e
      exact ht.failCmd

theorem MemOk.publishFire {s d} (h : MemOk s) : MemOk (s.publishFire d) := h.foldl (fun _ _ ht => ht.firePub)

theorem MemOk.nextSeq {s d f} (h : MemOk s) : MemOk (s.nextSeq d f) := h.setFlow

theorem MemOk.deliver {s t} (h : MemOk s) : MemOk (s.deliver t) := by
  unfold State.deliver
  extract_lets line
  split
  · exact h
  · split
    · exact h.failCmd
    · split
      next t1 e =>
        have ht1 : MemOk t1 := h.rmwIn e
        split
        · exact ht1.failCmd
        · exact ht1.tickCtx

theorem MemOk.drainFlow {s d f n} (h : MemOk s) : MemOk (s.drainFlow d f n) := by
  induction n generalizing s d f with
    | zero => exact h
    | succ n ih =>
      rw [State.drainFlow]
      split
      · exact h
      · extract_lets s1
        have hs1 : MemOk s1 := h.setDie
        exact ih hs1.nextSeq.deliver

theorem MemOk.receive {s t} (h : MemOk s) : MemOk (s.receive t) := by
  unfold State.receive
  extract_lets d x
  split
  · exact h.failCmd
  · split
    · exact h.deliver
    · exact h.nextSeq.deliver.drainFlow
    · exact h.countError
    · exact h.setDie
    · exact h.setDie

end Sys2Proof.Machine
end

section
/-! SUPPORT. Canonical memory is kept by the agents of a die and spawned work. -/
namespace Sys2Proof.Machine

theorem MemOk.vaSpot {s w a z ea x} (h : MemOk s) (e : s.vaSpot w a z ea = x) : Ends (MemOk ·.2) (MemOk ·.2) x := by
  subst e
  unfold State.vaSpot
  split
  · exact h
  · extract_lets va
    split
    · exact h
    · split
      · exact h
      · split
        next t e =>
          have ht : MemOk t := h.walk e
          split
          · exact ht
          · exact ht
        next e1 => exact h.walk e1
        next e => exact h.walk e
        next t e =>
          have ht : MemOk t := h.walk e
          exact ht.requestCopy

theorem MemOk.vaReadAt {s w m z addr x} (h : MemOk s) (e : s.vaReadAt w m z addr = x) : Ends (MemOk ·.2) (MemOk ·.2) x := by
  subst e
  unfold State.vaReadAt
  have hd : MemOk
          (if m.retained.isSome = true then
                match s.viewIn w.die m.pa z w.vmid with
                | (v, s1) => (v, 0, s1)
              else s.readIn w.die m.pa z w.vmid s.clock).2.2 := by
    split
    · split
      next t1 e1 =>
        have ht1 : MemOk t1 := h.viewIn e1
        exact ht1
    · exact h.readIn rfl
  split
  next t e =>
    have ht : MemOk t := by rw [e] at hd; exact hd
    split
    · exact ht
    · exact ht.tick

theorem MemOk.vaWriteAt {s w m z v addr x} (h : MemOk s) (e : s.vaWriteAt w m z v addr = x) : Ends (MemOk ·.2) (MemOk ·.2) x := by
  subst e
  unfold State.vaWriteAt
  split
  next t e =>
    have ht : MemOk t := h.rmwIn e
    split
    · exact ht
    · exact ht.tick

theorem MemOk.vaRead {s w a z ea x} (h : MemOk s) (e : s.vaRead w a z ea = x) : Ends (MemOk ·.2) (MemOk ·.2) x := by
  subst e
  exact (h.vaSpot rfl).bind (fun ⟨_, _⟩ ht => ht.vaReadAt rfl)

theorem MemOk.vaWords {s w a ea n x} (h : MemOk s) (e : s.vaWords w a ea n = x) : Ends (MemOk ·.2) (MemOk ·.2) x := by
  subst e
  induction n generalizing s w a ea with
    | zero => exact h
    | succ n ih =>
      rw [State.vaWords]
      exact (h.vaRead rfl).bind (fun ⟨_, _⟩ ht => (ih ht).bind (fun ⟨_, _⟩ ht1 => ht1))

theorem MemOk.vaSpots {s w a l x} (h : MemOk s) (e : s.vaSpots w a l = x) : Ends (MemOk ·.2) (MemOk ·.2) x := by
  subst e
  induction l generalizing s w a with
    | nil => exact h
    | cons a l ih =>
      rw [State.vaSpots]
      exact (h.vaSpot rfl).bind (fun ⟨_, _⟩ ht => (ih ht).bind (fun ⟨_, _⟩ ht1 => ht1))

theorem MemOk.vaStoreAt {s w l x} (h : MemOk s) (e : s.vaStoreAt w l = x) : Ends (MemOk ·.2) (MemOk ·.2) x := by
  subst e
  induction l generalizing s w with
    | nil => exact h
    | cons a l ih =>
      rw [State.vaStoreAt]
      exact (h.vaWriteAt rfl).bind (fun ⟨_, _⟩ ht => ih ht)

theorem MemOk.vaStores {s w a l x} (h : MemOk s) (e : s.vaStores w a l = x) : Ends (MemOk ·.2) (MemOk ·.2) x := by
  subst e
  exact (h.vaSpots rfl).bind (fun ⟨_, _⟩ ht => ht.vaStoreAt rfl)

theorem MemOk.vaAdd {s w ea inc x} (h : MemOk s) (e : s.vaAdd w ea inc = x) : Ends (MemOk ·.2) (MemOk ·.2) x := by
  subst e
  unfold State.vaAdd
  refine (h.vaSpot rfl).bind (fun ⟨_, _⟩ ht => (ht.vaReadAt rfl).bind (fun ⟨_, _⟩ ht1 => ?_))
  dsimp -zeta only
  split
  · exact ht1
  · exact ht1.vaWriteAt rfl

theorem MemOk.setSpawn {s x'} (h : MemOk s) : MemOk (s.setSpawn x') := by
  unfold State.setSpawn
  split
  · exact h.frame rfl rfl
  · exact h.frame rfl rfl

theorem MemOk.updSpawn {s qva vmid asid f} (h : MemOk s) : MemOk (s.updSpawn qva vmid asid f) := by
  unfold State.updSpawn
  split
  · exact h
  · exact h.setSpawn

theorem MemOk.writePush {s w a q p x} (h : MemOk s) (e : s.writePush w a q p = x) : Ends (MemOk ·.2) (MemOk ·.2) x := by
  subst e
  unfold State.writePush
  refine (h.vaStores rfl).bind (fun ⟨_, _⟩ ht => ?_)
  dsimp -zeta only
  exact ht.setSpawn

theorem MemOk.park {s q vmid asid p} (h : MemOk s) : MemOk (s.park q vmid asid p) := by
  unfold State.park
  extract_lets x base
  have hbase : MemOk base := h.setSpawn
  exact hbase.frame rfl rfl

theorem MemOk.unpark {s f} (h : MemOk s) : MemOk (s.unpark f) := h.frame rfl rfl

theorem MemOk.roleStop {s rid e' wr} (h : MemOk s) : MemOk (s.roleStop rid e' wr) := by
  unfold State.roleStop
  split
  · split
    · exact h.loadFault
    · exact h
  · exact h.holdRole

theorem MemOk.pushRole {s rid r q records} (h : MemOk s) : MemOk (s.pushRole rid r q records) := by
  unfold State.pushRole
  split
  · extract_lets p
    split
    · exact h.park.holdRole
    · split
      next t e1 =>
        have ht : MemOk t := h.tick.writePush e1
        exact ht.updRole
      next t e2 =>
        have ht : MemOk t := h.tick.writePush e2
        exact ht.roleStop

theorem MemOk.enqWord {o f s} (h : MemOk s) (hf : ∀ t rid r q, MemOk t → MemOk (f t rid r q)) : OutOk (enqWord o f s) := by
  unfold Machine.enqWord
  refine MemOk.onRole (fun rid r => ?_)
  extract_lets qva
  split
  · exact h.setRole
  · split
    · exact h.trap
    · split
      · exact h.setRole
      · split
        next t e2 =>
          have ht : MemOk t := h.loadRecord e2
          exact ht.stopRole
        next t e1 =>
          have ht : MemOk t := h.loadRecord e1
          exact hf _ _ _ _ ht

theorem MemOk.execEnqr {o s} (h : MemOk s) : OutOk (execEnqr o s) := by
  unfold Machine.execEnqr
  refine h.enqWord (fun _ rid r q ht => ?_)
  extract_lets n
  split
  · exact ht.trap
  · split
    · exact ht.setRole
    · split
      next t e1 =>
        have ht1 : MemOk t := ht.loadRecord e1
        exact ht1.stopRole
      next t e =>
        have ht1 : MemOk t := ht.loadRecord e
        exact ht1.pushRole

theorem MemOk.execEnqc {o s} (h : MemOk s) : OutOk (execEnqc o s) := by
  unfold Machine.execEnqc
  refine h.enqWord (fun _ rid r q ht => ?_)
  extract_lets lanes regs
  split
  · exact ht.trap
  · split
    · exact ht.abortGang
    · split
      · exact ht.trap
      · split
        · exact ht.setRole
        · exact ht.readEntries.pushRole

end Sys2Proof.Machine
end

section
/-! SUPPORT. Canonical memory is kept by the query engine. -/
namespace Sys2Proof.Machine

theorem MemOk.loadFray {s core q addr x} (h : MemOk s) (e : s.loadFray core q addr = x) : MemOk x.2.2 := by
  subst e
  unfold State.loadFray
  split
  next e1 => exact h.vaWords e1
  next t e =>
    have ht : MemOk t := h.vaWords e
    extract_lets w base
    split
    · exact ht
    · exact ht

theorem MemOk.loadRecordOf {s core q root x} (h : MemOk s) (e : s.loadRecordOf core q root = x) : MemOk x.2.2 := by
  subst e
  unfold State.loadRecordOf
  split
  next e1 => exact h.vaWords e1
  next t e =>
    have ht : MemOk t := h.vaWords e
    extract_lets q0 q1
    split
    · exact ht
    · exact ht

theorem MemOk.loadStruct {s core q x} (h : MemOk s) (e : s.loadStruct core q = x) : MemOk x.2.2 := by
  subst e
  unfold State.loadStruct
  split
  · exact h
  · split
    next e1 => exact h.vaWords e1
    next e => exact h.vaWords e

theorem MemOk.vaBytes {s w a ea n x} (h : MemOk s) (e : s.vaBytes w a ea n = x) : Ends (MemOk ·.2) (MemOk ·.2) x := by
  subst e
  induction n generalizing s w a ea with
    | zero => exact h
    | succ n ih =>
      rw [State.vaBytes]
      exact (h.vaRead rfl).bind (fun ⟨_, _⟩ ht => (ih ht).bind (fun ⟨_, _⟩ ht1 => ht1))

theorem MemOk.vaPair {s w ea x} (h : MemOk s) (e : s.vaPair w ea = x) : Ends (MemOk ·.2) (MemOk ·.2) x := by
  subst e
  unfold State.vaPair
  split
  · exact h.vaRead rfl
  · exact h.vaBytes rfl

theorem MemOk.loadSamples {s core q l x} (h : MemOk s) (e : s.loadSamples core q l = x) : MemOk x.2.2 := by
  subst e
  induction l generalizing s core q with
    | nil => exact h
    | cons a l ih =>
      rw [State.loadSamples]
      split
      next e1 => exact h.vaPair e1
      next t e =>
        have ht : MemOk t := h.vaPair e
        exact ih ht

theorem MemOk.loadRest {s core r q x} (h : MemOk s) (e : s.loadRest core r q = x) : MemOk x.2.2 := by
  subst e
  unfold State.loadRest
  extract_lets q1 v q2
  split
  · exact h
  · have hd : MemOk (if q2.kind = 2 then s.loadSamples core q2 q2.rays else (q2, none, s)).2.2 := by
      split
      · exact h.loadSamples rfl
      · exact h
    split
    next t e1 =>
      have ht : MemOk t := by rw [e1] at hd; exact hd
      exact ht
    next t e =>
      have ht : MemOk t := by rw [e] at hd; exact hd
      split
      · exact ht
      · exact ht

theorem MemOk.andThen {x0 f x} (h : MemOk x0.2.2) (hf : ∀ t q, MemOk t → MemOk (f t q).2.2) (e : BeamLoad.andThen x0 f = x) : MemOk x.2.2 := by
  subst e
  unfold Machine.BeamLoad.andThen
  split
  next t =>
    have ht : MemOk t := h
    exact hf _ _ ht
  · exact h

theorem MemOk.loadQuery {s core r fray q addr x} (h : MemOk s) (e : s.loadQuery core r fray q addr = x) : MemOk x.2.2 := by
  subst e
  unfold State.loadQuery
  extract_lets first
  have hfirst : MemOk first.2.2 := by
    unfold first
    split
    · exact h.loadFray rfl
    · exact h
  exact MemOk.andThen (MemOk.andThen (hfirst.andThen (fun _ _ ht => ht.loadRecordOf rfl) rfl)
    (fun _ _ ht => ht.loadStruct rfl) rfl) (fun _ _ ht => ht.loadRest rfl) rfl

theorem MemOk.loadSpill {s core r q addr x} (h : MemOk s) (e : s.loadSpill core r q addr = x) : MemOk x.2.2 := by
  subst e
  unfold State.loadSpill
  split
  next e1 => exact h.vaWords e1
  next t e =>
    have ht : MemOk t := h.vaWords e
    extract_lets w x' serial base q1 one bad best q2
    split
    · exact ht
    · exact ht.loadRest rfl

theorem MemOk.setQuery {s core n q} (h : MemOk s) : MemOk (s.setQuery core n q) := h.updCore

theorem MemOk.dropQuery {s core n} (h : MemOk s) : MemOk (s.dropQuery core n) := h.updCore

theorem MemOk.beamEvent {s q e'} (h : MemOk s) : MemOk (s.beamEvent q e') := h.updRole

theorem MemOk.answerSave {s q status} (h : MemOk s) : MemOk (s.answerSave q status) := by
  unfold State.answerSave
  split
  · exact h
  · exact h.updRole

theorem MemOk.finishQuery {s core n q status} (h : MemOk s) : MemOk (s.finishQuery core n q status) := h.dropQuery.beamEvent.answerSave

theorem MemOk.visitNode {s core q n x} (h : MemOk s) (e : s.visitNode core q n = x) : MemOk x.2 := by
  subst e
  unfold State.visitNode
  split
  · exact h
  · split
    · exact h
    · split
      next e1 => exact h.vaWords e1
      next e2 => exact h.vaWords e2
      next t e1 =>
        have ht : MemOk t := h.vaWords e1
        split
        · exact ht
        · exact ht

theorem MemOk.visitBlock {s core q n count x} (h : MemOk s) (e : s.visitBlock core q n count = x) : MemOk x.2 := by
  subst e
  unfold State.visitBlock
  split
  · exact h
  · split
    · exact h
    · split
      next e1 => exact h.vaWords e1
      next e2 => exact h.vaWords e2
      next t e1 =>
        have ht : MemOk t := h.vaWords e1
        extract_lets tris ts ds leaf d q2
        split
        · exact ht
        · split
          · exact ht
          · split
            · exact ht
            · exact ht

theorem MemOk.visitProc {s q prim x} (h : MemOk s) (e : s.visitProc q prim = x) : MemOk x.2 := by
  subst e
  unfold State.visitProc
  split
  · exact h
  · extract_lets present
    have hpresent : MemOk present.2 := h.beamEvent
    split
    · exact h
    · exact hpresent

theorem MemOk.atPlace {s q x} (h : MemOk s) (e : s.atPlace q = x) : MemOk x.2 := by
  subst e
  unfold State.atPlace
  extract_lets st q1
  split
  · exact h
  · exact h

theorem MemOk.unparkQuery {s core n} (h : MemOk s) : MemOk (s.unparkQuery core n) := h.unpark

theorem MemOk.spillQuery {s core n q addr} (h : MemOk s) : MemOk (s.spillQuery core n q addr) := by
  unfold State.spillQuery
  split
  next e =>
    exact h.vaStores e
  next t _ e =>
    have ht : MemOk t := h.vaStores e
    exact ht.setQuery.answerSave
  next t e =>
    have ht : MemOk t := h.vaStores e
    extract_lets s2
    have hs2 : MemOk s2 := ht.dropQuery.unparkQuery.answerSave
    exact hs2.updRole.raisePts

theorem MemOk.visitStep {s core q x} (h : MemOk s) (e : s.visitStep core q = x) : MemOk x.2 := by
  subst e
  unfold State.visitStep
  split
  · have hplace : ∀ (q1 : Query) (t : State), MemOk t →
        MemOk (match q1.phase with
          | .path => if q1.path.isEmpty && !q1.stack.isEmpty then t.atPlace q1 else (q1, t)
          | _ => (q1, t) : Query × State).2 := by
      intro q1 t ht
      split
      · split
        · exact ht.atPlace rfl
        · exact ht
      · exact ht
    match q.stack, q.path with
    | [], _ => exact hplace _ _ (h.visitNode rfl)
    | f :: rest, k :: more =>
      dsimp -zeta only
      by_cases hk : (!f.valid k || f.isLeaf k) = true
      · rw [if_pos hk]
        exact hplace (q.endWith 1 0 0) _ h
      · rw [if_neg hk]
        generalize hv : s.visitNode core _ (f.child k) = y
        exact hplace _ y.2 (h.visitNode hv)
    | _ :: _, [] => exact hplace q _ h
  · split
    · exact h.visitNode rfl
    · exact h.visitBlock rfl
    · exact h.visitProc rfl
    · exact h
    · exact h
  · split
    · exact h
    · exact h
  · exact h

theorem MemOk.beamVisit {s core n} (h : MemOk s) : MemOk (s.beamVisit core n) := by
  unfold State.beamVisit
  split
  · exact h
  · split
    · exact h.unparkQuery.setQuery
    · split
      · exact h.spillQuery
      · exact h.spillQuery
      · exact h.spillQuery
      · split
        next t e1 =>
          have ht : MemOk t := h.visitStep e1
          exact ht.setQuery

theorem MemOk.handedOver {s core n q} (h : MemOk s) : MemOk (s.handedOver core n q) := h.finishQuery

theorem MemOk.beamPush {s core n} (h : MemOk s) : MemOk (s.beamPush core n) := by
  unfold State.beamPush
  split
  · exact h
  · split
    · split
      · exact h.beamVisit
      · split
        · exact h
        · split
          · exact h.setQuery
          · extract_lets w k
            split
            next t e3 =>
              have ht : MemOk t := h.vaWords e3
              exact ht.setQuery
            next t e2 =>
              have ht : MemOk t := h.vaWords e2
              extract_lets t' p
              split
              · exact ht.setQuery
              · split
                · exact ht.park
                · split
                  next t1 e4 =>
                    have ht1 : MemOk t1 := ht.writePush e4
                    exact ht1.setQuery
                  next t1 e3 =>
                    have ht1 : MemOk t1 := ht.writePush e3
                    exact ht1.handedOver
    · exact h

/-- One record of `writeRecords`, where `x.1` writes those of the rest: its equation is too large to be made, so that the body is read as the
recursion has it. -/
theorem MemOk.writeRecords_tail {core status i rest x} (hx : ∀ t q, MemOk t → MemOk (x.1 t q).2.2) {s q} (h : MemOk s) :
    MemOk (State.writeRecords._f core status (i :: rest) x s q).2.2 := by
  delta State.writeRecords._f
  dsimp -zeta only
  extract_lets va
  split
  next e =>
    have ht := h.vaStores e
    exact hx _ _ ht
  next e => exact h.vaStores e
  next t e =>
    have ht : MemOk t := h.vaStores e
    split
    · exact hx _ _ ht
    · exact ht
  next e => exact h.vaStores e

theorem MemOk.writeRecords {s core q status l x} (h : MemOk s) (e : s.writeRecords core q status l = x) : MemOk x.2.2 := by
  subst e
  induction l generalizing s q with
  | nil => exact h
  | cons i rest ih =>
    delta State.writeRecords
    refine MemOk.writeRecords_tail (fun t q ht => ?_) h
    set_option smartUnfolding false in exact ih (q := q) ht

theorem MemOk.beamRecords {s core n} (h : MemOk s) : MemOk (s.beamRecords core n) := by
  unfold State.beamRecords
  split
  · exact h
  · split
    · split
      next t e2 =>
        have ht : MemOk t := h.writeRecords e2
        split
        · exact ht.setQuery
        · extract_lets next
          have hnext : ∀ (s : State) (q : Query), MemOk s → MemOk (next s q) := by
            intro s1 q ht1
            unfold next
            split
            · exact ht1.setQuery
            · exact ht1.finishQuery
          split
          · exact hnext _ _ ht
          · split
            next t1 e3 =>
              have ht1 : MemOk t1 := ht.vaAdd e3
              exact hnext _ _ ht1
            next t1 e3 =>
              have ht1 : MemOk t1 := ht.vaAdd e3
              exact ht1.setQuery
            next t1 e3 =>
              have ht1 : MemOk t1 := ht.vaAdd e3
              split
              · exact ht1.finishQuery
              · exact ht1.setQuery
            next t1 e3 =>
              have ht1 : MemOk t1 := ht.vaAdd e3
              exact ht1.finishQuery
    · exact h

theorem MemOk.acceptPush {s qva vmid asid} (h : MemOk s) : MemOk (s.acceptPush qva vmid asid) := by
  unfold State.acceptPush
  split
  · exact h
  next e =>
    split
    · exact h
    · extract_lets query r forget fail
      have hforget : ∀ (s : State), MemOk s → MemOk (forget s) := by
        intro s1 ht
        unfold forget
        exact ht.unpark
      have hfail : ∀ (s : State) (e : VStop), MemOk s → MemOk (fail s e) := by
        intro s1 e2 ht
        unfold fail
        clear_value query
        split
        · exact ht
        · exact (hforget _ ht).setQuery
        · exact (hforget _ ht).roleStop
      split
      · split
        next t e4 =>
          have ht : MemOk t := h.vaWords e4
          exact hfail _ _ ht
        next t e3 =>
          have ht : MemOk t := h.vaWords e3
          extract_lets t'
          split
          · exact ht
          · split
            next t1 e5 =>
              have ht1 : MemOk t1 := ht.tick.writePush e5
              exact hfail _ _ ht1
            next t1 e4 =>
              have ht1 : MemOk t1 := ht.tick.writePush e4
              clear_value query
              split
              · exact (hforget _ ht1).handedOver
              · exact (hforget _ ht1).updRole

theorem MemOk.beamStart {o n align load s} (h : MemOk s) (hload : ∀ t c r q a, MemOk t → MemOk (load t c r q a).2.2) :
    OutOk (beamStart o n align load s) := by
  unfold Machine.beamStart
  refine MemOk.onRole (fun rid r => ?_)
  extract_lets a
  split
  · exact h.setRole
  · split
    · exact h.trap
    · split
      · exact h.trap
      · split
        · exact h.setRole
        · split
          · exact h.updCore.setRole
          · split
            · extract_lets q0
              have hd : MemOk (load (s.tick (s.core r.core).pts) r.core r q0 (BitVec.toNat a)).2.2 := hload _ _ _ _ _ h.tick
              split
              next t e1 =>
                have ht : MemOk t := by rw [e1] at hd; exact hd
                exact ht.setRole
              next t _ e2 =>
                have ht : MemOk t := by rw [e2] at hd; exact hd
                split
                · extract_lets q1 q2 k s2
                  have hs2 : MemOk s2 := ht.setCore.setRole
                  split
                  · have hs21 : MemOk s2 := hs2
                    exact hs21.beamEvent
                  · exact hs2

theorem MemOk.execBq {o s} (h : MemOk s) : OutOk (execBq o s) := by
  unfold Machine.execBq
  exact h.beamStart (fun _ _ _ _ _ ht => ht.loadQuery rfl)

theorem MemOk.execBres {o s} (h : MemOk s) : OutOk (execBres o s) := by
  unfold Machine.execBres
  refine MemOk.onRole (fun rid r => ?_)
  extract_lets poll addr give
  have hgive : ∀ (r : Role) (w : Word), MemOk (give r w) := by
    intro r1 w
    unfold give
    exact h.setRole
  split
  · exact hgive _ _
  · split
    · exact hgive _ _
    · split
      · exact hgive _ _
      · exact h.setRole
    · split
      · exact hgive _ _
      · split
        · exact hgive _ _
        · exact hgive _ _

theorem MemOk.execBproc {o s} (h : MemOk s) : OutOk (execBproc o s) := by
  unfold Machine.execBproc
  refine MemOk.onRole (fun rid r => ?_)
  split
  · exact h.setRole
  · extract_lets t s1
    have hs1 : MemOk s1 := h.setRole
    split
    · exact hs1
    · split
      · split
        · exact hs1.beamEvent.setQuery
        · exact hs1
      · exact hs1

theorem MemOk.execBsave {o s} (h : MemOk s) : OutOk (execBsave o s) := by
  unfold Machine.execBsave
  refine MemOk.onRole (fun rid r => ?_)
  extract_lets a r1 give
  have hgive : ∀ (x : ℕ), MemOk (give x) := by
    intro x
    unfold give
    exact h.setRole
  split
  · exact h.setRole
  · split
    · exact h.trap
    · split
      · exact h.trap
      · split
        · exact hgive _
        · split
          · exact hgive _
          · split
            · exact h.setRole
            · exact h.setRole.setQuery

theorem MemOk.execBabort {o s} (h : MemOk s) : OutOk (execBabort o s) := by
  unfold Machine.execBabort
  refine MemOk.onRole (fun rid r => ?_)
  split
  · exact h.setRole
  · extract_lets s1
    have hs1 : MemOk s1 := h.setRole
    split
    · exact hs1
    · split
      · exact hs1
      · exact hs1.beamEvent.setQuery

end Sys2Proof.Machine
end

section
/-! SUPPORT. Canonical memory is kept by the shared forms of the conversion, float and lane words. -/
namespace Sys2Proof.Machine

theorem MemOk.floatA {o f s} (h : MemOk s) : OutOk (floatA o f s) := h.wordStep

theorem MemOk.moverA {o src s} (h : MemOk s) : OutOk (moverA o src s) := h.wordStep

end Sys2Proof.Machine
end

section
/-! SUPPORT. Canonical memory is kept by launch, saving, scheduling and the words of handlers. -/
namespace Sys2Proof.Machine

theorem MemOk.readShape {s w va x} (h : MemOk s) (e : s.readShape w va = x) : Ends (MemOk ·.2) (MemOk ·.2) x := by
  subst e
  unfold State.readShape
  split
  · exact h
  · refine (h.vaWords rfl).bind (fun ⟨_, _⟩ ht => ?_)
    dsimp -zeta only
    split
    · exact ht
    · refine (ht.vaWords rfl).bind (fun ⟨_, _⟩ ht1 => ?_)
      split
      · exact ht1
      · exact ht1

theorem MemOk.setHead {s q h'} (h : MemOk s) : MemOk (s.setHead q h') := h.setQueueState

theorem MemOk.stopQueue {s q code} (h : MemOk s) : MemOk (s.stopQueue q code) := h.queueError.setQueueState

theorem MemOk.loadHead? {s q x} (h : MemOk s) (e : s.loadHead? q = x) : Maybe MemOk x := by
  subst e
  unfold State.loadHead?
  split
  · trivial
  · extract_lets stale pa
    split
    · exact h.stopQueue
    · split
      · trivial
      · split
        · exact h.stopQueue
        · split
          next t e1 =>
            have ht : MemOk t := h.readWords e1
            extract_lets s1
            have hs1 : MemOk s1 := ht.tick
            split
            · exact hs1.stopQueue
            · split
              · trivial
              next t1 e2 =>
                have ht1 : MemOk t1 := hs1.readShape e2
                exact ht1.stopQueue
              next t1 e2 =>
                have ht1 : MemOk t1 := hs1.readShape e2
                exact ht1.stopQueue
              next t1 e2 =>
                have ht1 : MemOk t1 := hs1.readShape e2
                extract_lets h'
                split
                · exact ht1.stopQueue
                · exact ht1.setHead

theorem MemOk.depStep? {s q x} (h : MemOk s) (e : s.depStep? q = x) : Maybe MemOk x := by
  subst e
  unfold State.depStep?
  split
  · split
    · trivial
    · extract_lets w answers s1
      have hs1 : MemOk s1 := by
        unfold s1
        refine h.foldl (fun _ a ht => ?_)
        split
        next e2 => exact ht.vaAdd e2
        next e3 => exact ht.vaAdd e3
      split
      · exact h.stopQueue
      · split
        · exact hs1.setHead
        · trivial
  · trivial

theorem MemOk.addRole {s gid g sh args team ix x' pts} (h : MemOk s) : MemOk (s.addRole gid g sh args team ix x' pts) := by
  unfold State.addRole
  extract_lets core k slot rs r s1
  have hs1 : MemOk s1 := h.frame rfl rfl
  exact hs1.setCore

theorem MemOk.admitGang {s sh g args pts} (h : MemOk s) : MemOk (s.admitGang sh g args pts) := by
  unfold State.admitGang
  extract_lets gid s1 s2
  have hs1 : MemOk s1 := h.frame rfl rfl
  have hs2 : MemOk s2 := hs1.foldl (fun _ _ ht => ht.foldl (fun _ _ ht1 => ht1.addRole))
  exact hs2.foldl (fun _ _ ht => ht.raisePts.trimL1)

theorem MemOk.coresFreed {s cores} (h : MemOk s) : MemOk (s.coresFreed cores) := h.frame rfl rfl

/-- The function itself, for the reason that `queueEntry_cases` gives. -/
theorem State.passPacket_eq : State.passPacket = fun s q =>
    let (ws, s1) := s.queueEntry q
    (s1.writeQueueWord q 1 (withField (ws.getD 1 0) 0 32 (qCons ws + 1))).setHead q none := rfl

theorem MemOk.passPacket {s q} (h : MemOk s) : MemOk (s.passPacket q) := by
  rw [State.passPacket_eq]
  beta_reduce
  split
  next t e =>
    have ht : MemOk t := h.queueEntry e
    exact ht.writeQueueWord.setHead

/-- The function itself, for the reason that `queueEntry_cases` gives. -/
theorem State.headWait_eq : State.headWait = fun s q on =>
    let (ws, s1) := s.queueEntry q
    s1.writeQueueWord q 3 (withField (ws.getD 3 0) 63 1 (if on then 1 else 0)) := rfl

theorem MemOk.headWait {s q on} (h : MemOk s) : MemOk (s.headWait q on) := by
  rw [State.headWait_eq]
  beta_reduce
  split
  next t e =>
    have ht : MemOk t := h.queueEntry e
    exact ht.writeQueueWord

theorem MemOk.tryHead? {s q x} (h : MemOk s) (e : s.tryHead? q = x) : Maybe MemOk x := by
  subst e
  unfold State.tryHead?
  split
  · split
    · split
      · trivial
      · extract_lets clusters s1 base s2
        have hs1 : MemOk s1 := by
          unfold s1
          split
          · exact h.headWait
          · exact h
        have hs2 : MemOk s2 := hs1.setQueueState
        split
        · split
          · split
            · trivial
            · exact h.headWait.setHead
          · exact (hs2.foldl (fun _ _ ht => ht.admitGang)).passPacket
        · split
          · trivial
          · extract_lets s1'
            have hs1' : MemOk s1' := h.admitGang
            split
            · exact hs1'.setHead
            · exact hs1'.passPacket
    · trivial
  · trivial

theorem MemOk.serveQueues? {s x} (h : MemOk s) (e : s.serveQueues? = x) : Maybe MemOk x := by
  subst e
  unfold State.serveQueues?
  extract_lets qs turn
  refine Maybe.findSome _ (fun b => Maybe.findSome _ (fun b1 => ?_))
  split
  · split
    · exact Maybe.map (h.tryHead? rfl) (fun _ ht => ht.frame rfl rfl)
    · trivial
  · trivial

theorem MemOk.loadHeads? {s x} (h : MemOk s) (e : s.loadHeads? = x) : Maybe MemOk x := by
  subst e
  exact Maybe.findSome _ (fun _ => h.loadHead? rfl)

theorem MemOk.leaveCore {s gid rank core mine} (h : MemOk s) : MemOk (s.leaveCore gid rank core mine) := by
  unfold State.leaveCore
  extract_lets k entries gone dropped queries ops left k1 s1
  have hs1 : MemOk s1 := h.setCore.foldl (fun _ _ ht => ht.unparkQuery)
  exact hs1.updGang

theorem MemOk.dropLoads {s mine} (h : MemOk s) : MemOk (s.dropLoads mine) := h.frame rfl rfl

theorem MemOk.doSave {s gid g} (h : MemOk s) : MemOk (s.doSave gid g) := by
  unfold State.doSave
  extract_lets rs mine pts s1 s2 s3 s4
  have hs1 : MemOk s1 := h.foldl (fun _ _ ht => ht.leaveCore)
  have hs2 : MemOk s2 := hs1.foldl (fun _ _ ht => ht.updRole)
  have hs3 : MemOk s3 := hs2.unpark.dropLoads
  have hs4 : MemOk s4 := hs3.frame rfl rfl
  exact hs4.updGang.coresFreed

theorem MemOk.answerCtx {s q d} (h : MemOk s) : MemOk (s.answerCtx q d) := h.updRole

theorem MemOk.saveStep? {s gid x} (h : MemOk s) (e : s.saveStep? gid = x) : Maybe MemOk x := by
  subst e
  unfold State.saveStep?
  split
  · trivial
  · split
    · trivial
    · split
      · extract_lets s1
        have hs1 : MemOk s1 := h.updGang
        split
        · exact hs1.answerCtx
        · exact hs1
      · split
        · trivial
        · split
          · exact h.doSave
          · extract_lets r hd base
            split
            next t e2 =>
              have ht : MemOk t := h.vaStores e2
              exact ht.doSave.answerCtx
            · trivial
            next t _ e2 =>
              have ht : MemOk t := h.vaStores e2
              exact ht.updGang.answerCtx

theorem MemOk.rewriteRecord {s d idx r entry} (h : MemOk s) : MemOk (s.rewriteRecord d idx r entry) := by
  unfold State.rewriteRecord
  split
  next t e =>
    have ht : MemOk t := h.recordWords e
    exact ht.writeWords

theorem MemOk.enterCore {s rid core} (h : MemOk s) : MemOk (s.enterCore rid core) := by
  unfold State.enterCore
  extract_lets k slot s1
  have hs1 : MemOk s1 := h.setCore.updRole
  split
  · split
    · exact hs1.rewriteRecord
    · exact hs1
  · exact hs1

theorem MemOk.reload {s core e'} (h : MemOk s) : MemOk (s.reload core e') := by
  unfold State.reload
  extract_lets id s1
  have hs1 : MemOk s1 := h.addEntry
  split
  · exact hs1.rewriteRecord
  · exact hs1.send

theorem MemOk.lateVerdict {s v} (h : MemOk s) : MemOk (s.lateVerdict v) := by
  unfold State.lateVerdict
  split
  next t e =>
    have ht : MemOk t := h.recordWords e
    split
    · exact ht.verdictHeld
    · exact ht.verdictLogged

theorem MemOk.issueAgain {s q} (h : MemOk s) : MemOk (s.issueAgain q) := by
  unfold State.issueAgain
  split
  · exact h
  · extract_lets bad
    split
    · exact h.updRole.addPending.send
    · exact MemOk.send (h.frame rfl rfl)

theorem MemOk.restoreGang {s gid g cores} (h : MemOk s) : MemOk (s.restoreGang gid g cores) := by
  unfold State.restoreGang
  extract_lets s1 at_ s2 s3 base sa sb s4 s5 s6 s7
  have hs1 : MemOk s1 := h.setGang
  have hs2 : MemOk s2 := MemOk.foldl (hs1.frame rfl rfl) (fun _ _ ht => ht.raisePts)
  have hs3 : MemOk s3 := (hs2.foldl (fun _ _ ht => ht.trimL1)).foldl (fun _ _ ht => ht.enterCore)
  have hsa : MemOk sa := hs3.foldl (fun _ _ ht => ht.updCore)
  have hsb : MemOk sb := by
    unfold sb
    refine hsa.foldl (fun _ a ht => ?_)
    extract_lets c s1'
    have hs1' : MemOk s1' := ht.updCore
    split
    · exact hs1'.rewriteRecord
    · exact hs1'
  have hs4 : MemOk s4 := hsb.foldl (fun _ _ ht => ht.reload)
  have hs5 : MemOk s5 := by
    unfold s5
    refine hs4.foldl (fun _ a ht => ?_)
    exact ht.updCore.send
  have hs6 : MemOk s6 := hs5.foldl (fun _ _ ht => ht.updCore)
  have hs7 : MemOk s7 := hs6.foldl (fun _ _ ht => ht.issueAgain)
  exact hs7.foldl (fun _ _ ht => ht.lateVerdict)

theorem MemOk.endLoad {s q} (h : MemOk s) : MemOk (s.endLoad q) := by
  unfold State.endLoad
  extract_lets r base s1
  have hs1 : MemOk s1 := by
    unfold s1
    split
    next e => exact h.vaStores e
    next e1 => exact h.vaStores e1
  exact hs1.updRole

theorem MemOk.serveSaved? {s x} (h : MemOk s) (e : s.serveSaved? = x) : Maybe MemOk x := by
  subst e
  unfold State.serveSaved?
  refine Maybe.findSome _ (fun b => Maybe.findSome _ (fun b1 => ?_))
  split
  · trivial
  · split
    · trivial
    · refine Maybe.map_any (fun a => ?_)
      split
      · exact h.restoreGang.endLoad
      · exact h.restoreGang

theorem MemOk.ctxStop {s rid o wait} (h : MemOk s) : MemOk (s.ctxStop rid o wait) := by
  unfold State.ctxStop
  split
  · exact h.holdRole
  · exact h.updRole

theorem MemOk.areaOk {s w area size x} (h : MemOk s) (e : s.areaOk w area size = x) : Ends (MemOk ·.2) (MemOk ·.2) x := by
  subst e
  exact (h.vaSpots rfl).bind (fun ⟨_, _⟩ ht => ht)

theorem MemOk.execCtxsaveBody {o s rid r} (h : MemOk s) : MemOk (execCtxsaveBody o s rid r) := by
  unfold Machine.execCtxsaveBody
  split
  next t e1 =>
    have ht : MemOk t := h.loadRecord e1
    exact ht.ctxStop
  next x _ t e =>
    have ht : MemOk t := h.loadRecord e
    extract_lets gid area size give q
    have hgive : ∀ (s : State) (x : ℕ), MemOk s → MemOk (give s x) := by
      intro s1 x1 ht1
      unfold give
      exact ht1.updRole
    split
    · exact hgive _ _ ht
    · extract_lets live need
      split
      · exact hgive _ _ ht
      · split
        · exact hgive _ _ ht
        · split
          · exact hgive _ _ ht
          · split
            · exact hgive _ _ ht
            · split
              · exact hgive _ _ ht
              · split
                next t1 e2 =>
                  have ht1 : MemOk t1 := ht.areaOk e2
                  exact ht1.holdRole
                next t1 _ e2 =>
                  have ht1 : MemOk t1 := ht.areaOk e2
                  exact hgive _ _ ht1
                next t1 e2 =>
                  have ht1 : MemOk t1 := ht.areaOk e2
                  exact ht1.updGang.updRole.send

theorem MemOk.execCtxloadBody {o s rid r} (h : MemOk s) : MemOk (execCtxloadBody o s rid r) := by
  unfold Machine.execCtxloadBody
  extract_lets area give
  have hgive : ∀ (s : State) (x : ℕ), MemOk s → MemOk (give s x) := by
    intro s1 x ht
    unfold give
    exact ht.updRole
  split
  · exact hgive _ _ h
  · split
    next t e1 =>
      have ht : MemOk t := h.loadRecord e1
      exact ht.ctxStop
    next t e =>
      have ht : MemOk t := h.loadRecord e
      extract_lets w vmid gid q
      split
      · exact hgive _ _ ht
      · extract_lets free
        split
        · exact hgive _ _ ht
        · split
          · exact hgive _ _ ht
          · split
            · exact hgive _ _ ht
            · split
              · exact hgive _ _ ht
              · exact ht.updGang.holdRole

theorem MemOk.readSpawn {s x' x} (h : MemOk s) (e : s.readSpawn x' = x) : Ends (MemOk ·.2) (MemOk ·.2) x := by
  subst e
  exact (h.vaWords rfl).bind (fun ⟨_, _⟩ ht => ht)

theorem MemOk.spawnError? {s x' code x} (h : MemOk s) (e : s.spawnError? x' code = x) : Maybe MemOk x := by
  subst e
  unfold State.spawnError?
  split
  · trivial
  next t e =>
    have ht : MemOk t := h.vaStores e
    exact ht.signal
  next t _ e =>
    have ht : MemOk t := h.vaStores e
    exact ht.signal

theorem MemOk.spawnError {s x' code} (h : MemOk s) : MemOk (s.spawnError x' code) := Maybe.getD (h.spawnError? rfl) h

theorem MemOk.formBatch? {s qva vmid asid x} (h : MemOk s) (e : s.formBatch? qva vmid asid = x) : Maybe MemOk x := by
  subst e
  unfold State.formBatch?
  split
  · trivial
  · split
    · trivial
    · split
      · trivial
      next t e1 =>
        have ht : MemOk t := h.readSpawn e1
        split
        · trivial
        · split
          next t1 e3 =>
            have ht1 : MemOk t1 := ht.readShape e3
            exact ht1.updSpawn
          · trivial
          next t1 e3 =>
            have ht1 : MemOk t1 := ht.readShape e3
            exact ht1.spawnError
          next t1 e3 =>
            have ht1 : MemOk t1 := ht.readShape e3
            exact ht1.spawnError

theorem MemOk.takeBatch? {s x' x} (h : MemOk s) (e : s.takeBatch? x' = x) : Maybe MemOk x := by
  subst e
  unfold State.takeBatch?
  split
  · trivial
  · split
    next t _ e1 _ =>
      have ht : MemOk t := h.readSpawn e1
      split
      · trivial
      · extract_lets taken g gang args gone
        split
        · trivial
        next t1 e4 =>
          have ht1 : MemOk t1 := ht.vaStores e4
          exact ht1.admitGang.updSpawn
    · trivial

theorem MemOk.serveSpawns? {s x} (h : MemOk s) (e : s.serveSpawns? = x) : Maybe MemOk x := by
  subst e
  exact Maybe.findSome _ (fun _ => h.takeBatch? rfl)

theorem MemOk.admitStep? {s x} (h : MemOk s) (e : s.admitStep? = x) : Maybe MemOk x := by
  subst e
  unfold State.admitStep?
  split
  next e => exact h.loadHeads? e
  · split
    next e1 => exact h.serveSaved? e1
    · split
      next e2 => exact h.serveSpawns? e2
      · exact h.serveQueues? rfl

theorem MemOk.preempt? {s x} (h : MemOk s) (e : s.preempt? = x) : Maybe MemOk x := by
  subst e
  unfold State.preempt?
  split
  · trivial
  · refine Maybe.findSome _ (fun b => ?_)
    split
    · trivial
    · split
      · split
        · trivial
        · exact Maybe.map_any (fun _ => h.updGang.send)
      · trivial

theorem MemOk.passBatches {s x' gid x} (h : MemOk s) (e : s.passBatches x' gid = x) : Maybe MemOk x := by
  subst e
  unfold State.passBatches
  extract_lets bs gone s1
  have hs1 : MemOk s1 := h.updSpawn
  split
  · exact hs1
  · split
    · trivial
    next e => exact hs1.readSpawn e
    next t e =>
      have ht : MemOk t := hs1.readSpawn e
      split
      · trivial
      next e1 => exact ht.vaStores e1
      next e1 => exact ht.vaStores e1

theorem MemOk.doneFailed? {s g x} (h : MemOk s) (e : s.doneFailed? g = x) : Maybe MemOk x := by
  subst e
  unfold State.doneFailed?
  split
  · exact h.queueError
  · split
    · exact h.spawnError? rfl
    · exact h

theorem MemOk.doneAdd? {s g x} (h : MemOk s) (e : s.doneAdd? g = x) : Maybe MemOk x := by
  subst e
  unfold State.doneAdd?
  split
  · exact h
  · split
    next e => exact h.tick.vaAdd e
    · trivial
    next t _ e =>
      have ht : MemOk t := h.tick.vaAdd e
      exact ht.doneFailed? rfl

theorem MemOk.removeRoles {s gid} (h : MemOk s) : MemOk (s.removeRoles gid) := h.frame rfl rfl

theorem MemOk.retireStep? {s gid x} (h : MemOk s) (e : s.retireStep? gid = x) : Maybe MemOk x := by
  subst e
  unfold State.retireStep?
  split
  · trivial
  · split
    · split
      · trivial
      · exact h.frame rfl rfl
    · split
      · trivial
      · split
        · trivial
        next t e1 =>
          have ht : MemOk t := h.doneAdd? e1
          extract_lets s2 s3
          have hs2 : MemOk s2 := ht.updGang
          have hs3 : Maybe MemOk s3 := by
            unfold s3
            split
            · split
              · exact hs2.passBatches rfl
              · exact hs2
            · exact hs2
          clear_value s3
          split
          · exact hs2
          next t1 =>
            have ht1 : MemOk t1 := hs3
            exact ht1.removeRoles.updGang.coresFreed

theorem MemOk.handlerWord {s f} (h : MemOk s) (hf : ∀ rid r, MemOk (f rid r)) : OutOk (handlerWord s f) := by
  unfold Machine.handlerWord
  refine MemOk.onRole (fun rid r => ?_)
  split
  · exact hf _ _
  · exact h.trap

theorem MemOk.privWord {s f} (h : MemOk s) (hf : ∀ rid r, MemOk (f rid r)) : OutOk (privWord s f) := by
  unfold Machine.privWord
  refine MemOk.onRole (fun rid r => ?_)
  split
  · exact hf _ _
  · exact h.trap

theorem MemOk.physCause {s d pa vmid x} (h : MemOk s) (e : s.physCause d pa vmid = x) : Maybe (MemOk ·.2) x := by
  subst e
  unfold State.physCause
  split
  · exact h
  · split
    · exact h
    · split
      · exact h
      · split
        next t _ e =>
          have ht : MemOk t := h.readCheck e
          split
          · exact ht
          · trivial

theorem MemOk.pushPacket {s r q e' packet} (h : MemOk s) : MemOk (s.pushPacket r q e' packet) := by
  unfold State.pushPacket
  extract_lets t s1 base
  have ht : MemOk t := h.tick
  have hs1 : MemOk s1 := ht.writeWords
  exact hs1.writeQueueWord.setQueueState

theorem MemOk.execLaunch {o s} (h : MemOk s) : OutOk (execLaunch o s) := by
  -- the reads are generalized, so that no comparison of terms unfolds them
  refine MemOk.onRole (s := s) (fun rid r => ?_)
  extract_lets va q
  split
  · exact h.trap
  · split
    · exact h.setRole
    · split
      · exact h.setRole
      · generalize hp : s.physCause (dieOf r.core) (s.queueAddr q) 0 = p
        match p, hp with
        | some (c, t), e =>
          have ht : MemOk t := h.physCause e
          exact ht.loadFault
        | none, _ =>
          generalize hq : s.queueEntry q = y
          match y, hq with
          | (e, t), e2 =>
            have ht : MemOk t := h.queueEntry e2
            dsimp -zeta only
            split
            · exact ht.setQueueState.trap
            · split
              · exact ht.trap
              · split
                next t1 e4 =>
                  have ht1 : MemOk t1 := ht.loadRecord e4
                  exact ht1.stopRole
                next t1 e3 =>
                  have ht1 : MemOk t1 := ht.loadRecord e3
                  split
                  · exact ht1.updRole
                  · split
                    next t2 e4 =>
                      have ht2 : MemOk t2 := ht1.physCause e4
                      exact ht2.loadFault
                    · exact ht1.pushPacket.updRole

theorem MemOk.execSread {o s} (h : MemOk s) : OutOk (execSread o s) := by
  unfold Machine.execSread
  refine MemOk.onRole (fun rid r => ?_)
  extract_lets n
  split
  · exact h.trap
  · exact h.setRole

theorem MemOk.execSwrite {o s} (h : MemOk s) : OutOk (execSwrite o s) := by
  unfold Machine.execSwrite
  refine MemOk.onRole (fun rid r => ?_)
  extract_lets n v s1
  have hs1 : MemOk s1 := by
    unfold s1
    split
    · exact h.raisePts
    · split
      · exact h.writeHashsel
      · exact h
  split
  · exact h.trap
  · split
    · exact h.trap
    · exact hs1.setRole

theorem MemOk.invalidate {s k} (h : MemOk s) : MemOk (s.invalidate k) := h.frame rfl rfl

theorem MemOk.execTlbinv {o s} (h : MemOk s) : OutOk (execTlbinv o s) := by
  unfold Machine.execTlbinv
  refine h.privWord (fun rid r => ?_)
  extract_lets a n kind
  split
  · exact h.trap
  · split
    · exact h.setRole
    · exact h.invalidate.updRole

theorem MemOk.flushRanges {s r va last n x} (h : MemOk s) (e : s.flushRanges r va last n = x) : MemOk x.2 := by
  subst e
  induction n generalizing s r va last with
    | zero => exact h
    | succ n ih =>
      rw [State.flushRanges]
      split
      · exact h
      · extract_lets stop
        refine ih ?_
        split
        · exact h
        · split
          next e => exact h.walk e
          next e => exact h.walk e

theorem MemOk.flushLines {s ranges x} (h : MemOk s) (e : s.flushLines ranges = x) : Maybe MemOk x := by
  subst e
  unfold State.flushLines
  extract_lets ls
  split
  · exact h.foldl (fun _ _ ht => ht.dropLine)
  · trivial

theorem MemOk.execLflush {o s} (h : MemOk s) : OutOk (execLflush o s) := by
  unfold Machine.execLflush
  refine MemOk.onRole (fun rid r => ?_)
  extract_lets a n pa
  split
  · split
    · exact h.trap
    · split
      · exact h.trap
      · split
        · exact h.setRole
        · have hd : MemOk (if n = 0 then ([], s) else ([(BitVec.toNat a, n)], s)).2 := by
            split
            · exact h
            · exact h
          split
          next t e1 =>
            have ht : MemOk t := by rw [e1] at hd; exact hd
            split
            · exact ht.updRole
            next t1 e2 =>
              have ht1 : MemOk t1 := ht.flushLines e2
              exact ht1.updRole
  · split
    · exact h.trap
    · split
      · exact h.trap
      · split
        · exact h.setRole
        · have hd : MemOk (if n = 0 then ([], s) else s.flushRanges r (BitVec.toNat a) (BitVec.toNat a + n - 1) (n / 2 ^ 16 + 2)).2 := by
            split
            · exact h
            · exact h.flushRanges rfl
          split
          next t e =>
            have ht : MemOk t := by rw [e] at hd; exact hd
            split
            · exact ht.updRole
            next t1 e1 =>
              have ht1 : MemOk t1 := ht.flushLines e1
              exact ht1.updRole

theorem MemOk.execLinv {o s} (h : MemOk s) : OutOk (execLinv o s) := by
  unfold Machine.execLinv
  refine h.handlerWord (fun rid r => ?_)
  extract_lets lo n s1 s2
  have hs1 : MemOk s1 := h.updCore
  have hs2 : MemOk s2 := by
    unfold s2
    refine hs1.foldl (fun _ a ht => ?_)
    split
    · exact ht.updRole
    · exact ht
  exact hs2.updRole

theorem MemOk.settledWord {s f} (h : MemOk s) (hf : ∀ rid r, MemOk (f rid r)) : OutOk (settledWord s f) := by
  unfold Machine.settledWord
  refine h.handlerWord (fun rid r => ?_)
  split
  · exact h.setRole
  · split
    · exact h.setRole
    · exact hf _ _

theorem MemOk.execLogreplay {o s} (h : MemOk s) : OutOk (execLogreplay o s) := by
  unfold Machine.execLogreplay
  refine h.privWord (fun rid r => ?_)
  exact h.verdict.updRole

theorem MemOk.execFqpop {o s} (h : MemOk s) : OutOk (execFqpop o s) := by
  unfold Machine.execFqpop
  refine h.privWord (fun rid r => ?_)
  extract_lets d idx
  split
  · split
    · exact h.setRole
    · exact h.setRole
  · exact h.writeCons.setRole

theorem MemOk.haltRole {s rid r own} (h : MemOk s) : MemOk (s.haltRole rid r own) := by
  unfold State.haltRole
  split
  · exact h.discardLog.endRole
  · exact h.updRole

end Sys2Proof.Machine
end

section
/-! SUPPORT. Canonical memory is kept by snapshots, migration and what comes from outside. -/
namespace Sys2Proof.Machine

theorem MemOk.changeWord {s e' d pa f x} (h : MemOk s) (e : s.changeWord e' d pa f = x) : MemOk x.2 := by
  subst e
  unfold State.changeWord
  split
  next t e =>
    have ht : MemOk t := h.rmwIn e
    exact ht.tickOf

theorem MemOk.putWord {s e' d pa x'} (h : MemOk s) : MemOk (s.putWord e' d pa x') := h.changeWord rfl

theorem MemOk.getWord {s e' d pa x} (h : MemOk s) (e : s.getWord e' d pa = x) : MemOk x.2 := by
  subst e
  unfold State.getWord
  split
  next t e =>
    have ht : MemOk t := h.readIn e
    exact ht.tickOf

theorem MemOk.freeTake {s e' d t x} (h : MemOk s) (e : s.freeTake e' d t = x) : Maybe (MemOk ·.2) x := by
  subst e
  unfold State.freeTake
  split
  · trivial
  · split
    next t1 e1 =>
      have ht1 : MemOk t1 := h.getWord e1
      exact ht1.setRegField

theorem MemOk.freePut {s x'} (h : MemOk s) : MemOk (s.freePut x') := h.putWord.setRegField

theorem MemOk.giveBack {s x'} (h : MemOk s) : MemOk (s.giveBack x') := by
  unfold State.giveBack
  extract_lets waiting s1
  have hs1 : MemOk s1 := h.updDie
  split
  · exact h.freePut
  · split
    · exact hs1
    · exact hs1.signal

theorem MemOk.returnAll {s d t n} (h : MemOk s) : MemOk (s.returnAll d t n) := by
  induction n generalizing s d t with
    | zero => exact h
    | succ n ih =>
      rw [State.returnAll]
      split
      · exact h
      · split
        · exact ih h.updDie.freePut
        · exact h

theorem MemOk.dropPage {s leafAddr frame} (h : MemOk s) : MemOk (s.dropPage leafAddr frame) := h.frame rfl rfl

theorem MemOk.flushFrame {s frame} (h : MemOk s) : MemOk (s.flushFrame frame) := h.foldl (fun _ _ ht => ht.dropLine)

theorem MemOk.copyFrame {s e' src dst vmid} (h : MemOk s) : MemOk (s.copyFrame e' src dst vmid) := by
  unfold State.copyFrame
  refine h.flushFrame.foldl (fun _ a ht => ?_)
  exact ht.countWeak.storeLine.updDie.tickOf

theorem MemOk.lockLeaf {s e' d leafAddr frame x} (h : MemOk s) (e : s.lockLeaf e' d leafAddr frame = x) : MemOk x.2 := by
  subst e
  unfold State.lockLeaf
  extract_lets good
  split
  next t1 e =>
    have ht1 : MemOk t1 := h.changeWord e
    exact ht1.frame rfl rfl

theorem MemOk.openLeaf {s e' d leafAddr dest} (h : MemOk s) : MemOk (s.openLeaf e' d leafAddr dest) := by
  unfold State.openLeaf
  split
  next t e =>
    have ht : MemOk t := h.getWord e
    exact ht.putWord

theorem MemOk.pageDone {s e'} (h : MemOk s) : MemOk (s.pageDone e') := h.wakeWalks.replayWaiting

theorem MemOk.reclaimSlot {s d chainAddr k x' x} (h : MemOk s) (e : s.reclaimSlot d chainAddr k x' = x) : MemOk x.2 := by
  subst e
  unfold State.reclaimSlot
  extract_lets s1 s2 ret
  have hs1 : MemOk s1 := h.changeWord rfl
  have hs2 : MemOk s2 := hs1.frame rfl rfl
  exact hs2.giveBack

theorem MemOk.setCow {s d j} (h : MemOk s) : MemOk (s.setCow d j) := h.updDie

theorem MemOk.endCow {s d j} (h : MemOk s) : MemOk (s.endCow d j) := h.updDie.pageDone

theorem MemOk.clearBusy {s d j} (h : MemOk s) : MemOk (s.clearBusy d j) := h.changeWord rfl

theorem MemOk.cowLock {s d j dest} (h : MemOk s) : MemOk (s.cowLock d j dest) := by
  unfold State.cowLock
  split
  next t e =>
    have ht : MemOk t := h.lockLeaf e
    exact ht.dropPage.setCow
  next t e =>
    have ht : MemOk t := h.lockLeaf e
    extract_lets base ret s2
    have hs2 : MemOk s2 := ht.giveBack
    split
    · exact hs2.setCow
    · exact hs2.clearBusy.endCow

theorem MemOk.cowFrame {s d j} (h : MemOk s) : MemOk (s.cowFrame d j) := by
  unfold State.cowFrame
  split
  · exact h.setCow
  next t e =>
    have ht : MemOk t := h.freeTake e
    exact ht.cowLock

theorem MemOk.cowReclaim {s d j n} (h : MemOk s) : MemOk (s.cowReclaim d j n) := by
  induction n generalizing s d j with
    | zero => exact h.cowFrame
    | succ n ih =>
      rw [State.cowReclaim]
      split
      next t e =>
        have ht : MemOk t := h.readChain e
        exact ht.clearBusy.endCow
      next t e =>
        have ht : MemOk t := h.readChain e
        split
        · split
          · exact ht.setCow
          · split
            next t1 e2 =>
              have ht1 : MemOk t1 := ht.reclaimSlot e2
              split
              · exact ht1.setCow
              · exact ih ht1
        · split
          · extract_lets s2
            have hs2 : MemOk s2 := ht.setCow
            split
            · exact hs2
            · exact hs2.updDie.signal
          · exact ht.cowFrame

theorem MemOk.cowStart {s d j} (h : MemOk s) : MemOk (s.cowStart d j) := MemOk.cowReclaim (h.changeWord rfl)

theorem MemOk.cowGo? {s d j x} (h : MemOk s) (e : s.cowGo? d j = x) : Maybe MemOk x := by
  subst e
  unfold State.cowGo?
  split
  · trivial
  · split
    · extract_lets under
      split
      · trivial
      · exact h.cowStart
    · split
      · split
        · split
          · exact h.cowReclaim
          · trivial
        · split
          · trivial
          · exact h.cowReclaim
      · exact h.cowReclaim
    · split
      · trivial
      · exact h.cowFrame
    · trivial
    · exact h.clearBusy.endCow

theorem MemOk.cowRequest? {s d x} (h : MemOk s) (e : s.cowRequest? d = x) : Maybe MemOk x := by
  subst e
  unfold State.cowRequest?
  refine Maybe.findSome _ (fun b => ?_)
  split
  · exact h.cowGo? rfl
  · trivial

theorem MemOk.cowResume? {s d x} (h : MemOk s) (e : s.cowResume? d = x) : Maybe MemOk x := by
  subst e
  exact Maybe.findSome _ (fun _ => h.cowGo? rfl)

theorem MemOk.cowWrite {s d j dest} (h : MemOk s) : MemOk (s.cowWrite d j dest) := by
  unfold State.cowWrite
  extract_lets me
  split
  next t e =>
    have ht : MemOk t := h.getWord e
    extract_lets slot s2 s3 s4
    have hs2 : MemOk s2 := ht.putWord
    have hs3 : MemOk s3 := hs2.putWord
    have hs4 : MemOk s4 := hs3.putWord
    exact hs4.openLeaf.clearBusy

theorem MemOk.cowComplete {s d j dest dataError} (h : MemOk s) : MemOk (s.cowComplete d j dest dataError) := by
  unfold State.cowComplete
  extract_lets s1 base ret base' s2 s2'
  have hs1 : MemOk s1 := h.dropPage.flushFrame
  have hbase' : MemOk base' := hs1.retireFrame
  have hs2 : MemOk s2 := MemOk.giveBack (hbase'.frame rfl rfl)
  have hs2' : MemOk s2' := hs1.copyFrame.cowWrite
  split
  · split
    · exact hs2.setCow.pageDone
    · exact hs2.clearBusy.endCow
  · exact hs2'.updDie.endCow

theorem MemOk.anyOf {s n x} (h : MemOk s) (e : s.anyOf n = x) : MemOk x.2 := by
  subst e
  unfold State.anyOf
  split
  · exact h
  · exact h.frame rfl rfl

theorem MemOk.execSnapshotCopyComplete {die dataError s} (h : MemOk s) : OutOk (execSnapshotCopyComplete die dataError s) := by
  unfold Machine.execSnapshotCopyComplete
  extract_lets ready
  split
  next t1 e =>
    have ht1 : MemOk t1 := h.anyOf e
    split
    · exact ht1.cowComplete
    · exact h

theorem MemOk.sweepStep {s d} (h : MemOk s) : MemOk (s.sweepStep d) := by
  unfold State.sweepStep
  extract_lets x
  split
  · exact h
  · split
    · split
      · exact h.updDie
      · split
        next t e2 =>
          have ht : MemOk t := h.readChain e2
          exact ht.updDie
        next t e2 =>
          have ht : MemOk t := h.readChain e2
          extract_lets w0 mine
          split
          · exact ht.updDie
          · split
            next t1 e4 =>
              have ht1 : MemOk t1 := ht.reclaimSlot e4
              exact ht1.updDie

theorem MemOk.setMigBit {s d t i b} (h : MemOk s) : MemOk (s.setMigBit d t i b) := h.setRegField

theorem MemOk.clearAccess {s d t i} (h : MemOk s) : MemOk (s.clearAccess d t i) := h.updDie

theorem MemOk.sweepFrom {s d t n n1 a x} (h : MemOk s) (e : s.sweepFrom d t n n1 a = x) : MemOk x.2.2 := by
  subst e
  induction n generalizing s d t n1 a with
    | zero => exact h
    | succ n ih =>
      rw [State.sweepFrom]
      split
      · exact ih h
      · split
        · exact ih h.clearAccess
        · exact h

theorem MemOk.setMig {s d t j} (h : MemOk s) : MemOk (s.setMig d t j) := h.updDie

theorem MemOk.migCount {s d t x} (h : MemOk s) (e : s.migCount d t = x) : Maybe MemOk x := by
  subst e
  unfold State.migCount
  extract_lets va
  split
  next e => exact h.vaAdd e
  · trivial
  next e => exact h.vaAdd e

theorem MemOk.migFinish {s d t j} (h : MemOk s) : MemOk (s.migFinish d t j) := by
  unfold State.migFinish
  split
  next t1 e =>
    have ht1 : MemOk t1 := h.migCount e
    exact ht1.setMig
  · exact h.setMig

theorem MemOk.migReturn {s d t j ret count} (h : MemOk s) : MemOk (s.migReturn d t j ret count) := by
  unfold State.migReturn
  extract_lets s1
  have hs1 : MemOk s1 := h.giveBack
  split
  · exact hs1.setMig
  · split
    · exact hs1.migFinish
    · exact hs1.setMig

theorem MemOk.migTake {s d t j} (h : MemOk s) : MemOk (s.migTake d t j) := by
  unfold State.migTake
  split
  · exact h.setMig
  · split
    · exact h.setMig.setMigBit
    · split
      · exact h.setMig
      next t1 e1 =>
        have ht1 : MemOk t1 := h.freeTake e1
        split
        next t2 e2 =>
          have ht2 : MemOk t2 := ht1.lockLeaf e2
          exact ht2.dropPage.setMig
        next t2 e2 =>
          have ht2 : MemOk t2 := ht1.lockLeaf e2
          exact ht2.migReturn

theorem MemOk.migBegin {s d t} (h : MemOk s) : MemOk (s.migBegin d t) := by
  unfold State.migBegin
  extract_lets s0 hand
  have hs0 : MemOk s0 := h.updDie
  split
  next t1 e =>
    have ht1 : MemOk t1 := hs0.sweepFrom e
    split
    · exact ht1
    · exact ht1.setMigBit
  next t1 e =>
    have ht1 : MemOk t1 := hs0.sweepFrom e
    split
    · exact ht1.setRegField.migTake

theorem MemOk.migStart? {s d t x} (h : MemOk s) (e : s.migStart? d t = x) : Maybe MemOk x := by
  subst e
  unfold State.migStart?
  split
  · split
    · trivial
    · extract_lets s1
      have hs1 : MemOk s1 := h.setMigBit
      split
      · exact hs1.signal
      · exact hs1
  · split
    · trivial
    · split
      · exact h.migBegin
      · split
        · exact h.updDie
        · trivial

theorem MemOk.migResume? {s d t x} (h : MemOk s) (e : s.migResume? d t = x) : Maybe MemOk x := by
  subst e
  unfold State.migResume?
  split
  · trivial
  · split
    · trivial
    · split
      · split
        · trivial
        · exact h.migTake
      · trivial
      · exact Maybe.map (h.migCount rfl) (fun _ ht => ht.setMig)
      · exact h.setMig

theorem MemOk.migWrite {s d j dest} (h : MemOk s) : MemOk (s.migWrite d j dest) := by
  unfold State.migWrite
  extract_lets s1
  have hs1 : MemOk s1 := h.openLeaf
  split
  · split
    · extract_lets s2
      have hs2 : MemOk s2 := hs1.putWord.putWord
      exact hs2.putWord.putWord

theorem MemOk.migComplete {s d t j dest dataError} (h : MemOk s) : MemOk (s.migComplete d t j dest dataError) := by
  unfold State.migComplete
  extract_lets s1 base s2 s2'
  have hs1 : MemOk s1 := h.dropPage.flushFrame
  have hbase : MemOk base := hs1.retireFrame
  have hs2 : MemOk s2 := hbase.frame rfl rfl
  have hs2' : MemOk s2' := hs1.copyFrame.migWrite.pageDone
  split
  · exact hs2.migReturn.pageDone
  · exact hs2'.migReturn

theorem MemOk.execMigrationComplete {die tier dataError s} (h : MemOk s) : OutOk (execMigrationComplete die tier dataError s) := by
  unfold Machine.execMigrationComplete
  split
  · exact h.migComplete
  · exact h

theorem MemOk.setSeam {s a b m} (h : MemOk s) : MemOk (s.setSeam a b m) := h.frame rfl rfl

theorem MemOk.seamIdle {s a b} (h : MemOk s) : MemOk (s.seamIdle a b) := by
  unfold State.seamIdle
  extract_lets m
  split
  · exact h.setSeam
  · exact h

theorem MemOk.seamFail {s a b} (h : MemOk s) : MemOk (s.seamFail a b) := by
  unfold State.seamFail
  extract_lets m
  split
  · exact h
  · exact h.setSeam.send

theorem MemOk.declareDead {s dead} (h : MemOk s) : MemOk (s.declareDead dead) := h.sendAll

theorem MemOk.retrainTimeout {s a b passA passB} (h : MemOk s) : MemOk (s.retrainTimeout a b passA passB) := by
  unfold State.retrainTimeout
  extract_lets m
  split
  · exact h
  · exact h.setSeam.declareDead

theorem MemOk.beat {s d} (h : MemOk s) : MemOk (s.beat d) := by
  unfold State.beat
  split
  · exact h
  · refine h.foldl (fun _ a ht => ?_)
    split
    · exact ht
    · exact ht.frame rfl rfl

theorem MemOk.execHeartbeatTimeout {die peer s} (h : MemOk s) : OutOk (execHeartbeatTimeout die peer s) := by
  unfold Machine.execHeartbeatTimeout
  split
  · exact MemOk.frame (s := s.declareDead peer.val) h.declareDead rfl rfl
  · exact h

theorem MemOk.cutMessages {s d} (h : MemOk s) : MemOk (s.cutMessages d) := by
  unfold State.cutMessages
  extract_lets keep ofDie held s1 s2
  have hs1 : MemOk s1 := h.frame rfl rfl
  have hs2 : MemOk s2 := hs1.foldl (fun _ _ ht => ht.failCmd)
  refine hs2.foldl (fun _ a ht => ?_)
  split
  · exact ht
  · exact ht.setSeam

theorem MemOk.moveProxy {s d line} (h : MemOk s) : MemOk (s.moveProxy d line) := by
  unfold State.moveProxy
  extract_lets h' live top s1 s2 s3
  have hs1 : MemOk s1 := by
    unfold s1
    refine h.foldl (fun _ a ht => ?_)
    extract_lets waits
    split
    · split
      · exact ht
      · exact ht.storeLine.sendAll
    · exact ht
  have hs2 : MemOk s2 := hs1.foldl (fun _ _ ht => ht.updDie)
  have hs3 : MemOk s3 := hs2.updDie
  refine hs3.foldl (fun _ a ht => ?_)
  split
  · exact ht.sendMsg
  · exact ht

theorem MemOk.txWithout {s x' d t} (h : MemOk s) : MemOk (s.txWithout x' d t) := by
  unfold State.txWithout
  extract_lets lost hts
  split
  · split
    · exact h.serveRead
    · exact h
  · split
    · refine MemOk.homeInvack ?_
      split
      · exact h.updDie
      · exact h
    · split
      · exact h.homeReply
      · exact h

theorem MemOk.dropAgent {s x' d} (h : MemOk s) : MemOk (s.dropAgent x' d) := by
  unfold State.dropAgent
  extract_lets y s1 s2 s3 entries s4
  have hs1 : MemOk s1 := h.setDie
  have hs2 : MemOk s2 := hs1.foldl (fun _ _ ht => ht.txWithout)
  have hs3 : MemOk s3 := by
    unfold s3
    refine hs2.foldl (fun _ a ht => ?_)
    split
    · exact ht.homeBack
    · exact ht
  have hs4 : MemOk s4 := hs3.foldl (fun _ _ ht => ht.homeEvc)
  exact hs4.foldl (fun _ _ ht => ht.wake)

theorem MemOk.loseDie {s d lines} (h : MemOk s) : MemOk (s.loseDie d lines) := by
  unfold State.loseDie
  refine ((h.foldl (fun _ a ht => ?_)).foldl (fun _ _ ht => ht.moveProxy)).signal
  split
  · exact ht
  · exact ht.dropAgent

theorem MemOk.dropHome {s x' d} (h : MemOk s) : MemOk (s.dropHome x' d) := by
  unfold State.dropHome
  extract_lets lost y s1 keep s2
  have hs1 : MemOk s1 := h.setDie
  have hs2 : MemOk s2 := hs1.frame rfl rfl
  exact hs2.sendAll

theorem MemOk.actOnDeath {s x' d} (h : MemOk s) : MemOk (s.actOnDeath x' d) := by
  unfold State.actOnDeath
  split
  · exact h
  · extract_lets mark
    have hmark : ∀ (s : State), MemOk s → MemOk (mark s) := by
      intro s1 ht
      unfold mark
      exact ht.updDie
    refine MemOk.dropHome ?_
    split
    · exact hmark _ h
    · exact (hmark _ h.cutMessages).loseDie

theorem MemOk.podPerform {s r} (h : MemOk s) : MemOk (s.podPerform r) := by
  unfold State.podPerform
  extract_lets pa h'
  split
  · exact h.signal
  · split
    next t _ e =>
      have ht : MemOk t := h.readCheck e
      split
      · exact ht.signal
      · split
        · split
          next t1 e2 =>
            have ht1 : MemOk t1 := h.readIn e2
            exact ht1.tick.signal
        · split
          next t1 e1 =>
            have ht1 : MemOk t1 := h.rmwIn e1
            split
            · exact ht1.tick.signal
            · exact ht1.tick

theorem MemOk.drainPods {s d f n} (h : MemOk s) : MemOk (s.drainPods d f n) := by
  induction n generalizing s d f with
    | zero => exact h
    | succ n ih =>
      rw [State.drainPods]
      split
      · exact h
      · extract_lets s1
        have hs1 : MemOk s1 := h.setDie
        exact ih hs1.nextSeq.podPerform

theorem MemOk.podServe {s r} (h : MemOk s) : MemOk (s.podServe r) := by
  unfold State.podServe
  extract_lets d x
  split
  · exact h.signal
  · split
    · exact h.podPerform
    · exact h.nextSeq.podPerform.drainPods
    · exact h.countError
    · exact h.setDie
    · exact h.signal

theorem MemOk.hostObtain {s line write asked n} (h : MemOk s) : MemOk (s.hostObtain line write asked n) := by
  induction n generalizing s line write asked with
    | zero => exact h
    | succ n ih =>
      rw [State.hostObtain]
      split
      · exact h
      · extract_lets h' s1
        have hs1 : MemOk s1 := by
          unfold s1
          split
          · exact h
          · exact h.send
        split
        · exact hs1
        next t e =>
          have ht : MemOk t := hs1.runFirst? e
          exact ih ht

theorem MemOk.hostWrite {s r l} (h : MemOk s) : MemOk (s.hostWrite r l) := by
  unfold State.hostWrite
  extract_lets off old data s1
  have hs1 : MemOk s1 := h.putHeld.homeMirw
  split
  · exact hs1.signal
  · exact hs1

theorem MemOk.hostLater {s r} (h : MemOk s) : MemOk (s.hostLater r) := h.frame rfl rfl

theorem MemOk.hostDevice {s r} (h : MemOk s) : MemOk (s.hostDevice r) := by
  unfold State.hostDevice
  extract_lets line write base s1
  have hbase : MemOk base := h.claim
  have hs1 : MemOk s1 := MemOk.hostObtain (hbase.frame rfl rfl)
  split
  · exact h.signal
  · split
    · exact h.hostLater
    · split
      · split
        · exact hs1.signal
        · split
          · exact hs1.hostWrite
          · exact hs1.signal
      · exact hs1.signal

theorem MemOk.hostOwn {s r} (h : MemOk s) : MemOk (s.hostOwn r) := by
  unfold State.hostOwn
  extract_lets line s1 x off old h'
  have hs1 : MemOk s1 := h.dropLine
  split
  · exact h.hostLater
  · split
    · exact hs1.signal
    · extract_lets s2
      have hs2 : MemOk s2 := hs1.hostStore.updDie
      split
      · exact hs2.signal
      · exact hs2

theorem MemOk.hostWindow {s r} (h : MemOk s) : MemOk (s.hostWindow r) := by
  unfold State.hostWindow
  split
  · exact h.signal
  · split
    · exact h.signal
    · exact h.writeReg
    · exact h.signal

theorem MemOk.hostServe {s r} (h : MemOk s) : MemOk (s.hostServe r) := by
  unfold State.hostServe
  extract_lets window bootstat
  split
  · exact h.signal
  · split
    · exact h.hostWindow
    · split
      · exact h.signal
      · split
        · exact h.hostOwn
        · exact h.hostDevice

theorem MemOk.scrub {s d tier frame corrected bad} (h : MemOk s) : MemOk (s.scrub d tier frame corrected bad) := by
  unfold State.scrub
  extract_lets t f mine base s1
  have hbase : MemOk base := h.countErrors
  have hs1 : MemOk s1 := hbase.frame rfl rfl
  split
  · exact h
  · split
    · exact hs1.retireFrame
    · exact hs1

theorem MemOk.bootStep {s o n} (h : MemOk s) : MemOk (s.bootStep o n) := by
  unfold State.bootStep
  extract_lets each
  have heach : ∀ (f : DieState → DieState), MemOk (each f) := by
    intro f
    unfold each
    exact h.foldl (fun _ _ ht => ht.updDie)
  split
  · exact heach _
  · exact h.frame rfl rfl
  · exact heach _
  · exact heach _
  · exact heach _
  · exact h

theorem MemOk.bringUp {s o} (h : MemOk s) : MemOk (s.bringUp o) := by
  unfold State.bringUp
  split
  · exact h
  · extract_lets n s1
    have hs1 : MemOk s1 := h.foldl (fun _ _ ht => ht.bootStep)
    split
    · exact MemOk.signal (hs1.frame rfl rfl)
    · split
      · exact hs1.frame rfl rfl
      · split
        next t e =>
          have ht : MemOk t := hs1.fresh e
          exact ht.frame rfl rfl

end Sys2Proof.Machine
end

section
/-! SUPPORT. Canonical memory is kept by every meaning, the choice of what runs, and a step. -/
namespace Sys2Proof.Machine

/-- Every step of the device and every instruction, by its meaning. -/
theorem MemOk.exec {i s} (h : MemOk s) : OutOk (exec i s) := by
  unfold Machine.exec
  cases i
  all_goals dsimp -zeta only
  case clauseFetch => exact h.execClauseFetch
  case clauseIssue => exact h.issueHeader
  case issueOpportunity => exact h.opportunity
  case add | sub | mul | mulhi | mad | div | rem | neg | abs | min | max | and | or | xor | not | andn | shl | shr | sar | rol | mov
    | clz | ctz | popc | brev | bfx => exact h.intA
  case sel | movi | movh | bfi | fcmp | fscale | cvt | cvts | pack | unpack | amaxrd | amaxclr | vred | vscan | vballot | vcount | vfirst
    | mfroms | mtos | getfmt | nop | viewset | bset | tack => exact h.wordStep
  case cmp => exact h.execCmp
  case addImm | subImm | mulImm | minImm | maxImm | andImm | orImm | xorImm | shlImm | shrImm | sarImm | rolImm | cmpImm => exact h.intI
  case fadd | fsub | fmul | fma | fms | fnma | fmin | fmax | fabs | fneg | fcpys | fclass | fgetexp | frnd | fdiv | fsqrt | frcpe | frsqe
    | fexp2 | flog2 => exact h.floatA
  case vbcast | vshfl | vshift | vrot => exact h.moverA
  case mand | mor | mxor | mnot | mmove => exact h.maskOp
  case bra | jmpi => exact MemOk.onRole (fun _ _ => h.transfer)
  case bc => exact h.execBc
  case call => exact h.execCall
  case ret => exact h.execRet
  case split => exact h.execSplit
  case els => exact h.execEls
  case join => exact h.execJoin
  case loop => exact h.execLoop
  case brk => exact h.execBrk
  case cont => exact h.execCont
  case exit => exact h.execExit
  case setfmt => exact h.execSetfmt
  case ld | ldsc | ldcl => exact h.loadM
  case st | stsc | stcl => exact h.storeM
  case ldsp => exact h.streamWord (fun _ _ _ _ _ _ => h.issueLoad.streamAhead)
  case stsp => exact h.streamWord (fun _ _ _ _ _ _ => h.issueStore)
  case spset => exact h.execSpset
  case pref => exact MemOk.onRole (fun _ _ => h.prefetch.updRole)
  case stmc => exact h.execStmc
  case gath => exact MemOk.onRole (fun _ _ => h.issueLoad)
  case scat => exact h.execScat
  case fence => exact h.execFence
  case atom | cas => exact h.atomMA
  case red => exact h.execRed
  case cadd => exact h.execCadd
  case cwait => exact MemOk.onRole (fun _ _ => h.waitCounter)
  case cread => exact h.execCread
  case tlwait => exact h.execTlwait
  case close | copy | tcopy | halo | ared | put | get | publish | pin | vret | fcomp | encf => exact h.cmdWord
  case qbind => exact h.execQbind
  case wverset => exact h.execWverset
  case mma | mmas | mmab => exact h.matWord
  case mscale => exact h.execMscale
  case accclr | accfl | accseq => exact h.accWrite
  case accrd => exact h.execAccrd
  case bq => exact h.execBq
  case bres => exact h.execBres
  case bproc => exact h.execBproc
  case bsave => exact h.execBsave
  case bresume => exact h.beamStart (fun _ _ _ _ _ ht => ht.loadSpill rfl)
  case babort => exact h.execBabort
  case launch => exact h.execLaunch
  case enqr => exact h.execEnqr
  case enqc => exact h.execEnqc
  case yield => exact MemOk.onRole (fun _ _ => h.setRole.updCore)
  case trap => exact MemOk.onRole (fun _ _ => h.trapWith)
  case tret => exact h.handlerWord (fun _ _ => h.setRole)
  case sread => exact h.execSread
  case swrite => exact h.execSwrite
  case tlbinv => exact h.execTlbinv
  case lflush => exact h.execLflush
  case linv => exact h.execLinv
  case ctxsave => exact h.settledWord (fun _ _ => h.execCtxsaveBody)
  case ctxload => exact h.settledWord (fun _ _ => h.execCtxloadBody)
  case logreplay => exact h.execLogreplay
  case fqpop => exact h.execFqpop
  case halt => exact h.handlerWord (fun _ _ => h.foldl (fun _ _ ht => ht.haltRole))
  case ldreq => exact h.sliceLoad
  case lddata | renew => exact h.takeLine
  case streq => exact h.sliceStore
  case stdone => exact h.takeStdone
  case gets | getm | upgm | fwds | fwdm | data | gnt | inv | invack | binv | back | mirw | mack | evc | homeQueueStart | victimBufferFree
    | l2FillResume | seamWake | seamWakeDone | seamRetrainComplete => exact h.runMsg
  case accLineUpdate => exact h.applyUpdate
  case reductionResend => exact h.execReductionResend
  case matrixResultSend => exact h.matSend
  case matrixBReadsDone => exact h.matReads
  case flowTransferReceive => exact h.receive
  case flowResend => exact h.setDie.foldl (fun _ _ ht => ht.sendMsg)
  case engineCommandAccept => exact h.accept
  case engineCommandStart => exact h.startCtx
  case engineCommandComplete => exact h.completeCmd
  case engineCommandFail => exact h.failCmd
  case publishFire => exact h.publishFire
  case snapshotCopyRequest => exact Maybe.getD (h.cowRequest? rfl) h
  case snapshotCopyResume => exact Maybe.getD (h.cowResume? rfl) h
  case snapshotCopyComplete => exact h.execSnapshotCopyComplete
  case reclaimSweep => exact h.sweepStep
  case migrationStart => exact Maybe.getD (h.migStart? rfl) h
  case migrationResume => exact Maybe.getD (h.migResume? rfl) h
  case migrationComplete => exact h.execMigrationComplete
  case frameReturnResume => exact h.returnAll
  case dieDeadDeclaration => exact h.actOnDeath
  case launchDepMet => exact Maybe.getD (h.depStep? rfl) h
  case gangAdmit => exact Maybe.getD (h.admitStep? rfl) h
  case gangRetire => exact Maybe.getD (h.retireStep? rfl) h
  case spawnPushAccept => exact h.acceptPush
  case spawnBatchForm => exact Maybe.getD (h.formBatch? rfl) h
  case schedulerPreempt => exact Maybe.getD (h.preempt? rfl) h
  case faultRingSpace => exact h.execFaultRingSpace
  case faultVerdictRetry | faultVerdictFinal => exact h.verdict
  case sidelogReplay => exact h.replay
  case sidelogSpace | ualinkPortDown | thermalThrottle => exact h.frame rfl rfl
  case homeRefusal => exact h.refuse
  case pendingTrapTake => exact h.takePending
  case gangSaveComplete => exact Maybe.getD (h.saveStep? rfl) h
  case beamNodeVisit => exact h.beamVisit
  case beamSplitPush => exact h.beamPush
  case beamRaysComplete => exact h.beamRecords
  case cwaitWake => exact h.updRole
  case scratchpadAccess => exact h.spadAccess
  case accumulatorAccess => exact h.accAccess
  case heartbeatTimeout => exact h.execHeartbeatTimeout
  case ptsAge => exact h.updCore
  case spawnBatchTimeout => exact h.updSpawn
  case hostRequest => exact h.hostServe
  case podRequest => exact h.podServe
  case ctxControlWrite | ctxErrClear => exact h.writeCtx
  case migrationEnableWrite => exact h.writeMigration
  case patrolScrub => exact h.scrub
  case frameAttrWrite => exact h.writeAttrs
  case rclear => exact h.rclear
  case hashselWrite => exact h.writeHashsel
  case ptsWrite => exact h.raisePts
  case seamRetrainTimeout => exact h.retrainTimeout
  case doorbell => exact h.doorbell
  case faultRingConsWrite => exact h.writeCons
  case keyLoad | keyClear => exact h.keyCommand
  case partitionWrite => exact h.execPartitionWrite
  case attestRequest => exact h.attestation
  case errorCounterWrite => exact h.clearCounter
  case registerWrite => exact h.execRegisterWrite
  case bringUp => exact h.bringUp
  case thermalShutdown => exact MemOk.signal (h.frame rfl rfl)
  case seamSleep => exact h.seamIdle
  case heartbeat => exact h.beat
  case seamWakeFail => exact h.seamFail

theorem MemOk.coreWordStep {s rid r x} (h : MemOk s) (e : s.wordStep rid r = x) : PickOk x := by
  subst e
  unfold State.wordStep
  split
  · exact h
  · split
    · exact h.trapWith
    · split
      next e2 => exact h.prepare e2
      next e2 => exact h.prepare e2

theorem MemOk.recheck {s core} (h : MemOk s) : MemOk (s.recheck core) := by
  unfold State.recheck
  refine h.foldl (fun _ a ht => ?_)
  split
  · exact ht.updRole
  · exact ht

theorem MemOk.coreChoose {s core x} (h : MemOk s) (e : s.coreChoose core = x) : Maybe PickOk x := by
  subst e
  unfold State.coreChoose
  extract_lets s1
  have hs1 : MemOk s1 := h.recheck
  split
  · exact hs1
  · split
    · exact hs1
    · split
      · exact hs1
      · trivial

theorem MemOk.coreStep {s core x} (h : MemOk s) (e : s.coreStep core = x) : Maybe PickOk x := by
  subst e
  unfold State.coreStep
  split
  · trivial
  · extract_lets k idle
    have hidle : Maybe PickOk (idle ()) := h.setCore.coreChoose rfl
    split
    · split
      · split
        · exact h.coreWordStep rfl
        · exact hidle
      · exact hidle
    · split
      · split
        · exact h
        · exact hidle
      · exact hidle
    · exact h.coreChoose rfl

theorem MemOk.someCore {s turn x} (h : MemOk s) (e : s.someCore turn = x) : Maybe PickOk x := by
  subst e
  exact Maybe.findSome _ (fun c => MemOk.coreStep (s := { s with coreTurn := c + 1 }) (h.frame rfl rfl) rfl)

theorem MemOk.takeDue {s n x} (h : MemOk s) (e : s.takeDue n = x) : Maybe PickOk x := by
  subst e
  unfold State.takeDue
  extract_lets m s1
  have hs1 : MemOk s1 := h.frame rfl rfl
  refine Maybe.map_any (fun a => ?_)
  split
  · exact hs1
  · exact hs1

theorem MemOk.byDefault {s0 x} (h : MemOk s0) (e : s0.byDefault = x) : PickOk x := by
  subst e
  unfold State.byDefault
  extract_lets s due core agent time first
  have hs : MemOk s := h.frame rfl rfl
  have hdue : Maybe PickOk (due ()) := hs.takeDue rfl
  have hcore : Maybe PickOk (core ()) := hs.someCore rfl
  have hagent : Maybe PickOk (agent ()) := Maybe.map_any (fun _ => hs)
  have htime : ∀ n, Maybe PickOk (time n) := fun _ => Maybe.map_any (fun _ => hs)
  have hfirst : ∀ f ∈ first, Maybe PickOk (f ()) := by
    unfold first
    split_ifs <;> simp [hdue, hcore, hagent, htime]
  clear_value s due core agent time first
  split
  next p e =>
    obtain ⟨f, hf, hp⟩ := List.exists_of_findSome?_eq_some e
    have hf := hfirst f hf
    rwa [hp] at hf
  · exact Maybe.getD (htime _) h

theorem MemOk.pick {s x} (h : MemOk s) (e : s.pick = x) : PickOk x := by
  subst e
  unfold State.pick
  split
  · exact h.byDefault rfl
  · extract_lets s1 asked
    have hs1 : MemOk s1 := h.frame rfl rfl
    have hasked : Maybe PickOk asked := by
      unfold asked
      split
      · exact hs1.takeDue rfl
      · exact hs1.coreStep rfl
      · exact Maybe.map_any (fun _ => hs1)
      · trivial
    clear_value asked
    split
    · exact hasked
    · exact hs1.byDefault rfl

theorem MemOk.step {s} (h : MemOk s) : OutOk (step s) := by
  unfold Machine.step
  split
  next e => exact h.pick e
  next t e =>
    have ht : MemOk t := h.pick e
    exact ht.exec

end Sys2Proof.Machine
end

section
/-! SUPPORT. The canonical form of memory: right after reset, and at every step. -/
namespace Sys2Proof.Claim
open Sys2Proof.Machine

/-- Settles O58: memory is empty at reset. -/
theorem resetMemoryIsCanonical : Obligations.ResetMemoryIsCanonical := ⟨State.reset_wf, rfl⟩

/-- Settles O57: every operation that a step is made of keeps both memories canonical. -/
theorem memoryStaysCanonical : Obligations.MemoryStaysCanonical := by
  intro s t h hstep
  have hs : OutOk (step s) := (memOk_iff.2 h).step
  rw [hstep] at hs
  exact memOk_iff.1 hs

end Sys2Proof.Claim
end

section
/-! SUPPORT. The device register windows (02 R61): what a register, the bits of a frame, a key and a context read as after each write. -/
namespace Sys2Proof.Machine

/-! ### Fields of a word -/

theorem getLsbD_withField (x : Word) {lo n : Nat} (v : Nat) {i : Nat} (hi : i < 64) :
    (withField x lo n v).getLsbD i = if lo ≤ i ∧ i < lo + n then v.testBit (i - lo) else x.getLsbD i := by
  simp only [withField, BitVec.getLsbD_or, BitVec.getLsbD_and, BitVec.getLsbD_not, BitVec.getLsbD_shiftLeft, BitVec.getLsbD_ofNat,
    Nat.testBit_two_pow_sub_one, Nat.testBit_mod_two_pow, hi, show i - lo < 64 by omega, decide_true, Bool.true_and]
  by_cases hin : lo ≤ i ∧ i < lo + n
  · simp [hin, show ¬i < lo by omega, show i - lo < n by omega]
  · by_cases hlo : i < lo
    · simp [hin, hlo]
    · simp [hin, hlo, show ¬i - lo < n by omega]

theorem toNat_withField_low (x : Word) {n : Nat} (v : Nat) (hn : n ≤ 64) : (withField x 0 n v).toNat = x.toNat / 2 ^ n * 2 ^ n + v % 2 ^ n := by
  refine Nat.eq_of_testBit_eq fun i => ?_
  rw [Nat.mul_comm, Nat.testBit_two_pow_mul_add _ (Nat.mod_lt _ (by positivity)), Nat.testBit_mod_two_pow, Nat.testBit_div_two_pow]
  by_cases hi : i < 64
  · have h := getLsbD_withField x (lo := 0) (n := n) v hi
    simp only [BitVec.getLsbD, Nat.zero_le, true_and, Nat.zero_add, Nat.sub_zero] at h
    rw [h]
    split
    · simp [*]
    · rw [show i - n + n = i by omega]
  · have hx : ∀ w : Word, w.toNat.testBit i = false := fun w => BitVec.getLsbD_of_ge w i (by omega)
    rw [if_neg (by omega), show i - n + n = i by omega, hx, hx]

theorem testBit_wfield (w : Word) (lo n k : Nat) : (wfield w lo n).testBit k = (decide (k < n) && w.getLsbD (lo + k)) := by
  rw [wfield, Nat.testBit_mod_two_pow, Nat.testBit_div_two_pow, Nat.add_comm k lo]
  rfl

theorem wfield_low (w : Word) (n : Nat) : wfield w 0 n = w.toNat % 2 ^ n := by simp [wfield]

/-! ### Registers, contexts and dies -/

@[simp] theorem State.die_updDie_same (s : State) (d : Nat) (f : DieState → DieState) : (s.updDie d f).die d = f (s.die d) :=
  Sparse.get_put_same _ _ _ _

@[simp] theorem State.reg_setReg_same (s : State) (d off : Nat) (x : Word) : (s.setReg d off x).reg d off = x := by
  simp [State.reg, State.setReg, Sparse.get_set_same]

theorem State.reg_setReg_other (s : State) (d : Nat) {off o : Nat} (x : Word) (h : o ≠ off) : (s.setReg d off x).reg d o = s.reg d o := by
  simp [State.reg, State.setReg, Sparse.get_set_other _ _ _ _ _ h]

@[simp] theorem State.ctx_setCtx_same (s : State) (c : CtxId) (x : Ctx) : (s.setCtx c x).ctx c = x := by
  unfold State.setCtx State.ctx State.ctx?
  cases hf : s.ctxs.find? fun p => p.1 == c with
  | none => simp [List.find?_append, hf]
  | some p =>
    have hkey : ((fun q : CtxId × Ctx => q.1 == c) ∘ fun q => if q.1 == c then (c, x) else q) = fun q => q.1 == c := by
      funext q
      by_cases hq : q.1 = c <;> simp [hq]
    have hp : (p.1 == c) = true := List.find?_some (p := fun q : CtxId × Ctx => q.1 == c) hf
    simp only [Option.map_some, List.find?_map, hkey, hf, hp, if_true, Option.getD_some]

@[simp] theorem State.setCtx_mem (s : State) (c : CtxId) (x : Ctx) : (s.setCtx c x).mem = s.mem := by
  unfold State.setCtx
  split
  · rfl
  · rfl

@[simp] theorem State.setCtx_roles (s : State) (c : CtxId) (x : Ctx) : (s.setCtx c x).roles = s.roles := by
  unfold State.setCtx
  split
  · rfl
  · rfl

/-- What a context resumes with (R182): its error and its skip are cleared, and its failed commands restart, but the one that is skipped. -/
theorem State.ctxResume_of_err (s : State) (id : CtxId) (skip : Bool) (h : (s.ctx id).err = true) :
    (s.ctxResume id skip).ctx id = { s.ctx id with err := false, skip := false, cmds := (s.ctx id).cmds.map fun q =>
      if q.st == .failed then
        { q with st := if skip && (s.ctx id).tlRetry.isNone && q.n == (s.ctx id).failn then .done else .accepted, sigs := [], moved := [] }
      else q } ∧ (s.ctxResume id skip).mem = s.mem ∧ (s.ctxResume id skip).roles = s.roles := by
  have heq : s.ctxResume id skip = _ := if_neg (show ¬(!(s.ctx id).err) = true by simp [h])
  rw [heq]
  exact ⟨State.ctx_setCtx_same _ id _, State.setCtx_mem _ _ _, State.setCtx_roles _ _ _⟩

/-! ### The bits of a frame (R65, R66) -/

/-- `a` with the bits that byte `i` of `v` writes. -/
def Attr.written (a : Attr) (v : Word) (i : Nat) : Attr :=
  { a with acc := v.getLsbD (8 * i + 7), vers := v.getLsbD (8 * i + 6), inter := v.getLsbD (8 * i + 5) }

/-- RETIRED of the frame at `k` is cleared. -/
def DieState.clearRetired (x : DieState) (k : Nat) : DieState :=
  { x with attrs := Sparse.set {} x.attrs k { x.attrs.get {} k with retired := false } }

theorem DieState.clearRetired_same (x : DieState) (k : Nat) : ((x.clearRetired k).attrs.get {} k).retired = false := by
  rw [clearRetired, Sparse.get_set_same]

theorem DieState.clearRetired_other (x : DieState) {k g : Nat} (h : g ≠ k) : (x.clearRetired k).attrs.get {} g = x.attrs.get {} g :=
  Sparse.get_set_other _ _ _ _ _ h

theorem State.rclear_hbm (s : State) (d : Nat) {v : Word} (h : v.toNat / 2 ^ 23 % 2 ^ 40 = 0) (h63 : v.getLsbD 63 = false)
    (hf : v.toNat % 2 ^ 23 < 2 ^ 21) : s.rclear d v = s.updDie d fun x => x.clearRetired (v.toNat % 2 ^ 23) := by
  unfold State.rclear
  rw [wfield_low, if_neg (show ¬wfield v 23 40 ≠ 0 from not_not_intro h), if_neg (show ¬wbit v 63 = true from Bool.eq_false_iff.1 h63)]
  exact if_neg (by omega)

theorem State.rclear_capacity (s : State) (d : Nat) {v : Word} (h : v.toNat / 2 ^ 23 % 2 ^ 40 = 0) (h63 : v.getLsbD 63 = true)
    (hf : v.toNat % 2 ^ 23 < 2 ^ 22) : s.rclear d v = s.updDie d fun x => x.clearRetired (2 ^ 24 + v.toNat % 2 ^ 23) := by
  unfold State.rclear
  rw [wfield_low, if_neg (show ¬wfield v 23 40 ≠ 0 from not_not_intro h), if_pos (show wbit v 63 = true from h63)]
  exact if_neg (by omega)

/-- The step of `writeAttrs` at byte `i`. -/
def writeAttrByte (d off : Nat) (v : Word) (s : State) (i : Nat) : State :=
  match attrKey (off + i) with
  | some k => s.updDie d fun x => x.writeAttr k (wfield v (8 * i) 8)
  | none => s

theorem State.writeAttrs_eq (s : State) (d off : Nat) (v : Word) : s.writeAttrs d off v = (List.range 8).foldl (writeAttrByte d off v) s := rfl

theorem decide_wfield_bit (v : Word) (i k : Nat) (hk : k < 8) : decide (wfield v (8 * i) 8 / 2 ^ k % 2 = 1) = v.getLsbD (8 * i + k) := by
  rw [← Nat.testBit_eq_decide_div_mod_eq, testBit_wfield, decide_eq_true hk, Bool.true_and]

theorem DieState.writeAttr_hbm (x : DieState) {key : Nat} (v : Word) (i : Nat) (hkey : key < 2 ^ 24) :
    x.writeAttr key (wfield v (8 * i) 8) = { x with attrs := Sparse.set {} x.attrs key ((x.attrs.get {} key).written v i) } := by
  have h7 := decide_wfield_bit v i 7 (by omega)
  have h6 := decide_wfield_bit v i 6 (by omega)
  have h5 := decide_wfield_bit v i 5 (by omega)
  unfold DieState.writeAttr
  rw [if_neg (by simp; omega)]
  simp only [Nat.reducePow] at h7 h6 h5
  rw [h7, h6, h5]
  rfl

/-- A byte of an HBM frame. -/
theorem writeAttrByte_hbm (d : Nat) {off : Nat} (v : Word) (s : State) {i : Nat} (hlo : 0x0100_0000 ≤ off) (hhi : off + i < 0x0120_0000) :
    writeAttrByte d off v s i = s.updDie d fun x =>
      { x with attrs := Sparse.set {} x.attrs (off - 0x0100_0000 + i) ((x.attrs.get {} (off - 0x0100_0000 + i)).written v i) } := by
  have hkey : attrKey (off + i) = some (off - 0x0100_0000 + i) := by
    simp only [attrKey]
    rw [if_pos (by simp; omega)]
    exact congrArg some (by omega)
  unfold writeAttrByte
  rw [hkey]
  exact congrArg (s.updDie d) (funext fun x => x.writeAttr_hbm v i (by omega))

/-- The first `n` bytes of a write write the frames of their own bytes, and no other. -/
theorem attrs_foldl_writeAttrByte (d : Nat) {off : Nat} (v : Word) (s : State) (hlo : 0x0100_0000 ≤ off) (n : Nat)
    (hhi : off + n ≤ 0x0120_0000) (i : Nat) :
    (((List.range n).foldl (writeAttrByte d off v) s).die d).attrs.get {} (off - 0x0100_0000 + i) =
      if i < n then ((s.die d).attrs.get {} (off - 0x0100_0000 + i)).written v i else (s.die d).attrs.get {} (off - 0x0100_0000 + i) := by
  induction n with
  | zero => rfl
  | succ n ih =>
    rw [List.range_succ, List.foldl_append, List.foldl_cons, List.foldl_nil, writeAttrByte_hbm d v _ hlo (by omega), State.die_updDie_same]
    by_cases hi : i = n
    · subst hi
      rw [Sparse.get_set_same, ih (by omega), if_neg (by omega), if_pos (by omega)]
    · rw [Sparse.get_set_other _ _ _ _ _ (by omega), ih (by omega)]
      simp only [show i < n + 1 ↔ i < n by omega]

theorem foldl_writeAttrByte_frame (d off : Nat) (v : Word) (l : List Nat) (s : State) :
    (l.foldl (writeAttrByte d off v) s).mem = s.mem ∧ (l.foldl (writeAttrByte d off v) s).roles = s.roles := by
  induction l generalizing s with
  | nil => exact ⟨rfl, rfl⟩
  | cons i l ih =>
    obtain ⟨hm, hr⟩ := ih (writeAttrByte d off v s i)
    have hstep : (writeAttrByte d off v s i).mem = s.mem ∧ (writeAttrByte d off v s i).roles = s.roles := by
      unfold writeAttrByte
      split
      · exact ⟨rfl, rfl⟩
      · exact ⟨rfl, rfl⟩
    exact ⟨hm.trans hstep.1, hr.trans hstep.2⟩

/-! ### Migration engines (R94) and partitions (R446-R449) -/

/-- What the word at +0x00 of a migration engine holds after a write of `v`, where it held `x` and HIGH and LOW stand in `hl`. -/
def migrationTaken (x hl v : Word) : Word :=
  let x1 := if wbit v 4 then withField x 4 1 0 else x
  let x2 := if wbit v 2 then withField x1 2 1 0 else x1
  if wbit v 0 && wfield hl 32 32 ≤ wfield hl 0 32 then x2 else withField x2 0 1 (wfield v 0 1)

theorem State.writeMigration_spec (s : State) (d n : Nat) (v : Word) :
    (s.writeMigration d n v).reg d (0x2000 + 0x100 * n) =
      migrationTaken (s.reg d (0x2000 + 0x100 * n)) (s.reg d (0x2000 + 0x100 * n + 8)) v ∧
    (s.writeMigration d n v).mem = s.mem ∧ (s.writeMigration d n v).roles = s.roles := by
  unfold State.writeMigration
  extract_lets off hl x x1 x2 x3 s1
  split
  · exact ⟨State.reg_setReg_same s d off x3, rfl, rfl⟩
  · exact ⟨State.reg_setReg_same s d off x3, rfl, rfl⟩

theorem wfield_high (w : Word) : wfield w 32 32 = w.toNat / 2 ^ 32 := Nat.mod_eq_of_lt (by have := w.isLt; omega)

theorem migrationTaken_en (x hl v : Word) : (migrationTaken x hl v).getLsbD 0 =
    if v.getLsbD 0 = true ∧ hl.toNat / 2 ^ 32 ≤ hl.toNat % 2 ^ 32 then x.getLsbD 0 else v.getLsbD 0 := by
  unfold migrationTaken
  extract_lets x1 x2
  have hx1 : x1.getLsbD 0 = x.getLsbD 0 := by
    unfold x1
    split
    · simp only [getLsbD_withField, Nat.reduceLT, Nat.reduceLeDiff, false_and, if_false]
    · rfl
  have hx2 : x2.getLsbD 0 = x.getLsbD 0 := by
    rw [← hx1]
    unfold x2
    split
    · simp only [getLsbD_withField, Nat.reduceLT, Nat.reduceLeDiff, false_and, if_false]
    · rfl
  rw [wfield_high, wfield_low]
  simp only [wbit, Bool.and_eq_true, decide_eq_true_eq]
  split
  · exact hx2
  · rw [getLsbD_withField _ _ (by omega), if_pos ⟨Nat.le_refl 0, by omega⟩, testBit_wfield]
    simp

theorem migrationTaken_cleared (x hl v : Word) {b : Nat} (hb : b = 2 ∨ b = 4) (hv : v.getLsbD b = true) :
    (migrationTaken x hl v).getLsbD b = false := by
  unfold migrationTaken
  extract_lets x1 x2
  have hx2 : x2.getLsbD b = false := by
    rcases hb with rfl | rfl
    · simp only [x2, wbit, hv, if_true, getLsbD_withField, Nat.reduceLT]
      simp
    · have hx1 : x1.getLsbD 4 = false := by
        simp only [x1, wbit, hv, if_true, getLsbD_withField, Nat.reduceLT]
        simp
      unfold x2
      split
      · rw [getLsbD_withField _ _ (by omega), if_neg (by omega), hx1]
      · exact hx1
  split
  · exact hx2
  · rw [getLsbD_withField _ _ (by omega), if_neg (by omega), hx2]

/-- A write of a partition's word. -/
theorem State.writePartition_word (s : State) (d : Nat) (v : Word) {p : Nat} (hp : p < 8) :
    s.writePartition d (0x6200 + 8 * p) v =
      if s.reg d (0x6200 + 8 * p) = v &&& 0xF800_FFFF_0000_0000#64 then s
      else if s.partsIdle ([p].filter fun p => p < s.partitions) then s.setReg d (0x6200 + 8 * p) (v &&& 0xF800_FFFF_0000_0000#64)
      else s.countError d 0x6328 := by
  have hne : ¬0x6200 + 8 * p = 0x6240 := by omega
  have hdiv : (0x6200 + 8 * p - 0x6200) / 8 = p := by omega
  unfold State.writePartition
  simp only [hne, if_false, hdiv]

theorem getLsbD_partitionMask {i : Nat} (hi : i < 64) : (0xF800_FFFF_0000_0000#64).getLsbD i = decide (59 ≤ i ∨ (32 ≤ i ∧ i < 48)) := by
  revert i
  decide

/-! ### Keys (R450) -/

theorem State.dropVmid_of_none (s : State) (n : Nat) (h : ∀ x : Die, ∀ l ∈ (s.die x).lines, l.vmid ≠ n) : s.dropVmid n = s := by
  have hnil : ((List.range 4).flatMap fun d => (s.die d).lines.filterMap fun l => if l.vmid == n then some l.line else none) = [] := by
    simp only [List.flatMap_eq_nil_iff, List.filterMap_eq_nil_iff, List.mem_range]
    intro d hd l hl
    simpa using h ⟨d, hd⟩ l hl
  unfold State.dropVmid
  rw [hnil]
  rfl

end Sys2Proof.Machine
end

section
/-! SUPPORT. Writes to the device register windows: what each one writes, and that memory and the roles stand (02 R61). -/
namespace Sys2Proof.Claim
open Sys2Proof.Machine

/-- The step is made, `f` holds of the next state, and memory and the roles stand. -/
def Quietly (s : State) (i : Instr) (f : State → Prop) : Prop := ∃ t, exec i s = .next t ∧ f t ∧ t.mem = s.mem ∧ t.roles = s.roles

theorem Quietly.intro {s t : State} {i : Instr} {f : State → Prop} (h : exec i s = .next t) (hf : f t) (hm : t.mem = s.mem)
    (hr : t.roles = s.roles) : Quietly s i f := ⟨t, h, hf, hm, hr⟩

section
variable {s : State} {d : Die} {v : Word}

theorem ctxControlWrite_takes (id : CtxId) : Quietly s (.ctxControlWrite id v) fun t =>
    (t.ctx id).en = v.getLsbD 0 ∧ (t.ctx id).skip = v.getLsbD 1 ∧ (t.ctx id).prio = v.toNat / 2 ^ 26 % 4 ∧
    (t.ctx id).cmds = (s.ctx id).cmds ∧ (t.ctx id).completed = (s.ctx id).completed ∧
    ((s.ctx id).accepted = (s.ctx id).completed → (t.ctx id).vmid = v.toNat / 2 ^ 28 % 16 ∧ (t.ctx id).asid = v.toNat / 2 ^ 32 % 65536) ∧
    ((s.ctx id).accepted ≠ (s.ctx id).completed → (t.ctx id).vmid = (s.ctx id).vmid ∧ (t.ctx id).asid = (s.ctx id).asid) := by
  refine Quietly.intro (t := (s.setCtx id ((s.ctx id).control v)).send (.engineCommandStart id)) rfl ?_ (State.setCtx_mem _ _ _)
    (State.setCtx_roles _ _ _)
  have hctx : ((s.setCtx id ((s.ctx id).control v)).send (.engineCommandStart id)).ctx id = (s.ctx id).control v :=
    State.ctx_setCtx_same s id _
  rw [hctx]
  unfold Ctx.control
  by_cases hq : (s.ctx id).accepted = (s.ctx id).completed
  · simp [hq, wbit, wfield]
  · simp [hq, wbit, wfield]

theorem ctxErrClear_of_no_err (id : CtxId) (h : (s.ctx id).err = false) : exec (.ctxErrClear id) s = .next s := by
  show Host.Outcome.next (s.ctxResume id (s.ctx id).skip) = .next s
  simp [State.ctxResume, h]

theorem ctxErrClear_resumes (id : CtxId) (h : (s.ctx id).err = true) : Quietly s (.ctxErrClear id) fun t =>
    (t.ctx id).err = false ∧ (t.ctx id).skip = false ∧ (t.ctx id).failn = (s.ctx id).failn ∧
    (t.ctx id).cmds = (s.ctx id).cmds.map fun q => if q.st = .failed then
      { q with st := if (s.ctx id).skip = true ∧ (s.ctx id).tlRetry = none ∧ q.n = (s.ctx id).failn then .done else .accepted,
               sigs := [], moved := [] } else q := by
  obtain ⟨hctx, hm, hr⟩ := s.ctxResume_of_err id (s.ctx id).skip h
  refine Quietly.intro (t := s.ctxResume id (s.ctx id).skip) rfl ?_ hm hr
  rw [hctx]
  refine ⟨rfl, rfl, rfl, ?_⟩
  simp [and_assoc]

theorem frameAttrWrite_takes {off : Nat} (hlo : 0x0100_0000 ≤ off) (h8 : off % 8 = 0) (hhi : off < 0x0120_0000) :
    Quietly s (.frameAttrWrite d off v) fun t => ∀ i, i < 8 → (t.die d).attrs.get {} (off - 0x0100_0000 + i) =
      { (s.die d).attrs.get {} (off - 0x0100_0000 + i) with
        acc := v.getLsbD (8 * i + 7), vers := v.getLsbD (8 * i + 6), inter := v.getLsbD (8 * i + 5) } := by
  refine ⟨s.writeAttrs d off v, rfl, fun i hi => ?_, foldl_writeAttrByte_frame _ _ _ _ s⟩
  rw [State.writeAttrs_eq, attrs_foldl_writeAttrByte _ _ _ hlo 8 (by omega), if_pos hi]
  rfl

theorem rclear_of_hbm (h : v.toNat / 2 ^ 23 % 2 ^ 40 = 0) (h63 : v.getLsbD 63 = false) (hf : v.toNat % 2 ^ 23 < 2 ^ 21) :
    Quietly s (.rclear d v) fun t => ((t.die d).attrs.get {} (v.toNat % 2 ^ 23)).retired = false ∧
      ∀ g, g ≠ v.toNat % 2 ^ 23 → (t.die d).attrs.get {} g = (s.die d).attrs.get {} g := by
  refine Quietly.intro (congrArg Host.Outcome.next (s.rclear_hbm d h h63 hf)) ?_ rfl rfl
  rw [State.die_updDie_same]
  exact ⟨DieState.clearRetired_same _ _, fun g hg => DieState.clearRetired_other _ hg⟩

theorem rclear_of_capacity (h : v.toNat / 2 ^ 23 % 2 ^ 40 = 0) (h63 : v.getLsbD 63 = true) (hf : v.toNat % 2 ^ 23 < 2 ^ 22) :
    Quietly s (.rclear d v) fun t => ((t.die d).attrs.get {} (2 ^ 24 + v.toNat % 2 ^ 23)).retired = false := by
  refine Quietly.intro (congrArg Host.Outcome.next (s.rclear_capacity d h h63 hf)) ?_ rfl rfl
  rw [State.die_updDie_same]
  exact DieState.clearRetired_same _ _

theorem hashselWrite_takes (hl : (s.die d).lines = []) (h3 : v.toNat % 4 ≠ 3) (hn : 32 ≤ (s.die d).hashsel.toNat / 4 % 64 + v.toNat % 4) :
    Quietly s (.hashselWrite d v) fun t =>
      (t.die d).hashsel.toNat % 4 = v.toNat % 4 ∧ (t.die d).hashsel.toNat / 4 = (s.die d).hashsel.toNat / 4 := by
  have heq : s.writeHashsel d v = s.updDie d fun x => { x with hashsel := withField x.hashsel 0 2 (wfield v 0 2) } := by
    unfold State.writeHashsel
    extract_lets x nsel nen
    have hnsel : nsel = v.toNat % 4 := wfield_low v 2
    have hnen : nen = (s.die d).hashsel.toNat / 4 % 64 := rfl
    rw [if_neg (by simp [x, hl]; omega)]
    rfl
  refine Quietly.intro (congrArg Host.Outcome.next heq) ?_ rfl rfl
  rw [State.die_updDie_same]
  dsimp only
  rw [toNat_withField_low _ _ (by omega), wfield_low]
  omega

theorem hashselWrite_of_lines (hl : (s.die d).lines ≠ []) : exec (.hashselWrite d v) s = .next s := by
  show Host.Outcome.next (s.writeHashsel d v) = .next s
  unfold State.writeHashsel
  extract_lets x nsel nen
  rw [if_pos (by simp [x, hl])]

theorem ptsWrite_takes (c : Nat) : Quietly s (.ptsWrite c v) fun t =>
    (t.core c).pts = max (s.core c).pts v.toNat ∧ ∀ k, k ≠ c → t.core k = s.core k := by
  refine Quietly.intro (t := s.raisePts c v.toNat) rfl ⟨?_, fun k hk => Sparse.get_put_other _ _ _ _ _ hk⟩ rfl rfl
  have hcore : (s.raisePts c v.toNat).core c =
      if (s.core c).pts < v.toNat then { s.core c with pts := v.toNat, hitSince := false, aged := false } else s.core c :=
    Sparse.get_put_same _ _ _ _
  rw [hcore]
  split
  · dsimp only
    omega
  · omega

theorem faultRingConsWrite_takes : Quietly s (.faultRingConsWrite d v) fun t =>
    RegIs t d 0x6008 ((s.reg d 0x6008).toNat / 2 ^ 32 * 2 ^ 32 + v.toNat % 2 ^ 32) := by
  refine Quietly.intro (t := s.writeCons d v) rfl ?_ rfl rfl
  have hreg : (s.writeCons d v).reg d 0x6008 = withField (s.reg d 0x6008) 0 32 (wfield v 0 32) := State.reg_setReg_same s d _ _
  unfold RegIs
  rw [hreg, toNat_withField_low _ _ (by omega), wfield_low, Nat.mod_mod]

theorem errorCounterWrite_takes {off : Nat} (hlo : 0x6300 ≤ off) (hhi : off < 0x6330) (h8 : off % 8 = 0) :
    Quietly s (.errorCounterWrite d off v) fun t => RegIs t d off 0 ∧ ∀ o, o ≠ off → t.reg d o = s.reg d o := by
  have heq : s.clearCounter d off = s.setReg d off 0 := if_pos (by simp [hlo, hhi, h8])
  refine Quietly.intro (congrArg Host.Outcome.next heq) ⟨?_, fun o ho => State.reg_setReg_other s d _ ho⟩ rfl rfl
  unfold RegIs
  rw [State.reg_setReg_same]
  rfl

theorem migrationEnableWrite_takes (tier : Fin 3) : Quietly s (.migrationEnableWrite d tier v) fun t =>
    (t.reg d (0x2000 + 0x100 * tier.val)).getLsbD 0 =
      (if v.getLsbD 0 = true ∧ (s.reg d (0x2000 + 0x100 * tier.val + 8)).toNat / 2 ^ 32 ≤ (s.reg d (0x2000 + 0x100 * tier.val + 8)).toNat % 2 ^ 32
        then (s.reg d (0x2000 + 0x100 * tier.val)).getLsbD 0 else v.getLsbD 0) ∧
      (v.getLsbD 2 = true → (t.reg d (0x2000 + 0x100 * tier.val)).getLsbD 2 = false) ∧
      (v.getLsbD 4 = true → (t.reg d (0x2000 + 0x100 * tier.val)).getLsbD 4 = false) := by
  obtain ⟨hreg, hm, hr⟩ := s.writeMigration_spec d tier v
  refine Quietly.intro (t := s.writeMigration d tier v) rfl ?_ hm hr
  rw [hreg]
  exact ⟨migrationTaken_en _ _ _, migrationTaken_cleared _ _ _ (.inl rfl), migrationTaken_cleared _ _ _ (.inr rfl)⟩

theorem exec_partitionWrite {p : Nat} (hp : p < 8) :
    exec (.partitionWrite d (0x6200 + 8 * p) v) s = .next (s.writePartition d (0x6200 + 8 * p) v) :=
  congrArg Host.Outcome.next (if_pos (by simp; omega))

theorem partitionWrite_of_idle {p : Nat} (hp : p < 8) (hidle : s.partsIdle ([p].filter fun p => p < s.partitions) = true) :
    Quietly s (.partitionWrite d (0x6200 + 8 * p) v) fun t =>
      ∀ i, i < 64 → (t.reg d (0x6200 + 8 * p)).getLsbD i = (v.getLsbD i && decide (59 ≤ i ∨ (32 ≤ i ∧ i < 48))) := by
  have hbits : ∀ i, i < 64 → (v &&& 0xF800_FFFF_0000_0000#64).getLsbD i = (v.getLsbD i && decide (59 ≤ i ∨ (32 ≤ i ∧ i < 48))) :=
    fun i hi => by rw [BitVec.getLsbD_and, getLsbD_partitionMask hi]
  by_cases heq : s.reg d (0x6200 + 8 * p) = v &&& 0xF800_FFFF_0000_0000#64
  · have hw : s.writePartition d (0x6200 + 8 * p) v = s := by rw [State.writePartition_word _ _ _ hp, if_pos heq]
    refine Quietly.intro ((exec_partitionWrite hp).trans (congrArg _ hw)) ?_ rfl rfl
    rwa [heq]
  · have hw : s.writePartition d (0x6200 + 8 * p) v = s.setReg d (0x6200 + 8 * p) (v &&& 0xF800_FFFF_0000_0000#64) := by
      rw [State.writePartition_word _ _ _ hp, if_neg heq, if_pos hidle]
    refine Quietly.intro ((exec_partitionWrite hp).trans (congrArg _ hw)) ?_ rfl rfl
    rwa [State.reg_setReg_same]

theorem partitionWrite_of_busy {p : Nat} (hp : p < 8) (hbusy : s.partsIdle ([p].filter fun p => p < s.partitions) = false)
    (hne : s.reg d (0x6200 + 8 * p) ≠ (v &&& 0xF800_FFFF_0000_0000#64)) :
    Quietly s (.partitionWrite d (0x6200 + 8 * p) v) fun t =>
      t.reg d (0x6200 + 8 * p) = s.reg d (0x6200 + 8 * p) ∧ t.reg d 0x6328 = s.reg d 0x6328 + 1 := by
  have heq : s.writePartition d (0x6200 + 8 * p) v = s.setReg d 0x6328 (s.reg d 0x6328 + 1) := by
    rw [State.writePartition_word _ _ _ hp, if_neg hne, if_neg (by simp [hbusy])]
    rfl
  refine Quietly.intro ((exec_partitionWrite hp).trans (congrArg _ heq)) ⟨State.reg_setReg_other s d _ (by omega), ?_⟩ rfl rfl
  exact State.reg_setReg_same s d _ _

/-- A write of the key command register for a VMID that tags no line. -/
theorem keyCommand_of_no_lines {n : Nat} (hlines : ∀ x : Die, ∀ l ∈ (s.die x).lines, l.vmid ≠ n)
    (hv : v &&& ~~~(0x10F#64) = 0) (hvmid : wfield v 0 4 = n) : s.keyCommand d v = s.updDie d fun x =>
      { x with keys := if wbit v 8 then x.keys.put n x.staged else x.keys.del n, staged := 0 } := by
  unfold State.keyCommand
  rw [if_neg (not_not_intro hv), hvmid]
  dsimp only
  rw [s.dropVmid_of_none n hlines]

theorem keyLoad_takes {n : Nat} (hlines : ∀ x : Die, ∀ l ∈ (s.die x).lines, l.vmid ≠ n) (hn : n < 16) :
    Quietly s (.keyLoad d (BitVec.ofNat 64 (n + 256))) fun t => (t.die d).keys.find n = some (s.die d).staged ∧ (t.die d).staged = 0 := by
  have hword : ∀ n < 16, BitVec.ofNat 64 (n + 256) &&& ~~~(0x10F#64) = 0 ∧ wfield (BitVec.ofNat 64 (n + 256)) 0 4 = n ∧
      wbit (BitVec.ofNat 64 (n + 256)) 8 = true := by decide
  obtain ⟨hv, hvmid, h8⟩ := hword n hn
  refine Quietly.intro (congrArg Host.Outcome.next (keyCommand_of_no_lines hlines hv hvmid)) ?_ rfl rfl
  rw [State.die_updDie_same, h8]
  exact ⟨Sparse.find_put_same _ _ _, rfl⟩

theorem keyClear_takes {n : Nat} (hlines : ∀ x : Die, ∀ l ∈ (s.die x).lines, l.vmid ≠ n) (hn : n < 16) :
    Quietly s (.keyClear d (BitVec.ofNat 64 n)) fun t => (t.die d).keys.find n = none ∧ (t.die d).staged = 0 := by
  have hword : ∀ n < 16, BitVec.ofNat 64 n &&& ~~~(0x10F#64) = 0 ∧ wfield (BitVec.ofNat 64 n) 0 4 = n ∧
      wbit (BitVec.ofNat 64 n) 8 = false := by decide
  obtain ⟨hv, hvmid, h8⟩ := hword n hn
  refine Quietly.intro (congrArg Host.Outcome.next (keyCommand_of_no_lines hlines hv hvmid)) ?_ rfl rfl
  rw [State.die_updDie_same, h8]
  exact ⟨Sparse.find_del_same _ _, rfl⟩

theorem exec_registerWrite {off : Nat} (h8 : off % 8 = 0) (hoff : off < 2 ^ 30) : exec (.registerWrite d off v) s = .next (s.writeReg d off v) :=
  congrArg Host.Outcome.next (if_pos (by simp [h8]; omega))

theorem registerWrite_of_misaligned {off : Nat} (h8 : off % 8 ≠ 0) : exec (.registerWrite d off v) s = .next s :=
  congrArg Host.Outcome.next (if_neg (by simp [h8]))

theorem ctxAt_of_lt {off : Nat} (d : Nat) (h : off < 0x8000) : ctxAt d off = none := by
  unfold ctxAt
  rw [if_neg (by simp; omega), if_neg (by simp; omega)]

theorem writeReg_keyStage {k : Nat} (hk : k < 8) : s.writeReg d (0x6800 + 8 * k) v = s.updDie d fun x =>
    { x with staged := (x.staged &&& ~~~(BitVec.ofNat 512 (2 ^ 64 - 1) <<< (64 * k))) ||| (v.zeroExtend 512 <<< (64 * k)) } := by
  have hk8 : 8 * (0x6800 + 8 * k - 0x6800) = 64 * k := by omega
  unfold State.writeReg
  rw [ctxAt_of_lt d (by omega)]
  dsimp only
  rw [if_neg (by omega), if_neg (by simp; omega), if_neg (by omega), if_neg (by omega), if_neg (by omega), if_neg (by omega), if_neg (by omega),
    if_neg (by omega), if_neg (by simp; omega), if_neg (by simp; omega), if_neg (by simp; omega), if_pos (by simp; omega), hk8]

theorem writeReg_ringBase {n : Nat} (hn : n < 16) : s.writeReg d (0x6100 + 8 * n) v =
    s.setReg d (0x6100 + 8 * n) ((v.extractLsb' 0 57).signExtend 64 &&& 0xFFFF_FFFF_FFFF_FFF8#64) := by
  unfold State.writeReg
  rw [ctxAt_of_lt d (by omega)]
  dsimp only
  rw [if_neg (by omega), if_neg (by simp; omega), if_neg (by omega), if_neg (by omega), if_neg (by omega), if_neg (by omega), if_neg (by omega),
    if_neg (by omega), if_pos (by simp; omega)]

theorem writeReg_hvmask : s.writeReg d 0x4100 v = s.setReg d 0x4100 ((s.reg d 0x4100 &&& ~~~0xFFFF#64) ||| (v &&& 0xFFFF#64)) := by
  unfold State.writeReg
  rw [ctxAt_of_lt d (by omega)]
  simp [attrKey, regMask]

theorem keyStage_takes {k : Nat} (hk : k < 8) : Quietly s (.registerWrite d (0x6800 + 8 * k) v) fun t =>
    ∀ i, i < 512 → (t.die d).staged.getLsbD i =
      if 64 * k ≤ i ∧ i < 64 * k + 64 then v.getLsbD (i - 64 * k) else (s.die d).staged.getLsbD i := by
  refine Quietly.intro ((exec_registerWrite (by omega) (by omega)).trans (congrArg _ (writeReg_keyStage hk))) (fun i hi => ?_) rfl rfl
  rw [State.die_updDie_same]
  simp only [BitVec.getLsbD_or, BitVec.getLsbD_and, BitVec.getLsbD_not, BitVec.getLsbD_shiftLeft, BitVec.getLsbD_ofNat,
    Nat.testBit_two_pow_sub_one, BitVec.truncate_eq_setWidth, BitVec.getLsbD_setWidth, hi, show i - 64 * k < 512 by omega,
    decide_true, Bool.true_and]
  by_cases hin : 64 * k ≤ i ∧ i < 64 * k + 64
  · simp [hin, show ¬i < 64 * k by omega, show i - 64 * k < 64 by omega]
  · by_cases hlo : i < 64 * k
    · simp [hin, hlo]
    · simp [hin, hlo, show ¬i - 64 * k < 64 by omega, BitVec.getLsbD_of_ge v (i - 64 * k) (by omega)]

theorem getLsbD_alignMask {i : Nat} (hi : i < 64) : (0xFFFF_FFFF_FFFF_FFF8#64).getLsbD i = decide (3 ≤ i) := by
  revert i
  decide

theorem ringBase_takes {n : Nat} (hn : n < 16) : Quietly s (.registerWrite d (0x6100 + 8 * n) v) fun t =>
    ∀ i, i < 64 → (t.reg d (0x6100 + 8 * n)).getLsbD i = (decide (3 ≤ i) && v.getLsbD (min i 56)) := by
  refine Quietly.intro ((exec_registerWrite (by omega) (by omega)).trans (congrArg _ (writeReg_ringBase hn))) (fun i hi => ?_) rfl rfl
  rw [State.reg_setReg_same, BitVec.getLsbD_and, getLsbD_alignMask hi, Bool.and_comm, BitVec.getLsbD_signExtend]
  congr 1
  by_cases h57 : i < 57
  · simp [hi, h57, show min i 56 = i by omega]
  · simp [hi, h57, show min i 56 = 56 by omega, BitVec.msb, BitVec.getMsbD_eq_getLsbD]

theorem getLsbD_low16 {i : Nat} (hi : i < 64) : (0xFFFF#64).getLsbD i = decide (i < 16) := by
  revert i
  decide

theorem hvmask_takes : Quietly s (.registerWrite d 0x4100 v) fun t =>
    RegIs t d 0x4100 ((s.reg d 0x4100).toNat / 65536 * 65536 + v.toNat % 65536) := by
  refine Quietly.intro ((exec_registerWrite rfl (by omega)).trans (congrArg _ writeReg_hvmask)) ?_ rfl rfl
  have hfield : (s.reg d 0x4100 &&& ~~~0xFFFF#64) ||| (v &&& 0xFFFF#64) = withField (s.reg d 0x4100) 0 16 v.toNat := by
    refine BitVec.eq_of_getLsbD_eq fun i hi => ?_
    rw [getLsbD_withField _ _ hi, BitVec.getLsbD_or, BitVec.getLsbD_and, BitVec.getLsbD_not, BitVec.getLsbD_and, getLsbD_low16 hi]
    by_cases h16 : i < 16
    · simp [hi, h16, BitVec.getElem_eq_testBit_toNat]
    · simp [hi, h16]
  unfold RegIs
  rw [State.reg_setReg_same, hfield, toNat_withField_low _ _ (by omega)]
  rfl

end

/-- Settles O50: each register by the lemma of its write. -/
theorem registersTakeWrites : Obligations.RegistersTakeWrites := by
  intro s d v
  refine ⟨ctxControlWrite_takes, fun id => ⟨ctxErrClear_of_no_err id, ctxErrClear_resumes id⟩,
    fun _ hlo h8 hhi => frameAttrWrite_takes hlo h8 hhi,
    ?_, hashselWrite_takes, hashselWrite_of_lines, ptsWrite_takes, faultRingConsWrite_takes, migrationEnableWrite_takes,
    fun _ => errorCounterWrite_takes, fun _ hp => ⟨partitionWrite_of_idle hp, partitionWrite_of_busy hp⟩,
    fun _ hlines hn => ⟨keyLoad_takes hlines hn, keyClear_takes hlines hn⟩, fun _ => keyStage_takes, fun _ => ringBase_takes, hvmask_takes,
    fun _ => registerWrite_of_misaligned⟩
  rintro _ rfl h
  exact ⟨rclear_of_hbm h, rclear_of_capacity h⟩

end Sys2Proof.Claim
end

section
/-! SUPPORT. The migration sweep's choice (03 R95, R96): it clears access bits on its way, and nothing that decides whether a frame is skipped reads
one. -/
namespace Sys2Proof.Machine

theorem State.die_updDie_other (s : State) {d x : Nat} (f : DieState → DieState) (h : x ≠ d) : (s.updDie d f).die x = s.die x :=
  Sparse.get_put_other _ _ _ _ _ h

/-- What `t` holds in memory, and in its dies but for their access bits, `s` holds too. -/
structure SameButAccess (s t : State) : Prop where
  mem : t.mem = s.mem
  memKey : t.memKey = s.memKey
  die : ∀ x, ∃ a, t.die x = { s.die x with access := a }

namespace SameButAccess
variable {s t u : State}

theorem refl (s : State) : SameButAccess s s := ⟨rfl, rfl, fun x => ⟨(s.die x).access, rfl⟩⟩

theorem trans (hst : SameButAccess s t) (htu : SameButAccess t u) : SameButAccess s u := by
  refine ⟨htu.mem.trans hst.mem, htu.memKey.trans hst.memKey, fun x => ?_⟩
  obtain ⟨a, ha⟩ := hst.die x
  obtain ⟨b, hb⟩ := htu.die x
  exact ⟨b, by rw [hb, ha]⟩

theorem clearAccess (s : State) (d t i : Nat) : SameButAccess s (s.clearAccess d t i) := by
  refine ⟨rfl, rfl, fun x => ?_⟩
  by_cases hx : x = d
  · subst hx
    exact ⟨_, State.die_updDie_same s x _⟩
  · exact ⟨(s.die x).access, State.die_updDie_other s _ hx⟩

/-! What the two states read alike. -/

theorem field (h : SameButAccess s t) {β : Sort*} (g : DieState → β) (hg : ∀ y a, g { y with access := a } = g y) (x : Nat) :
    g (t.die x) = g (s.die x) := by
  obtain ⟨a, ha⟩ := h.die x
  rw [ha, hg]

theorem lines (h : SameButAccess s t) (x : Nat) : (t.die x).lines = (s.die x).lines := h.field _ (fun _ _ => rfl) x

theorem reg (h : SameButAccess s t) (d off : Nat) : t.reg d off = s.reg d off := h.field (fun y => Sparse.get 0 y.regs off) (fun _ _ => rfl) d

theorem copy? (h : SameButAccess s t) (x line : Nat) : (t.die x).copy? line = (s.die x).copy? line := h.field (·.copy? line) (fun _ _ => rfl) x

theorem homeLine? (h : SameButAccess s t) (x line : Nat) : (t.die x).homeLine? line = (s.die x).homeLine? line :=
  h.field (·.homeLine? line) (fun _ _ => rfl) x

theorem isDead (h : SameButAccess s t) (d : Nat) : t.isDead d = s.isDead d := by
  simp only [State.isDead, h.field (·.dead) (fun _ _ => rfl)]

theorem homeOf (h : SameButAccess s t) (line : Nat) : t.homeOf line = s.homeOf line := by
  simp only [State.homeOf, State.liveFrom, h.isDead]

theorem encrypted (h : SameButAccess s t) (line : Nat) : t.encrypted line = s.encrypted line := by
  simp only [State.encrypted, h.homeOf, h.field (·.regs) (fun _ _ => rfl)]

theorem keyFor (h : SameButAccess s t) (line vmid : Nat) : t.keyFor line vmid = s.keyFor line vmid := by
  simp only [State.keyFor, h.homeOf, h.field (·.keys) (fun _ _ => rfl)]

theorem fetchLine (h : SameButAccess s t) (line vmid : Nat) : t.fetchLine line vmid = s.fetchLine line vmid := by
  simp only [State.fetchLine, State.hostFetch, State.rawLine, h.encrypted, h.keyFor, h.mem, h.memKey]

theorem homeData (h : SameButAccess s t) (line vmid : Nat) : t.homeData line vmid = s.homeData line vmid := by
  simp only [State.homeData, h.homeOf, h.homeLine?, h.fetchLine]

theorem lineVmid? (h : SameButAccess s t) (line : Nat) : t.lineVmid? line = s.lineVmid? line := by
  simp only [State.lineVmid?, h.lines]

theorem attrOf (h : SameButAccess s t) (pa : Nat) : t.attrOf pa = s.attrOf pa := by
  simp only [State.attrOf, h.field (·.attrs) (fun _ _ => rfl)]

/-! Operations that keep the two states alike. -/

theorem updDie (h : SameButAccess s t) {d : Nat} {f : DieState → DieState} (hf : ∀ y a, f { y with access := a } = { f y with access := a }) :
    SameButAccess (s.updDie d f) (t.updDie d f) := by
  refine ⟨h.mem, h.memKey, fun x => ?_⟩
  obtain ⟨a, ha⟩ := h.die x
  by_cases hx : x = d
  · subst hx
    exact ⟨a, by rw [State.die_updDie_same, State.die_updDie_same, ha, hf]⟩
  · exact ⟨a, by rw [State.die_updDie_other _ _ hx, State.die_updDie_other _ _ hx, ha]⟩

theorem retireFrame (h : SameButAccess s t) (pa : Nat) : SameButAccess (s.retireFrame pa) (t.retireFrame pa) := by
  unfold State.retireFrame
  split
  next d f _ =>
    have hset : SameButAccess
        (s.updDie d fun x => { x with attrs := Sparse.set {} x.attrs f { x.attrs.get {} f with retired := true } })
        (t.updDie d fun x => { x with attrs := Sparse.set {} x.attrs f { x.attrs.get {} f with retired := true } }) :=
      h.updDie fun _ _ => rfl
    unfold State.countError State.countErrors
    rw [hset.reg]
    exact hset.updDie fun _ _ => rfl
  next => exact h

theorem storeLine (h : SameButAccess s t) (line vmid : Nat) (x : LineData) : SameButAccess (s.storeLine line vmid x) (t.storeLine line vmid x) := by
  refine ⟨?_, ?_, h.die⟩
  · simp only [State.storeLine, h.mem]
  · simp only [State.storeLine, h.encrypted, h.memKey, h.keyFor]

theorem writeBack (h : SameButAccess s t) (d : Nat) (l : SliceLine) : SameButAccess (s.writeBack d l) (t.writeBack d l) := by
  unfold State.writeBack
  rw [h.field (·.badL2) (fun _ _ => rfl) d]
  split
  · exact h
  · split
    · exact h.retireFrame _
    · exact h.storeLine _ _ _

theorem freeEntry_access (x : DieState) (line : Nat) (a : Sparse Byte) :
    ({ x with access := a } : DieState).freeEntry line = { x.freeEntry line with access := a } := by
  have hentry : ({ x with access := a } : DieState).entry? line = x.entry? line := rfl
  unfold DieState.freeEntry
  rw [hentry]
  cases x.entry? line with
  | none => rfl
  | some e =>
    dsimp only [DieState.raiseMts]
    cases x.t0.find (hash0 line) with
    | none => rfl
    | some k =>
      dsimp only
      split
      · rfl
      · rfl

theorem freeEntry (h : SameButAccess s t) (d line top : Nat) : SameButAccess (s.updDie d fun x => (x.freeEntry line).raiseMts line top)
    (t.updDie d fun x => (x.freeEntry line).raiseMts line top) :=
  h.updDie fun y a => by rw [freeEntry_access]; rfl

theorem dropLine (h : SameButAccess s t) (line : Nat) (l1 : Bool) : SameButAccess (s.dropLine line l1) (t.dropLine line l1) := by
  have hback : SameButAccess
      (match (s.die (s.homeOf line)).homeLine? line with
        | some l => s.writeBack (s.homeOf line) l
        | none => s)
      (match (s.die (s.homeOf line)).homeLine? line with
        | some l => t.writeBack (s.homeOf line) l
        | none => t) := by
    split
    · exact h.writeBack _ _
    · exact h
  unfold State.dropLine
  simp only [h.homeOf, h.homeLine?, h.lines]
  have hgone := List.foldl_rel (l := List.range 4) hback fun d _ u v huv => huv.updDie (d := d)
    (f := fun x => { x with lines := x.lines.filter fun l => l.line != line }.forget line) fun _ _ => rfl
  generalize List.foldl _ 0 (List.range 4) = top
  have hfreed := hgone.freeEntry (s.homeOf line) line top
  split
  · exact ⟨hfreed.mem, hfreed.memKey, hfreed.die⟩
  · exact ⟨hfreed.mem, hfreed.memKey, hfreed.die⟩

theorem peek (h : SameButAccess s t) (pa n vmid : Nat) : t.peek pa n vmid = s.peek pa n vmid := by
  simp only [State.peek, h.encrypted, h.lineVmid?, (h.dropLine _ _).fetchLine, h.copy?, h.homeOf, h.homeLine?, h.homeData, h.mem, h.memKey]

theorem skips (h : SameButAccess s t) (d tier i : Nat) : t.skips d tier i = s.skips d tier i := by
  simp only [State.skips, State.rmapPeek, State.regField, h.reg, h.peek, h.attrOf]

end SameButAccess

/-- The victim of a sweep is a frame that the state at its start does not let it skip. -/
theorem skips_of_sweepFrom {s u : State} {d t n i v : Nat} {seen : Bool} (h : SameButAccess s u) (hv : (u.sweepFrom d t n i seen).1 = some v) :
    s.skips d t v = false := by
  induction n generalizing u i seen with
  | zero => cases hv
  | succ n ih =>
    rw [State.sweepFrom] at hv
    split at hv
    next => exact ih h hv
    next hskip =>
      split at hv
      next => exact ih (h.trans (.clearAccess u d t i)) hv
      next =>
        obtain rfl := Option.some.inj hv
        rw [← h.skips]
        exact Bool.eq_false_iff.2 hskip

end Sys2Proof.Machine
end

section
/-! SUPPORT. What the end of a copy or migration releases (03 R97, 04 R111 step 8): the accesses held at a walk, and the logged stores that wait. -/
namespace Sys2Proof.Machine

/-! ### Entries of a table -/

theorem Sparse.mem_of_find {α : Type} {t : Sparse α} {k : Nat} {x : α} (h : t.find k = some x) : (k, x) ∈ t := by
  induction t with
  | nil => cases h
  | cons p t ih =>
    obtain ⟨j, v⟩ := p
    rw [Sparse.find] at h
    split at h
    next hj => cases h; subst hj; exact List.mem_cons_self
    next => exact List.mem_cons_of_mem _ (ih h)

theorem Sparse.mem_or_eq_of_get {α : Type} (d : α) (t : Sparse α) (k : Nat) : (k, t.get d k) ∈ t ∨ t.get d k = d := by
  induction t with
  | nil => exact .inr rfl
  | cons p t ih =>
    obtain ⟨j, v⟩ := p
    rw [Sparse.get]
    split
    next hj => subst hj; exact .inl List.mem_cons_self
    next =>
      split
      · exact .inr rfl
      · exact ih.imp_left (List.mem_cons_of_mem _)

theorem Sparse.mem_of_mem_put {α : Type} {t : Sparse α} {k : Nat} {x : α} {p : Nat × α} (h : p ∈ t.put k x) : p = (k, x) ∨ p ∈ t := by
  induction t with
  | nil => exact .inl (List.mem_singleton.1 h)
  | cons q t ih =>
    obtain ⟨j, v⟩ := q
    rw [Sparse.put] at h
    split at h
    next => exact (List.mem_cons.1 h).imp_right (List.mem_cons_of_mem _)
    next =>
      split at h
      · exact List.mem_cons.1 h
      · rcases List.mem_cons.1 h with rfl | h
        · exact .inr List.mem_cons_self
        · exact (ih h).imp_right (List.mem_cons_of_mem _)

/-! ### Replays of what waits (R415) -/

/-- The step of `replayWaiting` at entry `e` of core `c`. -/
def replayEntry (n c : Nat) (s : State) (e : LogEntry) : State :=
  match e.state with
  | .logged cause none => if cause = cCOW ∨ cause = cMIG then (s.raisePts c n).send (.sidelogReplay c e.id) else s
  | _ => s

theorem State.replayWaiting_eq (s : State) (n : Nat) :
    s.replayWaiting n = s.cores.foldl (fun s p => p.2.log.foldl (replayEntry n p.1) s) s := rfl

theorem replayEntry_cases (n c : Nat) (s : State) (e : LogEntry) :
    replayEntry n c s e = s ∨ replayEntry n c s e = (s.raisePts c n).send (.sidelogReplay c e.id) := by
  unfold replayEntry
  split
  · split
    · exact .inr rfl
    · exact .inl rfl
  · exact .inl rfl

theorem replayEntry_of_waits {n c cause : Nat} {s : State} {e : LogEntry} (he : e.state = .logged cause none) (hc : cause = cCOW ∨ cause = cMIG) :
    replayEntry n c s e = (s.raisePts c n).send (.sidelogReplay c e.id) := by
  simp only [replayEntry, he, hc, if_true]

section
variable {P : State → Prop} {n : Nat} (hstep : ∀ s c i, P s → P ((s.raisePts c n).send i))
include hstep

theorem replayEntry_keeps {s : State} (h : P s) (c : Nat) (e : LogEntry) : P (replayEntry n c s e) := by
  rcases replayEntry_cases n c s e with he | he
  · rwa [he]
  · rw [he]
    exact hstep s c _ h

theorem foldl_replayEntry_keeps {s : State} (h : P s) (c : Nat) (l : List LogEntry) : P (l.foldl (replayEntry n c) s) :=
  List.foldlRecOn l _ h fun _ ht e _ => replayEntry_keeps hstep ht c e

/-- What a rise of a core's pts with a step sent keeps, the replay of what waits keeps. -/
theorem State.replayWaiting_keeps {s : State} (h : P s) : P (s.replayWaiting n) :=
  List.foldlRecOn s.cores _ h fun _ ht p _ => foldl_replayEntry_keeps hstep ht p.1 p.2.log
end

/-- A fold reaches what its step at one member brings about, where every step keeps it. -/
theorem foldl_reaches {α : Type} {Q : State → Prop} {f : State → α → State} {l : List α} {a : α} (ha : a ∈ l) (hget : ∀ s, Q (f s a))
    (hkeep : ∀ s b, Q s → Q (f s b)) (s : State) : Q (l.foldl f s) := by
  obtain ⟨l1, l2, rfl⟩ := List.append_of_mem ha
  rw [List.foldl_append, List.foldl_cons]
  exact List.foldlRecOn l2 _ (hget _) fun t ht b _ => hkeep t b ht

/-- The step is among those that are due. -/
def Due (i : Instr) (s : State) : Prop := i ∈ s.pending

theorem State.due_replayWaiting {s : State} {n cause : Nat} {p : Nat × Core} {e : LogEntry} (hp : p ∈ s.cores) (he : e ∈ p.2.log)
    (hstate : e.state = .logged cause none) (hcause : cause = cCOW ∨ cause = cMIG) :
    Due (.sidelogReplay p.1 e.id) (s.replayWaiting n) := by
  have hkeep : ∀ (s : State) (c : Nat) (i : Instr), Due (.sidelogReplay p.1 e.id) s → Due (.sidelogReplay p.1 e.id) ((s.raisePts c n).send i) :=
    fun _ _ _ h => List.mem_append_left _ h
  refine foldl_reaches (Q := Due _) hp (fun s => ?_) (fun _ q h => foldl_replayEntry_keeps hkeep h q.1 q.2.log) s
  refine foldl_reaches (Q := Due _) he (fun s => ?_) (fun _ x h => replayEntry_keeps hkeep h p.1 x) s
  rw [replayEntry_of_waits hstate hcause]
  exact List.mem_append_right _ (List.mem_singleton_self _)

/-- Every side-log entry of `t` is one that `s` holds at the same core. -/
def LogsFrom (s t : State) : Prop := ∀ p ∈ t.cores, ∀ e ∈ p.2.log, ∃ q ∈ s.cores, q.1 = p.1 ∧ e ∈ q.2.log

theorem LogsFrom.raisePts {s t : State} (h : LogsFrom s t) (c n : Nat) : LogsFrom s (t.raisePts c n) := by
  intro p hp e he
  rcases Sparse.mem_of_mem_put hp with rfl | hp
  · have hlog : e ∈ (t.core c).log := by
      dsimp only at he
      split at he
      · exact he
      · exact he
    rcases Sparse.mem_or_eq_of_get {} t.cores c with hin | hnone
    · exact h _ hin e hlog
    · rw [State.core, hnone] at hlog
      cases hlog
  · exact h p hp e he

theorem State.replayWaiting_logsFrom (s : State) (n : Nat) : LogsFrom s (s.replayWaiting n) :=
  State.replayWaiting_keeps (P := LogsFrom s) (fun _ c _ h => h.raisePts c n) fun p hp _ he => ⟨p, hp, rfl, he⟩

/-! ### The end of a page's move -/

theorem State.wakeWalks_hold {s : State} {p : Nat × Role} (h : p ∈ s.wakeWalks.roles) : p.2.hold ≠ .walk := by
  obtain ⟨q, -, rfl⟩ := List.mem_map.1 h
  split
  next => exact nofun
  next hq => simpa using hq

section
variable (s : State) (e : Option Nat)

theorem State.pageDone_roles : (s.pageDone e).roles = s.wakeWalks.roles :=
  State.replayWaiting_keeps (P := fun t => t.roles = s.wakeWalks.roles) (fun _ _ _ h => h) rfl

theorem State.pageDone_dies : (s.pageDone e).dies = s.dies :=
  State.replayWaiting_keeps (P := fun t => t.dies = s.dies) (fun _ _ _ h => h) rfl

theorem State.die_pageDone (d : Nat) : (s.pageDone e).die d = s.die d := by rw [State.die, s.pageDone_dies, ← State.die]

variable {s e}

/-- No role stays held at a walk. -/
theorem State.pageDone_hold {k : Nat} {q : Role} (h : (s.pageDone e).role? k = some q) : q.hold ≠ .walk := by
  rw [State.role?, s.pageDone_roles] at h
  exact State.wakeWalks_hold (Sparse.mem_of_find h)

/-- The replay of every logged store that waits for a copy or a migration is due. -/
theorem State.pageDone_replays {p : Nat × Core} (hp : p ∈ (s.pageDone e).cores) {x : LogEntry} (hx : x ∈ p.2.log) {c : Nat}
    (hstate : x.state = .logged c none) (hc : c = cCOW ∨ c = cMIG) : .sidelogReplay p.1 x.id ∈ (s.pageDone e).pending := by
  obtain ⟨q, hq, hkey, hxq⟩ := s.wakeWalks.replayWaiting_logsFrom (s.clockOf e) p hp x hx
  rw [← hkey]
  exact State.due_replayWaiting hq hxq hstate hc

theorem State.endCow_cow {d : Nat} {j q : CowJob} (h : q ∈ ((s.endCow d j).die d).cow) : q.leafAddr ≠ j.leafAddr := by
  rw [State.endCow, State.die_pageDone, State.die_updDie_same] at h
  simpa using (List.mem_filter.1 h).2
end

end Sys2Proof.Machine
end

section
/-! SUPPORT. The engines that move pages: copy-on-write (04 R111), the background sweep (04 R113), migration (03 R93-R97) and the return of frames
(03 R472). -/
namespace Sys2Proof.Claim
open Sys2Proof.Machine

section
variable {s : State} {d : Die}

/-! ### Copy-on-write -/

theorem wbit_ofNat_eq_false {x i : Nat} (h : x / 2 ^ i % 2 = 0) : wbit (BitVec.ofNat 64 x) i = false := by
  rw [wbit, BitVec.getLsbD_ofNat, Nat.testBit_eq_decide_div_mod_eq]
  simp [h]

section
variable {j : CowJob}

theorem cowGo_of_finish (howes : j.owes = none) (hstage : j.stage = .finish) : s.cowGo? d j = some ((s.clearBusy d j).endCow d j) := by
  simp [State.cowGo?, State.owed, howes, hstage]

theorem cowGo_of_frame (howes : j.owes = none) (hstage : j.stage = .frame) (hfree : (s.freePeek d (ringOf d j.oldFrame).tier).isSome = true) :
    s.cowGo? d j = some (s.cowFrame d j) := by
  simp [State.cowGo?, State.owed, howes, hstage, Option.isSome_iff_ne_none.1 hfree]

variable (hcow : (s.die d).cow = [j])
include hcow

/-- A copy or request that stands alone goes on as it can. -/
theorem snapshotCopyResume_of_cowGo {t : State} (h : s.cowGo? d j = some t) : exec (.snapshotCopyResume d) s = .next t := by
  show Host.Outcome.next ((s.cowResume? d).getD s) = _
  simp only [State.cowResume?, hcow, List.findSome?_cons, h, Option.getD_some]

theorem snapshotCopyRequest_of_cowGo {t : State} (hstage : j.stage = .request) (h : s.cowGo? d j = some t) :
    exec (.snapshotCopyRequest d) s = .next t := by
  show Host.Outcome.next ((s.cowRequest? d).getD s) = _
  simp only [State.cowRequest?, hcow, List.findSome?_cons, hstage, beq_self_eq_true, if_true, h, Option.getD_some]

theorem cowGo_of_request (howes : j.owes = none) (hstage : j.stage = .request) (hbusy : s.peek j.chainAddr 8 0 / 2 ^ 16 % 2 = 0) :
    s.cowGo? d j = some (s.cowStart d j) := by
  simp [State.cowGo?, State.owed, howes, hstage, hcow, wbit_ofNat_eq_false hbusy]

variable {dest : Nat} (hstage : j.stage = .copying dest)
include hstage

theorem snapshotCopyComplete_of_busy (h : s.frameQuiet j.oldFrame = false ∨ s.frameQuiet dest = false) (e : Bool) :
    exec (.snapshotCopyComplete d e) s = .next s := by
  have hready : s.cowReady d = [] := by
    rcases h with h | h
    · simp [State.cowReady, hcow, hstage, h]
    · simp [State.cowReady, hcow, hstage, h]
  show execSnapshotCopyComplete d e s = _
  simp [execSnapshotCopyComplete, hready]

theorem snapshotCopyComplete_of_quiet (hold : s.frameQuiet j.oldFrame = true) (hdest : s.frameQuiet dest = true) (e : Bool) :
    exec (.snapshotCopyComplete d e) s = .next (s.cowComplete d j dest e) := by
  have hready : s.cowReady d = [(j, dest)] := by simp [State.cowReady, hcow, hstage, hold, hdest]
  show execSnapshotCopyComplete d e s = _
  simp [execSnapshotCopyComplete, hready, State.anyOf]
end

/-- A copy that meets no error ends with its job. -/
theorem cowComplete_of_good {j : CowJob} {dest : Nat}
    (h : ((s.dropPage j.leafAddr j.oldFrame).flushFrame j.oldFrame).frameBad j.oldFrame = false) :
    ∃ u : State, s.cowComplete d j dest false = u.endCow d j := by
  unfold State.cowComplete
  extract_lets s1 ret s2 s3 s4
  rw [if_neg (by simpa using h)]
  exact ⟨_, rfl⟩

/-! ### The background sweep -/

theorem reclaimSweep_of_copies (h : (s.die d).cow ≠ []) : exec (.reclaimSweep d) s = .next s := by
  show Host.Outcome.next (s.sweepStep d) = _
  simp [State.sweepStep, h]

variable (hcow : (s.die d).cow = []) (howes : (s.die d).sweepOwes = none)
include hcow howes

/-- An idle engine passes by a place at which no record stands. -/
theorem reclaimSweep_of_noRecord (h : s.chainAddr? d (s.die d).sweep.1 (s.die d).sweep.2 = none) :
    exec (.reclaimSweep d) s = .next (s.updDie d fun y =>
      { y with sweep := s.sweepNext d (s.die d).sweep.1 (s.die d).sweep.2, sweepOwes := none }) := by
  show Host.Outcome.next (s.sweepStep d) = _
  simp [State.sweepStep, State.owed, hcow, howes, h]

/-- An idle engine reclaims a slot that may go of a page that its die homes. -/
theorem reclaimSweep_of_reclaimable {ca k : Nat} {c : Chain} {s1 s2 : State} {x : ChainSlot} {ret : Return}
    (haddr : s.chainAddr? d (s.die d).sweep.1 (s.die d).sweep.2 = some ca)
    (hread : s.readChain d (s.die d).sweep.1 ca = (some c, s1)) (hbusy : c.busy = false) {w0 : Word}
    (hw0 : BitVec.ofNat 64 (s1.peek c.leafAddr 8 0) = w0) (hvalid : w0.getLsbD 0 = true) (hvers : w0.getLsbD 9 = true)
    (hhome : s1.homeOf (lineOf (framePA (w0.toNat / 2 ^ 16 % 2 ^ 36))) = d.val)
    (hgo : c.reclaimable (s1.leafVer c.leafAddr) = some (k, x)) (hquiet : s1.frameQuiet x.frame = true)
    (hslot : s1.reclaimSlot d ca k x = (ret, s2)) :
    exec (.reclaimSweep d) s = .next (s2.updDie d fun y => { y with sweepOwes := if s2.owed (some ret) then some ret else none }) := by
  have hidle : (!(s.die d).cow.isEmpty || s.owed (s.die d).sweepOwes) = false := by simp [State.owed, hcow, howes]
  have hfield : s1.homeOf (lineOf (framePA (wfield w0 16 36))) = d.val := hhome
  have hmine : (!c.busy && wbit w0 0 && wbit w0 9 && s1.homeOf (lineOf (framePA (wfield w0 16 36))) == d.val) = true := by
    simp [wbit, hbusy, hvalid, hvers, hfield]
  have hnow : s1.reclaimNow c (s1.leafVer c.leafAddr) = some (k, x) := by simp [State.reclaimNow, hgo, hquiet]
  show Host.Outcome.next (s.sweepStep d) = _
  simp only [State.sweepStep, hidle, Bool.false_eq_true, if_false, haddr, hread, hw0, hmine, if_true, hnow, hslot]
end

section
variable {s : State} {d : Die}

/-! ### Migration -/

theorem find_setMig_none (t : Nat) : (((s.setMig d t none).die d).mig).find t = none := by
  rw [State.setMig, State.die_updDie_same]
  exact Sparse.find_del_same _ _

theorem migrationStart_of_low (hlow : s.lowf d = true) (hbit : s.migBit d 2 3 = false) :
    exec (.migrationStart d 2) s = .next ((s.setMigBit d 2 3 true).signal (.lowf d)) := by
  show Host.Outcome.next ((s.migStart? d 2).getD s) = _
  simp [State.migStart?, hlow, hbit]

theorem migrationStart_of_told (h : s.lowf d = s.migBit d 2 3) : exec (.migrationStart d 2) s = .next s := by
  show Host.Outcome.next ((s.migStart? d 2).getD s) = _
  simp [State.migStart?, h]

variable {tier : Fin 3}

theorem migrationStart_of_active (htier : tier ≠ 2) (hnone : (s.die d).mig.find tier = none) (hnovict : s.migBit d tier 2 = false)
    (hring : tier = 1 → s.migBit d 1 4 = false) (hactive : s.migActive d tier = true) :
    exec (.migrationStart d tier) s = .next (s.migBegin d tier) := by
  have hne : tier.val ≠ 2 := fun h => htier (Fin.ext h)
  have hbad : (decide (tier.val = 1) && s.migBit d tier 4) = false := by
    by_cases h1 : tier = 1
    · subst h1
      simpa using hring rfl
    · simp [show tier.val ≠ 1 from fun h => h1 (Fin.ext h)]
  show Host.Outcome.next ((s.migStart? d tier).getD s) = _
  simp [State.migStart?, hne, hnone, hnovict, hbad, hactive]

variable {j : MigJob} (hjob : (s.die d).mig.find tier = some j)
include hjob

theorem migrationStart_of_job (htier : tier ≠ 2) : exec (.migrationStart d tier) s = .next s := by
  have hne : tier.val ≠ 2 := fun h => htier (Fin.ext h)
  show Host.Outcome.next ((s.migStart? d tier).getD s) = _
  simp [State.migStart?, hne, hjob]

theorem migrationResume_of_drop (hstage : j.stage = .drop) (howes : j.owes = none) :
    exec (.migrationResume d tier) s = .next (s.setMig d tier none) := by
  show Host.Outcome.next ((s.migResume? d tier).getD s) = _
  simp [State.migResume?, State.owed, hjob, hstage, howes]

theorem migrationComplete_of_busy {dest : Nat} (hstage : j.stage = .copying dest)
    (h : s.frameQuiet j.victim = false ∨ s.frameQuiet dest = false) (e : Bool) : exec (.migrationComplete d tier e) s = .next s := by
  have hready : s.migReady d tier = none := by
    rcases h with h | h
    · simp [State.migReady, hjob, hstage, h]
    · simp [State.migReady, hjob, hstage, h]
  show execMigrationComplete d tier e s = _
  simp [execMigrationComplete, hready]

theorem migrationComplete_of_quiet {dest : Nat} (hstage : j.stage = .copying dest) (hvictim : s.frameQuiet j.victim = true)
    (hdest : s.frameQuiet dest = true) (e : Bool) : exec (.migrationComplete d tier e) s = .next (s.migComplete d tier j dest e) := by
  have hready : s.migReady d tier = some (j, dest) := by simp [State.migReady, hjob, hstage, hvictim, hdest]
  show execMigrationComplete d tier e s = _
  simp [execMigrationComplete, hready]
end

/-! ### Returns of frames -/

section
variable {s : State} {d : Die} {tier : Fin 3} {x : Return} (hret : (s.die d).returns = [x]) (htier : x.tier = tier.val)
include hret htier

theorem frameReturnResume_of_full (h : s.freeRoom d tier = false) : exec (.frameReturnResume d tier) s = .next s := by
  show Host.Outcome.next (s.returnAll d tier (s.die d).returns.length) = _
  simp [hret, State.returnAll, htier, h]

theorem frameReturnResume_of_room (h : s.freeRoom d tier = true) :
    exec (.frameReturnResume d tier) s = .next ((s.setDie d { s.die d with returns := [] }).freePut x) := by
  show Host.Outcome.next (s.returnAll d tier (s.die d).returns.length) = _
  simp [hret, State.returnAll, htier, h, State.updDie]
end

/-- Settles O48: each engine's step by the lemma of its case. -/
theorem pagesMove : Obligations.PagesMove := by
  refine ⟨fun s d j hcow howes => ⟨fun hst hbusy _ => ?_, fun hst => ?_, fun hst hfree => ?_, fun dest hst =>
      ⟨fun h => ?_, fun hold hdest => ?_⟩⟩,
    fun s d => reclaimSweep_of_copies, fun s d hcow howes => ?_, ?_, fun s d t n i seen v => skips_of_sweepFrom (.refl s),
    fun s d => ⟨fun hlow hbit => ?_, migrationStart_of_told, fun tier htier => ⟨migrationStart_of_active htier, fun j hjob => ?_⟩⟩,
    fun s d tier x hret _ htier => ⟨frameReturnResume_of_full hret htier, frameReturnResume_of_room hret htier⟩⟩
  · exact snapshotCopyRequest_of_cowGo hcow hst (cowGo_of_request hcow howes hst hbusy)
  · exact snapshotCopyResume_of_cowGo hcow (cowGo_of_finish howes hst)
  · exact snapshotCopyResume_of_cowGo hcow (cowGo_of_frame howes hst hfree)
  · exact snapshotCopyComplete_of_busy hcow hst h
  · intro s1 hgood
    obtain ⟨u, hu⟩ := cowComplete_of_good (d := d) (dest := dest) hgood
    exact ⟨u.endCow d j, hu ▸ snapshotCopyComplete_of_quiet hcow hst hold hdest false, fun q => State.endCow_cow,
      fun k q => State.pageDone_hold, fun p hp e he c => State.pageDone_replays hp he⟩
  · intro v hnone
    exact ⟨_, reclaimSweep_of_noRecord hcow howes hnone, rfl, by rw [State.die_updDie_same]⟩
  · intro s d ca c s1 k x ret s2 hcow howes haddr hread hbusy w0 hvalid hvers hhome hgo hquiet hslot
    have hnext := reclaimSweep_of_reclaimable hcow howes haddr hread hbusy rfl hvalid hvers hhome hgo hquiet hslot
    exact ⟨_, hnext, rfl, by rw [State.die_updDie_same]⟩
  · exact ⟨_, migrationStart_of_low hlow hbit, rfl, rfl⟩
  · refine ⟨migrationStart_of_job hjob htier, fun hst howes => ?_, fun dest hst => ⟨?_, ?_⟩⟩
    · exact ⟨_, migrationResume_of_drop hjob hst howes, find_setMig_none _, rfl⟩
    · exact migrationComplete_of_busy hjob hst
    · exact migrationComplete_of_quiet hjob hst

end Sys2Proof.Claim
end

section
/-! SUPPORT. Logical time of a core that no access brings forward (05 R122). -/
namespace Sys2Proof.Claim
open Sys2Proof.Machine

/-- Settles O22: the step changes the one core, and its two cases are those of R122. -/
theorem logicalTimeAges : Obligations.LogicalTimeAges := by
  intro s c
  refine ⟨_, rfl, rfl, fun k hk => Sparse.get_put_other _ _ _ _ _ hk, fun hhit => ?_, fun hhit => ?_⟩
  · rw [core_updCore_same]
    simp [hhit]
  · rw [core_updCore_same]
    simp [hhit]

end Sys2Proof.Claim
end

section
/-! SUPPORT. What a seam does with a message, by its state (05 R137, R140). -/
namespace Sys2Proof.Machine

@[simp] theorem dieId_val (d : Die) : dieId d.val = d := Fin.ofNat_val_eq_self d
@[simp] theorem agent_val (a : Agent) : agent a.val = a := Fin.ofNat_val_eq_self a

/-- The state in which the seam between `x` and `y` holds the message. -/
def State.heldAt (s : State) (x y : Nat) (i : Instr) : State := s.setSeam x y { s.seam x y with held := (s.seam x y).held ++ [i] }

/-- Between two dies the state of their seam decides. -/
theorem State.sendMsg_across {s : State} {x y : Nat} (hne : x ≠ y) (hx : x < 4) (hy : y < 4) (i : Instr) :
    s.sendMsg x y i = match (s.seam x y).lstate.val with
      | 0 => s.send i
      | 1 => (s.heldAt x y i).send (.seamWake (dieId (min x y)) (dieId (max x y)))
      | 4 => if dieScope i then s else s.send i
      | _ => s.heldAt x y i := by
  unfold State.sendMsg
  rw [if_neg (by simpa [hne] using ⟨hx, hy⟩)]
  rfl

/-- A seam that wakes, or retrains, is up with what it held due in order. -/
theorem State.seamUp_of_state {s : State} {a b n : Nat} (h : (s.seam a b).lstate.val = n) :
    s.seamUp a b n = (s.setSeam a b { s.seam a b with lstate := 0, held := [] }).sendAll (s.seam a b).held := by
  unfold State.seamUp
  exact if_neg (not_not_intro h)

end Sys2Proof.Machine
end

section
/-! SUPPORT. Seams: a message on its way, and the end of a wake or a retraining (05 R137, R140). -/
namespace Sys2Proof.Claim
open Sys2Proof.Machine

section
variable {s : State} {a b : Die} (hab : a.val < b.val)
include hab

theorem dieId_min : dieId (min a.val b.val) = a := by rw [Nat.min_eq_left hab.le, dieId_val]
theorem dieId_max : dieId (max a.val b.val) = b := by rw [Nat.max_eq_right hab.le, dieId_val]

theorem sendMsg_at_seam (i : Instr) : s.sendMsg a b i = match (s.seam a b).lstate.val with
    | 0 => s.send i
    | 1 => (s.heldAt a b i).send (.seamWake a b)
    | 4 => if dieScope i then s else s.send i
    | _ => s.heldAt a b i := by
  rw [State.sendMsg_across (Nat.ne_of_lt hab) a.isLt b.isLt, dieId_min hab, dieId_max hab]

theorem seamWake_of_sleeping (h : (s.seam a b).lstate = 1) :
    exec (.seamWake a b) s = .next ((s.setSeam a b { s.seam a b with lstate := 2 }).send (.seamWakeDone a b)) := by
  show Host.Outcome.next (s.seamWaking a b) = _
  unfold State.seamWaking
  rw [dieId_min hab, dieId_max hab]
  exact congrArg Host.Outcome.next (if_pos h)

end

/-- Settles O25: a message by the state of its seam, and the ends of waking, retraining and waiting for a way. -/
theorem seamsCarryMessages : Obligations.SeamsCarryMessages := by
  intro s a b i hab k m held
  have hsend := sendMsg_at_seam (s := s) hab i
  refine ⟨fun h => ?_, fun h => ?_, fun h => ?_, fun h => ?_, seamWake_of_sleeping hab,
    fun h => congrArg Host.Outcome.next (State.seamUp_of_state (congrArg Fin.val h)),
    fun h => congrArg Host.Outcome.next (State.seamUp_of_state (congrArg Fin.val h)), rfl⟩
  · rw [hsend, show s.seam a b = m from rfl, h]; rfl
  · rw [hsend, show s.seam a b = m from rfl, h]; rfl
  · rcases h with h | h <;> rw [hsend, show s.seam a b = m from rfl, h] <;> rfl
  · rw [hsend, show s.seam a b = m from rfl, h]; rfl

end Sys2Proof.Claim
end

section
/-! SUPPORT. Heartbeats and the dead dies (05 R138-R140). -/
namespace Sys2Proof.Machine

/-- The home of a line depends on the state by its dead dies alone. -/
theorem State.homeOf_congr {s t : State} (h : ∀ d, t.isDead d = s.isDead d) (line : Nat) : t.homeOf line = s.homeOf line := by
  simp only [State.homeOf, State.liveFrom, h]

/-! ### Heartbeats -/

/-- The end of a period of die `d` at peer `p`: `d` has waited one period more for it, and it hears from `d`. -/
def beatPeer (d : Nat) (h : Sparse Nat) (p : Nat) : Sparse Nat :=
  if p = d then h else (h.put (4 * d + p) (h.get 0 (4 * d + p) + 1)).put (4 * p + d) 0

theorem State.beat_of_live {s : State} {d : Nat} (h : s.isDead d = false) : s.beat d = { s with hearts := (List.range 4).foldl (beatPeer d) s.hearts } := by
  have hfold : ∀ (l : List Nat) (t : State), l.foldl (fun s p => if p = d then s else
      { s with hearts := (s.hearts.put (4 * d + p) (s.hearts.get 0 (4 * d + p) + 1)).put (4 * p + d) 0 }) t =
      { t with hearts := l.foldl (beatPeer d) t.hearts } := by
    intro l
    induction l with
    | nil => intro t; rfl
    | cons p l ih =>
      intro t
      rw [List.foldl_cons, List.foldl_cons, ih]
      unfold beatPeer
      split <;> rfl
  unfold State.beat
  rw [h]
  exact hfold _ _

section
variable {d p : Nat} (hd : d < 4) (hne : p ≠ d)
include hd hne

theorem beatPeer_waited (hp : p < 4) (h : Sparse Nat) (x : Nat) : (beatPeer d h x).get 0 (4 * d + p) = h.get 0 (4 * d + p) + [x].count p := by
  unfold beatPeer
  by_cases hxd : x = d
  · simp [hxd, Ne.symm hne]
  · rw [if_neg hxd, Sparse.get_put_other _ _ _ _ _ (by omega)]
    by_cases hxp : x = p
    · simp [hxp, Sparse.get_put_same]
    · rw [Sparse.get_put_other _ _ _ _ _ (by omega)]
      simp [hxp]

theorem foldl_beatPeer_waited (hp : p < 4) (l : List Nat) (h : Sparse Nat) : (l.foldl (beatPeer d) h).get 0 (4 * d + p) = h.get 0 (4 * d + p) + l.count p := by
  induction l generalizing h with
  | nil => rfl
  | cons x l ih =>
    rw [List.foldl_cons, ih, beatPeer_waited hd hne hp, Nat.add_assoc, ← List.count_append, Nat.add_comm]
    simp [Nat.add_comm]

theorem foldl_beatPeer_heard (l : List Nat) (h : Sparse Nat) (hlt : ∀ x ∈ l, x < 4) (hl : p ∈ l ∨ h.get 0 (4 * p + d) = 0) :
    (l.foldl (beatPeer d) h).get 0 (4 * p + d) = 0 := by
  induction l generalizing h with
  | nil => simpa using hl
  | cons x l ih =>
    obtain ⟨hx, hlt⟩ := List.forall_mem_cons.mp hlt
    refine ih _ hlt ?_
    unfold beatPeer
    by_cases hxp : x = p
    · rw [if_neg (hxp ▸ hne), hxp]
      exact .inr (Sparse.get_put_same _ _ _ _)
    · refine hl.imp (fun hm => by simpa [Ne.symm hxp] using hm) fun h0 => ?_
      split
      · exact h0
      · rw [Sparse.get_put_other _ _ _ _ _ (by omega), Sparse.get_put_other _ _ _ _ _ (by omega), h0]
end

/-! ### Declarations -/

theorem State.mem_declareDead (s : State) {x dead : Die} (h : x ≠ dead) : .dieDeadDeclaration x dead ∈ (s.declareDead dead).pending := by
  refine List.mem_append_right _ (List.mem_map.mpr ⟨x.val, ?_, by rw [dieId_val, dieId_val]⟩)
  simpa [Fin.val_inj] using h

/-- DEAD of die `x` gets the bit of `d` (R139). -/
def State.markDead (s : State) (x d : Nat) : State := s.updDie x fun y => { y with dead := y.dead ||| (1#4 <<< d) }

theorem State.dead_markDead_same (s : State) (x d k : Nat) :
    ((s.markDead x d).die x).dead.getLsbD k = ((s.die x).dead.getLsbD k || (decide (d < 4) && decide (d = k))) := by
  rw [State.markDead, State.die_updDie_same, BitVec.getLsbD_or, ← BitVec.getLsbD_twoPow, BitVec.twoPow]

/-- A further die that learns of a death changes nothing of who is dead. -/
theorem State.isDead_markDead {s : State} {d : Nat} (h : s.isDead d = true) (x k : Nat) : (s.markDead x d).isDead k = s.isDead k := by
  by_cases hk : k = d
  · subst hk
    rw [h]
    simp only [State.isDead, List.any_eq_true, Bool.and_eq_true] at h ⊢
    obtain ⟨y, hy, hne, hbit⟩ := h
    refine ⟨y, hy, hne, ?_⟩
    by_cases hyx : y = x
    · subst hyx
      rw [State.dead_markDead_same, hbit, Bool.true_or]
    · rwa [State.markDead, State.die_updDie_other _ _ hyx]
  · have hdie : ∀ y, ((s.markDead x d).die y).dead.getLsbD k = (s.die y).dead.getLsbD k := by
      intro y
      by_cases hyx : y = x
      · subst hyx
        simp [State.dead_markDead_same, Ne.symm hk]
      · rw [State.markDead, State.die_updDie_other _ _ hyx]
    simp only [State.isDead, hdie]

theorem State.dead_dropHome (s : State) (x d : Nat) : ((s.dropHome x d).die x).dead = (s.die x).dead :=
  (congrArg DieState.dead (Sparse.get_put_same ({} : DieState) s.dies x _)).trans rfl

theorem State.mem_lines_dropHome (s : State) (x d : Nat) (l : SliceLine) : l ∈ ((s.dropHome x d).die x).lines ↔
    l ∈ (s.die x).lines ∧ ¬(isHostLine l.line = false ∧ s.homeOf l.line = d) := by
  have hlines : ((s.dropHome x d).die x).lines = (s.die x).lines.filter fun l => !(!(isHostLine l.line) && s.homeOf l.line == d) :=
    congrArg DieState.lines (Sparse.get_put_same ({} : DieState) s.dies x _)
  rw [hlines, List.mem_filter]
  cases isHostLine l.line <;> simp

/-- A die that acts on a death that another has already acted on marks it, and gives up what the dead die homed. -/
theorem State.actOnDeath_of_known {s : State} {x d : Nat} (hne : x ≠ d) (hnew : (s.die x).dead.getLsbD d = false) (h : s.isDead d = true) :
    s.actOnDeath x d = (s.markDead x d).dropHome x d := by
  unfold State.actOnDeath
  rw [if_neg (by simp [hne, hnew]), h]
  rfl

end Sys2Proof.Machine
end

section
/-! SUPPORT. Seams that sleep or fail, heartbeats that stay away, and what a die does with a declaration (05 R118, R137-R140). -/
namespace Sys2Proof.Claim
open Sys2Proof.Machine

section
variable {s : State} {a b : Die} (hab : a.val < b.val)
include hab

theorem seamSleep_of_idle (hup : (s.seam a b).lstate = 0) (hheld : (s.seam a b).held = []) (ha : 0 < s.sleepIdle a) (hb : 0 < s.sleepIdle b) :
    exec (.seamSleep a b) s = .next (s.setSeam a b { s.seam a b with lstate := 1 }) := by
  refine congrArg Host.Outcome.next (if_pos ?_)
  simp [hup, hheld, Nat.ne_of_lt hab, Nat.ne_of_gt ha, Nat.ne_of_gt hb]

omit hab in
theorem seamSleep_of_never (h : s.sleepIdle a = 0 ∨ s.sleepIdle b = 0) : exec (.seamSleep a b) s = .next s := by
  refine congrArg Host.Outcome.next (if_neg ?_)
  rcases h with h | h <;> simp [h]

theorem seamWakeFail_of_waking (h : (s.seam a b).lstate = 2) : exec (.seamWakeFail a b) s = .next
    ((s.setSeam a b { s.seam a b with lstate := 3, wakefail := (s.seam a b).wakefail + 1, retrain := (s.seam a b).retrain + 1 }).send
      (.seamRetrainComplete a b)) := by
  show Host.Outcome.next (s.seamFail a b) = _
  unfold State.seamFail
  rw [dieId_min hab, dieId_max hab]
  exact congrArg Host.Outcome.next (if_neg (by simp [h]))

theorem seamRetrainTimeout_of_retraining (h : (s.seam a b).lstate = 3) (pa pb : Bool) : exec (.seamRetrainTimeout a b pa pb) s = .next
    ((s.setSeam a b { s.seam a b with lstate := 4 }).declareDead ((if pa && !pb then b else if pb && !pa then a else b : Die)).val) := by
  have hmax : max a.val b.val = b.val := Nat.max_eq_right hab.le
  refine congrArg Host.Outcome.next ((if_neg (by simp [h])).trans ?_)
  cases pa <;> cases pb <;> simp [hmax]

omit hab in
theorem heartbeatTimeout_of_heard (h : s.hearts.get 0 (4 * a.val + b.val) < 3 ∨ (s.die a).dead.getLsbD b = true) :
    exec (.heartbeatTimeout a b) s = .next s := by
  refine congrArg Host.Outcome.next (if_neg ?_)
  rcases h with h | h
  · simp [State.missed, h]
  · simp [State.missed, h]

theorem heartbeatTimeout_of_missed (h3 : 3 ≤ s.hearts.get 0 (4 * a.val + b.val)) (hdead : (s.die a).dead.getLsbD b = false) :
    exec (.heartbeatTimeout a b) s = .next { s.declareDead b with hearts := s.hearts.put (4 * a.val + b.val) 0 } := by
  refine congrArg Host.Outcome.next (if_pos ?_)
  simp only [State.missed, hdead, h3, Nat.ne_of_lt hab, decide_true, Bool.and_true, Bool.not_false, bne_iff_ne, ne_eq, not_false_eq_true]

omit hab in
theorem dieDeadDeclaration_of_marked (h : (s.die a).dead.getLsbD b = true) : exec (.dieDeadDeclaration a b) s = .next s :=
  congrArg Host.Outcome.next (if_pos (by simp [h]))

theorem dieDeadDeclaration_of_known (hnew : (s.die a).dead.getLsbD b = false) (hdead : s.isDead b = true) :
    ∃ t, exec (.dieDeadDeclaration a b) s = .next t ∧ t.mem = s.mem ∧ (t.die a).dead.getLsbD b = true ∧
      ∀ l, l ∈ (t.die a).lines ↔ l ∈ (s.die a).lines ∧ ¬(isHostLine l.line = false ∧ s.homeOf l.line = b.val) := by
  refine ⟨_, congrArg Host.Outcome.next (State.actOnDeath_of_known (Nat.ne_of_lt hab) hnew hdead), rfl, ?_, fun l => ?_⟩
  · rw [State.dead_dropHome]
    simp [State.dead_markDead_same]
  · rw [State.mem_lines_dropHome, State.markDead, State.die_updDie_same, ← State.markDead,
      State.homeOf_congr (State.isDead_markDead hdead a)]

end

theorem heartbeat_of_live {s : State} {d : Die} (h : s.isDead d = false) : ∃ t, exec (.heartbeat d) s = .next t ∧ t = { s with hearts := t.hearts } ∧
    ∀ p : Die, p ≠ d → t.hearts.get 0 (4 * d.val + p.val) = s.hearts.get 0 (4 * d.val + p.val) + 1 ∧ t.hearts.get 0 (4 * p.val + d.val) = 0 := by
  refine ⟨_, congrArg Host.Outcome.next (State.beat_of_live h), rfl, fun p hp => ⟨?_, ?_⟩⟩
  · refine (foldl_beatPeer_waited d.isLt (Fin.val_ne_of_ne hp) p.isLt _ _).trans ?_
    rw [List.nodup_range.count, if_pos (List.mem_range.mpr p.isLt)]
  · exact foldl_beatPeer_heard d.isLt (Fin.val_ne_of_ne hp) _ _ (fun _ => List.mem_range.mp) (.inl (List.mem_range.mpr p.isLt))

/-- Settles O49: each step of a seam, of the heartbeats and of a declaration by the lemma of its case. -/
theorem seamsAndDeadDies : Obligations.SeamsAndDeadDies := by
  intro s a b hab k m set
  refine ⟨seamSleep_of_idle hab, seamSleep_of_never, seamWakeFail_of_waking hab, fun h pa pb => ?_, fun d => heartbeat_of_live,
    heartbeatTimeout_of_heard, fun h3 hdead => ?_, dieDeadDeclaration_of_marked, fun hnew hdead => ?_⟩
  · exact ⟨_, seamRetrainTimeout_of_retraining hab h pa pb, rfl, rfl, fun x => State.mem_declareDead _⟩
  · exact ⟨_, heartbeatTimeout_of_missed hab h3 hdead, rfl, rfl, fun x => State.mem_declareDead s⟩
  · obtain ⟨t, ht, hmem, hbit, hlines⟩ := dieDeadDeclaration_of_known hab hnew hdead
    exact ⟨t, ht, hmem, hbit, fun l hl => ((hlines l).mp hl).2, fun l hl hkeep => (hlines l).mpr ⟨hl, hkeep⟩⟩

end Sys2Proof.Claim
end

section
/-! SUPPORT. Bytes of a line (05 R121, R128): what a written field leaves in each bit, byte and field. -/
namespace Sys2Proof.Machine

theorem getLsbD_setLineField (d : LineData) (off n x : Nat) {i : Nat} (hi : i < 1024) :
    (setLineField d off n x).getLsbD i = if 8 * off ≤ i ∧ i < 8 * (off + n) then x.testBit (i - 8 * off) else d.getLsbD i := by
  have hin : i - 8 * off < 1024 := by omega
  simp only [setLineField, BitVec.getLsbD_or, BitVec.getLsbD_and, BitVec.getLsbD_not, BitVec.getLsbD_shiftLeft, BitVec.getLsbD_ofNat,
    Nat.testBit_two_pow_sub_one, Nat.testBit_mod_two_pow, hi, hin, decide_true, Bool.true_and]
  by_cases hlo : i < 8 * off
  · rw [if_neg (by omega)]
    simp [hlo]
  · by_cases hhi : i - 8 * off < 8 * n
    · rw [if_pos (by omega)]
      simp [hlo, hhi]
    · rw [if_neg (by omega)]
      simp [hlo, hhi]

/-- The written field reads as the number written. -/
theorem lineField_setLineField (d : LineData) {off n : Nat} (x : Nat) (h : off + n ≤ 128) : lineField (setLineField d off n x) off n = x % 2 ^ (8 * n) := by
  refine Nat.eq_of_testBit_eq fun i => ?_
  simp only [lineField, Nat.testBit_mod_two_pow, Nat.testBit_div_two_pow, BitVec.testBit_toNat]
  by_cases hi : i < 8 * n
  · rw [getLsbD_setLineField _ _ _ _ (by omega), if_pos (by omega), Nat.add_sub_cancel_right]
  · simp [hi]

/-- A byte outside the written field keeps its value. -/
theorem lineField_setLineField_other (d : LineData) {off n k : Nat} (x : Nat) (hk : k < 128) (h : ¬(off ≤ k ∧ k < off + n)) :
    lineField (setLineField d off n x) k 1 = lineField d k 1 := by
  refine Nat.eq_of_testBit_eq fun i => ?_
  simp only [lineField, Nat.testBit_mod_two_pow, Nat.testBit_div_two_pow, BitVec.testBit_toNat]
  by_cases hi : i < 8 * 1
  · rw [getLsbD_setLineField _ _ _ _ (by omega), if_neg (by omega)]
  · simp [hi]

/-- A merged line has the masked bytes of the one and the others of the other. -/
theorem lineField_mergeLine (d x : LineData) (mask : BitVec 128) {i : Nat} (hi : i < 128) :
    lineField (mergeLine d x mask) i 1 = if mask.getLsbD i then lineField x i 1 else lineField d i 1 := by
  suffices h : ∀ n ≤ 128, lineField ((List.range n).foldl (fun a k => if mask.getLsbD k then setLineField a k 1 (lineField x k 1) else a) d) i 1 =
      if i < n ∧ mask.getLsbD i = true then lineField x i 1 else lineField d i 1 by
    rw [mergeLine, h 128 (Nat.le_refl _)]
    simp [hi]
  intro n hn
  induction n with
  | zero => simp
  | succ n ih =>
    specialize ih (by omega)
    rw [List.range_succ, List.foldl_append, List.foldl_cons, List.foldl_nil]
    by_cases hin : i = n
    · subst hin
      by_cases hm : mask.getLsbD i = true
      · rw [if_pos hm, lineField_setLineField _ _ (by omega)]
        simp [hm, lineField]
      · rw [if_neg hm, ih]
        simp [hm]
    · have hlt : i < n + 1 ↔ i < n := by omega
      simp only [hlt, ← ih]
      split
      · exact lineField_setLineField_other _ _ hi (by omega)
      · rfl

end Sys2Proof.Machine
end

section
/-! SUPPORT. An access at the slice of a die that holds the line, with no error in its L2 and no other VMID in the way (05 R120, R121). -/
namespace Sys2Proof.Machine

section
variable {s : State} {d line vmid : Nat}

theorem State.l2Error_of_noErrors (hbad : (s.die d).badL2 = []) (hweak : (s.die d).weakL2 = []) (line : Nat) : s.l2Error d line = (s, false) := by
  simp [State.l2Error, hbad, hweak]

theorem State.readCheck_of_copy {l : SliceLine} (hbad : (s.die d).badL2 = []) (hweak : (s.die d).weakL2 = []) (hl : (s.die d).copy? line = some l) :
    s.readCheck d line = (s, false) := by
  simp [State.readCheck, State.l2Error_of_noErrors hbad hweak, hl]

theorem State.mustWait_of_vmid (h : s.lineVmid? line = some vmid) : s.mustWait line vmid = false := by simp [State.mustWait, h]
theorem State.claim_of_vmid (h : s.lineVmid? line = some vmid) : s.claim line vmid = s := by simp [State.claim, h]

end

theorem readable_of_ne {st : Moesi} (h : st ≠ .I) : readable st = true := by cases st <;> simp_all [readable]
theorem writable_of_modified_or_exclusive {st : Moesi} (h : st = .M ∨ st = .E) : writable st = true := by rcases h with rfl | rfl <;> rfl

/-- The home learns that the agent has written the line (R125, R128). -/
theorem ownerWrote_eq (a : Nat) : ownerWrote a = fun e => if e.st = .E ∧ e.own.val = a then { e with st := .M } else e := by
  funext e
  simp [ownerWrote]

end Sys2Proof.Machine
end

section
/-! SUPPORT. What a slice does with a load and with a store (05 R120, R121, R128). -/
namespace Sys2Proof.Claim
open Sys2Proof.Machine

theorem sliceLoadsLeaseTheLine : SliceLoadsLeaseTheLine := by
  intro s m l d hacc hview hcopy hst hlost hkey hvmid hbad hweak rts r
  have hload : s.sliceLoad m = s.answerLoad d l m := by
    simp [State.sliceLoad, hlost, hkey, hacc, hview, State.mustWait_of_vmid hvmid, State.claim_of_vmid hvmid,
      State.readCheck_of_copy hbad hweak hcopy, hcopy, readable_of_ne hst, d]
  exact ⟨congrArg Host.Outcome.next hload, by omega, by omega⟩

theorem sliceStoresTakeTheirTime : SliceStoresTakeTheirTime := by
  intro s m l d home hcopy hline hst hlost hkey hvmid hbad hweak hoff wts old new
  have hstore : s.sliceStore m = s.performStore d l m := by
    simp [State.sliceStore, hlost, hkey, State.mustWait_of_vmid hvmid, State.claim_of_vmid hvmid,
      State.readCheck_of_copy hbad hweak hcopy, hcopy, writable_of_modified_or_exclusive hst, d]
  refine ⟨{ l with data := setLineField l.data m.off m.size new, wts := wts, rts := wts, st := .M
                   dirty := decide (s.homeOf l.line = d) && !isHostLine l.line },
    rfl, rfl, rfl, rfl, rfl, rfl, fun k hk hout => lineField_setLineField_other _ _ hk hout, lineField_setLineField _ _ hoff, ?_⟩
  intro reply s1 waits learns
  obtain ⟨line, kind, vmid, st, lwts, lrts, dirty, data⟩ := l
  obtain rfl : line = m.line := hline
  rw [show exec (.streq m) s = .next (s.writeAt d _ m.off m.size new wts (some reply)) from congrArg Host.Outcome.next hstore]
  unfold State.writeAt
  rw [ownerWrote_eq]
  exact ⟨fun hhome hhost => congrArg Host.Outcome.next ((if_neg (not_not_intro hhome)).trans (if_neg (by simp [hhost]))),
    fun hhome hhost => congrArg Host.Outcome.next ((if_neg (not_not_intro hhome)).trans (if_pos hhost)),
    fun hhome => congrArg Host.Outcome.next (if_pos hhome)⟩

/-- Settles O20: the slice answers the load, and performs the store, from the copy that it holds. -/
theorem slicesServeLoadsAndStores : Obligations.SlicesServeLoadsAndStores := ⟨sliceLoadsLeaseTheLine, sliceStoresTakeTheirTime⟩

end Sys2Proof.Claim
end

section
/-! SUPPORT. Messages, lines and directory entries: what sending a message leaves alone, and what a die reads after a line or an entry has been
written (05 R127-R132). -/
namespace Sys2Proof.Machine

/-! ### Messages -/

/-- A message changes what is due and what the seams hold. -/
theorem State.sendMsg_eq (s : State) (x y : Nat) (i : Instr) :
    s.sendMsg x y i = { s with seams := (s.sendMsg x y i).seams, pending := (s.sendMsg x y i).pending } := by
  unfold State.sendMsg
  split
  · rfl
  · extract_lets m held
    split
    · rfl
    · rfl
    · split <;> rfl
    · rfl

@[simp] theorem State.sendMsg_dies (s : State) (x y : Nat) (i : Instr) : (s.sendMsg x y i).dies = s.dies := by rw [State.sendMsg_eq]
@[simp] theorem State.sendMsg_mem (s : State) (x y : Nat) (i : Instr) : (s.sendMsg x y i).mem = s.mem := by rw [State.sendMsg_eq]
@[simp] theorem State.die_sendMsg (s : State) (x y : Nat) (i : Instr) (d : Nat) : (s.sendMsg x y i).die d = s.die d := by
  simp [State.die]
@[simp] theorem State.homeOf_sendMsg (s : State) (x y : Nat) (i : Instr) (line : Nat) : (s.sendMsg x y i).homeOf line = s.homeOf line :=
  State.homeOf_congr (fun d => by simp [State.isDead]) line

@[simp] theorem State.sendAll_nil (s : State) : s.sendAll [] = s := by simp [State.sendAll]

/-- What a message makes due is itself, or the wake of its seam. -/
theorem State.sendMsg_pending (s : State) (x y : Nat) (i : Instr) :
    ∃ l, (s.sendMsg x y i).pending = s.pending ++ l ∧ ∀ j ∈ l, j = i ∨ ∃ a b, j = .seamWake a b := by
  unfold State.sendMsg
  split
  · exact ⟨[i], rfl, by simp⟩
  · extract_lets m held
    split
    · exact ⟨[i], rfl, by simp⟩
    · exact ⟨_, rfl, by simp⟩
    · split
      · exact ⟨[], by simp⟩
      · exact ⟨[i], rfl, by simp⟩
    · exact ⟨[], by simp [held]⟩

/-! ### Lines -/

section
variable (x : DieState) (l : SliceLine)

theorem DieState.find?_putLine_same : (x.putLine l).find? l.line l.kind = some l := by simp [DieState.putLine, DieState.find?]

variable {l} in
theorem DieState.copy?_putLine {line : Nat} (hl : l.line = line) (hk : l.kind = .copy) : (x.putLine l).copy? line = some l := by
  rw [DieState.copy?, ← hl, ← hk, DieState.find?_putLine_same]

theorem DieState.find?_putLine_other {n : Nat} {k : LineKind} (h : ¬(l.line = n ∧ l.kind = k)) : (x.putLine l).find? n k = x.find? n k := by
  have hl : (l.line == n && l.kind == k) = false := by simpa using h
  simp only [DieState.putLine, DieState.find?, List.find?_cons, hl, List.find?_filter]
  congr 1
  funext y
  by_cases hy : y.line = n ∧ y.kind = k
  · obtain ⟨rfl, rfl⟩ := hy
    have hne : (y.line == l.line && y.kind == l.kind) = false := by simpa [eq_comm (a := y.line), eq_comm (a := y.kind)] using h
    simp [hne]
  · have : (y.line == n && y.kind == k) = false := by simpa using hy
    simp [this]

variable {x l} in
/-- A line that the die holds becomes its most recently used, and no other change is seen. -/
theorem DieState.find?_putLine_of_find? {line : Nat} {kind : LineKind} (h : x.find? line kind = some l) (n : Nat) (k : LineKind) :
    (x.putLine l).find? n k = x.find? n k := by
  have hl : l.line = line ∧ l.kind = kind := by simpa using List.find?_some h
  by_cases hn : l.line = n ∧ l.kind = k
  · obtain ⟨rfl, rfl⟩ := hn
    rw [DieState.find?_putLine_same, hl.1, hl.2, h]
  · exact x.find?_putLine_other l hn
end

theorem DieState.copy?_kind {x : DieState} {line : Nat} {l : SliceLine} (h : x.copy? line = some l) : l.line = line ∧ l.kind = .copy := by
  simpa using List.find?_some h

/-! ### Entries -/

section
variable {x : DieState} {line : Nat} {e : DirEntry}

/-- An entry stands in T0 or in T1, and a change of it writes its slot. -/
theorem DieState.entry?_cases (h : x.entry? line = some e) : e.line = line ∧
    ((x.t0.find (hash0 line) = some e ∧ ∀ f, x.updEntry line f = { x with t0 := x.t0.put (hash0 line) (f e) }) ∨
      ((∀ k, x.t0.find (hash0 line) = some k → k.line ≠ line) ∧ x.t1.find (hash1 line) = some e ∧
        ∀ f, x.updEntry line f = { x with t1 := x.t1.put (hash1 line) (f e) })) := by
  have ht1 : ∀ o : Option DirEntry, (match o with | some e => if e.line = line then some e else none | none => none) = some e →
      o = some e ∧ e.line = line := by
    rintro (_ | k) hk
    · simp at hk
    · by_cases hkl : k.line = line
      · simp only [hkl, if_true, Option.some.injEq] at hk
        exact ⟨congrArg some hk, hk ▸ hkl⟩
      · simp [hkl] at hk
  cases h0 : x.t0.find (hash0 line) with
  | none =>
    simp only [DieState.entry?, h0] at h
    obtain ⟨h1, hl⟩ := ht1 _ h
    exact ⟨hl, .inr ⟨by simp, h1, fun f => by simp [DieState.updEntry, h0, h1, hl]⟩⟩
  | some k =>
    by_cases hk : k.line = line
    · simp only [DieState.entry?, h0, hk, if_true, Option.some.injEq] at h
      subst h
      exact ⟨hk, .inl ⟨rfl, fun f => by simp [DieState.updEntry, h0, hk]⟩⟩
    · simp only [DieState.entry?, h0, hk, if_false] at h
      obtain ⟨h1, hl⟩ := ht1 _ h
      exact ⟨hl, .inr ⟨by simpa using hk, h1, fun f => by simp [DieState.updEntry, h0, hk, h1, hl]⟩⟩

theorem DieState.entry?_of_t0 (h : x.t0.find (hash0 line) = some e) (hl : e.line = line) : x.entry? line = some e := by
  simp [DieState.entry?, h, hl]

theorem DieState.entry?_of_t1 (h0 : ∀ k, x.t0.find (hash0 line) = some k → k.line ≠ line) (h : x.t1.find (hash1 line) = some e) (hl : e.line = line) :
    x.entry? line = some e := by
  cases hk : x.t0.find (hash0 line) with
  | none => simp [DieState.entry?, hk, h, hl]
  | some k => simp [DieState.entry?, hk, h, hl, h0 k hk]

/-- A changed entry reads as changed. -/
theorem DieState.entry?_updEntry (h : x.entry? line = some e) {f : DirEntry → DirEntry} (hf : (f e).line = e.line) :
    (x.updEntry line f).entry? line = some (f e) := by
  obtain ⟨hl, ⟨-, hupd⟩ | ⟨h0, -, hupd⟩⟩ := DieState.entry?_cases h
  · rw [hupd]
    exact DieState.entry?_of_t0 (Sparse.find_put_same _ _ _) (hf.trans hl)
  · rw [hupd]
    exact DieState.entry?_of_t1 h0 (Sparse.find_put_same _ _ _) (hf.trans hl)

/-- A change of an entry changes the directory's tables alone. -/
theorem DieState.updEntry_eq (x : DieState) (line : Nat) (f : DirEntry → DirEntry) :
    x.updEntry line f = { x with t0 := (x.updEntry line f).t0, t1 := (x.updEntry line f).t1 } := by
  unfold DieState.updEntry
  split
  · split
    · rfl
    · split
      · split <;> rfl
      · rfl
  · split
    · split <;> rfl
    · rfl

/-- The entry's new value is all that a change of it depends on. -/
theorem DieState.updEntry_congr (h : x.entry? line = some e) {f g : DirEntry → DirEntry} (hfg : f e = g e) : x.updEntry line f = x.updEntry line g := by
  obtain ⟨-, ⟨-, hupd⟩ | ⟨-, -, hupd⟩⟩ := DieState.entry?_cases h <;> rw [hupd, hupd, hfg]

end

@[simp] theorem DieState.updEntry_lines (x : DieState) (line : Nat) (f : DirEntry → DirEntry) : (x.updEntry line f).lines = x.lines := by
  rw [DieState.updEntry_eq]
@[simp] theorem DieState.updEntry_homeTx (x : DieState) (line : Nat) (f : DirEntry → DirEntry) : (x.updEntry line f).homeTx = x.homeTx := by
  rw [DieState.updEntry_eq]
@[simp] theorem DieState.updEntry_busy (x : DieState) (line n : Nat) (f : DirEntry → DirEntry) : (x.updEntry line f).busy n = x.busy n := by
  rw [DieState.updEntry_eq]
  rfl

@[simp] theorem DieState.updEntry_mtsOf (x : DieState) (line n : Nat) (f : DirEntry → DirEntry) : (x.updEntry line f).mtsOf n = x.mtsOf n := by
  rw [DieState.updEntry_eq]
  rfl

end Sys2Proof.Machine
end

section
/-! SUPPORT. What an agent does with a line that it holds, and what is left when its request is complete (05 R126-R130). -/
namespace Sys2Proof.Machine

@[simp] theorem agent_die_val (d : Die) : (agent d.val).val = d.val := Nat.mod_eq_of_lt (Nat.lt_of_lt_of_le d.isLt (by omega))

theorem Die.val_ne_host (d : Die) : d.val ≠ 4 := Nat.ne_of_lt d.isLt

/-! ### The agent's answers -/

section
variable {s : State} {a line : Nat}

theorem State.held?_of_copy {l : SliceLine} (ha : a ≠ 4) (hl : (s.die a).copy? line = some l) : s.held? a line = some l := by
  rw [State.held?, if_neg ha, hl]

theorem State.horizon_of_copy {l : SliceLine} (ha : a ≠ 4) (hl : (s.die a).copy? line = some l) : s.horizon a line = max l.wts l.rts := by
  rw [State.horizon, if_neg ha, State.held?_of_copy ha hl]

/-- Away from the home a line that is given up leaves the die's L2. -/
theorem State.giveUp_of_copy {l : SliceLine} (ha : a ≠ 4) (hl : (s.die a).copy? line = some l) (hhome : s.homeOf line ≠ a) :
    s.giveUp a line = s.updDie a fun x => x.dropKind line .copy := by
  simp [State.giveUp, ha, hl, hhome]

/-- With no answer of the home on its way nothing is taken back. -/
theorem State.takeBack_of_none (hp : s.pending.any (isAnswer a line) = false) (hf : (s.die a).fillWait.any (isAnswer a line) = false) :
    s.takeBack a line = s := by
  simp [State.takeBack, hp, hf]

/-- A message that is no answer to the agent leaves none due. -/
theorem State.sendMsg_noAnswer {x y : Nat} {i : Instr} (hi : isAnswer a line i = false) (hp : s.pending.any (isAnswer a line) = false) :
    (s.sendMsg x y i).pending.any (isAnswer a line) = false := by
  obtain ⟨l, hl, hmem⟩ := s.sendMsg_pending x y i
  have hnone : l.any (isAnswer a line) = false := List.any_eq_false.mpr fun j hj => by
    obtain rfl | ⟨_, _, rfl⟩ := hmem j hj
    · simp [hi]
    · simp [isAnswer]
  rw [hl, List.any_append, hp, hnone, Bool.or_false]

end

/-! ### The end of a request -/

/-- The request of die `d` for the line is no longer in flight. -/
def State.closeTx (s : State) (d line : Nat) : State := s.updDie d fun x => { x with agentTx := x.agentTx.filter fun k => k.line != line }

/-- The accesses that waited for the line go on, and the home and the waiting fills learn of the end. -/
def State.goOn (s : State) (d line : Nat) : State := ((s.serveWaiters d line).txDone d line).wakeFills

section
variable {s : State} {d line : Nat}

/-- The end of a home's transaction is seen in its transactions alone. -/
theorem State.die_txDone (s : State) (a line x : Nat) : ∃ tx, (s.txDone a line).die x = { s.die x with homeTx := tx } := by
  unfold State.txDone
  extract_lets h
  split
  · split
    · by_cases hx : x = h
      · subst hx
        exact ⟨_, Sparse.get_put_same _ _ _ _⟩
      · exact ⟨_, Sparse.get_put_other _ _ _ _ _ hx⟩
    · exact ⟨_, rfl⟩
  · exact ⟨_, rfl⟩

/-- Where no access waits for the line, none goes on. -/
theorem State.serveWaiters_of_none {l : SliceLine} (hl : (s.die d).copy? line = some l) (hld : (s.die d).waitLd = []) (hst : (s.die d).waitSt = []) :
    s.serveWaiters d line = s.updDie d fun x => { x with waitLd := x.waitLd.filter fun m => m.line != line } := by
  simp [State.serveWaiters, hl, hld, hst]

/-- What the die holds once a request of its own is complete for which no access waits. -/
theorem State.die_goOn {l : SliceLine} (hl : (s.die d).copy? line = some l) (hld : (s.die d).waitLd = []) (hst : (s.die d).waitSt = []) :
    ∃ tx, (s.goOn d line).die d = { s.die d with homeTx := tx } := by
  rw [State.goOn, State.serveWaiters_of_none hl hld hst]
  obtain ⟨tx, htx⟩ := (s.updDie d fun x => { x with waitLd := x.waitLd.filter fun m => m.line != line }).die_txDone d line d
  refine ⟨tx, htx.trans ?_⟩
  rw [State.die_updDie_same]
  simp [hld]

/-- So the die holds the line that has just come, and the requests that were left. -/
theorem State.goOn_of_putLine {x : DieState} {l : SliceLine} (hx : s.die d = x.putLine l) (hl : l.line = line) (hk : l.kind = .copy)
    (hld : x.waitLd = []) (hst : x.waitSt = []) : ((s.goOn d line).die d).agentTx = x.agentTx ∧ ((s.goOn d line).die d).copy? line = some l := by
  have hcopy := x.copy?_putLine hl hk
  rw [← hx] at hcopy
  obtain ⟨tx, hgo⟩ := State.die_goOn hcopy (by rw [hx]; exact hld) (by rw [hx]; exact hst)
  rw [hgo]
  exact ⟨by rw [hx]; rfl, hcopy⟩

theorem State.die_touchFrame (s : State) (pa x : Nat) : ∃ a, (s.touchFrame pa).die x = { s.die x with access := a } := by
  unfold State.touchFrame
  split
  next d f _ =>
    by_cases hx : x = d
    · subst hx
      exact ⟨_, State.die_updDie_same s x _⟩
    · exact ⟨(s.die x).access, State.die_updDie_other s _ hx⟩
  next => exact ⟨(s.die x).access, rfl⟩

/-- A fill is seen in the counts of fills and in access bits beside the line itself. -/
theorem State.die_noteFill (s : State) (line x : Nat) :
    ∃ m n a, (s.noteFill line).die x = { s.die x with fills := m, fillsCap := n, access := a } := by
  unfold State.noteFill
  split
  · exact ⟨(s.die x).fills, (s.die x).fillsCap, (s.die x).access, rfl⟩
  next d f _ =>
    extract_lets hbm n s1
    have hcount : ∃ m k, s1.die x = { s.die x with fills := m, fillsCap := k } := by
      by_cases hx : x = d
      · subst hx
        rw [State.die_updDie_same]
        split
        · exact ⟨n, (s.die x).fillsCap, rfl⟩
        · exact ⟨(s.die x).fills, n, rfl⟩
      · exact ⟨(s.die x).fills, (s.die x).fillsCap, State.die_updDie_other s _ hx⟩
    obtain ⟨m, k, hs1⟩ := hcount
    split
    · obtain ⟨a, ha⟩ := s1.die_touchFrame (lineAddr line) x
      exact ⟨m, k, a, by rw [ha, hs1]⟩
    · exact ⟨m, k, (s.die x).access, by rw [hs1]⟩

/-- A line goes into an L2 that holds none. -/
theorem State.fill_of_empty {l : SliceLine} (hempty : (s.die d).lines = []) :
    s.fill d l = some ((s.updDie d fun x => x.putLine l).noteFill l.line) := by
  simp [State.fill, DieState.find?, hempty]

section
variable {t : AgentTx} {st : Moesi} {msg : Instr}

theorem State.completeTx_of_upgrade {l : SliceLine} (hdata : t.data = none) (hcopy : (s.die d).copy? t.line = some l) :
    s.completeTx d t st msg =
      ((s.closeTx d t.line).updDie d fun x => x.putLine { l with st := st, rts := max l.rts t.hts }).goOn d t.line := by
  simp only [State.completeTx, hdata, hcopy]
  rfl

/-- The line that DATA installs in an L2 that holds no line. -/
def AgentTx.arrived (t : AgentTx) (st : Moesi) (bytes : LineData) (wts : Nat) : SliceLine :=
  { line := t.line, kind := .copy, vmid := t.vmid, st := st, wts := wts, rts := max wts t.hts, dirty := false, data := bytes }

theorem State.completeTx_of_data {bytes : LineData} {wts : Nat} (hdata : t.data = some (bytes, wts)) (hempty : (s.die d).lines = []) :
    s.completeTx d t st msg = (((((s.updDie d fun x => x.dropKind t.line .mirror).updDie d fun x =>
      x.putLine (t.arrived st bytes wts)).noteFill t.line).closeTx d t.line).goOn d t.line) := by
  have hnone : (s.die d).find? t.line .mirror = none := by simp [DieState.find?, hempty]
  have hfill := State.fill_of_empty (s := s.updDie d fun x => x.dropKind t.line .mirror) (d := d) (l := t.arrived st bytes wts)
    (by simp [DieState.dropKind, hempty])
  simp only [AgentTx.arrived] at hfill
  simp only [State.completeTx, hdata, hnone, hfill]
  rfl
end

end
end Sys2Proof.Machine
end

section
/-! SUPPORT. The agents: their answers to the home, and the end of a request of their own (05 R126-R130, R135). -/
namespace Sys2Proof.Claim
open Sys2Proof.Machine

/-- What an owner's copy becomes when the owner has answered a read (R127). -/
def ownerAfterRead : Moesi → Moesi
  | .E => .S
  | .M => .O
  | k => k

theorem sharedBy_eq (st : Moesi) (o a : Nat) : sharedBy (st == .O) o a = fun e =>
    if st = .O then { e with st := .O, shr := e.shr ||| (1#5 <<< a) } else { e with st := .S, shr := e.shr ||| (1#5 <<< o) ||| (1#5 <<< a) } := by
  funext e
  simp [sharedBy, bit5]

section
variable {s : State} {h a b : Die} {line : Nat} {l : SliceLine} (hcopy : (s.die a).copy? line = some l) (hne : h ≠ a)
  (hhome : s.homeOf line = h.val) (hset : Settled s a line)
include hcopy hne hhome hset

/-- The agent gives up the line and tells its home so. -/
theorem giveUp_told {i : Instr} (hi : isAnswer a line i = false) : (((s.giveUp a line).sendMsg a h i).takeBack a line) =
    (s.updDie a fun x => x.dropKind line .copy).sendMsg a h i := by
  rw [State.giveUp_of_copy (Die.val_ne_host a) hcopy (hhome ▸ Fin.val_ne_of_ne hne)]
  obtain ⟨hp, hf, -, -⟩ := hset
  refine State.takeBack_of_none (State.sendMsg_noAnswer hi hp) ?_
  rw [State.die_sendMsg, State.die_updDie_same]
  exact hf

theorem inv_of_copy : exec (.inv h (agent a) line) s =
    .next ((s.updDie a fun x => x.dropKind line .copy).sendMsg a h (.invack h line (agent a) (max l.wts l.rts))) := by
  show Host.Outcome.next (s.agentInv h (agent a).val line) = _
  rw [agent_die_val, State.agentInv, State.horizon_of_copy (Die.val_ne_host a) hcopy, dieId_val, giveUp_told hcopy hne hhome hset rfl]

theorem binv_of_copy : exec (.binv h (agent a) line) s =
    .next ((s.updDie a fun x => x.dropKind line .copy).sendMsg a h (.back h line (agent a) (max l.wts l.rts))) := by
  show Host.Outcome.next (s.agentBinv h (agent a).val line) = _
  rw [agent_die_val, State.agentBinv, State.horizon_of_copy (Die.val_ne_host a) hcopy, dieId_val, giveUp_told hcopy hne hhome hset rfl]

omit hcopy hne hhome in
theorem ownerCheck_of_settled : s.ownerCheck a line = (s, false) := by
  obtain ⟨-, -, hbad, hweak⟩ := hset
  rw [State.ownerCheck, if_neg (Die.val_ne_host a), State.l2Error_of_noErrors hbad hweak]

omit hcopy hne hhome hset in
theorem data_noAnswer (hab : a ≠ b) (k : DataKind) (x : LineData) (w t : Nat) (o : Bool) : isAnswer a line (.data (agent b) line k x w t o) = false := by
  have : (b.val == a.val) = false := by simpa [Fin.val_inj] using hab.symm
  rw [isAnswer, agent_die_val, this, Bool.false_and]

omit hhome in
theorem fwds_of_copy (hab : a ≠ b) : exec (.fwds h (agent a) line (agent b)) s =
    .next (((s.updDie a fun x => x.putLine { l with st := ownerAfterRead l.st }).updDie h fun x =>
      x.updEntry line (sharedBy (ownerAfterRead l.st == .O) a b)).sendMsg a b (.data (agent b) line .S l.data l.wts 0 true)) := by
  show Host.Outcome.next (s.agentFwds h (agent a).val line (agent b).val) = _
  have hdata := data_noAnswer (line := line) hab .S l.data l.wts 0 true
  rw [agent_die_val, agent_die_val, State.agentFwds, ownerCheck_of_settled hset]
  simp only [State.held?_of_copy (Die.val_ne_host a) hcopy, State.putHeld, if_neg (Die.val_ne_host a), Bool.false_eq_true, if_false]
  obtain ⟨hp, hf, -, -⟩ := hset
  refine congrArg Host.Outcome.next (State.takeBack_of_none (State.sendMsg_noAnswer hdata hp) ?_)
  rw [State.die_sendMsg, State.die_updDie_other _ _ (Fin.val_ne_of_ne hne.symm), State.die_updDie_same]
  exact hf

theorem fwdm_of_copy (hab : a ≠ b) : exec (.fwdm h (agent a) line (agent b)) s =
    .next (((s.sendMsg a b (.data (agent b) line .M l.data l.wts (max l.wts l.rts) true)).updDie a fun x => x.dropKind line .copy).sendMsg a h
      (.invack h line (agent a) (max l.wts l.rts))) := by
  show Host.Outcome.next (s.agentFwdm h (agent a).val line (agent b).val) = _
  have hdata := data_noAnswer (line := line) hab .M l.data l.wts (max l.wts l.rts) true
  rw [agent_die_val, agent_die_val, State.agentFwdm, ownerCheck_of_settled hset, State.horizon_of_copy (Die.val_ne_host a) hcopy, dieId_val]
  simp only [State.held?_of_copy (Die.val_ne_host a) hcopy, Bool.false_eq_true, if_false]
  have hset' : Settled (s.sendMsg a b (.data (agent b) line .M l.data l.wts (max l.wts l.rts) true)) a line := by
    unfold Settled
    rw [State.die_sendMsg]
    exact ⟨State.sendMsg_noAnswer hdata hset.1, hset.2⟩
  rw [giveUp_told (by rwa [State.die_sendMsg]) hne (by rwa [State.homeOf_sendMsg]) hset' rfl]
end

section
variable {s : State} {a : Die} {line : Nat}

theorem mack_of_waiting {w : MirWait} (hw : (s.die a).mirWait = [w]) (hl : w.line = line) : exec (.mack (agent a) line w.wts) s =
    .next ((s.updDie a fun x => { x with mirWait := [] }).sendAll (w.reply.toList.map .stdone)) := by
  show Host.Outcome.next (s.agentMack (agent a).val line w.wts) = _
  rw [agent_die_val, State.agentMack, if_neg (Die.val_ne_host a)]
  simp [hw, hl, indexWhere, State.updDie, dropAt]

variable {t : AgentTx} (htx : (s.die a).agentTx = [t]) (hline : t.line = line) (hld : (s.die a).waitLd = []) (hst : (s.die a).waitSt = [])
include htx hline hld hst

/-- A grant to the agent whose upgrade is in flight lets it write the line, with rts at or above the HTS received (R128). -/
theorem gnt_of_upgrade {l : SliceLine} (hcopy : (s.die a).copy? line = some l) (hdata : t.data = none) (hts : Nat) :
    ∃ u, exec (.gnt (agent a) line hts false) s = .next u ∧ (u.die a).agentTx = [] ∧
      (u.die a).copy? line = some { l with st := .M, rts := max l.rts (max t.hts hts) } := by
  subst hline
  obtain ⟨hl, hk⟩ := DieState.copy?_kind hcopy
  have hgnt : exec (.gnt (agent a) t.line hts false) s =
      .next (s.completeTx a { t with gnt := true, hts := max t.hts hts } .M (.gnt (agent a) t.line hts false)) := by
    show Host.Outcome.next (s.agentGnt (agent a).val t.line hts false) = _
    rw [agent_die_val]
    simp [State.agentGnt, Die.val_ne_host a, htx]
  refine ⟨_, hgnt.trans (congrArg Host.Outcome.next (State.completeTx_of_upgrade (t := { t with gnt := true, hts := max t.hts hts }) hdata hcopy)),
    State.goOn_of_putLine (x := { s.die a with agentTx := [] }) ?_ hl hk hld hst⟩
  rw [State.die_updDie_same, State.closeTx, State.die_updDie_same, htx]
  simp

/-- DATA from the home for a die that holds nothing installs the line, with rts at or above the HTS received (R128). -/
theorem data_installs (hempty : (s.die a).lines = []) {k : DataKind} (d : LineData) (wts hts : Nat) :
    ∃ u, exec (.data (agent a) line k d wts hts false) s = .next u ∧ (u.die a).agentTx = [] ∧
      (u.die a).copy? line = some ({ t with hts := max t.hts hts }.arrived (moesiOf k) d wts) := by
  subst hline
  have hdata : exec (.data (agent a) t.line k d wts hts false) s =
      .next (s.completeTx a { t with data := some (d, wts), hts := max t.hts hts, needGnt := false } (moesiOf k) (.data (agent a) t.line k d wts hts false)) := by
    show Host.Outcome.next (s.agentData (agent a).val t.line k d wts hts false) = _
    rw [agent_die_val]
    simp [State.agentData, Die.val_ne_host a, htx]
  rw [hdata, State.completeTx_of_data rfl hempty]
  obtain ⟨m, n, f, hnote⟩ := ((s.updDie a fun x => x.dropKind t.line .mirror).updDie a fun x =>
    x.putLine ({ t with hts := max t.hts hts }.arrived (moesiOf k) d wts)).die_noteFill t.line a
  refine ⟨_, rfl, State.goOn_of_putLine
    (x := { (s.die a).dropKind t.line .mirror with fills := m, fillsCap := n, access := f, agentTx := [] }) ?_ rfl rfl hld hst⟩
  rw [State.closeTx, State.die_updDie_same]
  refine (congrArg (fun x : DieState => { x with agentTx := x.agentTx.filter fun k => k.line != t.line }) hnote).trans ?_
  rw [State.die_updDie_same, State.die_updDie_same]
  simp [DieState.putLine, DieState.dropKind, htx]

end

section
variable {s : State} {h a : Die} {line : Nat} {e : DirEntry} {l : SliceLine}

theorem homeLine?_of_mirror {x : DieState} (hcopy : x.copy? line = none) (hmir : x.find? line .mirror = some l) : x.homeLine? line = some l := by
  simp [DieState.homeLine?, hcopy, hmir]

/-- The home's mirror with the bytes that an owner has written (R128). -/
def mirrored (l : SliceLine) (d : LineData) (mask : BitVec 128) (wts : Nat) : SliceLine :=
  { l with data := mergeLine l.data d mask, dirty := true, wts := max l.wts wts, rts := max l.rts wts }

/-- The home when a mirrored write of agent `a` has reached it (R128). -/
def mirroredAt (s : State) (h a : Die) (line : Nat) (l : SliceLine) (d : LineData) (mask : BitVec 128) (wts : Nat) : State :=
  (s.updDie h fun x => x.updEntry line fun e => ownerWrote a { e with hts := max e.hts wts }).updDie h fun x => x.putLine (mirrored l d mask wts)

theorem die_mirroredAt (s : State) (h a : Die) (line : Nat) (l : SliceLine) (d : LineData) (mask : BitVec 128) (wts : Nat) :
    (mirroredAt s h a line l d mask wts).die h =
      ((s.die h).updEntry line fun e => ownerWrote a { e with hts := max e.hts wts }).putLine (mirrored l d mask wts) := by
  rw [mirroredAt, State.die_updDie_same, State.die_updDie_same]

theorem homeMirror_of_mirror (hcopy : (s.die h).copy? line = none) (hmir : (s.die h).find? line .mirror = some l) (hhost : isHostLine line = false)
    (d : LineData) (mask : BitVec 128) (wts : Nat) : s.homeMirror h line a d mask wts = some (mirroredAt s h a line l d mask wts) := by
  have hline : ((s.updDie h fun x => x.updEntry line fun e => ownerWrote a { e with hts := max e.hts wts }).die h).homeLine? line = some l := by
    rw [State.die_updDie_same]
    exact homeLine?_of_mirror (by simpa [DieState.copy?, DieState.find?] using hcopy) (by simpa [DieState.find?] using hmir)
  simp only [State.homeMirror, Die.val_ne_host a, if_false, hhost, Bool.false_eq_true, hline]
  rfl

/-- An owner's bytes are merged into the home's mirror, and the home answers (R128). -/
theorem mirw_of_mirror (hentry : (s.die h).entry? line = some e) (hst : e.st = .M) (hcopy : (s.die h).copy? line = none)
    (hmir : (s.die h).find? line .mirror = some l) (hhost : isHostLine line = false) (hfill : (s.die h).fillWait = []) {wts : Nat}
    (hbefore : s.pending.any (mirwBefore line a wts) = false) (d : LineData) (mask : BitVec 128) :
    ∃ t : State, exec (.mirw h line (agent a) d mask wts) s = .next (t.sendMsg h a (.mack (agent a) line wts)) ∧
      (t.die h).entry? line = some { e with hts := max e.hts wts } ∧ (t.die h).find? line .mirror = some (mirrored l d mask wts) ∧ t.mem = s.mem := by
  obtain ⟨hl, hk⟩ : l.line = line ∧ l.kind = .mirror := by simpa using List.find?_some hmir
  have hfill1 : ((mirroredAt s h a line l d mask wts).die h).fillWait = [] := by
    rw [die_mirroredAt, DieState.updEntry_eq]
    exact hfill
  refine ⟨mirroredAt s h a line l d mask wts, ?_, ?_, ?_, rfl⟩
  · show Host.Outcome.next (s.homeMirw h line (agent a).val d mask wts) = _
    rw [agent_die_val, State.homeMirw]
    simp [hfill, hbefore, homeMirror_of_mirror hcopy hmir hhost, hfill1]
  · rw [die_mirroredAt, DieState.updEntry_congr hentry (g := fun e => { e with hts := max e.hts wts }) (by simp [ownerWrote, hst])]
    exact DieState.entry?_updEntry hentry rfl
  · have hput := DieState.find?_putLine_same ((s.die h).updEntry line fun e => ownerWrote a { e with hts := max e.hts wts }) (mirrored l d mask wts)
    rwa [← die_mirroredAt, show (mirrored l d mask wts).line = line from hl, show (mirrored l d mask wts).kind = .mirror from hk] at hput

end

theorem agentsAnswerTheHome : AgentsAnswerTheHome := by
  intro s h a b line l hcopy hline hkind hne hhome hset
  refine ⟨inv_of_copy hcopy hne hhome hset, binv_of_copy hcopy hne hhome hset, fun hab st' hE hM hO => ?_,
    fwdm_of_copy hcopy hne hhome hset, fun hts htx hld hst => ?_, fun w hw hwl => ?_⟩
  · have hst' : st' = ownerAfterRead l.st := by
      cases hl : l.st with
      | E => exact hE hl
      | M => exact hM hl
      | _ => rw [hO (by simp [hl]) (by simp [hl]), hl]; rfl
    rw [fwds_of_copy hcopy hne hset hab, ← hst', sharedBy_eq]
  · obtain ⟨t, ht, htx1, hcopy1⟩ := gnt_of_upgrade htx rfl hld hst hcopy rfl hts
    exact ⟨t, ht, htx1, by simpa using hcopy1⟩
  · have hmack := mack_of_waiting hw hwl
    exact ⟨fun reply hr => by rw [hmack, hr]; rfl, fun hr => by rw [hmack, hr]; exact congrArg Host.Outcome.next (State.sendAll_nil _)⟩

theorem dataInstallsAndMirrors : DataInstallsAndMirrors := by
  intro s a line wts hts vmid d k
  refine ⟨fun hempty htx hld hst hk => ?_, fun h e l mask hne hhome hentry hline hst hcopy hmir hl hkind hhost hfill hbefore => ?_⟩
  · obtain ⟨t, ht, htx1, hcopy1⟩ := data_installs htx rfl hld hst hempty (k := k) d wts hts
    exact ⟨t, ht, htx1, _, hcopy1, rfl, fun hE => by subst hE; rfl, fun hS => by subst hS; rfl, rfl, by simp [AgentTx.arrived], rfl, rfl⟩
  · obtain ⟨t, ht, hentry1, hmir1, hmem⟩ := mirw_of_mirror (a := a) hentry hst hcopy hmir hhost hfill hbefore d mask
    exact ⟨t, _, ht, hentry1, hmir1, rfl, hmem, fun i hi => lineField_mergeLine l.data d mask hi⟩

/-- Settles O24: the agents' answers, and what they and the home install. -/
theorem agentsInstallAndAnswer : Obligations.AgentsInstallAndAnswer := ⟨agentsAnswerTheHome, dataInstallsAndMirrors⟩

end Sys2Proof.Claim
end

section
/-! SUPPORT. Reads at the home (05 R127; 02 R74-R76, R178): a line that the home can read without an error it can still read after a change of the
directory, and reads the same bytes. -/
namespace Sys2Proof.Machine

theorem Sparse.put_put {α : Type} (t : Sparse α) (k : Nat) (x y : α) : (t.put k x).put k y = t.put k y := by
  induction t with
  | nil => simp [Sparse.put]
  | cons p t ih =>
    obtain ⟨j, v⟩ := p
    by_cases hj : j = k
    · simp [Sparse.put, hj]
    · by_cases hk : k < j
      · simp [Sparse.put, hj, hk]
      · simp [Sparse.put, hj, hk, ih]

theorem State.setDie_setDie (s : State) (d : Nat) (x y : DieState) : (s.setDie d x).setDie d y = s.setDie d y :=
  congrArg (fun t => { s with dies := t }) (Sparse.put_put s.dies d x y)

/-! ### A read without an error -/

/-- Die `d`'s L2 holds nothing of the line, or holds it without an error. -/
def State.CleanAt (s : State) (d line : Nat) : Prop :=
  (s.die d).lines.filter (fun l => l.line == line) = [] ∨ line ∉ (s.die d).badL2 ∧ line ∉ (s.die d).weakL2

theorem State.l2Error_of_clean {s : State} {d line : Nat} (h : s.CleanAt d line) : s.l2Error d line = (s, false) := by
  rcases h with h | ⟨hbad, hweak⟩
  · simp [State.l2Error, h]
  · simp [State.l2Error, hbad, hweak]

theorem State.evict_forgets (s : State) (d : Nat) (l : SliceLine) : l.line ∉ ((s.evict d l).die d).badL2 := by
  unfold State.evict
  extract_lets h top home gone
  have hgone : l.line ∉ (gone.die d).badL2 := by
    unfold gone
    rw [State.die_updDie_same]
    simp [DieState.forget]
  split
  · exact hgone
  · rwa [State.die_updDie_same]
  · by_cases hd : d = h
    · subst hd
      rw [State.die_updDie_same]
      split <;> exact hgone
    · rwa [State.die_updDie_other _ _ hd]
  · rwa [State.die_sendMsg]

theorem State.foldl_evict_forgets {line d : Nat} {l : List SliceLine} (hne : l ≠ []) (hl : ∀ k ∈ l, k.line = line) (s : State) :
    line ∉ ((l.foldl (fun s k => s.evict d k) s).die d).badL2 := by
  obtain ⟨init, last, rfl⟩ := (List.eq_nil_or_concat l).resolve_left hne
  rw [List.concat_eq_append, List.foldl_append, ← hl last (by simp)]
  exact State.evict_forgets _ d last

theorem State.weakL2_countError (s : State) (d x off : Nat) : ((s.countError d off).die x).weakL2 = (s.die x).weakL2 := by
  by_cases hx : x = d
  · subst hx
    exact (congrArg DieState.weakL2 (State.die_updDie_same s x _)).trans rfl
  · exact congrArg DieState.weakL2 (State.die_updDie_other s _ hx)

/-- What meeting an error of a line does: there is none to meet, or the access fails, or the error is gone. -/
theorem State.l2Error_cases (s : State) (d line : Nat) : s.CleanAt d line ∨ (s.l2Error d line).2 = true ∨
    ((s.l2Error d line).1.die d).badL2 ≠ (s.die d).badL2 ∨ ((s.l2Error d line).1.die d).weakL2 ≠ (s.die d).weakL2 := by
  by_cases hheld : (s.die d).lines.filter (fun l => l.line == line) = []
  · exact .inl (.inl hheld)
  have hsome : ((s.die d).lines.filter fun l => l.line == line).isEmpty = false := by simpa using hheld
  by_cases hbad : line ∈ (s.die d).badL2
  · have hcont : (s.die d).badL2.contains line = true := by simpa using hbad
    unfold State.l2Error
    extract_lets x held
    rw [if_neg (by simp [held, x, hsome]), if_pos hcont]
    split
    · exact .inr (.inl rfl)
    · exact .inr (.inr (.inl fun h => State.foldl_evict_forgets hheld (fun k hk => by simpa using (List.mem_filter.mp hk).2) s (h ▸ hbad)))
  · by_cases hweak : line ∈ (s.die d).weakL2
    · have hl2 : s.l2Error d line = ((s.updDie d fun x => { x with weakL2 := x.weakL2.filter (· != line) }).countError d 0x6310, false) := by
        unfold State.l2Error
        extract_lets x held
        rw [if_neg (by simp [held, x, hsome]), if_neg (by simpa using hbad), if_pos (by simpa using hweak)]
      refine .inr (.inr (.inr fun h => ?_))
      rw [hl2, State.weakL2_countError, State.die_updDie_same] at h
      rw [← h] at hweak
      simp at hweak
    · exact .inl (.inr ⟨hbad, hweak⟩)

/-- A read of memory without an error changes the count of corrected errors at most. -/
theorem State.memCheck_cases {s t : State} {line : Nat} (h : s.memCheck line = (t, false)) :
    s.lineBad line = false ∧ s.readFails line = false ∧ t = s.countWeak line := by
  unfold State.memCheck at h
  by_cases hbad : s.lineBad line = true
  · simp [hbad] at h
  · by_cases hfails : s.readFails line = true
    · simp [hbad, hfails] at h
    · simp only [hbad, hfails, Bool.false_eq_true, if_false, Prod.mk.injEq] at h
      exact ⟨by simpa using hbad, by simpa using hfails, h.1.symm⟩

theorem State.countWeak_errors (s : State) (line d : Nat) :
    ((s.countWeak line).die d).badL2 = (s.die d).badL2 ∧ ((s.countWeak line).die d).weakL2 = (s.die d).weakL2 := by
  unfold State.countWeak
  split
  · exact ⟨rfl, rfl⟩
  · by_cases hd : d = s.homeOf line
    · subst hd
      rw [State.countErrors, State.setReg, State.die_updDie_same]
      exact ⟨rfl, rfl⟩
    · rw [State.countErrors, State.setReg, State.die_updDie_other _ _ hd]
      exact ⟨rfl, rfl⟩

/-- The home can read the line, and reading it changes nothing. -/
theorem State.homeCheck_eq_self_iff (s : State) (line : Nat) : s.homeCheck line = (s, false) ↔ s.CleanAt (s.homeOf line) line ∧
    (((s.die (s.homeOf line)).homeLine? line).isSome = true ∨ s.memCheck line = (s, false)) := by
  constructor
  · intro h
    have hclean : s.CleanAt (s.homeOf line) line := by
      have hcases := s.l2Error_cases (s.homeOf line) line
      rcases hl2 : s.l2Error (s.homeOf line) line with ⟨t, bad⟩
      rw [hl2] at hcases
      simp only [State.homeCheck, hl2] at h
      split at h
      next hb =>
        obtain ⟨rfl, rfl⟩ := Prod.mk.inj h
        simpa using hcases
      next hb =>
        obtain ⟨-, -, rfl⟩ := State.memCheck_cases h
        obtain ⟨hbad, hweak⟩ := t.countWeak_errors line ((t.countWeak line).homeOf line)
        simpa [hbad, hweak, Bool.eq_false_iff.mpr (mt (Bool.or_eq_true_iff.mpr ∘ Or.inl) hb)] using hcases
    refine ⟨hclean, ?_⟩
    simp only [State.homeCheck, State.l2Error_of_clean hclean, Bool.false_or] at h
    split at h
    · exact .inl ‹_›
    · exact .inr h
  · rintro ⟨hclean, hread⟩
    simp only [State.homeCheck, State.l2Error_of_clean hclean, Bool.false_or]
    split
    · rfl
    · exact hread.resolve_left ‹_›

/-! ### A change of the directory -/

/-- The dies' state is the same but for the directory's tables and transactions. -/
def DieState.SameButDir (x y : DieState) : Prop := ∃ t0 t1 tx, y = { x with t0 := t0, t1 := t1, homeTx := tx }

theorem DieState.SameButDir.updEntry {x y : DieState} (h : x.SameButDir y) (line : Nat) (f : DirEntry → DirEntry) : x.SameButDir (y.updEntry line f) := by
  obtain ⟨t0, t1, tx, rfl⟩ := h
  rw [DieState.updEntry_eq]
  exact ⟨_, _, _, rfl⟩

theorem DieState.sameButDir_updEntry (x : DieState) (line : Nat) (f : DirEntry → DirEntry) : x.SameButDir (x.updEntry line f) :=
  DieState.SameButDir.updEntry ⟨_, _, _, rfl⟩ line f

theorem DieState.SameButDir.field {x y : DieState} (h : x.SameButDir y) {β : Sort*} (g : DieState → β)
    (hg : ∀ x t0 t1 tx, g { x with t0 := t0, t1 := t1, homeTx := tx } = g x) : g y = g x := by
  obtain ⟨t0, t1, tx, rfl⟩ := h
  exact hg _ _ _ _

section
variable {s : State} {h : Nat} {y : DieState} (hy : (s.die h).SameButDir y)
include hy

theorem State.field_setDie {β : Sort*} (g : DieState → β) (hg : ∀ x t0 t1 tx, g { x with t0 := t0, t1 := t1, homeTx := tx } = g x) (d : Nat) :
    g ((s.setDie h y).die d) = g (s.die d) := by
  by_cases hd : d = h
  · subst hd
    rw [show (s.setDie d y).die d = y from Sparse.get_put_same _ _ _ _, hy.field g hg]
  · rw [show (s.setDie h y).die d = s.die d from Sparse.get_put_other _ _ _ _ _ hd]

theorem State.homeOf_setDie (line : Nat) : (s.setDie h y).homeOf line = s.homeOf line :=
  State.homeOf_congr (fun d => by simp only [State.isDead, State.field_setDie hy (·.dead) fun _ _ _ _ => rfl]) line

theorem State.homeLine?_setDie (d line : Nat) : ((s.setDie h y).die d).homeLine? line = (s.die d).homeLine? line :=
  State.field_setDie hy (·.homeLine? line) (fun _ _ _ _ => rfl) d

theorem State.readFails_setDie (line : Nat) : (s.setDie h y).readFails line = s.readFails line := by
  have hattr : (s.setDie h y).attrOf (lineAddr line) = s.attrOf (lineAddr line) := by
    unfold State.attrOf
    split
    · exact State.field_setDie hy (fun x => x.attrs.get {} _) (fun _ _ _ _ => rfl) _
    · rfl
  rw [State.readFails, hattr]
  rfl

/-- Where counting the corrected errors changes nothing, it changes nothing after the change either. -/
theorem State.countWeak_setDie {line : Nat} (hhome : s.homeOf line = h) (hsame : s.countWeak line = s) :
    (s.setDie h y).countWeak line = s.setDie h y := by
  have hhome1 := (State.homeOf_setDie hy line).trans hhome
  have hweak : (s.setDie h y).weak = s.weak := rfl
  unfold State.countWeak at hsame ⊢
  rw [hweak]
  split
  · rfl
  next n _ =>
    rw [hhome1]
    have hregs := congrArg (fun t : State => (t.die h).regs) hsame
    simp only [hhome, State.countErrors, State.setReg, State.die_updDie_same] at hregs
    have hdie : (s.setDie h y).die h = y := Sparse.get_put_same _ _ _ _
    have hreg : (s.setDie h y).reg h 0x6300 = s.reg h 0x6300 := State.field_setDie hy (fun x => Sparse.get 0 x.regs 0x6300) (fun _ _ _ _ => rfl) h
    have hyregs : y.regs = (s.die h).regs := hy.field (·.regs) fun _ _ _ _ => rfl
    rw [State.countErrors, State.setReg, State.updDie, hreg, hdie, hyregs, hregs, ← hyregs]
    exact State.setDie_setDie s h y y

theorem State.homeCheck_setDie {line : Nat} (hhome : s.homeOf line = h) (hcheck : s.homeCheck line = (s, false)) :
    (s.setDie h y).homeCheck line = (s.setDie h y, false) := by
  obtain ⟨hclean, hread⟩ := (s.homeCheck_eq_self_iff line).mp hcheck
  refine ((s.setDie h y).homeCheck_eq_self_iff line).mpr ⟨?_, ?_⟩
  · rw [State.homeOf_setDie hy]
    unfold State.CleanAt
    rw [State.field_setDie hy (·.lines) fun _ _ _ _ => rfl, State.field_setDie hy (·.badL2) fun _ _ _ _ => rfl,
      State.field_setDie hy (·.weakL2) fun _ _ _ _ => rfl]
    exact hclean
  · rw [State.homeOf_setDie hy, State.homeLine?_setDie hy]
    refine hread.imp_right fun hmem => ?_
    obtain ⟨hbad, hfails, hweak⟩ := State.memCheck_cases hmem
    have hbad1 : (s.setDie h y).lineBad line = false := hbad
    simp [State.memCheck, hbad1, State.readFails_setDie hy, hfails, State.countWeak_setDie hy hhome hweak.symm]

theorem State.fetchLine_setDie (line vmid : Nat) : (s.setDie h y).fetchLine line vmid = s.fetchLine line vmid := by
  have henc : (s.setDie h y).encrypted line = s.encrypted line := by
    simp only [State.encrypted, State.homeOf_setDie hy, State.field_setDie hy (·.regs) fun _ _ _ _ => rfl]
  have hkey : (s.setDie h y).keyFor line vmid = s.keyFor line vmid := by
    simp only [State.keyFor, State.homeOf_setDie hy, State.field_setDie hy (·.keys) fun _ _ _ _ => rfl]
  simp only [State.fetchLine, henc, hkey]
  rfl

theorem State.homeData_setDie (line vmid : Nat) : (s.setDie h y).homeData line vmid = s.homeData line vmid := by
  simp only [State.homeData, State.homeOf_setDie hy, State.homeLine?_setDie hy, State.fetchLine_setDie hy]

theorem State.reqVmid_setDie (a line : Nat) : (s.setDie h y).reqVmid a line = s.reqVmid a line := by
  simp only [State.reqVmid, State.field_setDie hy (·.agentTx) fun _ _ _ _ => rfl]
  rfl

end
end Sys2Proof.Machine
end

section
/-! SUPPORT. The home's transactions (05 R127, R131, R132): a reply from a changed directory, a grant, and a request that goes on to holders. -/
namespace Sys2Proof.Machine

theorem State.die_setDie_same (s : State) (d : Nat) (y : DieState) : (s.setDie d y).die d = y := Sparse.get_put_same _ _ _ _
theorem State.die_setDie_other (s : State) {d x : Nat} (y : DieState) (h : x ≠ d) : (s.setDie d y).die x = s.die x := Sparse.get_put_other _ _ _ _ _ h

/-! ### The home's own line becomes its most recently used -/

def State.useHome (s : State) (h line : Nat) : State := match (s.die h).homeLine? line with
  | some l => s.updDie h fun x => x.putLine l
  | none => s

theorem State.useHome_cases (s : State) (h line : Nat) :
    s.useHome h line = s ∨ ∃ k l, (s.die h).find? line k = some l ∧ s.useHome h line = s.updDie h fun x => x.putLine l := by
  unfold State.useHome DieState.homeLine?
  split
  next l hl =>
    split at hl
    next c hc => exact .inr ⟨.copy, l, by rw [← hl]; exact hc, rfl⟩
    next =>
      split at hl
      next m hm => exact .inr ⟨.mirror, l, by rw [← hl]; exact hm, rfl⟩
      next => exact .inr ⟨.acc, l, hl, rfl⟩
  next => exact .inl rfl

theorem State.useHome_eq (s : State) (h line : Nat) : s.useHome h line = { s with dies := (s.useHome h line).dies } := by
  rcases s.useHome_cases h line with hu | ⟨_, _, _, hu⟩
  · rw [hu]
  · rw [hu]
    rfl

theorem State.die_useHome_other (s : State) {h d : Nat} (line : Nat) (hd : d ≠ h) : (s.useHome h line).die d = s.die d := by
  rcases s.useHome_cases h line with hu | ⟨_, _, _, hu⟩
  · rw [hu]
  · rw [hu, State.die_updDie_other s _ hd]

theorem State.die_useHome (s : State) (h line : Nat) : ∃ ls, (s.useHome h line).die h = { s.die h with lines := ls } := by
  rcases s.useHome_cases h line with hu | ⟨_, _, _, hu⟩
  · exact ⟨_, by rw [hu]⟩
  · exact ⟨_, by rw [hu, State.die_updDie_same]; rfl⟩

theorem State.find?_useHome (s : State) (h line n : Nat) (k : LineKind) : ((s.useHome h line).die h).find? n k = (s.die h).find? n k := by
  rcases s.useHome_cases h line with hu | ⟨_, _, hl, hu⟩
  · rw [hu]
  · rw [hu, State.die_updDie_same]
    exact DieState.find?_putLine_of_find? hl n k

/-! ### Replies -/

section
variable {s : State} {h line : Nat} {e : DirEntry}

theorem State.homeReply_of_entry (hentry : (s.die h).entry? line = some e) (hcheck : s.homeCheck line = (s, false)) (a : Nat) (k : DataKind) :
    s.homeReply h line a k = (s.useHome h line).sendMsg h a
      (.data (agent a) line k (s.homeData line (s.reqVmid a line)) e.hts (if k = .M then e.hts else 0) false) := by
  simp only [State.homeReply, hentry, hcheck, Bool.false_eq_true, if_false, beq_iff_eq]
  rfl

end

/-- Nothing waits at home `h`, nor for a way at any die. -/
def State.NoneWaits (s : State) (h : Nat) : Prop := (s.die h).homeQ = [] ∧ (s.die h).insertQ = [] ∧ ∀ d, d < 4 → (s.die d).fillWait = []

section
variable {s : State} {h line : Nat} {e : DirEntry}

/-- The end of a transaction that nothing waited for. -/
theorem State.wake_of_none (hnone : s.NoneWaits h) (line : Nat) : s.wake h line = s := by
  obtain ⟨hq, hi, hf⟩ := hnone
  have hfills : (List.range 4).filter (fun d => !(s.die d).fillWait.isEmpty) = [] :=
    List.filter_eq_nil_iff.mpr fun d hd => by simp [hf d (List.mem_range.mp hd)]
  simp [State.wake, hq, hi, State.wakeFills, hfills]

theorem State.NoneWaits.setDie {y : DieState} (hnone : s.NoneWaits h) (hy : (s.die h).SameButDir y) : (s.setDie h y).NoneWaits h := by
  unfold State.NoneWaits
  simp only [State.field_setDie hy (·.homeQ) fun _ _ _ _ => rfl, State.field_setDie hy (·.insertQ) fun _ _ _ _ => rfl,
    State.field_setDie hy (·.fillWait) fun _ _ _ _ => rfl]
  exact hnone

theorem State.NoneWaits.sendMsg (hnone : s.NoneWaits h) (x y : Nat) (i : Instr) : (s.sendMsg x y i).NoneWaits h := by
  simpa only [State.NoneWaits, State.die_sendMsg] using hnone

theorem State.NoneWaits.useHome (hnone : s.NoneWaits h) (line : Nat) : (s.useHome h line).NoneWaits h := by
  obtain ⟨hq, hi, hf⟩ := hnone
  obtain ⟨ls, hls⟩ := s.die_useHome h line
  refine ⟨by rw [hls]; exact hq, by rw [hls]; exact hi, fun d hd => ?_⟩
  by_cases hdh : d = h
  · subst hdh
    rw [hls]
    exact hf d hd
  · rw [State.die_useHome_other s line hdh]
    exact hf d hd

theorem State.homeReply_wake (hnone : s.NoneWaits h) (hentry : (s.die h).entry? line = some e) (hcheck : s.homeCheck line = (s, false)) (a : Nat)
    (k : DataKind) : (s.homeReply h line a k).wake h line = s.homeReply h line a k := by
  rw [State.homeReply_of_entry hentry hcheck]
  exact State.wake_of_none ((hnone.useHome line).sendMsg _ _ _) line

/-! ### Grants -/

/-- The home's entry when the line's write permission goes to `a` (R127, R135). -/
def DirEntry.grantedTo (e : DirEntry) (a : Nat) : DirEntry :=
  { e with st := .M, own := agent a, shr := 0, hts := if a = 4 then e.hts + 1 else e.hts }

/-- The home when the line's write permission goes to `a`. -/
def DieState.grant (x : DieState) (line a : Nat) (forwarded : Bool) : DieState :=
  let tx := if forwarded then x.homeTx.map fun t => if t.line == line then { t with acks := [], granted := true } else t
    else x.homeTx.filter fun t => t.line != line
  { x with homeTx := tx }.updEntry line fun e => e.grantedTo a

theorem DieState.SameButDir.grant {x y : DieState} (h : x.SameButDir y) (line a : Nat) (forwarded : Bool) : x.SameButDir (y.grant line a forwarded) := by
  obtain ⟨t0, t1, tx, rfl⟩ := h
  exact DieState.SameButDir.updEntry ⟨_, _, _, rfl⟩ _ _

theorem DieState.sameButDir_grant (x : DieState) (line a : Nat) (forwarded : Bool) : x.SameButDir (x.grant line a forwarded) :=
  DieState.SameButDir.grant ⟨_, _, _, rfl⟩ line a forwarded

theorem DieState.entry?_grant {x : DieState} (hentry : x.entry? line = some e) (a : Nat) (forwarded : Bool) :
    (x.grant line a forwarded).entry? line = some (e.grantedTo a) := by
  unfold DieState.grant
  extract_lets tx
  exact DieState.entry?_updEntry (x := { x with homeTx := tx }) (f := fun e => e.grantedTo a) hentry rfl

/-- A grant with the data of the home. -/
theorem State.grant_of_data (s : State) (h line a : Nat) :
    s.grant h line a false false = ((s.setDie h ((s.die h).grant line a false)).homeReply h line a .M).wake h line := rfl

/-- A grant to an agent that has the data, or has them from the owner. -/
theorem State.grant_of_gnt (hentry : (s.die h).entry? line = some e) (hnone : s.NoneWaits h) {a : Nat} {forwarded upgrade : Bool}
    (htold : (forwarded || upgrade) = true) : s.grant h line a forwarded upgrade =
      (s.setDie h ((s.die h).grant line a forwarded)).sendMsg h a (.gnt (agent a) line (e.grantedTo a).hts forwarded) := by
  have hentry1 : ((s.setDie h ((s.die h).grant line a forwarded)).die h).entry? line = some (e.grantedTo a) := by
    rw [State.die_setDie_same]
    exact DieState.entry?_grant hentry a forwarded
  unfold State.grant
  extract_lets s1 s2
  have hs2 : s2 = (s.setDie h ((s.die h).grant line a forwarded)).sendMsg h a (.gnt (agent a) line (e.grantedTo a).hts forwarded) := by
    have hs1 : s1 = s.setDie h ((s.die h).grant line a forwarded) := rfl
    simp only [s2, htold, if_true, hs1, hentry1]
  rw [hs2]
  split
  · rfl
  · exact State.wake_of_none ((hnone.setDie (DieState.sameButDir_grant _ _ _ _)).sendMsg _ _ _) line

end
end Sys2Proof.Machine
end

section
/-! SUPPORT. Requests at the home by the state of the line's entry (05 R127 Table 5), new entries and victims (05 R131, R132). -/
namespace Sys2Proof.Machine

section
variable {s : State} {h line : Nat} {e : DirEntry}

/-! ### Where a request goes -/

theorem State.homeRequest_of_busy (hbusy : (s.die h).busy line = true) (req : ReqMsg) (a : Nat) :
    s.homeRequest h req line a = s.setDie h { s.die h with homeQ := (s.die h).homeQ ++ [(req, line, agent a)] } := by
  simp only [State.homeRequest, hbusy, if_true]

theorem State.homeRequest_of_entry (hbusy : (s.die h).busy line = false) (hentry : (s.die h).entry? line = some e) (req : ReqMsg) (a : Nat) :
    s.homeRequest h req line a = s.startReq h e req a := by
  simp only [State.homeRequest, hbusy, hentry, Bool.false_eq_true, if_false]

/-- The home's die with a transaction on its way. -/
def DieState.begin (x : DieState) (tx : HomeTx) : DieState := { x with homeTx := x.homeTx ++ [tx] }

theorem State.startRead_of_invalid (hst : e.st = .I) (a : Nat) : s.startRead h e a =
    (s.updDie h fun x => x.updEntry e.line fun e => { e with st := .E, own := agent a, shr := 0 }).homeReply h e.line a .E := by
  simp only [State.startRead, hst]

theorem State.startRead_of_shared (hst : e.st = .S) (a : Nat) : s.startRead h e a =
    (s.updDie h fun x => x.updEntry e.line fun e => { e with shr := e.shr ||| bit5 a }).homeReply h e.line a .S := by
  simp only [State.startRead, hst]

/-- A read of a line that another agent owns is a transaction, and goes to the owner. -/
theorem State.startRead_of_owner (hst : e.st = .E ∨ e.st = .M ∨ e.st = .O) {a : Nat} (hown : e.own.val ≠ a) : s.startRead h e a =
    (s.updDie h fun x => x.begin { line := e.line, req := .gets, a := agent a, acks := [e.own], forwarded := true, upgrade := false }).sendMsg
      h e.own.val (.fwds (dieId h) e.own e.line (agent a)) := by
  rcases hst with hst | hst | hst <;> simp only [State.startRead, hst, if_neg hown] <;> rfl

/-- A write of a line that no other agent holds is granted at once. -/
theorem State.startWrite_of_alone {a : Nat} (hst : e.st = .I ∨ e.st = .S ∧ (sharersOf e.shr).filter (fun i => i != a) = []) (req : ReqMsg) :
    s.startWrite h e req a = s.grant h e.line a false (req == .upgm && (e.st == .S && e.shr.getLsbD a)) := by
  rcases hst with hst | ⟨hst, hshr⟩
  · simp [State.startWrite, hst, beq_eq_decide]
  · simp [State.startWrite, hst, hshr, beq_eq_decide]

/-- A write of a line that another agent owns alone goes to the owner. -/
theorem State.startWrite_of_owner (hst : e.st = .E ∨ e.st = .M) {a : Nat} (hown : e.own.val ≠ a) : s.startWrite h e .getm a =
    (s.updDie h fun x => x.begin { line := e.line, req := .getm, a := agent a, acks := [e.own], forwarded := true, upgrade := false }).sendMsg
      h e.own.val (.fwdm (dieId h) e.own e.line (agent a)) := by
  rcases hst with hst | hst <;> simp [State.startWrite, hst, hown, DieState.begin, bne, beq_eq_decide]

/-- A write of a line that one other agent shares invalidates its copy. -/
theorem State.startWrite_of_sharer (hst : e.st = .S) {a b : Nat} (hshr : (sharersOf e.shr).filter (fun i => i != a) = [b]) :
    s.startWrite h e .getm a =
      (s.updDie h fun x => x.begin { line := e.line, req := .getm, a := agent a, acks := [agent b], forwarded := false, upgrade := false }).sendMsg
        h b (.inv (dieId h) (agent b) e.line) := by
  simp [State.startWrite, hst, hshr, DieState.begin, beq_eq_decide]

end

/-! ### An agent leaves an entry, and an entry is freed -/

theorem DieState.mtsOf_raiseMts (x : DieState) (line t : Nat) : (x.raiseMts line t).mtsOf line = max t (x.mtsOf line) := Sparse.get_set_same _ _ _ _

/-- MTS rises to the horizon of an entry that is freed (R132). -/
theorem DieState.mtsOf_freeEntry {x : DieState} {line : Nat} {e : DirEntry} (hentry : x.entry? line = some e) :
    (x.freeEntry line).mtsOf line = max e.hts (x.mtsOf line) := by
  rw [← DieState.mtsOf_raiseMts]
  simp only [DieState.freeEntry, hentry]
  split
  · split <;> rfl
  · rfl

section
variable {s : State} {h line : Nat} {e : DirEntry}

/-- The entry when agent `a` has left it with the horizon `hh` (R127 Table 5). -/
def DirEntry.leftBy (e : DirEntry) (a hh : Nat) : DirEntry := leaveEntry a { e with hts := max e.hts hh }

theorem DirEntry.leftBy_line (e : DirEntry) (a hh : Nat) : (e.leftBy a hh).line = e.line := by
  unfold DirEntry.leftBy leaveEntry
  cases e.st <;> simp only [apply_ite DirEntry.line, ite_self]

theorem DirEntry.leftBy_of_shared (hst : e.st = .S) (a hh : Nat) : e.leftBy a hh =
    { e with st := if e.shr &&& ~~~(bit5 a) = 0 then .I else .S, shr := e.shr &&& ~~~(bit5 a), hts := max e.hts hh } := by
  simp [DirEntry.leftBy, leaveEntry, hst]

theorem DirEntry.leftBy_of_owner (hst : e.st = .E ∨ e.st = .M) {a : Nat} (hown : e.own.val = a) (hh : Nat) : e.leftBy a hh =
    { e with st := .I, shr := 0, hts := max e.hts hh } := by
  rcases hst with hst | hst <;> simp [DirEntry.leftBy, leaveEntry, hst, hown]

/-- An eviction notice: the agent leaves the entry, and an entry in I with nothing in progress is freed. -/
theorem State.homeEvc_of_entry (hentry : (s.die h).entry? line = some e) (a hh : Nat) :
    s.homeEvc h line a hh = if (e.leftBy a hh).st = .I ∧ (s.die h).busy line = false then
      s.updDie h fun x => (x.updEntry line fun _ => e.leftBy a hh).freeEntry line
    else s.updDie h fun x => x.updEntry line fun _ => e.leftBy a hh := by
  have hbusy : ((s.updDie h fun x => x.updEntry line fun _ => e.leftBy a hh).die h).busy line = (s.die h).busy line := by
    rw [State.die_updDie_same, DieState.updEntry_busy]
  have hfree : ((s.updDie h fun x => x.updEntry line fun _ => e.leftBy a hh).updDie h fun x => x.freeEntry line) =
      s.updDie h fun x => (x.updEntry line fun _ => e.leftBy a hh).freeEntry line := by
    rw [State.updDie, State.die_updDie_same, State.updDie, State.setDie_setDie, State.updDie]
  rw [← hfree, ← hbusy]
  simp only [State.homeEvc, hentry, beq_eq_decide, Bool.and_eq_true, decide_eq_true_eq, Bool.not_eq_true']
  rfl

end

/-! ### Sharers -/

theorem sharersOf_others_of_none {shr : BitVec 5} {a : Nat} (h : ∀ i, i < 5 → i ≠ a → ¬shr.getLsbD i = true) :
    (sharersOf shr).filter (fun i => i != a) = [] := by
  refine List.filter_eq_nil_iff.mpr fun i hi => ?_
  obtain ⟨hlt, hbit⟩ := List.mem_filter.mp hi
  have := mt (h i (List.mem_range.mp hlt)) (not_not_intro hbit)
  simpa using this

theorem one_sharer_left (a : Agent) : (1#5 <<< a.val) &&& ~~~(bit5 a.val) = 0 := by
  revert a
  decide

theorem one_of_two_left {a b : Agent} (h : b ≠ a) : ((1#5 <<< a.val) ||| (1#5 <<< b.val)) &&& ~~~(bit5 a.val) = 1#5 <<< b.val := by
  revert a b
  decide

theorem sharer_ne_none (b : Agent) : 1#5 <<< b.val ≠ 0 := by
  revert b
  decide

theorem sharersOf_others_of_one {a b : Agent} (h : b ≠ a) : (sharersOf (1#5 <<< b.val)).filter (fun i => i != a.val) = [b.val] := by
  revert a b
  decide

end Sys2Proof.Machine
end

section
/-! SUPPORT. The home: its transitions, the entries that it makes and gives up, and what waits (05 R127, R131, R132). -/
namespace Sys2Proof.Claim
open Sys2Proof.Machine

section
variable {s : State} {h : Die} {line : Nat} {e e' : DirEntry} {a : Agent} {i : Instr} {y : DieState} (hy : (s.die h).SameButDir y)
  (hentry : y.entry? line = some e')
include hy hentry

theorem turns_of_send {x z : Nat} {msg : Instr} (hexec : exec i s = .next ((s.setDie h y).sendMsg x z msg)) : Turns i s h line e' x z msg :=
  ⟨_, hexec, by rw [State.die_setDie_same, hentry], rfl, fun d hd => State.die_setDie_other s y hd,
    fun n k => State.field_setDie hy (·.find? n k) (fun _ _ _ _ => rfl) h⟩

variable (hhome : s.homeOf line = h.val) (hcheck : s.homeCheck line = (s, false))
include hhome hcheck

/-- The home's data to the requester, and the line's entry as it is then. -/
theorem turns_of_reply {k : DataKind} (hexec : exec i s = .next ((s.setDie h y).homeReply h line a k)) :
    Turns i s h line e' h a (.data a line k (s.homeData line (s.reqVmid a line)) e'.hts (if k = .M then e'.hts else 0) false) := by
  have hreply := State.homeReply_of_entry (s := s.setDie h y) (h := h) (by rwa [State.die_setDie_same]) (State.homeCheck_setDie hy hhome hcheck) a k
  rw [State.homeData_setDie hy, State.reqVmid_setDie hy, agent_val] at hreply
  rw [hreply] at hexec
  obtain ⟨ls, hls⟩ := (s.setDie h y).die_useHome h line
  refine ⟨_, hexec, ?_, ?_, fun d hd => ?_, fun n k => ?_⟩
  · rw [hls, State.die_setDie_same]
    exact hentry
  · rw [State.useHome_eq]
    rfl
  · rw [State.die_useHome_other _ line hd, State.die_setDie_other s y hd]
  · rw [State.find?_useHome]
    exact State.field_setDie hy (·.find? n k) (fun _ _ _ _ => rfl) h

/-- So it is where the transaction ends with the reply, and nothing waited. -/
theorem turns_of_reply_wake (hnone : NoneWait s h) {k : DataKind} (hexec : exec i s = .next (((s.setDie h y).homeReply h line a k).wake h line)) :
    Turns i s h line e' h a (.data a line k (s.homeData line (s.reqVmid a line)) e'.hts (if k = .M then e'.hts else 0) false) := by
  refine turns_of_reply hy hentry hhome hcheck (hexec.trans (congrArg Host.Outcome.next ?_))
  exact State.homeReply_wake (State.NoneWaits.setDie hnone hy) (by rwa [State.die_setDie_same]) (State.homeCheck_setDie hy hhome hcheck) a k

end

theorem begins_of_send {s : State} {h : Die} {e : DirEntry} {i msg : Instr} {tx : HomeTx} {z : Nat} (hentry : (s.die h).entry? e.line = some e)
    (hexec : exec i s = .next ((s.updDie h fun x => x.begin tx).sendMsg h z msg)) : Begins i s h e tx z msg := by
  refine ⟨_, hexec, ?_, rfl, fun d hd => State.die_updDie_other s _ hd, ?_, ?_⟩ <;> rw [State.die_updDie_same]
  · exact hentry
  · rfl
  · rfl

section
variable {s : State} {h : Die} {line : Nat} {a : Agent} {e : DirEntry}

theorem request_of_busy (hbusy : (s.die h).busy line = true) {i : Instr} (hi : i = .gets h line a ∨ i = .getm h line a ∨ i = .upgm h line a) :
    ∃ req, exec i s = .next (s.setDie h { s.die h with homeQ := (s.die h).homeQ ++ [(req, line, a)] }) := by
  have hqueue := fun req => (State.homeRequest_of_busy hbusy req a.val).trans (by rw [agent_val])
  rcases hi with rfl | rfl | rfl
  · exact ⟨.gets, congrArg Host.Outcome.next (hqueue .gets)⟩
  · exact ⟨.getm, congrArg Host.Outcome.next (hqueue .getm)⟩
  · exact ⟨.upgm, congrArg Host.Outcome.next (hqueue .upgm)⟩

section
variable (hbusy : (s.die h).busy line = false) (hentry : (s.die h).entry? line = some e) (hline : e.line = line)
include hbusy hentry

theorem exec_gets : exec (.gets h line a) s = .next (s.startRead h e a) := congrArg Host.Outcome.next (State.homeRequest_of_entry hbusy hentry .gets a)
theorem exec_getm : exec (.getm h line a) s = .next (s.startWrite h e .getm a) := congrArg Host.Outcome.next (State.homeRequest_of_entry hbusy hentry .getm a)
theorem exec_upgm : exec (.upgm h line a) s = .next (s.startWrite h e .upgm a) := congrArg Host.Outcome.next (State.homeRequest_of_entry hbusy hentry .upgm a)

include hline

theorem gets_of_owner (hst : e.st = .E ∨ e.st = .M ∨ e.st = .O) (hown : e.own ≠ a) : Begins (.gets h line a) s h e
    { line := line, req := .gets, a := a, acks := [e.own], forwarded := true, upgrade := false } e.own (.fwds h e.own line a) := by
  subst hline
  refine begins_of_send hentry ((exec_gets hbusy hentry).trans ?_)
  rw [State.startRead_of_owner hst (Fin.val_ne_of_ne hown), agent_val, dieId_val]

theorem getm_of_owner (hst : e.st = .E ∨ e.st = .M) (hown : e.own ≠ a) : Begins (.getm h line a) s h e
    { line := line, req := .getm, a := a, acks := [e.own], forwarded := true, upgrade := false } e.own (.fwdm h e.own line a) := by
  subst hline
  refine begins_of_send hentry ((exec_getm hbusy hentry).trans ?_)
  rw [State.startWrite_of_owner hst (Fin.val_ne_of_ne hown), agent_val, dieId_val]

theorem getm_of_sharer {b : Agent} (hst : e.st = .S) (hba : b ≠ a) (hshr : e.shr = (1#5 <<< b.val)) : Begins (.getm h line a) s h e
    { line := line, req := .getm, a := a, acks := [b], forwarded := false, upgrade := false } b (.inv h b line) := by
  subst hline
  refine begins_of_send hentry ((exec_getm hbusy hentry).trans ?_)
  rw [State.startWrite_of_sharer hst (hshr ▸ sharersOf_others_of_one hba), agent_val, agent_val, dieId_val]

variable (hhome : s.homeOf line = h.val) (hcheck : s.homeCheck line = (s, false))
include hhome hcheck

theorem gets_of_invalid (hst : e.st = .I) : Turns (.gets h line a) s h line { e with st := .E, own := a, shr := 0 } h a
    (.data a line .E (s.homeData line (s.reqVmid a line)) e.hts 0 false) := by
  subst hline
  refine turns_of_reply (DieState.sameButDir_updEntry _ _ _) ?_ hhome hcheck
    ((exec_gets hbusy hentry).trans (congrArg Host.Outcome.next (State.startRead_of_invalid hst a)))
  rw [DieState.entry?_updEntry hentry rfl, agent_val]

theorem gets_of_shared (hst : e.st = .S) : Turns (.gets h line a) s h line { e with shr := e.shr ||| (1#5 <<< a.val) } h a
    (.data a line .S (s.homeData line (s.reqVmid a line)) e.hts 0 false) := by
  subst hline
  exact turns_of_reply (DieState.sameButDir_updEntry _ _ _) (DieState.entry?_updEntry hentry rfl) hhome hcheck
    ((exec_gets hbusy hentry).trans (congrArg Host.Outcome.next (State.startRead_of_shared hst a)))

variable (hnone : NoneWait s h)
include hnone

theorem getm_of_alone (hst : e.st = .I ∨ e.st = .S ∧ ∀ i, i < 5 → i ≠ a.val → ¬e.shr.getLsbD i = true) :
    Turns (.getm h line a) s h line (e.grantedTo a) h a
      (.data a line .M (s.homeData line (s.reqVmid a line)) (e.grantedTo a).hts (e.grantedTo a).hts false) := by
  subst hline
  refine turns_of_reply_wake (DieState.sameButDir_grant _ _ _ false) (DieState.entry?_grant hentry a false) hhome hcheck hnone
    ((exec_getm hbusy hentry).trans (congrArg Host.Outcome.next ?_))
  exact (State.startWrite_of_alone (hst.imp_right fun ⟨hs, hshr⟩ => ⟨hs, sharersOf_others_of_none hshr⟩) .getm).trans (State.grant_of_data s h e.line a)

omit hhome hcheck in
theorem upgm_of_alone (hst : e.st = .S) (hothers : ∀ i, i < 5 → i ≠ a.val → ¬e.shr.getLsbD i = true) (hshr : e.shr.getLsbD a.val = true) :
    Turns (.upgm h line a) s h line (e.grantedTo a) h a (.gnt a line (e.grantedTo a).hts false) := by
  subst hline
  refine turns_of_send (DieState.sameButDir_grant _ _ _ false) (DieState.entry?_grant hentry a false)
    ((exec_upgm hbusy hentry).trans (congrArg Host.Outcome.next ?_))
  rw [State.startWrite_of_alone (.inr ⟨hst, sharersOf_others_of_none hothers⟩), hst, hshr, State.grant_of_gnt hentry hnone rfl, agent_val]

end

/-- The last INVACK lets the grant go, above the H that it brings (R127). -/
theorem invack_of_last {b : Agent} {fwd up : Bool} (hentry : (s.die h).entry? line = some e)
    (htx : (s.die h).homeTx = [{ line := line, req := .getm, a := b, acks := [a], forwarded := fwd, upgrade := up }])
    (hnone : NoneWait s h) (htold : (fwd || up) = true) (hh : Nat) :
    Turns (.invack h line a hh) s h line ({ e with hts := max e.hts hh }.grantedTo b) h b
      (.gnt b line ({ e with hts := max e.hts hh }.grantedTo b).hts fwd) := by
  let y := (s.die h).updEntry line fun e => { e with hts := max e.hts hh }
  have hy : (s.die h).SameButDir y := DieState.sameButDir_updEntry _ _ _
  have hentry1 : y.entry? line = some { e with hts := max e.hts hh } := DieState.entry?_updEntry hentry rfl
  have htx1 : y.homeTx = [{ line := line, req := .getm, a := b, acks := [a], forwarded := fwd, upgrade := up }] := by
    rw [← htx]
    exact DieState.updEntry_homeTx _ _ _
  have hgrant : s.homeInvack h line a hh = (s.setDie h y).grant h line b fwd up := by
    have hs1 : (s.updDie h fun x => x.updEntry line fun e => { e with hts := max e.hts hh }).die h = y := State.die_updDie_same _ _ _
    simp only [State.homeInvack, hs1, htx1]
    simp [beq_eq_decide]
    rfl
  refine turns_of_send (hy.grant line b fwd) (DieState.entry?_grant hentry1 b fwd) ((congrArg Host.Outcome.next hgrant).trans ?_)
  rw [State.grant_of_gnt (by rwa [State.die_setDie_same]) (State.NoneWaits.setDie hnone hy) htold, State.die_setDie_same, State.setDie_setDie, agent_val]

/-! ### Eviction notices, victims and what waits -/

theorem exec_evc (hentry : (s.die h).entry? line = some e) (hh : Nat) :
    exec (.evc h line a hh) s = .next (if (e.leftBy a hh).st = .I ∧ (s.die h).busy line = false then
      s.updDie h fun x => (x.updEntry line fun _ => e.leftBy a hh).freeEntry line
    else s.updDie h fun x => x.updEntry line fun _ => e.leftBy a hh) := congrArg Host.Outcome.next (State.homeEvc_of_entry hentry a hh)

/-- The notice of the last holder frees the entry. -/
theorem evc_of_last {hh : Nat} (hentry : (s.die h).entry? line = some e) (hleft : (e.leftBy a hh).st = .I) (hbusy : (s.die h).busy line = false) :
    ∃ t, exec (.evc h line a hh) s = .next t ∧ (t.die h).mtsOf line = max ((s.die h).mtsOf line) (e.leftBy a hh).hts := by
  refine ⟨_, (exec_evc hentry hh).trans (congrArg Host.Outcome.next (if_pos ⟨hleft, hbusy⟩)), ?_⟩
  rw [State.die_updDie_same, DieState.mtsOf_freeEntry (DieState.entry?_updEntry hentry (e.leftBy_line a hh)), DieState.updEntry_mtsOf, Nat.max_comm]

/-- Where other holders are left, or the line is busy, the entry stays, as the agent has left it. -/
theorem evc_of_kept {hh : Nat} (hentry : (s.die h).entry? line = some e) (hkeep : ¬((e.leftBy a hh).st = .I ∧ (s.die h).busy line = false)) :
    ∃ t, exec (.evc h line a hh) s = .next t ∧ (t.die h).entry? line = some (e.leftBy a hh) := by
  refine ⟨_, (exec_evc hentry hh).trans (congrArg Host.Outcome.next (if_neg hkeep)), ?_⟩
  rw [State.die_updDie_same, DieState.entry?_updEntry hentry (e.leftBy_line a hh)]

end

theorem homeTransitions : HomeTransitions := by
  intro s h line a e hentry hline d data shr join taken tx hhome hcheck
  refine ⟨fun hbusy i => request_of_busy hbusy, fun hbusy => ⟨gets_of_invalid hbusy hentry hline hhome hcheck,
    gets_of_shared hbusy hentry hline hhome hcheck, gets_of_owner hbusy hentry hline, fun hst hnone => ?_, getm_of_owner hbusy hentry hline,
    fun b => getm_of_sharer hbusy hentry hline⟩, fun b hh fwd up htx hnone htold => ?_, fun hh hst hshr hbusy => ?_, fun hh b hst hba hshr => ?_,
    fun hh hst hown hbusy => ?_⟩
  · have htaken : e.grantedTo a = taken := by simp [DirEntry.grantedTo, taken]
    refine ⟨htaken ▸ getm_of_alone hbusy hentry hline hhome hcheck hnone hst, fun hS hshr => htaken ▸ upgm_of_alone hbusy hentry hline hnone hS ?_ hshr⟩
    exact (hst.resolve_left (by simp [hS])).2
  · have hturns := invack_of_last hentry htx hnone htold hh
    have hhts : ({ e with hts := max e.hts hh }.grantedTo b).hts = max e.hts hh + if b.val = 4 then 1 else 0 := by
      simp only [DirEntry.grantedTo]
      split <;> rfl
    have hgranted : { e with hts := max e.hts hh }.grantedTo b =
        { e with st := .M, own := b, shr := 0, hts := max e.hts hh + if b.val = 4 then 1 else 0 } := by
      rw [← hhts]
      simp [DirEntry.grantedTo]
    rwa [hgranted] at hturns
  · have hevc := evc_of_last (a := a) (hh := hh) hentry (by rw [DirEntry.leftBy_of_shared hst, hshr, one_sharer_left]; rfl) hbusy
    rwa [DirEntry.leftBy_of_shared hst] at hevc
  · have hleft : e.leftBy a hh = { e with shr := 1#5 <<< b.val, hts := max e.hts hh } := by
      rw [DirEntry.leftBy_of_shared hst, hshr, one_of_two_left hba, if_neg (sharer_ne_none b), ← hst]
    rw [← hleft]
    exact evc_of_kept hentry (by simp [hleft, hst])
  · rw [← DirEntry.leftBy_of_owner hst (congrArg Fin.val hown)]
    exact evc_of_kept hentry (by simp [hbusy])

end Sys2Proof.Claim
end

section
/-! SUPPORT. New entries, the end of a victim, and requests that start late (05 R127, R131, R132). -/
namespace Sys2Proof.Machine

section
variable {s : State} {h line : Nat}

/-- The entry of a line that has had none (R131, R132). -/
def DieState.newEntry (x : DieState) (line a : Nat) : DirEntry := { line := line, st := .I, shr := 0, own := agent a, hts := x.mtsOf line }

theorem State.homeRequest_of_new (hbusy : (s.die h).busy line = false) (hentry : (s.die h).entry? line = none)
    (hslot : (s.die h).t0.find (hash0 line) = none) (req : ReqMsg) (a : Nat) : s.homeRequest h req line a =
      (s.setDie h { s.die h with t0 := (s.die h).t0.put (hash0 line) ((s.die h).newEntry line a) }).startReq h ((s.die h).newEntry line a) req a := by
  have hinsert : (s.die h).insert ((s.die h).newEntry line a) =
      ({ s.die h with t0 := (s.die h).t0.put (hash0 line) ((s.die h).newEntry line a) }, none) := by
    simp [DieState.insert, cuckoo, DieState.newEntry, hslot]
  simp only [DieState.newEntry] at hinsert
  simp only [State.homeRequest, hbusy, hentry, hinsert, DieState.newEntry, Bool.false_eq_true, if_false]

/-- The last BACK frees the victim, and MTS rises to its horizon (R132). -/
theorem State.homeBack_of_last {v : Victim} {a : Agent} (hv : (s.die h).victims = [v]) (hline : v.entry.line = line) (hwait : v.waiting = [a]) (hh : Nat) :
    s.homeBack h line a hh = (s.updDie h fun x => { x with victims := x.victims.filter fun k => k.entry.line != line }.raiseMts line
      (max v.entry.hts hh)).wake h line := by
  simp [State.homeBack, hv, hline, hwait]

theorem State.homeStart_of_first {req : ReqMsg} {a : Agent} {rest : List (ReqMsg × Nat × Agent)} (hbusy : (s.die h).busy line = false)
    (hq : (s.die h).homeQ = (req, line, a) :: rest) : s.homeStart h line =
      let s1 := (s.setDie h { s.die h with homeQ := rest }).homeRequest h req line a
      if ((s1.die h).homeQ.any fun q => q.2.1 == line) = true ∧ (s1.die h).busy line = false then s1.send (.homeQueueStart (dieId h) line) else s1 := by
  have hfirst : indexWhere (fun q : ReqMsg × Nat × Agent => q.2.1 == line) (s.die h).homeQ = some 0 := by simp [hq, indexWhere]
  have hget : (s.die h).homeQ[0]? = some (req, line, a) := by rw [hq]; rfl
  have hdrop : dropAt (s.die h).homeQ 0 = rest := by rw [hq]; rfl
  simp only [State.homeStart, hbusy, hfirst, hget, hdrop, Bool.false_eq_true, if_false, Bool.and_eq_true, Bool.not_eq_true']

theorem State.insertStart_of_first {req : ReqMsg} {l : Nat} {a : Agent} {rest : List (ReqMsg × Nat × Agent)}
    (hq : (s.die h).insertQ = (req, l, a) :: rest) : s.insertStart h =
      let s1 := (s.setDie h { s.die h with insertQ := rest }).homeRequest h req l a
      let left := (s1.die h).insertQ.length
      if 0 < left ∧ left ≤ rest.length then s1.send (.victimBufferFree (dieId h)) else s1 := by
  simp only [State.insertStart, hq, State.updDie]
  exact if_congr ((Bool.and_eq_true_iff).trans (and_congr decide_eq_true_iff decide_eq_true_iff)) rfl rfl

end
end Sys2Proof.Machine
end

section
/-! SUPPORT. New entries, victims, and what waited for them (05 R131, R132). -/
namespace Sys2Proof.Claim
open Sys2Proof.Machine

section
variable {s : State} {h : Die} {line : Nat} {a : Agent}

theorem gets_of_new (hbusy : (s.die h).busy line = false) (hentry : (s.die h).entry? line = none)
    (hslot : (s.die h).t0.find (hash0 line) = none) (hhome : s.homeOf line = h.val) (hcheck : s.homeCheck line = (s, false)) :
    Turns (.gets h line a) s h line { line := line, st := .E, shr := 0, own := a, hts := (s.die h).mtsOf line } h a
      (.data a line .E (s.homeData line (s.reqVmid a line)) ((s.die h).mtsOf line) 0 false) := by
  let y : DieState := { s.die h with t0 := (s.die h).t0.put (hash0 line) ((s.die h).newEntry line a) }
  have hy : (s.die h).SameButDir y := ⟨_, _, _, rfl⟩
  have hentry1 : y.entry? line = some ((s.die h).newEntry line a) := DieState.entry?_of_t0 (Sparse.find_put_same _ _ _) rfl
  refine turns_of_reply (hy.updEntry line fun e => { e with st := .E, own := agent a, shr := 0 }) ?_ hhome hcheck (k := .E)
    (congrArg Host.Outcome.next ((State.homeRequest_of_new hbusy hentry hslot .gets a).trans ?_))
  · rw [DieState.entry?_updEntry hentry1 rfl, agent_val]
    rfl
  · refine (State.startRead_of_invalid (e := (s.die h).newEntry line a) rfl a.val).trans ?_
    rw [State.updDie, State.die_setDie_same, State.setDie_setDie]
    rfl

theorem back_of_last {v : Victim} (hv : (s.die h).victims = [v]) (hline : v.entry.line = line) (hwait : v.waiting = [a]) (hh : Nat) :
    ∃ t, exec (.back h line a hh) s = .next t ∧ (t.die h).victims = [] ∧
      (t.die h).mtsOf line = max ((s.die h).mtsOf line) (max v.entry.hts hh) := by
  have hdie := State.die_updDie_same s h fun x => { x with victims := x.victims.filter fun k => k.entry.line != line }.raiseMts line (max v.entry.hts hh)
  refine ⟨_, congrArg Host.Outcome.next (State.homeBack_of_last hv hline hwait hh), ?_, ?_⟩
  · refine (congrArg DieState.victims hdie).trans ?_
    simp [DieState.raiseMts, hv, hline]
  · refine (congrArg (·.mtsOf line) hdie).trans ?_
    exact (DieState.mtsOf_raiseMts _ _ _).trans (Nat.max_comm _ _)

end

theorem newEntriesAndVictims : NewEntriesAndVictims := by
  intro s h line a
  refine ⟨gets_of_new, fun v hh hv hline hwait => back_of_last hv hline hwait hh, fun req rest hbusy hq => ?_, fun req l rest hq => ?_⟩
  · exact congrArg Host.Outcome.next ((State.homeStart_of_first hbusy hq).trans (by rw [dieId_val]))
  · exact congrArg Host.Outcome.next ((State.insertStart_of_first hq).trans (by rw [dieId_val]))

/-- Settles O23: the home's transitions by the state of the entry, and the entries that it makes and gives up. -/
theorem homesAndTheirEntries : Obligations.HomesAndTheirEntries := ⟨homeTransitions, newEntriesAndVictims⟩

end Sys2Proof.Claim
end

section
/-! SUPPORT. Operations whose last element has been performed (06 R143, 10 R222, R234). -/
namespace Sys2Proof.Machine

/-! ### One operation of a core -/

/-- The one operation of core `c` is `o`, of number `n`; its role is `r`, which has no entry in the side log. -/
structure State.RunsOne (s : State) (c n : Nat) (o : Op) (r : Role) : Prop where
  ops : (s.core c).ops = [(n, o)]
  role : s.role? o.rid = some r
  entries : (s.core c).entriesOf o.rid = []

theorem Sparse.find_single {α : Type} (n : Nat) (x : α) : Sparse.find [(n, x)] n = some x := if_pos rfl
theorem Sparse.put_single {α : Type} (n : Nat) (x y : α) : Sparse.put [(n, x)] n y = [(n, y)] := if_pos rfl
theorem Sparse.del_single {α : Type} (n : Nat) (x : α) : Sparse.del [(n, x)] n = [] := if_pos rfl

/-- The role of an operation that is complete. -/
def Op.deliver (o : Op) (r : Role) : Role :=
  let r1 := match o.dst with
    | none => r
    | some d => if d.isScalar then (match o.got.head? with
        | some g => r.setSreg d.num g.2
        | none => r)
      else o.got.foldl (fun q g => q.setVreg d.num g.1 g.2) r
  if o.ws = 0 then r1 else r1.slotDone o.ws

theorem Op.deliver_nothing {o : Op} (hdst : o.dst = none) (hws : o.ws = 0) (r : Role) : o.deliver r = r := by
  simp [Op.deliver, hdst, hws]

theorem Op.deliver_scalar {o : Op} {d : RegName} {l : Nat} {v : Word} (hdst : o.dst = some d) (hd : d.isScalar = true) (hgot : o.got = [(l, v)])
    (r : Role) : o.deliver r = if o.ws = 0 then r.setSreg d.num v else (r.setSreg d.num v).slotDone o.ws := by
  simp [Op.deliver, hdst, hd, hgot]

namespace State.RunsOne
variable {s : State} {c n : Nat} {o : Op} {r : Role}

theorem find (h : s.RunsOne c n o r) : (s.core c).ops.find n = some o := by
  rw [h.ops]
  exact Sparse.find_single n o

theorem mayStart (h : s.RunsOne c n o r) : s.mayStart c n o = true := by
  simp [State.mayStart, h.entries, Core.opsOf, h.ops]

/-- The pump finishes an operation that has nothing left to perform. -/
theorem pump (h : s.RunsOne c n o r) (hwait : o.waiting = []) (hstop : o.stop = .go) (hsent : o.sent = 0) (hread : o.kind ≠ .accRead)
    (hwrite : o.kind ≠ .accWrite) : s.pump c = s.finishOp c n o := by
  rw [State.pump, h.ops, List.foldl_cons, List.foldl_nil]
  simp [h.find, hstop, hsent, hread, hwrite, h.mayStart, hwait, State.pumpOp]

theorem finishOp (h : s.RunsOne c n o r) : s.finishOp c n o = (s.updCore c fun k => k.dropOp n).setRole o.rid (o.deliver r) :=
  State.updRole_some _ _ _ _ h.role

/-- The operation takes another value, of the same role. -/
theorem put {o' : Op} (h : s.RunsOne c n o r) (hrid : o'.rid = o.rid) {f : Core → Core} (hops : (f (s.core c)).ops = (s.core c).ops.put n o')
    (hlog : (f (s.core c)).log = (s.core c).log) : (s.updCore c f).RunsOne c n o' r where
  ops := by rw [Claim.core_updCore_same, hops, h.ops, Sparse.put_single]
  role := by rw [hrid]; exact h.role
  entries := by
    rw [Claim.core_updCore_same, hrid, Core.entriesOf, hlog]
    exact h.entries

theorem setRole {q : Role} (h : s.RunsOne c n o r) : (s.setRole o.rid q).RunsOne c n o q where
  ops := h.ops
  role := State.role?_setRole_same _ _ _
  entries := h.entries

theorem raisePts (h : s.RunsOne c n o r) (t : Nat) : (s.raisePts c t).RunsOne c n o r where
  ops := by rw [State.raisePts, Claim.core_updCore_same, apply_ite Core.ops, ite_self, h.ops]
  role := h.role
  entries := by
    rw [State.raisePts, Claim.core_updCore_same, Core.entriesOf, apply_ite Core.log, ite_self]
    exact h.entries

/-- What the pump makes of an operation that has nothing left to perform. -/
theorem finished (h : s.RunsOne c n o r) (hwait : o.waiting = []) (hstop : o.stop = .go) (hsent : o.sent = 0) (hread : o.kind ≠ .accRead)
    (hwrite : o.kind ≠ .accWrite) : (s.pump c).role? o.rid = some (o.deliver r) ∧ ((s.pump c).core c).ops = [] ∧
      ((s.pump c).core c).pts = (s.core c).pts ∧ (s.pump c).mem = s.mem ∧ (s.pump c).gangs = s.gangs := by
  rw [h.pump hwait hstop hsent hread hwrite, h.finishOp]
  refine ⟨State.role?_setRole_same _ _ _, ?_, ?_, rfl, rfl⟩ <;> rw [State.core_setRole, Claim.core_updCore_same, Core.dropOp]
  rw [h.ops, Sparse.del_single]

end State.RunsOne

theorem State.pts_raisePts (s : State) (c t : Nat) : ((s.raisePts c t).core c).pts = max (s.core c).pts t := by
  rw [State.raisePts, Claim.core_updCore_same]
  split
  next h => exact (Nat.max_eq_right (Nat.le_of_lt h)).symm
  next h => exact (Nat.max_eq_left (Nat.not_lt.1 h)).symm

/-! ### The head element of an operation is performed -/

section
variable {o : Op} {e : OpElem} (v : Word)

theorem Op.take_last (hdst : o.dst.isSome = true) (hgot : o.got = []) (h : o.waiting = [e]) :
    o.take v = { o with waiting := [], sent := 0, got := [(e.lane, v)] } := by
  simp [Op.take, h, hdst, hgot]

theorem Op.take_last_nowhere (hdst : o.dst = none) (h : o.waiting = [e]) : o.take v = { o with waiting := [], sent := 0 } := by
  simp [Op.take, h, hdst]

@[simp] theorem Op.take_rid : (o.take v).rid = o.rid := by
  unfold Op.take
  split <;> rfl

end

end Sys2Proof.Machine

namespace Sys2Proof.Claim
open Sys2Proof.Machine

/-- The role `q` is `r` with `v` in the destination `d` of operation `o`, whose slot counts one less. -/
def Delivers (r : Role) (o : Op) (d : RegName) (q : Role) (v : Word) : Prop :=
  (∀ k, q.sreg k = if k = d.num then v else r.sreg k) ∧ q.vregs = r.vregs ∧ q.masks = r.masks ∧ q.pc = r.pc ∧ q.clause = r.clause ∧
    ∀ w, q.waitCount w = if w = o.ws ∧ o.ws ≠ 0 then r.waitCount w - 1 else r.waitCount w

theorem delivers_deliver {o : Op} {d : RegName} {l : Nat} {v : Word} (hdst : o.dst = some d) (hd : d.isScalar = true) (hgot : o.got = [(l, v)])
    (r : Role) : Delivers r o d (o.deliver r) v := by
  rw [Op.deliver_scalar hdst hd hgot]
  by_cases hws : o.ws = 0
  · rw [if_pos hws]
    exact ⟨fun k => Sparse.get_set 0 r.sregs _ k v, rfl, rfl, rfl, rfl, fun w => by simp [hws, Role.waitCount]⟩
  · rw [if_neg hws]
    refine ⟨fun k => Sparse.get_set 0 r.sregs _ k v, rfl, rfl, rfl, rfl, fun w => ?_⟩
    rw [Role.waitCount, Role.slotDone_waits, Sparse.get_set]
    by_cases hw : w = o.ws
    · simp [hw, hws, Role.waitCount]
    · simp [hw, Role.waitCount]

/-- The last element of the one operation of core `c` has been performed with value `v`: what the pump makes of it. -/
theorem completes_of_taken {t : State} {c n : Nat} {o : Op} {r : Role} {e : OpElem} {d : RegName} {v : Word}
    (h : t.RunsOne c n (o.take v) r) (hwait : o.waiting = [e]) (hstop : o.stop = .go) (hread : o.kind ≠ .accRead) (hwrite : o.kind ≠ .accWrite)
    (hgot : o.got = []) (hdst : o.dst = some d) (hd : d.isScalar = true) :
    ∃ q, (t.pump c).role? o.rid = some q ∧ Delivers r o d q v ∧ ((t.pump c).core c).ops = [] ∧ ((t.pump c).core c).pts = (t.core c).pts ∧
      (t.pump c).mem = t.mem ∧ (t.pump c).gangs = t.gangs := by
  rw [Op.take_last v (by rw [hdst]; rfl) hgot hwait] at h
  obtain ⟨hrole, hrest⟩ := h.finished rfl hstop rfl hread hwrite
  exact ⟨_, hrole, delivers_deliver (o := { o with waiting := [], sent := 0, got := [(e.lane, v)] }) hdst hd rfl r, hrest⟩

end Sys2Proof.Claim
end

section
/-! SUPPORT. The roles and the cores beyond their L1: what coherence leaves alone. -/
namespace Sys2Proof.Machine

/-- A core without its L1. -/
def Core.beyondL1 (k : Core) : Core := { k with l1 := [] }

/-- The roles, and the cores without their L1. -/
def State.beyondL1 (s : State) : Sparse Role × (Nat → Core) := (s.roles, fun c => (s.core c).beyondL1)

theorem State.roles_of_beyondL1 {s t : State} (h : t.beyondL1 = s.beyondL1) : t.roles = s.roles := congrArg Prod.fst h

theorem State.core_of_beyondL1 {s t : State} (h : t.beyondL1 = s.beyondL1) (c : Nat) : (t.core c).beyondL1 = (s.core c).beyondL1 :=
  congrFun (congrArg Prod.snd h) c

theorem State.beyondL1_updCore (s : State) (c : Nat) {f : Core → Core} (h : ∀ k, (f k).beyondL1 = k.beyondL1) :
    (s.updCore c f).beyondL1 = s.beyondL1 := by
  refine Prod.ext rfl (funext fun q => ?_)
  by_cases hq : q = c
  · subst hq
    exact (congrArg Core.beyondL1 (Claim.core_updCore_same s q f)).trans (h _)
  · exact congrArg Core.beyondL1 (Sparse.get_put_other _ _ _ _ _ hq)

theorem State.beyondL1_fillL1 (s : State) (m : LdReply) (renew : Bool) : (s.fillL1 m renew).beyondL1 = s.beyondL1 := by
  unfold State.fillL1
  dsimp only
  split
  · rfl
  · split
    · refine s.beyondL1_updCore _ fun k => ?_
      split
      · split
        · rfl
        · rfl
      · rfl
    · split
      · exact s.beyondL1_updCore _ fun _ => rfl
      · rfl

theorem State.mem_fillL1 (s : State) (m : LdReply) (renew : Bool) : (s.fillL1 m renew).mem = s.mem := by
  unfold State.fillL1
  dsimp only
  split
  · rfl
  · split
    · rfl
    · split
      · rfl
      · rfl

theorem State.RunsOne.of_beyondL1 {s t : State} {c n : Nat} {o : Op} {r : Role} (h : s.RunsOne c n o r) (hrun : t.beyondL1 = s.beyondL1) :
    t.RunsOne c n o r where
  ops := (congrArg Core.ops (State.core_of_beyondL1 hrun c)).trans h.ops
  role := (congrArg (·.find o.rid) (State.roles_of_beyondL1 hrun)).trans h.role
  entries := (congrArg (·.entriesOf o.rid) (State.core_of_beyondL1 hrun c)).trans h.entries

end Sys2Proof.Machine
end

section
/-! SUPPORT. What a reply brings to the L1 and to the operation that waits for it (05 R120, R121). -/
namespace Sys2Proof.Machine

section
variable {s : State} {m : LdReply} {c n : Nat} {o : Op} {r : Role} {e : OpElem} {line off : Nat} {tag : L1Tag} {perm : FillPerm}

theorem State.pts_fillL1 (s : State) (m : LdReply) (renew : Bool) (c : Nat) : ((s.fillL1 m renew).core c).pts = (s.core c).pts :=
  (congrArg Core.pts (State.core_of_beyondL1 (State.beyondL1_fillL1 s m renew) c)).trans rfl

/-- Where the lease of a reply covers the pts that it brings, it serves the load. -/
theorem State.pts_fillL1_le (h : max (s.core c).pts m.wts ≤ m.rts) (renew : Bool) :
    (((s.raisePts c m.wts).fillL1 m renew).core c).pts ≤ m.rts := by
  rwa [State.pts_fillL1, State.pts_raisePts]

theorem Core.l1?_useL1 {k : Core} {t : L1Tag} {y : L1Line} {f : L1Line → L1Line} (h : k.l1? t = some y) (hf : (f y).tag = y.tag) :
    (k.useL1 t f).l1? t = some (f y) := by
  have htag : (y.tag == t) = true := List.find?_some (p := fun y : L1Line => y.tag == t) h
  rw [Core.useL1, h, Core.l1?]
  exact List.find?_cons_of_pos (by rwa [hf])

/-- The copy that RENEW renews keeps its data and its wts. -/
theorem State.l1?_fillL1_renew {y : L1Line} (hc : m.req.core = c) (hl1 : (s.core c).l1? m.req.tag = some y) (hold : m.req.oldWts = some y.wts)
    (hacc : m.req.acc = false) (hl2 : m.req.l2only = false) :
    ((s.fillL1 m true).core c).l1? m.req.tag = some { y with rts := max y.rts m.rts } := by
  subst hc
  simp only [State.fillL1, hacc, hl2, Bool.or_self, Bool.false_eq_true, if_false, if_true, Claim.core_updCore_same, hl1, hold]
  exact Core.l1?_useL1 hl1 rfl

/-- The operation that waited for element `e` has been served with value `v`, and the core goes on. -/
def State.serve (s : State) (c n : Nat) (o : Op) (v : Word) : State := (s.updCore c fun k => { k with ops := k.ops.put n (o.take v) }).pump c

variable (hc : m.req.core = c) (hn : m.req.op = some n) (hview : m.req.view = false) (herror : m.error = none)
  (hrun : s.RunsOne c n o r) (hwait : o.waiting = [e]) (htarget : e.target = .mem line off tag perm false false)
  (hlease : max (s.core c).pts m.wts ≤ m.rts)
include hc hn hview herror hrun hwait htarget hlease

theorem State.takeLine_of_lddata : s.takeLine m false =
    ((s.raisePts c m.wts).fillL1 m false).serve c n o (BitVec.ofNat 64 (lineField m.data off o.ty.bytes)) := by
  have hrun1 := (hrun.raisePts m.wts).of_beyondL1 (State.beyondL1_fillL1 _ m false)
  have hpts := State.pts_fillL1_le (m := m) hlease false
  subst hc
  simp [State.takeLine, hn, herror, hview, hrun1.find, hwait, htarget, hpts, State.serve]

/-- RENEW serves the load from the copy that it renews. -/
theorem State.takeLine_of_renew {y : L1Line} (hacc : m.req.acc = false) (hl2 : m.req.l2only = false) (hl1 : (s.core c).l1? m.req.tag = some y)
    (hold : m.req.oldWts = some y.wts) : s.takeLine m true =
    ((s.raisePts c m.wts).fillL1 m true).serve c n o (BitVec.ofNat 64 (lineField y.data off o.ty.bytes)) := by
  have hrun1 := (hrun.raisePts m.wts).of_beyondL1 (State.beyondL1_fillL1 _ m true)
  have hpts := State.pts_fillL1_le (m := m) hlease true
  have hraised : ((s.raisePts c m.wts).core c).l1? m.req.tag = some y := by
    rw [State.raisePts, Claim.core_updCore_same, Core.l1?, apply_ite Core.l1, ite_self]
    exact hl1
  have hcopy := State.l1?_fillL1_renew hc hraised hold hacc hl2
  subst hc
  simp [State.takeLine, hn, herror, hview, hrun1.find, hwait, htarget, hpts, hcopy, hold, State.serve]

end

end Sys2Proof.Machine
end

section
/-! SUPPORT. Replies that complete an operation (05 R120, R121; 10 R222, R234). -/
namespace Sys2Proof.Machine

/-- A store of the role itself changes what it has spilled alone. -/
theorem Role.overwrite_eq (r : Role) (place n x : Nat) : ∃ sp, r.overwrite place n x = { r with spilled := sp } := by
  unfold Role.overwrite
  dsimp only
  split
  · exact ⟨_, rfl⟩
  · exact ⟨_, rfl⟩

theorem State.updGang_some {s : State} {i : Nat} {g : Gang} (h : s.gang? i = some g) (f : Gang → Gang) : s.updGang i f = s.setGang i (f g) := by
  simp only [State.updGang, h]

theorem State.gang?_setGang_same (s : State) (i : Nat) (g : Gang) : (s.setGang i g).gang? i = some g := Sparse.find_put_same _ _ _

section
variable {s : State} {c n : Nat} {o : Op} {r : Role}

/-- STDONE without an error: its marks on the core's L1 and the role, and the operation goes on. -/
theorem State.takeStdone_of_good {m : StReply} (hc : m.req.core = c) (hn : m.req.op = n) (herror : m.error = none) (hrun : s.RunsOne c n o r) :
    s.takeStdone m = ((((s.raisePts c m.wts).updCore c fun k =>
      { k.ownWrite m.req.line m.bytes m.wts with ops := k.ops.put n (o.take m.old) })).setRole o.rid
        (r.overwrite (128 * m.req.line + m.req.off) m.req.size m.new.toNat)).pump c := by
  subst hc hn
  have hrole : (((s.raisePts m.req.core m.wts).updCore m.req.core fun k =>
      { k.ownWrite m.req.line m.bytes m.wts with ops := k.ops.put m.req.op (o.take m.old) })).role? o.rid = some r := hrun.role
  simp only [State.takeStdone, hrun.find, herror, State.updRole_some _ _ _ _ hrole]

theorem State.RunsOne.stdone (hrun : s.RunsOne c n o r) (m : StReply) :
    ((((s.raisePts c m.wts).updCore c fun k => { k.ownWrite m.req.line m.bytes m.wts with ops := k.ops.put n (o.take m.old) })).setRole o.rid
      (r.overwrite (128 * m.req.line + m.req.off) m.req.size m.new.toNat)).RunsOne c n (o.take m.old)
      (r.overwrite (128 * m.req.line + m.req.off) m.req.size m.new.toNat) := by
  rw [← Op.take_rid m.old]
  exact ((hrun.raisePts m.wts).put (Op.take_rid _) rfl rfl).setRole

end
end Sys2Proof.Machine

namespace Sys2Proof.Claim
open Sys2Proof.Machine

section
variable {s : State} {c n : Nat} {o : Op} {r : Role} {e : OpElem} {d : RegName}

/-- A role that has put something else into its stack area takes the same value. -/
theorem Delivers.of_spilled {q : Role} {v : Word} {sp : Sparse Word} (h : Delivers { r with spilled := sp } o d q v) : Delivers r o d q v := h

variable (hrun : s.RunsOne c n o r) (hwait : o.waiting = [e]) (hstop : o.stop = .go) (hread : o.kind ≠ .accRead) (hwrite : o.kind ≠ .accWrite)
include hrun hwait hstop hread hwrite

section
variable (hgot : o.got = []) (hdst : o.dst = some d) (hd : d.isScalar = true)
include hgot hdst hd

theorem serve_completes (v : Word) : ∃ q, (s.serve c n o v).role? o.rid = some q ∧ Delivers r o d q v ∧
    ((s.serve c n o v).core c).ops = [] ∧ ((s.serve c n o v).core c).pts = (s.core c).pts ∧ (s.serve c n o v).mem = s.mem ∧
    (s.serve c n o v).gangs = s.gangs := by
  obtain ⟨q, hrole, hq, hops, hpts, hmem, hgangs⟩ :=
    completes_of_taken (hrun.put (f := fun k => { k with ops := k.ops.put n (o.take v) }) (Op.take_rid v) rfl rfl) hwait hstop hread hwrite hgot hdst hd
  refine ⟨q, hrole, hq, hops, hpts.trans ?_, hmem, hgangs⟩
  rw [core_updCore_same]

/-- A reply to the load that brings the value `v`: the load is complete. -/
theorem load_completes (m : LdReply) (renew : Bool) (v : Word) :
    let t := ((s.raisePts c m.wts).fillL1 m renew).serve c n o v
    ∃ q, t.role? o.rid = some q ∧ Delivers r o d q v ∧ (t.core c).ops = [] ∧ (t.core c).pts = max (s.core c).pts m.wts ∧ t.mem = s.mem := by
  have hrun1 := (hrun.raisePts m.wts).of_beyondL1 (State.beyondL1_fillL1 _ m renew)
  obtain ⟨q, hrole, hq, hops, hpts, hmem, -⟩ := serve_completes hrun1 hwait hstop hread hwrite hgot hdst hd v
  refine ⟨q, hrole, hq, hops, ?_, hmem.trans (State.mem_fillL1 _ _ _)⟩
  rw [hpts, State.pts_fillL1, State.pts_raisePts]

end

section
variable {m : StReply} (hc : m.req.core = c) (hn : m.req.op = n) (herror : m.error = none)
include hc hn herror

theorem stdone_completes (hgot : o.got = []) (hdst : o.dst = some d) (hd : d.isScalar = true) :
    ∃ t q, exec (.stdone m) s = .next t ∧ t.role? o.rid = some q ∧ Delivers r o d q m.old ∧ (t.core c).ops = [] ∧
      (t.core c).pts = max (s.core c).pts m.wts ∧ t.mem = s.mem := by
  obtain ⟨q, hrole, hq, hops, hpts, hmem, -⟩ := completes_of_taken (hrun.stdone m) hwait hstop hread hwrite hgot hdst hd
  obtain ⟨sp, hsp⟩ := r.overwrite_eq (128 * m.req.line + m.req.off) m.req.size m.new.toNat
  rw [hsp] at hq
  refine ⟨_, q, congrArg Host.Outcome.next (State.takeStdone_of_good hc hn herror hrun), hrole, hq.of_spilled, hops, hpts.trans ?_, hmem⟩
  rw [State.core_setRole, core_updCore_same]
  exact s.pts_raisePts c m.wts

theorem stdone_writes_nothing (hdst : o.dst = none) (hws : o.ws = 0) : ∃ t q, exec (.stdone m) s = .next t ∧ t.role? o.rid = some q ∧
    { q with spilled := r.spilled } = r ∧ (t.core c).ops = [] ∧ (t.core c).pts = max (s.core c).pts m.wts ∧ t.mem = s.mem := by
  have hdone := hrun.stdone m
  rw [Op.take_last_nowhere m.old hdst hwait] at hdone
  obtain ⟨hrole, hops, hpts, hmem, -⟩ := hdone.finished rfl hstop rfl hread hwrite
  rw [Op.deliver_nothing (by exact hdst) (by exact hws)] at hrole
  obtain ⟨sp, hsp⟩ := r.overwrite_eq (128 * m.req.line + m.req.off) m.req.size m.new.toNat
  have hexec := State.takeStdone_of_good hc hn herror hrun
  rw [Op.take_last_nowhere m.old hdst hwait] at hexec
  refine ⟨_, _, congrArg Host.Outcome.next hexec, hrole, ?_, hops, hpts.trans ?_, hmem⟩
  · rw [hsp]
  · rw [State.core_setRole, core_updCore_same]
    exact s.pts_raisePts c m.wts

end
end

end Sys2Proof.Claim
end

section
/-! SUPPORT. An access to a scratchpad share completes its operation (06 R144). -/
namespace Sys2Proof.Machine

section
variable {s : State} {m : SpadReq} {c n : Nat} {o : Op} {r : Role} {g : Gang}

/-- The time at which an access to a share stands. -/
def spadClock (m : SpadReq) (g : Gang) : Nat :=
  if m.elem != .load then max m.p (g.spts.get 0 m.rank + 1) else max m.p (g.spts.get 0 m.rank)

/-- The gang of an access to a share, which stands at its time. -/
def spadClocked (m : SpadReq) (g : Gang) : Gang := { g with spts := Sparse.set 0 g.spts m.rank (spadClock m g) }

/-- What an access finds in the share. -/
def spadOld (m : SpadReq) (g : Gang) : Nat := readBytes (g.shares.get [] m.rank) m.off m.size

/-- What a write leaves in the share. -/
def spadNew (m : SpadReq) (g : Gang) : Nat := elemNew m.ty (8 * m.size) m.elem (spadOld m g) m.data.toNat

/-- The gang after a write. -/
def spadWritten (m : SpadReq) (g : Gang) : Gang :=
  { spadClocked m g with shares := Sparse.set [] g.shares m.rank (writeBytes (g.shares.get [] m.rank) m.off (spadNew m g) m.size) }

theorem State.RunsOne.setGang (h : s.RunsOne c n o r) (i : Nat) (g : Gang) : (s.setGang i g).RunsOne c n o r := h.of_beyondL1 rfl

theorem State.spadTime_of_gang (hgang : s.gang? m.gang = some g) {write : Bool} (hwrite : (m.elem != .load) = write) :
    s.spadTime m.gang m.rank m.p write = (spadClock m g, s.setGang m.gang (spadClocked m g)) := by
  subst hwrite
  simp only [State.spadTime, hgang, State.updGang_some hgang, spadClock, spadClocked]

theorem State.spadGet_clocked (s : State) : (s.setGang m.gang (spadClocked m g)).spadGet m.gang m.rank m.off m.size = spadOld m g := by
  simp only [State.spadGet, State.gang?_setGang_same, spadClocked, spadOld]

theorem State.spadPut_clocked (s : State) :
    (s.setGang m.gang (spadClocked m g)).spadPut m.gang m.rank m.off m.size (elemNew m.ty (8 * m.size) m.elem (spadOld m g) m.data.toNat) =
      (s.setGang m.gang (spadClocked m g)).setGang m.gang (spadWritten m g) :=
  State.updGang_some (State.gang?_setGang_same _ _ _) _

variable (hc : m.core = c) (hn : m.op = n) (hcheck : s.spadCheck m.gang m.rank m.off = (s, false)) (hgang : s.gang? m.gang = some g)
  (hrun : s.RunsOne c n o r)
include hc hn hcheck hgang hrun

theorem State.spadAccess_of_load (helem : m.elem = .load) :
    s.spadAccess m = ((s.setGang m.gang (spadClocked m g)).raisePts c (spadClock m g)).serve c n o (BitVec.ofNat 64 (spadOld m g)) := by
  subst hc hn
  have hload : (m.elem != .load) = false := by simp [helem]
  simp only [State.spadAccess, hrun.find, hcheck, State.spadTime_of_gang hgang hload, State.spadGet_clocked, hload, Bool.false_eq_true, if_false,
    State.serve]

/-- A write may change what the role has spilled, and nothing else of it. -/
theorem State.spadAccess_of_write (helem : m.elem ≠ .load) : ∃ sp, s.spadAccess m =
    ((((s.setGang m.gang (spadClocked m g)).setGang m.gang (spadWritten m g)).setRole o.rid { r with spilled := sp }).raisePts c
      (spadClock m g)).serve c n o (BitVec.ofNat 64 (spadOld m g)) := by
  subst hc hn
  have hwrite : (m.elem != .load) = true := by simp [helem]
  have hrole : ((s.setGang m.gang (spadClocked m g)).setGang m.gang (spadWritten m g)).role? o.rid = some r := hrun.role
  have hspilled : ∃ sp, (if ((s.setGang m.gang (spadClocked m g)).role? o.rid).any (·.gang == m.gang) = true then
      r.overwrite (Spot.place (.spad m.rank m.off)) m.size (spadNew m g) else r) = { r with spilled := sp } := by
    split
    · exact r.overwrite_eq _ _ _
    · exact ⟨r.spilled, rfl⟩
  obtain ⟨sp, hsp⟩ := hspilled
  refine ⟨sp, ?_⟩
  rw [← hsp]
  simp only [State.spadAccess, hrun.find, hcheck, State.spadTime_of_gang hgang hwrite, State.spadGet_clocked, State.spadPut_clocked, hwrite,
    Bool.false_eq_true, if_false, if_true, State.updRole_some _ _ _ _ hrole, State.serve, spadNew]

end
end Sys2Proof.Machine
end

section
/-! SUPPORT. Accesses to the scratchpad, and replies to loads, complete their operations (05 R120, 06 R144). -/
namespace Sys2Proof.Claim
open Sys2Proof.Machine

section
variable {s : State} {c n : Nat} {o : Op} {r : Role} {e : OpElem} {d : RegName} {m : SpadReq} {g : Gang}
variable (hrun : s.RunsOne c n o r) (hwait : o.waiting = [e]) (hstop : o.stop = .go) (hread : o.kind ≠ .accRead) (hwrite : o.kind ≠ .accWrite)
  (hgot : o.got = []) (hdst : o.dst = some d) (hd : d.isScalar = true)
include hrun hwait hstop hread hwrite hgot hdst hd

theorem spad_completes (hc : m.core = c) (hn : m.op = n) (hcheck : s.spadCheck m.gang m.rank m.off = (s, false))
    (hgang : s.gang? m.gang = some g) :
    ∃ t q g', exec (.scratchpadAccess m) s = .next t ∧ t.role? o.rid = some q ∧ Delivers r o d q (BitVec.ofNat 64 (spadOld m g)) ∧
      (t.core c).ops = [] ∧ t.gang? m.gang = some g' ∧ (m.elem = .load → g'.shares = g.shares) ∧
      (m.elem ≠ .load → readBytes (g'.shares.get [] m.rank) m.off m.size = spadNew m g % 256 ^ m.size) := by
  have hrun1 := hrun.setGang m.gang (spadClocked m g)
  by_cases helem : m.elem = .load
  · have hexec := State.spadAccess_of_load hc hn hcheck hgang hrun helem
    obtain ⟨q, hrole, hq, hops, -, -, hgangs⟩ := serve_completes (hrun1.raisePts (spadClock m g)) hwait hstop hread hwrite hgot hdst hd _
    refine ⟨_, q, spadClocked m g, congrArg Host.Outcome.next hexec, hrole, hq, hops, ?_, fun _ => rfl, fun hne => absurd helem hne⟩
    exact (congrArg (·.find m.gang) hgangs).trans (State.gang?_setGang_same s _ _)
  · obtain ⟨sp, hexec⟩ := State.spadAccess_of_write hc hn hcheck hgang hrun helem
    have hrun2 := ((hrun1.setGang m.gang (spadWritten m g)).setRole (q := { r with spilled := sp })).raisePts (spadClock m g)
    obtain ⟨q, hrole, hq, hops, -, -, hgangs⟩ := serve_completes hrun2 hwait hstop hread hwrite hgot hdst hd _
    refine ⟨_, q, spadWritten m g, congrArg Host.Outcome.next hexec, hrole, hq.of_spilled, hops, ?_, fun he => absurd he helem, fun _ => ?_⟩
    · exact (congrArg (·.find m.gang) hgangs).trans (State.gang?_setGang_same _ _ _)
    · rw [spadWritten, Sparse.get_set_same, readBytes_writeBytes]

end

end Sys2Proof.Claim
end

section
/-! SUPPORT. Coherence leaves the roles, and the cores beyond their L1, alone. -/
namespace Sys2Proof.Machine

section
variable {s t : State}

/-! ### The operations on the state -/

theorem Sparse.get_map {α : Type} {d : α} (f : α → α) (hd : f d = d) (l : Sparse α) (k : Nat) :
    Sparse.get d (l.map fun p => (p.1, f p.2)) k = f (l.get d k) := by
  induction l with
  | nil => exact hd.symm
  | cons p l ih =>
    simp only [List.map_cons, Sparse.get, ih, apply_ite f, hd]

theorem State.beyondL1_foldl {α : Type} (f : State → α → State) (l : List α) (hf : ∀ t a, (f t a).beyondL1 = t.beyondL1) (s : State) :
    (l.foldl f s).beyondL1 = s.beyondL1 :=
  List.foldlRecOn l f (motive := fun t => t.beyondL1 = s.beyondL1) rfl fun t ht a _ => (hf t a).trans ht

@[simp] theorem State.beyondL1_setDie (d : Nat) (x : DieState) : (s.setDie d x).beyondL1 = s.beyondL1 := rfl
@[simp] theorem State.beyondL1_updDie (d : Nat) (f : DieState → DieState) : (s.updDie d f).beyondL1 = s.beyondL1 := rfl
@[simp] theorem State.beyondL1_send (i : Instr) : (s.send i).beyondL1 = s.beyondL1 := rfl
@[simp] theorem State.beyondL1_sendAll (l : List Instr) : (s.sendAll l).beyondL1 = s.beyondL1 := rfl
@[simp] theorem State.beyondL1_signal (x : Signal) : (s.signal x).beyondL1 = s.beyondL1 := rfl
@[simp] theorem State.beyondL1_tick (n : Nat) : (s.tick n).beyondL1 = s.beyondL1 := rfl
@[simp] theorem State.beyondL1_storeLine (line vmid : Nat) (x : LineData) : (s.storeLine line vmid x).beyondL1 = s.beyondL1 := rfl
@[simp] theorem State.beyondL1_setRegField (d off lo n v : Nat) : (s.setRegField d off lo n v).beyondL1 = s.beyondL1 := rfl
@[simp] theorem State.beyondL1_countError (d off : Nat) : (s.countError d off).beyondL1 = s.beyondL1 := rfl

@[simp] theorem State.beyondL1_countWeak (line : Nat) : (s.countWeak line).beyondL1 = s.beyondL1 := by
  fun_cases State.countWeak <;> rfl

@[simp] theorem State.beyondL1_retireFrame (pa : Nat) : (s.retireFrame pa).beyondL1 = s.beyondL1 := by
  fun_cases State.retireFrame <;> rfl

@[simp] theorem State.beyondL1_memCheck (line : Nat) : (s.memCheck line).1.beyondL1 = s.beyondL1 := by
  fun_cases State.memCheck <;> simp

@[simp] theorem State.beyondL1_touchFrame (pa : Nat) : (s.touchFrame pa).beyondL1 = s.beyondL1 := by
  fun_cases State.touchFrame <;> rfl

@[simp] theorem State.beyondL1_noteFill (line : Nat) : (s.noteFill line).beyondL1 = s.beyondL1 := by
  fun_cases State.noteFill <;> simp +zetaDelta

@[simp] theorem State.beyondL1_sendMsg (a b : Nat) (i : Instr) : (s.sendMsg a b i).beyondL1 = s.beyondL1 := by
  rw [State.sendMsg_eq]
  rfl

/-! ### Lines, errors and the home's transactions -/

@[simp] theorem State.beyondL1_writeBack (d : Nat) (l : SliceLine) : (s.writeBack d l).beyondL1 = s.beyondL1 := by
  fun_cases State.writeBack <;> simp

@[simp] theorem State.beyondL1_evict (d : Nat) (l : SliceLine) : (s.evict d l).beyondL1 = s.beyondL1 := by
  fun_cases State.evict <;> simp +zetaDelta [apply_ite State.beyondL1]

theorem State.beyondL1_fill {d : Nat} {l : SliceLine} (h : s.fill d l = some t) : t.beyondL1 = s.beyondL1 := by
  unfold State.fill at h
  dsimp only at h
  split at h
  · cases h
    rfl
  · split at h
    · cases h
      simp
    · split at h
      · cases h
        simp
      · cases h

/-- A core whose L1 has lost a line. -/
def Core.dropL1Line (line : Nat) (k : Core) : Core := { k with l1 := k.l1.filter fun x => x.line != line }

theorem State.beyondL1_dropL1Line (s : State) (line : Nat) :
    ({ s with cores := s.cores.map fun p => (p.1, p.2.dropL1Line line) } : State).beyondL1 = s.beyondL1 := by
  refine Prod.ext rfl (funext fun c => ?_)
  exact (congrArg Core.beyondL1 (Sparse.get_map (Core.dropL1Line line) rfl s.cores c)).trans rfl

@[simp] theorem State.beyondL1_dropLine (line : Nat) (l1 : Bool) : (s.dropLine line l1).beyondL1 = s.beyondL1 := by
  unfold State.dropLine
  extract_lets h top s1 s2 base s3
  have hs1 : s1.beyondL1 = s.beyondL1 := by
    unfold s1
    split <;> simp
  have hs2 : s2.beyondL1 = s1.beyondL1 := by
    unfold s2
    rw [State.beyondL1_foldl]
    exact fun _ _ => rfl
  clear_value s2 top
  have hs3 : s3.beyondL1 = s2.beyondL1 := rfl
  rw [hs2, hs1] at hs3
  split
  · exact (s3.beyondL1_dropL1Line line).trans hs3
  · exact hs3

@[simp] theorem State.beyondL1_claim (line vmid : Nat) : (s.claim line vmid).beyondL1 = s.beyondL1 := by
  fun_cases State.claim <;> simp

@[simp] theorem State.beyondL1_l2Error (d line : Nat) : (s.l2Error d line).1.beyondL1 = s.beyondL1 := by
  fun_cases State.l2Error <;> simp [State.beyondL1_foldl]

@[simp] theorem State.beyondL1_homeCheck (line : Nat) : (s.homeCheck line).1.beyondL1 = s.beyondL1 := by
  simp [State.homeCheck, apply_ite Prod.fst, apply_ite State.beyondL1]

@[simp] theorem State.beyondL1_readCheck (d line : Nat) : (s.readCheck d line).1.beyondL1 = s.beyondL1 := by
  simp [State.readCheck, apply_ite Prod.fst, apply_ite State.beyondL1]

@[simp] theorem State.beyondL1_wakeFills : s.wakeFills.beyondL1 = s.beyondL1 := rfl
@[simp] theorem State.beyondL1_wake (h line : Nat) : (s.wake h line).beyondL1 = s.beyondL1 := rfl

@[simp] theorem State.beyondL1_refuseData (h line a : Nat) : (s.refuseData h line a).beyondL1 = s.beyondL1 := by
  unfold State.refuseData
  extract_lets s1 s2 x
  have hs2 : s2.beyondL1 = s.beyondL1 := by
    unfold s2
    split <;> simp +zetaDelta [apply_ite State.beyondL1]
  split <;> simp [hs2]

@[simp] theorem State.beyondL1_homeReply (h line a : Nat) (k : DataKind) : (s.homeReply h line a k).beyondL1 = s.beyondL1 := by
  unfold State.homeReply
  split
  · rfl
  · split
    next s1 bad hcheck =>
      have hs1 : s1.beyondL1 = s.beyondL1 := by rw [← State.beyondL1_homeCheck (s := s) line, hcheck]
      split
      · exact (State.beyondL1_refuseData _ _ _).trans hs1
      · extract_lets d s2
        have hs2 : s2.beyondL1 = s1.beyondL1 := by
          unfold s2
          split <;> rfl
        exact (State.beyondL1_sendMsg _ _ _).trans (hs2.trans hs1)

@[simp] theorem State.beyondL1_grant (h line a : Nat) (forwarded upgrade : Bool) : (s.grant h line a forwarded upgrade).beyondL1 = s.beyondL1 := by
  unfold State.grant
  extract_lets s1 s2
  have hs2 : s2.beyondL1 = s1.beyondL1 := by
    unfold s2
    split
    · split <;> simp
    · simp
  split
  · exact hs2
  · exact (State.beyondL1_wake _ _).trans hs2

@[simp] theorem State.beyondL1_txDone (a line : Nat) : (s.txDone a line).beyondL1 = s.beyondL1 := by
  fun_cases State.txDone <;> simp

@[simp] theorem State.beyondL1_startWrite (h : Nat) (e : DirEntry) (req : ReqMsg) (a : Nat) : (s.startWrite h e req a).beyondL1 = s.beyondL1 := by
  fun_cases State.startWrite <;> simp +zetaDelta [apply_ite State.beyondL1, State.beyondL1_foldl]

@[simp] theorem State.beyondL1_startRead (h : Nat) (e : DirEntry) (a : Nat) : (s.startRead h e a).beyondL1 = s.beyondL1 := by
  fun_cases State.startRead <;> simp [State.forwardRead]

@[simp] theorem State.beyondL1_startReq (h : Nat) (e : DirEntry) (req : ReqMsg) (a : Nat) : (s.startReq h e req a).beyondL1 = s.beyondL1 := by
  fun_cases State.startReq <;> simp

@[simp] theorem State.beyondL1_addVictim (h : Nat) (v : DirEntry) : (s.addVictim h v).beyondL1 = s.beyondL1 := by
  simp [State.addVictim, State.beyondL1_foldl]

@[simp] theorem State.beyondL1_homeRequest (h : Nat) (req : ReqMsg) (line a : Nat) : (s.homeRequest h req line a).beyondL1 = s.beyondL1 := by
  fun_cases State.homeRequest <;> simp

@[simp] theorem State.beyondL1_homeInvack (h line a hh : Nat) : (s.homeInvack h line a hh).beyondL1 = s.beyondL1 := by
  fun_cases State.homeInvack <;> simp +zetaDelta

@[simp] theorem State.beyondL1_homeBack (h line a hh : Nat) : (s.homeBack h line a hh).beyondL1 = s.beyondL1 := by
  fun_cases State.homeBack <;> simp

@[simp] theorem State.beyondL1_homeEvc (h line a hh : Nat) : (s.homeEvc h line a hh).beyondL1 = s.beyondL1 := by
  fun_cases State.homeEvc <;> simp +zetaDelta

end
end Sys2Proof.Machine
end

section
/-! SUPPORT. The messages between agents, and what runs them, leave the roles and the cores beyond their L1 alone. -/
namespace Sys2Proof.Machine

section
variable {s t : State}

/-! ### The home and its agents -/

theorem State.beyondL1_homeMirror {h line a wts : Nat} {bytes : LineData} {mask : BitVec 128} (e : s.homeMirror h line a bytes mask wts = some t) :
    t.beyondL1 = s.beyondL1 := by
  unfold State.homeMirror at e
  extract_lets hts tm s1 s2 vmid merge s3 at e
  have hs2 : s2.beyondL1 = s.beyondL1 := by
    unfold s2
    split <;> rfl
  split at e
  · split at e
    · cases e
      exact hs2
    · rw [← Option.some.inj e]
      exact hs2
  · split at e
    · cases e
      exact hs2
    · dsimp only at e
      split at e
      · cases e
        exact (State.beyondL1_memCheck line).trans hs2
      · exact (State.beyondL1_fill e).trans ((State.beyondL1_memCheck line).trans hs2)

@[simp] theorem State.beyondL1_request (d line vmid : Nat) (write : Bool) : (s.request d line vmid write).beyondL1 = s.beyondL1 := by
  fun_cases State.request <;> simp

@[simp] theorem State.beyondL1_askFor (d line : Nat) : (s.askFor d line).beyondL1 = s.beyondL1 := by
  fun_cases State.askFor <;> simp

@[simp] theorem State.beyondL1_putHeld (a : Nat) (l : SliceLine) : (s.putHeld a l).beyondL1 = s.beyondL1 := by
  fun_cases State.putHeld <;> rfl

@[simp] theorem State.beyondL1_giveUp (a line : Nat) : (s.giveUp a line).beyondL1 = s.beyondL1 := by
  fun_cases State.giveUp <;> rfl

@[simp] theorem State.beyondL1_takeBack (a line : Nat) : (s.takeBack a line).beyondL1 = s.beyondL1 := by
  fun_cases State.takeBack <;> simp +zetaDelta <;> rfl

@[simp] theorem State.beyondL1_agentInv (h a line : Nat) : (s.agentInv h a line).beyondL1 = s.beyondL1 := by simp [State.agentInv]
@[simp] theorem State.beyondL1_agentBinv (h a line : Nat) : (s.agentBinv h a line).beyondL1 = s.beyondL1 := by simp [State.agentBinv]

@[simp] theorem State.beyondL1_serveRead (h o line a : Nat) : (s.serveRead h o line a).beyondL1 = s.beyondL1 := by simp [State.serveRead]

@[simp] theorem State.beyondL1_ownerCheck (o line : Nat) : (s.ownerCheck o line).1.beyondL1 = s.beyondL1 := by
  fun_cases State.ownerCheck <;> simp

@[simp] theorem State.beyondL1_agentFwds (h o line a : Nat) : (s.agentFwds h o line a).beyondL1 = s.beyondL1 := by
  unfold State.agentFwds
  split
  next s0 bad hcheck =>
    have hs0 : s0.beyondL1 = s.beyondL1 := by rw [← State.beyondL1_ownerCheck (s := s) o line, hcheck]
    split
    · simp [hs0]
    · split <;> simp [hs0]

@[simp] theorem State.beyondL1_agentFwdm (h o line a : Nat) : (s.agentFwdm h o line a).beyondL1 = s.beyondL1 := by
  unfold State.agentFwdm
  extract_lets hh
  split
  next s0 bad hcheck =>
    have hs0 : s0.beyondL1 = s.beyondL1 := by rw [← State.beyondL1_ownerCheck (s := s) o line, hcheck]
    extract_lets s1
    have hs1 : s1.beyondL1 = s0.beyondL1 := by
      unfold s1
      split
      · simp
      · split <;> simp [apply_ite State.beyondL1]
    simp [hs1, hs0]

/-! ### A slice and its cores -/

@[simp] theorem State.beyondL1_answerLoad (d : Nat) (l : SliceLine) (m : LdReqMsg) : (s.answerLoad d l m).beyondL1 = s.beyondL1 := rfl

@[simp] theorem State.beyondL1_writeAt (d : Nat) (l : SliceLine) (off n new wts : Nat) (reply : Option StReply) :
    (s.writeAt d l off n new wts reply).beyondL1 = s.beyondL1 := by
  fun_cases State.writeAt <;> simp +zetaDelta

@[simp] theorem State.beyondL1_performStore (d : Nat) (l : SliceLine) (m : StReqMsg) : (s.performStore d l m).beyondL1 = s.beyondL1 := by
  simp [State.performStore]

@[simp] theorem State.beyondL1_serveWaiters (d line : Nat) : (s.serveWaiters d line).beyondL1 = s.beyondL1 := by
  unfold State.serveWaiters
  split
  · simp
  · extract_lets ld s1 s2 st s3
    have hs2 : s2.beyondL1 = s.beyondL1 := by
      unfold s2
      refine (State.beyondL1_foldl _ _ (fun t m => ?_) _).trans rfl
      split <;> rfl
    split
    · exact hs2
    · split
      · refine (State.beyondL1_foldl _ _ (fun t m => ?_) _).trans hs2
        split <;> simp
      · simp [hs2]

@[simp] theorem State.beyondL1_dropFill (d line top : Nat) : (s.dropFill d line top).beyondL1 = s.beyondL1 := by simp [State.dropFill]

@[simp] theorem State.beyondL1_completeTx (d : Nat) (x : AgentTx) (st : Moesi) (msg : Instr) : (s.completeTx d x st msg).beyondL1 = s.beyondL1 := by
  unfold State.completeTx
  dsimp only
  split
  · split <;> simp
  · split
    next hfill =>
      have := State.beyondL1_fill hfill
      simp [this]
    · split <;> simp

@[simp] theorem State.beyondL1_agentData (a line : Nat) (k : DataKind) (bytes : LineData) (wts hts : Nat) (fromOwner : Bool) :
    (s.agentData a line k bytes wts hts fromOwner).beyondL1 = s.beyondL1 := by
  fun_cases State.agentData <;> simp +zetaDelta

@[simp] theorem State.beyondL1_agentGnt (a line hts : Nat) (forwarded : Bool) : (s.agentGnt a line hts forwarded).beyondL1 = s.beyondL1 := by
  fun_cases State.agentGnt <;> simp
  rfl

@[simp] theorem State.beyondL1_agentMack (a line wts : Nat) : (s.agentMack a line wts).beyondL1 = s.beyondL1 := by
  fun_cases State.agentMack <;> simp

/-! ### What starts later, and the seams -/

@[simp] theorem State.beyondL1_homeStart (h line : Nat) : (s.homeStart h line).beyondL1 = s.beyondL1 := by
  fun_cases State.homeStart <;> simp +zetaDelta

@[simp] theorem State.beyondL1_insertStart (h : Nat) : (s.insertStart h).beyondL1 = s.beyondL1 := by
  fun_cases State.insertStart <;> simp +zetaDelta

@[simp] theorem State.beyondL1_homeMirw (h line a : Nat) (bytes : LineData) (mask : BitVec 128) (wts : Nat) :
    (s.homeMirw h line a bytes mask wts).beyondL1 = s.beyondL1 := by
  unfold State.homeMirw
  dsimp only
  split
  · rfl
  · split
    next hmirror =>
      have := State.beyondL1_homeMirror hmirror
      split <;> simp [this]
    · rfl

@[simp] theorem State.beyondL1_seamUp (a b n : Nat) : (s.seamUp a b n).beyondL1 = s.beyondL1 := by
  fun_cases State.seamUp <;> rfl

@[simp] theorem State.beyondL1_seamWaking (a b : Nat) : (s.seamWaking a b).beyondL1 = s.beyondL1 := by
  fun_cases State.seamWaking <;> rfl

/-! ### Running the protocol -/

@[simp] theorem State.beyondL1_runMsg (i : Instr) : (s.runMsg i).beyondL1 = s.beyondL1 := by
  fun_cases State.runMsg <;> simp +zetaDelta
  rfl

theorem State.beyondL1_runFirst (h : s.runFirst? = some t) : t.beyondL1 = s.beyondL1 := by
  unfold State.runFirst? at h
  split at h
  · cases h
  · obtain ⟨m, -, rfl⟩ := Option.map_eq_some_iff.1 h
    exact State.beyondL1_runMsg m

theorem State.beyondL1_obtain {d line vmid n : Nat} {write : Bool} (h : s.obtain d line vmid write n = some t) : t.beyondL1 = s.beyondL1 := by
  induction n generalizing s with
  | zero => cases h
  | succ n ih =>
    rw [State.obtain] at h
    split at h
    · cases h
      rfl
    · extract_lets other s1 at h
      have hs1 : s1.beyondL1 = s.beyondL1 := by simp [s1, apply_ite State.beyondL1]
      split at h
      · cases h
      next s2 hfirst => exact (ih h).trans ((State.beyondL1_runFirst hfirst).trans hs1)

@[simp] theorem State.beyondL1_settle (d line wts n : Nat) : (s.settle d line wts n).beyondL1 = s.beyondL1 := by
  induction n generalizing s with
  | zero => rfl
  | succ n ih =>
    rw [State.settle]
    split
    · split
      · rfl
      next s1 hfirst => exact ih.trans (State.beyondL1_runFirst hfirst)
    · rfl

@[simp] theorem State.beyondL1_rmwIn (d pa n vmid p : Nat) (f : Nat → Nat) : (s.rmwIn d pa n vmid p f).2.2.beyondL1 = s.beyondL1 := by
  unfold State.rmwIn
  dsimp only
  split
  · simp
  · split
    next s1 hobtain =>
      have hs1 := (State.beyondL1_obtain hobtain).trans (State.beyondL1_readCheck _ _)
      split <;> simp [hs1]
    · simp

@[simp] theorem State.beyondL1_writeWords (d pa vmid : Nat) (l : List Word) : (s.writeWords d pa vmid l).beyondL1 = s.beyondL1 := by
  induction l generalizing s pa with
  | nil => rfl
  | cons x l ih => simp [State.writeWords, ih]

/-- A fault record changes no role, and of the cores the L1 alone. -/
theorem State.beyondL1_writeRecord {r : Role} {f : FaultRec} {d i : Nat} (h : s.writeRecord r f = some (d, i, t)) : t.beyondL1 = s.beyondL1 := by
  unfold State.writeRecord at h
  dsimp only at h
  split at h
  · cases h
  · cases h
    simp [apply_ite State.beyondL1]

end
end Sys2Proof.Machine
end

section
/-! SUPPORT. The abort of a gang leaves the registers of every role, and the operations of every core, as they are (20 R405, R428). -/
namespace Sys2Proof.Machine

/-- The registers of the roles, and the operations of the cores. -/
def State.results (s : State) : (Nat → Option (Sparse Word × Sparse Word)) × (Nat → Sparse Op) :=
  (fun k => (s.role? k).map fun q => (q.sregs, q.vregs), fun c => (s.core c).ops)

section
variable {s t : State}

theorem State.results_of_beyondL1 (h : t.beyondL1 = s.beyondL1) : t.results = s.results := by
  refine Prod.ext (funext fun k => ?_) (funext fun c => ?_)
  · simp only [State.results, State.role?, State.roles_of_beyondL1 h]
  · exact (congrArg Core.ops (State.core_of_beyondL1 h c)).trans rfl

theorem State.results_setRole {k : Nat} {r q : Role} (hr : s.role? k = some r) (hs : q.sregs = r.sregs) (hv : q.vregs = r.vregs) :
    (s.setRole k q).results = s.results := by
  refine Prod.ext (funext fun j => ?_) rfl
  by_cases hj : j = k
  · subst hj
    simp only [State.results, State.role?_setRole_same, hr, Option.map_some, hs, hv]
  · simp only [State.results, State.role?_setRole_other _ _ _ _ hj]

theorem State.results_updCore {c : Nat} {f : Core → Core} (h : ∀ k, (f k).ops = k.ops) : (s.updCore c f).results = s.results := by
  refine Prod.ext rfl (funext fun q => ?_)
  by_cases hq : q = c
  · subst hq
    exact (congrArg Core.ops (Claim.core_updCore_same s q f)).trans (h _)
  · exact congrArg Core.ops (Sparse.get_put_other _ _ _ _ _ hq)

theorem State.results_discardLog (k c : Nat) : (s.discardLog k c).results = s.results := by
  unfold State.discardLog
  rw [State.results_updCore]
  exact fun _ => rfl

theorem State.results_updGang (g : Nat) (f : Gang → Gang) : (s.updGang g f).results = s.results := by
  fun_cases State.updGang <;> rfl

theorem State.beyondL1_dropPending (r : Role) : (s.dropPending r).beyondL1 = s.beyondL1 := by
  unfold State.dropPending
  refine State.beyondL1_foldl _ _ (fun t p => ?_) s
  split
  next hrec => exact State.beyondL1_writeRecord hrec
  · rfl

theorem State.results_endRole (k : Nat) : (s.endRole k).results = s.results := by
  unfold State.endRole
  split
  · rfl
  next r hr =>
    split
    · rfl
    · extract_lets s1
      have hpending := State.beyondL1_dropPending (s := s) r
      have hr1 : (s.dropPending r).role? k = some r := by rw [State.role?, State.roles_of_beyondL1 hpending, ← State.role?, hr]
      have hs1 : s1.results = s.results := by
        unfold s1
        rw [State.results_setRole hr1, State.results_of_beyondL1 hpending]
        · rfl
        · rfl
      split
      · exact hs1
      · exact hs1

theorem State.results_endRoles (l : List (Nat × Role)) : (s.endRoles l).results = s.results :=
  List.foldlRecOn l _ (motive := fun t : State => t.results = s.results) rfl fun _ ht p _ =>
    (State.results_endRole p.1).trans ((State.results_discardLog p.1 p.2.core).trans ht)

theorem State.results_abortGang (rid cause : Nat) (addr pc : Word) : (s.abortGang rid cause addr pc).results = s.results := by
  unfold State.abortGang
  split
  · rfl
  next r hr =>
    split
    · exact State.results_setRole hr rfl rfl
    next s1 hrec => exact (State.results_endRoles _).trans ((State.results_updGang _ _).trans (State.results_of_beyondL1 (State.beyondL1_writeRecord hrec)))

/-- A load that ends without a result writes no register. -/
theorem State.results_dropLoad (c n : Nat) (o : Op) : (s.dropLoad c n o).results = (s.updCore c fun k => k.dropOp n).results := by
  unfold State.dropLoad State.updRole
  split
  · rfl
  next r hr =>
    refine State.results_setRole hr ?_ ?_
    · dsimp only
      split <;> rfl
    · dsimp only
      split <;> rfl

theorem State.pump_idle {c : Nat} (h : (s.core c).ops = []) : s.pump c = s := by rw [State.pump, h, List.foldl_nil]

end

section
variable {s : State} {c n : Nat} {o : Op} {r : Role}

theorem State.RunsOne.ops_updCore_dropOp (h : s.RunsOne c n o r) : ((s.updCore c fun k => k.dropOp n).core c).ops = [] := by
  rw [Claim.core_updCore_same, Core.dropOp, h.ops]
  exact Sparse.del_single n o

/-- An operation that ends by an abort of its gang is gone, and its role has the registers that it had. -/
theorem State.RunsOne.of_dropLoad (h : s.RunsOne c n o r) {t : State} (ht : t.results = (s.dropLoad c n o).results) :
    t.pump c = t ∧ (t.core c).ops = [] ∧ ∀ q, t.role? o.rid = some q → q.sregs = r.sregs ∧ q.vregs = r.vregs := by
  rw [State.results_dropLoad] at ht
  have hops : (t.core c).ops = [] := (congrFun (congrArg Prod.snd ht) c).trans h.ops_updCore_dropOp
  refine ⟨State.pump_idle hops, hops, fun q hq => ?_⟩
  have hregs : (t.role? o.rid).map (fun q => (q.sregs, q.vregs)) = (s.role? o.rid).map fun q => (q.sregs, q.vregs) :=
    congrFun (congrArg Prod.fst ht) o.rid
  rw [hq, h.role, Option.map_some, Option.map_some, Option.some.injEq, Prod.mk.injEq] at hregs
  exact hregs

theorem State.failOp_of_ended (h : s.RunsOne c n o r) (hended : r.ended = true) (cause : Nat) (addr : Word) :
    s.failOp c n o cause addr = s.dropLoad c n o := by
  simp only [State.failOp, h.role, hended, if_true]

theorem State.failOp_of_dataError (h : s.RunsOne c n o r) (hended : r.ended = false) (addr : Word) : s.failOp c n o cDATA_ERROR addr =
    if s.ringRoom (dieOf r.core) = true then (s.dropLoad c n o).abortGang o.rid cDATA_ERROR addr o.pc
    else s.updCore c fun k => { k with ops := k.ops.put n { o with sent := 0, stop := .walk } } := by
  have habort : loadHandling cDATA_ERROR = .abort := by decide
  have hwaits : s.abortWaits o.rid = !s.ringRoom (dieOf r.core) := by simp only [State.abortWaits, h.role, hended, Bool.not_false, Bool.true_and]
  simp only [State.failOp, h.role, hended, Bool.false_eq_true, if_false, habort, hwaits]
  cases s.ringRoom (dieOf r.core) with
  | true => rfl
  | false => rfl

theorem State.takeLine_of_error {m : LdReply} {cause : Nat} (hc : m.req.core = c) (hn : m.req.op = some n) (herror : m.error = some cause)
    (h : s.RunsOne c n o r) (renew : Bool) :
    s.takeLine m renew = (s.failOp c n o cause (BitVec.ofNat 64 ((o.waiting.head?.map (·.va)).getD 0))).pump c := by
  subst hc
  simp only [State.takeLine, hn, Option.isNone_some, Bool.false_eq_true, if_false, herror, h.find]

end
end Sys2Proof.Machine
end

section
/-! SUPPORT. The reply of the last element completes its operation (05 R120, R121; 10 R222, R234). -/
namespace Sys2Proof.Claim
open Sys2Proof.Machine

section
variable {s : State} {c n : Nat} {o : Op} {r : Role} {m : LdReply}
variable (hrun : s.RunsOne c n o r) (hcore : r.core = c) (hc : m.req.core = c) (hn : m.req.op = some n) (herror : m.error = some cDATA_ERROR)
include hrun hcore hc hn herror

/-- An error ends the load without a result, unless the record of the abort has no place. -/
theorem lddata_of_error (hroom : r.ended = true ∨ s.ringRoom (dieOf c) = true) :
    ∃ t, exec (.lddata m) s = .next t ∧ ((t.core c).ops.find n).isNone = true ∧
      ∀ q, t.role? o.rid = some q → q.sregs = r.sregs ∧ q.vregs = r.vregs := by
  have hfail : ∀ addr, (s.failOp c n o cDATA_ERROR addr).results = (s.dropLoad c n o).results := by
    intro addr
    cases hended : r.ended with
    | true => rw [State.failOp_of_ended hrun hended]
    | false =>
      rw [hended] at hroom
      rw [State.failOp_of_dataError hrun hended, hcore, if_pos (hroom.resolve_left Bool.false_ne_true), State.results_abortGang]
  obtain ⟨hpump, hops, hregs⟩ := hrun.of_dropLoad (hfail _)
  refine ⟨_, congrArg Host.Outcome.next ((State.takeLine_of_error hc hn herror hrun false).trans hpump), ?_, hregs⟩
  rw [hops]
  rfl

/-- Where the record of the abort has no place, the load is made again. -/
theorem lddata_of_error_waits (hended : r.ended = false) (hroom : s.ringRoom (dieOf c) = false) :
    exec (.lddata m) s = .next ((s.updCore c fun k => { k with ops := k.ops.put n { o with sent := 0, stop := .walk } }).pump c) := by
  refine congrArg Host.Outcome.next ((State.takeLine_of_error hc hn herror hrun false).trans (congrArg (fun t : State => t.pump c) ?_))
  rw [State.failOp_of_dataError hrun hended, hcore, hroom, if_neg Bool.false_ne_true]

end

/-- Settles O21: each reply brings the operation to an end that the pump finishes, and an error ends or repeats it. -/
theorem repliesCompleteOperations : Obligations.RepliesCompleteOperations := by
  intro s c n rid o r e line off tag perm d hops hrid hrole hcore hwait htarget hd hgot hstop hentries
  subst hrid
  have hrun : s.RunsOne c n o r := ⟨hops, hrole, hentries⟩
  refine ⟨fun m hc hn hacc hview herror hlease hload hdst => ?_, fun m hc hn herror hread hwrite => ⟨fun hdst => ?_, fun hdst hws => ?_⟩,
    fun m hc hn hcheck g hgang hread hwrite hdst => ?_, fun m hc hn herror => ⟨fun hroom => ?_, fun hended hroom => ?_⟩⟩
  · have hread : o.kind ≠ .accRead := by rw [hload]; nofun
    have hwrite : o.kind ≠ .accWrite := by rw [hload]; nofun
    refine ⟨?_, fun y hl1 hold hl2 => ?_⟩
    · obtain ⟨q, hq⟩ := load_completes hrun hwait hstop hread hwrite hgot hdst hd m false _
      exact ⟨_, q, congrArg Host.Outcome.next (State.takeLine_of_lddata hc hn hview herror hrun hwait htarget hlease), hq⟩
    · obtain ⟨q, hq⟩ := load_completes hrun hwait hstop hread hwrite hgot hdst hd m true _
      exact ⟨_, q, congrArg Host.Outcome.next (State.takeLine_of_renew hc hn hview herror hrun hwait htarget hlease hacc hl2 hl1 hold), hq⟩
  · exact stdone_completes hrun hwait hstop hread hwrite hc hn herror hgot hdst hd
  · exact stdone_writes_nothing hrun hwait hstop hread hwrite hc hn herror hdst hws
  · exact spad_completes hrun hwait hstop hread hwrite hgot hdst hd hc hn hcheck hgang
  · exact lddata_of_error hrun hcore hc hn herror hroom
  · exact lddata_of_error_waits hrun hcore hc hn herror hended hroom

end Sys2Proof.Claim
end

section
/-! SUPPORT. What performing an operation of a core changes: that core, the role that waits for it, and the messages that are due (06 R143, R144). -/
namespace Sys2Proof.Machine

/-! ### Steps of one core -/

@[simp] theorem State.core_send (s : State) (i : Instr) (c : Nat) : (s.send i).core c = s.core c := rfl

/-- `t` is `s` but for core `c` and the messages that are due. -/
structure State.StepsCore (s : State) (c : Nat) (t : State) : Prop where
  rest : t = { s with cores := t.cores, pending := t.pending }
  others : ∀ q, q ≠ c → t.core q = s.core q

namespace State.StepsCore
variable {s t u : State} {c : Nat}

theorem refl : s.StepsCore c s := ⟨rfl, fun _ _ => rfl⟩

theorem trans (h : s.StepsCore c t) (h' : t.StepsCore c u) : s.StepsCore c u where
  rest := by
    rw [h'.rest, h.rest]
  others q hq := (h'.others q hq).trans (h.others q hq)

theorem updCore (f : Core → Core) : s.StepsCore c (s.updCore c f) := ⟨rfl, fun _ hq => Sparse.get_put_other _ _ _ _ _ hq⟩

theorem send (h : s.StepsCore c t) (i : Instr) : s.StepsCore c (t.send i) := h.trans ⟨rfl, fun _ _ => rfl⟩

theorem roles (h : s.StepsCore c t) : t.roles = s.roles := by rw [h.rest]

theorem role? (h : s.StepsCore c t) (k : Nat) : t.role? k = s.role? k := congrArg (·.find k) h.roles

end State.StepsCore

/-- A step of core `c` that leaves its operations as they are, and no copy in its L1 to be corrected. -/
structure State.KeepsOps (s : State) (c : Nat) (t : State) : Prop extends s.StepsCore c t where
  ops : (t.core c).ops = (s.core c).ops
  weakL1 : (t.core c).weakL1 = (s.core c).weakL1

namespace State.KeepsOps
variable {s t u : State} {c : Nat}

theorem refl : s.KeepsOps c s := ⟨.refl, rfl, rfl⟩

theorem trans (h : s.KeepsOps c t) (h' : t.KeepsOps c u) : s.KeepsOps c u :=
  ⟨h.toStepsCore.trans h'.toStepsCore, h'.ops.trans h.ops, h'.weakL1.trans h.weakL1⟩

theorem setCore {k : Core} (hops : k.ops = (s.core c).ops) (hweak : k.weakL1 = (s.core c).weakL1) : s.KeepsOps c (s.setCore c k) where
  toStepsCore := .updCore fun _ => k
  ops := (congrArg Core.ops (Sparse.get_put_same _ _ _ _)).trans hops
  weakL1 := (congrArg Core.weakL1 (Sparse.get_put_same _ _ _ _)).trans hweak

theorem updCore {f : Core → Core} (hops : ∀ k, (f k).ops = k.ops) (hweak : ∀ k, (f k).weakL1 = k.weakL1) : s.KeepsOps c (s.updCore c f) :=
  .setCore (hops _) (hweak _)

theorem raisePts (n : Nat) : s.KeepsOps c (s.raisePts c n) :=
  .updCore (fun k => by rw [apply_ite Core.ops, ite_self]) fun k => by rw [apply_ite Core.weakL1, ite_self]

end State.KeepsOps

/-- A core meets its L1 copy of a line where no copy is to be corrected: nothing changes. -/
theorem State.l1Check_of_sound {s : State} {c : Nat} (h : (s.core c).weakL1 = []) (line : Nat) : (s.l1Check c line).1 = s := by
  unfold State.l1Check
  dsimp only
  split
  · rfl
  · rw [h]
    rfl

/-- A load that looks for its line in the L1 changes the L1 and the clock of its core alone. -/
theorem State.keepsOps_l1Load {s : State} {c : Nat} (h : (s.core c).weakL1 = []) (o : Op) (tag : L1Tag) (off : Nat) :
    s.KeepsOps c (s.l1Load c o tag off).2 := by
  unfold State.l1Load
  split
  · exact .refl
  next x _ =>
    split
    next s0 bad hcheck =>
      obtain rfl : s0 = s := (congrArg Prod.fst hcheck).symm.trans (State.l1Check_of_sound h x.line)
      extract_lets s1 k sf hit k1
      have hs1 : s0.KeepsOps c s1 := by
        refine State.KeepsOps.trans (t := if x.pf then s0.raisePts c x.wts else s0) ?_ (.updCore (fun _ => rfl) fun _ => rfl)
        split
        · exact .raisePts x.wts
        · exact .refl
      split
      · exact .refl
      · split
        · exact hs1
        · refine hs1.trans (.setCore ?_ ?_)
          · exact (apply_ite Core.ops _ _ _).trans (ite_self _)
          · exact (apply_ite Core.weakL1 _ _ _).trans (ite_self _)

/-! ### How far an operation has been performed -/

/-- Lane `l` is one of those that the operation still has to perform, or has a value for. -/
def Op.HasLane (o : Op) (l : Nat) : Prop := (∃ e ∈ o.waiting, e.lane = l) ∨ ∃ g ∈ o.got, g.1 = l

/-- `o'` is `o` after some more of its elements have been performed. -/
structure Op.Furthers (o o' : Op) : Prop where
  rid : o'.rid = o.rid
  dst : o'.dst = o.dst
  ws : o'.ws = o.ws
  lanes : ∀ l, o'.HasLane l → o.HasLane l

theorem Op.Furthers.refl {o : Op} : o.Furthers o := ⟨rfl, rfl, rfl, fun _ => id⟩

theorem Op.Furthers.trans {o o' o'' : Op} (h : o.Furthers o') (h' : o'.Furthers o'') : o.Furthers o'' :=
  ⟨h'.rid.trans h.rid, h'.dst.trans h.dst, h'.ws.trans h.ws, fun l hl => h.lanes l (h'.lanes l hl)⟩

section
variable {o : Op} {e : OpElem} {rest : List OpElem}

theorem Op.take_cons (h : o.waiting = e :: rest) (v : Word) :
    o.take v = { o with waiting := rest, sent := 0, got := if o.dst.isSome then o.got ++ [(e.lane, v)] else o.got } := by
  simp only [Op.take, h]

theorem Op.furthers_take (h : o.waiting = e :: rest) (v : Word) : o.Furthers (o.take v) := by
  rw [Op.take_cons h]
  refine ⟨rfl, rfl, rfl, fun l hl => ?_⟩
  obtain ⟨x, hx, hlane⟩ | ⟨g, hg, hlane⟩ := hl
  · exact .inl ⟨x, by rw [h]; exact List.mem_cons_of_mem e hx, hlane⟩
  · dsimp only at hg
    split at hg
    · obtain hg | hg := List.mem_append.1 hg
      · exact .inr ⟨g, hg, hlane⟩
      · obtain rfl := List.mem_singleton.1 hg
        exact .inl ⟨e, by rw [h]; exact List.mem_cons_self, hlane⟩
    · exact .inr ⟨g, hg, hlane⟩

end

/-! ### The operation's place in its core -/

/-- What performing operation `n` of core `c` leaves of it: an element in flight, or nothing; every other operation stands. -/
structure State.Leaves (s : State) (c n : Nat) (t : State) : Prop where
  others : ∀ k, k ≠ n → (t.core c).ops.find k = (s.core c).ops.find k
  inFlight : ∀ p, (t.core c).ops.find n = some p → p.sent ≠ 0 ∧ p.stop = .go

/-- Performing an operation sends a request for an element, or completes it: the role then has what has come back. -/
inductive State.Performs (s : State) (c n : Nat) (o : Op) (r : Role) : State → Prop
  | sends {t : State} (step : s.StepsCore c t) (leaves : s.Leaves c n t) (held : ((t.core c).ops.find n).isSome = true) : Performs s c n o r t
  | completes {t : State} {o' : Op} (step : s.StepsCore c t) (leaves : s.Leaves c n t) (gone : (t.core c).ops.find n = none)
      (furthers : o.Furthers o') : Performs s c n o r (t.setRole o.rid (o'.deliver r))

section
variable {s t u : State} {c n : Nat} {o o' : Op} {r : Role}

theorem State.Leaves.of_keepsOps (h : s.KeepsOps c t) (h' : t.Leaves c n u) : s.Leaves c n u :=
  ⟨fun k hk => by rw [h'.others k hk, h.ops], h'.inFlight⟩

theorem State.Performs.after (h : s.KeepsOps c t) (ho : o.Furthers o') (h' : t.Performs c n o' r u) : s.Performs c n o r u := by
  cases h' with
  | sends step leaves held => exact .sends (h.toStepsCore.trans step) (.of_keepsOps h leaves) held
  | completes step leaves gone furthers =>
    rw [ho.rid]
    exact .completes (h.toStepsCore.trans step) (.of_keepsOps h leaves) gone (ho.trans furthers)

theorem State.Performs.leaves (h : s.Performs c n o r t) : s.Leaves c n t := by
  cases h with
  | sends _ leaves _ => exact leaves
  | completes _ leaves _ _ => exact ⟨leaves.others, leaves.inFlight⟩

/-- A request for the head element is sent. -/
theorem State.performs_send (hstop : o.stop = .go) (i : Instr) :
    s.Performs c n o r ((s.updCore c fun k => { k with ops := k.ops.put n { o with sent := 1 } }).send i) := by
  have hops : (((s.updCore c fun k => { k with ops := k.ops.put n { o with sent := 1 } }).send i).core c).ops =
      (s.core c).ops.put n { o with sent := 1 } := by
    rw [State.core_send, Claim.core_updCore_same]
  refine .sends (.send (.updCore _) i) ⟨fun k hk => ?_, fun p hp => ?_⟩ ?_
  · rw [hops, Sparse.find_put_other _ _ _ _ hk]
  · rw [hops, Sparse.find_put_same] at hp
    cases hp
    exact ⟨Nat.one_ne_zero, hstop⟩
  · rw [hops, Sparse.find_put_same]
    rfl

/-- An operation with nothing left to perform is complete. -/
theorem State.performs_finishOp (hrole : s.role? o.rid = some r) : s.Performs c n o r (s.finishOp c n o) := by
  have hops : ((s.updCore c fun k => k.dropOp n).core c).ops = (s.core c).ops.del n := congrArg Core.ops (Claim.core_updCore_same s c _)
  have hgone : ((s.updCore c fun k => k.dropOp n).core c).ops.find n = none := by rw [hops, Sparse.find_del_same]
  rw [show s.finishOp c n o = (s.updCore c fun k => k.dropOp n).setRole o.rid (o.deliver r) from State.updRole_some _ _ _ _ hrole]
  refine .completes (.updCore _) ⟨fun k hk => ?_, fun p hp => ?_⟩ hgone .refl
  · rw [hops, Sparse.find_del_other _ _ _ hk]
  · rw [hgone] at hp
    cases hp

/-- The operation goes on until an element needs a request or none is left. -/
theorem State.performs_pumpOp {fuel : Nat} (hfuel : o.waiting.length < fuel) (hrole : s.role? o.rid = some r) (hweak : (s.core c).weakL1 = [])
    (hstop : o.stop = .go) (htarget : ∀ e ∈ o.waiting, ∀ pa, e.target ≠ .window pa) : s.Performs c n o r (s.pumpOp c n fuel o) := by
  induction fuel generalizing s o with
  | zero => exact absurd hfuel (Nat.not_lt_zero _)
  | succ fuel ih =>
    rw [State.pumpOp]
    split
    · exact State.performs_finishOp hrole
    next e rest hwait =>
      dsimp only
      split
      next pa hpa => exact absurd hpa (htarget e (by rw [hwait]; exact List.mem_cons_self) pa)
      · exact State.performs_send hstop _
      next line off tag perm view acc _ =>
        split
        · exact State.performs_send hstop _
        · have hload : s.KeepsOps c (if acc then (none, s) else s.l1Load c o tag off).2 := by
            split
            · exact .refl
            · exact State.keepsOps_l1Load hweak o tag off
          split
          next v s1 heq =>
            rw [heq] at hload
            have htake := Op.take_cons hwait v
            refine .after hload (Op.furthers_take hwait v) (ih ?_ ?_ ?_ ?_ fun x hx => ?_)
            · rw [htake]
              rw [hwait] at hfuel
              exact Nat.lt_of_succ_lt_succ hfuel
            · rw [(Op.furthers_take hwait v).rid, hload.role?, hrole]
            · rw [hload.weakL1, hweak]
            · rw [htake]
              exact hstop
            · rw [htake] at hx
              exact htarget x (by rw [hwait]; exact List.mem_cons_of_mem e hx)
          next s0 heq =>
            rw [heq] at hload
            refine .after hload .refl ?_
            split
            · refine .after ?_ .refl (State.performs_send hstop _)
              exact .updCore (fun _ => rfl) fun _ => rfl
            · exact State.performs_send hstop _

/-! ### The pump, where one operation of the core may start -/

/-- The pump's visit to operation `n`. -/
def State.pumpAt (s : State) (c n : Nat) : State :=
  match (s.core c).ops.find n with
  | some o => if o.stop == .walk then s.rewalk c n o else if o.stop == .go && o.sent = 0 && o.kind != .accRead && o.kind != .accWrite && s.mayStart c n o then
      s.pumpOp c n (o.waiting.length + 1) o else s
  | none => s

theorem State.pump_eq (s : State) (c : Nat) : s.pump c = (s.core c).ops.foldl (fun s p => s.pumpAt c p.1) s := rfl

/-- The pump passes over an operation with an element in flight. -/
theorem State.pumpAt_inFlight (h : ∀ p, (s.core c).ops.find n = some p → p.sent ≠ 0 ∧ p.stop = .go) : s.pumpAt c n = s := by
  unfold State.pumpAt
  split
  next p hp =>
    obtain ⟨hsent, hstop⟩ := h p hp
    simp [hsent, hstop]
  · rfl

/-- An operation that has not been refused is left as it is, or performed. -/
theorem State.pumpAt_cases (hfind : (s.core c).ops.find n = some o) (hstop : o.stop = .go) :
    s.pumpAt c n = s ∨ s.pumpAt c n = s.pumpOp c n (o.waiting.length + 1) o := by
  simp only [State.pumpAt, hfind, hstop, show ((OpStop.go == OpStop.walk) = false) from rfl, Bool.false_eq_true, if_false]
  split
  · exact .inr rfl
  · exact .inl rfl

/-- Where every other operation of the core has an element in flight, the pump performs this one once, or leaves it as it is. -/
theorem State.pump_cases (hothers : ∀ k p, k ≠ n → (s.core c).ops.find k = some p → p.sent ≠ 0 ∧ p.stop = .go)
    (hfind : (s.core c).ops.find n = some o) (hstop : o.stop = .go) (hleaves : s.Leaves c n (s.pumpOp c n (o.waiting.length + 1) o)) :
    s.pump c = s ∨ s.pump c = s.pumpOp c n (o.waiting.length + 1) o := by
  rw [State.pump_eq]
  refine List.foldlRecOn _ _ (motive := fun t => t = s ∨ t = s.pumpOp c n (o.waiting.length + 1) o) (.inl rfl) fun t ht p _ => ?_
  obtain rfl | rfl := ht
  · by_cases hp : p.1 = n
    · rw [hp]
      exact State.pumpAt_cases hfind hstop
    · exact .inl (State.pumpAt_inFlight fun x hx => hothers p.1 x hp hx)
  · refine .inr (State.pumpAt_inFlight ?_)
    by_cases hp : p.1 = n
    · rw [hp]
      exact hleaves.inFlight
    · intro x hx
      rw [hleaves.others p.1 hp] at hx
      exact hothers p.1 x hp hx

end
end Sys2Proof.Machine
end

section
/-! SUPPORT. The role of an operation: what the issue of the operation and its end change of it (01 R31, R32; 10 R222). -/
namespace Sys2Proof.Machine

/-- The issuing role with the destination bound. -/
def Op.bind (o : Op) (r : Role) : Role :=
  match o.dst with
  | some d => if o.ws = 0 then r else r.bindSlot o.ws [d]
  | none => r

/-- The operation as its core keeps it from its issue on. -/
def Op.issued (o : Op) (rid : Nat) (r : Role) (p : Nat) : Op :=
  { o with rid := rid, pc := r.ipc, p := p, asid := r.asid, wver := r.wver, handler := r.handler }

theorem State.startOp_eq (s : State) (rid : Nat) (r : Role) (o : Op) : s.startOp rid r o =
    ((s.updCore r.core fun k => { k with ops := k.ops.put (s.core r.core).nextOp (o.issued rid r k.pts), nextOp := (s.core r.core).nextOp + 1 }).setRole
      rid (o.bind r).advance).pump r.core := rfl

section
variable {o : Op} {d : RegName} (r : Role)

/-- The binding changes the slots and the bindings of the role alone, so that the move past the word is the same. -/
theorem Op.advance_bind (o : Op) : (o.bind r).advance = { r.advance with waits := (o.bind r).waits, bound := (o.bind r).bound } := by
  have hbind : o.bind r = { r with waits := (o.bind r).waits, bound := (o.bind r).bound } := by
    unfold Op.bind
    split
    · split
      · rfl
      · rfl
    · rfl
  rw [hbind, Role.advance_eq, Role.advance_eq]

theorem Op.sreg_advance_bind (o : Op) (k : Nat) : (o.bind r).advance.sreg k = r.sreg k := by
  rw [Op.advance_bind]
  exact Role.sreg_advance r k

theorem Op.vreg_advance_bind (o : Op) (k l : Nat) : (o.bind r).advance.vreg k l = r.vreg k l := by
  rw [Op.advance_bind]
  exact Role.vreg_advance r k l

/-- But for its registers, its slots and its bindings the role is past the word. -/
theorem Op.frame_advance_bind (o : Op) :
    { (o.bind r).advance with sregs := r.sregs, vregs := r.vregs, bound := r.bound, waits := r.waits } = r.advance := by
  rw [Op.advance_bind, Role.advance_eq]

theorem Op.bound_advance_bind (hdst : o.dst = some d) : (o.bind r).advance.bound = if o.ws = 0 then r.bound else r.bound ++ [(d, o.ws)] := by
  rw [Op.advance_bind]
  simp only [Op.bind, hdst, apply_ite Role.bound]
  rfl

theorem Op.waitCount_advance_bind (hdst : o.dst = some d) (w : Nat) :
    (o.bind r).advance.waitCount w = r.waitCount w + if w = o.ws ∧ o.ws ≠ 0 then 1 else 0 := by
  rw [Op.advance_bind]
  change (o.bind r).waitCount w = _
  simp only [Op.bind, hdst]
  by_cases hws : o.ws = 0
  · simp [hws]
  · rw [if_neg hws, Role.waitCount, Role.bindSlot_waits, Sparse.get_set]
    by_cases hw : w = o.ws
    · simp [hw, hws]
    · simp [hw, Role.waitCount]

end

/-! ### Values into lanes -/

/-- The values of lanes, written into vector register `n`. -/
def Role.putLanes (r : Role) (n : Nat) (gs : List (Nat × Word)) : Role := gs.foldl (fun q g => q.setVreg n g.1 g.2) r

theorem Role.putLanes_eq (r : Role) (n : Nat) (gs : List (Nat × Word)) : r.putLanes n gs = { r with vregs := (r.putLanes n gs).vregs } := by
  unfold Role.putLanes
  induction gs generalizing r with
  | nil => rfl
  | cons g gs ih =>
    rw [List.foldl_cons, ih]
    rfl

theorem Role.vreg_putLanes_other (r : Role) {n k l : Nat} {gs : List (Nat × Word)} (hgs : ∀ g ∈ gs, g.1 < 1024) (hl : l < 1024)
    (h : k ≠ n ∨ ∀ g ∈ gs, g.1 ≠ l) : (r.putLanes n gs).vreg k l = r.vreg k l := by
  refine List.foldlRecOn gs _ (motive := fun q : Role => q.vreg k l = r.vreg k l) rfl fun q hq g hg => ?_
  rw [Role.vreg_setVreg_other q n g.1 k l g.2 (hgs g hg) hl (h.imp_right fun h => (h g hg).symm), hq]

/-! ### The role of a complete operation -/

section
variable {o : Op} {d : RegName}

/-- The destination with the values that have come back. -/
def Op.fill (o : Op) (d : RegName) (r : Role) : Role :=
  if d.isScalar then (match o.got.head? with
    | some g => r.setSreg d.num g.2
    | none => r)
  else r.putLanes d.num o.got

theorem Op.fill_eq (d : RegName) (r : Role) : o.fill d r = { r with sregs := (o.fill d r).sregs, vregs := (o.fill d r).vregs } := by
  unfold Op.fill
  split
  · split
    · rfl
    · rfl
  · rw [Role.putLanes_eq]

theorem Op.sreg_fill {k : Nat} (h : ¬(d.isScalar = true ∧ k = d.num)) (r : Role) : (o.fill d r).sreg k = r.sreg k := by
  unfold Op.fill
  split
  next hd =>
    split
    · exact Role.sreg_setSreg_other _ _ _ _ fun hk => h ⟨hd, hk⟩
    · rfl
  · rw [Role.putLanes_eq]
    rfl

theorem Op.vreg_fill {k l : Nat} (hlanes : ∀ l, o.HasLane l → l < 1024) (hl : l < 1024) (h : ¬(d.isScalar = false ∧ k = d.num ∧ o.HasLane l))
    (r : Role) : (o.fill d r).vreg k l = r.vreg k l := by
  unfold Op.fill
  split
  · split
    · rfl
    · rfl
  next hd =>
    refine Role.vreg_putLanes_other r (fun g hg => hlanes g.1 (.inr ⟨g, hg, rfl⟩)) hl ?_
    by_cases hk : k = d.num
    · exact .inr fun g hg hgl => h ⟨Bool.not_eq_true _ ▸ hd, hk, .inr ⟨g, hg, hgl⟩⟩
    · exact .inl hk

theorem Op.deliver_eq (hdst : o.dst = some d) (r : Role) :
    o.deliver r = { o.fill d r with waits := if o.ws = 0 then r.waits else Sparse.set 0 r.waits o.ws (r.waitCount o.ws - 1) } := by
  have hdeliver : o.deliver r = if o.ws = 0 then o.fill d r else (o.fill d r).slotDone o.ws := by
    simp only [Op.deliver, hdst]
    rfl
  rw [hdeliver, Op.fill_eq]
  by_cases hws : o.ws = 0
  · rw [if_pos hws, if_pos hws]
  · rw [if_neg hws, if_neg hws]
    rfl

theorem Op.sreg_deliver (hdst : o.dst = some d) {k : Nat} (h : ¬(d.isScalar = true ∧ k = d.num)) (r : Role) :
    (o.deliver r).sreg k = r.sreg k := by
  rw [Op.deliver_eq hdst]
  exact Op.sreg_fill h r

theorem Op.vreg_deliver (hdst : o.dst = some d) {k l : Nat} (hlanes : ∀ l, o.HasLane l → l < 1024) (hl : l < 1024)
    (h : ¬(d.isScalar = false ∧ k = d.num ∧ o.HasLane l)) (r : Role) : (o.deliver r).vreg k l = r.vreg k l := by
  rw [Op.deliver_eq hdst]
  exact Op.vreg_fill hlanes hl h r

/-- The end of an operation changes the registers and the slots of its role alone. -/
theorem Op.frame_deliver (hdst : o.dst = some d) (r : Role) :
    o.deliver r = { r with sregs := (o.deliver r).sregs, vregs := (o.deliver r).vregs, waits := (o.deliver r).waits } := by
  rw [Op.deliver_eq hdst, Op.fill_eq]

theorem Op.waitCount_deliver (hdst : o.dst = some d) (r : Role) (w : Nat) :
    (o.deliver r).waitCount w = r.waitCount w - if w = o.ws ∧ o.ws ≠ 0 then 1 else 0 := by
  rw [Op.deliver_eq hdst]
  simp only [Role.waitCount]
  by_cases hws : o.ws = 0
  · simp [hws]
  · rw [if_neg hws, Sparse.get_set]
    by_cases hw : w = o.ws
    · simp [hw, hws]
    · simp [hw]

end
end Sys2Proof.Machine
end

section
/-! SUPPORT. The start of an operation: what its core, its role and the messages that are due are after it (06 R143, R144). -/
namespace Sys2Proof.Machine

/-- `t` is `s` but for core `c`, the messages that are due, and role `rid`, which is `q`. -/
structure State.MovesRole (s : State) (c rid : Nat) (q : Role) (t : State) : Prop where
  rest : t = { s with roles := t.roles, cores := t.cores, pending := t.pending }
  cores : ∀ k, k ≠ c → t.core k = s.core k
  roles : ∀ k, k ≠ rid → t.role? k = s.role? k
  role : t.role? rid = some q

namespace State.MovesRole
variable {s t u : State} {c rid : Nat} {q q' : Role}

theorem of_setRole (h : s.StepsCore c t) (rid : Nat) (q : Role) : s.MovesRole c rid q (t.setRole rid q) where
  rest := by rw [h.rest]; rfl
  cores := h.others
  roles k hk := (State.role?_setRole_other t rid k q hk).trans (h.role? k)
  role := State.role?_setRole_same t rid q

theorem step (h : s.MovesRole c rid q t) (h' : t.StepsCore c u) : s.MovesRole c rid q u where
  rest := by rw [h'.rest, h.rest]
  cores k hk := (h'.others k hk).trans (h.cores k hk)
  roles k hk := (h'.role? k).trans (h.roles k hk)
  role := (h'.role? rid).trans h.role

theorem setRole (h : s.MovesRole c rid q t) (q' : Role) : s.MovesRole c rid q' (t.setRole rid q') where
  rest := by rw [h.rest]; rfl
  cores := h.cores
  roles k hk := (State.role?_setRole_other t rid k q' hk).trans (h.roles k hk)
  role := State.role?_setRole_same t rid q'

theorem byte (h : s.MovesRole c rid q t) (a : Nat) : t.byte a = s.byte a := by rw [h.rest]; rfl

end State.MovesRole

/-- An operation that starts while every earlier one of its core has an element in flight is kept by the core, or complete at once. -/
theorem State.startOp_cases {s : State} {r : Role} {o : Op} (rid : Nat)
    (hothers : ∀ p ∈ (s.core r.core).ops, p.2.sent ≠ 0 ∧ p.2.stop = .go) (hweak : (s.core r.core).weakL1 = []) (hstop : o.stop = .go)
    (htarget : ∀ e ∈ o.waiting, ∀ pa, e.target ≠ .window pa) :
    ∃ q, s.MovesRole r.core rid q (s.startOp rid r o) ∧
      ((((s.startOp rid r o).core r.core).ops.find (s.core r.core).nextOp).isSome = true ∧ q = (o.bind r).advance ∨
        (((s.startOp rid r o).core r.core).ops.find (s.core r.core).nextOp).isSome = false ∧
          ∃ o', (o.issued rid r (s.core r.core).pts).Furthers o' ∧ q = o'.deliver (o.bind r).advance) := by
  rw [State.startOp_eq]
  generalize hn : (s.core r.core).nextOp = n
  generalize hs1 : (s.updCore r.core fun k => { k with ops := k.ops.put n (o.issued rid r k.pts), nextOp := n + 1 }).setRole
    rid (o.bind r).advance = s1
  have hcore : s1.core r.core = { s.core r.core with
      ops := (s.core r.core).ops.put n (o.issued rid r (s.core r.core).pts), nextOp := n + 1 } := by
    rw [← hs1, State.core_setRole, Claim.core_updCore_same]
  have hmoved : s.MovesRole r.core rid (o.bind r).advance s1 := hs1 ▸ .of_setRole (.updCore _) rid _
  have hfind : (s1.core r.core).ops.find n = some (o.issued rid r (s.core r.core).pts) := by rw [hcore, Sparse.find_put_same]
  have hperforms := State.performs_pumpOp (s := s1) (n := n) (o := o.issued rid r (s.core r.core).pts) (Nat.lt_succ_self _) hmoved.role
    (by rw [hcore, hweak]) hstop htarget
  have hpump := State.pump_cases (fun k p hk hp => ?_) hfind hstop hperforms.leaves
  · obtain hpump | hpump := hpump
    · rw [hpump]
      exact ⟨_, hmoved, .inl ⟨by rw [hfind]; rfl, rfl⟩⟩
    · rw [hpump]
      revert hperforms
      generalize s1.pumpOp r.core n _ _ = t
      intro hperforms
      cases hperforms with
      | sends step leaves held => exact ⟨_, hmoved.step step, .inl ⟨held, rfl⟩⟩
      | completes step leaves gone furthers =>
        exact ⟨_, (hmoved.step step).setRole _, .inr ⟨by rw [State.core_setRole, gone]; rfl, _, furthers, rfl⟩⟩
  · rw [hcore, Sparse.find_put_other _ _ _ _ hk] at hp
    exact hothers _ (Sparse.mem_of_find hp)

end Sys2Proof.Machine

namespace Sys2Proof.Claim
open Sys2Proof.Machine

/-- Settles O15: the start moves the role past its word and binds the destination, and an operation that the L1 completes at once delivers. -/
theorem operationStarts : Obligations.OperationStarts := by
  intro s rid r o _ hothers hweak _ _ _ hstop hwaiting hgot
  obtain ⟨q, hmoved, hend⟩ := State.startOp_cases rid hothers hweak hstop fun e he => (hwaiting e he).2
  refine ⟨hmoved.rest, hmoved.byte, hmoved.roles, hmoved.cores, fun hdst hws => ?_, fun d hdst => ⟨q, hmoved.role, ?_⟩⟩
  · rw [hmoved.role]
    have hbind : o.bind r = r := by simp only [Op.bind, hdst]
    obtain ⟨-, rfl⟩ | ⟨-, o', hfurther, rfl⟩ := hend
    · rw [hbind]
    · rw [hbind, Op.deliver_nothing (hfurther.dst.trans hdst) (hfurther.ws.trans hws)]
  · obtain ⟨hheld, rfl⟩ | ⟨hgone, o', hfurther, rfl⟩ := hend
    · refine ⟨fun k _ => Op.sreg_advance_bind r o k, fun k l _ _ => Op.vreg_advance_bind r o k l, Op.bound_advance_bind r hdst, fun w => ?_,
        Op.frame_advance_bind r o⟩
      rw [Op.waitCount_advance_bind r hdst, hheld]
      simp only [and_true]
    · have hdst' : o'.dst = some d := hfurther.dst.trans hdst
      have hlanes : ∀ l, o'.HasLane l → l < 1024 := by
        intro l hl
        obtain ⟨e, he, rfl⟩ | ⟨g, hg, rfl⟩ := hfurther.lanes l hl
        · exact (hwaiting e he).1
        · exact hgot g hg
      refine ⟨fun k hk => ?_, fun k l hl hk => ?_, ?_, fun w => ?_, ?_⟩
      · rw [Op.sreg_deliver hdst' hk, Op.sreg_advance_bind]
      · rw [Op.vreg_deliver hdst' hlanes hl fun h => hk ⟨h.1, h.2.1, hfurther.lanes l h.2.2⟩, Op.vreg_advance_bind]
      · rw [Op.frame_deliver hdst']
        exact Op.bound_advance_bind r hdst
      · rw [Op.waitCount_deliver hdst', Op.waitCount_advance_bind r hdst, show o'.ws = o.ws from hfurther.ws, hgone]
        simp
      · rw [Op.frame_deliver hdst']
        exact Op.frame_advance_bind r o

end Sys2Proof.Claim
end

section
/-! SUPPORT. Accumulator slots: their 128 bits, and what a part of a line update makes of one (07 R166, 12 R272, R281, 14 R320, R462). -/
namespace Sys2Proof.Machine

/-! ### The fields in the bits -/

theorem ite_two_pow_eq_toNat_mul (b : Bool) (k : Nat) : (if b then 2 ^ k else 0) = b.toNat * 2 ^ k := by cases b <;> simp

theorem Slot.toNat_eq {x : Slot} (htag : x.tag < 256) (hrsv : x.rsv < 16) (hnseq : x.nseq < 2 ^ 16) (hval : x.val < 2 ^ 96) :
    x.toNat = x.tag * 2 ^ 120 + x.rsv * 2 ^ 116 + x.nx.toNat * 2 ^ 115 + x.ovf.toNat * 2 ^ 114 + x.inv.toNat * 2 ^ 113 +
      x.sat.toNat * 2 ^ 112 + x.nseq * 2 ^ 96 + x.val := by
  simp only [Slot.toNat, ite_two_pow_eq_toNat_mul, Nat.mod_eq_of_lt htag, Nat.mod_eq_of_lt hrsv, Nat.mod_eq_of_lt hnseq, Nat.mod_eq_of_lt hval]

/-- Each field stands in bits of its own. -/
theorem Slot.toNat_fields {x : Slot} (htag : x.tag < 256) (hrsv : x.rsv < 16) (hnseq : x.nseq < 2 ^ 16) (hval : x.val < 2 ^ 96) :
    x.toNat / 2 ^ 120 = x.tag ∧ x.toNat / 2 ^ 116 % 16 = x.rsv ∧ x.toNat / 2 ^ 115 % 2 = x.nx.toNat ∧ x.toNat / 2 ^ 114 % 2 = x.ovf.toNat ∧
      x.toNat / 2 ^ 113 % 2 = x.inv.toNat ∧ x.toNat / 2 ^ 112 % 2 = x.sat.toNat ∧ x.toNat / 2 ^ 96 % 2 ^ 16 = x.nseq ∧
      x.toNat % 2 ^ 96 = x.val := by
  rw [Slot.toNat_eq htag hrsv hnseq hval]
  have hnx := x.nx.toNat_lt
  have hovf := x.ovf.toNat_lt
  have hinv := x.inv.toNat_lt
  have hsat := x.sat.toNat_lt
  and_intros <;> omega

theorem Slot.ofNat_toNat {x : Slot} (htag : x.tag < 256) (hrsv : x.rsv < 16) (hnseq : x.nseq < 2 ^ 16) (hval : x.val < 2 ^ 96) :
    Slot.ofNat x.toNat = x := by
  obtain ⟨h1, h2, h3, h4, h5, h6, h7, h8⟩ := Slot.toNat_fields htag hrsv hnseq hval
  simp only [Slot.ofNat, h1, h2, h3, h4, h5, h6, h7, h8, Bool.toNat_eq_one, Bool.decide_eq_true, Nat.mod_eq_of_lt htag]

/-! ### ai96 values -/

theorem toSigned_toNat (v : BitVec 96) : toSigned 96 v.toNat = v.toInt := by
  rw [toSigned, Nat.mod_eq_of_lt v.isLt, BitVec.toInt_eq_toNat_cond]

/-- An exact sum is clamped to the range of ai96, and is saturated where it lies outside. -/
theorem satAi96_eq (i : Int) :
    satAi96 i = (max (-(2 ^ 95)) (min (2 ^ 95 - 1) i), decide (i < -(2 ^ 95) ∨ 2 ^ 95 - 1 < i)) := by
  unfold satAi96
  split
  · ext <;> simp <;> omega
  · split
    · ext <;> simp <;> omega
    · ext <;> simp <;> omega

/-! ### A part of a line update on a slot -/

theorem Slot.apply_absent (x : Slot) {q : AccPart} (op : RedOp) (h : q.val = none) : x.apply q op = x := by
  simp only [Slot.apply, h]

/-- The part carries `v`, which is no NaN, and its forming raised no flag. -/
structure PlainPart (q : AccPart) (v : AccVal) : Prop where
  val : q.val = some v
  nx : q.nx = false
  ovf : q.ovf = false
  inv : q.inv = false
  notNan : accNan v = false

section
variable {x : Slot} {q : AccPart} {v : AccVal} (op : RedOp) (h : PlainPart q v)
include h

theorem Slot.apply_plain : x.apply q op =
    if x.tag = 0 then { x with tag := accTag v, val := accBits v } else if x.tag ≠ accTag v then { x with inv := true } else x.combine v op := by
  simp only [Slot.apply, h.val, h.nx, h.ovf, h.inv, h.notNan, Bool.or_false]

theorem Slot.apply_cleared (htag : x.tag = 0) : x.apply q op = { x with tag := accTag v, val := accBits v } := by
  rw [Slot.apply_plain op h, if_pos htag]

theorem Slot.apply_otherKind (h0 : x.tag ≠ 0) (htag : x.tag ≠ accTag v) : x.apply q op = { x with inv := true } := by
  rw [Slot.apply_plain op h, if_neg h0, if_pos htag]

theorem Slot.apply_sameKind (htag : x.tag = accTag v) : x.apply q op = x.combine v op := by
  have h0 : x.tag ≠ 0 := by cases v <;> simp [htag, accTag]
  rw [Slot.apply_plain op h, if_neg h0, if_neg (not_not_intro htag)]

end

/-! ### The sequence of an ordered flow -/

section
variable (x : Slot) (q : AccPart) (op : RedOp) {seq d : Nat} (hd : (seq + 2 ^ 16 - x.nseq) % 2 ^ 16 = d)

theorem Slot.accApply_unordered (seq : Nat) : x.accApply q op false seq = .applied (x.apply q op) := rfl

include hd

theorem Slot.accApply_expected (h : d = 0) : x.accApply q op true seq = .applied { x.apply q op with nseq := (x.nseq + 1) % 2 ^ 16 } := by
  simp only [Slot.accApply, hd, h, Bool.not_true, Bool.false_eq_true, if_false, if_true]

theorem Slot.accApply_early (h0 : d ≠ 0) (h : d < 2 ^ 15) : x.accApply q op true seq = .early := by
  simp only [Slot.accApply, hd, h0, h, Bool.not_true, Bool.false_eq_true, if_false, if_true]

theorem Slot.accApply_stale (h : 2 ^ 15 ≤ d) : x.accApply q op true seq = .stale { x with inv := true } := by
  have h0 : d ≠ 0 := by omega
  simp only [Slot.accApply, hd, h0, Nat.not_lt.2 h, Bool.not_true, Bool.false_eq_true, if_false]

end

end Sys2Proof.Machine
end

section
/-! SUPPORT. Accumulator slots: the reductions in the words of the statement (07 R166, 12 R281, 14 R320). -/
namespace Sys2Proof.Claim
open Sys2Proof.Machine

theorem toSigned_eq_signed96 {n : Nat} (h : n < 2 ^ 96) : toSigned 96 n = signed96 n := by
  rw [toSigned, signed96, Nat.mod_eq_of_lt h]
  split <;> split <;> omega

theorem signed96_patternOf {i : Int} (hlo : -(2 ^ 95) ≤ i) (hhi : i < 2 ^ 95) : signed96 (patternOf 96 i) = i := by
  unfold signed96 patternOf
  split <;> omega

theorem signed96_bounds {n : Nat} (h : n < 2 ^ 96) : -(2 ^ 95) ≤ signed96 n ∧ signed96 n < 2 ^ 95 := by
  unfold signed96
  split <;> omega

/-! ### Integer slots -/

section
variable {x : Slot} (v : BitVec 96) (hx : x.val < 2 ^ 96)
include hx

theorem combine_add : x.combine (.ai v) .add =
    { x with
      val := patternOf 96 (max (-(2 ^ 95)) (min (2 ^ 95 - 1) (signed96 x.val + v.toInt))),
      sat := x.sat || decide (signed96 x.val + v.toInt < -(2 ^ 95) ∨ 2 ^ 95 - 1 < signed96 x.val + v.toInt) } := by
  simp only [Slot.combine, satAi96_eq, toSigned_toNat, toSigned_eq_signed96 hx]

theorem combine_min : x.combine (.ai v) .min = { x with val := patternOf 96 (min (signed96 x.val) v.toInt) } := by
  simp only [Slot.combine, toSigned_toNat, toSigned_eq_signed96 hx]

theorem combine_max : x.combine (.ai v) .max = { x with val := patternOf 96 (max (signed96 x.val) v.toInt) } := by
  simp only [Slot.combine, toSigned_toNat, toSigned_eq_signed96 hx]

end

theorem slotArithmetic : SlotArithmetic := by
  refine ⟨fun x htag hrsv hnseq hval => ?_, fun x q op v hx hnx hovf hinv => ⟨Slot.apply_absent x op, fun hq htag => ?_, fun hq htag => ?_,
    fun hq h0 htag => ?_, fun hq hnan => ⟨fun htag => ?_, fun htag hop => ?_, fun h0 htag => ?_⟩, fun seq _ _ => ?_⟩⟩
  · obtain ⟨htop, -, -, -, -, -, hmid, hlow⟩ := Slot.toNat_fields htag hrsv hnseq hval
    exact ⟨Slot.ofNat_toNat htag hrsv hnseq hval, by omega, htop, hmid, hlow⟩
  · exact Slot.apply_cleared op ⟨hq, hnx, hovf, hinv, rfl⟩ htag
  · rw [Slot.apply_sameKind op ⟨hq, hnx, hovf, hinv, rfl⟩ htag]
    obtain ⟨hxlo, hxhi⟩ := signed96_bounds hx
    have hvlo : -(2 ^ 95) ≤ v.toInt := BitVec.le_toInt v
    have hvhi : v.toInt < 2 ^ 95 := BitVec.toInt_lt
    refine ⟨?_, ?_, ?_⟩
    · rintro rfl
      rw [combine_add v hx]
      exact ⟨signed96_patternOf (by omega) (by omega), rfl, rfl⟩
    · rintro rfl
      rw [combine_min v hx]
      exact ⟨signed96_patternOf (by omega) (by omega), rfl⟩
    · rintro rfl
      rw [combine_max v hx]
      exact ⟨signed96_patternOf (by omega) (by omega), rfl⟩
  · exact Slot.apply_otherKind op ⟨hq, hnx, hovf, hinv, rfl⟩ h0 htag
  · exact Slot.apply_cleared op ⟨hq, hnx, hovf, hinv, hnan⟩ htag
  · rw [Slot.apply_sameKind op ⟨hq, hnx, hovf, hinv, hnan⟩ htag, hop]
    exact ⟨rfl, rfl, htag⟩
  · exact Slot.apply_otherKind op ⟨hq, hnx, hovf, hinv, hnan⟩ h0 htag
  · exact ⟨x.accApply_unordered q op seq, x.accApply_expected q op rfl, x.accApply_early q op rfl, x.accApply_stale q op rfl⟩

end Sys2Proof.Claim
end

section
/-! SUPPORT. The scale store (14 R319, 15 R332): bytes written one after another, and what each form of MSCALE does. -/
namespace Sys2Proof.Machine

/-! ### Bytes written one after another -/

/-- A row of values written from key `lo` up reads back value by value, and every other key keeps its own. -/
theorem Sparse.get_foldl_set {α : Type} [DecidableEq α] (d : α) (t : Sparse α) (lo : Nat) (xs : List α) (k : Nat) :
    Sparse.get d (((List.range xs.length).zip xs).foldl (fun t p => Sparse.set d t (lo + p.1) p.2) t) k =
      if lo ≤ k ∧ k < lo + xs.length then xs.getD (k - lo) d else Sparse.get d t k := by
  induction xs using List.reverseRecOn with
  | nil => rw [if_neg (by simp)]; rfl
  | append_singleton xs x ih =>
    rw [List.length_append, List.length_singleton, List.range_succ, List.zip_append List.length_range, List.foldl_append]
    simp only [List.zip_cons_cons, List.zip_nil_right, List.foldl_cons, List.foldl_nil, Sparse.get_set, ih]
    by_cases hk : k = lo + xs.length
    · rw [if_pos hk, if_pos (by omega), hk, Nat.add_sub_cancel_left, List.getD_append_right _ _ _ _ (Nat.le_refl _), Nat.sub_self]
      rfl
    · rw [if_neg hk]
      by_cases hin : lo ≤ k ∧ k < lo + xs.length
      · rw [if_pos hin, if_pos (by omega), List.getD_append _ _ _ _ (by omega)]
      · rw [if_neg hin, if_neg (by omega)]

/-- The bytes of 8-byte words, the lowest of each first. -/
def wordsBytes (vs : List Nat) : List (BitVec 8) := vs.flatMap fun v => (List.range 8).map fun i => BitVec.ofNat 8 (v / 2 ^ (8 * i))

theorem wordsBytes_cons (v : Nat) (vs : List Nat) :
    wordsBytes (v :: vs) = (List.range 8).map (fun i => BitVec.ofNat 8 (v / 2 ^ (8 * i))) ++ wordsBytes vs := rfl

theorem length_wordsBytes (vs : List Nat) : (wordsBytes vs).length = 8 * vs.length := by
  induction vs with
  | nil => rfl
  | cons v vs ih => rw [wordsBytes_cons, List.length_append, ih, List.length_map, List.length_range, List.length_cons]; omega

theorem getD_wordsBytes (vs : List Nat) (d : BitVec 8) {k : Nat} (hk : k < 8 * vs.length) :
    (wordsBytes vs).getD k d = BitVec.ofNat 8 (vs.getD (k / 8) 0 / 2 ^ (8 * (k % 8))) := by
  induction vs generalizing k with
  | nil => exact absurd hk (Nat.not_lt_zero _)
  | cons v vs ih =>
    rw [List.length_cons] at hk
    rw [wordsBytes_cons]
    by_cases h8 : k < 8
    · rw [List.getD_append _ _ _ _ (by simpa using h8), Nat.div_eq_of_lt h8, Nat.mod_eq_of_lt h8, List.getD_cons_zero]
      simp [h8]
    · have hdiv : k / 8 = (k - 8) / 8 + 1 := by omega
      have hmod : k % 8 = (k - 8) % 8 := by omega
      rw [List.getD_append_right _ _ _ _ (by simpa using h8), hdiv, hmod, List.getD_cons_succ, ← ih (by omega)]
      simp

/-! ### The forms of MSCALE -/

/-- Form `m` reads `n` words into the store from byte `lo` up. -/
def ScaleForm (m n lo : Nat) : Prop := (m = 0 ∧ n = 96 ∧ lo = 0) ∨ (m = 1 ∧ n = 32 ∧ lo = 0) ∨ (m = 2 ∧ n = 64 ∧ lo = 256)

theorem ScaleForm.choice {m n lo : Nat} (h : ScaleForm m n lo) :
    m ≠ 3 ∧ (if m = 0 then 96 else if m = 1 then 32 else 64) = n ∧ (if m = 2 then 256 else 0) = lo := by
  obtain ⟨rfl, rfl, rfl⟩ | ⟨rfl, rfl, rfl⟩ | ⟨rfl, rfl, rfl⟩ := h <;> decide

/-- The scale store with the bytes of `vs` from byte `lo` up. -/
def Role.loadScale (r : Role) (lo n : Nat) (vs : List Nat) : Role :=
  { r with scale := ((List.range (8 * n)).zip (wordsBytes vs)).foldl (fun t p => Sparse.set 0x7F#8 t (lo + p.1) p.2) r.scale }

theorem Role.get_loadScale (r : Role) (lo : Nat) {n : Nat} {vs : List Nat} (hn : vs.length = n) (b : Nat) :
    Sparse.get 0x7F#8 (r.loadScale lo n vs).scale b =
      if lo ≤ b ∧ b < lo + 8 * n then BitVec.ofNat 8 (vs.getD ((b - lo) / 8) 0 / 2 ^ (8 * ((b - lo) % 8))) else Sparse.get 0x7F#8 r.scale b := by
  subst hn
  rw [Role.loadScale, ← length_wordsBytes, Sparse.get_foldl_set]
  split
  · next hb => exact getD_wordsBytes vs _ (by rw [← length_wordsBytes]; omega)
  · rfl

@[simp] theorem Role.advance_scale (r : Role) : r.advance.scale = r.scale := by rw [Role.advance_eq]

/-- The move past a word does not look at the scale store. -/
theorem Role.advance_withScale (r : Role) (x : Sparse (BitVec 8)) : { r with scale := x }.advance = { r.advance with scale := x } := by
  rw [Role.advance_eq, Role.advance_eq r]

/-- Past its word, a role of which the store alone changed differs in the store alone. -/
theorem Role.advance_withScale_frame (r : Role) (x : Sparse (BitVec 8)) : { { r with scale := x }.advance with scale := r.scale } = r.advance := by
  rw [Role.advance_withScale, ← Role.advance_scale r]

section
variable {s s1 s2 : State} {r : Role} {o : FmtX} {n lo : Nat} (h : s.role? s.cur = some r)
include h

theorem execMscale_reset (hm : o.xmod.toNat % 4 = 3) : execMscale o s = .next (s.setRole s.cur { r with scale := [] }.advance) := by
  rw [execMscale, onRole_next s _ r h, if_pos hm]

variable (hf : ScaleForm (o.xmod.toNat % 4) n lo)
include hf

theorem execMscale_cause {c : Nat} (hc : s.issueCause r .load (r.sreg o.sc.toNat).toNat 8 64 = some c) :
    execMscale o s = .next (s.trap s.cur c (addr64 (r.sreg o.sc.toNat).toNat)) := by
  obtain ⟨h3, -, -⟩ := hf.choice
  rw [execMscale, onRole_next s _ r h, if_neg h3]
  simp only [hc]

theorem execMscale_words (hc : s.issueCause r .load (r.sreg o.sc.toNat).toNat 8 64 = none)
    (hlog : s.overlapsLog s.cur r (r.sreg o.sc.toNat).toNat (8 * n) = false) (hbusy : s.busyOps s.cur r = false) {xs : List Spot} {vs : List Nat}
    (hxs : s.spots r .load 8 8 ((List.range n).map fun (i : Nat) => (r.sreg o.sc.toNat).toNat + 8 * (i : Int)) = (.ok xs, s1))
    (hvs : s1.readSpots r 8 xs = (.ok vs, s2)) :
    execMscale o s = .next (s2.setRole s.cur (r.loadScale lo n vs).advance) := by
  obtain ⟨h3, hn, hlo⟩ := hf.choice
  rw [execMscale, onRole_next s _ r h, if_neg h3]
  simp only [hn, hlo, hc, Int.toNat_natCast, hlog, hbusy, hxs, hvs, Bool.false_eq_true, if_false]
  rfl

end

end Sys2Proof.Machine
end

section
/-! SUPPORT. The scale store, and with it accumulator slots (07 R166, 12 R281, 14 R319, R320, 15 R332). -/
namespace Sys2Proof.Claim
open Sys2Proof.Machine

theorem scaleStore : ScaleStore := by
  intro s r o hr
  refine ⟨fun hm => completes_of _ s _ _ (execMscale_reset hr hm) ⟨fun b => ?_, r.advance_withScale_frame []⟩, fun n lo hf =>
    ⟨fun c hc => execMscale_cause hr hf hc, fun hc hlog hbusy xs vs s1 s2 hxs hvs hn => ?_⟩⟩
  · rw [Role.advance_scale]
    rfl
  · refine ⟨_, execMscale_words hr hf hc hlog hbusy hxs hvs, r.advance_withScale_frame _, fun b => ?_⟩
    rw [Role.advance_scale]
    exact r.get_loadScale lo hn b

/-- Settles O35: the branches of a reduction and of its sequence are told one by one, and the words that MSCALE loads are read back byte by byte. -/
theorem slotsAndScale : Obligations.SlotsAndScale := ⟨slotArithmetic, scaleStore⟩

end Sys2Proof.Claim
end

section
/-! SUPPORT. Flow endpoints (08 R190, R191): the transfers that an endpoint takes, what becomes of an arriving sequence number, and the state
after each. -/
namespace Sys2Proof.Machine

theorem wbit_eq_decide (w : Word) (i : Nat) : wbit w i = decide (w.toNat / 2 ^ i % 2 = 1) :=
  Nat.testBit_eq_decide_div_mod_eq

/-- The endpoint takes a transfer (R190): flow 1 takes every one, another flow those of its VMID from the source that its entry names, and
one that names none only where it is not ordered. -/
def DieState.OpenTo (x : DieState) (t : FlowTransfer) : Prop :=
  let w := (x.flow t.flow).1.toNat
  t.flow = 1 ∨ (w / 2 ^ 63 % 2 = 1 ∧ w / 2 ^ 58 % 16 = t.vmid ∧
    ((w / 2 ^ 56 % 4 = 3 ∧ w / 2 ^ 62 % 2 = 0) ∨
      (w / 2 ^ 56 % 4 ≠ 3 ∧ w / 2 ^ 56 % 4 = t.srcKind ∧ (t.srcKind = 1 ∨ w / 2 ^ 46 % 1024 = t.srcId))))

theorem DieState.takes_iff (x : DieState) (t : FlowTransfer) : x.takes t = true ↔ x.OpenTo t := by
  simp only [DieState.takes, DieState.takesFrom, DieState.OpenTo, wbit_eq_decide, wfield, Bool.or_eq_true, Bool.and_eq_true,
    decide_eq_true_eq, and_assoc, show 2 ^ 2 = 4 from rfl, show 2 ^ 4 = 16 from rfl, show 2 ^ 10 = 1024 from rfl]
  by_cases h3 : (x.flow t.flow).1.toNat / 2 ^ 56 % 4 = 3
  · simp only [h3, if_true, true_and, not_true_eq_false, ne_eq, false_and, or_false, Bool.not_eq_true', decide_eq_false_iff_not, Nat.mod_two_ne_one]
  · simp only [h3, if_false, false_and, false_or, ne_eq, not_false_eq_true, true_and, Bool.and_eq_true, Bool.or_eq_true, decide_eq_true_eq]

section
variable {x : DieState} {f seq : Nat}

theorem DieState.arrival_of_unordered (h : f = 1 ∨ (x.flow f).1.toNat / 2 ^ 62 % 2 = 0) : x.arrival f seq = .deliver false := by
  have hopen : (decide (f = 1) || !(wbit (x.flow f).1 62)) = true := by
    rcases h with h | h
    · rw [decide_eq_true h, Bool.true_or]
    · rw [wbit_eq_decide, h, Bool.or_eq_true]
      exact .inr rfl
  rw [DieState.arrival, if_pos hopen]

/-- On an ordered flow an arrival is told by how far its number is ahead of the one that is expected, modulo 2^32. -/
theorem DieState.arrival_of_ordered (hf : f ≠ 1) (ho : (x.flow f).1.toNat / 2 ^ 62 % 2 = 1) {a : Nat}
    (ha : (seq + 2 ^ 32 - (x.flow f).1.toNat % 2 ^ 32) % 2 ^ 32 = a) : x.arrival f seq =
      if a = 0 then .deliver true else if 2 ^ 31 ≤ a then .duplicate
      else if x.flowHeld.length + x.podHeld.length < 511 then .held else .full := by
  have hclosed : ¬(decide (f = 1) || !(wbit (x.flow f).1 62)) = true := by
    rw [wbit_eq_decide, ho, decide_eq_false hf]
    decide
  rw [DieState.arrival, if_neg hclosed, wfield_low, ha]

end

theorem State.nextSeq_eq (s : State) (d f : Nat) : s.nextSeq d f =
    s.setFlow d f (withField ((s.die d).flow f).1 0 32 (((s.die d).flow f).1.toNat % 2 ^ 32 + 1), ((s.die d).flow f).2) := by
  rw [State.nextSeq, wfield_low]

theorem State.drainFlow_of_none_held {s : State} {d : Nat} (h : (s.die d).flowHeld = []) (f n : Nat) : s.drainFlow d f n = s := by
  cases n with
  | zero => rfl
  | succ n => simp [State.drainFlow, h]

/-! ### What a transfer leaves -/

section
variable {s : State} {t : FlowTransfer}

theorem State.receive_refused (h : ¬(s.die t.die).OpenTo t) : s.receive t = s.failCmd t.ctx t.n stPERM t.addr := by
  have hno : (s.die t.die).takes t = false := by rwa [← Bool.not_eq_true, DieState.takes_iff]
  simp [State.receive, hno]

variable (h : (s.die t.die).OpenTo t)
include h

theorem State.receive_of_unordered (ha : (s.die t.die).arrival t.flow t.seq = .deliver false) : s.receive t = s.deliver t := by
  simp [State.receive, (DieState.takes_iff _ _).mpr h, ha]

theorem State.receive_of_next (ha : (s.die t.die).arrival t.flow t.seq = .deliver true) :
    s.receive t = ((s.nextSeq t.die t.flow).deliver t).drainFlow t.die t.flow 512 := by
  simp [State.receive, (DieState.takes_iff _ _).mpr h, ha]

theorem State.receive_of_duplicate (ha : (s.die t.die).arrival t.flow t.seq = .duplicate) : s.receive t = s.countError t.die 0x6318 := by
  simp [State.receive, (DieState.takes_iff _ _).mpr h, ha]

theorem State.receive_of_held (ha : (s.die t.die).arrival t.flow t.seq = .held) :
    s.receive t = s.setDie t.die { s.die t.die with flowHeld := (s.die t.die).flowHeld ++ [t] } := by
  simp [State.receive, (DieState.takes_iff _ _).mpr h, ha]

theorem State.receive_of_full (ha : (s.die t.die).arrival t.flow t.seq = .full) :
    s.receive t = s.setDie t.die { s.die t.die with flowRefused := (s.die t.die).flowRefused ++ [t] } := by
  simp [State.receive, (DieState.takes_iff _ _).mpr h, ha]

end

end Sys2Proof.Machine
end

section
/-! SUPPORT. Flow endpoints deliver, hold, refuse and drop transfers (08 R190, R191). -/
namespace Sys2Proof.Claim
open Sys2Proof.Machine

/-- Settles O30: the endpoint's check is the condition of the statement, and each arrival has its own state. -/
theorem flowsDeliver : Obligations.FlowsDeliver := by
  intro s t x e w0 opens ahead
  have hexec : ∀ {s1 : State}, s.receive t = s1 → exec (.flowTransferReceive t) s = .next s1 := fun h => congrArg _ h
  refine ⟨fun h => hexec (State.receive_refused h), fun h hu => hexec (State.receive_of_unordered h (DieState.arrival_of_unordered hu)),
    fun h hf ho => ?_, rfl⟩
  have harrival := DieState.arrival_of_ordered (seq := t.seq) hf ho (a := ahead) rfl
  refine ⟨fun ha hheld => ⟨?_, fun hempty => hexec ?_⟩, fun ha => hexec (State.receive_of_duplicate h ?_),
    fun hne hlt hroom => hexec (State.receive_of_held h ?_), fun hne hlt hfull => hexec (State.receive_of_full h ?_)⟩
  · rw [toNat_withField_low _ _ (by decide)]
    omega
  · rw [State.receive_of_next h (by rw [harrival, if_pos ha]), State.nextSeq_eq]
    exact State.drainFlow_of_none_held hempty _ _
  · rw [harrival, if_neg (by omega), if_pos ha]
  · rw [harrival, if_neg hne, if_neg (by omega), if_pos hroom]
  · rw [harrival, if_neg hne, if_neg (by omega), if_neg (by omega)]

end Sys2Proof.Claim
end

section
/-! SUPPORT. Tensor copies (08 R186, R187, 11 R253): the tensor that COPY is, and where the elements of a tensor lie. -/
namespace Sys2Proof.Machine

/-- The type of the elements of `z` bytes that COPY moves (R253). -/
def copyTy (z : Nat) : Ty := if z = 1 then .n8 else if z = 2 then .n16 else if z = 4 then .n32 else .n64

theorem bytes_copyTy {k : Nat} (hk : k < 4) : (copyTy (2 ^ k)).bytes = 2 ^ k := by
  interval_cases k <;> rfl

theorem width_copyTy {k : Nat} (hk : k < 4) : (copyTy (2 ^ k)).width = 8 * 2 ^ k := by
  interval_cases k <;> rfl

/-- The tensor of `n` elements of `z` bytes that COPY moves from s[A] to s[B]. -/
def Tensor.copyOf (c : Cmd) (z n : Nat) : Tensor :=
  { src := c.a.toNat, dst := c.b.toNat, speer := false, dpeer := false, flow := 1, counts := [n], sstrides := [z], dstrides := [z],
    cvt := false, rm := .rne, dty := copyTy z, sty := copyTy z, sig := 0, sinc := 0 }

section
variable {c : Cmd} {z : Nat} (hz : 2 ^ (c.qmod.toNat % 4) = z)
include hz

theorem copyTensor_eq : copyTensor c =
    if c.c.toNat % z ≠ 0 ∨ 2 ^ 32 ≤ c.c.toNat / z then none else some (.copyOf c z (c.c.toNat / z)) := by
  have hq : wfield (c.qmod.zeroExtend 64) 0 2 = c.qmod.toNat % 4 := by
    rw [wfield_low, BitVec.toNat_setWidth_of_le (by decide)]
    rfl
  simp only [copyTensor, hq, hz, Bool.or_eq_true, decide_eq_true_eq]
  rfl

theorem copyTensor_none (h : c.c.toNat % z ≠ 0 ∨ 2 ^ 32 ≤ c.c.toNat / z) : copyTensor c = none := by
  rw [copyTensor_eq hz, if_pos h]

theorem copyTensor_some (hd : c.c.toNat % z = 0) (hn : c.c.toNat / z < 2 ^ 32) : copyTensor c = some (.copyOf c z (c.c.toNat / z)) := by
  rw [copyTensor_eq hz, if_neg (by omega)]

end

theorem Tensor.size_line {t : Tensor} {n : Nat} (h : t.counts = [n]) : t.size = n := by
  rw [Tensor.size, h, List.foldl_cons, List.foldl_nil, Nat.one_mul]

theorem Tensor.size_plane {t : Tensor} {m n : Nat} (h : t.counts = [m, n]) : t.size = m * n := by
  rw [Tensor.size, h, List.foldl_cons, List.foldl_cons, List.foldl_nil, Nat.one_mul]

theorem strideSum_line {i n : Nat} (st : Int) (h : i < n) : strideSum i [(n, st)] = i * st := by
  simp only [strideSum, Nat.mod_eq_of_lt h, add_zero]

theorem strideSum_plane (i m n : Nat) (st0 st1 : Int) :
    strideSum i [(m, st0), (n, st1)] = ((i % m : Nat) : Int) * st0 + ((i / m % n : Nat) : Int) * st1 := by
  simp only [strideSum, add_zero]

theorem Tensor.pairAt_copyOf (c : Cmd) (z : Nat) {n i : Nat} (h : i < n) :
    (Tensor.copyOf c z n).pairAt i = (((c.a.toNat + z * i : Nat) : Int), ((c.b.toNat + z * i : Nat) : Int)) := by
  simp only [Tensor.pairAt, Tensor.copyOf, List.zip_cons_cons, List.zip_nil_right, strideSum_line _ h]
  push_cast
  rw [mul_comm (i : Int)]

theorem Tensor.value_of_not_cvt {t : Tensor} (h : t.cvt = false) (sat : Bool) (x : Nat) : t.value sat x = x % 2 ^ t.sty.width := by
  simp [Tensor.value, h]

end Sys2Proof.Machine
end

section
/-! SUPPORT. The all-reduce (08 R198): what one step of it makes of two integers. -/
namespace Sys2Proof.Machine

theorem Ty.fmt?_of_isInt {ty : Ty} (h : ty.isInt = true) : ty.fmt? = none :=
  match ty, h with
  | .i64, _ | .n64, _ | .i32, _ | .n32, _ | .i16, _ | .n16, _ | .i8, _ | .n8, _ => rfl

section
variable {ty : Ty} (h : ty.isInt = true)
include h

theorem reduceAll_int (op x : Nat) (rest : List Nat) : reduceAll ty op false (x :: rest) = rest.foldl (aredCombine ty op) x := by
  simp only [reduceAll, Ty.fmt?_of_isInt h, Bool.false_eq_true, if_false]

theorem aredCombine_add (a b : Nat) : aredCombine ty 0 a b = (a + b) % 2 ^ ty.width := by
  simp only [aredCombine, Ty.fmt?_of_isInt h]

theorem toInt_aredCombine_min (a b : Nat) : ty.toInt (aredCombine ty 1 a b) = min (ty.toInt a) (ty.toInt b) := by
  simp only [aredCombine, Ty.fmt?_of_isInt h, apply_ite ty.toInt, min_comm (ty.toInt a), min_def_lt]

theorem toInt_aredCombine_max (a b : Nat) : ty.toInt (aredCombine ty 2 a b) = max (ty.toInt a) (ty.toInt b) := by
  simp only [aredCombine, Ty.fmt?_of_isInt h, apply_ite ty.toInt, max_def_lt]

theorem aredCombine_bits (a b : Nat) : aredCombine ty 3 a b = a &&& b ∧ aredCombine ty 4 a b = a ||| b ∧ aredCombine ty 5 a b = a ^^^ b := by
  simp only [aredCombine, Ty.fmt?_of_isInt h, and_self]

end

end Sys2Proof.Machine
end

section
/-! SUPPORT. Tensor copies and the all-reduce (08 R186, R187, R198, 11 R253). -/
namespace Sys2Proof.Claim
open Sys2Proof.Machine

theorem copyIsATensorCopy : CopyIsATensorCopy := by
  refine ⟨fun c => ⟨copyTensor_none rfl, fun hd hn => ?_⟩, fun t i c0 c1 s0 s1 d0 d1 hc hs hd => ⟨Tensor.size_plane hc, ?_⟩⟩
  · have hk : c.qmod.toNat % 4 < 4 := Nat.mod_lt _ (by decide)
    refine ⟨_, copyTensor_some rfl hd hn, Tensor.size_line rfl, rfl, bytes_copyTy hk, rfl, rfl, rfl, rfl,
      fun i hi => Tensor.pairAt_copyOf c _ ?_, fun sat x => ?_⟩
    · rwa [Tensor.size_line rfl] at hi
    · rw [Tensor.value_of_not_cvt rfl, ← width_copyTy hk]
      rfl
  · rw [Tensor.pairAt, hc, hs, hd]
    simp only [List.zip_cons_cons, List.zip_nil_right, strideSum_plane, add_assoc]

theorem allReduceInRankOrder : AllReduceInRankOrder :=
  ⟨fun _ op x rest h => reduceAll_int h op x rest, fun _ a b h => ⟨aredCombine_add h a b, toInt_aredCombine_min h a b,
    toInt_aredCombine_max h a b, aredCombine_bits h a b⟩, by decide +kernel, by decide +kernel⟩

/-- Settles O28: COPY is a line of elements with one stride, and each operation of the all-reduce is its own on integers. -/
theorem tensorCopiesAndReductions : Obligations.TensorCopiesAndReductions := ⟨copyIsATensorCopy, allReduceInRankOrder⟩

end Sys2Proof.Claim
end

section
/-! SUPPORT. Contexts and their entries (08 R180-R182): what a change of a context leaves alone, and the entry of its only command. -/
namespace Sys2Proof.Machine

theorem State.setCtx_eq (s : State) (c : CtxId) (x : Ctx) : s.setCtx c x = { s with ctxs := (s.setCtx c x).ctxs } := by
  unfold State.setCtx
  split
  · rfl
  · rfl

@[simp] theorem State.setCtx_issued (s : State) (c : CtxId) (x : Ctx) : (s.setCtx c x).issued = s.issued := by rw [State.setCtx_eq]
@[simp] theorem State.setCtx_pending (s : State) (c : CtxId) (x : Ctx) : (s.setCtx c x).pending = s.pending := by rw [State.setCtx_eq]
@[simp] theorem State.tickCtx_mem (s : State) (c : CtxId) (t : Nat) : (s.tickCtx c t).mem = s.mem := State.setCtx_mem s c _
@[simp] theorem State.tickCtx_roles (s : State) (c : CtxId) (t : Nat) : (s.tickCtx c t).roles = s.roles := State.setCtx_roles s c _
@[simp] theorem State.tickCtx_issued (s : State) (c : CtxId) (t : Nat) : (s.tickCtx c t).issued = s.issued := State.setCtx_issued s c _
@[simp] theorem State.tickCtx_pending (s : State) (c : CtxId) (t : Nat) : (s.tickCtx c t).pending = s.pending := State.setCtx_pending s c _

@[simp] theorem State.ctx_tickCtx_same (s : State) (c : CtxId) (t : Nat) :
    (s.tickCtx c t).ctx c = { s.ctx c with pts := max (s.ctx c).pts t } := State.ctx_setCtx_same s c _

@[simp] theorem State.ctx_setEntry_same (s : State) (c : CtxId) (n : Nat) (f : CmdEntry → CmdEntry) :
    (s.setEntry c n f).ctx c = (s.ctx c).setEntry n f := State.ctx_setCtx_same s c _

@[simp] theorem State.setEntry_mem (s : State) (c : CtxId) (n : Nat) (f : CmdEntry → CmdEntry) : (s.setEntry c n f).mem = s.mem :=
  State.setCtx_mem s c _

theorem Ctx.entry?_of_only {x : Ctx} {q : CmdEntry} (h : x.cmds = [q]) : x.entry? q.n = some q := by
  simp [Ctx.entry?, h]

theorem Ctx.setEntry_of_only {x : Ctx} {q : CmdEntry} (h : x.cmds = [q]) (f : CmdEntry → CmdEntry) : x.setEntry q.n f = { x with cmds := [f q] } := by
  simp [Ctx.setEntry, h]

end Sys2Proof.Machine
end

section
/-! SUPPORT. A shared context accepts a command (11 R249 step 5). -/
namespace Sys2Proof.Machine

/-- A context with a command more, under the number ACCEPTED + 1 and the context's own identity. -/
def Ctx.accept (x : Ctx) (q : IssuedCmd) : Ctx :=
  { x with accepted := x.accepted + 1,
           cmds := x.cmds ++ [{ n := x.accepted + 1, cmd := { q.cmd with vmid := x.vmid, asid := x.asid }, st := .accepted }] }

/-- The role of a command that was accepted under number `n`. -/
def Role.acceptedAs (r : Role) (q : IssuedCmd) (n : Nat) : Role := (r.setSreg q.dst.num (BitVec.ofNat 64 n)).slotDone q.ws

theorem Role.sreg_acceptedAs (r : Role) (q : IssuedCmd) (n k : Nat) :
    (r.acceptedAs q n).sreg k = if k = q.dst.num then BitVec.ofNat 64 n else r.sreg k := Sparse.get_set 0 r.sregs q.dst.num k _

theorem Role.waitCount_acceptedAs (r : Role) (q : IssuedCmd) (n w : Nat) :
    (r.acceptedAs q n).waitCount w = if w = q.ws then r.waitCount w - 1 else r.waitCount w := by
  refine (Sparse.get_set 0 r.waits q.ws w _).trans ?_
  split
  next h => rw [h]; rfl
  next => rfl

section
variable {s : State} {q : IssuedCmd} {rest : List IssuedCmd} (hq : s.issued = q :: rest) (hmay : s.mayAccept q = true)
include hq hmay

theorem State.nextAccept_first : s.nextAccept q.ctx = some 0 := by
  simp [State.nextAccept, hq, indexWhere, hmay]

theorem State.accept_first {d : Die} {k : Fin 256} (hid : q.ctx = .shared d k) {r : Role} (hr : s.role? q.rid = some r) : s.accept q.ctx =
    ((({ s with issued := rest }.setCtx q.ctx ((s.ctx q.ctx).accept q)).tickCtx q.ctx (s.core r.core).pts).setRole q.rid
      (r.acceptedAs q ((s.ctx q.ctx).accepted + 1))).send (.engineCommandStart q.ctx) := by
  have hdrop : dropAt s.issued 0 = rest := by rw [hq]; rfl
  have hrole : ∀ c x t, ((({ s with issued := rest } : State).setCtx c x).tickCtx c t).role? q.rid = some r := fun c x t => by
    rw [State.role?, State.tickCtx_roles, State.setCtx_roles]
    exact hr
  simp only [State.accept, State.nextAccept_first hq hmay, hdrop]
  simp only [hq, List.getElem?_cons_zero, hid, hr, Option.getD_some, State.updRole_some _ _ _ r (hrole _ _ _)]
  rfl

end

/-- The context after it has accepted: but for its clock it is the one with the command. -/
theorem State.ctx_acceptTick (s : State) (c : CtxId) (x : Ctx) (t : Nat) : ((s.setCtx c x).tickCtx c t).ctx c = { x with pts := max x.pts t } := by
  rw [State.ctx_tickCtx_same, State.ctx_setCtx_same]

end Sys2Proof.Machine
end

section
/-! SUPPORT. An engine takes a command of a context that has no other (08 R181, R182). -/
namespace Sys2Proof.Machine

theorem State.flushDue_of_none {s : State} {id : CtxId} (h : (s.ctx id).dueBy = none) : s.flushDue id = s := by
  simp only [State.flushDue, h]

theorem Ctx.startable_of_accepted {x : Ctx} {q : CmdEntry} (h : x.cmds = [q]) (hst : q.st = .accepted) (herr : x.err = false) :
    x.startable = some q := by
  simp [Ctx.startable, h, hst, herr]

/-- The round of the die goes on from the context of a command that one of the die's engines takes. -/
def State.takeTurn (s : State) (id : CtxId) (q : CmdEntry) : State :=
  match engineOf q.cmd.kind with
  | some e => s.updDie (ctxDie id q.cmd) fun x => { x with lastCtx := Sparse.set 0 x.lastCtx e (roundPlace id q.cmd) }
  | none => s

theorem State.takeTurn_eq (s : State) (id : CtxId) (q : CmdEntry) : s.takeTurn id q = { s with dies := (s.takeTurn id q).dies } := by
  unfold State.takeTurn
  split
  · rfl
  · rfl

theorem State.die_takeTurn (s : State) (id : CtxId) (q : CmdEntry) (d : Nat) :
    { (s.takeTurn id q).die d with lastCtx := (s.die d).lastCtx } = s.die d := by
  unfold State.takeTurn
  split
  · by_cases hd : d = ctxDie id q.cmd
    · rw [hd, State.die_updDie_same]
    · rw [State.die_updDie_other s _ hd]
  · rfl

theorem State.startCtx_of_accepted {s : State} {id : CtxId} {q : CmdEntry} (h : (s.ctx id).cmds = [q]) (hst : q.st = .accepted)
    (herr : (s.ctx id).err = false) (hdue : (s.ctx id).dueBy = none) :
    s.startCtx id = if s.served id q then (s.takeTurn id q).startCmd id q else s := by
  have hheld : [q].foldl (fun s q => if q.st == .held then State.startCmd s id q else s) s = s := by simp [hst]
  simp only [State.startCtx, State.flushDue_of_none hdue, h, hheld, Ctx.startable_of_accepted h hst herr]
  rfl

section
variable {s s1 : State} {id : CtxId} {q : CmdEntry}

theorem State.startCmd_of_ok (h : s.runCmd id q.cmd q.n = .ok ((), s1)) :
    s.startCmd id q = (s1.setEntry id q.n fun e => { e with st := .running }).send (.engineCommandComplete id q.n) := by
  simp only [State.startCmd, h]

theorem State.startCmd_of_wait (h : s.runCmd id q.cmd q.n = .error (.wait, s1)) :
    s.startCmd id q = s1.setEntry id q.n fun e => { e with st := .held } := by
  simp only [State.startCmd, h]

theorem State.startCmd_of_fail {code : Nat} {addr : Word} (h : s.runCmd id q.cmd q.n = .error (.fail code addr, s1)) :
    s.startCmd id q = (s1.setEntry id q.n fun e => { e with st := .failed }).send (.engineCommandFail id q.n code addr.toNat) := by
  simp only [State.startCmd, h]

end

end Sys2Proof.Machine
end

section
/-! SUPPORT. The end of a context's only command: its failure stops the context, its completion lets the timeline follow (06 R155, 08 R182). -/
namespace Sys2Proof.Machine

/-- An entry whose command has ended, and has no SIG add left. -/
def CmdEntry.endAs (e : CmdEntry) (st : CmdState) : CmdEntry := { e with st := st, sigs := [] }

@[simp] theorem CmdEntry.endAs_n (e : CmdEntry) (st : CmdState) : (e.endAs st).n = e.n := rfl

theorem isLocal_eq_false {id : CtxId} (h : ∀ g t, id ≠ .local g t) : isLocal id = false :=
  match id, h with
  | .shared _ _, _ | .composer _, _ | .encoder _, _ => rfl
  | .local g t, h => absurd rfl (h g t)

theorem State.stopCtx_of_going {s : State} {id : CtxId} (hid : ∀ g t, id ≠ .local g t) (herr : (s.ctx id).err = false) (c : Cmd) (n code : Nat)
    (addr : Word) (retry : Option Nat) : s.stopCtx id c n code addr retry =
      s.setCtx id { s.ctx id with err := true, code := code, failn := n, failaddr := addr, tlRetry := retry } := by
  simp only [State.stopCtx, herr, isLocal_eq_false hid, Bool.false_eq_true, if_false]

section
variable {s : State} {id : CtxId} {q : CmdEntry} (h : (s.ctx id).cmds = [q]) (hst : q.st = .running)
include h hst

theorem State.failCmd_of_running (code : Nat) (addr : Word) : s.failCmd id q.n code addr =
    (s.setEntry id q.n (·.endAs .failed)).stopCtx id q.cmd q.n code addr none := by
  simp only [State.failCmd, Ctx.entry?_of_only h, hst]
  rfl

theorem State.completeCmd_of_ended (hsigs : q.sigs = []) (hout : s.cmdOut id q.n = false) :
    s.completeCmd id q.n = (s.setEntry id q.n (·.endAs .done)).advanceCtx id := by
  simp [State.completeCmd, Ctx.entry?_of_only h, hst, hsigs, State.runSigs, hout, CmdEntry.endAs]

end

/-- The timeline takes the number of a context's only command, and the command leaves the context. -/
theorem State.advanceCtx_of_done {s s1 : State} {id : CtxId} {q : CmdEntry} (h : (s.ctx id).cmds = [q]) (hst : q.st = .done)
    (herr : (s.ctx id).err = false) (htl : s.engStore id q.cmd .counter 8 q.n (sext57 (s.ctx id).tladdr : Nat) = .ok ((), s1)) :
    s.advanceCtx id = s1.setCtx id
      { s1.ctx id with completed := q.n, tlRetry := none, cmds := (s1.ctx id).cmds.filter fun e => q.n < e.n } := by
  simp [State.advanceCtx, h, hst, herr, htl]

end Sys2Proof.Machine
end

section
/-! SUPPORT. The version commands (04 R102, R103, 11 R256, R257): the words that they write, and the atomic on a region's descriptor. -/
namespace Sys2Proof.Machine

@[simp] theorem State.tickSnap_mem (s : State) (d t : Nat) : (s.tickSnap d t).mem = s.mem := rfl

section
variable {s s1 s2 : State} {id : CtxId} {c : Cmd} {ra w1 t old w : Nat} (word : Nat) {f : Nat → Nat}

section
variable (ha : s.regionAddr? (ctxDie id c) c.vmid (wfield c.a 32 16) = some ra)
include ha

theorem State.regionRmw_of_lost (hl : s.homeLost (lineOf ra) = true) (f : Nat → Nat) :
    s.regionRmw id c word f = .error (.fail stHOME_LOST (BitVec.ofNat 64 ra), s) := by
  simp only [State.regionRmw, ha, hl, if_true]
  rfl

variable (hl : s.homeLost (lineOf ra) = false) (hbad : s.readBad (ctxDie id c) (lineOf ra) = false)
  (hread : s.readIn (ctxDie id c) (ra + 8) 8 0 (max (s.ctx id).pts (s.die (ctxDie id c)).snapPts) = (w1, t, s1))
include hl hbad hread

theorem State.regionRmw_of_reserved (hw : 2 ^ 33 ≤ w1) (f : Nat → Nat) :
    s.regionRmw id c word f = .error (.fail stNOTPRESENT (BitVec.ofNat 64 ra), s1.tickSnap (ctxDie id c) t) := by
  have hset : w1 / 2 ^ 33 ≠ 0 := by omega
  simp only [State.regionRmw, ha, hl, hread, hbad, Bool.false_eq_true, if_false, if_pos hset]
  rfl

theorem State.regionRmw_of_clear (hw : w1 < 2 ^ 33)
    (hrmw : s1.rmwIn (ctxDie id c) (ra + 8 * word) 8 0 (max (s.ctx id).pts (s.die (ctxDie id c)).snapPts) f = (old, w, s2)) :
    s.regionRmw id c word f = .ok ((), (s2.tickSnap (ctxDie id c) w).tickCtx id w) := by
  have hset : ¬w1 / 2 ^ 33 ≠ 0 := by omega
  simp only [State.regionRmw, ha, hl, hread, hbad, Bool.false_eq_true, if_false, if_neg hset, hrmw]

end

theorem State.runCmd_pin (s : State) (id : CtxId) (n : Nat) (h : c.kind = .pin) :
    s.runCmd id c n = s.regionRmw id c 1 (pinWord (c.qmod.toNat % 4) (c.a.toNat % 2 ^ 32)) := by
  simp only [State.runCmd, h, wfield_low]

theorem State.runCmd_vret (s : State) (id : CtxId) (n : Nat) (h : c.kind = .vret) :
    s.runCmd id c n = s.regionRmw id c 0 (vretWord (c.qmod.getLsbD 0) (c.a.toNat % 2 ^ 32)) := by
  simp only [State.runCmd, h, wfield_low]

end

section
variable {v x : Nat}

theorem pinWord_set (hv : v < 2 ^ 32) : pinWord 0 v x % 2 ^ 32 = v ∧ pinWord 0 v x / 2 ^ 32 = 1 := by
  simp only [pinWord, show ¬0 = 2 by decide, show ¬0 = 1 by decide, decide_false, Bool.false_and, Bool.false_eq_true, if_false]
  omega

theorem pinWord_clear : pinWord 2 v x % 2 ^ 32 = 0 ∧ pinWord 2 v x / 2 ^ 32 = 0 := ⟨rfl, Nat.zero_div _⟩

theorem pinWord_lower (hv : v < 2 ^ 32) (hx : x < 2 ^ 33) :
    pinWord 1 v x % 2 ^ 32 = (if x / 2 ^ 32 = 1 then min (x % 2 ^ 32) v else v) ∧ pinWord 1 v x / 2 ^ 32 = 1 := by
  have hhen : x / 2 ^ 32 % 2 = x / 2 ^ 32 := Nat.mod_eq_of_lt (by omega)
  simp only [pinWord, show ¬1 = 2 by decide, decide_true, Bool.true_and, decide_eq_true_eq, if_false, hhen]
  split
  · omega
  · omega

/-- VRET leaves RV alone and raises, or sets, the floor. -/
theorem vretWord_fields (set : Bool) (v x : Nat) :
    vretWord set v x / 2 ^ 32 = (if set then v else max (x / 2 ^ 32) v) ∧ vretWord set v x % 2 ^ 32 = x % 2 ^ 32 := by
  rw [vretWord]
  omega

end

end Sys2Proof.Machine
end

section
/-! SUPPORT. Commands are accepted, start, complete and fail, and the version commands (06 R155, 08 R182, 11 R249, R256, R257). -/
namespace Sys2Proof.Claim
open Sys2Proof.Machine

section
variable {s : State} {id : CtxId}

theorem command_accepted {q : IssuedCmd} {r : Role} {rest : List IssuedCmd} {d : Die × Fin 256} (hq : s.issued = q :: rest)
    (hctx : q.ctx = id) (hmay : s.mayAccept q = true) (hr : s.role? q.rid = some r) (hid : id = .shared d.1 d.2) :
    ∃ t p, exec (.engineCommandAccept id) s = .next t ∧ t.issued = rest ∧ (t.ctx id).accepted = (s.ctx id).accepted + 1 ∧
      t.role? q.rid = some p ∧ (∀ k, p.sreg k = if k = q.dst.num then BitVec.ofNat 64 ((s.ctx id).accepted + 1) else r.sreg k) ∧
      (∀ w, p.waitCount w = if w = q.ws then r.waitCount w - 1 else r.waitCount w) ∧
      (t.ctx id).cmds.map (·.n) = (s.ctx id).cmds.map (·.n) ++ [(s.ctx id).accepted + 1] ∧ t.mem = s.mem ∧
      t.pending = s.pending ++ [.engineCommandStart id] := by
  subst hctx
  have hafter := State.ctx_acceptTick { s with issued := rest } q.ctx ((s.ctx q.ctx).accept q) (s.core r.core).pts
  refine ⟨_, r.acceptedAs q ((s.ctx q.ctx).accepted + 1), congrArg Host.Outcome.next (State.accept_first hq hmay hid hr), by simp, ?_,
    State.role?_setRole_same _ _ _, r.sreg_acceptedAs q _, r.waitCount_acceptedAs q _, ?_, by simp, by simp⟩
  · exact congrArg Ctx.accepted hafter
  · exact (congrArg (fun x : Ctx => x.cmds.map (·.n)) hafter).trans List.map_append

theorem command_started {q : CmdEntry} (h : (s.ctx id).cmds = [q]) (hst : q.st = .accepted) (herr : (s.ctx id).err = false)
    (hdue : (s.ctx id).dueBy = none) (hserved : s.served id q = true) :
    exec (.engineCommandStart id) s = .next ((s.takeTurn id q).startCmd id q) :=
  congrArg _ ((State.startCtx_of_accepted h hst herr hdue).trans (if_pos hserved))

theorem command_failed {q : CmdEntry} (h : (s.ctx id).cmds = [q]) (hst : q.st = .running) (herr : (s.ctx id).err = false)
    (hid : ∀ g t, id ≠ .local g t) (code addr : Nat) : ∃ t, exec (.engineCommandFail id q.n code addr) s = .next t ∧
      (t.ctx id).err = true ∧ (t.ctx id).failn = q.n ∧ (t.ctx id).code = code ∧ (t.ctx id).failaddr = BitVec.ofNat 64 addr ∧
      (t.ctx id).completed = (s.ctx id).completed ∧ t.mem = s.mem := by
  have hentry := State.ctx_setEntry_same s id q.n (·.endAs .failed)
  have herr0 := (congrArg Ctx.err hentry).trans herr
  refine ⟨_, congrArg Host.Outcome.next ((State.failCmd_of_running h hst code _).trans (State.stopCtx_of_going hid herr0 ..)), ?_⟩
  simp only [State.ctx_setCtx_same, hentry, State.setCtx_mem, State.setEntry_mem, Ctx.setEntry, and_self]

theorem command_completed {q : CmdEntry} {s1 : State} (h : (s.ctx id).cmds = [q]) (hst : q.st = .running) (hsigs : q.sigs = [])
    (herr : (s.ctx id).err = false) (hout : s.cmdOut id q.n = false)
    (htl : (s.setEntry id q.n (·.endAs .done)).engStore id q.cmd .counter 8 q.n (sext57 (s.ctx id).tladdr : Nat) = .ok ((), s1))
    (hcmds : (s1.ctx id).cmds = ((s.setEntry id q.n (·.endAs .done)).ctx id).cmds) :
    ∃ t, exec (.engineCommandComplete id q.n) s = .next t ∧ (t.ctx id).completed = q.n ∧ (t.ctx id).cmds = [] := by
  have hentry := (State.ctx_setEntry_same s id q.n (·.endAs .done)).trans (Ctx.setEntry_of_only h _)
  have hdone := State.advanceCtx_of_done (q := q.endAs .done) (congrArg Ctx.cmds hentry) rfl
    ((congrArg Ctx.err hentry).trans herr) (by rw [hentry]; exact htl)
  refine ⟨_, congrArg Host.Outcome.next ((State.completeCmd_of_ended h hst hsigs hout).trans hdone), ?_⟩
  simp [hcmds, hentry]

end

theorem commandsRun : CommandsRun := by
  intro s id x
  refine ⟨fun q r rest d hq hctx hmay hr hid _ => command_accepted hq hctx hmay hr hid, fun q h hst herr hdue => ⟨fun hno => ?_, fun hserved => ?_⟩,
    fun q code addr h hst herr hid => command_failed h hst herr hid code addr,
    fun q s1 h hst hsigs herr hout htl hcmds => command_completed h hst hsigs herr hout htl hcmds⟩
  · exact congrArg _ ((State.startCtx_of_accepted h hst herr hdue).trans (if_neg (ne_true_of_eq_false hno)))
  · have hexec := command_started h hst herr hdue hserved
    exact ⟨s.takeTurn id q, s.takeTurn_eq id q, s.die_takeTurn id q, fun s1 h1 => hexec.trans (congrArg _ (State.startCmd_of_ok h1)),
      fun s1 h1 => hexec.trans (congrArg _ (State.startCmd_of_wait h1)),
      fun code addr s1 h1 => hexec.trans (congrArg _ (State.startCmd_of_fail h1))⟩

theorem versionAtomics : VersionAtomics := by
  refine ⟨fun v x hv _ => ⟨fun hx => ⟨pinWord_set hv, pinWord_lower hv hx, pinWord_clear⟩, vretWord_fields false v x, vretWord_fields true v x⟩,
    fun s id c n => ⟨s.runCmd_pin id n, s.runCmd_vret id n, fun ra word f ha => ⟨fun hl => State.regionRmw_of_lost word ha hl f, ?_⟩⟩⟩
  intro w1 t s1 hl hbad hread
  exact ⟨fun hw => ⟨_, State.regionRmw_of_reserved word ha hl hbad hread hw f, State.tickSnap_mem _ _ _⟩,
    fun hw old w s2 hrmw => State.regionRmw_of_clear word ha hl hbad hread hw hrmw⟩

/-- Settles O29: each event of a command's life on its context, and the words of the version commands. -/
theorem commandsRunAndSettle : Obligations.CommandsRunAndSettle := ⟨commandsRun, versionAtomics⟩

end Sys2Proof.Claim
end

section
/-! SUPPORT. The roles stand in a walk and in the accesses that a role makes whole. -/
namespace Sys2Proof.Machine

section
variable {s t : State}

@[simp] theorem State.roles_updCore (c : Nat) (f : Core → Core) : (s.updCore c f).roles = s.roles := rfl
@[simp] theorem State.roles_updDie (d : Nat) (f : DieState → DieState) : (s.updDie d f).roles = s.roles := rfl
@[simp] theorem State.roles_raisePts (c n : Nat) : (s.raisePts c n).roles = s.roles := rfl
@[simp] theorem State.roles_tick (n : Nat) : (s.tick n).roles = s.roles := rfl
@[simp] theorem State.roles_fresh : s.fresh.2.roles = s.roles := rfl
@[simp] theorem State.roles_updGang (g : Nat) (f : Gang → Gang) : (s.updGang g f).roles = s.roles := by
  fun_cases State.updGang <;> rfl

@[simp] theorem State.roles_sendMsg (a b : Nat) (i : Instr) : (s.sendMsg a b i).roles = s.roles :=
  State.roles_of_beyondL1 (State.beyondL1_sendMsg a b i)
@[simp] theorem State.roles_readCheck (d line : Nat) : (s.readCheck d line).1.roles = s.roles :=
  State.roles_of_beyondL1 (State.beyondL1_readCheck d line)
@[simp] theorem State.roles_rmwIn (d pa n vmid p : Nat) (f : Nat → Nat) : (s.rmwIn d pa n vmid p f).2.2.roles = s.roles :=
  State.roles_of_beyondL1 (State.beyondL1_rmwIn d pa n vmid p f)
@[simp] theorem State.roles_writeWords (d pa vmid : Nat) (l : List Word) : (s.writeWords d pa vmid l).roles = s.roles :=
  State.roles_of_beyondL1 (State.beyondL1_writeWords d pa vmid l)

theorem State.roles_fill {d : Nat} {l : SliceLine} (h : s.fill d l = some t) : t.roles = s.roles := State.roles_of_beyondL1 (State.beyondL1_fill h)
theorem State.roles_obtain {d line vmid n : Nat} {write : Bool} (h : s.obtain d line vmid write n = some t) : t.roles = s.roles :=
  State.roles_of_beyondL1 (State.beyondL1_obtain h)
@[simp] theorem State.roles_homeCheck (line : Nat) : (s.homeCheck line).1.roles = s.roles := State.roles_of_beyondL1 (State.beyondL1_homeCheck line)
@[simp] theorem State.roles_l2Error (d line : Nat) : (s.l2Error d line).1.roles = s.roles := State.roles_of_beyondL1 (State.beyondL1_l2Error d line)
@[simp] theorem State.roles_claim (line vmid : Nat) : (s.claim line vmid).roles = s.roles := State.roles_of_beyondL1 (State.beyondL1_claim line vmid)

/-- The roles of the state that an opened line, or the lack of one, leaves. -/
def Opened.Roles (rs : Sparse Role) : Opened → Prop
  | .line _ t | .failed t | .noWay t => t.roles = rs
  | .rest => True

theorem State.roles_openFill (d line : Nat) (k : LineKind) (vmid n : Nat) : (s.openFill d line k vmid n).Roles s.roles := by
  unfold State.openFill
  grind [Opened.Roles, State.roles_homeCheck, State.roles_fill]

theorem State.roles_accOpen (line vmid : Nat) : (s.accOpen line vmid).Roles s.roles := by
  unfold State.accOpen
  grind [Opened.Roles, State.roles_openFill, State.roles_l2Error, State.roles_claim]

theorem State.roles_viewOpen (d line vmid : Nat) : (s.viewOpen d line vmid).Roles s.roles := by
  unfold State.viewOpen
  grind [Opened.Roles, State.roles_openFill, State.roles_l2Error, State.roles_claim, State.roles_updDie]

theorem State.roles_readAcc (line vmid p : Nat) : (s.readAcc line vmid p).Roles s.roles := by
  unfold State.readAcc
  grind [Opened.Roles, State.roles_accOpen, State.roles_updDie]

@[simp] theorem State.roles_viewIn (d pa n vmid : Nat) : (s.viewIn d pa n vmid).2.roles = s.roles := by
  unfold State.viewIn
  grind [Opened.Roles, State.roles_viewOpen]

@[simp] theorem State.roles_readIn (d pa n vmid p : Nat) : (s.readIn d pa n vmid p).2.2.roles = s.roles := by
  unfold State.readIn
  grind [Opened.Roles, State.roles_readAcc, State.roles_readCheck, State.roles_obtain, State.roles_updDie]

/-! ### The walk (03 R79-R92) -/

theorem roles_of_snd {α : Type} {x : α × State} {a : α} {rs : Sparse Role} (e : x = (a, t)) (h : x.2.roles = rs) : t.roles = rs := by
  rw [← h, e]

@[simp] theorem State.roles_readPair (d pa p : Nat) : (s.readPair d pa p).2.roles = s.roles := by
  unfold State.readPair
  grind [State.roles_readIn]

@[simp] theorem State.roles_keepEntry (d : Nat) (e : TlbEntry) : (s.keepEntry d e).roles = s.roles := rfl
@[simp] theorem State.roles_countDeny (d vmid : Nat) : (s.countDeny d vmid).roles = s.roles := rfl
@[simp] theorem State.roles_touchFrame (pa : Nat) : (s.touchFrame pa).roles = s.roles := State.roles_of_beyondL1 (State.beyondL1_touchFrame pa)

@[simp] theorem State.roles_useEntry (d vmid asid va k : Nat) (w : Word × Word) : (s.useEntry d vmid asid va k w).2.roles = s.roles := by
  unfold State.useEntry
  grind [State.roles_fresh, State.roles_updDie]

@[simp] theorem State.roles_walkFrom (d vmid asid va p table n k : Nat) : (s.walkFrom d vmid asid va p table n k).2.roles = s.roles := by
  fun_induction State.walkFrom s d vmid asid va p table n k <;> grind only [State.roles_readPair, State.roles_useEntry, State.roles_keepEntry]

@[simp] theorem State.roles_leafWalk (d vmid asid va p : Nat) : (s.leafWalk d vmid asid va p).2.roles = s.roles := by
  fun_cases State.leafWalk <;> grind only [State.roles_readPair, State.roles_walkFrom, State.roles_keepEntry, State.roles_touchFrame]

@[simp] theorem State.roles_leafOf (d vmid asid va p : Nat) : (s.leafOf d vmid asid va p).2.roles = s.roles := by
  fun_cases State.leafOf <;> grind only [State.roles_leafWalk, State.roles_fresh, State.roles_updDie]

/-- The roles of the state in which the reads of a chain end. -/
def ChainRoles (rs : Sparse Role) (x : Except Nat Chain × Nat × State) : Prop := x.2.2.roles = rs

theorem State.chainRoles_thenPair {rs : Sparse Role} {d pa p : Nat} {k : Word → Word → State → Nat → Except Nat Chain × Nat × State} (hs : s.roles = rs)
    (hk : ∀ x y t n, t.roles = rs → ChainRoles rs (k x y t n)) : ChainRoles rs (s.thenPair d pa p k) := by
  have hpair := (s.roles_readPair d pa p).trans hs
  unfold State.thenPair
  split
  next e => exact roles_of_snd e hpair
  next e => exact hk _ _ _ _ (roles_of_snd e hpair)

theorem State.chainRoles_readChainAt (d vmid pa p : Nat) : ChainRoles s.roles (s.readChainAt d vmid pa p) := by
  unfold State.readChainAt
  refine State.chainRoles_thenPair rfl fun _ _ _ _ h1 => State.chainRoles_thenPair h1 fun _ _ _ _ h2 =>
    State.chainRoles_thenPair h2 fun _ _ _ _ h3 => State.chainRoles_thenPair h3 fun _ _ _ _ h4 => ?_
  extract_lets ra slotBad mk
  refine State.chainRoles_thenPair h4 fun _ _ _ _ h5 => ?_
  extract_lets n
  split
  · exact h5
  · exact h5

@[simp] theorem State.roles_readChainAt (d vmid pa p : Nat) : (s.readChainAt d vmid pa p).2.2.roles = s.roles :=
  State.chainRoles_readChainAt d vmid pa p

@[simp] theorem State.roles_homeChecks (d vmid : Nat) (l : Leaf) (pa : Nat) (writes : Bool) :
    (s.homeChecks d vmid l pa writes).2.roles = s.roles := by
  unfold State.homeChecks
  grind [State.roles_countDeny]

@[simp] theorem State.roles_retainedCause (d vmid pa : Nat) : (s.retainedCause d vmid pa).2.roles = s.roles := by
  unfold State.retainedCause
  grind [State.roles_countDeny]

@[simp] theorem State.roles_placeWalk (w : Walker) (n : Nat) : (s.placeWalk w n).roles = s.roles := by
  unfold State.placeWalk
  grind [State.roles_raisePts]

@[simp] theorem State.roles_walk (w : Walker) (a : Acc) (va : Nat) : (s.walk w a va).2.roles = s.roles := by
  fun_cases State.walk <;> grind only [State.roles_leafOf, State.roles_readChainAt, State.roles_placeWalk, State.roles_homeChecks, State.roles_retainedCause]

/-! ### Accesses that a role makes whole (06 R144, 10 R219, R220) -/

@[simp] theorem State.roles_spadPut (g rank off n x : Nat) : (s.spadPut g rank off n x).roles = s.roles := State.roles_updGang ..

@[simp] theorem State.roles_spadCheck (g rank off : Nat) : (s.spadCheck g rank off).1.roles = s.roles := by
  fun_cases State.spadCheck <;> rfl

@[simp] theorem State.roles_spadTime (g rank p : Nat) (write : Bool) : (s.spadTime g rank p write).2.roles = s.roles := State.roles_updGang ..

@[simp] theorem State.roles_spot (r : Role) (a : Acc) (view : Option Nat) (plain : Bool) (va z : Nat) :
    (s.spot r a view plain va z).2.roles = s.roles := by
  fun_cases State.spot <;> grind only [State.roles_walk]

@[simp] theorem State.roles_spotRead (r : Role) (x : Spot) (n : Nat) : (s.spotRead r x n).2.roles = s.roles := by
  fun_cases State.spotRead <;> grind only [State.roles_spadCheck, State.roles_spadTime, State.roles_raisePts, State.roles_viewIn, State.roles_readIn]

@[simp] theorem State.roles_spotRmw (r : Role) (x : Spot) (n : Nat) (f : Nat → Nat) : (s.spotRmw r x n f).2.roles = s.roles := by
  fun_cases State.spotRmw <;> grind only [State.roles_spadCheck, State.roles_spadTime, State.roles_spadPut, State.roles_raisePts, State.roles_rmwIn,
    State.roles_updCore]

@[simp] theorem State.roles_walkSpots (r : Role) (a : Acc) (n : Nat) (l : List Int) : (s.walkSpots r a n l).2.roles = s.roles := by
  fun_induction State.walkSpots s r a n l <;> grind only [State.roles_spot]

@[simp] theorem State.roles_spots (r : Role) (a : Acc) (n align : Nat) (l : List Int) : (s.spots r a n align l).2.roles = s.roles := by
  fun_cases State.spots <;> grind only [State.roles_walkSpots]

@[simp] theorem State.roles_readSpots (r : Role) (n : Nat) (l : List Spot) : (s.readSpots r n l).2.roles = s.roles := by
  fun_induction State.readSpots s r n l <;> grind only [State.roles_spotRead]

@[simp] theorem State.roles_writeSpots (r : Role) (n : Nat) (l : List (Spot × Nat)) : (s.writeSpots r n l).2.roles = s.roles := by
  fun_induction State.writeSpots s r n l <;> grind only [State.roles_spotRmw]

@[simp] theorem State.roles_loadRecord (r : Role) (a : Acc) (va : Int) (k align : Nat) : (s.loadRecord r a va k align).2.roles = s.roles := by
  fun_cases State.loadRecord <;> grind only [State.roles_spots, State.roles_readSpots]

/-! ### The elements of an access, and what a core does for its operations (10 R219, R223; 05 R120) -/

@[simp] theorem State.roles_requestCopy (vmid va w : Nat) (l : Leaf) (d : Nat) : (s.requestCopy vmid va w l d).roles = s.roles := by
  fun_cases State.requestCopy <;> rfl

@[simp] theorem State.roles_walkElem (r : Role) (a : Acc) (view : Option Nat) (plain : Bool) (va z : Nat) :
    (s.walkElem r a view plain va z).2.roles = s.roles := by
  fun_cases State.walkElem <;> grind only [State.roles_spot, State.roles_updCore]

@[simp] theorem State.roles_targetsFrom (r : Role) (a : Acc) (view : Option Nat) (plain : Bool) (z : Nat) (viaL1 : Nat → Option L1Line)
    (pages : List (Nat × Reach)) (es : List ElemReq) : (s.targetsFrom r a view plain z viaL1 pages es).2.2.roles = s.roles := by
  induction es generalizing s pages with
  | nil => rfl
  | cons e es ih =>
    rw [State.targetsFrom]
    grind only [State.roles_walkElem]

@[simp] theorem State.roles_targetsOf (r : Role) (a : Acc) (view : Option Nat) (plain l1 : Bool) (z : Nat) (es : List ElemReq) :
    (s.targetsOf r a view plain l1 z es).2.2.roles = s.roles := State.roles_targetsFrom ..

@[simp] theorem State.roles_l1Check (c line : Nat) : (s.l1Check c line).1.roles = s.roles := by
  fun_cases State.l1Check <;> rfl

@[simp] theorem State.roles_l1Load (c : Nat) (o : Op) (tag : L1Tag) (off : Nat) : (s.l1Load c o tag off).2.roles = s.roles := by
  fun_cases State.l1Load <;> grind only [State.roles_l1Check, State.roles_raisePts, State.roles_updCore, State.setCore_roles]

@[simp] theorem State.roles_askSlots (c n : Nat) (o : Op) (vmid : Nat) : (s.askSlots c n o vmid).roles = s.roles := by
  fun_cases State.askSlots <;> simp

@[simp] theorem State.roles_discardFrom (c rid n : Nat) : (s.discardFrom c rid n).roles = s.roles := rfl
@[simp] theorem State.roles_logQueued (r : Role) (q : LogEntry) : (s.logQueued r q).roles = s.roles := rfl
@[simp] theorem State.roles_discardLog (rid c : Nat) : (s.discardLog rid c).roles = s.roles := rfl
@[simp] theorem State.roles_dropLost (rid : Nat) (r : Role) : (s.dropLost rid r).roles = s.roles := by
  rw [State.dropLost_eq]
@[simp] theorem State.roles_dropPending (r : Role) : (s.dropPending r).roles = s.roles := State.roles_of_beyondL1 (State.beyondL1_dropPending r)

theorem State.roles_writeRecord {r : Role} {f : FaultRec} {d i : Nat} (h : s.writeRecord r f = some (d, i, t)) : t.roles = s.roles :=
  State.roles_of_beyondL1 (State.beyondL1_writeRecord h)

theorem State.roles_foldl {α : Type} (f : State → α → State) (l : List α) (hf : ∀ t a, (f t a).roles = t.roles) (s : State) :
    (l.foldl f s).roles = s.roles :=
  List.foldlRecOn l f (motive := fun t => t.roles = s.roles) rfl fun t ht a _ => (hf t a).trans ht

@[simp] theorem State.roles_sendUpdates (x : Nat) (us : List LineUpdate) : (s.sendUpdates x us).roles = s.roles :=
  State.roles_foldl _ us (fun _ _ => State.roles_sendMsg ..) s

@[simp] theorem State.roles_redElems (r : Role) (rid : Nat) (pc : Word) (op : RedOp) (flow : Word) (ty : Ty) (us : List LineUpdate)
    (l : List (Nat × Nat × Word)) : (s.redElems r rid pc op flow ty us l).2.2.roles = s.roles := by
  fun_induction State.redElems s r rid pc op flow ty us l <;> grind only [State.roles_spot]

@[simp] theorem State.roles_prefetch (r : Role) (ea : Int) (view : Option Nat) (l2only : Bool) : (s.prefetch r ea view l2only).roles = s.roles := by
  fun_cases State.prefetch <;> grind only [State.roles_walk, State.roles_updCore, State.send_roles]

@[simp] theorem State.roles_streamAhead (rid slot pos : Nat) (view : Option Nat) : (s.streamAhead rid slot pos view).roles = s.roles := by
  unfold State.streamAhead
  split
  · rfl
  · split
    · rfl
    · split
      · rfl
      · exact State.roles_foldl _ _ (fun _ _ => State.roles_prefetch ..) s

@[simp] theorem State.roles_readEntries (rid : Nat) (r : Role) (l : List TrackReg) : (s.readEntries rid r l).roles = s.roles := rfl

@[simp] theorem State.roles_tileCheck (r : Role) (l : List (Option Int)) : (s.tileCheck r l).2.roles = s.roles := by
  fun_induction State.tileCheck s r l <;> grind only [State.roles_spadCheck]

@[simp] theorem State.roles_targetHeader (rid : Nat) (r : Role) (a : Word) : (s.targetHeader rid r a).2.roles = s.roles := by
  fun_cases State.targetHeader <;> grind only [State.roles_walk, State.roles_readIn, State.roles_fresh, State.roles_updCore]

end
end Sys2Proof.Machine
end

section
/-! SUPPORT. The roles stand in the writes of the register windows (02 R61) and in the pushes to queues (21 R430, R431). -/
namespace Sys2Proof.Machine

section
variable {s t : State}

/-! ### The register windows -/

@[simp] theorem State.roles_readWords (d pa vmid p n : Nat) : (s.readWords d pa vmid p n).2.2.roles = s.roles := by
  fun_induction State.readWords s d pa vmid p n <;> grind only [State.roles_readIn]

@[simp] theorem State.roles_queueEntry (q : Nat) : (s.queueEntry q).2.roles = s.roles := by
  refine State.queueEntry_cases (P := fun y => y.2.roles = s.roles) fun _ _ t e => ?_
  have hread := State.roles_readWords (s := s) 0 (s.queueAddr q) 0 s.clock 4
  rwa [e] at hread

@[simp] theorem State.roles_writeQueueWord (q k : Nat) (v : Word) : (s.writeQueueWord q k v).roles = s.roles := State.roles_writeWords ..
@[simp] theorem State.roles_setQueueState (q : Nat) (x : QueueState) : (s.setQueueState q x).roles = s.roles := rfl

/-- The roles of a state, as a predicate of it: in an equation of `State.roles` of a read, the kernel would unfold the read. -/
def RolesAre (rs : Sparse Role) (t : State) : Prop := t.roles = rs

theorem State.rolesAre_queueError (q code : Nat) : RolesAre s.roles (s.queueError q code) := by
  rw [State.queueError_eq]
  beta_reduce
  split
  next e => exact (State.signal_roles ..).trans ((State.roles_writeQueueWord ..).trans (roles_of_snd e (State.roles_queueEntry q)))

@[simp] theorem State.roles_queueError (q code : Nat) : (s.queueError q code).roles = s.roles := State.rolesAre_queueError q code

/-- The function itself, for the reason that `queueEntry_cases` gives. -/
theorem State.doorbell_eq : State.doorbell = fun s v =>
    let q := wfield v 32 16
    let (ws, s1) := s.queueEntry q
    let w0 := ws.getD 0 0
    let qs := s1.queueState q
    if !(wbit w0 63) then s1.setQueueState q { qs with mark := false }
    else if qs.mark then s1.queueError q 1
    else
      let w1 := ws.getD 1 0
      if 2 ^ (wfield w0 52 5) < (wfield v 0 32 + 2 ^ 32 - wfield w1 0 32) % 2 ^ 32 then s1.queueError q 1
      else (s1.writeQueueWord q 1 (withField w1 32 32 (wfield v 0 32))).setQueueState q qs := rfl

theorem State.rolesAre_doorbell (v : Word) : RolesAre s.roles (s.doorbell v) := by
  rw [State.doorbell_eq]
  beta_reduce
  extract_lets q
  split
  next s1 e =>
    have hs1 : s1.roles = s.roles := roles_of_snd e (State.roles_queueEntry q)
    extract_lets w0 qs w1
    split
    · exact (State.roles_setQueueState ..).trans hs1
    · split
      · exact (State.roles_queueError ..).trans hs1
      · split
        · exact (State.roles_queueError ..).trans hs1
        · exact (State.roles_setQueueState ..).trans ((State.roles_writeQueueWord ..).trans hs1)

@[simp] theorem State.roles_doorbell (v : Word) : (s.doorbell v).roles = s.roles := State.rolesAre_doorbell v

@[simp] theorem State.roles_attestation (v : Word) : (s.attestation v).roles = s.roles := by
  unfold State.attestation
  extract_lets a
  split
  · rfl
  · split
    next s1 e =>
      have hs1 : s1.roles = s.roles := (congrArg (·.2.2.roles) e).symm.trans (State.roles_readWords ..)
      extract_lets nonce rep words
      clear_value words
      exact (State.roles_writeWords ..).trans hs1

@[simp] theorem State.roles_ctxResume (id : CtxId) (skip : Bool) : (s.ctxResume id skip).roles = s.roles := by
  cases h : (s.ctx id).err with
  | false => simp [State.ctxResume, h]
  | true => exact (s.ctxResume_of_err id skip h).2.2

@[simp] theorem State.roles_writeCtx (id : CtxId) (off : Nat) (v : Word) : (s.writeCtx id off v).roles = s.roles := by
  fun_cases State.writeCtx <;> simp

@[simp] theorem State.roles_writePartition (d off : Nat) (v : Word) : (s.writePartition d off v).roles = s.roles := by
  fun_cases State.writePartition <;> rfl

@[simp] theorem State.roles_dropVmid (vmid : Nat) : (s.dropVmid vmid).roles = s.roles :=
  State.roles_foldl _ _ (fun _ _ => State.roles_of_beyondL1 (State.beyondL1_dropLine ..)) s

@[simp] theorem State.roles_keyCommand (d : Nat) (v : Word) : (s.keyCommand d v).roles = s.roles := by
  fun_cases State.keyCommand <;> simp

@[simp] theorem State.roles_rclear (d : Nat) (v : Word) : (s.rclear d v).roles = s.roles := by
  fun_cases State.rclear <;> rfl

@[simp] theorem State.roles_writeAttrs (d off : Nat) (v : Word) : (s.writeAttrs d off v).roles = s.roles := by
  rw [State.writeAttrs_eq]
  exact (foldl_writeAttrByte_frame d off v _ s).2

@[simp] theorem State.roles_setReg (d off : Nat) (x : Word) : (s.setReg d off x).roles = s.roles := rfl
@[simp] theorem State.roles_writeCons (d : Nat) (v : Word) : (s.writeCons d v).roles = s.roles := rfl
@[simp] theorem State.roles_giveVerdict (d : Nat) (final : Bool) (idx : Nat) : (s.giveVerdict d final idx).roles = s.roles := rfl
@[simp] theorem State.roles_writeMigration (d n : Nat) (v : Word) : (s.writeMigration d n v).roles = s.roles := (s.writeMigration_spec d n v).2.2

@[simp] theorem State.roles_clearCounter (d off : Nat) : (s.clearCounter d off).roles = s.roles := by
  fun_cases State.clearCounter <;> rfl

@[simp] theorem State.roles_writeReg (d off : Nat) (v : Word) : (s.writeReg d off v).roles = s.roles := by
  fun_cases State.writeReg <;> simp +zetaDelta

/-! ### Pushes to queues (19 R399, 21 R430) -/

/-- The roles of the state in which an access of an agent ends. -/
def VRoles {α : Type} (rs : Sparse Role) : Except VStopped (α × State) → Prop
  | .error e => e.2.roles = rs
  | .ok x => x.2.roles = rs

theorem VRoles.bind {α β : Type} {rs : Sparse Role} {x : Except VStopped (α × State)} {f : α × State → Except VStopped (β × State)}
    (hx : VRoles rs x) (hf : ∀ y, y.2.roles = rs → VRoles rs (f y)) : VRoles rs (x >>= f) := by
  cases x with
  | error e => exact hx
  | ok y => exact hf y hx

theorem State.vRoles_vaSpot (w : Walker) (a : Acc) (z : Nat) (ea : Int) : VRoles s.roles (s.vaSpot w a z ea) := by
  fun_cases State.vaSpot <;> grind only [VRoles, State.roles_walk, State.roles_requestCopy]

theorem State.vRoles_vaWriteAt (w : Walker) (m : Reach) (z v : Nat) (addr : Word) : VRoles s.roles (s.vaWriteAt w m z v addr) := by
  fun_cases State.vaWriteAt <;> grind only [VRoles, State.roles_rmwIn, State.roles_tick]

theorem State.vRoles_vaSpots (w : Walker) (a : Acc) (l : List (Int × Nat × Nat)) : VRoles s.roles (s.vaSpots w a l) := by
  induction l generalizing s with
  | nil => exact rfl
  | cons x l ih => exact (State.vRoles_vaSpot ..).bind fun y hy => (hy ▸ ih).bind fun _ hz => hz

theorem State.vRoles_vaStoreAt (w : Walker) (l : List (Reach × Int × Nat × Nat)) : VRoles s.roles (s.vaStoreAt w l) := by
  induction l generalizing s with
  | nil => exact rfl
  | cons x l ih => exact (State.vRoles_vaWriteAt ..).bind fun y hy => hy ▸ ih

theorem State.vRoles_vaStores (w : Walker) (a : Acc) (l : List (Int × Nat × Nat)) : VRoles s.roles (s.vaStores w a l) :=
  (State.vRoles_vaSpots ..).bind fun _ hy => hy ▸ State.vRoles_vaStoreAt ..

@[simp] theorem State.roles_setSpawn (x : Spawn) : (s.setSpawn x).roles = s.roles := by
  fun_cases State.setSpawn <;> rfl

theorem State.vRoles_writePush (w : Walker) (a : Acc) (q : SpawnQ) (p : Push) : VRoles s.roles (s.writePush w a q p) :=
  (State.vRoles_vaStores ..).bind fun _ hy => (State.roles_setSpawn _).trans hy

@[simp] theorem State.roles_park (q : SpawnQ) (vmid asid : Nat) (p : Push) : (s.park q vmid asid p).roles = s.roles := State.roles_setSpawn _

theorem State.roles_physCause {d pa vmid c : Nat} (h : s.physCause d pa vmid = some (c, t)) : t.roles = s.roles := by
  unfold State.physCause at h
  grind only [State.roles_readCheck]

@[simp] theorem State.roles_pushPacket (r : Role) (q : Nat) (e packet : List Word) : (s.pushPacket r q e packet).roles = s.roles := by
  simp [State.pushPacket]

end
end Sys2Proof.Machine
end

section
/-! SUPPORT. What a role may become while it issues a word outside handler mode: its VMID, ASID, handler entry, stack area and place stand, and where it
is in handler mode it stands at its handler entry (09 R210, 20 R406, R408, R409). One lemma for each operation of the model that changes roles. -/
namespace Sys2Proof.Machine

/-! ### One role -/

/-- What no word outside handler mode changes of its role: VMID, ASID, TVEC, the stack area, and its place. -/
def Role.identity (r : Role) : Nat × Nat × Word × Word × Nat × Nat × Nat × Nat × Nat × Nat :=
  (r.vmid, r.asid, r.tvec, r.rsbase, r.limit, r.gang, r.core, r.slot, r.nlanes, r.budget)

/-- Outside handler mode with an identity. -/
structure Role.User (r q : Role) : Prop where
  identity : q.identity = r.identity
  handler : q.handler = false

/-- The role has the identity of `r`, and stands at the handler entry of `r` where it is in handler mode. -/
structure Role.MayBecome (r q : Role) : Prop where
  identity : q.identity = r.identity
  entered : q.handler = true → q.pc = r.tvec ∧ r.tvec ≠ 0 ∧ q.clause = none

section
variable {r p q : Role}

theorem Role.MayBecome.frame (h : r.MayBecome p) (hi : q.identity = p.identity) (hh : q.handler = p.handler) (hpc : q.pc = p.pc)
    (hc : p.clause = none → q.clause = none) : r.MayBecome q where
  identity := hi.trans h.identity
  entered hq := by
    obtain ⟨hp, ht, hn⟩ := h.entered (hh ▸ hq)
    exact ⟨hpc.trans hp, ht, hc hn⟩

theorem Role.MayBecome.holdAt (h : r.MayBecome p) (x : Hold) : r.MayBecome (p.holdAt x) := h.frame rfl rfl rfl id

@[simp] theorem Role.identity_advance (r : Role) : r.advance.identity = r.identity := by
  rw [Role.advance_eq]
  rfl

@[simp] theorem Role.handler_advance (r : Role) : r.advance.handler = r.handler := by
  rw [Role.advance_eq]

theorem Role.advance_of_no_clause (h : r.clause = none) : r.advance = r.settle := by
  rw [Role.advance, h]

/-- A role that has been trapped has no clause, so that a move past its word leaves it at its handler. -/
theorem Role.MayBecome.advance (h : r.MayBecome p) : r.MayBecome p.advance where
  identity := (Role.identity_advance p).trans h.identity
  entered hq := by
    obtain ⟨hp, ht, hn⟩ := h.entered ((Role.handler_advance p).symm.trans hq)
    rw [Role.advance_of_no_clause hn]
    exact ⟨hp, ht, hn⟩

theorem Role.MayBecome.tvec (h : r.MayBecome p) : p.tvec = r.tvec := congrArg (fun x => x.2.2.1) h.identity

theorem Role.MayBecome.enterHandler (h : r.MayBecome p) (ht : p.tvec ≠ 0) (c a pc : Word) : r.MayBecome (p.enterHandler c a pc) where
  identity := h.identity
  entered _ := ⟨h.tvec, h.tvec ▸ ht, rfl⟩

theorem Role.User.mayBecome (h : r.User q) : r.MayBecome q where
  identity := h.identity
  entered hq := absurd hq (by simp [h.handler])

theorem Role.User.refl (h : r.handler = false) : r.User r := ⟨rfl, h⟩

theorem Role.User.frame (h : r.User p) (hi : q.identity = p.identity) (hh : q.handler = p.handler) : r.User q :=
  ⟨hi.trans h.identity, hh.trans h.handler⟩

theorem Role.User.advance (h : r.User p) : r.User p.advance := h.frame (Role.identity_advance p) (Role.handler_advance p)
theorem Role.User.goto (h : r.User p) (t : Word) : r.User (p.goto t) := h.frame rfl rfl
theorem Role.User.holdAt (h : r.User p) (x : Hold) : r.User (p.holdAt x) := h.frame rfl rfl
theorem Role.User.setMask (h : r.User p) (n : Nat) (m : LaneMask) : r.User (p.setMask n m) := h.frame rfl rfl
theorem Role.User.setSreg (h : r.User p) (n : Nat) (x : Word) : r.User (p.setSreg n x) := h.frame rfl rfl
theorem Role.User.bindSlot (h : r.User p) (w : Nat) (ds : List RegName) : r.User (p.bindSlot w ds) := h.frame rfl rfl
theorem Role.User.slotDone (h : r.User p) (w : Nat) : r.User (p.slotDone w) := h.frame rfl rfl

/-- A move past the word, with effects on other registers. -/
theorem Role.User.onward (h : r.User p) (hi : q.identity = p.identity) (hh : q.handler = p.handler) : r.MayBecome q.advance :=
  (h.frame hi hh).advance.mayBecome

theorem Role.User.become (h : r.User p) (hi : q.identity = p.identity) (hh : q.handler = p.handler) : r.MayBecome q := (h.frame hi hh).mayBecome

theorem Role.User.overwrite (h : r.User p) (place n x : Nat) : r.User (p.overwrite place n x) := by
  obtain ⟨sp, hsp⟩ := p.overwrite_eq place n x
  rw [hsp]
  exact h.frame rfl rfl

/-- The end of an operation writes registers and slots alone. -/
theorem Role.MayBecome.deliver (h : r.MayBecome p) (o : Op) : r.MayBecome (o.deliver p) := by
  cases hd : o.dst with
  | none =>
    unfold Op.deliver
    rw [hd]
    dsimp only
    split
    · exact h
    · exact h.frame rfl rfl rfl id
  | some d =>
    rw [Op.frame_deliver hd]
    exact h.frame rfl rfl rfl id

end

/-! ### The state -/

/-- Whatever role `k` has become, `r` may become it. -/
structure RightsKept (r : Role) (k : Nat) (s : State) : Prop where
  kept : ∀ q, s.role? k = some q → r.MayBecome q

section
variable {r p q : Role} {k rid : Nat} {s t : State}

theorem RightsKept.frame (h : RightsKept r k s) (hr : t.roles = s.roles) : RightsKept r k t :=
  ⟨fun q hq => h.kept q (by rwa [State.role?, hr] at hq)⟩

/-- What a word makes of its own role is what the role has become, whatever it has done before. -/
theorem rightsKept_setRole (hq : r.MayBecome q) : RightsKept r k (s.setRole k q) := by
  refine ⟨fun x hx => ?_⟩
  rw [State.role?_setRole_same, Option.some.injEq] at hx
  exact hx ▸ hq

theorem RightsKept.setRole_of (h : RightsKept r k s) (hp : s.role? rid = some p) (hf : r.MayBecome p → r.MayBecome q) :
    RightsKept r k (s.setRole rid q) := by
  by_cases hk : k = rid
  · subst hk
    exact rightsKept_setRole (hf (h.kept p hp))
  · refine ⟨fun x hx => h.kept x ?_⟩
    rwa [State.role?_setRole_other _ _ _ _ hk] at hx

theorem RightsKept.setRole (h : RightsKept r k s) (hq : r.MayBecome q) : RightsKept r k (s.setRole rid q) := by
  by_cases hk : k = rid
  · subst hk
    exact rightsKept_setRole hq
  · refine ⟨fun x hx => h.kept x ?_⟩
    rwa [State.role?_setRole_other _ _ _ _ hk] at hx

theorem RightsKept.updRole (h : RightsKept r k s) {f : Role → Role} (hf : ∀ p, r.MayBecome p → r.MayBecome (f p)) :
    RightsKept r k (s.updRole rid f) := by
  unfold State.updRole
  split
  · exact h
  next p hp => exact h.setRole_of hp (hf p)

theorem RightsKept.advance (h : RightsKept r k s) : RightsKept r k (s.updRole rid Role.advance) := h.updRole fun _ hp => hp.advance
theorem RightsKept.holdRole (h : RightsKept r k s) (x : Hold) : RightsKept r k (s.holdRole rid x) := h.updRole fun _ hp => hp.holdAt x

theorem RightsKept.foldl {α : Type} {f : State → α → State} {l : List α} (h : RightsKept r k s) (hf : ∀ t a, RightsKept r k t → RightsKept r k (f t a)) :
    RightsKept r k (l.foldl f s) :=
  List.foldlRecOn l f (motive := RightsKept r k) h fun t ht a _ => hf t a ht

/-! ### Ends of roles, and traps (20 R405-R412, R428) -/

theorem RightsKept.endRole (h : RightsKept r k s) : RightsKept r k (s.endRole rid) := by
  unfold State.endRole
  split
  · exact h
  next p hp =>
    split
    · exact h
    · extract_lets s1
      have hpending : (s.dropPending p).role? rid = some p := by rw [State.role?, State.roles_dropPending, ← State.role?, hp]
      have hs1 : RightsKept r k s1 := (h.frame (State.roles_dropPending p)).setRole_of hpending fun hb => hb.frame rfl rfl rfl fun _ => rfl
      split
      · exact hs1.frame rfl
      · exact hs1

theorem RightsKept.endRoles (h : RightsKept r k s) (l : List (Nat × Role)) : RightsKept r k (s.endRoles l) :=
  h.foldl fun _ _ ht => (ht.frame (State.roles_discardLog _ _)).endRole

theorem RightsKept.abortGang (h : RightsKept r k s) (cause : Nat) (addr pc : Word) : RightsKept r k (s.abortGang rid cause addr pc) := by
  unfold State.abortGang
  split
  · exact h
  next p hp =>
    split
    · exact h.setRole_of hp fun hb => hb.holdAt _
    next s1 hrec =>
      have hs1 : RightsKept r k (s1.updGang p.gang fun g => { g with noDone := true }) :=
        h.frame ((State.roles_updGang _ _).trans (State.roles_writeRecord hrec))
      exact (hs1.endRoles _).frame rfl

theorem RightsKept.trapWith (h : RightsKept r k s) (cause : Nat) (logged final rec : Bool) (die ridx : Nat) (addr pc : Word) :
    RightsKept r k (s.trapWith rid cause logged final rec die ridx addr pc) := by
  obtain ⟨-, ht⟩ | ⟨p, -, -, ht⟩ | ⟨p, hp, -, htvec, ht⟩ := s.trapWith_cases rid cause logged final rec die ridx addr pc
  · rwa [ht]
  · rw [ht]
    exact h.abortGang cause addr pc
  · rw [ht]
    have hlost : (s.dropLost rid p).role? rid = some p := by rw [State.role?, State.roles_dropLost, ← State.role?, hp]
    exact (h.frame (State.roles_dropLost rid p)).setRole_of hlost fun hb => hb.enterHandler htvec _ _ _

theorem RightsKept.trap (h : RightsKept r k s) (cause : Nat) (addr : Word) : RightsKept r k (s.trap rid cause addr) := by
  unfold State.trap
  split
  · exact h
  · exact h.trapWith ..

theorem RightsKept.loadFault (h : RightsKept r k s) (cause : Nat) (addr pc : Word) (wr : Bool) :
    RightsKept r k (s.loadFault rid cause addr pc wr) := by
  unfold State.loadFault
  split
  · exact h
  next p hp =>
    split
    · exact h.trapWith ..
    · exact h.abortGang ..
    · split
      · exact h.setRole_of hp fun hb => hb.holdAt _
      next s1 hrec =>
        have hs1 := State.roles_writeRecord hrec
        have hp1 : s1.role? rid = some p := by rw [State.role?, hs1, ← State.role?, hp]
        exact (h.frame hs1).setRole_of hp1 fun hb => hb.holdAt _

theorem RightsKept.loadStop (h : RightsKept r k s) (res : WalkRes) (addr pc : Word) (wr : Bool) : RightsKept r k (s.loadStop rid res addr pc wr) := by
  unfold State.loadStop
  split
  · exact h.holdRole _
  · exact h.loadFault ..
  · exact h.holdRole _

theorem RightsKept.stopRole (h : RightsKept r k s) (e : Stop × Word) (wr : Bool) : RightsKept r k (s.stopRole rid e wr) := by
  unfold State.stopRole
  split
  · exact h
  · split
    · exact h.trap ..
    · exact h.loadStop ..

theorem RightsKept.finalReport (h : RightsKept r k s) (c : Nat) (e : LogEntry) (cause : Nat) : RightsKept r k (s.finalReport c e cause) :=
  ((h.frame (State.roles_discardFrom _ _ _)).updRole (f := fun p => { p with pend := p.pend ++ [_] }) fun _ hp => hp.frame rfl rfl rfl id).frame rfl

theorem RightsKept.logFault (h : RightsKept r k s) (hp : r.MayBecome p) (cause : Nat) (q : LogEntry) : RightsKept r k (s.logFault p cause q) := by
  unfold State.logFault
  extract_lets c e addr
  split
  · exact h.setRole (hp.holdAt _)
  · split
    · exact h.frame rfl
    · exact RightsKept.finalReport (s := s.addEntry p.core e) (h.frame rfl) p.core e cause
    · exact h.abortGang ..
    · split
      · exact h.setRole (hp.holdAt _)
      next hrec =>
        have hs1 := State.roles_writeRecord hrec
        exact h.frame hs1

/-! ### Operations of a core go on (06 R143-R146) -/

theorem RightsKept.dropLoad (h : RightsKept r k s) (c n : Nat) (o : Op) : RightsKept r k (s.dropLoad c n o) := by
  unfold State.dropLoad
  refine RightsKept.updRole (s := s.updCore c fun k => k.dropOp n) (h.frame rfl) fun p hp => ?_
  split
  · exact hp.frame rfl rfl rfl id
  · exact hp.frame rfl rfl rfl id

theorem RightsKept.failOp (h : RightsKept r k s) (c n : Nat) (o : Op) (cause : Nat) (addr : Word) : RightsKept r k (s.failOp c n o cause addr) := by
  unfold State.failOp
  have hdrop := h.dropLoad c n o
  split
  · exact hdrop
  · split
    · exact hdrop
    · split
      · split
        · exact h.frame rfl
        · exact hdrop.abortGang ..
      · exact hdrop.trapWith ..
      · extract_lets put
        split
        · exact h.frame rfl
        next hrec =>
          have hs1 := State.roles_writeRecord hrec
          exact h.frame hs1

theorem RightsKept.finishOp (h : RightsKept r k s) (c n : Nat) (o : Op) : RightsKept r k (s.finishOp c n o) := by
  have hs1 : RightsKept r k (s.updCore c fun k => k.dropOp n) := h.frame rfl
  exact hs1.updRole (f := o.deliver) fun _ hp => hp.deliver o

theorem RightsKept.rewalkSlots (h : RightsKept r k s) (c n : Nat) (o : Op) (p : Role) : RightsKept r k (s.rewalkSlots c n o p) := by
  unfold State.rewalkSlots
  extract_lets va put
  have hspot := h.frame (State.roles_spot (s := s) p .accRead none false va 16)
  split
  next e =>
    rw [e] at hspot
    exact hspot.frame (State.roles_askSlots ..)
  next e =>
    rw [e] at hspot
    exact hspot.failOp ..
  next e =>
    rw [e] at hspot
    exact hspot.failOp ..
  next e =>
    rw [e] at hspot
    exact hspot.frame rfl

theorem RightsKept.rewalk (h : RightsKept r k s) (c n : Nat) (o : Op) : RightsKept r k (s.rewalk c n o) := by
  unfold State.rewalk
  split
  · exact h
  · extract_lets p es put
    split
    · exact h.rewalkSlots ..
    · have htargets :=
  h.frame (State.roles_targetsOf (s := s) p (if o.kind == .atomic then .atomic else .load) o.view (o.ty.bytes = 8 && o.cls == .ordinary)
        false o.ty.bytes es)
      split
      next e =>
        rw [e] at htargets
        exact htargets.frame rfl
      next e =>
        rw [e] at htargets
        extract_lets va
        split
        · exact htargets.failOp ..
        · exact htargets.frame (State.roles_requestCopy ..)
        · exact htargets.frame rfl

theorem RightsKept.pumpOp (h : RightsKept r k s) (c n fuel : Nat) (o : Op) : RightsKept r k (s.pumpOp c n fuel o) := by
  induction fuel generalizing s o with
  | zero => exact h.frame rfl
  | succ fuel ih =>
    rw [State.pumpOp]
    split
    · exact h.finishOp ..
    · extract_lets keep write
      split
      · split
        · exact ih (h.frame (State.roles_writeReg ..)) _
        · exact ih h _
      · exact h.frame rfl
      next line off tag perm view acc _ =>
        split
        · exact h.frame rfl
        · have hload : RightsKept r k (if acc then (none, s) else s.l1Load c o tag off).2 := by
            split
            · exact h
            · exact h.frame (State.roles_l1Load ..)
          split
          next e =>
            rw [e] at hload
            exact ih hload _
          next e =>
            rw [e] at hload
            extract_lets bad old s1
            have hs1 : RightsKept r k s1 := by
              unfold s1
              split
              · exact hload.frame rfl
              · exact hload
            exact hs1.frame rfl

theorem RightsKept.pump (h : RightsKept r k s) (c : Nat) : RightsKept r k (s.pump c) := by
  refine h.foldl fun t a ht => ?_
  split
  · split
    · exact ht.rewalk ..
    · split
      · exact ht.pumpOp ..
      · exact ht
  · exact ht

end
end Sys2Proof.Machine
end

section
/-! SUPPORT. The rights stand over the words of memory (10 R220-R243): a role that issues one outside handler mode keeps its identity, and is in handler
mode after it by a trap alone (09 R210). -/
namespace Sys2Proof.Machine

/-- The role issues outside handler mode. -/
structure UserIssues (s : State) (r : Role) : Prop where
  issuing : s.role? s.cur = some r
  handler : r.handler = false

/-- Where there is a next state, `r` may have become what role `k` is in it. -/
def OutRights (r : Role) (k : Nat) : Out → Prop
  | .next t => RightsKept r k t
  | _ => True

/-- A role outside handler mode with the identity, and the rights kept. -/
def UserKept (r : Role) (k : Nat) (x : Role × State) : Prop := r.User x.1 ∧ RightsKept r k x.2

section
variable {r q : Role} {k rid : Nat} {s : State}

theorem UserIssues.user (h : UserIssues s r) : r.User r := .refl h.handler

theorem UserIssues.kept (h : UserIssues s r) : RightsKept r s.cur s := by
  refine ⟨fun q hq => ?_⟩
  rw [h.issuing, Option.some.injEq] at hq
  exact hq ▸ h.user.mayBecome

theorem UserIssues.onRole (h : UserIssues s r) {f : Nat → Role → State} (hf : RightsKept r s.cur (f s.cur r)) : OutRights r s.cur (onRole s f) := by
  rw [onRole_next s f r h.issuing]
  exact hf

theorem UserIssues.wordStep (h : UserIssues s r) {f : Role → Role} (hf : r.User (f r)) : OutRights r s.cur (wordStep s f) :=
  h.onRole (rightsKept_setRole hf.mayBecome)

/-! ### Operations that begin, and stores that are logged -/

theorem RightsKept.startOp (h : RightsKept r k s) (hq : r.MayBecome q) (o : Op) : RightsKept r k (s.startOp k q o) := by
  unfold State.startOp
  extract_lets n s1 r1
  have hs1 : RightsKept r k s1 := h.frame rfl
  have hr1 : r.MayBecome r1 := by
    unfold r1
    split
    · split
      · exact hq
      · exact hq.frame rfl rfl rfl id
    · exact hq
  exact (hs1.setRole hr1.advance).pump _

theorem RightsKept.issueLoad (h : RightsKept r k s) (hq : r.User q) {fix : Role → Role} (hfix : r.User (fix q)) (ty : Ty) (cls : AccClass) (view : Option Nat)
    (d : RegName) (ws : Nat) (es : List ElemReq) (got : List (Nat × Word)) (undo : Option (Nat × Nat)) :
    RightsKept r k (s.issueLoad k q ty cls view d ws es got undo fix) := by
  unfold State.issueLoad
  extract_lets z
  have htargets := h.frame (State.roles_targetsOf (s := s) q .load view (z = 8 && cls == .ordinary) true z es)
  split
  · exact h.trap ..
  · split
    · exact h.setRole hq.advance.mayBecome
    · split
      · exact h.setRole (hq.holdAt _).mayBecome
      · split
        · exact h.setRole (hq.holdAt _).mayBecome
        · split
          next e =>
            rw [e] at htargets
            exact htargets.loadStop ..
          next e =>
            rw [e] at htargets
            exact htargets.startOp hfix.mayBecome _

theorem RightsKept.issueStore (h : RightsKept r k s) (hq : r.User q) {fix : Role → Role} (hfix : ∀ p, r.MayBecome p → r.MayBecome (fix p)) (ty : Ty)
    (cls : AccClass) (es : List ElemReq) : RightsKept r k (s.issueStore k q ty cls es fix) := by
  unfold State.issueStore
  extract_lets z raw body
  split
  · exact h.setRole (hfix _ hq.mayBecome).advance
  next e0 l =>
    have htargets := h.frame (State.roles_targetsOf (s := s) q .store none (z = 8 && cls == .ordinary) true z (e0 :: l))
    split
    · split
      · exact h.trap ..
      · split
        · exact h.setRole (hq.holdAt _).mayBecome
        · exact (h.frame (State.roles_logQueued _ _)).updRole fun p hp => (hfix p hp).advance
    · split
      next e =>
        rw [e] at htargets
        exact htargets.startOp (hfix _ hq.mayBecome) _
      next e =>
        rw [e] at htargets
        extract_lets addr s2 n base s3
        have hs2 : RightsKept r k s2 := by
          unfold s2
          split
          · exact htargets.frame (State.roles_requestCopy ..)
          · exact htargets
        have hs3 : RightsKept r k s3 := hs2.logFault hq.mayBecome _ _
        split
        · exact hs3
        · split
          next p hp =>
            split
            · exact hs3.setRole (hfix _ (hs3.kept p hp)).advance
            · exact hs3.startOp (hfix _ (hs3.kept p hp)) _
          · exact hs3

theorem RightsKept.deniedTrap (h : RightsKept r k s) (pc : Word) (cause : Nat) (addr : Word) (mask : LaneMask) :
    RightsKept r k (s.deniedTrap k pc cause addr mask) := by
  unfold State.deniedTrap
  split
  · exact h
  · split
    · exact h
    next hrec => exact (h.frame (State.roles_writeRecord hrec)).trapWith ..

theorem RightsKept.storeSome (h : RightsKept r k s) (hq : r.User q) (ty : Ty) (cls : AccClass) (es : List ElemReq)
    (denied : Option (Nat × Word × LaneMask)) : RightsKept r k (s.storeSome k q ty cls es denied) := by
  have hstore : RightsKept r k (s.issueStore k q ty cls es id) := h.issueStore hq (fun _ hp => hp) ty cls es
  unfold State.storeSome
  split
  · exact hstore
  · split
    · exact h.setRole (hq.holdAt _).mayBecome
    · extract_lets s1
      split
      · exact hstore
      · exact hstore.deniedTrap ..

end

/-! ### The words of memory -/

section
variable {r : Role} {s : State}

theorem UserIssues.loadM (h : UserIssues s r) (o : FmtM) (ea : Role → Except Word Int) : OutRights r s.cur (loadM o ea s) := by
  refine h.onRole ?_
  split
  · exact h.kept.trap ..
  · exact h.kept.issueLoad h.user (fix := id) h.user ..

theorem UserIssues.storeM (h : UserIssues s r) (o : FmtM) (ea : Role → Except Word Int) : OutRights r s.cur (storeM o ea s) := by
  refine h.onRole ?_
  split
  · exact h.kept.trap ..
  · extract_lets es
    split
    · exact h.kept.trap ..
    · exact h.kept.issueStore h.user (fun _ hp => hp) ..

theorem UserIssues.execSpset (h : UserIssues s r) (o : FmtM) : OutRights r s.cur (execSpset o s) := by
  refine h.onRole ?_
  extract_lets ea
  have hrecord := h.kept.frame (State.roles_loadRecord (s := s) r .load ea 8 64)
  split
  · exact h.kept.trap ..
  · split
    · exact rightsKept_setRole (h.user.holdAt _).mayBecome
    · split
      · exact rightsKept_setRole (h.user.holdAt _).mayBecome
      · split
        next e =>
          rw [e] at hrecord
          exact hrecord.stopRole ..
        next e =>
          rw [e] at hrecord
          split
          · exact hrecord.trap ..
          · exact hrecord.setRole (h.user.onward rfl rfl)

theorem UserIssues.execPref (h : UserIssues s r) (o : FmtM) : OutRights r s.cur (execPref o s) :=
  h.onRole (h.kept.frame (State.roles_prefetch ..)).advance

theorem UserIssues.streamWord (h : UserIssues s r) (o : FmtM) (acc : Acc) (op : ElemOp)
    {f : State → Nat → Role → Stream → List ElemReq → List Nat → Nat → State}
    (hf : ∀ x es past pos, RightsKept r s.cur (f s s.cur r x es past pos)) : OutRights r s.cur (streamWord o acc op f s) := by
  refine h.onRole ?_
  extract_lets ls
  split
  · exact rightsKept_setRole h.user.advance.mayBecome
  · split
    · exact h.kept.trap ..
    · split
      split
      · exact h.kept.trap ..
      · split
        · exact hf ..
        · exact h.kept.trap ..

theorem UserIssues.execLdsp (h : UserIssues s r) (o : FmtM) : OutRights r s.cur (execLdsp o s) :=
  h.streamWord o .load .load fun x _ _ pos =>
    (h.kept.issueLoad h.user (fix := fun q => q.atPos (slotM o) x pos) (h.user.frame rfl rfl) ..).frame (State.roles_streamAhead ..)

theorem UserIssues.execStsp (h : UserIssues s r) (o : FmtM) : OutRights r s.cur (execStsp o s) :=
  h.streamWord o .store .store fun x _ _ pos =>
    h.kept.issueStore h.user (fix := fun q => q.atPos (slotM o) x pos) (fun _ hp => hp.frame rfl rfl rfl id) ..

theorem UserIssues.execGath (h : UserIssues s r) (o : FmtMA) : OutRights r s.cur (execGath o s) :=
  h.onRole (h.kept.issueLoad h.user (fix := id) h.user ..)

theorem UserIssues.execScat (h : UserIssues s r) (o : FmtMA) : OutRights r s.cur (execScat o s) := h.onRole (h.kept.storeSome h.user ..)
theorem UserIssues.execStmc (h : UserIssues s r) (o : FmtMA) : OutRights r s.cur (execStmc o s) := h.onRole (h.kept.storeSome h.user ..)

theorem UserIssues.atomMA (h : UserIssues s r) (o : FmtMA) (op : Role → Nat → ElemOp) : OutRights r s.cur (atomMA o op s) := by
  refine h.onRole ?_
  extract_lets z es
  have htargets := h.kept.frame (State.roles_targetsOf (s := s) r .atomic none false false z es)
  split
  · exact rightsKept_setRole h.user.advance.mayBecome
  · split
    · exact rightsKept_setRole (h.user.holdAt _).mayBecome
    · split
      · exact h.kept.trap ..
      · split
        next e =>
          rw [e] at htargets
          extract_lets a s2
          have hs2 : RightsKept r s.cur s2 := by
            unfold s2
            split
            · exact htargets.frame (State.roles_requestCopy ..)
            · exact htargets
          exact hs2.loadStop ..
        next e =>
          rw [e] at htargets
          exact htargets.startOp h.user.mayBecome _

theorem UserIssues.execRed (h : UserIssues s r) (o : FmtMA) : OutRights r s.cur (execRed o s) := by
  refine h.onRole ?_
  extract_lets flow es raw
  have helems := h.kept.frame (State.roles_redElems (s := s) r s.cur r.ipc (redOpOf o.op) flow o.ty [] raw)
  split
  · exact h.kept.trap ..
  · split
    · exact rightsKept_setRole (h.user.holdAt _).mayBecome
    · split
      · exact rightsKept_setRole (h.user.holdAt _).mayBecome
      · split
        · exact rightsKept_setRole h.user.advance.mayBecome
        next e =>
          rw [e] at helems
          extract_lets s2
          have hs2 : RightsKept r s.cur s2 := helems.logFault h.user.mayBecome _ _
          split
          · exact hs2
          · exact (hs2.frame (State.roles_sendUpdates ..)).advance

/-! ### Counters and fences -/

theorem RightsKept.counterSpot {k : Nat} {q : Role} (h : RightsKept r k s) (hq : r.User q) (ea : Int) (wr : Bool) :
    Ends (RightsKept r k) (fun x => RightsKept r k x.2) (s.counterSpot k q ea wr) := by
  unfold State.counterSpot
  have hspot := h.frame (State.roles_spot (s := s) q .counter none false ea.toNat 8)
  split
  · exact h.setRole (hq.holdAt _).mayBecome
  · split
    · exact h.trap ..
    · split
      · exact h.setRole (hq.holdAt _).mayBecome
      · split
        next e =>
          rw [e] at hspot
          exact hspot.loadStop ..
        next e =>
          rw [e] at hspot
          exact hspot

theorem UserIssues.control' (h : UserIssues s r) {f : Nat → Role → Except State State} (hf : Ends (RightsKept r s.cur) (RightsKept r s.cur) (f s.cur r)) :
    OutRights r s.cur (execCadd.control' s f) := by
  refine h.onRole ?_
  split
  next e =>
    rw [e] at hf
    exact hf
  next e =>
    rw [e] at hf
    exact hf

theorem UserIssues.execCadd (h : UserIssues s r) (o : FmtMA) : OutRights r s.cur (execCadd o s) := by
  refine h.control' ?_
  extract_lets ea inc
  split
  · exact rightsKept_setRole (h.user.holdAt _).mayBecome
  · refine (h.kept.counterSpot h.user ea true).bind fun ⟨x, s1⟩ hs1 => ?_
    dsimp -zeta only
    have hrmw := hs1.frame (State.roles_spotRmw (s := s1) r x 8 (· + inc))
    split
    · exact hs1.trap ..
    · split
      next e => exact rightsKept_setRole (h.user.overwrite ..).advance.mayBecome
      next e =>
        rw [e] at hrmw
        exact hrmw.loadFault ..

theorem rightsKept_acquire {k : Nat} {q : Role} (hq : r.User q) (d : RegName) (ws v : Nat) : RightsKept r k (s.acquire k q d ws v) :=
  rightsKept_setRole (((hq.setSreg d.num (BitVec.ofNat 64 v)).bindSlot ws [d]).slotDone ws |>.onward rfl rfl)

theorem RightsKept.readCounter {k : Nat} {q : Role} (h : RightsKept r k s) (hq : r.User q) (x : Spot) (ea : Int) (d : RegName) (ws : Nat) :
    RightsKept r k (s.readCounter k q x ea d ws) := by
  unfold State.readCounter
  have hrmw := h.frame (State.roles_spotRmw (s := s) q x 8 id)
  split
  · exact rightsKept_acquire hq ..
  next e =>
    rw [e] at hrmw
    exact hrmw.loadFault ..

theorem RightsKept.waitCounter {k : Nat} {q : Role} (h : RightsKept r k s) (hq : r.User q) (ea : Int) (target : Nat) (d : RegName) (ws : Nat) :
    RightsKept r k (s.waitCounter k q ea target d ws) := by
  unfold State.waitCounter
  have hspot := h.counterSpot hq ea true
  split
  next e =>
    rw [e] at hspot
    exact hspot
  next e =>
    rw [e] at hspot
    split
    · exact RightsKept.setRole hspot (hq.holdAt _).mayBecome
    · exact RightsKept.readCounter hspot hq ..

theorem UserIssues.execCwait (h : UserIssues s r) (o : FmtMA) : OutRights r s.cur (execCwait o s) :=
  h.onRole (h.kept.waitCounter h.user ..)

theorem UserIssues.execCread (h : UserIssues s r) (o : FmtMA) : OutRights r s.cur (execCread o s) := by
  refine h.onRole ?_
  extract_lets ea
  have hspot := h.kept.counterSpot h.user ea false
  split
  next e =>
    rw [e] at hspot
    exact hspot
  next x s1 e =>
    rw [e] at hspot
    have hread := RightsKept.frame hspot (State.roles_spotRead (s := s1) r x 8)
    split
    · exact rightsKept_acquire h.user ..
    next e1 =>
      rw [e1] at hread
      exact hread.loadFault ..

theorem UserIssues.execTlwait (h : UserIssues s r) (o : FmtQ) : OutRights r s.cur (execTlwait o s) := by
  refine h.onRole ?_
  generalize r.queues.find o.q.toNat = x
  match x with
  | some (.shared _ _) | some .localCtx => exact h.kept.waitCounter h.user ..
  | some .composer | some .encoder | none => exact h.kept.trap ..

theorem UserIssues.execFence (h : UserIssues s r) (o : FmtM) : OutRights r s.cur (execFence o s) := by
  refine h.onRole ?_
  split
  · exact rightsKept_setRole (h.user.holdAt _).mayBecome
  · split
    · exact rightsKept_setRole (h.user.onward rfl rfl)
    · exact rightsKept_setRole (h.user.holdAt _).mayBecome

end
end Sys2Proof.Machine
end

section
/-! SUPPORT. The rights stand over the control words (18 R371-R384). -/
namespace Sys2Proof.Machine

section
variable {r p q : Role} {k : Nat} {s : State}

theorem Role.User.setTop (h : r.User p) (e : StackEntry) : r.User (p.setTop e) := h.frame rfl rfl
theorem Role.User.spilling (h : r.User p) (ws : List (Spot × Word)) : r.User (p.spilling ws) := h.frame rfl rfl

theorem RightsKept.checkTarget (h : RightsKept r k s) (p : Role) (ea : Int) : Ends (RightsKept r k) (RightsKept r k) (s.checkTarget k p ea) := by
  unfold State.checkTarget
  extract_lets t
  have hheader := h.frame (State.roles_targetHeader (s := s) k p t)
  split
  · exact h.trap ..
  · split
    · exact h.trap ..
    · split
      next e =>
        rw [e] at hheader
        exact hheader
      next e =>
        rw [e] at hheader
        exact RightsKept.trap hheader ..

theorem RightsKept.transfer (h : RightsKept r k s) (p : Role) (hq : r.User q) (ea : Int) : RightsKept r k (s.transfer k p q ea) := by
  unfold State.transfer
  have htarget := h.checkTarget p ea
  split
  · exact rightsKept_setRole (hq.goto _).mayBecome
  next e =>
    rw [e] at htarget
    exact htarget

/-! ### The stack -/

theorem RightsKept.stackStop (h : RightsKept r k s) (e : Stop × Word) : RightsKept r k (s.stackStop k e) := by
  unfold State.stackStop
  split
  · exact h.trap ..
  · split
    · split
      · exact h.abortGang ..
      · exact h
    · exact h.trap ..
  · exact h.holdRole _

theorem RightsKept.stackReady (h : RightsKept r k s) (p : Role) : Ends (RightsKept r k) (fun _ => True) (s.stackReady k p) := by
  unfold State.stackReady
  split
  · exact h.holdRole _
  · split
    · exact h.holdRole _
    · trivial

theorem RightsKept.stackWrite (h : RightsKept r k s) (hp : r.User p) (ws : List (Int × Word)) :
    Ends (RightsKept r k) (UserKept r k) (s.stackWrite k p ws) := by
  unfold State.stackWrite
  split
  · exact ⟨hp, h⟩
  · refine (h.stackReady p).bind fun _ _ => ?_
    have hspots := h.frame (State.roles_spots (s := s) p (.stack true) 8 8 (ws.map (·.1)))
    split
    next e =>
      rw [e] at hspots
      exact hspots.stackStop _
    next xs s1 e =>
      rw [e] at hspots
      have hwrite := hspots.frame (State.roles_writeSpots (s := s1) p 8 (xs.zip (ws.map (·.2.toNat))))
      split
      next e1 =>
        rw [e1] at hwrite
        exact ⟨hp.spilling _, hwrite⟩
      next e1 =>
        rw [e1] at hwrite
        exact hwrite.stackStop _

theorem RightsKept.stackWords (h : RightsKept r k s) (p : Role) (i n : Nat) :
    Ends (RightsKept r k) (fun x => RightsKept r k x.2) (s.stackWords k p i n) := by
  unfold State.stackWords
  refine (h.stackReady p).bind fun _ _ => ?_
  extract_lets addrs
  have hspots := h.frame (State.roles_spots (s := s) p (.stack false) 8 8 addrs)
  split
  next e =>
    rw [e] at hspots
    exact hspots.stackStop _
  next xs s1 e =>
    rw [e] at hspots
    have hread := hspots.frame (State.roles_readSpots (s := s1) p 8 xs)
    split
    next e1 =>
      rw [e1] at hread
      extract_lets ws
      split
      · exact hread.frame rfl
      · exact hread
    next e1 =>
      rw [e1] at hread
      exact hread.stackStop _

theorem RightsKept.fillTop (h : RightsKept r k s) (hp : r.User p) (n : Nat) : Ends (RightsKept r k) (UserKept r k) (s.fillTop k p n) := by
  induction n with
  | zero => exact ⟨hp, h⟩
  | succ n ih =>
    rw [State.fillTop]
    split
    · exact ⟨hp, h⟩
    · refine ih.bind fun ⟨r1, s1⟩ ⟨hr1, hs1⟩ => ?_
      dsimp -zeta only
      split
      · exact ⟨hr1, hs1⟩
      · refine (hs1.stackWords p _ 20).bind fun ⟨ws, s2⟩ hs2 => ?_
        split
        · exact RightsKept.trap hs2 ..
        · exact ⟨hr1.frame rfl rfl, hs2⟩

theorem RightsKept.pushEntries (h : RightsKept r k s) (hp : r.User p) (es : List StackEntry) :
    Ends (RightsKept r k) (UserKept r k) (s.pushEntries k p es) := by
  unfold State.pushEntries
  split
  · exact h.trap ..
  · extract_lets out low
    have hwrite := h.stackWrite hp (p.spillWords low)
    split
    next e =>
      rw [e] at hwrite
      exact hwrite
    next e =>
      rw [e] at hwrite
      obtain ⟨hr1, hs1⟩ := hwrite
      exact ⟨hr1.frame rfl rfl, hs1⟩

theorem RightsKept.findSpilled (h : RightsKept r k s) (p : Role) (n : Nat) :
    Ends (RightsKept r k) (fun x => RightsKept r k x.2) (s.findSpilled k p n) := by
  induction n generalizing s with
  | zero => exact h.trap ..
  | succ n ih =>
    rw [State.findSpilled]
    refine (h.stackWords p n 1).bind fun ⟨ws, s1⟩ hs1 => ?_
    dsimp -zeta only
    extract_lets w
    split
    · split
      · exact hs1
      · exact hs1.trap ..
    · exact hs1.trap ..
    · exact hs1.trap ..
    · split
      · exact ih hs1
      · exact hs1.trap ..

theorem RightsKept.breakEntry (h : RightsKept r k s) (hp : r.User p) (b : LaneMask) :
    Ends (RightsKept r k) (UserKept r k) (s.breakEntry k p b) := by
  unfold State.breakEntry
  split
  · exact h.trap ..
  · exact ⟨hp.frame rfl rfl, h⟩
  · refine (h.findSpilled p p.lowest).bind fun ⟨i, s1⟩ hs1 => (RightsKept.stackWords hs1 p i 20).bind fun ⟨ws, s2⟩ hs2 => ?_
    dsimp -zeta only
    split
    · exact RightsKept.trap hs2 ..
    · exact RightsKept.stackWrite hs2 hp _

theorem RightsKept.badStack (h : RightsKept r k s) : Ends (RightsKept r k) (RightsKept r k) (s.badStack k) := h.trap ..

/-! ### The words of control -/

theorem UserIssues.control (h : UserIssues s r) {f : Nat → Role → Except State State} (hf : Ends (RightsKept r s.cur) (RightsKept r s.cur) (f s.cur r)) :
    OutRights r s.cur (control s f) := by
  refine h.onRole ?_
  split
  next e =>
    rw [e] at hf
    exact hf
  next e =>
    rw [e] at hf
    exact hf

theorem UserIssues.execBra (h : UserIssues s r) (o : FmtB) : OutRights r s.cur (execBra o s) := h.onRole (h.kept.transfer r h.user _)
theorem UserIssues.execJmpi (h : UserIssues s r) (o : FmtB) : OutRights r s.cur (execJmpi o s) := h.onRole (h.kept.transfer r h.user _)

theorem UserIssues.execBc (h : UserIssues s r) (o : FmtB) : OutRights r s.cur (execBc o s) := by
  refine h.onRole ?_
  split
  · exact h.kept.transfer r h.user _
  · exact rightsKept_setRole h.user.advance.mayBecome

theorem UserIssues.execCall (h : UserIssues s r) (o : FmtB) : OutRights r s.cur (execCall o s) :=
  h.control ((h.kept.checkTarget r _).bind fun _ hs1 => (hs1.pushEntries h.user _).bind fun _ ⟨hq, _⟩ => rightsKept_setRole (hq.goto _).mayBecome)

theorem UserIssues.execRet (h : UserIssues s r) (o : FmtB) : OutRights r s.cur (execRet o s) := by
  refine h.control ((h.kept.fillTop h.user 1).bind fun ⟨r1, s1⟩ ⟨hr1, hs1⟩ => ?_)
  dsimp -zeta only
  split
  next e _ _ =>
    split
    · exact hs1.badStack
    · exact (hs1.checkTarget r _).bind fun _ hs2 => rightsKept_setRole (Role.User.become (hr1.setMask 0 e.mask) rfl rfl)
  · exact hs1.badStack

theorem UserIssues.execSplit (h : UserIssues s r) (o : FmtB) : OutRights r s.cur (execSplit o s) := by
  refine h.control ?_
  extract_lets a t f target
  split
  · exact h.kept.trap ..
  · split
    · exact (h.kept.checkTarget r _).bind fun _ hs1 => (hs1.pushEntries h.user _).bind fun _ ⟨hq, _⟩ =>
        rightsKept_setRole ((hq.setMask _ _).goto _).mayBecome
    · exact (h.kept.pushEntries h.user _).bind fun _ ⟨hq, _⟩ => rightsKept_setRole (hq.setMask _ _).advance.mayBecome

theorem UserIssues.execEls (h : UserIssues s r) (o : FmtB) : OutRights r s.cur (execEls o s) := by
  refine h.control ((h.kept.fillTop h.user 1).bind fun ⟨r1, s1⟩ ⟨hr1, hs1⟩ => ?_)
  dsimp -zeta only
  split
  next e _ _ =>
    extract_lets target q base jp
    have hq : r.User q := Role.User.setTop hr1 _
    have hbase : r.User base := hq.setMask 0 e.mask
    have hjp (x : State) : Ends (RightsKept r s.cur) (RightsKept r s.cur) (jp x) := rightsKept_setRole (hbase.become rfl rfl)
    split
    · exact hs1.badStack
    · split
      · exact (hs1.checkTarget r _).bind fun _ _ => rightsKept_setRole ((hr1.setTop _).goto _).mayBecome
      · split
        · exact (hs1.checkTarget r _).bind fun x _ => hjp x
        · exact hs1.trap ..
  · exact hs1.badStack

theorem UserIssues.execLoop (h : UserIssues s r) (o : FmtB) : OutRights r s.cur (execLoop o s) :=
  h.control ((h.kept.pushEntries h.user _).bind fun _ ⟨hq, _⟩ => rightsKept_setRole hq.advance.mayBecome)

theorem UserIssues.execJoin (h : UserIssues s r) (o : FmtB) : OutRights r s.cur (execJoin o s) := by
  refine h.control ((h.kept.fillTop h.user 1).bind fun ⟨r1, s1⟩ ⟨hr1, hs1⟩ => ?_)
  dsimp -zeta only
  split
  · exact hs1.badStack
  next e _ _ =>
    split
    · exact rightsKept_setRole (Role.User.onward (hr1.setMask 0 (r1.mask 0 ||| e.mask)) rfl rfl)
    · split
      · exact (hs1.checkTarget r _).bind fun _ _ => rightsKept_setRole (Role.User.become (hr1.setMask 0 e.mask) rfl rfl)
      · refine (hs1.fillTop hr1 2).bind fun ⟨r2, s2⟩ ⟨hr2, hs2⟩ => ?_
        split
        next x _ _ =>
          split
          · exact RightsKept.badStack hs2
          · exact rightsKept_setRole (Role.User.onward (Role.User.setMask hr2 0 x.mask) rfl rfl)
        · exact RightsKept.badStack hs2
    · exact hs1.badStack

theorem UserIssues.leaveLanes (h : UserIssues s r) (b : LaneMask) (o : FmtB) {entry : State → Except State (Role × State)}
    (hentry : ∀ t, RightsKept r s.cur t → Ends (RightsKept r s.cur) (UserKept r s.cur) (entry t)) :
    Ends (RightsKept r s.cur) (RightsKept r s.cur) (s.leaveLanes s.cur r b o entry) := by
  unfold State.leaveLanes
  extract_lets m
  split
  · exact (h.kept.checkTarget r _).bind fun t ht => (hentry t ht).bind fun _ ⟨hq, _⟩ => rightsKept_setRole ((hq.setMask _ _).goto _).mayBecome
  · exact (hentry s h.kept).bind fun _ ⟨hq, _⟩ => rightsKept_setRole (hq.setMask _ _).advance.mayBecome

theorem UserIssues.execBrk (h : UserIssues s r) (o : FmtB) : OutRights r s.cur (execBrk o s) :=
  h.control (h.leaveLanes _ o fun _ ht => ht.breakEntry h.user _)

theorem UserIssues.execCont (h : UserIssues s r) (o : FmtB) : OutRights r s.cur (execCont o s) :=
  h.control (h.leaveLanes _ o (entry := fun t => .ok (r, t)) fun _ ht => ⟨h.user, ht⟩)

theorem UserIssues.execExit (h : UserIssues s r) (o : FmtB) : OutRights r s.cur (execExit o s) := by
  refine h.onRole ?_
  split
  · exact rightsKept_setRole (h.user.holdAt _).mayBecome
  · exact h.kept.endRole

theorem UserIssues.execSetfmt (h : UserIssues s r) (o : FmtA) : OutRights r s.cur (execSetfmt o s) := by
  refine h.onRole ?_
  extract_lets x
  split
  · exact rightsKept_setRole (h.user.onward rfl rfl)
  · exact h.kept.trap ..

end
end Sys2Proof.Machine
end

section
/-! SUPPORT. The rights stand over the words that change registers of their role alone (13 R283-R309, 18 R372). -/
namespace Sys2Proof.Machine

section
variable {r p : Role} {s : State}

theorem Role.User.setLanes (h : r.User p) (d : Nat) (ls : List Nat) (f : Nat → Word) : r.User (p.setLanes d ls f) := by
  rw [Role.setLanes_eq]
  exact h.frame rfl rfl

theorem Role.User.raiseFlags (h : r.User p) (fl : Flags) : r.User (p.raiseFlags fl) := h.frame rfl rfl

theorem Role.User.write (h : r.User p) (d : RegName) (m : BitVec 3) (f : Nat → Word × Flags) : r.User (p.write d m f) := by
  rw [Role.write_eq]
  exact h.frame rfl rfl

theorem Role.User.writeCC (h : r.User p) (d : RegName) (c : CC4) : r.User (p.writeCC d c) := by
  rw [Role.writeCC_eq]
  exact h.frame rfl rfl

theorem Role.User.writeMask (h : r.User p) (d : Nat) (m : BitVec 3) (t : Nat → Bool) : r.User (p.writeMask d m t) := h.setMask _ _

theorem Role.User.fold (h : r.User p) (t : Ty) (l : List Nat) : r.User (p.fold t l) := h.frame rfl rfl

theorem Role.User.bindQueue (h : r.User p) (k : Nat) (t : Option QTarget) : r.User (p.bindQueue k t) := h.frame rfl rfl

/-! ### The shared forms -/

theorem UserIssues.intA (h : UserIssues s r) (o : FmtA) (f : IntOp) : OutRights r s.cur (intA o f s) := by
  refine h.wordStep (Role.User.advance ?_)
  split
  · exact (h.user.write _ _ _).writeCC _ _
  · exact h.user.write _ _ _

theorem UserIssues.intI (h : UserIssues s r) (o : FmtI2) (f : IntOp) : OutRights r s.cur (intI o f s) := by
  refine h.wordStep ?_
  extract_lets b g q
  refine Role.User.advance ?_
  split
  · exact (h.user.write _ _ _).writeCC _ _
  · exact h.user.write _ _ _

theorem UserIssues.floatA (h : UserIssues s r) (o : FmtA) (f : Fmt → RMode → Nat → Nat → Nat → Nat × Flags) : OutRights r s.cur (floatA o f s) :=
  h.wordStep (h.user.write _ _ _).advance

theorem UserIssues.moverA (h : UserIssues s r) (o : FmtA) (src : Role → Nat → Option Nat) : OutRights r s.cur (moverA o src s) :=
  h.wordStep (h.user.setLanes _ _ _).advance

theorem UserIssues.maskOp (h : UserIssues s r) (o : FmtA) (f : LaneMask → LaneMask → LaneMask) : OutRights r s.cur (maskOp o f s) :=
  h.wordStep (h.user.setMask _ _).advance

/-! ### Words with a meaning of their own -/

theorem UserIssues.execCmp (h : UserIssues s r) (o : FmtA) : OutRights r s.cur (execCmp o s) := by
  unfold Machine.execCmp
  split
  · exact h.wordStep (h.user.writeMask _ _ _).advance
  · exact h.intA _ _

theorem UserIssues.execFcmp (h : UserIssues s r) (o : FmtA) : OutRights r s.cur (execFcmp o s) := by
  refine h.wordStep ?_
  dsimp only
  split
  · exact ((h.user.writeMask _ _ _).raiseFlags _).advance
  · exact ((h.user.write _ _ _).writeCC _ _).advance

theorem UserIssues.execBfi (h : UserIssues s r) (o : FmtA) : OutRights r s.cur (execBfi o s) :=
  h.wordStep ((h.user.write _ _ _).writeCC _ _).advance

theorem UserIssues.execSel (h : UserIssues s r) (o : FmtA) : OutRights r s.cur (execSel o s) := h.wordStep (h.user.write _ _ _).advance
theorem UserIssues.execMovi (h : UserIssues s r) (o : FmtI1) : OutRights r s.cur (execMovi o s) := h.wordStep (h.user.write _ _ _).advance
theorem UserIssues.execMovh (h : UserIssues s r) (o : FmtI1) : OutRights r s.cur (execMovh o s) := h.wordStep (h.user.write _ _ _).advance
theorem UserIssues.execFscale (h : UserIssues s r) (o : FmtA) : OutRights r s.cur (execFscale o s) := h.wordStep (h.user.write _ _ _).advance
theorem UserIssues.execPack (h : UserIssues s r) (o : FmtA) : OutRights r s.cur (execPack o s) := h.wordStep (h.user.write _ _ _).advance
theorem UserIssues.execUnpack (h : UserIssues s r) (o : FmtA) : OutRights r s.cur (execUnpack o s) := h.wordStep (h.user.write _ _ _).advance
theorem UserIssues.execAmaxrd (h : UserIssues s r) (o : FmtA) : OutRights r s.cur (execAmaxrd o s) := h.wordStep (h.user.write _ _ _).advance

theorem UserIssues.execCvt (h : UserIssues s r) (o : FmtA) : OutRights r s.cur (execCvt o s) := by
  refine h.wordStep (Role.User.advance ?_)
  split
  · exact (h.user.write _ _ _).fold _ _
  · exact h.user.write _ _ _

theorem UserIssues.execCvts (h : UserIssues s r) (o : FmtA) : OutRights r s.cur (execCvts o s) := by
  refine h.wordStep (Role.User.advance ?_)
  split
  · exact (h.user.write _ _ _).fold _ _
  · exact h.user.write _ _ _

theorem UserIssues.execVred (h : UserIssues s r) (o : FmtA) : OutRights r s.cur (execVred o s) := by
  refine h.wordStep ?_
  extract_lets ls bare
  split
  · have hbare : r.User bare := by
      unfold bare
      split
      · exact h.user.setSreg _ _
      · exact h.user
    exact Role.User.advance (hbare.frame rfl rfl)
  · extract_lets reduced
    have hreduced : r.User reduced := by
      unfold reduced
      split
      · exact h.user.setSreg _ _
      · exact h.user.setLanes _ _ _
    exact Role.User.advance (hreduced.frame rfl rfl)

theorem UserIssues.execVscan (h : UserIssues s r) (o : FmtA) : OutRights r s.cur (execVscan o s) := by
  refine h.wordStep ?_
  extract_lets ls ps
  split
  · exact Role.User.advance (h.user.frame rfl rfl)
  · exact Role.User.advance ((h.user.setLanes _ _ _).frame rfl rfl)

theorem UserIssues.execVballot (h : UserIssues s r) (o : FmtA) : OutRights r s.cur (execVballot o s) := h.wordStep (h.user.setSreg _ _).advance
theorem UserIssues.execVcount (h : UserIssues s r) (o : FmtA) : OutRights r s.cur (execVcount o s) := h.wordStep (h.user.setSreg _ _).advance
theorem UserIssues.execVfirst (h : UserIssues s r) (o : FmtA) : OutRights r s.cur (execVfirst o s) := h.wordStep (h.user.setSreg _ _).advance
theorem UserIssues.execMfroms (h : UserIssues s r) (o : FmtA) : OutRights r s.cur (execMfroms o s) := h.wordStep (h.user.setMask _ _).advance
theorem UserIssues.execMtos (h : UserIssues s r) (o : FmtA) : OutRights r s.cur (execMtos o s) := h.wordStep (h.user.setSreg _ _).advance
theorem UserIssues.execGetfmt (h : UserIssues s r) (o : FmtA) : OutRights r s.cur (execGetfmt o s) := h.wordStep (h.user.setSreg _ _).advance
theorem UserIssues.execNop (h : UserIssues s r) (o : FmtA) : OutRights r s.cur (execNop o s) := h.wordStep h.user.advance
theorem UserIssues.execAmaxclr (h : UserIssues s r) (o : FmtA) : OutRights r s.cur (execAmaxclr o s) :=
  h.wordStep (Role.User.advance (h.user.frame rfl rfl))

theorem UserIssues.execViewset (h : UserIssues s r) (o : FmtQ) : OutRights r s.cur (execViewset o s) := by
  refine h.wordStep ?_
  dsimp only
  refine Role.User.advance ?_
  split
  · exact h.user
  · exact h.user.frame rfl rfl

theorem UserIssues.execBset (h : UserIssues s r) (o : FmtQ) : OutRights r s.cur (execBset o s) :=
  h.wordStep (Role.User.advance (h.user.frame rfl rfl))

theorem UserIssues.execTack (h : UserIssues s r) (o : FmtS) : OutRights r s.cur (execTack o s) := h.wordStep (h.user.advance.frame rfl rfl)

end
end Sys2Proof.Machine
end

section
/-! SUPPORT. The rights stand over the words of the engines, the matrix engine, the beam unit and the queues (08, 11, 14, 15, 17, 21). -/
namespace Sys2Proof.Machine

section
variable {r q : Role} {k : Nat} {s : State}

/-! ### Engines (11 R249, R252, R260) -/

theorem UserIssues.cmdWord (h : UserIssues s r) (kind : CmdKind) (o : FmtQ) : OutRights r s.cur (cmdWord kind o s) := by
  refine h.onRole ?_
  split
  · exact rightsKept_setRole (h.user.holdAt _).mayBecome
  · split
    · exact h.kept.trap ..
    · extract_lets id bad c s1
      have hs1 : RightsKept r s.cur s1 := rightsKept_setRole (h.user.bindSlot _ _).advance.mayBecome
      split
      · exact h.kept.trap ..
      · exact hs1.frame rfl

/-- The actions on a stopped context are for handlers, so that outside handler mode QBIND binds or traps. -/
theorem UserIssues.execQbind (h : UserIssues s r) (o : FmtQ) : OutRights r s.cur (execQbind o s) := by
  refine h.onRole ?_
  extract_lets w kind act n bind id s1 tl base s2 t t'
  have hbind (t : Option QTarget) : RightsKept r s.cur (bind t) := rightsKept_setRole (h.user.bindQueue _ _).advance.mayBecome
  split
  · exact h.kept.trap ..
  · split
    · rw [if_pos (by simp [h.handler])]
      exact h.kept.trap ..
    · split
      · exact hbind _
      · split
        · split
          · exact hbind _
          · exact h.kept.trap ..
        · split
          · exact hbind _
          · split
            · exact hbind _
            · exact h.kept.trap ..

theorem UserIssues.execWverset (h : UserIssues s r) (o : FmtQ) : OutRights r s.cur (execWverset o s) := by
  refine h.onRole ?_
  split
  · exact rightsKept_setRole (h.user.holdAt _).mayBecome
  · split
    · exact rightsKept_setRole (h.user.holdAt _).mayBecome
    · exact rightsKept_setRole (h.user.onward rfl rfl)

/-! ### Accumulator lines (15 R333-R335) -/

theorem UserIssues.accWrite (h : UserIssues s r) (o : FmtX) (acc : Role → AccAccess) : OutRights r s.cur (accWrite o acc s) := by
  refine h.onRole ?_
  extract_lets ea line n
  have hspot := h.kept.frame (State.roles_spot (s := s) r .accWrite none false ea.toNat 16)
  split
  · exact h.kept.trap ..
  · split
    · exact rightsKept_setRole (h.user.holdAt _).mayBecome
    · split
      · exact rightsKept_setRole (h.user.holdAt _).mayBecome
      · split
        next e =>
          rw [e] at hspot
          extract_lets s2 s3
          have hs2 : RightsKept r s.cur s2 := by
            unfold s2
            split
            · exact hspot.frame (State.roles_requestCopy ..)
            · exact hspot
          have hs3 : RightsKept r s.cur s3 := hs2.logFault h.user.mayBecome _ _
          split
          · exact hs3
          · exact hs3.advance
        next e =>
          extract_lets first c op s2
          have hs2 : RightsKept r s.cur s2 := rightsKept_setRole h.user.advance.mayBecome
          split
          · exact rightsKept_setRole (h.user.holdAt _).mayBecome
          · exact hs2.foldl fun _ _ ht => ht.frame (State.roles_sendMsg ..)
        next e =>
          rw [e] at hspot
          exact hspot.trap ..

theorem UserIssues.execAccrd (h : UserIssues s r) (o : FmtX) : OutRights r s.cur (execAccrd o s) := by
  refine h.onRole ?_
  extract_lets ea line n lanes sent va first
  have hspot := h.kept.frame (State.roles_spot (s := s) r .accRead none false first 16)
  split
  · exact h.kept.trap ..
  · split
    · exact rightsKept_setRole h.user.advance.mayBecome
    · split
      · exact rightsKept_setRole (h.user.holdAt _).mayBecome
      · split
        · exact rightsKept_setRole (h.user.holdAt _).mayBecome
        · split
          next e =>
            rw [e] at hspot
            exact hspot.loadStop ..
          next e =>
            extract_lets es touched c op s2
            have hs2 : RightsKept r s.cur s2 := rightsKept_setRole (h.user.bindSlot _ _).advance.mayBecome
            split
            · exact rightsKept_setRole (h.user.holdAt _).mayBecome
            · exact hs2.frame (State.roles_askSlots ..)
          next e =>
            rw [e] at hspot
            exact hspot.trap ..

theorem UserIssues.execMscale (h : UserIssues s r) (o : FmtX) : OutRights r s.cur (execMscale o s) := by
  refine h.onRole ?_
  extract_lets m ea n at_
  have hspots := h.kept.frame (State.roles_spots (s := s) r .load 8 8 ((List.range n).map fun (i : Nat) => ea + 8 * (i : Int)))
  split
  · exact rightsKept_setRole (h.user.onward rfl rfl)
  · split
    · exact h.kept.trap ..
    · split
      · exact rightsKept_setRole (h.user.holdAt _).mayBecome
      · split
        · exact rightsKept_setRole (h.user.holdAt _).mayBecome
        · split
          next e =>
            rw [e] at hspots
            exact hspots.stopRole ..
          next xs s1 e =>
            rw [e] at hspots
            have hread := hspots.frame (State.roles_readSpots (s := s1) r 8 xs)
            split
            next e1 =>
              rw [e1] at hread
              exact hread.stopRole ..
            next => exact rightsKept_setRole (h.user.onward rfl rfl)

/-! ### The beam unit (17 R359-R369) -/

theorem RightsKept.beamEvent (h : RightsKept r k s) (x : Query) (e : BeamEvent) : RightsKept r k (s.beamEvent x e) :=
  h.updRole fun p hp => by
    split
    · exact hp
    · exact hp.frame rfl rfl rfl id

theorem UserIssues.beamStart (h : UserIssues s r) (o : FmtQ) (n align : Nat) (load : State → Nat → Role → Query → Nat → BeamLoad) :
    OutRights r s.cur (beamStart o n align load s) := by
  refine h.onRole ?_
  extract_lets a
  split
  · exact rightsKept_setRole (h.user.holdAt _).mayBecome
  · split
    · exact h.kept.trap ..
    · split
      · exact h.kept.trap ..
      · split
        · exact rightsKept_setRole (h.user.holdAt _).mayBecome
        · split
          · exact rightsKept_setRole (h.user.holdAt _).mayBecome
          · split
            extract_lets q0
            split
            · exact rightsKept_setRole (h.user.holdAt _).mayBecome
            · split
              next r1 _ _ e1 =>
                have hr1 : r.User r1 := by
                  rw [show r1 = r.allocHandle.1 by rw [e1]]
                  exact h.user.frame rfl rfl
                extract_lets q1 q2 c s2
                have hs2 : RightsKept r s.cur s2 := rightsKept_setRole (((hr1.bindSlot _ _).setSreg _ _).slotDone _).advance.mayBecome
                split
                · exact hs2.beamEvent ..
                · exact hs2

theorem UserIssues.execBq (h : UserIssues s r) (o : FmtQ) : OutRights r s.cur (execBq o s) := by
  unfold Machine.execBq
  exact h.beamStart ..

theorem UserIssues.execBresume (h : UserIssues s r) (o : FmtQ) : OutRights r s.cur (execBresume o s) := by
  unfold Machine.execBresume
  exact h.beamStart ..

theorem UserIssues.execBres (h : UserIssues s r) (o : FmtQ) : OutRights r s.cur (execBres o s) := by
  refine h.onRole ?_
  extract_lets poll addr give
  have hgive {p : Role} (hp : r.User p) (w : Word) : RightsKept r s.cur (give p w) :=
    rightsKept_setRole (((hp.bindSlot _ _).setSreg _ _).slotDone _).advance.mayBecome
  split
  · exact hgive h.user _
  · split
    · exact hgive h.user _
    · split
      · exact hgive h.user _
      · exact rightsKept_setRole (h.user.holdAt _).mayBecome
    · split
      · exact hgive h.user _
      · split
        · refine hgive (h.user.frame ?_ ?_) _
          · rfl
          · rfl
        · exact hgive h.user _

theorem UserIssues.execBproc (h : UserIssues s r) (o : FmtQ) : OutRights r s.cur (execBproc o s) := by
  refine h.onRole ?_
  split
  · exact rightsKept_setRole (h.user.holdAt _).mayBecome
  · extract_lets t s1
    have hs1 : RightsKept r s.cur s1 := rightsKept_setRole h.user.advance.mayBecome
    split
    · exact hs1
    · split
      · split
        · exact (hs1.beamEvent ..).frame rfl
        · exact hs1
      · exact hs1

theorem UserIssues.execBsave (h : UserIssues s r) (o : FmtQ) : OutRights r s.cur (execBsave o s) := by
  refine h.onRole ?_
  extract_lets a r1 give
  have hr1 : r.User r1 := h.user.bindSlot _ _
  have hgive (x : Nat) : RightsKept r s.cur (give x) := rightsKept_setRole ((hr1.setSreg _ _).slotDone _).advance.mayBecome
  split
  · exact rightsKept_setRole (h.user.holdAt _).mayBecome
  · split
    · exact h.kept.trap ..
    · split
      · exact h.kept.trap ..
      · split
        · exact hgive _
        · split
          · exact hgive _
          · split
            · exact rightsKept_setRole (h.user.holdAt _).mayBecome
            · exact RightsKept.frame (rightsKept_setRole (s := s) hr1.advance.mayBecome) rfl

theorem UserIssues.execBabort (h : UserIssues s r) (o : FmtQ) : OutRights r s.cur (execBabort o s) := by
  refine h.onRole ?_
  split
  · exact rightsKept_setRole (h.user.holdAt _).mayBecome
  · extract_lets s1
    have hs1 : RightsKept r s.cur s1 := rightsKept_setRole h.user.advance.mayBecome
    split
    · exact hs1
    · split
      · exact hs1
      · exact (hs1.beamEvent ..).frame rfl

end
end Sys2Proof.Machine
end

section
/-! SUPPORT. The rights stand over the matrix words, and over what the queues and the handlers have words for (14 R327, 21 R429-R444). -/
namespace Sys2Proof.Machine

section
variable {r q : Role} {k : Nat} {s : State}

theorem RightsKept.matIssue (h : RightsKept r k s) (hq : r.User q) (o : FmtX) (kind : Nat) :
    Ends (RightsKept r k) (RightsKept r k) (s.matIssue k q o kind) := by
  unfold State.matIssue
  extract_lets bt w n sp c illegal z panels words fail sn a flow bscale latch adv
  have hill : Ends (RightsKept r k) (RightsKept r k) illegal := h.trap ..
  have hfail (e : Option (Nat × Word)) : Ends (RightsKept r k) (fun _ => True) (fail e) := by
    unfold fail
    split
    · exact h.trap ..
    · trivial
  have hadv {p : Role} (hp : r.MayBecome p) : r.MayBecome (adv p) := by
    unfold adv
    split
    · exact hp.advance.holdAt _
    · exact hp.advance
  clear_value bt w n sp c illegal fail adv
  refine .ite hill <| .ite hill <| .ite hill ?_
  generalize q.streams.find sp = x, q.streams.find ((sp + 1) % 4) = m
  match x, m with
  | none, _ => exact hill
  | some x, m =>
    dsimp -zeta only
    extract_lets mOk y bitmap bits live idx n vals job streams streams1 r1 start jp
    have ht : RightsKept r k (s.tileCheck q bitmap).2 := h.frame (State.roles_tileCheck ..)
    have hstart (t line e) (ht : RightsKept r k t) : RightsKept r k (start t line e) := ht.frame rfl
    have hjp (u) : Ends (RightsKept r k) (RightsKept r k) (jp u) := by
      unfold jp
      refine (hfail _).bind fun _ _ => (hfail _).bind fun _ _ =>
        .ite (rightsKept_setRole (hq.holdAt _).mayBecome) (Ends.bind (q := RightsKept r k) ?_ fun t ht1 => ?_)
      · refine .ite ?_ ht
        split
        · exact ht.trap ..
        · have hspot := ht.frame (State.roles_spot q .counter none false sn.toNat 8)
          split
          next e =>
            rw [e] at hspot
            exact hspot.loadStop ..
          next e =>
            rw [e] at hspot
            exact hspot
      · extract_lets kc
        refine .ite (rightsKept_setRole (hq.holdAt _).mayBecome) <| .ite (rightsKept_setRole (hq.holdAt _).mayBecome) ?_
        have hspot := ht1.frame (State.roles_spot q .reduction none false c.toNat 16)
        split
        next e => exact rightsKept_setRole (hadv (hq.become rfl rfl))
        next e =>
          rw [e] at hspot
          extract_lets wr s3 entry s4 kept
          clear_value wr
          have hs3 : RightsKept r k s3 := by
            unfold s3
            split
            · exact hspot.frame (State.roles_requestCopy ..)
            · exact hspot
          have hs4 : RightsKept r k s4 := hs3.logFault hq.mayBecome _ _
          exact .ite hs4 ((hstart _ _ _ hs4).updRole fun p hp => hadv (hp.frame rfl rfl rfl id))
    clear_value mOk jp
    refine .ite hill <| .ite (h.trap ..) <| .ite (h.trap ..) <| (hfail _).bind fun _ _ => .ite (rightsKept_setRole (hq.holdAt _).mayBecome) ?_
    split
    · exact RightsKept.abortGang ht ..
    · exact hjp ()

theorem UserIssues.matWord (h : UserIssues s r) (o : FmtX) (kind : Nat) : OutRights r s.cur (matWord o kind s) :=
  h.control (h.kept.matIssue h.user o kind)

/-! ### Pushes (21 R431) -/

theorem RightsKept.roleStop (h : RightsKept r k s) (e : VStop) (wr : Bool) : RightsKept r k (s.roleStop k e wr) := by
  unfold State.roleStop
  split
  · split
    · exact h.loadFault ..
    · exact h
  · exact h.holdRole _

theorem RightsKept.pushRole (h : RightsKept r k s) (p : Role) (x : SpawnQ) (records : List (List Word)) :
    RightsKept r k (s.pushRole k p x records) := by
  unfold State.pushRole
  split
  extract_lets e
  split
  · exact (h.frame (State.roles_park ..)).holdRole _
  · have hpush := State.vRoles_writePush (s := s.tick (s.core p.core).pts) (p.walker none) .store x e
    split
    next e1 =>
      rw [e1] at hpush
      exact (h.frame hpush).advance
    next e1 =>
      rw [e1] at hpush
      exact (h.frame hpush).roleStop ..

theorem UserIssues.enqWord (h : UserIssues s r) (o : FmtQ) {f : State → Nat → Role → SpawnQ → State}
    (hf : ∀ t x, RightsKept r s.cur t → RightsKept r s.cur (f t s.cur r x)) : OutRights r s.cur (enqWord o f s) := by
  refine h.onRole ?_
  extract_lets qva
  have hrecord := h.kept.frame (State.roles_loadRecord (s := s) r .load (qva : Int) 8 64)
  split
  · exact rightsKept_setRole (h.user.holdAt _).mayBecome
  · split
    · exact h.kept.trap ..
    · split
      · exact rightsKept_setRole (h.user.holdAt _).mayBecome
      · split
        next e =>
          rw [e] at hrecord
          exact hrecord.stopRole ..
        next e =>
          rw [e] at hrecord
          exact hf _ _ hrecord

theorem UserIssues.execEnqr (h : UserIssues s r) (o : FmtQ) : OutRights r s.cur (execEnqr o s) := by
  refine h.enqWord o fun t x ht => ?_
  extract_lets n
  split
  · exact ht.trap ..
  · split
    · exact rightsKept_setRole h.user.advance.mayBecome
    · have hrecord := ht.frame (State.roles_loadRecord (s := t) r .load ((r.sreg o.b.num).toNat : Int) (2 * x.rsz * n) 8)
      split
      next e =>
        rw [e] at hrecord
        exact hrecord.stopRole ..
      next e =>
        rw [e] at hrecord
        exact hrecord.pushRole ..

theorem UserIssues.execEnqc (h : UserIssues s r) (o : FmtQ) : OutRights r s.cur (execEnqc o s) := by
  refine h.enqWord o fun t x ht => ?_
  extract_lets lanes regs
  split
  · exact ht.trap ..
  · split
    · exact ht.abortGang ..
    · split
      · exact ht.trap ..
      · split
        · exact rightsKept_setRole h.user.advance.mayBecome
        · exact (ht.frame (State.roles_readEntries ..)).pushRole ..

/-! ### Launches, YIELD and TRAP (21 R430, R432, R433) -/

theorem Role.MayBecome.given {p : Role} (h : r.MayBecome p) (d : RegName) (ws : BitVec 3) (x : Word) : r.MayBecome (p.given d ws x) :=
  Role.MayBecome.advance (h.frame rfl rfl rfl id)

theorem RightsKept.given (h : RightsKept r k s) (d : RegName) (ws : BitVec 3) (x : Word) : RightsKept r k (s.updRole k fun p => p.given d ws x) :=
  h.updRole fun _ hp => hp.given d ws x

/-- The reads are generalized, so that no comparison of terms unfolds them. -/
theorem UserIssues.execLaunch (h : UserIssues s r) (o : FmtQ) : OutRights r s.cur (execLaunch o s) := by
  refine h.onRole ?_
  extract_lets va x
  split
  · exact h.kept.trap ..
  · split
    · exact rightsKept_setRole (h.user.holdAt _).mayBecome
    · split
      · exact rightsKept_setRole (h.user.holdAt _).mayBecome
      · generalize hp : s.physCause (dieOf r.core) (s.queueAddr x) 0 = p
        match p, hp with
        | some (c, t), e => exact (h.kept.frame (State.roles_physCause e)).loadFault ..
        | none, _ =>
          generalize hy : s.queueEntry x = y
          match y, hy with
          | (e, t), e2 =>
            have ht : RightsKept r s.cur t := h.kept.frame (roles_of_snd e2 (State.roles_queueEntry x))
            have hrecord := ht.frame (State.roles_loadRecord (s := t) r .load (va : Int) 16 128)
            dsimp -zeta only
            split
            · exact (ht.frame (State.roles_setQueueState ..)).trap ..
            · split
              · exact ht.trap ..
              · split
                next e4 =>
                  rw [e4] at hrecord
                  exact hrecord.stopRole ..
                next e3 =>
                  rw [e3] at hrecord
                  split
                  · exact hrecord.given ..
                  · split
                    next e4 => exact (hrecord.frame (State.roles_physCause e4)).loadFault ..
                    · exact (hrecord.frame (State.roles_pushPacket ..)).given ..

theorem UserIssues.execYield (h : UserIssues s r) (o : FmtQ) : OutRights r s.cur (execYield o s) :=
  h.onRole (RightsKept.frame (rightsKept_setRole (s := s) (h.user.onward (q := { r with yielded := true }) rfl rfl)) rfl)

theorem UserIssues.execTrap (h : UserIssues s r) (o : FmtS) : OutRights r s.cur (execTrap o s) := h.onRole (h.kept.trapWith ..)

/-! ### Words for handlers (20 R409) -/

theorem Role.not_privileged (h : r.handler = false) : r.privileged = false := by
  simp [Role.privileged, h]

theorem UserIssues.handlerWord (h : UserIssues s r) (f : Nat → Role → State) : OutRights r s.cur (handlerWord s f) := by
  refine h.onRole ?_
  rw [h.handler, if_neg Bool.false_ne_true]
  exact h.kept.trap ..

theorem UserIssues.settledWord (h : UserIssues s r) (f : Nat → Role → State) : OutRights r s.cur (settledWord s f) := h.handlerWord _

theorem UserIssues.privWord (h : UserIssues s r) (f : Nat → Role → State) : OutRights r s.cur (privWord s f) := by
  refine h.onRole ?_
  rw [Role.not_privileged h.handler, if_neg Bool.false_ne_true]
  exact h.kept.trap ..

theorem UserIssues.execLflush (h : UserIssues s r) (o : FmtS) : OutRights r s.cur (execLflush o s) := by
  refine h.onRole ?_
  extract_lets a n pa
  rw [h.handler, Role.not_privileged h.handler, ite_self, Bool.not_false, if_pos rfl]
  exact h.kept.trap ..

theorem UserIssues.execSread (h : UserIssues s r) (o : FmtS) : OutRights r s.cur (execSread o s) := by
  refine h.onRole ?_
  extract_lets n
  split
  · exact h.kept.trap ..
  · exact rightsKept_setRole (h.user.write _ _ _).advance.mayBecome

/-- The special registers that a role writes outside handler mode are FMT, FPSTAT and CC. -/
theorem Role.writable_of_user (h : r.handler = false) {n : Nat} (hn : r.hasRight (writeRight n) = true) : n = 0x10 ∨ n = 0x12 ∨ n = 0x13 := by
  unfold writeRight at hn
  split_ifs at hn
  all_goals simp_all [Role.hasRight, Role.not_privileged]
  omega

theorem Role.User.setSpecial (h : r.User q) {n : Nat} (hn : n = 0x10 ∨ n = 0x12 ∨ n = 0x13) (v : Word) : r.User (q.setSpecial n v) := by
  obtain rfl | rfl | rfl := hn
  · exact h.frame rfl rfl
  · exact h.frame rfl rfl
  · exact h.frame rfl rfl

theorem UserIssues.execSwrite (h : UserIssues s r) (o : FmtS) : OutRights r s.cur (execSwrite o s) := by
  refine h.onRole ?_
  extract_lets n v s1
  split
  · exact h.kept.trap ..
  next hn =>
    split
    · exact h.kept.trap ..
    · exact rightsKept_setRole (h.user.setSpecial (Role.writable_of_user h.handler (by simpa using hn)) v).advance.mayBecome

end
end Sys2Proof.Machine
end

section
/-! SUPPORT. The rights stay with the handlers: every word outside handler mode (09 R210, 20 R406, R408, R409). -/
namespace Sys2Proof.Machine

/-- Every word that a role issues outside handler mode, by the form that it shares with others. -/
theorem UserIssues.exec {s : State} {r : Role} (h : UserIssues s r) (i : Instr) (hi : (encode i).isSome = true) : OutRights r s.cur (exec i s) := by
  unfold Machine.exec
  cases i
  all_goals dsimp -zeta only
  case add | sub | mul | mulhi | mad | div | rem | neg | abs | min | max | and | or | xor | not | andn | shl | shr | sar | rol | mov | clz | ctz | popc
    | brev | bfx => exact h.intA _ _
  case addImm | subImm | mulImm | minImm | maxImm | andImm | orImm | xorImm | shlImm | shrImm | sarImm | rolImm | cmpImm => exact h.intI _ _
  case fadd | fsub | fmul | fma | fms | fnma | fmin | fmax | fabs | fneg | fcpys | fclass | fgetexp | frnd | fdiv | fsqrt | frcpe | frsqe | fexp2
    | flog2 => exact h.floatA _ _
  case vbcast | vshfl | vshift | vrot => exact h.moverA _ _
  case mand | mor | mxor | mnot | mmove => exact h.maskOp _ _
  case cmp => exact h.execCmp _
  case fcmp => exact h.execFcmp _
  case bfi => exact h.execBfi _
  case sel => exact h.execSel _
  case movi => exact h.execMovi _
  case movh => exact h.execMovh _
  case fscale => exact h.execFscale _
  case pack => exact h.execPack _
  case unpack => exact h.execUnpack _
  case amaxrd => exact h.execAmaxrd _
  case amaxclr => exact h.execAmaxclr _
  case cvt => exact h.execCvt _
  case cvts => exact h.execCvts _
  case vred => exact h.execVred _
  case vscan => exact h.execVscan _
  case vballot => exact h.execVballot _
  case vcount => exact h.execVcount _
  case vfirst => exact h.execVfirst _
  case mfroms => exact h.execMfroms _
  case mtos => exact h.execMtos _
  case getfmt => exact h.execGetfmt _
  case setfmt => exact h.execSetfmt _
  case nop => exact h.execNop _
  case bra => exact h.execBra _
  case jmpi => exact h.execJmpi _
  case bc => exact h.execBc _
  case call => exact h.execCall _
  case ret => exact h.execRet _
  case split => exact h.execSplit _
  case els => exact h.execEls _
  case join => exact h.execJoin _
  case loop => exact h.execLoop _
  case brk => exact h.execBrk _
  case cont => exact h.execCont _
  case exit => exact h.execExit _
  case ld | ldsc | ldcl => exact h.loadM _ _
  case st | stsc | stcl => exact h.storeM _ _
  case ldsp => exact h.execLdsp _
  case stsp => exact h.execStsp _
  case spset => exact h.execSpset _
  case pref => exact h.execPref _
  case gath => exact h.execGath _
  case scat => exact h.execScat _
  case stmc => exact h.execStmc _
  case atom | cas => exact h.atomMA _ _
  case red => exact h.execRed _
  case cadd => exact h.execCadd _
  case cread => exact h.execCread _
  case cwait => exact h.execCwait _
  case tlwait => exact h.execTlwait _
  case fence => exact h.execFence _
  case close | copy | tcopy | halo | ared | put | get | publish | pin | vret | fcomp | encf => exact h.cmdWord _ _
  case qbind => exact h.execQbind _
  case wverset => exact h.execWverset _
  case viewset => exact h.execViewset _
  case accclr | accfl | accseq => exact h.accWrite _ _
  case accrd => exact h.execAccrd _
  case mma | mmas | mmab => exact h.matWord _ _
  case mscale => exact h.execMscale _
  case bset => exact h.execBset _
  case bq => exact h.execBq _
  case bresume => exact h.execBresume _
  case bres => exact h.execBres _
  case bproc => exact h.execBproc _
  case bsave => exact h.execBsave _
  case babort => exact h.execBabort _
  case launch => exact h.execLaunch _
  case enqr => exact h.execEnqr _
  case enqc => exact h.execEnqc _
  case yield => exact h.execYield _
  case trap => exact h.execTrap _
  case tack => exact h.execTack _
  case sread => exact h.execSread _
  case swrite => exact h.execSwrite _
  case lflush => exact h.execLflush _
  case tret | linv | halt => exact h.handlerWord _
  case ctxsave | ctxload => exact h.settledWord _
  case tlbinv | logreplay | fqpop => exact h.privWord _
  all_goals simp only [encode, Option.isSome_none, Bool.false_eq_true] at hi

end Sys2Proof.Machine

namespace Sys2Proof.Claim
open Sys2Proof.Machine

/-- Settles O60: whatever a word has done to its role, the role is one that the issuing role may become. -/
theorem rightsStayWithHandlers : Obligations.RightsStayWithHandlers := by
  intro s t r q i hr hi hh ht hq
  have hkept : OutRights r s.cur (.next t) := ht ▸ UserIssues.exec ⟨hr, hh⟩ i hi
  obtain ⟨hid, hentered⟩ := hkept.kept q hq
  simp only [Role.identity, Prod.mk.injEq] at hid
  obtain ⟨hvmid, hasid, htvec, hrsbase, hlimit, hgang, hcore, hslot, hnlanes, hbudget⟩ := hid
  exact ⟨hvmid, hasid, htvec, hrsbase, hlimit, hgang, hcore, hslot, hnlanes, hbudget, hentered⟩

end Sys2Proof.Claim
end

section
/-! SUPPORT. The reconvergence stack (09 R207-R209, 18 R380): its entries as words of the stack area, and its pushes, fills and searches. -/
namespace Sys2Proof.Machine

/-! ### An entry's words (R208 Table 4) -/

theorem StackEntry.length_words (e : StackEntry) : e.words.length = 20 := rfl

/-- The words of a list, read with its own default, are the list. -/
theorem map_getD_range {α : Type} (l : List α) (d : α) : (List.range l.length).map (fun k => l.getD k d) = l :=
  List.ext_getElem (by simp) fun k _ hk => by simp [hk]

theorem StackEntry.map_getD_words (e : StackEntry) : (List.range 20).map (fun k => e.words.getD k 0) = e.words := map_getD_range e.words 0

/-- Words of 64 bits from `k` on, put together again, are the bits from there on. -/
theorem foldr_extract (m : LaneMask) (n k : Nat) :
    ((List.range' k n).map fun j => m.extractLsb' (64 * j) 64).foldr (fun w a => w.toNat + 2 ^ 64 * a) 0 = m.toNat / 2 ^ (64 * k) % 2 ^ (64 * n) := by
  induction n generalizing k with
  | zero => simp [Nat.mod_one]
  | succ n ih =>
    rw [List.range'_succ, List.map_cons, List.foldr_cons, ih, BitVec.extractLsb'_toNat, Nat.shiftRight_eq_div_pow, Nat.mul_succ, Nat.mul_succ, Nat.pow_add,
      ← Nat.div_div_eq_div_mul, Nat.add_comm (64 * n) 64, Nat.pow_add, Nat.mod_mul]

theorem maskOfWords_extract (m : LaneMask) : maskOfWords ((List.range 16).map fun k => m.extractLsb' (64 * k) 64) = m := by
  have hbits : 64 * 16 = 1024 := rfl
  rw [maskOfWords, List.range_eq_range', foldr_extract, hbits, Nat.mul_zero, pow_zero, Nat.div_one, Nat.mod_eq_of_lt m.isLt]
  exact (BitVec.ofNat_toNat ..).trans (BitVec.setWidth_eq m)

theorem entryKindOf_code (k : EntryKind) : entryKindOf k.code = some k := by
  cases k <;> rfl

theorem EntryKind.code_lt (k : EntryKind) : k.code < 5 := by
  cases k <;> decide

theorem two_pow_sub_one_lt {n k : Nat} (h : n ≤ k) : 2 ^ n - 1 < 2 ^ k := Nat.sub_one_lt_of_le (Nat.two_pow_pos n) (Nat.pow_le_pow_right Nat.zero_lt_two h)

theorem toNat_ofNat_lt {w x : Nat} (h : x < 2 ^ w) : (BitVec.ofNat w x).toNat = x := (BitVec.toNat_ofNat x w).trans (Nat.mod_eq_of_lt h)

/-- The lanes below `n` are all of a mask that names no other. -/
theorem and_lowLanes {n : Nat} {m : LaneMask} (hn : n ≤ 1024) (hm : m.toNat < 2 ^ n) : m &&& lowLanes n = m := by
  refine BitVec.eq_of_toNat_eq ?_
  rw [BitVec.toNat_and, lowLanes, toNat_ofNat_lt (two_pow_sub_one_lt hn), Nat.and_two_pow_sub_one_eq_mod, Nat.mod_eq_of_lt hm]

/-- The mask's words above those of the lanes are zero. -/
theorem div_lanes {n m : Nat} (hm : m < 2 ^ n) : m / 2 ^ (32 * ((n + 31) / 32)) = 0 :=
  Nat.div_eq_of_lt (lt_of_lt_of_le hm (Nat.pow_le_pow_right two_pos (by omega)))

theorem wfield_lt {w : Word} {lo n : Nat} (h : w.toNat < 2 ^ lo) : wfield w lo n = 0 := by
  rw [wfield, Nat.div_eq_of_lt h, Nat.zero_mod]

/-- A program counter is its VA[56:0] where it is canonical. -/
theorem signExtend_low {a w : Word} (ha : canonical a = true) (hw : w.toNat % 2 ^ 57 = a.toNat % 2 ^ 57) : (w.extractLsb' 0 57).signExtend 64 = a := by
  have hlow : w.extractLsb' 0 57 = a.extractLsb' 0 57 := BitVec.eq_of_toNat_eq (by simpa using hw)
  rw [hlow]
  exact beq_iff_eq.mp ha

/-- The first word of an entry: KIND and VA[56:0]. -/
def StackEntry.head (e : StackEntry) : Word := BitVec.ofNat 64 (e.kind.code * 2 ^ 60 + e.pc.toNat % 2 ^ 57)

theorem StackEntry.words_eq (e : StackEntry) :
    e.words = e.head :: e.fmt :: (maskSummary e.mask).zeroExtend 64 :: 0 :: (List.range 16).map fun k => e.mask.extractLsb' (64 * k) 64 := rfl

theorem StackEntry.toNat_head (e : StackEntry) : e.head.toNat = e.kind.code * 2 ^ 60 + e.pc.toNat % 2 ^ 57 := by
  have hcode := e.kind.code_lt
  rw [StackEntry.head, BitVec.toNat_ofNat]
  omega

theorem StackEntry.kind_head (e : StackEntry) : entryKindOf (wfield e.head 60 4) = some e.kind := by
  have hcode := e.kind.code_lt
  have hkind : wfield e.head 60 4 = e.kind.code := by
    rw [wfield, e.toNat_head]
    omega
  rw [hkind, entryKindOf_code]

theorem StackEntry.clean_head (e : StackEntry) : wfield e.head 57 3 = 0 := by
  rw [wfield, e.toNat_head]
  omega

theorem StackEntry.pc_head {e : StackEntry} (h : canonical e.pc = true) : (e.head.extractLsb' 0 57).signExtend 64 = e.pc :=
  signExtend_low h (by rw [e.toNat_head]; omega)

theorem wfield_summary (m : LaneMask) : wfield ((maskSummary m).zeroExtend 64) 32 32 = 0 := by
  refine wfield_lt ?_
  rw [BitVec.toNat_setWidth]
  exact (Nat.mod_le _ _).trans_lt (maskSummary m).isLt

theorem and_fmt {w : Word} (h : w.toNat < 1024) : w &&& 0x3FF#64 = w := by
  refine BitVec.eq_of_toNat_eq ?_
  rw [BitVec.toNat_and]
  exact (Nat.and_two_pow_sub_one_eq_mod _ 10).trans (Nat.mod_eq_of_lt h)

theorem entryOfWords_words {n : Nat} {e : StackEntry} (hn : n ≤ 1024) (hpc : canonical e.pc = true) (hfmt : e.fmt.toNat < 1024)
    (hlow : 1 ≤ e.fmt.toNat % 8) (hhigh : e.fmt.toNat % 8 ≤ 4) (hmask : e.mask.toNat < 2 ^ n) : entryOfWords n e.words = some e := by
  have hfmt10 : wfield e.fmt 10 54 = 0 := wfield_lt hfmt
  have hrm : wfield e.fmt 0 3 = e.fmt.toNat % 8 := wfield_low e.fmt 3
  rw [e.words_eq, entryOfWords, e.kind_head]
  dsimp only
  rw [maskOfWords_extract, e.clean_head, hfmt10, wfield_summary, div_lanes hmask, hrm, StackEntry.pc_head hpc, and_lowLanes hn hmask, and_fmt hfmt,
    if_neg (by simp; omega)]

end Sys2Proof.Machine
end

section
/-! SUPPORT. The operations of the reconvergence stack (09 R208, R209, 18 R380): when a push stands, spills or traps, what a fill reads, and where a
search ends. -/
namespace Sys2Proof.Machine

section
variable {s t u : State} {r : Role} {rid : Nat}

theorem Role.addr64_stackAddr (r : Role) (n : Nat) : addr64 (r.stackAddr n) = r.rsbase + BitVec.ofNat 64 (160 * n) := by
  have hnat : r.stackAddr n = ((r.rsbase.toNat + 160 * n : Nat) : Int) := by
    rw [Role.stackAddr]
    push_cast
    rfl
  rw [addr64, hnat, BitVec.ofInt_natCast, BitVec.ofNat_add, BitVec.ofNat_toNat, BitVec.setWidth_eq]

/-- Word `k` of entry `n` in the stack area, as a natural number. -/
theorem Role.stackAddr_word (r : Role) (n k : Nat) : r.stackAddr n + 8 * (k : Int) = ((r.rsbase.toNat + 160 * n + 8 * k : Nat) : Int) := by
  rw [Role.stackAddr]
  push_cast
  rfl

theorem State.stackReady_ok (hw : s.windowOpen rid r = false) (hb : s.busyOps rid r = false) : s.stackReady rid r = .ok () := by
  simp [State.stackReady, hw, hb]

/-! ### Pushes -/

theorem State.pushEntries_above_limit {es : List StackEntry} (h : r.limit < r.depth + es.length) :
    s.pushEntries rid r es = .error (s.trap rid cPERM (r.rsbase + BitVec.ofNat 64 (160 * r.depth))) := by
  rw [State.pushEntries, if_pos h, r.addr64_stackAddr]

theorem State.pushEntries_held {es : List StackEntry} (hlimit : r.depth + es.length ≤ r.limit) (hroom : r.stack.length + es.length ≤ 32) :
    s.pushEntries rid r es =
      .ok ({ r with stack := (es.reverse.map fun e => { e with pc := entryPC e.pc }) ++ r.stack, depth := r.depth + es.length }, s) := by
  have hout : r.stack.length + es.length - 32 = 0 := Nat.sub_eq_zero_of_le hroom
  rw [State.pushEntries, if_neg (Nat.not_lt.mpr hlimit), hout]
  simp [State.stackWrite, Role.spillWords]

/-- The words of one entry, each with its address. -/
theorem Role.spillWords_single (r : Role) (n : Nat) (e : StackEntry) :
    r.spillWords [(n, e)] = (List.range 20).map fun k => (((r.rsbase.toNat + 160 * n + 8 * k : Nat) : Int), e.words.getD k 0) := by
  simp only [Role.spillWords, List.flatMap_singleton, Role.stackAddr_word]

theorem State.stackWrite_ok {ws : List (Int × Word)} {xs : List Spot} {es : List (Spot × Word)} (hne : ws ≠ []) (hw : s.windowOpen rid r = false)
    (hb : s.busyOps rid r = false) (hspots : s.spots r (.stack true) 8 8 (ws.map (·.1)) = (.ok xs, t)) (hes : es = xs.zip (ws.map (·.2)))
    (hwrite : t.writeSpots r 8 (xs.zip (ws.map (·.2.toNat))) = (.ok (), u)) : s.stackWrite rid r ws = .ok (r.spilling es, u) := by
  rw [State.stackWrite, if_neg (by simpa using hne), State.stackReady_ok hw hb]
  simp only [bind, Except.bind, hspots, hwrite, hes]

/-- A push on a full stack: the lowest entry goes to its place. -/
theorem State.pushEntries_spill {e low : StackEntry} {xs : List Spot} (hlimit : r.depth + 1 ≤ r.limit) (hfull : r.stack.length = 32)
    (hlow : r.stack.getLast? = some low) (hw : s.windowOpen rid r = false) (hb : s.busyOps rid r = false)
    (hspots : s.spots r (.stack true) 8 8 ((List.range 20).map fun k => ((r.rsbase.toNat + 160 * (r.depth - 32) + 8 * k : Nat) : Int)) = (.ok xs, t))
    (hwrite : t.writeSpots r 8 (xs.zip (low.words.map BitVec.toNat)) = (.ok (), u)) :
    s.pushEntries rid r [e] =
      .ok ({ r.spilling (xs.zip low.words) with stack := { e with pc := entryPC e.pc } :: r.stack.take 31, depth := r.depth + 1 }, u) := by
  have hlast : r.stack.reverse.take 1 = [low] := by
    rw [List.take_one, List.head?_reverse, hlow]
    rfl
  have hspilled : r.spillWords [(r.depth - 32, low)] =
      (List.range 20).map fun k => (((r.rsbase.toNat + 160 * (r.depth - 32) + 8 * k : Nat) : Int), low.words.getD k 0) := r.spillWords_single _ _
  have hstack : s.stackWrite rid r (r.spillWords [(r.depth - 32, low)]) = .ok (r.spilling (xs.zip low.words), u) := by
    refine State.stackWrite_ok (xs := xs) (t := t) ?_ hw hb ?_ ?_ ?_
    · rw [hspilled]
      exact List.cons_ne_nil _ _
    · rw [hspilled, List.map_map]
      exact hspots
    · rw [hspilled, List.map_map]
      exact congrArg xs.zip low.map_getD_words.symm
    · rw [hspilled, List.map_map]
      refine Eq.trans ?_ hwrite
      rw [← low.map_getD_words, List.map_map]
      rfl
  have hstands : ¬r.limit < r.depth + [e].length := Nat.not_lt.mpr hlimit
  rw [State.pushEntries, if_neg hstands, hfull]
  simp only [List.length_singleton, Nat.reduceAdd, Nat.reduceSub, hlast, Role.lowest, hfull]
  simp [hstack]

/-! ### Fills -/

theorem State.fillTop_held (h : r.stack ≠ []) : s.fillTop rid r 1 = .ok (r, s) := by
  have hlen : 0 + 1 ≤ r.stack.length := List.length_pos_iff.mpr h
  rw [State.fillTop, if_pos (.inl hlen)]

theorem State.stackWords_ok {n m : Nat} {xs : List Spot} {vs : List Nat} (hw : s.windowOpen rid r = false) (hb : s.busyOps rid r = false)
    (hspots : s.spots r (.stack false) 8 8 ((List.range m).map fun k => ((r.rsbase.toNat + 160 * n + 8 * k : Nat) : Int)) = (.ok xs, t))
    (hread : t.readSpots r 8 xs = (.ok vs, u)) :
    s.stackWords rid r n m =
      let ws := xs.zip (vs.map fun v => BitVec.ofNat 64 v)
      .ok (if r.areaChanged ws then (r.readBack ws u.fresh.1, u.fresh.2) else (ws.map (·.2), u)) := by
  rw [State.stackWords, State.stackReady_ok hw hb]
  simp only [bind, Except.bind, Role.stackAddr_word, hspots, hread]
  split
  · rfl
  · rfl

/-- A pop that finds none held takes its entry from the words that the stack area answers. -/
theorem State.fillTop_of_words {n : Nat} {ws : List Word} (hstack : r.stack = []) (hdepth : r.depth = n + 1)
    (hwords : s.stackWords rid r n 20 = .ok (ws, t)) :
    s.fillTop rid r 1 = match entryOfWords r.nlanes ws with
      | some e => .ok ({ r with stack := [e] }, t)
      | none => .error (t.trap rid cILLEGAL 0) := by
  have hlowest : r.lowest = n + 1 := by simp [Role.lowest, hstack, hdepth]
  rw [State.fillTop, if_neg (by simp [hstack, hdepth])]
  simp only [State.fillTop, bind, Except.bind, hlowest, hstack, List.length_nil, Nat.add_sub_cancel, hwords]
  rw [if_neg (by simp)]
  split
  next e => simp [e]
  next e => simp [e]

/-- Each word that is read back is the one in memory or the one that the role has put there. -/
theorem Role.getElem?_readBack (r : Role) (ws : List (Spot × Word)) (pick : Word) (k : Nat) :
    (r.readBack ws pick)[k]? = (ws.map (·.2))[k]? ∨ ∃ p, ws[k]? = some p ∧ (r.readBack ws pick)[k]? = r.spilled.find p.1.place := by
  rw [Role.readBack, List.getElem?_mapIdx, List.getElem?_map]
  cases hk : ws[k]? with
  | none => exact .inl rfl
  | some p =>
    cases hp : r.spilled.find p.1.place with
    | none => exact .inl (by simp [hp])
    | some old =>
      cases pick.getLsbD k with
      | true => exact .inr ⟨p, rfl, by simp [hp]⟩
      | false => exact .inl (by simp [hp])

/-! ### The search of BRK -/

theorem wfield_kind (w : Word) : wfield w 60 4 = w.toNat / 2 ^ 60 := Nat.mod_eq_of_lt (by have := w.isLt; omega)

theorem entryKindOf_other {n : Nat} (h : n = 0 ∨ 4 ≤ n) : entryKindOf n = none ∨ entryKindOf n = some .call := by
  match n, h with
  | 0, _ => exact .inl rfl
  | 4, _ => exact .inr rfl
  | _ + 5, _ => exact .inl rfl

section
variable {n : Nat} {w : Word}

theorem State.findSpilled_loop (h : s.stackWords rid r n 1 = .ok ([w], t)) (hkind : w.toNat / 2 ^ 60 = 3) (hclean : w.toNat / 2 ^ 57 % 8 = 0) :
    s.findSpilled rid r (n + 1) = .ok (n, t) := by
  have hc : wfield w 57 3 = 0 := hclean
  rw [State.findSpilled, h]
  simp only [bind, Except.bind, List.headD_cons, wfield_kind, hkind, entryKindOf, hc, if_true]

theorem State.findSpilled_path (h : s.stackWords rid r n 1 = .ok ([w], t)) (hkind : w.toNat / 2 ^ 60 = 1 ∨ w.toNat / 2 ^ 60 = 2)
    (hclean : w.toNat / 2 ^ 57 % 8 = 0) : s.findSpilled rid r (n + 1) = t.findSpilled rid r n := by
  have hc : wfield w 57 3 = 0 := hclean
  rw [State.findSpilled, h]
  obtain hk | hk := hkind
  · simp only [bind, Except.bind, List.headD_cons, wfield_kind, hk, entryKindOf, hc, if_true]
  · simp only [bind, Except.bind, List.headD_cons, wfield_kind, hk, entryKindOf, hc, if_true]

theorem State.findSpilled_bad (h : s.stackWords rid r n 1 = .ok ([w], t))
    (hbad : w.toNat / 2 ^ 60 = 0 ∨ 4 ≤ w.toNat / 2 ^ 60 ∨ ¬w.toNat / 2 ^ 57 % 8 = 0) :
    s.findSpilled rid r (n + 1) = .error (t.trap rid cILLEGAL 0) := by
  rw [State.findSpilled, h]
  simp only [bind, Except.bind, List.headD_cons, wfield_kind]
  rw [← or_assoc] at hbad
  obtain hk | hc := hbad
  · obtain hk | hk := entryKindOf_other hk
    · simp only [hk]
    · simp only [hk]
  · have hc : ¬wfield w 57 3 = 0 := hc
    simp only [hc, if_false]
    split <;> rfl

end
end
end Sys2Proof.Machine

namespace Sys2Proof.Claim
open Sys2Proof.Machine

theorem stackHoldsTheTop : Claim.StackHoldsTheTop := by
  intro s rid r
  refine ⟨fun es h => State.pushEntries_above_limit h, fun es hl hr => State.pushEntries_held hl hr, ?_, State.fillTop_held, ?_,
    r.getElem?_readBack, rfl, fun n w t h => ⟨State.findSpilled_loop h, State.findSpilled_path h, State.findSpilled_bad h⟩⟩
  · intro e low xs t u hlimit hfull _ hlow hw hb hspots hwrite
    exact State.pushEntries_spill hlimit hfull hlow hw hb hspots hwrite
  · intro n e xs vs t u hstack hdepth hw hb hspots hread ws
    have hwords := State.stackWords_ok (rid := rid) hw hb hspots hread
    have hsame (h : r.areaChanged ws = false) : s.stackWords rid r n 20 = .ok (ws.map (·.2), u) :=
      hwords.trans (congrArg Except.ok (if_neg (by rw [h]; exact Bool.false_ne_true)))
    have hchanged (h : r.areaChanged ws = true) : s.stackWords rid r n 20 = .ok (r.readBack ws u.fresh.1, u.fresh.2) :=
      hwords.trans (congrArg Except.ok (if_pos h))
    refine ⟨fun h he => ?_, fun h he => ?_, fun h he => ?_⟩
    · rw [State.fillTop_of_words hstack hdepth (hsame h), he]
    · rw [State.fillTop_of_words hstack hdepth (hchanged h), he]
    · rw [State.fillTop_of_words hstack hdepth (hsame h), he]

theorem spilledEntryReadsBack : Claim.SpilledEntryReadsBack :=
  fun _ e hn hpc hfmt hlow hhigh hmask => ⟨e.length_words, entryOfWords_words hn hpc hfmt hlow hhigh hmask⟩

/-- Settles O13: pushes, fills, searches, and the round trip of an entry. -/
theorem theStack : Obligations.TheStack := ⟨stackHoldsTheTop, spilledEntryReadsBack⟩

end Sys2Proof.Claim
end

section
/-! SUPPORT. SREAD and SWRITE (09 R210-R214, 21 R435): who may reach a special register, what it reads, and the bits that it takes. -/
namespace Sys2Proof.Machine

/-! ### Rights (R210, R409) -/

theorem ok_of_firstFail {l : List (Bool × Illegal)} (h : firstFail l = none) : ∀ p ∈ l, p.1 = true := by
  induction l with
  | nil => exact List.forall_mem_nil _
  | cons p l ih =>
    obtain ⟨ok, why⟩ := p
    rw [firstFail] at h
    split at h
    next hok => exact List.forall_mem_cons.mpr ⟨hok, ih h⟩
    next => exact absurd h (Option.some_ne_none why)

/-- A legal SWRITE names a register that exists. -/
theorem sregListed_of_wf {o : FmtS} (h : (Instr.swrite o).wf = true) : sregListed o.sreg.toNat = true := by
  have hcheck : checkS o { a := .s, sreg := fun n => sregListed n.toNat } = none := beq_iff_eq.mp h
  exact ok_of_firstFail hcheck (sregListed o.sreg.toNat, .unusedField) (by simp)

section
variable {r : Role} {n : Nat}

theorem Role.privileged_iff (r : Role) : r.privileged = true ↔ r.handler = true ∧ r.vmid = 0 := by
  simp [Role.privileged]

theorem Role.mayRead_iff (r : Role) (n : Nat) :
    r.hasRight (readRight n) = true ↔ n < 0x30 ∨ (n < 0x35 ∧ r.handler = true) ∨ (r.handler = true ∧ r.vmid = 0) := by
  unfold readRight
  by_cases h30 : n < 0x30
  · simp [h30, Role.hasRight]
  · by_cases h35 : n < 0x35
    · simp only [h30, h35, if_false, if_true, Role.hasRight]
      tauto
    · simp [h30, h35, Role.hasRight, Role.privileged_iff]

/-- The registers that a handler may write, beside those that any role may. -/
theorem Role.mayWrite_iff (r : Role) (h : sregListed n = true) :
    r.hasRight (writeRight n) = true ↔ n = 0x10 ∨ n = 0x12 ∨ n = 0x13 ∨
      (r.handler = true ∧ (n = 0x11 ∨ n = 0x14 ∨ n = 0x16 ∨ n = 0x17 ∨ (0x21 ≤ n ∧ n < 0x34))) ∨
      ((r.handler = true ∧ r.vmid = 0) ∧ (n = 0x15 ∨ n = 0x34 ∨ n = 0x35 ∨ n = 0x40)) := by
  have hlisted : (1 ≤ n ∧ n ≤ 7) ∨ (0x10 ≤ n ∧ n ≤ 0x17) ∨ (0x21 ≤ n ∧ n ≤ 0x2F) ∨ (0x30 ≤ n ∧ n ≤ 0x35) ∨ (0x40 ≤ n ∧ n ≤ 0x42) := by
    simpa [sregListed, or_assoc] using h
  obtain ⟨hlo, hhi⟩ | ⟨hlo, hhi⟩ | ⟨hlo, hhi⟩ | ⟨hlo, hhi⟩ | ⟨hlo, hhi⟩ := hlisted
  all_goals interval_cases n <;> simp [writeRight, Role.hasRight, Role.privileged_iff]

end

/-! ### What each register reads (R435) -/

theorem State.special_view (s : State) (r : Role) {k : Nat} (h1 : 1 ≤ k) (h16 : k < 16) :
    s.special r (0x20 + k) = BitVec.ofNat 64 (Sparse.get 0 r.views k) := by
  interval_cases k <;> rfl

/-! ### The bits that each register takes (R211-R214) -/

/-- The move past a word, as a change of fields. -/
def Role.past (r : Role) : Role :=
  { r with hold := .ready, tack := if r.tackLast then none else r.tack, tackLast := false, pc := nextPc r.pc r.clause,
           topped := nextTopped r.topped r.clause, clause := nextClause r.clause }

theorem Role.advance_eq_past (r : Role) : r.advance = r.past := r.advance_eq

theorem Role.setSpecial_view (r : Role) (v : Word) {k : Nat} (h1 : 1 ≤ k) (h16 : k < 16) :
    r.setSpecial (0x20 + k) v = { r with views := Sparse.set 0 r.views k (wfield v 0 32) } := by
  interval_cases k <;> rfl

theorem toNat_and_low {m : Word} {k : Nat} (h : m.toNat = 2 ^ k - 1) (v : Word) : (v &&& m).toNat = v.toNat % 2 ^ k := by
  rw [BitVec.toNat_and, h, Nat.and_two_pow_sub_one_eq_mod]

theorem toNat_and_not_low5 (v : Word) : (v &&& ~~~(0x1F#64)).toNat = v.toNat / 32 * 32 := by
  have hfield : v &&& ~~~(0x1F#64) = withField v 0 5 0 := by simp [withField]
  rw [hfield, toNat_withField_low v 0 (by decide)]
  rfl

/-- TCAUSE has bits 0 to 10 and 32 to 49. -/
theorem getLsbD_tcause (v : Word) {i : Nat} (h : i < 64) :
    (v &&& 0x0003_FFFF_0000_07FF#64).getLsbD i = (v.getLsbD i && decide (i ≤ 10 ∨ (32 ≤ i ∧ i ≤ 49))) := by
  have hmask : ∀ i < 64, (0x0003_FFFF_0000_07FF#64).getLsbD i = decide (i ≤ 10 ∨ (32 ≤ i ∧ i ≤ 49)) := by decide
  rw [BitVec.getLsbD_and, hmask i h]

/-! ### PTS and HASHSEL (02 R70, 06 R117) -/

section
variable (s : State)

theorem State.pts_core_raisePts (c n : Nat) : ((s.raisePts c n).core c).pts = max (s.core c).pts n := by
  rw [State.raisePts, Claim.core_updCore_same]
  split
  next h => exact (max_eq_right h.le).symm
  next h => exact (max_eq_left (not_lt.mp h)).symm

/-- The register takes a change of its select field while the die holds no line and has slices enough. -/
theorem State.writeHashsel_eq (d : Nat) (v : Word) :
    s.writeHashsel d v =
      if (s.die d).lines = [] ∧ v.toNat % 4 ≠ 3 ∧ 32 - v.toNat % 4 ≤ (s.die d).hashsel.toNat / 4 % 64 then
        s.setDie d { s.die d with hashsel := withField (s.die d).hashsel 0 2 (v.toNat % 4) }
      else s := by
  have hsel : wfield v 0 2 = v.toNat % 4 := wfield_low v 2
  have hen : wfield (s.die d).hashsel 2 6 = (s.die d).hashsel.toNat / 4 % 64 := rfl
  rw [State.writeHashsel]
  dsimp only
  rw [hsel, hen]
  by_cases h : (s.die d).lines = [] ∧ v.toNat % 4 ≠ 3 ∧ 32 - v.toNat % 4 ≤ (s.die d).hashsel.toNat / 4 % 64
  · obtain ⟨hl, h3, hn⟩ := h
    rw [if_neg (by simp [hl, h3, hn]), if_pos ⟨hl, h3, hn⟩]
  · rw [if_neg h, if_pos]
    simp only [Bool.or_eq_true, decide_eq_true_eq, Bool.not_eq_true', List.isEmpty_eq_false_iff]
    by_contra hall
    rw [not_or, not_or, not_not, not_lt] at hall
    exact h ⟨hall.1.1, hall.1.2, hall.2⟩

end
end Sys2Proof.Machine

namespace Sys2Proof.Claim
open Sys2Proof.Machine

theorem specialValue (s : State) (r : Role) (n : Nat) : SpecialValue s r n (s.special r n) := by
  have hmod {x : Nat} (h : x < 2 ^ 32) : BitVec.ofNat 64 (x % 2 ^ 32) = BitVec.ofNat 64 x := by rw [Nat.mod_eq_of_lt h]
  refine ⟨?_, ?_, ?_, ?_, ?_, ?_, ?_, ?_, ?_, ?_, ?_, ?_, ?_, ?_, ?_, ?_, ?_, ?_, ?_, ?_, ?_, ?_, ?_, ?_⟩
  case refine_4 =>
    rintro rfl h
    exact hmod h
  case refine_5 =>
    rintro rfl h
    exact hmod h
  case refine_15 =>
    rintro k h1 h16 rfl
    exact s.special_view r h1 h16
  all_goals
    rintro rfl
    rfl

/-- A result without flags that the role then moves past. -/
theorem moveDone_of_write {i : Instr} {s : State} {r : Role} {d : RegName} {m : BitVec 3} {f : Nat → Word}
    (h : exec i s = .next (s.setRole s.cur (r.write d m fun l => (f l, 0)).advance)) : MoveDone i s r d m f := by
  refine completes_of i s _ _ h ?_
  have hwrite := r.write_eq d m fun l => (f l, 0)
  refine ⟨?_, ?_, ?_, ?_, ?_, moved_of r _ ?_⟩
  · have hw := wrote_write r d m fun l => (f l, 0)
    rw [Role.advance_eq]
    exact hw
  · rw [Role.advance_eq, hwrite]
  · rw [Role.advance_eq, hwrite]
  · rw [Role.advance_eq]
    exact r.write_fpstat d m f
  · rw [Role.advance_eq, hwrite]
  · rw [hwrite]

section
variable {s : State} {r : Role} {o : FmtS}

theorem exec_sread (hr : Issuing s r) (h : r.hasRight (readRight o.sreg.toNat) = true) :
    exec (.sread o) s = .next (s.setRole s.cur
      (r.write o.d o.mask fun l => (if o.sreg.toNat = 1 then BitVec.ofNat 64 l else s.special r o.sreg.toNat, 0)).advance) := by
  change execSread o s = _
  rw [execSread, onRole_next s _ r hr]
  simp only [h, Bool.not_true, Bool.false_eq_true, if_false]

theorem exec_sread_priv (hr : Issuing s r) (h : ¬r.hasRight (readRight o.sreg.toNat) = true) :
    exec (.sread o) s = .next (s.trap s.cur cPRIV 0) := by
  change execSread o s = _
  rw [execSread, onRole_next s _ r hr]
  simp only [h, Bool.not_false, if_true]

theorem exec_swrite_priv (hr : Issuing s r) (h : ¬r.hasRight (writeRight o.sreg.toNat) = true) :
    exec (.swrite o) s = .next (s.trap s.cur cPRIV 0) := by
  change execSwrite o s = _
  rw [execSwrite, onRole_next s _ r hr]
  simp only [h, Bool.not_false, if_true]

/-- The state in which SWRITE writes its role: PTS and HASHSEL are the core's and the die's. -/
def swriteState (s : State) (r : Role) (n : Nat) (v : Word) : State :=
  if n = 0x15 then s.raisePts r.core v.toNat else if n = 0x40 then s.writeHashsel (dieOf r.core) v else s

theorem exec_swrite (hr : Issuing s r) (h : r.hasRight (writeRight o.sreg.toNat) = true) (hfmt : o.sreg.toNat = 0x10 → fmtOk (r.sreg o.a.num) = true) :
    exec (.swrite o) s = .next ((swriteState s r o.sreg.toNat (r.sreg o.a.num)).setRole s.cur
      (r.setSpecial o.sreg.toNat (r.sreg o.a.num)).advance) := by
  change execSwrite o s = _
  rw [execSwrite, onRole_next s _ r hr]
  have hok : (decide (o.sreg.toNat = 0x10) && !fmtOk (r.sreg o.a.num)) = false := by
    by_cases hn : o.sreg.toNat = 0x10
    · simp [hfmt hn]
    · simp [hn]
  simp only [h, Bool.not_true, Bool.false_eq_true, if_false, hok]
  rfl

theorem exec_swrite_fmt_illegal (hr : Issuing s r) (h : r.hasRight (writeRight o.sreg.toNat) = true) (hn : o.sreg.toNat = 0x10)
    (hbad : fmtOk (r.sreg o.a.num) = false) : exec (.swrite o) s = .next (s.trap s.cur cILLEGAL 0) := by
  change execSwrite o s = _
  rw [execSwrite, onRole_next s _ r hr]
  rw [hn] at h
  simp only [h, hn, hbad, Bool.not_true, Bool.false_eq_true, if_false, Bool.not_false, decide_true, Bool.and_self, if_true]

/-- A register of the role itself. -/
theorem completes_swrite {post : Role → Prop} (hr : Issuing s r) (h : r.hasRight (writeRight o.sreg.toNat) = true) {n : Nat} (hn : o.sreg.toNat = n)
    (hfmt : n = 0x10 → fmtOk (r.sreg o.a.num) = true) (hpts : n ≠ 0x15) (hhash : n ≠ 0x40)
    (hp : post (r.setSpecial n (r.sreg o.a.num)).past) : Completes (.swrite o) s post := by
  subst hn
  rw [← Role.advance_eq_past] at hp
  refine completes_of _ s _ post ?_ hp
  rw [exec_swrite hr h hfmt, swriteState, if_neg hpts, if_neg hhash]

end

/-- What SWRITE to PTS does to the cores (06 R117). -/
theorem swrite_pts {s : State} {r : Role} {o : FmtS} (hr : Issuing s r) (h : r.hasRight (writeRight o.sreg.toNat) = true) (hn : o.sreg.toNat = 0x15) :
    ∃ t, exec (.swrite o) s = .next t ∧ t.role? s.cur = some r.advance ∧
      (t.core r.core).pts = max (s.core r.core).pts (r.sreg o.a.num).toNat ∧ t.mem = s.mem ∧ ∀ c, c ≠ r.core → t.core c = s.core c := by
  have hexec := exec_swrite hr h fun hn' => absurd (hn.symm.trans hn') (by decide)
  rw [hn] at hexec
  exact ⟨_, hexec, State.role?_setRole_same _ _ _, s.pts_core_raisePts r.core _, rfl, fun c hc => Sparse.get_put_other _ _ _ _ _ hc⟩

/-- What SWRITE to HASHSEL does to the dies (02 R70). -/
theorem swrite_hashsel {s : State} {r : Role} {o : FmtS} (hr : Issuing s r) (h : r.hasRight (writeRight o.sreg.toNat) = true)
    (hn : o.sreg.toNat = 0x40) :
    ∃ t, exec (.swrite o) s = .next t ∧ t.role? s.cur = some r.advance ∧ t.mem = s.mem ∧ t.cores = s.cores ∧
      (∀ d, d ≠ dieOf r.core → t.die d = s.die d) ∧
      let v := r.sreg o.a.num
      let x := s.die (dieOf r.core)
      let takes := x.lines = [] ∧ v.toNat % 4 ≠ 3 ∧ 32 - v.toNat % 4 ≤ x.hashsel.toNat / 4 % 64
      (¬takes → t.dies = s.dies) ∧ (takes → (t.die (dieOf r.core)).hashsel.toNat = x.hashsel.toNat / 4 * 4 + v.toNat % 4) := by
  have hexec := exec_swrite hr h fun hn' => absurd (hn.symm.trans hn') (by decide)
  rw [hn, swriteState, if_neg (by decide), if_pos rfl, State.writeHashsel_eq] at hexec
  refine ⟨_, hexec, State.role?_setRole_same _ _ _, ?_⟩
  split
  next htakes =>
    refine ⟨rfl, rfl, fun d hd => State.die_setDie_other s _ hd, fun hno => absurd htakes hno, fun _ => ?_⟩
    refine (congrArg (fun x : DieState => x.hashsel.toNat) (State.die_setDie_same s _ _)).trans ?_
    refine (toNat_withField_low _ _ (by decide)).trans ?_
    exact congrArg _ (Nat.mod_mod _ 4)
  next hno => exact ⟨rfl, rfl, fun _ _ => rfl, fun _ => rfl, fun htakes => absurd htakes hno⟩

/-- Settles O42: rights, values, and the bits of each register. -/
theorem specialRegisters : Obligations.SpecialRegisters := by
  intro s r o hr n v priv mayRead mayWrite writes
  refine ⟨fun _ hno => exec_sread_priv hr fun h => hno ((r.mayRead_iff n).mp h), fun _ hmay => ?_,
    fun hwf hno => exec_swrite_priv hr fun h => hno ((r.mayWrite_iff (sregListed_of_wf hwf)).mp h), fun hwf hmay => ?_⟩
  · have hexec := exec_sread hr ((r.mayRead_iff n).mpr hmay)
    refine ⟨fun hn => moveDone_of_write ?_, fun hn => ⟨s.special r n, moveDone_of_write ?_, specialValue s r n⟩⟩
    · simpa only [show o.sreg.toNat = 1 from hn, if_true] using hexec
    · simpa only [show ¬o.sreg.toNat = 1 from hn, if_false] using hexec
  · have hright := (r.mayWrite_iff (sregListed_of_wf hwf)).mpr hmay
    have hown {m : Nat} (hn : n = m) (hfmt : m = 0x10 → fmtOk v = true) (hm : m ≠ 0x15 ∧ m ≠ 0x40) {f : Role → Prop} {g : Role → Role}
        (hf : f (r.setSpecial m v).past) (hg : g (r.setSpecial m v).past = r.past) : writes f g :=
      completes_swrite hr hright hn hfmt hm.1 hm.2 ⟨hf, hg.trans r.advance_eq_past.symm⟩
    have hother {m : Nat} (hm : m ≠ 0x10) : m = 0x10 → fmtOk v = true := fun h => absurd h hm
    refine ⟨fun hn => ?_, fun hn => ⟨exec_swrite_fmt_illegal hr hright hn, fun hok => ?_⟩, fun hn => ?_, fun hn => ?_, fun hn => ?_, fun hn => ?_,
      fun hn => ?_, fun hn => ?_, fun k h1 h16 hn => ?_, fun hn => ?_, fun hn => ?_, fun hn => ?_, fun hn => ?_, fun hn => ?_,
      swrite_pts hr hright, swrite_hashsel hr hright⟩
    · exact completes_swrite hr hright hn (hother (by decide)) (by decide) (by decide) r.advance_eq_past.symm
    · exact hown hn (fun _ => hok) (by decide) (toNat_and_low (k := 10) rfl v) rfl
    · exact hown hn (hother (by decide)) (by decide) (toNat_and_low (k := 63) rfl v) rfl
    · exact hown hn (hother (by decide)) (by decide) (toNat_and_low (k := 5) rfl v) rfl
    · exact hown hn (hother (by decide)) (by decide) (toNat_and_low (k := 5) rfl v) rfl
    · exact hown hn (hother (by decide)) (by decide) (wfield_low v 32) rfl
    · exact hown hn (hother (by decide)) (by decide) (toNat_and_not_low5 v) rfl
    · exact hown hn (hother (by decide)) (by decide) ⟨wfield_high v, wfield_low v 32⟩ rfl
    · refine hown hn (hother (by omega)) (by omega) ?_ ?_
      · rw [r.setSpecial_view v h1 h16]
        intro j
        exact (Sparse.get_set 0 r.views k j (wfield v 0 32)).trans (by rw [wfield_low])
      · rw [r.setSpecial_view v h1 h16]
        rfl
    · exact hown hn (hother (by decide)) (by decide) rfl rfl
    · exact hown hn (hother (by decide)) (by decide) (fun _ hi => getLsbD_tcause v hi) rfl
    · exact hown hn (hother (by decide)) (by decide) rfl rfl
    · exact hown hn (hother (by decide)) (by decide) rfl rfl
    · exact hown hn (hother (by decide)) (by decide) (wfield_low v 16) rfl

end Sys2Proof.Claim
end

section
/-! SUPPORT. The start of a gang (09 R201, 19 R390, R393, 20 R407): one role, all roles of a shape, and what the start leaves. -/
namespace Sys2Proof.Machine

/-! ### One role -/

/-- The role of a shape `x` that starts as number `j` of team `i` of a gang. -/
structure RoleStarts (s : State) (gid : Nat) (g : Gang) (sh : Shape) (args : List Word) (i j : Nat) (x : RoleShape) (q : Role) : Prop where
  gang : q.gang = gid
  place : q.team = i ∧ q.ix = j ∧ q.rank = i % sh.cores ∧ q.core = g.cores.getD (i % sh.cores) 0
  size : q.nlanes = x.lanes ∧ q.budget = x.budget
  entry : q.pc = x.entry ∧ q.clause = none
  running : q.handler = false ∧ q.ended = false
  identity : q.vmid = g.vmid ∧ q.asid = g.asid ∧ q.prio = g.prio
  sregs : ∀ n, q.sreg n = args.getD n 0
  vregs : q.vregs = []
  mask : ∀ l, l < 1024 → (q.mask 0).getLsbD l = decide (l < x.lanes)
  stack : q.stack = [] ∧ q.rsbase = BitVec.ofNat 64 (sh.stkbase + sh.stride * (384 * g.g + 4 * i + j)) ∧ q.limit = sh.limit
  tvec : q.tvec = s.reg (dieOf q.core) (0x6100 + 8 * g.vmid)

/-- What the start of roles leaves of a state: the gangs, the memory, the dies, each core's pts, and the roles that were there. -/
structure RolesAdded (s t : State) : Prop where
  gangs : t.gangs = s.gangs
  nextGang : t.nextGang = s.nextGang
  mem : t.mem = s.mem
  dies : t.dies = s.dies
  nextRole : s.nextRole ≤ t.nextRole
  roles : ∀ k, k < s.nextRole → t.role? k = s.role? k

section
variable {s t u : State} {gid : Nat} {g : Gang} {sh : Shape} {args : List Word} {pts : Nat}

theorem RolesAdded.refl (s : State) : RolesAdded s s := ⟨rfl, rfl, rfl, rfl, le_rfl, fun _ _ => rfl⟩

theorem RolesAdded.trans (h : RolesAdded s t) (h' : RolesAdded t u) : RolesAdded s u where
  gangs := h'.gangs.trans h.gangs
  nextGang := h'.nextGang.trans h.nextGang
  mem := h'.mem.trans h.mem
  dies := h'.dies.trans h.dies
  nextRole := h.nextRole.trans h'.nextRole
  roles k hk := (h'.roles k (hk.trans_le h.nextRole)).trans (h.roles k hk)

theorem State.reg_of_dies (h : t.dies = s.dies) (d off : Nat) : t.reg d off = s.reg d off := by
  rw [State.reg, State.die, h]
  rfl

theorem RoleStarts.of_dies {i j : Nat} {x : RoleShape} {q : Role} (hq : RoleStarts t gid g sh args i j x q) (h : t.dies = s.dies) :
    RoleStarts s gid g sh args i j x q := { hq with tvec := hq.tvec.trans (State.reg_of_dies h _ _) }

/-- The scalar registers of a new role are the arguments, in order. -/
theorem get_foldl_zipIdx (l : List Word) (t : Sparse Word) (m n : Nat) :
    Sparse.get 0 ((l.zipIdx m).foldl (fun t p => Sparse.set 0 t p.2 p.1) t) n = if m ≤ n ∧ n < m + l.length then l.getD (n - m) 0 else Sparse.get 0 t n := by
  induction l generalizing t m with
  | nil => simp
  | cons w l ih =>
    rw [List.zipIdx_cons, List.foldl_cons, ih, Sparse.get_set]
    by_cases hn : n = m
    · subst hn
      simp
    · by_cases hin : m + 1 ≤ n ∧ n < m + 1 + l.length
      · rw [if_pos hin, if_pos (by rw [List.length_cons]; omega), show n - m = n - (m + 1) + 1 by omega, List.getD_cons_succ]
      · rw [if_neg hin, if_neg hn, if_neg (by rw [List.length_cons]; omega)]

theorem sreg_args (args : List Word) (n : Nat) : Sparse.get 0 (args.zipIdx.foldl (fun t p => Sparse.set 0 t p.2 p.1) []) n = args.getD n 0 := by
  rw [get_foldl_zipIdx]
  split
  · rfl
  next hn =>
    rw [List.getD_eq_default _ _ (by omega)]
    rfl

theorem getLsbD_lowLanes (n : Nat) {l : Nat} (hl : l < 1024) : (lowLanes n).getLsbD l = decide (l < n) := by
  rw [lowLanes, BitVec.getLsbD_ofNat, Nat.testBit_two_pow_sub_one, decide_eq_true hl, Bool.true_and]

theorem State.rolesAdded_addRole (i j : Nat) (x : RoleShape) : RolesAdded s (s.addRole gid g sh args i j x pts) where
  gangs := rfl
  nextGang := rfl
  mem := rfl
  dies := rfl
  nextRole := Nat.le_succ _
  roles _ hk := Sparse.find_put_other _ _ _ _ (Nat.ne_of_lt hk)

theorem State.role_addRole (i j : Nat) (x : RoleShape) :
    ∃ q, (s.addRole gid g sh args i j x pts).role? s.nextRole = some q ∧ RoleStarts s gid g sh args i j x q := by
  refine ⟨_, Sparse.find_put_same _ _ _, rfl, ⟨rfl, rfl, rfl, rfl⟩, ⟨rfl, rfl⟩, ⟨rfl, rfl⟩, ⟨rfl, rfl⟩, ⟨rfl, rfl, rfl⟩, sreg_args args, rfl,
    fun l hl => ?_, ⟨rfl, rfl, rfl⟩, rfl⟩
  exact (congrArg (fun m : LaneMask => m.getLsbD l) (Sparse.get_set_same 0 [] 0 (lowLanes x.lanes))).trans (getLsbD_lowLanes _ hl)

/-! ### All roles of a shape -/

/-- The roles of a shape: team, number, shape. -/
def Shape.roles (sh : Shape) : List (Nat × Nat × RoleShape) := sh.teams.zipIdx.flatMap fun t => t.1.zipIdx.map fun r => (t.2, r.2, r.1)

theorem Shape.mem_roles {i j : Nat} {rs : List RoleShape} {x : RoleShape} (hrs : sh.teams[i]? = some rs) (hx : rs[j]? = some x) :
    (i, j, x) ∈ sh.roles :=
  List.mem_flatMap.mpr ⟨(rs, i), List.mem_zipIdx_iff_getElem?.mpr hrs, List.mem_map.mpr ⟨(x, j), List.mem_zipIdx_iff_getElem?.mpr hx, rfl⟩⟩

/-- The roles of a list start one after another. -/
def State.addRoles (s : State) (gid : Nat) (g : Gang) (sh : Shape) (args : List Word) (pts : Nat) (l : List (Nat × Nat × RoleShape)) : State :=
  l.foldl (fun s p => s.addRole gid g sh args p.1 p.2.1 p.2.2 pts) s

theorem State.admitGang_eq (s : State) (sh : Shape) (g : Gang) (args : List Word) (pts : Nat) :
    s.admitGang sh g args pts = g.cores.foldl (fun s c => (s.raisePts c pts).trimL1 c)
      (State.addRoles { s with gangs := s.gangs.put s.nextGang g, nextGang := s.nextGang + 1 } s.nextGang g sh args pts sh.roles) := by
  simp only [State.admitGang, State.addRoles, Shape.roles, List.foldl_flatMap, List.foldl_map]

theorem State.rolesAdded_addRoles (l : List (Nat × Nat × RoleShape)) : RolesAdded s (s.addRoles gid g sh args pts l) := by
  induction l generalizing s with
  | nil => exact .refl s
  | cons p l ih => exact (s.rolesAdded_addRole p.1 p.2.1 p.2.2).trans ih

/-- Each of them stands in the end, under a number of its own. -/
theorem State.role_addRoles {l : List (Nat × Nat × RoleShape)} {i j : Nat} {x : RoleShape} (h : (i, j, x) ∈ l) :
    ∃ k q, s.nextRole ≤ k ∧ (s.addRoles gid g sh args pts l).role? k = some q ∧ RoleStarts s gid g sh args i j x q := by
  induction l generalizing s with
  | nil => exact absurd h List.not_mem_nil
  | cons p l ih =>
    have hadded : RolesAdded s (s.addRole gid g sh args p.1 p.2.1 p.2.2 pts) := s.rolesAdded_addRole p.1 p.2.1 p.2.2
    obtain rfl | h := List.mem_cons.mp h
    · obtain ⟨q, hq, hstarts⟩ := s.role_addRole (gid := gid) (g := g) (sh := sh) (args := args) (pts := pts) i j x
      have hlater := (State.rolesAdded_addRoles (s := s.addRole gid g sh args i j x pts) (gid := gid) (g := g) (sh := sh) (args := args) (pts := pts) l).roles
        s.nextRole (Nat.lt_succ_self _)
      exact ⟨s.nextRole, q, le_rfl, hlater.trans hq, hstarts⟩
    · obtain ⟨k, q, hk, hq, hstarts⟩ := ih (s := s.addRole gid g sh args p.1 p.2.1 p.2.2 pts) h
      exact ⟨k, q, hadded.nextRole.trans hk, hq, hstarts.of_dies hadded.dies⟩

/-! ### The cores' clocks -/

/-- The start's acquire on each core: no other field than the cores changes, and no core's pts falls. -/
structure CoresRisen (s t : State) : Prop where
  rest : t = { s with cores := t.cores }
  pts : ∀ c, (s.core c).pts ≤ (t.core c).pts

theorem CoresRisen.trans (h : CoresRisen s t) (h' : CoresRisen t u) : CoresRisen s u where
  rest := by
    rw [h'.rest, h.rest]
  pts c := (h.pts c).trans (h'.pts c)

theorem State.coresRisen_updCore (c : Nat) {f : Core → Core} (hf : (s.core c).pts ≤ (f (s.core c)).pts) : CoresRisen s (s.updCore c f) where
  rest := rfl
  pts d := by
    by_cases hd : d = c
    · subst hd
      rw [Claim.core_updCore_same]
      exact hf
    · exact (congrArg Core.pts (Sparse.get_put_other _ _ _ _ _ hd)).ge

theorem State.coresRisen_trimL1 (c : Nat) : CoresRisen s (s.trimL1 c) := by
  unfold State.trimL1
  exact State.coresRisen_updCore c le_rfl

theorem State.coresRisen_acquire (c : Nat) : CoresRisen s ((s.raisePts c pts).trimL1 c) := by
  have hraise : CoresRisen s (s.raisePts c pts) := State.coresRisen_updCore c (by
    split
    next h => exact h.le
    next => exact le_rfl)
  exact hraise.trans (State.coresRisen_trimL1 c)

theorem State.le_pts_acquire (c : Nat) : pts ≤ (((s.raisePts c pts).trimL1 c).core c).pts := by
  refine le_trans ?_ ((State.coresRisen_trimL1 c).pts c)
  rw [State.raisePts, Claim.core_updCore_same]
  split
  next => exact le_rfl
  next h => exact not_lt.mp h

theorem State.coresRisen_acquires (l : List Nat) : CoresRisen s (l.foldl (fun s c => (s.raisePts c pts).trimL1 c) s) := by
  induction l generalizing s with
  | nil => exact ⟨rfl, fun _ => le_rfl⟩
  | cons c l ih => exact (s.coresRisen_acquire c).trans ih

theorem State.le_pts_acquires {l : List Nat} {c : Nat} (h : c ∈ l) : pts ≤ ((l.foldl (fun s c => (s.raisePts c pts).trimL1 c) s).core c).pts := by
  induction l generalizing s with
  | nil => exact absurd h List.not_mem_nil
  | cons d l ih =>
    obtain rfl | h := List.mem_cons.mp h
    · exact (s.le_pts_acquire c).trans ((State.coresRisen_acquires l).pts c)
    · exact ih h

end
end Sys2Proof.Machine

namespace Sys2Proof.Claim
open Sys2Proof.Machine

/-- Settles O45: the roles start one after another, none of them over another, and the acquire on the cores leaves them. -/
theorem gangsStartWhole : Obligations.GangsStartWhole := by
  intro s sh g args pts t
  let s1 : State := { s with gangs := s.gangs.put s.nextGang g, nextGang := s.nextGang + 1 }
  have hadded : RolesAdded s1 (s1.addRoles s.nextGang g sh args pts sh.roles) := State.rolesAdded_addRoles _
  have ht : t = g.cores.foldl (fun s c => (s.raisePts c pts).trimL1 c) (s1.addRoles s.nextGang g sh args pts sh.roles) := s.admitGang_eq sh g args pts
  have hrisen : CoresRisen (s1.addRoles s.nextGang g sh args pts sh.roles) t := ht ▸ State.coresRisen_acquires g.cores
  have hroles : t.roles = (s1.addRoles s.nextGang g sh args pts sh.roles).roles := by rw [hrisen.rest]
  refine ⟨?_, ?_, fun k hk => ?_, ?_, fun c hc => ?_, fun i j rs x hrs hx => ?_⟩
  · rw [hrisen.rest, State.gang?, hadded.gangs]
    exact Sparse.find_put_same _ _ _
  · rw [hrisen.rest]
    exact hadded.nextGang
  · rw [State.role?, hroles]
    exact hadded.roles k hk
  · rw [hrisen.rest]
    exact hadded.mem
  · rw [ht]
    exact State.le_pts_acquires hc
  · obtain ⟨k, q, hk, hq, hstarts⟩ := State.role_addRoles (s := s1) (gid := s.nextGang) (g := g) (args := args) (pts := pts) (Shape.mem_roles hrs hx)
    obtain ⟨hgang, ⟨hteam, hix, hrank, hcore⟩, ⟨hlanes, hbudget⟩, ⟨hpc, hclause⟩, ⟨hhandler, hended⟩, ⟨hvmid, hasid, hprio⟩, hsregs, hvregs, hmask,
      ⟨hstack, hrsbase, hlimit⟩, htvec⟩ := hstarts
    refine ⟨k, q, hk, ?_, hgang, hteam, hix, hrank, hcore, hlanes, hbudget, hpc, hclause, hhandler, hended, hvmid, hasid, hprio, hsregs, hvregs, hmask,
      hstack, hrsbase, hlimit, htvec⟩
    rw [State.role?, hroles]
    exact hq

end Sys2Proof.Claim
end

section
/-! SUPPORT. The issue of a word's elements (10 R218, R219): where they stand, and the first that fails a check of issue. -/
namespace Sys2Proof.Machine

section
variable {s : State} {r : Role} {a : Acc} {z align : Nat}

theorem State.firstIssue_of_passes {es : List ElemReq} (h : ∀ e ∈ es, s.issueCause r a e.ea z align = none) : s.firstIssue r a z align es = none :=
  List.findSome?_eq_none_iff.mpr fun e he => Option.map_eq_none_iff.mpr (h e he)

theorem State.firstIssue_of_fails {pre post : List ElemReq} {e : ElemReq} {c : Nat} (hpre : ∀ x ∈ pre, s.issueCause r a x.ea z align = none)
    (hc : s.issueCause r a e.ea z align = some c) : s.firstIssue r a z align (pre ++ e :: post) = some (c, addr64 e.ea) := by
  have hnone : pre.findSome? (fun e => (s.issueCause r a e.ea z align).map fun c => (c, addr64 e.ea)) = none := State.firstIssue_of_passes hpre
  rw [State.firstIssue, List.findSome?_append, hnone, List.findSome?_cons, hc]
  rfl

end
end Sys2Proof.Machine

namespace Sys2Proof.Claim
open Sys2Proof.Machine

/-- A word whose meaning runs on the issuing role. -/
theorem exec_of_onRole {i : Instr} {s : State} {r : Role} {f : Nat → Role → State} (hr : Issuing s r) (h : exec i s = onRole s f) :
    exec i s = .next (f s.cur r) := h.trans (onRole_next s f r hr)

theorem inARow_eq (r : Role) (d : RegName) (m : BitVec 3) (e : Int) (z : Nat) (k : ElemOp) :
    inARow r d m e z k = elemsFrom r (r.formLanes d m) e z d k := rfl

end Sys2Proof.Claim
end

section
/-! SUPPORT. Loads and stores: the issue of elements, and the words that have them (06 R157, 10 R219-R224, R231). -/
namespace Sys2Proof.Claim
open Sys2Proof.Machine

/-! ### What loads and stores do -/

section
variable {i : Instr} {s : State} {r : Role} {ty : Ty} {cls : AccClass} {es : List ElemReq} {fix : Role → Role}

theorem loadIssues_of_issueLoad {view : Option Nat} {d : RegName} {ws : Nat} {got : List (Nat × Word)} {undo : Option (Nat × Nat)}
    (h : exec i s = .next (s.issueLoad s.cur r ty cls view d ws es got undo fix)) : LoadIssues i s r ty cls view d ws es got undo fix id := by
  have hempty : (es.isEmpty && got.isEmpty) = true ↔ es = [] ∧ got = [] := by simp
  have hoverlap : (es.any fun e => s.overlapsLog s.cur r e.ea.toNat ty.bytes) = true ↔ ∃ e ∈ es, ¬s.overlapsLog s.cur r e.ea.toNat ty.bytes = false := by
    simp
  have hdrains : (view.isSome && s.opsDue s.cur r fun o _ => o.inOrder) = true ↔ view ≠ none ∧ s.opsDue s.cur r (fun o _ => o.inOrder) = true := by
    simp [Option.isSome_iff_ne_none]
  unfold LoadIssues
  rw [h, State.issueLoad]
  dsimp only
  refine ⟨fun pre e post c hsplit hpre hc => ?_, fun hnil hgot => ?_, fun hok hlogged => ?_, fun hsome hok hclear hwaits => ?_,
    fun hsome hok hclear hgo => ?_⟩
  · rw [hsplit, State.firstIssue_of_fails hpre hc]
    rfl
  · rw [hnil, hgot]
    rfl
  · have hsome : ¬(es = [] ∧ got = []) := by
      rintro ⟨rfl, -⟩
      simp at hlogged
    rw [State.firstIssue_of_passes hok, if_neg (hempty.not.mpr hsome), if_pos (hoverlap.mpr hlogged)]
    rfl
  · rw [State.firstIssue_of_passes hok, if_neg (hempty.not.mpr hsome),
      if_neg (hoverlap.not.mpr fun ⟨e, he, hlogged⟩ => hlogged (hclear e he)), if_pos (hdrains.mpr hwaits)]
    rfl
  · rw [State.firstIssue_of_passes hok, if_neg (hempty.not.mpr hsome),
      if_neg (hoverlap.not.mpr fun ⟨e, he, hlogged⟩ => hlogged (hclear e he)), if_neg (hdrains.not.mpr hgo)]
    refine ⟨fun xs s1 htargets => ?_, fun xs w e rest s1 htargets => ?_⟩
    · rw [htargets]
      rfl
    · rw [htargets]
      rfl

theorem storeIssues_of_issueStore
    (hfails : ∀ c a, s.firstIssue r .store ty.bytes ty.bytes es = some (c, a) → exec i s = .next (s.trap s.cur c a))
    (hpasses : s.firstIssue r .store ty.bytes ty.bytes es = none → exec i s = .next (s.issueStore s.cur r ty cls es fix)) :
    StoreIssues i s r ty cls es fix := by
  refine ⟨fun pre e post c hsplit hpre hc => ?_, fun hnil => ?_, fun e0 rest hcons hok => ?_⟩
  · exact hfails _ _ (hsplit ▸ State.firstIssue_of_fails hpre hc)
  · subst hnil
    exact hpasses rfl
  · rw [hpasses (State.firstIssue_of_passes hok)]
    subst hcons
    refine ⟨fun hopen hfull => ?_, fun hopen hroom hlog => ?_, fun hopen hroom hlog => ?_, fun hclosed xs s1 htargets => ?_,
      fun hclosed xs w e left s1 htargets => ?_⟩
    · rw [State.issueStore, if_pos hopen, if_pos hfull]
      rfl
    · rw [State.issueStore, if_pos hopen, if_neg (not_le.mpr hroom), if_neg (by simpa using hlog)]
    · rw [State.issueStore, if_pos hopen, if_neg (not_le.mpr hroom), if_pos (by simpa using hlog)]
      rfl
    · rw [State.issueStore, if_neg (Bool.eq_false_iff.mp hclosed), htargets]
    · intro s2 after s3
      rw [State.issueStore, if_neg (Bool.eq_false_iff.mp hclosed), htargets]
      dsimp only
      have hafter : (if xs.isEmpty then 0 else 1) = if xs = [] then 0 else 1 := by simp only [List.isEmpty_iff]
      rw [hafter]
      refine ⟨fun hstop => congrArg Host.Outcome.next (if_pos hstop), fun hgo q hq => ?_⟩
      refine (congrArg Host.Outcome.next (if_neg (Bool.eq_false_iff.mp hgo))).trans ?_
      split
      next p hp =>
        obtain rfl : p = q := Option.some.inj (hp.symm.trans hq)
        by_cases hxs : xs = []
        · exact congrArg Host.Outcome.next ((if_pos (List.isEmpty_iff.mpr hxs)).trans (if_pos hxs).symm)
        · exact congrArg Host.Outcome.next ((if_neg (List.isEmpty_iff.not.mpr hxs)).trans (if_neg hxs).symm)
      next hp => exact absurd (hp.symm.trans hq) (Option.some_ne_none q).symm

end

/-! ### The words (R222-R224, R231) -/

section
variable {s : State} {r : Role} (hr : Issuing s r)
include hr

theorem loadM_issues {i : Instr} {o : FmtM} {ea : Role → Except Word Int} {e : Int} (h : exec i s = loadM o ea s) (hea : ea r = .ok e) :
    LoadIssues i s r o.ty (accClassOf o.acl) (r.viewOf o.view) o.d o.ws.toNat (inARow r o.d o.mask e o.ty.bytes .load) [] none id id := by
  refine loadIssues_of_issueLoad ?_
  rw [h, loadM, onRole_next _ _ _ hr, hea]
  rfl

theorem storeM_issues {i : Instr} {o : FmtM} {ea : Role → Except Word Int} {e : Int} (h : exec i s = storeM o ea s) (hea : ea r = .ok e) :
    StoreIssues i s r o.ty (accClassOf o.acl) (inARow r o.d o.mask e o.ty.bytes .store) id := by
  rw [storeM, onRole_next _ _ _ hr, hea] at h
  dsimp only at h
  rw [← inARow_eq] at h
  refine storeIssues_of_issueStore (fun c a hfirst => ?_) fun hfirst => ?_
  · rw [h, hfirst]
  · rw [h, hfirst]

theorem loadM_outside {o : FmtM} {ea : Role → Except Word Int} {a : Word} (hea : ea r = .error a) :
    loadM o ea s = .next (s.trap s.cur cNOTPRESENT a) := by
  rw [loadM, onRole_next _ _ _ hr, hea]

theorem storeM_outside {o : FmtM} {ea : Role → Except Word Int} {a : Word} (hea : ea r = .error a) :
    storeM o ea s = .next (s.trap s.cur cNOTPRESENT a) := by
  rw [storeM, onRole_next _ _ _ hr, hea]

end

theorem windowEA_inside {r : Role} {o : FmtM} {lo : Nat} (h0 : 0 ≤ eaOf r o.base o.off.toInt) (h40 : eaOf r o.base o.off.toInt < 2 ^ 40) :
    windowEA o lo r = .ok (lo + eaOf r o.base o.off.toInt) :=
  if_neg (not_or.mpr ⟨not_lt.mpr h0, not_le.mpr h40⟩)

theorem windowEA_outside {r : Role} {o : FmtM} {lo : Nat} (h : ¬(0 ≤ eaOf r o.base o.off.toInt ∧ eaOf r o.base o.off.toInt < 2 ^ 40)) :
    windowEA o lo r = .error (addr64 (eaOf r o.base o.off.toInt)) :=
  if_pos (by rwa [not_and_or, not_le, not_lt] at h)

theorem gathered_eq (r : Role) (o : FmtMA) (hd : o.d.isScalar = false) :
    ((inARow r o.d o.mask (eaOf r o.base o.off.toInt) 0 .load).map fun e => { e with ea := e.ea + (r.vreg o.a.num e.lane).toInt }) =
      gatherElems o r .load := by
  have hlanes : r.formLanes o.d o.mask = r.active o.mask := by simp [Role.formLanes, hd]
  rw [inARow_eq, hlanes, elemsFrom, List.map_map]
  refine List.map_congr_left fun l _ => ?_
  simp [Role.read, hd, eaOf, Role.based, offMA]

theorem loadsIssue : LoadsIssue := by
  refine ⟨fun s r o hr => ⟨?_, fun h0 h40 => ⟨?_, ?_⟩, fun hout => ⟨?_, ?_⟩⟩, fun s r o hr hd => ?_⟩
  · exact loadM_issues hr (ea := plainEA o) rfl rfl
  · exact loadM_issues hr rfl (windowEA_inside h0 h40)
  · exact loadM_issues hr rfl (windowEA_inside h0 h40)
  · exact loadM_outside hr (windowEA_outside hout)
  · exact loadM_outside hr (windowEA_outside hout)
  · rw [gathered_eq r o hd]
    refine loadIssues_of_issueLoad ?_
    rw [exec_of_onRole hr (show exec (.gath o) s = execGath o s from rfl)]

theorem storesIssue : StoresIssue := by
  refine fun s r o hr => ⟨?_, fun h0 h40 => ⟨?_, ?_⟩, fun hout => ⟨?_, ?_⟩⟩
  · exact storeM_issues hr (ea := plainEA o) rfl rfl
  · exact storeM_issues hr rfl (windowEA_inside h0 h40)
  · exact storeM_issues hr rfl (windowEA_inside h0 h40)
  · exact storeM_outside hr (windowEA_outside hout)
  · exact storeM_outside hr (windowEA_outside hout)

/-- Settles O16: a word's elements are those of its form, and each branch of the issue is a clause. -/
theorem loadsAndStoresIssue : Obligations.LoadsAndStoresIssue := ⟨loadsIssue, storesIssue⟩

end Sys2Proof.Claim
end

section
/-! SUPPORT. Atomics and reductions: what a failed walk leaves of the elements, and the line updates that RED sends (10 R219, R233-R237). -/
namespace Sys2Proof.Machine

/-! ### What is left of elements whose walk fails (R219, R223) -/

section
variable {r : Role} {a : Acc} {view : Option Nat} {plain : Bool} {z : Nat} {w : WalkRes} {left : List ElemReq}

/-- The walk stops at one of the elements, and what is left begins there. -/
theorem State.targetsFrom_left {viaL1 : Nat → Option L1Line} {s : State} {pages : List (Nat × Reach)} {es : List ElemReq}
    (h : (s.targetsFrom r a view plain z viaL1 pages es).2.1 = some (w, left)) : left <:+ es := by
  induction es generalizing s pages with
  | nil => exact absurd h (Option.some_ne_none _).symm
  | cons e es ih =>
    have hcons {t : State} {ps : List (Nat × Reach)} (h : (t.targetsFrom r a view plain z viaL1 ps es).2.1 = some (w, left)) : left <:+ e :: es :=
      (ih h).trans (List.suffix_cons e es)
    rw [State.targetsFrom] at h
    dsimp only at h
    split at h
    · exact hcons h
    · split at h
      · exact hcons h
      · split at h
        · obtain ⟨-, rfl⟩ := Prod.mk.inj (Option.some.inj h)
          exact List.suffix_rfl
        · exact hcons h
        · exact hcons h
        · exact hcons h

theorem State.mem_of_targetsOf {s s1 : State} {l1 : Bool} {es rest : List ElemReq} {xs : List OpElem} {e : ElemReq}
    (h : s.targetsOf r a view plain l1 z es = (xs, some (w, e :: rest), s1)) : e ∈ es :=
  (State.targetsFrom_left (congrArg (·.2.1) h)).subset List.mem_cons_self

end

theorem bytes_pos (t : Ty) : 0 < t.bytes := by cases t <;> decide

/-- An address that passes the first check of issue is that of a 64-bit word. -/
theorem toNat_addr64_of_canonRange {ea : Int} {n : Nat} (hn : 0 < n) (h : canonRange ea n = true) : (addr64 ea).toNat = ea.toNat := by
  have hrange : 0 ≤ ea ∧ ea < 2 ^ 64 := by
    simp only [canonRange, Bool.or_eq_true, Bool.and_eq_true, decide_eq_true_eq] at h
    omega
  obtain ⟨x, rfl⟩ := Int.eq_ofNat_of_zero_le hrange.1
  rw [addr64, BitVec.ofInt_natCast, BitVec.toNat_ofNat, Int.toNat_natCast]
  exact Nat.mod_eq_of_lt (by omega)

theorem State.canonRange_of_passes {s : State} {r : Role} {a : Acc} {ea : Int} {z align : Nat} (h : s.issueCause r a ea z align = none) :
    canonRange ea z = true := by
  by_contra hcanon
  rw [State.issueCause, if_pos (by simpa using hcanon)] at h
  exact Option.some_ne_none _ h

/-! ### The line updates of a reduction (R236, R237) -/

/-- A line update that role `rid` sends with operation `op` under the flow word `flow`. -/
def SentFor (rid : Nat) (op : RedOp) (flow : Word) (u : LineUpdate) : Prop :=
  u.rid = rid ∧ u.ord = flow.getLsbD 63 ∧ u.flow.toNat = flow.toNat / 2 ^ 16 % 2 ^ 12 ∧ u.seq.toNat = flow.toNat % 2 ^ 16 ∧ u.op = op

/-- The parts of line updates. -/
def partCount (us : List LineUpdate) : Nat := (us.map fun u => u.parts.length).sum

theorem elemUpdate_sentFor (core rid vmid p : Nat) (pc : Word) (op : RedOp) (flow : Word) (t : Ty) (pa va x : Nat) :
    SentFor rid op flow (elemUpdate core rid vmid p pc op flow t pa va x) := by
  refine ⟨rfl, rfl, ?_, ?_, rfl⟩
  · simp [elemUpdate, flowId, BitVec.extractLsb'_toNat, Nat.shiftRight_eq_div_pow]
  · simp [elemUpdate, flowSeq, BitVec.extractLsb'_toNat]

section
variable {us : List LineUpdate} {u : LineUpdate}

/-- A part joins the last update where that is of its line, or it stands in an update of its own. -/
theorem addPart_cases (us : List LineUpdate) (u : LineUpdate) :
    (∃ init l, us = init ++ [l] ∧ addPart us u = init ++ [{ l with parts := l.parts ++ u.parts }]) ∨ addPart us u = us ++ [u] := by
  unfold addPart
  split
  next l hlast =>
    obtain ⟨init, rfl⟩ := List.getLast?_eq_some_iff.mp hlast
    split
    · exact .inl ⟨init, l, rfl, by rw [List.dropLast_concat]⟩
    · exact .inr rfl
  · exact .inr rfl

theorem sentFor_addPart {rid : Nat} {op : RedOp} {flow : Word} (hus : ∀ x ∈ us, SentFor rid op flow x) (hu : SentFor rid op flow u) :
    ∀ x ∈ addPart us u, SentFor rid op flow x := by
  obtain ⟨init, l, rfl, hadd⟩ | hadd := addPart_cases us u
  · rw [hadd]
    rw [List.forall_mem_append, List.forall_mem_singleton] at hus ⊢
    exact hus
  · rw [hadd, List.forall_mem_append, List.forall_mem_singleton]
    exact ⟨hus, hu⟩

theorem partCount_addPart (us : List LineUpdate) (u : LineUpdate) : partCount (addPart us u) = partCount us + u.parts.length := by
  obtain ⟨init, l, rfl, hadd⟩ | hadd := addPart_cases us u
  · simp [hadd, partCount, Nat.add_assoc]
  · simp [hadd, partCount]

variable (r : Role) (rid : Nat) (pc : Word) (op : RedOp) (flow : Word) (ty : Ty)

theorem State.sentFor_redElems (s : State) (us : List LineUpdate) (xs : List (Nat × Nat × Word)) (hus : ∀ u ∈ us, SentFor rid op flow u) :
    ∀ u ∈ (s.redElems r rid pc op flow ty us xs).2.1, SentFor rid op flow u := by
  fun_induction State.redElems s r rid pc op flow ty us xs with
  | case1 => exact hus
  | case2 => exact hus
  | case3 s us x rest m s1 hspot u ih => exact ih (sentFor_addPart hus (elemUpdate_sentFor ..))
  | case4 => exact hus

/-- Where every element reaches its slot, the updates hold one part for each. -/
theorem State.partCount_redElems (s : State) (us : List LineUpdate) (xs : List (Nat × Nat × Word))
    (hall : (s.redElems r rid pc op flow ty us xs).1 = none) :
    partCount (s.redElems r rid pc op flow ty us xs).2.1 = partCount us + xs.length := by
  fun_induction State.redElems s r rid pc op flow ty us xs with
  | case1 => rfl
  | case2 => exact absurd hall (Option.some_ne_none _)
  | case3 s us x rest m s1 hspot u ih =>
    rw [ih hall, partCount_addPart, List.length_cons, Nat.add_assoc, Nat.add_comm rest.length 1]
    rfl
  | case4 => exact absurd hall (Option.some_ne_none _)

end
end Sys2Proof.Machine
end

section
/-! SUPPORT. Atomics and reductions: what they make of an element, and their issue (10 R233-R237). -/
namespace Sys2Proof.Claim
open Sys2Proof.Machine

/-! ### What an atomic makes of an element (R233-R235) -/

theorem atomicNewElements : AtomicNewElements := by
  refine ⟨by decide, fun t old x _ hx => ?_⟩
  have hmod : x % 2 ^ t.width = x := Nat.mod_eq_of_lt hx
  refine ⟨hmod, hmod, rfl, ?_, ?_, ?_, fun _ => ⟨?_, ?_, ?_, ?_⟩, fun f hf => ?_, fun e => ?_⟩
  · simp only [elemNew, hmod]
  · simp only [elemNew, hmod]
  · simp only [elemNew, hmod]
  · simp only [elemNew, hmod]
    split
    next h => exact (min_eq_right h.le).symm
    next h => exact (min_eq_left (not_lt.mp h)).symm
  · simp only [elemNew, hmod]
    split
    next h => exact (max_eq_right h.le).symm
    next h => exact (max_eq_left (not_lt.mp h)).symm
  · simp only [elemNew, hmod]
    exact (ite_eq_or_eq _ _ _).symm
  · simp only [elemNew, hmod]
    exact (ite_eq_or_eq _ _ _).symm
  · simp only [elemNew, hmod, hf]
    rfl
  · simp only [elemNew, hmod]

/-! ### Issue (R234-R237) -/

theorem atomElems_eq (r : Role) (o : FmtMA) (k : Nat → ElemOp) :
    ((r.formLanes o.d o.mask).map fun l =>
      ({ lane := l, ea := r.based o.base (offMA o) + (o.ty.bytes * l : Nat), data := r.read o.a l, elem := k l } : ElemReq)) =
    (inARow r o.d o.mask (eaOf r o.base o.off.toInt) o.ty.bytes .load).map fun e => { e with data := r.read o.a e.lane, elem := k e.lane } := by
  rw [inARow_eq, elemsFrom, List.map_map]
  rfl

/-- The elements that RED makes differ from those of a store in their operation, which a reduction does not look at. -/
theorem redElems_eq (r : Role) (o : FmtMA) :
    ((r.formLanes o.d o.mask).map fun l => ({ lane := l, ea := r.based o.base (offMA o) + (16 * l : Nat), data := r.read o.d l } : ElemReq)) =
    (inARow r o.d o.mask (eaOf r o.base o.off.toInt) 16 .store).map fun e => { e with elem := .load } := by
  rw [inARow_eq, elemsFrom, List.map_map]
  rfl

/-- An element's operation has no part in the checks of issue. -/
theorem firstIssue_map_elem {s : State} {r : Role} {a : Acc} {z align : Nat} (es : List ElemReq) (k : ElemOp) :
    s.firstIssue r a z align (es.map fun e => { e with elem := k }) = s.firstIssue r a z align es := by
  rw [State.firstIssue, List.findSome?_map]
  rfl

section
variable {s : State} {r : Role} {o : FmtMA} (hr : Issuing s r)
include hr

/-- What every atomic does at its issue. -/
theorem atomicIssues {i : Instr} (op : Role → Nat → ElemOp) (h : exec i s = atomMA o op s) : AtomicIssues i s r o (op r) := by
  unfold AtomicIssues
  rw [h, atomMA, onRole_next _ _ _ hr]
  dsimp only
  rw [atomElems_eq]
  generalize List.map _ (inARow r o.d o.mask _ _ _) = es
  refine ⟨fun hnil => ?_, fun hsome hopen => ?_, fun hclosed pre e post c hsplit hpre hc => ?_, fun hsome hclosed hok => ?_⟩
  · rw [hnil]
    rfl
  · rw [if_neg (by simpa using hsome), if_pos hopen]
    rfl
  · subst hsplit
    rw [if_neg (by simp), if_neg (Bool.eq_false_iff.mp hclosed), State.firstIssue_of_fails hpre hc]
    rfl
  · rw [if_neg (by simpa using hsome), if_neg (Bool.eq_false_iff.mp hclosed), State.firstIssue_of_passes hok]
    refine ⟨fun xs s1 htargets => ?_, fun xs w e rest s1 htargets => ?_⟩
    · rw [htargets]
    · have haddr : (addr64 e.ea).toNat = e.ea.toNat :=
        toNat_addr64_of_canonRange (bytes_pos o.ty) (State.canonRange_of_passes (hok e (State.mem_of_targetsOf htargets)))
      rw [htargets, ← haddr]
      rfl

end

theorem atomicsAndReductionsIssue : AtomicsAndReductionsIssue := by
  intro s r o hr
  refine ⟨atomicIssues hr (fun _ _ => atomOp o.op) rfl, atomicIssues hr (fun r l => .cas (r.read o.d l)) rfl, ?_⟩
  rw [exec_of_onRole hr (show exec (.red o) s = execRed o s from rfl)]
  dsimp only
  rw [redElems_eq]
  generalize inARow r o.d o.mask _ 16 .store = es
  generalize hraw : es.map (fun e => (e.lane, e.ea.toNat, e.data)) = raw
  have hraw' : (es.map fun e => { e with elem := ElemOp.load }).map (fun e => (e.lane, e.ea.toNat, e.data)) = raw := by
    rw [List.map_map, ← hraw]
    rfl
  have hbehind : (es.map fun e => { e with elem := ElemOp.load }).any (fun e => s.loggedClear s.cur r e.ea.toNat 16) =
      es.any fun e => s.loggedClear s.cur r e.ea.toNat 16 := List.any_map
  have hlength : raw.length = es.length := by rw [← hraw, List.length_map]
  rw [firstIssue_map_elem, List.isEmpty_map, hbehind, hraw']
  have hwaits : (!es.isEmpty && decide (32 ≤ (s.core r.core).refused.length)) = true ↔ es ≠ [] ∧ 32 ≤ (s.core r.core).refused.length := by simp
  have hsent := State.sentFor_redElems r s.cur r.ipc (redOpOf o.op) (r.sreg o.a.num) o.ty s [] raw (List.forall_mem_nil _)
  have hparts := State.partCount_redElems r s.cur r.ipc (redOpOf o.op) (r.sreg o.a.num) o.ty s [] raw
  refine ⟨fun pre e post c hsplit hpre hc => ?_, fun hok hfull => ?_, fun hok hroom hlogged => ?_, fun hok hroom hclear => ?_⟩
  · rw [hsplit, State.firstIssue_of_fails hpre hc]
    rfl
  · rw [State.firstIssue_of_passes hok, if_pos (hwaits.mpr hfull)]
    rfl
  · rw [State.firstIssue_of_passes hok, if_neg (hwaits.not.mpr hroom), if_pos (List.any_eq_true.mpr hlogged)]
    rfl
  · rw [State.firstIssue_of_passes hok, if_neg (hwaits.not.mpr hroom), if_neg (mt List.any_eq_true.mp hclear)]
    refine ⟨fun us s1 hred => ?_, fun w x left us s1 hred => ?_⟩
    · rw [hred] at hsent hparts ⊢
      exact ⟨rfl, (hparts rfl).trans (by rw [hlength]; exact Nat.zero_add _), hsent⟩
    · rw [hred] at hsent ⊢
      exact ⟨hsent, rfl⟩

/-- Settles O18: the elements by the operation, and the issue by its cases. -/
theorem atomicsAndTheirElements : Obligations.AtomicsAndTheirElements := ⟨atomicNewElements, atomicsAndReductionsIssue⟩

end Sys2Proof.Claim
end

section
/-! SUPPORT. Counters, the acquire, and the clock of the scratchpad (06 R144, R153; 10 R238-R241). -/
namespace Sys2Proof.Machine

/-! ### The acquire (R153) -/

/-- The role that has acquired `v` from a counter, at the time `pts`. -/
def Role.acquired (r : Role) (d : RegName) (ws v pts : Nat) : Role :=
  { ((r.setSreg d.num (BitVec.ofNat 64 v)).bindSlot ws [d]).slotDone ws with sf := pts }.advance

theorem State.acquire_eq (s : State) (rid : Nat) (r : Role) (d : RegName) (ws v : Nat) :
    s.acquire rid r d ws v = s.setRole rid (r.acquired d ws v (s.core r.core).pts) := rfl

/-- A slot that an effect takes and gives back counts what it did. -/
theorem Role.waitCount_slotDone_bindSlot (r : Role) (ws : Nat) (ds : List RegName) (w : Nat) : ((r.bindSlot ws ds).slotDone ws).waitCount w = r.waitCount w := by
  simp only [Role.waitCount, Role.slotDone_waits, Role.bindSlot_waits, Sparse.get_set, if_true, Nat.add_sub_cancel]
  split
  next h => rw [h]
  next => rfl

/-! ### A share of the scratchpad and its clock (R144) -/

/-- The gang with an access to the share of `rank` at the time `t`. -/
def Gang.clocked (g : Gang) (rank t : Nat) : Gang := { g with spts := Sparse.set 0 g.spts rank t }

/-- The gang with `n` bytes of `x` written to the share of `rank`. -/
def Gang.written (g : Gang) (rank off n x : Nat) : Gang :=
  { g with shares := Sparse.set [] g.shares rank (writeBytes (g.shares.get [] rank) off x n) }

section
variable {s : State} {r : Role} {g : Gang} {rank off : Nat} (hgang : s.gang? r.gang = some g) (hcheck : s.spadCheck r.gang rank off = (s, false))
include hgang hcheck

theorem State.spotRead_spad (n : Nat) :
    let t := max (s.core r.core).pts (g.spts.get 0 rank)
    s.spotRead r (.spad rank off) n =
      (.ok (readBytes (g.shares.get [] rank) off n), (s.setGang r.gang (g.clocked rank t)).raisePts r.core t) := by
  simp only [State.spotRead, hcheck, State.spadTime, hgang, State.updGang_some hgang, State.spadGet, State.gang?_setGang_same, Bool.false_eq_true, if_false]
  rfl

theorem State.spotRmw_spad (n : Nat) (f : Nat → Nat) :
    let t := max (s.core r.core).pts (g.spts.get 0 rank + 1)
    let old := readBytes (g.shares.get [] rank) off n
    s.spotRmw r (.spad rank off) n f =
      (.ok (old, t), ((s.setGang r.gang (g.clocked rank t)).setGang r.gang ((g.clocked rank t).written rank off n (f old))).raisePts r.core t) := by
  simp only [State.spotRmw, hcheck, State.spadTime, hgang, State.updGang_some hgang, State.spadGet, State.spadPut,
    State.updGang_some (State.gang?_setGang_same _ _ _), State.gang?_setGang_same, Bool.false_eq_true, if_false, if_true]
  rfl

end

/-- A core whose clock rises to a time that is not before it stands at that time. -/
theorem State.pts_raisePts_max (s : State) (c n : Nat) : ((s.raisePts c (max (s.core c).pts n)).core c).pts = max (s.core c).pts n := by
  rw [State.pts_raisePts, max_eq_right (le_max_left _ _)]

end Sys2Proof.Machine
end

section
/-! SUPPORT. Counters, FENCE and the clock of the scratchpad (06 R144, R148, R153; 10 R238-R243). -/
namespace Sys2Proof.Claim
open Sys2Proof.Machine

/-! ### The scratchpad (R144) -/

theorem scratchpadClock : ScratchpadClock := by
  intro s r g rank off n f hgang hcheck p spts share old
  refine ⟨⟨_, g.clocked rank (max p spts), State.spotRead_spad hgang hcheck n, State.gang?_setGang_same .., Sparse.get_set_same .., rfl,
      State.pts_raisePts_max (s.setGang r.gang _) _ _, rfl, rfl⟩,
    ⟨_, (g.clocked rank (max p (spts + 1))).written rank off n (f old), State.spotRmw_spad hgang hcheck n f, State.gang?_setGang_same ..,
      Sparse.get_set_same .., State.pts_raisePts_max ((s.setGang r.gang _).setGang r.gang _) _ _, rfl, rfl, ?_, fun b hb => ?_, fun k hk => ?_⟩⟩
  · rw [Gang.written, Sparse.get_set_same, readBytes_writeBytes]
  · rw [Gang.written, Sparse.get_set_same]
    exact writeBytes_other _ _ _ _ _ hb
  · exact Sparse.get_set_other _ _ _ _ _ hk

/-! ### Counters (R238-R241) -/

theorem acquired_acquired (r : Role) (d : RegName) (ws v pts : Nat) : Acquired r (r.acquired d ws v pts) d ws v pts := by
  refine ⟨fun n => ?_, ?_, ?_, ?_, fun w => ?_, ?_⟩
  · rw [Role.acquired, Role.sreg_advance]
    exact Sparse.get_set 0 r.sregs d.num n _
  · rw [Role.acquired, Role.advance_vregs]
    rfl
  · rw [Role.acquired, Role.advance_eq]
  · rw [Role.acquired, Role.advance_eq]
    rfl
  · rw [Role.acquired, Role.advance_eq]
    exact Role.waitCount_slotDone_bindSlot r ws [d] w
  · rw [Role.acquired, Role.advance_eq, Role.advance_eq]
    rfl

section
variable {s s1 s2 : State} {r : Role} {ea : Int} {x : Spot} {d : RegName} {ws v w : Nat}

theorem counterSpot_of_counterAt (h : CounterAt s r ea x s1) (wr : Bool) : s.counterSpot s.cur r ea wr = .ok (x, s1) := by
  obtain ⟨hwindow, hissue, hdue, hspot⟩ := h
  simp only [State.counterSpot, hwindow, hissue, hdue, hspot, Bool.false_eq_true, if_false]

theorem counterSpot_of_windowOpen (h : s.windowOpen s.cur r = true) (ea : Int) (wr : Bool) :
    s.counterSpot s.cur r ea wr = .error (s.setRole s.cur (r.holdAt .window)) := by
  rw [State.counterSpot, if_pos h]

theorem waitCounter_below (h : CounterAt s r ea x s1) {target : Nat} (hbelow : s1.spotPeek r x 8 < target) (d : RegName) (ws : Nat) :
    s.waitCounter s.cur r ea target d ws = s1.setRole s.cur { r with hold := .counter ea.toNat } := by
  simp only [State.waitCounter, counterSpot_of_counterAt h, if_pos hbelow]
  rfl

theorem waitCounter_met (h : CounterAt s r ea x s1) {target : Nat} (hmet : target ≤ s1.spotPeek r x 8)
    (hread : s1.spotRmw r x 8 (fun old => old) = (.ok (v, w), s2)) (d : RegName) (ws : Nat) :
    s.waitCounter s.cur r ea target d ws = s2.setRole s.cur (r.acquired d ws v (s2.core r.core).pts) := by
  have hread' : s1.spotRmw r x 8 id = (.ok (v, w), s2) := hread
  simp only [State.waitCounter, counterSpot_of_counterAt h, if_neg (not_lt.mpr hmet), State.readCounter, hread', State.acquire_eq]

/-- No release takes its place inside the role's window. -/
theorem releaseReady_of_windowOpen (h : s.windowOpen s.cur r = true) (scope : Nat) : s.releaseReady s.cur r scope = false := by
  simp only [State.releaseReady, h, Bool.not_true, Bool.false_and]

variable (hr : Issuing s r)
include hr

section
variable {o : FmtMA} (hready : s.releaseReady s.cur r (scopeOf o.scope) = true) (hat : CounterAt s r (eaOf r o.base o.off.toInt) x s1)

theorem exec_cadd_unready (h : s.releaseReady s.cur r (scopeOf o.scope) = false) :
    exec (.cadd o) s = .next (s.setRole s.cur (r.holdAt (if s.windowOpen s.cur r then .window else .drain))) := by
  rw [show exec (.cadd o) s = execCadd o s from rfl, execCadd, execCadd.control', onRole_next _ _ _ hr]
  dsimp only
  rw [h]
  rfl

include hready hat

theorem exec_cadd_overflow (hover : 2 ^ 64 ≤ s1.spotPeek r x 8 + (r.sreg o.a.num).toNat) :
    exec (.cadd o) s = .next (s1.trap s.cur cCOUNTER_OVF (BitVec.ofInt 64 (eaOf r o.base o.off.toInt))) := by
  have hspot : s.counterSpot s.cur r (r.based o.base (offMA o)) true = .ok (x, s1) := counterSpot_of_counterAt hat true
  rw [show exec (.cadd o) s = execCadd o s from rfl, execCadd, execCadd.control', onRole_next _ _ _ hr]
  dsimp only
  rw [hready, hspot]
  dsimp only [bind, Except.bind]
  rw [if_neg (by simp), if_pos hover]
  rfl

theorem exec_cadd_adds (hfits : s1.spotPeek r x 8 + (r.sreg o.a.num).toNat < 2 ^ 64)
    (hadd : s1.spotRmw r x 8 (fun old => old + (r.sreg o.a.num).toNat) = (.ok (v, w), s2)) :
    exec (.cadd o) s = .next (s2.setRole s.cur (r.overwrite x.place 8 (v + (r.sreg o.a.num).toNat)).advance) := by
  have hspot : s.counterSpot s.cur r (r.based o.base (offMA o)) true = .ok (x, s1) := counterSpot_of_counterAt hat true
  rw [show exec (.cadd o) s = execCadd o s from rfl, execCadd, execCadd.control', onRole_next _ _ _ hr]
  dsimp only
  rw [hready, hspot]
  dsimp only [bind, Except.bind]
  rw [if_neg (by simp), if_neg (not_le.mpr hfits), hadd]

end

theorem exec_cwait (o : FmtMA) :
    exec (.cwait o) s = .next (s.waitCounter s.cur r (eaOf r o.base o.off.toInt) (r.sreg o.a.num).toNat o.d o.ws.toNat) := by
  rw [exec_of_onRole hr (show exec (.cwait o) s = execCwait o s from rfl)]
  rfl

theorem exec_cread_windowOpen (o : FmtMA) (h : s.windowOpen s.cur r = true) : exec (.cread o) s = .next (s.setRole s.cur (r.holdAt .window)) := by
  rw [exec_of_onRole hr (show exec (.cread o) s = execCread o s from rfl)]
  dsimp only
  rw [counterSpot_of_windowOpen h]

theorem exec_cread_reads {o : FmtMA} (hat : CounterAt s r (eaOf r o.base o.off.toInt) x s1) (hread : s1.spotRead r x 8 = (.ok v, s2)) :
    exec (.cread o) s = .next (s2.setRole s.cur (r.acquired o.d o.ws.toNat v (s2.core r.core).pts)) := by
  have hspot : s.counterSpot s.cur r (r.based o.base (offMA o)) false = .ok (x, s1) := counterSpot_of_counterAt hat false
  rw [exec_of_onRole hr (show exec (.cread o) s = execCread o s from rfl)]
  dsimp only
  rw [hspot]
  dsimp only
  rw [hread]
  rfl

/-- TLWAIT waits for the timeline of the context that its queue register names. -/
theorem exec_tlwait_waits {o : FmtQ}
    (h : (∃ d c, r.queues.find o.q.toNat = some (.shared d c) ∧
        ea = (((BitVec.ofNat 57 (s.ctx (.shared d c)).tladdr).signExtend 64).toNat : Int)) ∨
      (r.queues.find o.q.toNat = some .localCtx ∧ ea = s.teamTimeline r.gang r.team)) :
    exec (.tlwait o) s = .next (s.waitCounter s.cur r ea (r.sreg o.a.num).toNat o.d o.ws.toNat) := by
  rw [exec_of_onRole hr (show exec (.tlwait o) s = execTlwait o s from rfl)]
  obtain ⟨d, c, hq, rfl⟩ | ⟨hq, rfl⟩ := h
  · rw [hq]
    rfl
  · rw [hq]

theorem exec_tlwait_unbound {o : FmtQ} (hshared : ∀ d c, r.queues.find o.q.toNat ≠ some (.shared d c))
    (hlocal : r.queues.find o.q.toNat ≠ some .localCtx) : exec (.tlwait o) s = .next (s.trap s.cur cQUEUE 0) := by
  rw [exec_of_onRole hr (show exec (.tlwait o) s = execTlwait o s from rfl)]
  generalize r.queues.find o.q.toNat = q at hshared hlocal ⊢
  match q with
  | some (.shared d c) => exact absurd rfl (hshared d c)
  | some .localCtx => exact absurd rfl hlocal
  | some .composer | some .encoder | none => rfl

end

theorem countersReleaseAndAcquire : CountersReleaseAndAcquire := by
  refine ⟨fun s r o hr => ⟨fun x s1 hat hready => ⟨exec_cadd_overflow hr hready hat, fun hfits v w s2 => exec_cadd_adds hr hready hat hfits⟩,
      fun hunready hclosed => ?_, fun hopen => ⟨?_, ?_, exec_cread_windowOpen hr o hopen⟩, fun x s1 hat => ⟨fun hbelow => ?_, fun v s2 hread => ?_,
        fun v w s2 hread hmet => ?_⟩⟩,
    fun s r o hr => ⟨fun ea htimeline x s1 hat => ⟨fun hmet v w s2 hread => ?_, fun hbelow => ?_⟩, exec_tlwait_unbound hr⟩⟩
  · rw [exec_cadd_unready hr hunready, hclosed]
    rfl
  · rw [exec_cadd_unready hr (releaseReady_of_windowOpen hopen _), hopen]
    rfl
  · rw [exec_cwait hr, State.waitCounter, counterSpot_of_windowOpen hopen]
    rfl
  · rw [exec_cwait hr, waitCounter_below hat hbelow]
  · exact ⟨_, exec_cread_reads hr hat hread, acquired_acquired ..⟩
  · exact ⟨_, (exec_cwait hr o).trans (congrArg _ (waitCounter_met hat hmet hread ..)), acquired_acquired ..⟩
  · exact ⟨_, (exec_tlwait_waits hr htimeline).trans (congrArg _ (waitCounter_met hat hmet hread ..)), acquired_acquired ..⟩
  · rw [exec_tlwait_waits hr htimeline, waitCounter_below hat hbelow]

/-! ### FENCE (R148, R243) -/

theorem fenceSetsTheFloor : FenceSetsTheFloor := by
  intro s r o hr scope
  have hexec : exec (.fence o) s = .next (if s.windowOpen s.cur r then s.setRole s.cur (r.holdAt .window)
      else if s.fenceReady s.cur r scope then s.setRole s.cur { r with sf := (s.core r.core).pts }.advance else s.setRole s.cur (r.holdAt .drain)) := by
    rw [exec_of_onRole hr (show exec (.fence o) s = execFence o s from rfl)]
    rfl
  refine ⟨fun hopen => ?_, fun hclosed hnot => ?_, fun hclosed hready => ?_, fun hready => ?_⟩
  · rw [hexec, if_pos hopen]
    rfl
  · rw [hexec, if_neg (Bool.eq_false_iff.mp hclosed), if_neg (Bool.eq_false_iff.mp hnot)]
    rfl
  · rw [if_neg (Bool.eq_false_iff.mp hclosed), if_pos hready] at hexec
    refine completes_of _ _ _ _ hexec ⟨?_, ⟨fun n => Role.sreg_advance _ n, fun n l _ => Role.vreg_advance _ n l⟩, ?_⟩
    · rw [Role.advance_eq]
    · rw [Role.advance_eq, Role.advance_eq]
  · simp only [State.fenceReady, Bool.and_eq_true, Bool.not_eq_true'] at hready
    obtain ⟨⟨⟨⟨hclosed, haccess⟩, hred⟩, hjobs⟩, hpeer⟩ := hready
    refine ⟨hclosed, hjobs, hred, fun hpod => ?_, fun p hp e he => ?_⟩
    · simpa [hpod] using hpeer
    · rw [State.accessDue, State.opsDue, List.any_eq_false] at haccess
      simpa using List.any_eq_false.mp (Bool.not_eq_true _ ▸ haccess p hp) e he

/-- Settles O19: the counters by their rules, the fence by its readiness, and the scratchpad by its two accesses. -/
theorem countersFencesAndTheScratchpad : Obligations.CountersFencesAndTheScratchpad :=
  ⟨countersReleaseAndAcquire, fenceSetsTheFloor, scratchpadClock⟩

end Sys2Proof.Claim
end

section
/-! SUPPORT. Queue targets, commands at issue, queue registers, views and the write version (04 R104; 11 R246, R247, R249, R252, R259, R260). -/
namespace Sys2Proof.Machine

/-! ### Targets (R246, R247, R249) -/

/-- The context that a target names is the role's to use: a shared one is enabled and the role's own, a composer or an encoder is enabled. -/
def State.admits (s : State) (r : Role) (t : QTarget) : Bool :=
  match t with
  | .shared _ _ => s.sharedOk r (s.ctxIdOf r t)
  | .localCtx => true
  | .composer | .encoder => (s.ctx (s.ctxIdOf r t)).en

/-! ### Fields that the move past a word does not look at -/

/-- Past its word, a role that issued on a slot differs in its slots and its bindings alone. -/
theorem Role.advance_bindSlot (r : Role) (w : Nat) (ds : List RegName) :
    (r.bindSlot w ds).advance = { r.advance with waits := (r.bindSlot w ds).waits, bound := (r.bindSlot w ds).bound } := by
  rw [Role.advance_eq, Role.advance_eq r]
  rfl

theorem Role.waitCount_bindSlot (r : Role) (ws : Nat) (ds : List RegName) (w : Nat) :
    (r.bindSlot ws ds).waitCount w = r.waitCount w + if w = ws then 1 else 0 := by
  rw [Role.waitCount, Role.bindSlot_waits, Sparse.get_set]
  split
  next h => rw [h]
  next => rfl

/-- Past its word, a role that has bound a queue register, or unbound it, differs in its queue registers alone. -/
theorem Role.advance_bindQueue (r : Role) (k : Nat) (t : Option QTarget) :
    (r.bindQueue k t).advance = { r.advance with queues := (r.bindQueue k t).queues } := by
  rw [Role.advance_eq, Role.advance_eq r]
  rfl

theorem Role.advance_withViews (r : Role) (x : Sparse Nat) : { r with views := x }.advance = { r.advance with views := x } := by
  rw [Role.advance_eq, Role.advance_eq r]

theorem Role.advance_withWver (r : Role) (x : Nat) : { r with wver := x }.advance = { r.advance with wver := x } := by
  rw [Role.advance_eq, Role.advance_eq r]

/-! ### Commands at issue (R249) -/

/-- What is refused where either check fails goes on where both pass. -/
theorem ite_not_or_not {α : Type} (a b : Bool) (x y : α) : (if !a || !b then x else y) = if a && b then y else x := by
  rw [← Bool.not_and]
  cases a && b <;> rfl

/-- The state in which the role has issued a command to the context of the target. -/
def State.issueTo (s : State) (r : Role) (t : QTarget) (kind : CmdKind) (o : FmtQ) : State :=
  { s.setRole s.cur (r.bindSlot o.ws.toNat [o.d]).advance with
    issued := s.issued ++ [{ rid := s.cur, ctx := s.ctxIdOf r t, cmd := r.command s.cur kind o, pc := r.ipc, dst := o.d, ws := o.ws.toNat,
                             after := (s.core r.core).nextOp }],
    pending := s.pending ++ [.engineCommandAccept (s.ctxIdOf r t)] }

section
variable {s : State} {r : Role} (hr : s.role? s.cur = some r) (kind : CmdKind) {o : FmtQ}
include hr

theorem cmdWord_windowOpen (h : s.windowOpen s.cur r = true) : cmdWord kind o s = .next (s.setRole s.cur (r.holdAt .window)) := by
  rw [cmdWord, onRole_next _ _ _ hr, if_pos h]

variable (h : s.windowOpen s.cur r = false)
include h

theorem cmdWord_unbound (hq : r.queues.find o.q.toNat = none) : cmdWord kind o s = .next (s.trap s.cur cQUEUE 0) := by
  rw [cmdWord, onRole_next _ _ _ hr, if_neg (Bool.eq_false_iff.mp h), hq]

/-- At a bound register a command issues exactly where its target takes it and the context is the role's to use. -/
theorem cmdWord_bound {t : QTarget} (hq : r.queues.find o.q.toNat = some t) :
    cmdWord kind o s = .next (if accepts t kind && s.admits r t then s.issueTo r t kind o else s.trap s.cur cQUEUE 0) := by
  rw [cmdWord, onRole_next _ _ _ hr, if_neg (Bool.eq_false_iff.mp h), hq, ← ite_not_or_not]
  cases t with
  | shared d c | localCtx | composer | encoder => rfl

end

/-! ### QBIND (R246, R247, R252) -/

/-- The target that the word of QBIND names (R246). -/
def queueTarget (w : Word) : Option QTarget :=
  match wfield w 60 4 with
  | 1 => some (.shared (dieId (wfield w 8 2)) (Fin.ofNat 256 (wfield w 0 8)))
  | 2 => some .localCtx
  | 3 => some .composer
  | 4 => some .encoder
  | _ => none

theorem queueTarget_shared {w : Word} (h : wfield w 60 4 = 1) :
    queueTarget w = some (.shared (Fin.ofNat 4 (w.toNat / 2 ^ 8)) (Fin.ofNat 256 w.toNat)) := by
  have hdie : dieId (wfield w 8 2) = Fin.ofNat 4 (w.toNat / 2 ^ 8) := Fin.ext (Nat.mod_mod _ _)
  have hctx : Fin.ofNat 256 (wfield w 0 8) = Fin.ofNat 256 w.toNat := Fin.ext (by simp [wfield])
  simp only [queueTarget, h, hdie, hctx]

theorem queueTarget_localCtx {w : Word} (h : wfield w 60 4 = 2) : queueTarget w = some .localCtx := by simp only [queueTarget, h]
theorem queueTarget_composer {w : Word} (h : wfield w 60 4 = 3) : queueTarget w = some .composer := by simp only [queueTarget, h]
theorem queueTarget_encoder {w : Word} (h : wfield w 60 4 = 4) : queueTarget w = some .encoder := by simp only [queueTarget, h]

section
variable {s : State} {r : Role} {o : FmtQ} (hr : s.role? s.cur = some r)
include hr

theorem execQbind_refused (h : 5 ≤ wfield (r.sreg o.a.num) 60 4 ∨ wfield (r.sreg o.a.num) 58 2 = 3 ∨
      (wfield (r.sreg o.a.num) 58 2 ≠ 0 ∧ wfield (r.sreg o.a.num) 60 4 ≠ 2)) :
    execQbind o s = .next (s.trap s.cur cQUEUE 0) := by
  rw [execQbind, onRole_next _ _ _ hr]
  exact congrArg _ (if_pos (by simpa [or_assoc] using h))

/-- An action on the team's context is for handlers; in one it completes, and its role moves past the word. -/
theorem execQbind_acts (hkind : wfield (r.sreg o.a.num) 60 4 = 2) (hact : wfield (r.sreg o.a.num) 58 2 = 1 ∨ wfield (r.sreg o.a.num) 58 2 = 2) :
    ∃ t : State, execQbind o s = .next (if !r.handler then s.trap s.cur cPRIV 0 else t.setRole s.cur r.advance) := by
  have hlisted : ¬(5 ≤ wfield (r.sreg o.a.num) 60 4 ∨ wfield (r.sreg o.a.num) 58 2 = 3 ∨
      (wfield (r.sreg o.a.num) 58 2 ≠ 0 ∧ wfield (r.sreg o.a.num) 60 4 ≠ 2)) := by omega
  have hsome : wfield (r.sreg o.a.num) 58 2 ≠ 0 := by omega
  rw [execQbind, onRole_next _ _ _ hr]
  exact ⟨_, congrArg _ ((if_neg (by simpa [or_assoc] using hlisted)).trans (if_pos hsome))⟩

variable (hact : wfield (r.sreg o.a.num) 58 2 = 0)
include hact

theorem execQbind_unbinds (hkind : wfield (r.sreg o.a.num) 60 4 = 0) :
    execQbind o s = .next (s.setRole s.cur (r.bindQueue o.q.toNat none).advance) := by
  rw [execQbind, onRole_next _ _ _ hr]
  simp [hkind, hact]

/-- QBIND binds the register to the target that its word names, where the role may use its context. -/
theorem execQbind_binds {t : QTarget} (ht : queueTarget (r.sreg o.a.num) = some t) :
    execQbind o s = .next (if s.admits r t then s.setRole s.cur (r.bindQueue o.q.toNat (some t)).advance else s.trap s.cur cQUEUE 0) := by
  rw [execQbind, onRole_next _ _ _ hr]
  unfold queueTarget at ht
  split at ht
  case h_1 hkind | h_2 hkind | h_3 hkind | h_4 hkind =>
    obtain rfl := Option.some.inj ht
    dsimp only
    rw [hkind, hact]
    rfl
  case h_5 => cases ht

end

end Sys2Proof.Machine
end

section
/-! SUPPORT. Command instructions issue, queue registers bind, and views and the write version are set (04 R104; 10 R242; 11 R246-R260). -/
namespace Sys2Proof.Claim
open Sys2Proof.Machine

/-! ### Targets (R246, R247, R249) -/

theorem ctxIdOf_eq_contextOf (s : State) (r : Role) (t : QTarget) : s.ctxIdOf r t = contextOf s r t := by
  cases t <;> rfl

theorem admits_iff (s : State) (r : Role) (t : QTarget) : s.admits r t = true ↔ Admits s r t := by
  cases t with
  | shared d c =>
    simp only [State.admits, State.sharedOk, Bool.and_eq_true, beq_iff_eq, and_assoc]
    rfl
  | localCtx => exact iff_of_true rfl trivial
  | composer | encoder => exact Iff.rfl

theorem accepts_iff (t : QTarget) (k : CmdKind) : accepts t k = true ↔ Takes t k := by
  cases t with
  | shared d c | localCtx => cases k <;> simp [accepts, Takes]
  | composer | encoder => exact beq_iff_eq

/-! ### Commands (R242, R249) -/

/-- The command instructions, with the command that each of them issues. -/
def commandWords (o : FmtQ) : List (Instr × CmdKind) :=
  [(.copy o, .copy), (.tcopy o, .tcopy), (.put o, .put), (.get o, .get), (.halo o, .halo), (.ared o, .ared),
    (.publish o, .publish), (.pin o, .pin), (.vret o, .vret), (.fcomp o, .fcomp), (.encf o, .encf), (.close o, .close)]

theorem exec_commandWords (s : State) (o : FmtQ) : ∀ p ∈ commandWords o, exec p.1 s = cmdWord p.2 o s := by
  simp only [commandWords, List.forall_mem_cons]
  exact ⟨rfl, rfl, rfl, rfl, rfl, rfl, rfl, rfl, rfl, rfl, rfl, rfl, List.forall_mem_nil _⟩

/-- Settles O26: every command instruction is the one shared meaning, which looks at the window, the register, and the target in turn. -/
theorem commandsIssue : Obligations.CommandsIssue := by
  intro s r o hr p hp i k
  have hexec : exec i s = cmdWord k o s := exec_commandWords s o p hp
  rw [hexec]
  refine ⟨cmdWord_windowOpen hr k, cmdWord_unbound hr k, fun t hclosed hq => ?_⟩
  have hgo : (accepts t k && s.admits r t) = true ↔ Takes t k ∧ Admits s r t := by rw [Bool.and_eq_true, accepts_iff, admits_iff]
  rw [cmdWord_bound hr k hclosed hq]
  refine ⟨fun hbad => ?_, fun hgood => ⟨r.command s.cur k o, (r.bindSlot o.ws.toNat [o.d]).advance, ?_, rfl, rfl, rfl, rfl, rfl, rfl, rfl, rfl, rfl, rfl,
    ⟨fun n => ?_, fun n l _ => ?_⟩, ?_, fun w => ?_, ?_⟩⟩
  · rw [if_neg (mt hgo.mp hbad)]
  · rw [if_pos (hgo.mpr hgood), State.issueTo, ctxIdOf_eq_contextOf]
  · exact Role.sreg_advance _ n
  · exact Role.vreg_advance _ n l
  · rw [Role.advance_bindSlot]
    rfl
  · rw [Role.advance_bindSlot]
    exact Role.waitCount_bindSlot r _ [o.d] w
  · rw [Role.advance_bindSlot, Role.advance_eq]

/-! ### Queue registers (R246, R247, R252) -/

section
variable {s : State} {r : Role} {o : FmtQ} (hr : Issuing s r) (hact : wfield (r.sreg o.a.num) 58 2 = 0)
include hr hact

theorem completes_qbind_unbinds (hkind : wfield (r.sreg o.a.num) 60 4 = 0) :
    Completes (.qbind o) s fun q => { q with queues := r.queues } = r.advance ∧ q.queues = r.queues.del o.q.toNat := by
  refine completes_of _ _ _ _ (execQbind_unbinds hr hact hkind) ⟨?_, ?_⟩
  · rw [Role.advance_bindQueue, Role.advance_eq]
  · rw [Role.advance_bindQueue]
    rfl

variable {t : QTarget} (ht : queueTarget (r.sreg o.a.num) = some t)
include ht

theorem completes_qbind_binds (hadmits : Admits s r t) :
    Completes (.qbind o) s fun q => (∀ k, q.queues.find k = if k = o.q.toNat then some t else r.queues.find k) ∧ RegsKept r q ∧
      { q with queues := r.queues } = r.advance := by
  have hexec := execQbind_binds hr hact ht
  rw [if_pos ((admits_iff s r t).mpr hadmits)] at hexec
  refine completes_of _ _ _ _ hexec ⟨fun k => ?_, ⟨fun n => Role.sreg_advance _ n, fun n l _ => Role.vreg_advance _ n l⟩, ?_⟩
  · rw [Role.advance_bindQueue]
    change (r.queues.put o.q.toNat t).find k = _
    split
    next h => rw [h, Sparse.find_put_same]
    next h => exact Sparse.find_put_other _ _ _ _ h
  · rw [Role.advance_bindQueue, Role.advance_eq]

theorem exec_qbind_not_admitted (hadmits : ¬Admits s r t) : exec (.qbind o) s = .next (s.trap s.cur cQUEUE 0) :=
  (execQbind_binds hr hact ht).trans (by rw [if_neg (mt (admits_iff s r t).mp hadmits)])

end

theorem queueRegistersBind : QueueRegistersBind := by
  intro s r o hr w kind act shared binds refused
  have hkind : wfield (r.sreg o.a.num) 60 4 = kind := wfield_kind _
  have hact : wfield (r.sreg o.a.num) 58 2 = act := rfl
  refine ⟨fun h => execQbind_refused hr (hkind ▸ h), fun h2 h12 huser => ?_, fun h2 h12 hhandler => ?_, fun h0 => ?_⟩
  · obtain ⟨t, ht⟩ := execQbind_acts hr (hkind.trans h2) h12
    rw [huser] at ht
    exact ht
  · obtain ⟨t, ht⟩ := execQbind_acts hr (hkind.trans h2) h12
    rw [hhandler] at ht
    exact ⟨_, ht, State.role?_setRole_same _ _ _⟩
  · have hbinds {t : QTarget} (ht : queueTarget (r.sreg o.a.num) = some t) : Admits s r t → binds t := completes_qbind_binds hr (hact.trans h0) ht
    have hrefused {t : QTarget} (ht : queueTarget (r.sreg o.a.num) = some t) : ¬Admits s r t → refused :=
      exec_qbind_not_admitted hr (hact.trans h0) ht
    refine ⟨fun h => completes_qbind_unbinds hr (hact.trans h0) (hkind.trans h), fun h => hbinds (queueTarget_shared (hkind.trans h)),
      fun h => hrefused (queueTarget_shared (hkind.trans h)), fun h => hbinds (queueTarget_localCtx (hkind.trans h)) trivial, fun h => ?_, fun h => ?_⟩
    · split
      next hen => exact hbinds (queueTarget_composer (hkind.trans h)) hen
      next hen => exact hrefused (queueTarget_composer (hkind.trans h)) hen
    · split
      next hen => exact hbinds (queueTarget_encoder (hkind.trans h)) hen
      next hen => exact hrefused (queueTarget_encoder (hkind.trans h)) hen

/-! ### Views and the write version (R104, R259, R260) -/

section
variable {s : State} {r : Role} {o : FmtQ} (hr : Issuing s r)
include hr

theorem exec_viewset : exec (.viewset o) s = .next (s.setRole s.cur (if o.qmod.toNat % 16 = 0 then r.advance
    else { r with views := Sparse.set 0 r.views (o.qmod.toNat % 16) ((r.sreg o.a.num).toNat % 2 ^ 32) }.advance)) := by
  rw [show exec (.viewset o) s = execViewset o s from rfl, execViewset, wordStep, onRole_next _ _ _ hr, ← wfield_low, ← apply_ite Role.advance]

theorem exec_wverset : exec (.wverset o) s = .next (if s.windowOpen s.cur r then s.setRole s.cur (r.holdAt .window)
    else if s.opsDue s.cur r (fun p _ => p.kind == .store || p.kind == .atomic) then s.setRole s.cur (r.holdAt .drain)
    else s.setRole s.cur { r with wver := (r.sreg o.a.num).toNat % 2 ^ 32 }.advance) := by
  rw [exec_of_onRole hr (show exec (.wverset o) s = execWverset o s from rfl), wfield_low]

end

theorem viewsAndWriteVersion : ViewsAndWriteVersion := by
  intro s r o hr k v
  refine ⟨fun hk => ?_, fun hk => ?_, fun hopen => ?_, fun hclosed hdue => ?_, fun hclosed hdrained => ?_⟩
  · have hexec := exec_viewset (o := o) hr
    rw [if_pos hk] at hexec
    exact completes_of _ _ _ _ hexec rfl
  · have hexec := exec_viewset (o := o) hr
    rw [if_neg hk, Role.advance_withViews] at hexec
    exact completes_of _ _ _ _ hexec ⟨fun j => Sparse.get_set 0 r.views k j v, by rw [Role.advance_eq]⟩
  · rw [exec_wverset hr, if_pos hopen]
    rfl
  · rw [exec_wverset hr, if_neg (Bool.eq_false_iff.mp hclosed), if_pos hdue]
    rfl
  · have hexec := exec_wverset (o := o) hr
    rw [if_neg (Bool.eq_false_iff.mp hclosed), if_neg (Bool.eq_false_iff.mp hdrained), Role.advance_withWver] at hexec
    exact completes_of _ _ _ _ hexec ⟨rfl, by rw [Role.advance_eq]⟩

/-- Settles O27: QBIND by the target that its word names and the right to it, and the two settings case by case. -/
theorem bindingsViewsAndVersions : Obligations.BindingsViewsAndVersions := ⟨queueRegistersBind, viewsAndWriteVersion⟩

end Sys2Proof.Claim
end
